-- ==== Sys2Proof/Word.lean ====
section
/-!
DEFINITION. The word types of the SX7 and the fixed-size arrays over a wave's 32 lanes (R12, R22).
-/

namespace Sys2Proof

abbrev W8 := BitVec 8
abbrev W16 := BitVec 16
abbrev W32 := BitVec 32
abbrev W64 := BitVec 64

/-- One value for each of a wave's 32 lanes (R22). -/
abbrev Lanes (α : Type) := Vector α 32

/-- A value given lane by lane. -/
def Lanes.of {α : Type} (f : Fin 32 → α) : Lanes α := Vector.ofFn f

/-- The same value in every lane. -/
def Lanes.all {α : Type} (x : α) : Lanes α := Vector.replicate 32 x

/-- Lane `l`'s value. -/
def Lanes.at {α : Type} (v : Lanes α) (l : Fin 32) : α := v[l]

/-- The 32 lanes in ascending order. -/
def laneList : List (Fin 32) := List.finRange 32

/-- A 32-bit mask given lane by lane: bit `l` is lane `l` (R141). -/
def maskOf (f : Fin 32 → Bool) : W32 :=
  BitVec.ofNat 32 (laneList.foldl (fun acc l => if f l then acc + 2 ^ l.val else acc) 0)

/-- The low 32 bits of a 64-bit value. -/
def lo32 (x : W64) : W32 := x.setWidth 32

/-- Bits [63:32] of a 64-bit value. -/
def hi32 (x : W64) : W32 := (x >>> 32).setWidth 32

/-- A 64-bit value from its two halves (R55). -/
def pair64 (hi lo : W32) : W64 := (hi.setWidth 64 <<< 32) ||| lo.setWidth 64

/-- Bits [hi:lo] of a number. -/
def bitsOf (x hi lo : Nat) : Nat := x / 2 ^ lo % 2 ^ (hi + 1 - lo)

end Sys2Proof
end

