-- ==== Sys2Proof/Machine/Num.lean ====
section
/-!
DEFINITION. Number formats, rounding and conversion (R103 to R123), and exact arithmetic on the formats' values. A finite value is (-1)^neg times m times 2^e; `more` says that the exact magnitude lies strictly between m and m + 1 at that weight.
-/

namespace Sys2Proof.Machine

/-- Rounding modes with DEST resolved (R86, R115). -/
inductive RMode where
  | rne | rna | rz | rup | rdn
  deriving DecidableEq, Repr

/-- Element types, by TYPE code 0 to 14 (R85). -/
inductive Ty where
  | i32 | n32 | i64 | n64 | i8 | n8 | i16 | n16 | f32 | f64 | f16 | bf16 | e4m3 | e5m2 | e2m1
  deriving DecidableEq, Repr

/-- How a format treats its highest exponent (R107 to R109). -/
inductive Top where
  | infNan | nanOnly | finite
  deriving DecidableEq, Repr

/-- A floating-point format (R106): exponent bits, fraction bits, bias, top of the range. -/
structure Fmt where
  e : Nat
  m : Nat
  bias : Nat
  top : Top
  deriving DecidableEq, Repr

/-- A value of a format. -/
inductive FVal where
  | nan
  | inf (neg : Bool)
  | fin (neg : Bool) (m : Nat) (e : Int) (more : Bool)
  deriving DecidableEq, Repr

def fp64 : Fmt := ⟨11, 52, 1023, .infNan⟩
def fp32 : Fmt := ⟨8, 23, 127, .infNan⟩
def fp16 : Fmt := ⟨5, 10, 15, .infNan⟩
def bf16 : Fmt := ⟨8, 7, 127, .infNan⟩
def e5m2 : Fmt := ⟨5, 2, 15, .infNan⟩
def e4m3 : Fmt := ⟨4, 3, 7, .nanOnly⟩
def e2m1 : Fmt := ⟨2, 1, 1, .finite⟩

/-- The type of a TYPE code (R85). -/
def tyOf (c : Nat) : Option Ty :=
  match c with
  | 0 => some .i32 | 1 => some .n32 | 2 => some .i64 | 3 => some .n64 | 4 => some .i8
  | 5 => some .n8 | 6 => some .i16 | 7 => some .n16 | 8 => some .f32 | 9 => some .f64
  | 10 => some .f16 | 11 => some .bf16 | 12 => some .e4m3 | 13 => some .e5m2 | 14 => some .e2m1
  | _ => none

/-- The format of a floating-point type. -/
def fmtOf (t : Ty) : Option Fmt :=
  match t with
  | .f32 => some fp32 | .f64 => some fp64 | .f16 => some fp16 | .bf16 => some bf16
  | .e4m3 => some e4m3 | .e5m2 => some e5m2 | .e2m1 => some e2m1
  | _ => none

/-- The element width in bits (R85, R103, R106). -/
def tyBits (t : Ty) : Nat :=
  match t with
  | .i64 | .n64 | .f64 => 64
  | .i32 | .n32 | .f32 => 32
  | .i16 | .n16 | .f16 | .bf16 => 16
  | .i8 | .n8 | .e4m3 | .e5m2 => 8
  | .e2m1 => 4

/-- Whether lane operands are 64 bits wide (R156). -/
def tyWide (t : Ty) : Bool := tyBits t == 64

/-- Elements per lane (R85). -/
def tyCount (t : Ty) : Nat := if tyWide t then 1 else 32 / tyBits t

/-- Signed integer types (R103). -/
def tySigned (t : Ty) : Bool :=
  match t with
  | .i8 | .i16 | .i32 | .i64 => true
  | _ => false

/-- The sets of R156. -/
def tyInt (t : Ty) : Bool := (fmtOf t).isNone
def tyScal (t : Ty) : Bool := t == .i32 || t == .n32 || t == .i64 || t == .n64
def tyFp (t : Ty) : Bool := t == .f32 || t == .f64 || t == .f16 || t == .bf16
def tyFps (t : Ty) : Bool := t == .f32 || t == .f16 || t == .bf16

/-- ROUND with DEST resolved for a destination of `n` bits (R86). -/
def rmodeOf (code n : Nat) : RMode :=
  match code with
  | 1 => .rne | 2 => .rna | 3 => .rz | 4 => .rup | 5 => .rdn
  | _ => if n < 16 then .rna else .rne

/-! ### Encodings of special values (R107 to R109) -/

/-- Bits without the sign of the largest finite value. -/
def fmtMax (f : Fmt) : Nat :=
  match f.top with
  | .infNan => (2 ^ f.e - 1) * 2 ^ f.m - 1
  | .nanOnly => 2 ^ (f.e + f.m) - 2
  | .finite => 2 ^ (f.e + f.m) - 1

/-- The sign bit in place. -/
def fmtSign (f : Fmt) (neg : Bool) : Nat := if neg then 2 ^ (f.e + f.m) else 0

/-- The canonical NaN; E2M1 has none and delivers +0 (R119). -/
def fmtNan (f : Fmt) : Nat :=
  match f.top with
  | .infNan => (2 ^ f.e - 1) * 2 ^ f.m + 2 ^ (f.m - 1)
  | .nanOnly => 2 ^ (f.e + f.m) - 1
  | .finite => 0

/-- The largest finite value with a sign. -/
def fmtMaxBits (f : Fmt) (neg : Bool) : Nat := fmtSign f neg + fmtMax f

/-- What stands for an infinity (R116, R117, R119). -/
def fmtInf (f : Fmt) (sat neg : Bool) : Nat :=
  match f.top with
  | .infNan => if sat then fmtMaxBits f neg else fmtSign f neg + (2 ^ f.e - 1) * 2 ^ f.m
  | .nanOnly => if sat then fmtMaxBits f neg else fmtNan f
  | .finite => fmtMaxBits f neg

/-- The value of an encoding (R105, R107 to R109). -/
def decodeF (f : Fmt) (x : Nat) : FVal :=
  let neg := x / 2 ^ (f.e + f.m) % 2 == 1
  let e := x / 2 ^ f.m % 2 ^ f.e
  let m := x % 2 ^ f.m
  if f.top == .infNan && e == 2 ^ f.e - 1 then (if m == 0 then .inf neg else .nan)
  else if f.top == .nanOnly && e == 2 ^ f.e - 1 && m == 2 ^ f.m - 1 then .nan
  else if e == 0 then .fin neg m (1 - (f.bias : Int) - f.m) false
  else .fin neg (2 ^ f.m + m) ((e : Int) - f.bias - f.m) false

/-! ### Rounding (R115, R116) -/

/-- Whether a magnitude k + rest rounds up to k + 1, where the rest is compared with one half. -/
def roundsUp (r : RMode) (neg odd : Bool) (rest half : Nat) (more : Bool) : Bool :=
  let inexact := rest != 0 || more
  match r with
  | .rne => rest > half || (rest == half && (more || odd))
  | .rna => rest ≥ half
  | .rz => false
  | .rup => !neg && inexact
  | .rdn => neg && inexact

/-- m times 2^(-s), rounded to an integer. -/
def roundShift (r : RMode) (neg : Bool) (m : Nat) (s : Int) (more : Bool) : Nat :=
  match s with
  | .ofNat 0 => if more && (match r with | .rup => !neg | .rdn => neg | _ => false) then m + 1 else m
  | .ofNat (n + 1) =>
    let k := m / 2 ^ (n + 1)
    if roundsUp r neg (k % 2 == 1) (m % 2 ^ (n + 1)) (2 ^ n) more then k + 1 else k
  | .negSucc n => m * 2 ^ (n + 1)

/-- The result of an overflow (R116). -/
def overflowBits (f : Fmt) (r : RMode) (sat neg : Bool) : Nat :=
  match r, neg with
  | .rz, _ | .rup, true | .rdn, false => fmtMaxBits f neg
  | _, _ => fmtInf f sat neg

/-- The value of format f that the exact value m times 2^e rounds to (R115, R116). -/
def roundFin (f : Fmt) (r : RMode) (sat neg : Bool) (m : Nat) (e : Int) (more : Bool) : Nat :=
  if m == 0 && !more then fmtSign f neg
  else
    let q : Int := max ((m.log2 : Int) + e - f.m) (1 - (f.bias : Int) - f.m)
    let k := roundShift r neg m (q - e) more
    let bits := ((q + f.bias + f.m - 1).toNat) * 2 ^ f.m + k
    if bits > fmtMax f then overflowBits f r sat neg else fmtSign f neg + bits

/-- Rounding of a value to a format (R115 to R119). -/
def roundVal (f : Fmt) (r : RMode) (sat : Bool) (v : FVal) : Nat :=
  match v with
  | .nan => fmtNan f
  | .inf neg => fmtInf f sat neg
  | .fin neg m e more => roundFin f r sat neg m e more

/-! ### Exact operations -/

def fNeg (v : FVal) : FVal :=
  match v with
  | .nan => .nan
  | .inf n => .inf (!n)
  | .fin n m e s => .fin (!n) m e s

/-- The signed integer m or -m. -/
def signed (neg : Bool) (m : Nat) : Int := if neg then -(m : Int) else m

/-- Exact sum; an exact zero takes its sign from R118. -/
def fAdd (r : RMode) (x y : FVal) : FVal :=
  match x, y with
  | .nan, _ | _, .nan => .nan
  | .inf a, .inf b => if a == b then .inf a else .nan
  | .inf a, _ => .inf a
  | _, .inf b => .inf b
  | .fin na ma ea _, .fin nb mb eb _ =>
    let e := min ea eb
    let s := signed na (ma * 2 ^ (ea - e).toNat) + signed nb (mb * 2 ^ (eb - e).toNat)
    if s == 0 then
      (if ma == 0 && mb == 0 && na == nb then .fin na 0 e false else .fin (r == .rdn) 0 e false)
    else .fin (s < 0) s.natAbs e false

/-- Exact product (R118, R161). -/
def fMul (x y : FVal) : FVal :=
  match x, y with
  | .nan, _ | _, .nan => .nan
  | .inf a, .inf b => .inf (a != b)
  | .inf a, .fin b m _ _ | .fin b m _ _, .inf a => if m == 0 then .nan else .inf (a != b)
  | .fin na ma ea _, .fin nb mb eb _ => .fin (na != nb) (ma * mb) (ea + eb) false

/-- Quotient to 130 bits and a remainder flag (R160, R161). -/
def fDiv (x y : FVal) : FVal :=
  match x, y with
  | .nan, _ | _, .nan => .nan
  | .inf _, .inf _ => .nan
  | .inf a, .fin b _ _ _ => .inf (a != b)
  | .fin a _ _ _, .inf b => .fin (a != b) 0 0 false
  | .fin na ma ea _, .fin nb mb eb _ =>
    if mb == 0 then (if ma == 0 then .nan else .inf (na != nb))
    else .fin (na != nb) (ma * 2 ^ 130 / mb) (ea - eb - 130) (ma * 2 ^ 130 % mb != 0)

/-- The integer square root, bit by bit from bit `n - 1`. -/
def isqrtFrom (x : Nat) : Nat → Nat → Nat
  | 0, r => r
  | n + 1, r => let t := r + 2 ^ n; isqrtFrom x n (if t * t ≤ x then t else r)

/-- The integer square root of a number below 2^256. -/
def isqrt (x : Nat) : Nat := isqrtFrom x 128 0

/-- Square root (R162, R163). -/
def fSqrt (x : FVal) : FVal :=
  match x with
  | .nan => .nan
  | .inf n => if n then .nan else .inf false
  | .fin n m e _ =>
    if m == 0 then .fin n 0 0 false
    else if n then .nan
    else
      let s : Nat := if e % 2 == 0 then 130 else 131
      let r := isqrt (m * 2 ^ s)
      .fin false r ((e - s) / 2) (r * r != m * 2 ^ s)

/-- Reciprocal square root (R162, R163). -/
def fRsqrt (x : FVal) : FVal :=
  match x with
  | .nan => .nan
  | .inf n => if n then .nan else .fin false 0 0 false
  | .fin n m e _ =>
    if m == 0 then .inf n
    else if n then .nan
    else
      let m2 := if e % 2 == 0 then m else 2 * m
      let e2 := if e % 2 == 0 then e else e - 1
      let r := isqrt (2 ^ 240 / m2)
      .fin false r (-(e2 / 2) - 120) (r * r * m2 != 2 ^ 240)

/-- The value rounded to an integer; a zero keeps the sign (R163). -/
def fRoundInt (r : RMode) (x : FVal) : FVal :=
  match x with
  | .fin n m e more => .fin n (roundShift r n m (-e) more) 0 false
  | v => v

/-- x minus its floor (R163). -/
def fFract (x : FVal) : FVal :=
  match x with
  | .nan | .inf _ => .nan
  | .fin n m e _ =>
    let d : Nat := 2 ^ (-e).toNat
    let f := m % d
    if f == 0 then .fin false 0 0 false
    else if n then .fin false (d - f) e false
    else .fin false f e false

/-- x times 2^y; far exponents are cut to where every format has overflowed or vanished (R161). -/
def fScale (x : FVal) (y : Int) : FVal :=
  match x with
  | .fin n m e s => .fin n m (e + max (-8192) (min 8192 y)) s
  | v => v

/-- Order of R161 for MIN and MAX: the sign-magnitude order of the encodings, -0 below +0. -/
def fmtKey (f : Fmt) (x : Nat) : Int :=
  let neg := x / 2 ^ (f.e + f.m) % 2 == 1
  let mag : Int := (x % 2 ^ (f.e + f.m) : Nat)
  if neg then -mag - 1 else mag

/-- Order of R123: less, equal, greater, or none when either is a NaN. -/
def fCmp (x y : FVal) : Option Ordering :=
  match x, y with
  | .nan, _ | _, .nan => none
  | .inf a, .inf b => some (compare (!a).toNat (!b).toNat)
  | .inf a, _ => some (if a then .lt else .gt)
  | _, .inf b => some (if b then .gt else .lt)
  | .fin na ma ea _, .fin nb mb eb _ =>
    let e := min ea eb
    some (compare (signed na (ma * 2 ^ (ea - e).toNat)) (signed nb (mb * 2 ^ (eb - e).toNat)))

/-! ### Integers -/

/-- The value of an integer element (R103). -/
def intOf (t : Ty) (x : Nat) : Int :=
  if tySigned t && x ≥ 2 ^ (tyBits t - 1) then (x : Int) - 2 ^ tyBits t else x

/-- The range of an integer type. -/
def intMin (t : Ty) : Int := if tySigned t then -(2 ^ (tyBits t - 1)) else 0
def intMax (t : Ty) : Int := if tySigned t then 2 ^ (tyBits t - 1) - 1 else 2 ^ tyBits t - 1

/-- `Sat(x, t)` of R99. -/
def satInt (t : Ty) (x : Int) : Int := max (intMin t) (min (intMax t) x)

/-- An integer as an element: its low n bits. -/
def intBits (t : Ty) (x : Int) : Nat := (x % (2 ^ tyBits t : Int)).toNat

/-- An exact integer result reduced under R104. -/
def intRes (t : Ty) (sat : Bool) (x : Int) : Nat := intBits t (if sat then satInt t x else x)

/-- A floating-point value converted to an integer type (R120). -/
def toInt (t : Ty) (r : RMode) (v : FVal) : Nat :=
  match v with
  | .nan => 0
  | .inf n => intBits t (if n then intMin t else intMax t)
  | .fin n m e more => intBits t (satInt t (signed n (roundShift r n m (-e) more)))

/-- An integer as a value. -/
def ofInt (x : Int) : FVal := .fin (x < 0) x.natAbs 0 false

/-- Conversion of one element between any two types (R119 to R122). -/
def convert (src dst : Ty) (round : Nat) (sat : Bool) (x : Nat) : Nat :=
  let r := rmodeOf round (tyBits dst)
  match fmtOf src, fmtOf dst with
  | some f, some g => roundVal g r sat (decodeF f x)
  | some f, none => toInt dst r (decodeF f x)
  | none, some g => roundVal g r sat (ofInt (intOf src x))
  | none, none => intRes dst sat (intOf src x)

/-- Element i of a lane value, of n bits (R85). -/
def elemAt (n x i : Nat) : Nat := x / 2 ^ (n * i) % 2 ^ n

/-- A lane value from its elements, element 0 lowest. -/
def packElems (n : Nat) (l : List Nat) : Nat :=
  l.foldr (fun x acc => x % 2 ^ n + 2 ^ n * acc) 0

end Sys2Proof.Machine
end

