-- ==== Sys2Proof/Machine/Trans.lean ====
section
/-!
DEFINITION. EXP2, LOG2 and LN (R162, R163), in fixed point with 256 fraction bits: far beyond what the rounding of FP32, FP16 and BF16 results needs (log entry 6).
-/

namespace Sys2Proof.Machine

/-- Fraction bits of the fixed-point values. -/
def transBits : Nat := 256

/-- The fixed-point product. -/
def fxMul (x y : Nat) : Nat := x * y / 2 ^ 256

/-- Sum of z^(2k+1) / (2k+1) from term `k`, `n` terms, where `p` is z^(2k+1). -/
def atanhSum (z2 : Nat) : Nat → Nat → Nat → Nat
  | 0, _, _ => 0
  | n + 1, k, p => p / (2 * k + 1) + atanhSum z2 n (k + 1) (fxMul p z2)

/-- ln of num / den, for 1 <= num / den <= 2: twice the area tangent of (num - den) / (num + den). -/
def lnRatio (num den : Nat) : Nat :=
  let z := (num - den) * 2 ^ 256 / (num + den)
  2 * atanhSum (fxMul z z) 96 0 z

/-- ln 2. -/
def ln2Fx : Nat := lnRatio 2 1

/-- Sum of y^k / k! from term `k`, `n` terms, where `p` is y^k / k!. -/
def expSum (y : Nat) : Nat → Nat → Nat → Nat
  | 0, _, _ => 0
  | n + 1, k, p => p + expSum y n (k + 1) (fxMul p y / (k + 1))

/-- e^y for 0 <= y < 1. -/
def expFx (y : Nat) : Nat := expSum y 64 0 (2 ^ 256)

/-- 2^x (R163). -/
def fExp2 (x : FVal) : FVal :=
  match x with
  | .nan => .nan
  | .inf n => if n then .fin false 0 0 false else .inf false
  | .fin n m e _ =>
    let d : Nat := 2 ^ (-e).toNat
    let whole : Int := if e ≥ 0 then signed n (m * 2 ^ (min e 64).toNat) else Int.fdiv (signed n m) d
    let w := max (-4096) (min 4096 whole)
    let f : Nat := if e ≥ 0 then 0 else (Int.fmod (signed n m) d).toNat
    if f == 0 then .fin false 1 w false
    else .fin false (expFx (fxMul (f * 2 ^ 256 / d) ln2Fx)) (w - 256) true

/-- The whole part and the fixed-point fraction of log2 x are e + log2 of m scaled to [1, 2). -/
def log2Fx (m : Nat) : Nat := lnRatio m (2 ^ m.log2) * 2 ^ 256 / ln2Fx

/-- A value w times 2^256 plus a fixed-point fraction known from below. -/
def fxVal (w : Int) (f : Nat) : FVal :=
  let v : Int := w * 2 ^ 256 + f
  if v < 0 then .fin true (v.natAbs - 1) (-256) true else .fin false v.natAbs (-256) true

/-- log2 x (R163). -/
def fLog2 (x : FVal) : FVal :=
  match x with
  | .nan => .nan
  | .inf n => if n then .nan else .inf false
  | .fin n m e _ =>
    if m == 0 then .inf true
    else if n then .nan
    else
      let w : Int := e + m.log2
      if m == 2 ^ m.log2 then ofInt w else fxVal w (log2Fx m)

/-- ln x (R163). -/
def fLn (x : FVal) : FVal :=
  match x with
  | .nan => .nan
  | .inf n => if n then .nan else .inf false
  | .fin n m e _ =>
    if m == 0 then .inf true
    else if n then .nan
    else
      let w : Int := e + m.log2
      if m == 2 ^ m.log2 && w == 0 then .fin false 0 0 false
      else
        let v : Int := w * ln2Fx + lnRatio m (2 ^ m.log2)
        if v < 0 then .fin true v.natAbs (-256) true else .fin false v.natAbs (-256) true

end Sys2Proof.Machine
end

