-- ==== Sys2Proof/Syntax.lean ====
section
/-!
DEFINITION. The operations of the SX7: one constructor of Instr for each row of spec/opcode_table.json. The first part are the instructions that have an encoding (R94); the second part are the device's own steps and the host's commands, which have none and enter through State.agenda or the device's own choice.
-/

namespace Sys2Proof

/-- Source codes 0 to 62 (R52, R83). -/
inductive Src where
  | q (j : Fin 16)
  | n (x : Fin 40)
  | l (j : Fin 3)
  | lane
  | wave
  | zero
  | ones
  deriving DecidableEq, Repr

/-- Destination codes 0 and 16 to 55 (R51). -/
inductive Dst where
  | queue
  | n (x : Fin 40)
  deriving DecidableEq, Repr

/-- The second source of format F0: a source code, or a uniform register broadcast to every lane (R77). -/
inductive Src2 where
  | s (x : Src)
  | k (i : Fin 32)
  deriving DecidableEq, Repr

/-- The second operand of the uniform instructions: a register or an immediate 0 to 63 (R180). -/
inductive KOp where
  | k (i : Fin 32)
  | imm (v : BitVec 6)
  deriving DecidableEq, Repr

/-- The hold field (R57). -/
inductive Hold where
  | none | a | b | result
  deriving DecidableEq, Repr

/-- A guard or cond value (R87). -/
abbrev Guard := BitVec 4

abbrev KReg := Fin 32
abbrev PReg := Fin 8
abbrev HReg := Fin 8
abbrev TileReg := Fin 4

/-- Conditions of CMP and KCMP (R96). -/
inductive CmpOp where
  | eq | ne | lt | le | gt | ge | ord | unord
  deriving DecidableEq, Repr

/-- Operations of VOTE (R96, R176). -/
inductive VoteOp where
  | any | all | none | ballot | uniform
  deriving DecidableEq, Repr

/-- Operations of LREDUCE and LSCAN (R96, R177). -/
inductive RedOp where
  | add | min | max | and | or | xor
  deriving DecidableEq, Repr

/-- Operations of ATOM and ATOMR (R95). -/
inductive AtomOp where
  | add | min | max | and | or | xor | xchg
  deriving DecidableEq, Repr

/-- Scopes of the policy word and of FENCE (R245, R251). -/
inductive Scope where
  | wave | group | gang | die | package | domain
  deriving DecidableEq, Repr

/-- Order codes of FENCE (R251). -/
inductive FenceOrder where
  | acq | rel | acqrel
  deriving DecidableEq, Repr

/-- The four paths of in-flight operations (R251, R268). -/
inductive FlightPath where
  | gload | aload | store | engine
  deriving DecidableEq, Repr

/-- Special registers 0 to 24 (R150). -/
inductive SpecialReg where
  | lane | wave | group | gang | stage | core | die | rank | clock | clockh | glane | taskid
  | variant | nregs | sumrev | prio | eprio | tbase | tbaseh | mode | msdepth | msidx | msval
  | qvalid | npleft
  deriving DecidableEq, Repr

/-- Fill values of MXZERO (R301). -/
inductive TileFill where
  | zero | pinf | ninf
  deriving DecidableEq, Repr

/-- Element sizes of SHAPE (R343). -/
inductive ElemSize where
  | b1 | b2 | b4 | b8 | b16
  deriving DecidableEq, Repr

/-- What an access does at a page (R234). -/
inductive Access where
  | read | write | fetch
  deriving DecidableEq, Repr

/-- Where a residue or parity checker reports a mismatch (R433, R464). -/
inductive CheckSite where
  | lanes (token : W32)
  | matrix (core : Fin 192)
  | collective (die : Fin 2)
  /-- An uncorrectable error in the scratchpad or the tiles of the n-th group that stands on a core (R464). -/
  | storage (core : Fin 192) (n : Nat)
  /-- A corrected error in a core's storage, in an L2 slice, or in a die's context partition by the slice that holds it (R464, R466). -/
  | correctedCore (core : Fin 192)
  | correctedSlice (die : Fin 2) (slice : Fin 64)
  /-- A parity error in an entry: of an L1, of an instruction cache, of an L1 TLB, of an L2 TLB (R464). -/
  | parityL1 (core : Fin 192) (line : Nat)
  | parityFetch (core : Fin 192) (pa : Nat)
  | parityTlb (core : Fin 192) (page level : Nat)
  | parityL2Tlb (die : Fin 2) (page level : Nat)
  deriving DecidableEq, Repr

/-- The single parts of the package (R5, R422). -/
inductive PartId where
  | die (d : Fin 2)
  | stack (s : Fin 8)
  | port (p : Fin 128)
  | core (c : Fin 192)
  | cluster (c : Fin 24)
  deriving DecidableEq, Repr

/-- Where an uncorrectable memory error is found (R464); in the context partition it hits the context of a wave, named by its token. -/
inductive ErrorSite where
  | cleanLine | speculativeLine | dirtyLine | hbm
  | context (token : W32)
  deriving DecidableEq, Repr

/-- A request that goes to another package or arrives from one (R444, R445, R451, R456): a read of n bytes, a write, an atomic with its operation (R95), TYPE and SAT, a compare-and-swap, an add of 1 to a progress counter, a contribution to a collective (`ver` says that its member's task is versioned); and what the commit group of a collective's members needs (R457, log entry 34): a member's task could commit, a member has been contained. -/
inductive RemoteReq where
  | read (dpid : W16) (addr : W64) (n : Nat)
  | write (dpid : W16) (addr : W64) (bytes : List W8)
  | atom (dpid : W16) (addr : W64) (op : Nat) (type : Nat) (sat : Bool) (value : W64)
  | cas (dpid : W16) (addr : W64) (n : Nat) (old new : W64)
  | counterAdd (dpid : W16) (addr : W64)
  | contribute (dpid : W16) (group cseq index : Nat) (op type : Nat) (sat : Bool) (b root : Nat) (values : List W64) (ver : Bool)
  | memberReady (dpid : W16) (group cseq index : Nat)
  | abandon (dpid : W16) (group cseq : Nat)
  deriving DecidableEq, Repr

/-- A request as it travels: its source's rank, and the tag that the source gives it, by which the target knows a duplicate (R443). -/
structure TaggedReq where
  src : Nat
  tag : Nat
  req : RemoteReq
  deriving DecidableEq, Repr

/-- What another package answers to a request (R444, R445): a remote access has an answer for each request that it has sent. -/
inductive RemoteAnswer where
  | data (values : List W64)
  | done
  | failed (sub : Nat)
  /-- What an engine operation gets: the items that failed, each with the target's cause, and the bytes of the items that it asked for, one after another. Items are its rows, then, from number ROWS on, the scale rows of a dequantise (R348, R451). -/
  | copied (rows : List (Nat × Nat)) (bytes : List W8)
  /-- No answer within 33,000,000 cycles (R444): what REMOTE_TIMEOUT delivers. -/
  | late
  deriving DecidableEq, Repr

/-- What a register read of the host names (R17, R353, R446, R472): a channel register or CMDSTAT as a whole, the word at an offset of the window, a sideband register. -/
inductive ChanSel where
  | chan (d : Fin 2) (c : Fin 96)
  | cmdstat (p : Fin 24)
  | window (off : Nat)
  | sideband (addr : Nat)
  deriving DecidableEq, Repr

/-- Which write a WRITE_APPLY applies: the next of a home die, on a die (R277). -/
structure ApplyTurn where
  die : Fin 2
  home : Fin 2
  deriving DecidableEq, Repr

/-- The operations of the table. -/
inductive Instr where
  -- control, mode and system (08_control_and_system_instructions.md)
  | nop
  | endW
  | yieldW
  | jmp (o : BitVec 20)
  | jmpk (a : KReg)
  | call (o : BitVec 20)
  | ret
  | brany (c : Guard) (o : BitVec 20)
  | brall (c : Guard) (o : BitVec 20)
  | brnone (c : Guard) (o : BitVec 20)
  | ifp (c : Guard) (o : BitVec 20)
  | elsep (o : BitVec 20)
  | endifp
  | breakp (c : Guard) (o : BitVec 20)
  | trap (n : Fin 8) (a : Src)
  | execrd (d : Dst) (h : Hold)
  | execwr (a : Src) (h : Hold)
  | setMode (m : BitVec 13)
  | modek (a : KReg)
  | lit (d : Dst) (w : W32)
  | lith (d : Dst) (w : W32)
  | getsr (d : Dst) (r : SpecialReg) (h : Hold)
  | setsr (r : SpecialReg) (a : KReg)
  | eret
  | nopreempt
  | preemptok
  | phase
  -- lane arithmetic and logic (07_lane_instructions.md)
  | add (d : Dst) (a : Src) (b : Src2) (h : Hold)
  | sub (d : Dst) (a : Src) (b : Src2) (h : Hold)
  | mul (d : Dst) (a : Src) (b : Src2) (h : Hold)
  | mulhi (d : Dst) (a : Src) (b : Src2) (h : Hold)
  | mad (d : Dst) (a b c : Src)
  | neg (d : Dst) (a : Src) (h : Hold)
  | abs (d : Dst) (a : Src) (h : Hold)
  | min (d : Dst) (a : Src) (b : Src2) (h : Hold)
  | max (d : Dst) (a : Src) (b : Src2) (h : Hold)
  | div (d : Dst) (a : Src) (b : Src2) (h : Hold)
  | lea (d : Dst) (a : Src) (b : Src2) (s : Fin 8) (h : Hold)
  | scaleb (d : Dst) (a : Src) (b : Src2) (h : Hold)
  | cmp (d : Dst) (a : Src) (b : Src2) (c : CmpOp) (h : Hold)
  | sel (d : Dst) (a : Src) (b : Src2) (p : PReg) (h : Hold)
  | classF (d : Dst) (a : Src) (h : Hold)
  | and (d : Dst) (a : Src) (b : Src2) (h : Hold)
  | or (d : Dst) (a : Src) (b : Src2) (h : Hold)
  | xor (d : Dst) (a : Src) (b : Src2) (h : Hold)
  | not (d : Dst) (a : Src) (h : Hold)
  | andn (d : Dst) (a : Src) (b : Src2) (h : Hold)
  | shl (d : Dst) (a : Src) (b : Src2) (h : Hold)
  | shr (d : Dst) (a : Src) (b : Src2) (h : Hold)
  | sar (d : Dst) (a : Src) (b : Src2) (h : Hold)
  | rotl (d : Dst) (a : Src) (b : Src2) (h : Hold)
  | clz (d : Dst) (a : Src) (h : Hold)
  | popc (d : Dst) (a : Src) (h : Hold)
  | brev (d : Dst) (a : Src) (h : Hold)
  | bfx (d : Dst) (a b c : Src)
  | bfi (d : Dst) (a b c : Src)
  | pnot (p : PReg) (g : Guard)
  | rcp (d : Dst) (a : Src) (h : Hold)
  | rsq (d : Dst) (a : Src) (h : Hold)
  | sqrt (d : Dst) (a : Src) (h : Hold)
  | exp2 (d : Dst) (a : Src) (h : Hold)
  | log2 (d : Dst) (a : Src) (h : Hold)
  | ln (d : Dst) (a : Src) (h : Hold)
  | fract (d : Dst) (a : Src) (h : Hold)
  | roundi (d : Dst) (a : Src) (h : Hold)
  | cvt (d : Dst) (a : Src) (k : KReg) (h : Hold)
  | pack (d : Dst) (a : Src) (b : Src2) (h : Hold)
  | unpack (d : Dst) (a : Src) (h : Hold)
  | mxq (d : Dst) (a : Src) (h : Hold)
  | mxdq (d : Dst) (a : Src) (b : Src2) (h : Hold)
  | pset (p : PReg) (a : Src)
  | pand (p : PReg) (g1 g2 : Guard)
  | por (p : PReg) (g1 g2 : Guard)
  | shfl (d : Dst) (a : Src) (b : Src2) (h : Hold)
  | bfly (d : Dst) (a : Src) (b : Src2) (h : Hold)
  | lrot (d : Dst) (a : Src) (b : Src2) (h : Hold)
  | bcast (d : Dst) (a : Src) (b : Src2) (h : Hold)
  | vote (d : Dst) (a : Src) (o : VoteOp) (h : Hold)
  | lreduce (d : Dst) (a : Src) (o : RedOp) (h : Hold)
  | lscan (d : Dst) (a : Src) (o : RedOp) (h : Hold)
  | kmov (d : KReg) (y : KOp)
  | kadd (d a : KReg) (y : KOp)
  | ksub (d a : KReg) (y : KOp)
  | kmul (d a : KReg) (y : KOp)
  | kand (d a : KReg) (y : KOp)
  | kor (d a : KReg) (y : KOp)
  | kxor (d a : KReg) (y : KOp)
  | kshl (d a : KReg) (y : KOp)
  | kshr (d a : KReg) (y : KOp)
  | kcmp (d a : KReg) (y : KOp) (c : CmpOp)
  | kread (d : KReg) (a : Src) (l : Fin 32) (w64 : Bool)
  | klit (d : KReg) (i : W16)
  -- mirror bank (09_mirror_bank.md)
  | propose
  | accept (d : Dst) (a : Src) (h : Hold)
  | discard
  | draw (d : Dst) (h : Hold)
  | drawkey (a : KReg) (b : Option KReg)
  | mbstat (d : Dst) (a : Src)
  | mbclr (pcnt acnt norm : Bool)
  -- memory (11_memory_instructions.md)
  | ld (d : Dst) (a b : Src) (c : KReg)
  | st (a b : Src) (c : KReg)
  | ldq (d : Dst) (a b : Src) (c : KReg)
  | stq (a b : Src) (c : KReg)
  | cas (d : Dst) (a b : Src) (c : KReg)
  | pref (a : Src) (c : KReg)
  | pin (a b : KReg)
  | unpin (a b : KReg)
  | fence (s : Scope) (o : FenceOrder)
  | waitp (p : FlightPath) (a : KReg)
  | atom (o : AtomOp) (a b : Src) (c : KReg)
  | atomr (o : AtomOp) (d : Dst) (a b : Src) (c : KReg)
  -- matrix engine (14_matrix_engine.md)
  | mxplan (p : HReg) (a : KReg)
  | mxzero (t : TileReg) (f : TileFill)
  | mxstep (t : TileReg) (p : HReg) (a : KReg) (sig : Bool)
  | mxloop (t : TileReg) (p : HReg) (a l : KReg) (sig : Bool)
  | mxrd (d : Dst) (a : Src) (h : Hold)
  | mxwr (a b : Src)
  | mxmon (slot : Fin 8) (a : KReg) (sig : Bool)
  | monrd (d : Dst) (a : Src) (h : Hold)
  | monclr (mask : W8)
  -- counters and barriers (16_counters.md)
  | barinit (a b : KReg)
  | bararr (a : KReg) (b : Option KReg)
  | barwait (a b : KReg)
  | barfree (a : KReg)
  | cntadd (a b : KReg)
  | cntaddMax (a b : KReg)
  | cntaddSignal (a : KReg)
  | cntwait (a b : KReg)
  | cntarm (a b : KReg)
  | pmsel (c : Fin 4) (a : KReg)
  | pmrd (d : Dst) (a : Src) (h : Hold)
  | pmreplay (a : KReg)
  -- copies and channels (17_copy_queues.md)
  | shape (d a b : KReg) (e : ElemSize)
  | cpy (a : KReg) (src : Option Src)
  | cpym (a : KReg) (mask : W8)
  | cpydq (a : KReg)
  | chkick (ch : Fin 8) (a : KReg)
  | chtail (ch : Fin 8) (a : KReg)
  -- tasks and router (18_task_and_stage_queues.md)
  | tkpost (a : KReg)
  | launch (q : Fin 8) (a : KReg)
  | rtemitRec (a : KReg)
  | rtemitBox (a : KReg)
  | rttake (x : Fin 40)
  | rtdone
  | rtrej
  | rtstat (d : Dst) (a : Src) (h : Hold)
  -- wait-for table (19_wait_for_and_scheduling.md)
  | wregWait (a : KReg)
  | wregHold (a : KReg)
  | wderegWait
  | wderegHold (a : KReg)
  | wprio (a b : KReg)
  | wquery (d : Dst) (a : Src) (b : Src2) (h : Hold)
  | lock (a : KReg)
  | unlock (a : KReg)
  | semtake (a b : KReg)
  | semgive (a b : KReg)
  -- fabric (23_fabric_and_collectives.md)
  | puts (a : KReg) (rsig : Bool)
  | get (a : KReg)
  | radd (a : KReg) (rsig : Bool)
  | rfence
  | coll (a : KReg)
  -- the device's own steps and the host's commands (95_what_each_step_holds.md)
  | matrixCommandAccept (core : Fin 192)
  | kStep (core : Fin 192)
  | matrixCommandRun (core : Fin 192)
  | copyAccept (cl : Fin 24)
  | copyComplete (cl : Fin 24) (i : Nat)
  | channelPoll (d : Fin 2) (ch : Fin 96)
  | recordReturn (d : Fin 2) (ch : Fin 96)
  | streamTile (d : Fin 2) (ch : Fin 96)
  | admitGang (p : Fin 24)
  | preemptEvict (p : Fin 24)
  | resumeEvicted (p : Fin 24)
  | unparkWave (token : W32)
  | clockGate (core : Fin 192)
  | clockRestart (core : Fin 192)
  | nopreemptExpired (token : W32)
  | suspectedDeadlock (token : W32)
  | pageWalk (core : Fin 192) (p : Fin 24) (va : Nat) (acc : Access)
  | demandZeroResolution (core : Fin 192) (p : Fin 24) (va : Nat)
  | writeApply (d : ApplyTurn) (l1cores : List (Fin 96))
  | memoryResponse (token : W32) (path : FlightPath)
  | taskTake (p : Fin 24) (q : Fin 16)
  | taskCommit (tid : W64)
  | routerSetEntry (launch : Nat)
  | routerSetLeave (launch : Nat)
  | routerMove (launch : Nat)
  | pipeCheck (site : CheckSite)
  | partFaultEvent (part : PartId)
  | hbmUncorrectable (site : ErrorSite) (pa : Nat)
  | hbmScrub (stack : Fin 8) (row : Nat) (corrected : Bool)
  | inFieldTest (core : Fin 192)
  | inFieldTestForced (core : Fin 192)
  | linkFault (port : Fin 128)
  | remoteRequest (r : TaggedReq)
  | remoteResponse (token : W32) (x : RemoteAnswer)
  | remoteTimeout (token : W32)
  | collectiveComplete (dpid group cseq : Nat)
  | submitLaunch (p : Fin 24)
  | submitTaskRecord (p : Fin 24)
  | tlbInvalidate (p : Fin 24)
  | releaseParkedItem (p : Fin 24)
  | returnParkedItem (p : Fin 24)
  | writeRegister (p : Fin 24)
  | setCollectiveGroup (p : Fin 24)
  | destroyPartition (p : Fin 24)
  | createPartition (p : Fin 24)
  | createLockstepPartition (p : Fin 24)
  | resetPartition (p : Fin 24)
  | cmdkick (p : Fin 24) (head : W64)
  | commandPoll (p : Fin 24)
  | hostChannelKick (d : Fin 2) (ch : Fin 96) (head : W64)
  | channelRegisterRead (r : ChanSel)
  | pfmodeWrite (p : Fin 24) (v : W64)
  | ptrootWrite (p : Fin 24) (v : W64)
  | ctxsizeWrite (d : Fin 2) (v : W64)
  | vsmaxWrite (d : Fin 2) (v : W64)
  | registerWrite (off : Nat) (v : W64)
  | powerOnReset (failed : List PartId)
  | dieReset (d : Fin 2)
  | packageReset
  | alertWrite (v : BitVec 3)
  | sidebandRegisterWrite (addr : Nat) (v : W32)
  | temperatureAlert (bits : BitVec 3)
  | thermalShutdown
  | firmwareStage (image : Nat) (svn : Nat) (build : Nat)
  | raiseRollbackFloor (svn : Nat) (signature : Nat)
  | attestationQuote (nonce : BitVec 256)
  | illegalInstr (word : W32)
  | powerLoss
  | inFieldTestEnd (core : Fin 192) (passed : Bool)
  | secondCopyRestored
  | contributorPackageFailure (rank : Fin 1024)
  | flitRetransmission (port : Fin 128)
  deriving DecidableEq, Repr

end Sys2Proof
end

