-- ==== Sys2Proof/Machine/Elem.lean ====
section
/-!
DEFINITION. The element functions of the lane instructions (R159 to R179): what each computes on one element, the reductions and scans over lanes, and the microscaling conversions.
-/

namespace Sys2Proof.Machine

/-- TYPE, ROUND and SAT in force for an element operation (R84). -/
structure Arith where
  ty : Ty
  round : Nat
  sat : Bool
  deriving DecidableEq, Repr

def arithMode (a : Arith) : RMode := rmodeOf a.round (tyBits a.ty)

/-- A function of values rounded into the type's format, or of integers reduced under R104. -/
def arith1 (a : Arith) (sat : Bool) (ff : RMode → FVal → FVal) (fi : Int → Int) (x : Nat) : Nat :=
  match fmtOf a.ty with
  | some f => roundVal f (arithMode a) sat (ff (arithMode a) (decodeF f x))
  | none => intRes a.ty sat (fi (intOf a.ty x))

def arith2 (a : Arith) (ff : RMode → FVal → FVal → FVal) (fi : Int → Int → Int) (x y : Nat) : Nat :=
  match fmtOf a.ty with
  | some f => roundVal f (arithMode a) a.sat (ff (arithMode a) (decodeF f x) (decodeF f y))
  | none => intRes a.ty a.sat (fi (intOf a.ty x) (intOf a.ty y))

def eAdd (a : Arith) : Nat → Nat → Nat := arith2 a fAdd (· + ·)
def eSub (a : Arith) : Nat → Nat → Nat := arith2 a (fun r x y => fAdd r x (fNeg y)) (· - ·)
def eMul (a : Arith) : Nat → Nat → Nat := arith2 a (fun _ => fMul) (· * ·)

/-- Integer division with the cases of R160. -/
def divInt (t : Ty) (x y : Int) : Int :=
  if y == 0 then (if x < 0 then intMin t else intMax t) else Int.tdiv x y

def eDiv (a : Arith) : Nat → Nat → Nat := arith2 a (fun _ => fDiv) (divInt a.ty)

/-- Bits [2n-1:n] of the exact product (R159). -/
def eMulhi (a : Arith) (x y : Nat) : Nat :=
  intBits a.ty (Int.fdiv (intOf a.ty x * intOf a.ty y) (2 ^ tyBits a.ty))

/-- MIN and MAX (R160, R161): `flip` for MAX. -/
def eMinMax (a : Arith) (flip : Bool) (x y : Nat) : Nat :=
  match fmtOf a.ty with
  | some f =>
    if decodeF f x == .nan || decodeF f y == .nan then fmtNan f
    else if (fmtKey f x ≤ fmtKey f y) != flip then x else y
  | none => if (intOf a.ty x ≤ intOf a.ty y) != flip then x else y

def eMin (a : Arith) : Nat → Nat → Nat := eMinMax a false
def eMax (a : Arith) : Nat → Nat → Nat := eMinMax a true

/-- An element read as a signed integer of its width. -/
def signedElem (n x : Nat) : Int := if x ≥ 2 ^ (n - 1) then (x : Int) - 2 ^ n else x

/-- SCALEB (R161): an infinity comes back unchanged, also under SAT (log entry 29). -/
def eScaleb (a : Arith) (x y : Nat) : Nat :=
  match fmtOf a.ty with
  | some f =>
    match decodeF f x with
    | .inf _ => x
    | v => roundVal f (arithMode a) a.sat (fScale v (signedElem (tyBits a.ty) y))
  | none => x

def eAnd (x y : Nat) : Nat := x &&& y
def eOr (x y : Nat) : Nat := x ||| y
def eXor (x y : Nat) : Nat := x ^^^ y
def eNot (a : Arith) (x : Nat) : Nat := 2 ^ tyBits a.ty - 1 - x
def eAndn (a : Arith) (x y : Nat) : Nat := x &&& eNot a y
def eShl (a : Arith) (x c : Nat) : Nat := if c ≥ tyBits a.ty then 0 else x * 2 ^ c % 2 ^ tyBits a.ty
def eShr (a : Arith) (x c : Nat) : Nat := if c ≥ tyBits a.ty then 0 else x / 2 ^ c
def eSar (a : Arith) (x c : Nat) : Nat :=
  (Int.fdiv (signedElem (tyBits a.ty) x) (2 ^ min c (tyBits a.ty)) % (2 ^ tyBits a.ty : Int)).toNat
def eRotl (a : Arith) (x c : Nat) : Nat :=
  let n := tyBits a.ty
  x * 2 ^ (c % n) % 2 ^ n + x / 2 ^ (n - c % n)

/-- Sign-bit operations under FP, R104 under INT (R162). -/
def eNeg (a : Arith) (x : Nat) : Nat :=
  match fmtOf a.ty with
  | some f => x ^^^ 2 ^ (f.e + f.m)
  | none => intRes a.ty a.sat (-(intOf a.ty x))
def eAbs (a : Arith) (x : Nat) : Nat :=
  match fmtOf a.ty with
  | some f => x % 2 ^ (f.e + f.m)
  | none => intRes a.ty a.sat (intOf a.ty x).natAbs

def eClz (a : Arith) (x : Nat) : Nat := if x == 0 then tyBits a.ty else tyBits a.ty - 1 - x.log2
def ePopc (a : Arith) (x : Nat) : Nat := (List.range (tyBits a.ty)).foldl (fun n i => n + x / 2 ^ i % 2) 0
def eBrev (a : Arith) (x : Nat) : Nat :=
  (List.range (tyBits a.ty)).foldl (fun n i => n * 2 + x / 2 ^ i % 2) 0

def one : FVal := .fin false 1 0 false
def eRcp (a : Arith) : Nat → Nat := arith1 a a.sat (fun _ => fDiv one) id
def eRsq (a : Arith) : Nat → Nat := arith1 a a.sat (fun _ => fRsqrt) id
def eSqrt (a : Arith) : Nat → Nat := arith1 a a.sat (fun _ => fSqrt) id
def eExp2 (a : Arith) : Nat → Nat := arith1 a a.sat (fun _ => fExp2) id
def eLog2 (a : Arith) : Nat → Nat := arith1 a a.sat (fun _ => fLog2) id
def eLn (a : Arith) : Nat → Nat := arith1 a a.sat (fun _ => fLn) id
def eFract (a : Arith) : Nat → Nat := arith1 a false (fun _ => fFract) id
/-- ROUNDI (R163). R162 gives it no SAT: an infinity stays one under SAT too (log entry 45). -/
def eRoundi (a : Arith) : Nat → Nat := arith1 a false fRoundInt id

/-- x times y plus z, rounded once (R165). -/
def eMad (a : Arith) (x y z : Nat) : Nat :=
  match fmtOf a.ty with
  | some f => roundVal f (arithMode a) a.sat
      (fAdd (arithMode a) (fMul (decodeF f x) (decodeF f y)) (decodeF f z))
  | none => intRes a.ty a.sat (intOf a.ty x * intOf a.ty y + intOf a.ty z)

/-- BFX (R165): offset o, width m. -/
def eBfx (a : Arith) (x o m : Nat) : Nat :=
  let n := tyBits a.ty
  if o ≥ n || m == 0 then 0
  else
    let w := min m (n - o)
    let v := x / 2 ^ o % 2 ^ w
    if tySigned a.ty then (signedElem w v % (2 ^ n : Int)).toNat else v

/-- BFI (R165). -/
def eBfi (a : Arith) (x y o m : Nat) : Nat :=
  let n := tyBits a.ty
  if o ≥ n || m == 0 then x
  else
    let w := min m (n - o)
    x - x / 2 ^ o % 2 ^ w * 2 ^ o + y % 2 ^ w * 2 ^ o

/-- LEA (R166): the first source is read at 32 bits. -/
def eLea (a : Arith) (x y s : Nat) : Nat :=
  let x1 : Int := if a.ty == .i64 then signedElem 32 (x % 2 ^ 32) else (x % 2 ^ 32 : Nat)
  ((x1 * 2 ^ s + y) % (2 ^ tyBits a.ty : Int)).toNat

/-! ### Lane values from elements -/

/-- A one-source element function on a lane value (R157). -/
def map1 (t : Ty) (f : Nat → Nat) (x : W64) : W64 :=
  let n := tyBits t
  BitVec.ofNat 64 (packElems n ((List.range (tyCount t)).map fun i => f (elemAt n x.toNat i)))

def map2 (t : Ty) (f : Nat → Nat → Nat) (x y : W64) : W64 :=
  let n := tyBits t
  BitVec.ofNat 64 (packElems n ((List.range (tyCount t)).map fun i =>
    f (elemAt n x.toNat i) (elemAt n y.toNat i)))

def map3 (t : Ty) (f : Nat → Nat → Nat → Nat) (x y z : W64) : W64 :=
  let n := tyBits t
  BitVec.ofNat 64 (packElems n ((List.range (tyCount t)).map fun i =>
    f (elemAt n x.toNat i) (elemAt n y.toNat i) (elemAt n z.toNat i)))

/-! ### Reductions and scans (R177 to R179) -/

/-- Comb on lanes that may be absent. -/
def combOpt {α : Type} (f : α → α → α) (x y : Option α) : Option α :=
  match x, y with
  | some a, some b => some (f a b)
  | some a, none => some a
  | none, b => b

/-- One pass of R177 on neighbours. -/
def pairUp {α : Type} (f : α → α → α) : List (Option α) → List (Option α)
  | x :: y :: l => combOpt f x y :: pairUp f l
  | l => l

/-- The tree of R177: five passes over 32 lanes. -/
def treeOf {α : Type} (f : α → α → α) (l : List (Option α)) : Option α :=
  (((pairUp f (pairUp f (pairUp f (pairUp f (pairUp f l)))))[0]?).getD none)

/-- One pass of R178 at distance s. -/
def scanPass {α : Type} (f : α → α → α) (s : Nat) (l : List (Option α)) : List (Option α) :=
  List.zipWith (combOpt f) (List.replicate s none ++ l) l

def scanOf {α : Type} (f : α → α → α) (l : List (Option α)) : List (Option α) :=
  [1, 2, 4, 8, 16].foldl (fun u s => scanPass f s u) l

/-- Comb of an operation on elements, for all but the integer add (R179). -/
def combElem (a : Arith) (o : RedOp) (x y : Nat) : Nat :=
  match o with
  | .add => eAdd a x y
  | .min => eMin a x y
  | .max => eMax a x y
  | .and => x &&& y
  | .or => x ||| y
  | .xor => x ^^^ y

/-- LREDUCE at one element position: absent where the lane is inactive. -/
def reduceElem (a : Arith) (o : RedOp) (l : List (Option Nat)) : Nat :=
  if o == .add && tyInt a.ty then
    intRes a.ty a.sat ((treeOf (· + ·) (l.map (Option.map (intOf a.ty)))).getD 0)
  else (treeOf (combElem a o) l).getD 0

/-- LSCAN at one element position. -/
def scanElem (a : Arith) (o : RedOp) (l : List (Option Nat)) : List Nat :=
  if o == .add && tyInt a.ty then
    (scanOf (· + ·) (l.map (Option.map (intOf a.ty)))).map fun x => intRes a.ty a.sat (x.getD 0)
  else (scanOf (combElem a o) l).map fun x => x.getD 0

/-! ### Packing and microscaling (R171 to R174) -/

/-- The partner format of each packed type (R171). -/
def partner (t : Ty) : Option Ty :=
  match t with
  | .f16 | .bf16 => some .f32
  | .i16 => some .i32
  | .n16 => some .n32
  | .e4m3 | .e5m2 => some .bf16
  | .i8 => some .i16
  | .n8 => some .n16
  | .e2m1 => some .e4m3
  | _ => none

/-- PACK of one lane (R171). -/
def packLane (a : Arith) (x y : W64) : W64 :=
  match partner a.ty with
  | none => 0
  | some p =>
    let half := fun (v : W64) => (List.range (tyCount p)).map fun i =>
      convert p a.ty a.round a.sat (elemAt (tyBits p) v.toNat i)
    BitVec.ofNat 64 (packElems (tyBits a.ty) (half x ++ half y))

/-- UNPACK of one lane into 64 bits (R172). -/
def unpackLane (t : Ty) (x : W64) : W64 :=
  match partner t with
  | none => 0
  | some p =>
    BitVec.ofNat 64 (packElems (tyBits p) ((List.range (tyCount t)).map fun i =>
      convert t p 1 false (elemAt (tyBits t) x.toNat i)))

/-- The exponent of the largest magnitude of finite FP32 values, 0 where there is none. -/
def maxExp (l : List FVal) : Option Int :=
  l.foldl (fun acc v =>
    match v with
    | .fin _ m e _ =>
      if m == 0 then acc
      else
        let x : Int := m.log2 + e
        match acc with
        | none => some x
        | some y => some (max x y)
    | _ => acc) none

/-- MXQ's scale byte and its 32 elements (R173): `none` in inactive lanes. -/
def mxQuant (r : RMode) (l : List (Option Nat)) : Nat × List Nat :=
  let vals := l.map (Option.map (decodeF fp32))
  if vals.any (· == some .nan) then (255, l.map fun _ => 0)
  else
    let x : Nat :=
      match maxExp (vals.filterMap id) with
      | none => 127
      | some e => (min (max (e + 125) 0) 254).toNat
    (x, vals.map fun v =>
      match v with
      | none => 0
      | some f => roundVal e2m1 r false (fScale f (127 - (x : Int))))

/-- MXDQ's element (R174): e times 2^(X - 127) as FP32. -/
def mxDequant (r : RMode) (sat : Bool) (x e : Nat) : Nat :=
  if x == 255 then fmtNan fp32 else roundVal fp32 r sat (fScale (decodeF e2m1 e) ((x : Int) - 127))

/-! ### The draw generator (R215) -/

/-- The 32-bit value of a draw from GLANE, DIDX and DKEY. -/
def drawValue (glane didx : W32) (dkey : W64) : W32 :=
  let x0 := pair64 glane didx ^^^ dkey
  let x1 := (x0 ^^^ (x0 >>> 31)) * 0xD6E8FEB86659FD93
  let x2 := (x1 ^^^ (x1 >>> 29)) * 0xA3B195B35F8C4E27
  hi32 (x2 ^^^ (x2 >>> 32))

/-- The natural logarithm of (d + 1/2) / 2^32 as FP32, rounded by RNE (R218). -/
def drawLog (d : W32) : Nat := roundVal fp32 .rne false (fLn (.fin false (2 * d.toNat + 1) (-33) false))

end Sys2Proof.Machine
end

