-- ==== Sys2Proof/Config.lean ====
section
/-!
DEFINITION. What an implementation of the SX7 fixes, and the values the manual leaves open: opaque constants without a body, so that no proof can lean on a value of theirs.
-/

namespace Sys2Proof.Config

/-- Cycles of the 3.3 GHz clock that pass, beyond one, at the n-th step of the model: timing is left open (log entry 3). -/
opaque elapsed : Nat → Nat

/-- The L2 set of a line address on a die: the slice hash is not given (R244, log entry 10). -/
opaque l2Set : Nat → Nat → Nat

/-- PBASE, the private backing area that the driver gives a wave slot: partition, core of the package, slot (R239, log entry 43). -/
opaque privateBase : Nat → Nat → Nat → W64

/-- The 128-bit lockstep write-set digest; its function is internal (R461, log entry 13): of the bytes of the lines, and of the deferred operations as numbers. -/
opaque lockstepDigest : List (Nat × W8) → List Nat → BitVec 128

/-- The digest that the die-1 half computes at the n-th comparison; without a fault it equals the die-0 half's (R461, log entry 13). -/
opaque otherDigest : Nat → List (Nat × W8) → List Nat → BitVec 128

/-- Whether a firmware image's key, signature and body digest verify (R470, log entry 13): 0 all hold, else the number of the failing check. -/
opaque firmwareCheck : Nat → Nat

/-- Whether a sideband command that raises the rollback floor carries a good signature (R470, log entry 13). -/
opaque floorSignatureOk : Nat → Nat → Bool

/-- The signature that the attestation key gives a quote (R471, log entry 13). -/
opaque attestationSignature : List Nat → Nat

/-- The module's serial number (R471, log entry 13). -/
opaque serialNumber : Nat

/-- The bytes of the attestation key's certificate chain (R482, log entry 13). -/
opaque certificate : Nat → W8

/-- SHA-256 digest of a firmware image (R471, log entry 13). -/
opaque imageDigest : Nat → Nat

/-- The host's and the sideband's readings of power and temperature, at the n-th reading (R472, log entry 3). -/
opaque sensor : Nat → Nat

/-- Free 64-bit values, where a result is left open (log entry 3). -/
opaque freeWord : Nat → W64

end Sys2Proof.Config
end

