-- ==== Sys2Proof/Machine/State.lean ====
section
/-!
DEFINITION. The state of the SX7 as plain data: registers of waves, groups, gangs, launches, tasks, partitions, cores, dies, memory, and the state after reset. Field by field it follows INVENTORY.md.
-/

namespace Sys2Proof.Machine

/-- A cause code (R415). -/
abbrev Cause := W8

/-- A vector clock: one entry for each die (R276). -/
structure Clk where
  c0 : Nat := 0
  c1 : Nat := 0
  deriving DecidableEq, Repr

/-! ### Registers of a wave -/

/-- An operand latch entry with its remaining life (R146). -/
structure LatchEntry where
  val : Lanes W32
  life : Fin 3
  deriving DecidableEq, Repr

/-- The registers of one wave (R141, R150, R211). Entry 0 of `preds` is not used: p0 reads 1. -/
structure Regs where
  pc : W64
  q : Vector (Lanes W32) 16
  qvalid : W16
  pushes : Fin 4
  named : Vector (Lanes W32) 40
  mirror : Vector (Lanes W32) 16
  sel : W32
  pflag : Bool
  pcnt : Lanes W32
  acnt : Lanes W32
  didx : Lanes W32
  dkey : W64
  latch : Vector LatchEntry 3
  preds : Vector W32 8
  exec : W32
  mstack : Vector W32 16
  msdepth : Fin 17
  msidx : Fin 16
  mode : W32
  k : Vector W64 32
  h : Vector W64 8
  rs : List W64
  prio : Fin 16
  tbase : W64
  variant : Fin 8
  nregs : Fin 41
  mirrorOn : Bool
  clockLatch : Option W64
  deriving DecidableEq, Repr

/-- The items that trap entry saves (R151, R418). -/
structure Frame where
  pc : W64
  q : Vector (Lanes W32) 16
  qvalid : W16
  pushes : Fin 4
  latch : Vector LatchEntry 3
  pflag : Bool
  exec : W32
  mstack : Vector W32 16
  msdepth : Fin 17
  mode : W32
  clockLatch : Option W64
  rs : List W64
  deriving DecidableEq, Repr

/-- A gang: its launch's key in State.launches and its index (R22). -/
structure GangKey where
  launch : Nat
  index : W32
  deriving DecidableEq, Repr

/-- A task of a partition: each partition counts its own (R423). -/
structure TaskKey where
  part : Fin 24
  tid : W64
  deriving DecidableEq, Repr

/-- The numbers that identify a wave (R22, R150, R387, R423). `core` is the number within the package, 96 times the die and the core number; `slot` is the wave slot, 12 times the sub-core and the place in it. -/
structure WaveIds where
  token : W32
  part : Fin 24
  gang : GangKey
  group : Fin 8
  wave : Fin 16
  core : Fin 192
  slot : Fin 48
  tid : W64
  deriving DecidableEq, Repr

/-- Whether a wave can issue (R37, R38, R41): running; stalled at an instruction that it tries again; parked, its footprint in the context partition; evicted; held for the host; ended. -/
inductive Run where
  | running | stalled | parked | evicted | held | ended
  deriving DecidableEq, Repr

/-- The key of a wait-for table object (R389, R479). -/
inductive ObjKey where
  /-- A word of global memory or of another package, by the partition of the registering agent and the virtual address (log entry 16). -/
  | word (p : Fin 24) (va : Nat)
  /-- A word of a scratchpad, by the group that owns the allocation and the offset in it (log entry 16). -/
  | spad (gang : GangKey) (group : Fin 8) (off : Nat)
  /-- Room in a launch queue, in a task queue, or at a position of a pipeline. -/
  | roomLaunch (p : Fin 24) (q : Fin 8)
  | roomTask (p : Fin 24) (q : Fin 16)
  | roomPos (launch pos : Nat)
  /-- Records of a task queue or of a pipeline. -/
  | recTask (p : Fin 24) (q : Fin 16)
  | recPipe (launch : Nat)
  /-- The pending-signal table of a die. -/
  | pending (die : Fin 2)
  /-- The commit of a task. -/
  | commit (t : TaskKey)
  /-- The contributors of a collective instance (R456, log entry 34). -/
  | coll (dpid group cseq : Nat)
  deriving DecidableEq, Repr

/-- What a registered wait waits for (R388): enough to say whether it is over. -/
inductive WaitFor where
  | explicit
  | phase (bit : Bool)
  | count (pa target : Nat)
  | lockHand
  | units (n : Nat)
  | room
  | record
  | commit
  /-- A signal to the successor counter at an address (R323). -/
  | signal (pa : Nat)
  deriving DecidableEq, Repr

/-- A wait link (R390), with what is waited for and its age. `granted` says that the wait has ended, by a hand-off or because its condition held (R393, R405, R406): it is then no wait of the table any more, and the wave has only to complete its instruction. -/
structure WaitLink where
  explicit : Bool
  long : Bool
  key : ObjKey
  since : W64
  what : WaitFor
  granted : Bool
  age : Nat
  deriving DecidableEq, Repr

/-- An operation of a wave in flight (R268): its path, and whether another package must answer first (R281). -/
structure Flight where
  path : FlightPath
  remote : Bool
  deriving DecidableEq, Repr

/-- The first failing address, cause and sub-cause of remote writes (R445). -/
structure RemoteError where
  addr : W64
  cause : Cause
  sub : W8
  deriving DecidableEq, Repr

/-- The place of a unit of an access. -/
inductive Place where
  | mem (pa va : Nat)
  | own (off : Nat)
  | spad (i : Fin 8) (off : Nat)
  | remote (addr : W64)
  deriving DecidableEq, Repr

/-- How the check of one lane ends (R236, R255). -/
inductive Checked where
  | ok (x : Place)
  | fail (c : Cause)
  | held
  deriving DecidableEq, Repr

/-- A lane with what its check gave. -/
structure LaneAt where
  lane : Fin 32
  addr : W64
  res : Checked
  deriving DecidableEq, Repr

/-- A remote access of a wave that waits for its answers (R444): its remote lanes, the lanes as they were checked at issue (R256), whether the wave waits for it, the instruction, whether it was issued in the handler, the die's cycle count when it was sent, and for each request sent its answer. -/
structure RemoteWait where
  addrs : List (Fin 32 × W64)
  lanes : List LaneAt
  blocking : Bool
  pc : W64
  handler : Bool
  since : W64
  asks : List (Option RemoteAnswer)
  deriving DecidableEq, Repr

/-- One wave (R22) with what the device keeps for it. -/
structure Wave where
  ids : WaveIds
  regs : Regs
  run : Run
  handler : Bool
  frame : Frame
  npOpen : Bool
  npleft : Nat
  npOwed : Bool
  /-- PSIZE and own memory of the lanes: byte o of lane L at 32 o + L, zero where unlisted (R239). -/
  psize : Nat
  priv : List (Nat × W8)
  /-- Its backing area: the base, and the bytes written back, by address (R239). -/
  pbase : W64
  backing : List (Nat × W8)
  eprio : Fin 16
  acqEpoch : W16
  clk : Clk
  floor : Clk
  /-- Writes of its group that an acquire at scope wave or group covers (R278). -/
  covers : List (Fin 2 × Nat)
  digest : W64
  flights : List Flight
  wait : Option WaitLink
  remoteOut : List RemoteWait
  remoteErr : Option RemoteError
  /-- Waiting time and losses at arbitration (R154), and the time it became ready (R38). -/
  waited : Nat
  losses : Nat
  readySince : Nat
  /-- The instruction at which the host released the wave: there the device acts as in hardware mode (R43). -/
  released : Option W64
  /-- The instruction that the wave has issued and waits to complete: trying it again is no further issue (R92, R325). -/
  tried : Option W64
  deriving DecidableEq, Repr

/-! ### Issuers, engine operations, performance counters -/

/-- Who issued an engine operation: partition, gang, group, wave slot (die, core, slot), token and task; its clock and the writes it waits for (R283, R284). -/
structure Issuer where
  part : Fin 24
  gang : Option GangKey
  group : Fin 8
  core : Fin 192
  slot : Fin 48
  token : W32
  tid : Option W64
  clk : Clk
  writes : List (Fin 2 × Nat)
  /-- Released by the host after WFT_FULL: its links and waits spill as in hardware mode (R43, R399). -/
  spill : Bool
  deriving DecidableEq, Repr

/-- A matrix command (R301 to R310). A step is a loop of one; `pages` holds the translations of L2-direct ranges that it took at issue (32 KiB page, physical base). -/
inductive MxCmd where
  | zero (t : TileReg) (fill : TileFill)
  | steps (t : TileReg) (plan a b : W64) (compl : Option W64) (pages : List (Nat × Nat)) (cnt nst done : Nat)
  | write (elems : List (TileReg × Nat × W32))
  | mon (slot : Fin 8) (addr : W64) (pas : List Nat) (compl : Option W64)
  | monclr (mask : W8)
  /-- What is left of an MXMON whose write is performed: its signal (R285, R310). -/
  | signal (compl : W64) (writes : List (Fin 2 × Nat)) (err : Bool)
  deriving DecidableEq, Repr

/-- A matrix command with its issuer. `again` says that it had been accepted before its gang was evicted (R311). -/
structure MxEntry where
  cmd : MxCmd
  who : Issuer
  again : Bool
  deriving DecidableEq, Repr

/-- A performance counter with its selection (R324, R325). -/
structure Pm where
  event : W8
  own : Bool
  value : W64
  deriving DecidableEq, Repr

/-- What a copy operation does (R346 to R349, R451). -/
inductive CopyKind where
  | plain
  | multi (mask : W8)
  | dequant
  | gather (addrs : Lanes W64) (active : W32)
  | puts (rsig : Bool)
  | get
  | radd (type : Nat) (sat rsig : Bool)
  deriving DecidableEq, Repr

/-- The moves that an operation has made: the stamps of its writes, its clock, its error flag (R285, R350). -/
structure Moved where
  writes : List (Fin 2 × Nat)
  clk : Clk
  err : Bool
  deriving DecidableEq, Repr

/-- A copy operation (R344, R346): `scale` is the scale source or the remote signal's counter. -/
structure CopyOp where
  kind : CopyKind
  src : W64
  dst : W64
  shape : W64
  compl : W64
  scale : W64
  who : Issuer
  /-- Sent to another package, whose answer is awaited (R451); what it answered to a read: the items that failed, and the bytes of all items. -/
  sent : Bool
  got : Option (List (Nat × Nat) × List W8)
  moved : Option Moved
  /-- The committed task that sent it (R452). -/
  forTask : Option W64
  /-- Its place in the acceptance order of its cluster's engine (R340); 0 before it is accepted. -/
  seq : Nat
  /-- The die's cycle count when it was sent to another package (R444). -/
  since : W64
  deriving DecidableEq, Repr

/-! ### Groups, gangs, tasks, launches -/

/-- A record that a group holds (R384): the slot of its position. -/
structure Held where
  pos : Nat
  slot : Nat
  deriving DecidableEq, Repr

/-- One group of a gang (R22). -/
structure Group where
  gang : GangKey
  index : Fin 8
  core : Fin 192
  /-- Lowest base of R36 and its waves per group. -/
  base : Fin 4
  /-- The wave slots of its waves, in wave order (R23). -/
  slots : List (Fin 48)
  /-- Scratchpad: bytes, size in granules, clocks stored beside values, registered barriers (R240, R276, R320). -/
  spad : List (Nat × W8)
  spadSize : Nat
  spadClk : List (Nat × Clk)
  /-- Bytes whose latest value is a completion update of an engine (R286). -/
  spadJoin : List Nat
  bars : List Nat
  /-- Tiles c0 to c3: element index to bits, +0.0 where unlisted (R242). -/
  tiles : Vector (List (Nat × W32)) 4
  /-- Monitor slots (R134). -/
  mons : Vector (Vector W32 6) 8
  stage : Fin 9
  held : Option Held
  taken : Bool
  task : Option W64
  idleSince : Option Nat
  left : Bool
  /-- The performance counters of its core while the gang is away (R324). -/
  pmSaved : Option (Vector Pm 4)
  /-- The tokens of its waves that have ended (R278). -/
  endedWaves : List W32
  deriving DecidableEq, Repr

/-- A PMREPLAY measurement (R336, R337): passes recorded so far, newest first: four counters and the digest. -/
structure Replay where
  npass : Nat
  sel : List W8
  result : W64
  started : Bool
  passes : List (List W64 × W64)
  deriving DecidableEq, Repr

/-- A pinned range (R263): start and length as PIN gave them, and the physical lines. -/
structure PinRange where
  start : Nat
  len : Nat
  lines : List Nat
  deriving DecidableEq, Repr

/-- One gang (R22, R24). `block` is the package number of its first core. -/
structure Gang where
  key : GangKey
  part : Fin 24
  block : Fin 192
  groups : Nat
  waves : Nat
  pins : List PinRange
  evictedAt : Option Nat
  meas : Bool
  /-- Matrix commands saved at eviction, the accepted ones first, in acceptance order (R311). -/
  saved : List MxEntry
  deriving DecidableEq, Repr

/-- What a versioned task does at its commit (R6, R358, R370, R451): a post, a launch, a kick, an append, a request to another package, a copy to another package with the bytes of its rows. -/
inductive Deferred where
  | tkpost (addr : W64)
  | launch (q : Fin 8) (addr : W64)
  | chkick (ch : Fin 8) (head : W64)
  | chtail (ch : Fin 8) (rec0 : W64)
  | remoteReq (rank : Nat) (r : RemoteReq)
  | remoteCopy (op : CopyOp) (rows : List (Nat × List W8))
  deriving DecidableEq, Repr

/-- One task (R27, R423, R424). `home` is the record's address; `queue` is the task queue of a group task. -/
structure Task where
  tid : W64
  part : Fin 24
  gang : GangKey
  group : Option (Fin 8)
  versioned : Bool
  idem : Bool
  relaunches : Nat
  vfull : Nat
  alone : Bool
  ended : Bool
  /-- The tokens of its waves that have ended, the last first (R428). -/
  waves : List W32
  mismatches : Nat
  home : W64
  succ : W64
  queue : Fin 16
  /-- Deferred operations in program order, each with its wave as the issuer. -/
  deferred : List (Issuer × Deferred)
  /-- Committed, with the requests sent at the commit that have no answer yet, by their waves' tokens and target ranks (R451, R452). -/
  committed : Bool
  acks : List (W32 × Nat)
  /-- The stamps of the writes of its commit, which its posts, launches and kicks follow (R281, R288). -/
  writes : List (Fin 2 × Nat)
  /-- Its measurement (R337), and the exclusive OR of the final digests of its waves that have ended (R338). -/
  replay : Option Replay
  digest : W64
  /-- What its waves that have ended had seen (R288). -/
  clk : Clk
  /-- The L2 lines that it has read or written (R337). -/
  lines : List (Fin 2 × Nat)
  /-- The cycle count of die 0 when its deferred requests were sent (R444). -/
  sentAt : W64
  /-- The host has released it after VERSION_FULL, when no wave of it was left (R43). -/
  freed : Bool
  deriving DecidableEq, Repr

/-- The fields of a launch record's snapshot (R363). -/
structure LaunchRec where
  idem : Bool
  meas : Bool
  nover : Bool
  tserv : Bool
  prio : Fin 16
  tq : Fin 16
  sched : W64
  size : W64
  arg : W64
  tbase : W64
  psize : Nat
  gcount : Nat
  pipe : W64
  qbase : W64
  compl : W64
  malformed : Bool
  deriving DecidableEq, Repr

/-- A variant of a schedule table (R32). -/
structure VariantEnt where
  entry : W64
  bound : Nat
  gshape : Nat
  waves : Nat
  nregs : Nat
  mirror : Bool
  spad : Nat
  deriving DecidableEq, Repr

/-- A stage entry of a pipeline descriptor (R371). -/
structure StageEnt where
  entry : W64
  slots : Nat
  slotBytes : Nat
  set : Nat
  deriving DecidableEq, Repr

/-- A set entry of a pipeline descriptor (R371). -/
structure SetEnt where
  memb : W8
  ordered : Bool
  window : Nat
  seed : W32
  deriving DecidableEq, Repr

/-- Per-stage statistics (R380). -/
structure StageStat where
  passq8 : Nat
  pas : W32
  rej : W32
  ent : W32
  deriving DecidableEq, Repr

/-- Where a record of a pipeline stands. -/
inductive RecAt where
  /-- Queued at a stage; `stage` is the member for a set. -/
  | queued (stage : Nat)
  | held
  /-- Passed on by RTDONE, waiting for room at the next position. -/
  | moving
  /-- All members done, waiting to leave its set (R377). -/
  | leaving
  /-- A reserved slot not yet filled, and a voided one (R376, R378). -/
  | reserved
  | voided
  deriving DecidableEq, Repr

/-- A slot in use of a position's queue (R373, R374). -/
structure PRec where
  pos : Nat
  slot : Nat
  loc : RecAt
  seq : W32
  entno : W32
  setid : Nat
  done : W8
  obcnt : Nat
  arrival : Nat
  /-- The slot reserved at the next position of an ORDERED set. -/
  resv : Option Nat
  /-- The stage that holds it has counted it as passed, and waits for room (R384). -/
  passed : Bool
  /-- The outbox entries that have been applied, and the stamps of the last one's writes (R381). -/
  boxes : Nat
  boxWrites : List (Fin 2 × Nat)
  clk : Clk
  deriving DecidableEq, Repr

/-- The router's state for a pipeline launch (R371 to R381). -/
structure Pipe where
  /-- The groups that have executed RTTAKE, by gang index and group (R375). -/
  took : List (W32 × Fin 8)
  stages : List StageEnt
  sets : List SetEnt
  cluster : Option (Fin 24)
  recs : List PRec
  x : List W32
  stats : List StageStat
  nextEnt : List W32
  emitted : W32
  arrivals : Nat
  closed : Bool
  stopped : Bool
  /-- The waves whose RTEMIT of a record has been issued (R375). -/
  emitting : List W32
  /-- The host has released an access of the router: a page still unmapped fails (R41, R43). -/
  freed : Bool
  deriving DecidableEq, Repr

/-- One accepted launch (R363 to R366). -/
structure Launch where
  key : Nat
  part : Fin 24
  queue : Fin 8
  addr : W64
  gen : W32
  acc : Nat
  snap : LaunchRec
  variants : List VariantEnt
  chosen : Nat
  sizek : Fin 32
  nextGang : Nat
  /-- Gangs to be relaunched, in order (R431). -/
  again : List W32
  /-- Gangs that have committed or ended, and gangs returned with a cause. -/
  done : Nat
  returned : List (W32 × Cause)
  itemErr : Bool
  pipe : Option Pipe
  /-- Held for the host before its next admission (R41). -/
  heldByHost : Bool
  /-- Released by the host: its evictions spill as in hardware mode (R43). -/
  spills : Bool
  /-- What the acquire at its acceptance covers (R290). -/
  seen : Clk
  deriving DecidableEq, Repr

/-- An entry of a task queue (R364, R367). `taken` is the group that runs it. -/
structure TaskEnt where
  tid : W64
  addr : W64
  gen : W32
  entry : W64
  arg : W64
  tile : W64
  succ : W64
  nover : Bool
  idem : Bool
  relaunches : Nat
  vfull : Nat
  mismatches : Nat
  replay : Option Replay
  /-- The tasks whose tags stood on the counter that posted it (R426). -/
  after : List TaskKey
  taken : Bool
  /-- The host knows that its start would exceed the limit of a commit group (R422, R427). -/
  told : Bool
  /-- What the acquire at its acceptance covers (R290). -/
  seen : Clk
  deriving DecidableEq, Repr

/-! ### Engines -/

/-- A transfer record in service of a channel, or the command in service of a command chain (R354, R448): its 64 bytes at acceptance. -/
structure RecRun where
  addr : W64
  pa : Nat
  snap : List W8
  status : Cause
  /-- The copy that a transfer record makes; for a stream record, that of its current tile; none for a command. -/
  op : Option CopyOp
  /-- Tiles completed, for a stream record (R359). -/
  tile : Nat
  err : Bool
  finished : Bool
  deriving DecidableEq, Repr

/-- A channel register with the engine's own state (R353, R355); also a partition's command chain (R449). -/
structure Chan where
  state : Fin 4
  part : W8
  stale : W16
  dropw : W16
  cur : W64
  last : W64
  polls : Nat
  /-- The die's cycle count at the last re-read. -/
  since : W64
  kicker : Option Issuer
  /-- Who linked a record, where it was not the kick (R341, R358). -/
  linked : List (W64 × Issuer)
  inService : Option RecRun
  deriving DecidableEq, Repr

/-- A line of an L1 data cache (R243), with what its die had applied when it was filled, and the clocks of the writes that gave its bytes, by address, where they are not (0, 0) (R276). -/
structure L1Line where
  line : Nat
  epoch : W16
  seen : Clk
  bytes : List W8
  clks : List (Nat × Clk)
  deriving DecidableEq, Repr

/-- A translation (R233, R235): level, page number, physical base of the page or of the next table, W, X, D and the address of its entry. -/
structure TlbEntry where
  part : Fin 24
  leaf : Bool
  level : Nat
  page : Nat
  base : Nat
  w : Bool
  x : Bool
  d : Bool
  pte : Nat
  deriving DecidableEq, Repr

/-- One core (R19). -/
structure Core where
  l1 : List L1Line
  /-- Lines of private memory in L1, by wave and line, the latest first (R239). -/
  l1p : List (W32 × Nat)
  epoch : W16
  tlb : List TlbEntry
  icache : List (Nat × W32)
  mxWait : List MxEntry
  mxQueue : List MxEntry
  bound : List (GangKey × Fin 8 × Fin 4)
  pm : Vector Pm 4
  gated : Bool
  outOfService : Bool
  testDue : Bool
  /-- The test fell due in host-assisted mode (R42). -/
  testHost : Bool
  /-- In host-assisted mode: the host has chosen the time, and windows still defer the test (R205, R206). -/
  testGo : Bool
  /-- Windows open when the test fell due: the tokens of their waves (R413). -/
  testAfter : List W32
  testing : Bool
  corrected : Nat
  deriving DecidableEq, Repr

/-! ### Dies, partitions, the package -/

/-- An object entry of the wait-for table (R389); its counts are those of the links and waits on its key. -/
structure ObjEntry where
  die : Fin 2
  index : Nat
  ext : Bool
  key : ObjKey
  kind : Nat
  ceil : Fin 16
  part : Fin 24
  /-- The wave whose DEADLOCK records name it: it stays until that wave has left its handler (R397, log entry 21). -/
  named : Option W32
  deriving DecidableEq, Repr

/-- A holder link (R390); `observer` is the whole task identifier of an observed-by link (R391). -/
structure HolderLink where
  die : Fin 2
  ext : Bool
  key : ObjKey
  lkind : Nat
  agent : W32
  units : Nat
  observer : Option TaskKey
  deriving DecidableEq, Repr

/-- The wait of an engine agent, with its effective priority (R388, R394). The wait of a commit stands under the token of the task's last wave, and that of an idle task-serving group under the router's agent of its core (log entry 32). -/
structure EngineWait where
  agent : W32
  link : WaitLink
  eprio : Fin 16
  deriving DecidableEq, Repr

/-- A write that has its stamp and that some die has not applied (R275 to R277). -/
structure WriteRec where
  home : Fin 2
  stamp : Nat
  bytes : List (Nat × W8 × W8)
  dep : Clk
  /-- What a reader's clock gains beyond the stamp: the dependencies, and for a commit every other write of it (R276, R288). -/
  cover : Clk
  /-- The clocks of the writes that it follows, where they are not (0, 0). -/
  prior : List (Nat × Clk)
  token : W32
  core : Option (Fin 192)
  on0 : Bool
  on1 : Bool
  deriving DecidableEq, Repr

/-- A byte of an uncommitted versioned write (R261, R287), and its line's place (R425). -/
structure VByte where
  task : TaskKey
  gang : GangKey
  pa : Nat
  val : W8
  /-- The first byte of the unit that wrote it (R288). -/
  unit : Nat
  deriving DecidableEq, Repr

structure VLine where
  task : TaskKey
  line : Nat
  inL2 : Bool
  deriving DecidableEq, Repr

/-- An L2 line with its eviction class (R246): 0 first, 1 normal, 2 last. -/
structure L2Line where
  line : Nat
  cls : Fin 3
  deriving DecidableEq, Repr

/-- One die (R18). -/
structure Die where
  clock : W64
  wctr : Nat
  applied : Clk
  tokens : Nat
  pending : List (Nat × W32)
  l2 : List L2Line
  /-- Lines pinned by tile fetches that their steps have not read yet, with the core of the step (R300). -/
  tilePins : List (Fin 192 × Nat)
  tlb : List TlbEntry
  ctxsize : W64
  vsmax : W64
  wftxbase : W64
  chans : Vector Chan 96
  copyWait : List CopyOp
  copyRun : List CopyOp
  /-- Corrected errors, per L2 slice (R466). -/
  corrected : Vector Nat 64
  deriving DecidableEq, Repr

/-- A contribution to a collective (R455, R456); none for the values of a failed read. -/
structure Contribution where
  index : Nat
  par : W64
  count : Nat
  root : Nat
  values : Option (List W64)
  /-- Cause and failing address of a failed read. -/
  cause : Cause
  addr : W64
  who : Option Issuer
  dst : W64
  compl : W64
  /-- The results written at its DST, whose application its COMPL waits for (R285). -/
  moved : Option Moved
  /-- Its member's task is versioned (R457). -/
  ver : Bool
  deriving DecidableEq, Repr

/-- A collective instance (R453). -/
structure Coll where
  dpid : Nat
  group : Nat
  cseq : Nat
  /-- The cycle count of the engine's die when its wait for contributors began (R398). -/
  since : W64
  parked : Bool
  /-- It has ended without a result, and ends for the members that are still to come (R456): the cause, and the indexes that have come. -/
  ended : Option Cause
  came : List Nat
  parts : List Contribution
  deriving DecidableEq, Repr

/-- A member of a collective in another package, as a versioned member here observes it (R457): the member here with its index, the instance, the index there, whether the packages there know that the task here could commit, and whether the task there could. -/
structure FarMember where
  task : TaskKey
  dpid : Nat
  group : Nat
  cseq : Nat
  mine : Nat
  index : Nat
  told : Bool
  ready : Bool
  deriving DecidableEq, Repr

/-- An item that waits for the host (R43). -/
structure ParkedItem where
  tid : W64
  cause : Cause
  /-- The agents that are held with it, for a deadlock in cycle order. -/
  tokens : List W32
  deriving DecidableEq, Repr

/-- One partition: its registers (R446), its clusters (R28), queues (R364) and counts (R423). -/
structure Partition where
  present : Bool
  clusters : BitVec 24
  lockstep : Bool
  pfmode : W64
  ptroot : W64
  dpid : W64
  sbbase : W64
  ctxbase : W64
  vbase : W64
  vsize : W64
  pwto : W64
  qord : W64
  cmdcompl : W64
  dzpool : W64
  cmd : Chan
  launchQ : Vector (List Nat) 8
  taskQ : Vector (List TaskEnt) 16
  accepted : Nat
  commits : Nat
  parked : List ParkedItem
  deriving DecidableEq, Repr

/-- A launch queue or a task queue of a partition (R364). -/
inductive QueueSel where
  | launch (q : Fin 8)
  | task (q : Fin 16)
  deriving DecidableEq, Repr

/-- Messages to the host (R41, R235, R422, R466, R472). -/
inductive HostMsg where
  | report (part : Option (Fin 24)) (ddr : BitVec 96)
  | parked (part : Fin 24) (tid : W64) (cause : Cause)
  | members (part : Fin 24) (records : List W64)
  | tlbAck (part : Fin 24)
  | testDue (core : Fin 192)
  | value (v : Nat)
  | quote (fields : List Nat) (signature : Nat)
  | alert
  /-- A queue that cannot be recovered (R11). -/
  | unrecoverable (part : Fin 24) (q : QueueSel)
  deriving DecidableEq, Repr

/-- The package's registers (R446, R472, R482) and firmware (R470). -/
structure Pkg where
  rank : W64
  dsize : W64
  rmapbase : W64
  stepping : W8
  fwsvn : W16
  fwbuild : W16
  attptr : W64
  ready : Bool
  recovery : Bool
  /-- The module has shut down, and only the management controller runs (R474). -/
  standby : Bool
  failingCheck : Fin 8
  failedParts : Nat
  power : W32
  tjmax : W32
  tcool : W32
  testiv : W32
  alert : BitVec 3
  image : Nat
  staged : Option (Nat × W16 × W16)
  floor : W16
  copiesLost : Bool
  portsOut : BitVec 128
  stacksOut : W8
  /-- Corrected errors, per stack (R466). -/
  corrected : Vector Nat 8
  deriving DecidableEq, Repr

/-- What the device sends over the fabric (R443, R444, R451): a request to a rank under a tag, or the answer to a request that arrived. -/
inductive FabricMsg where
  | request (rank tag : Nat) (r : RemoteReq)
  | answer (x : RemoteAnswer)
  deriving DecidableEq, Repr

/-- What comes next, as plain data (log entry 1): a step of the device or the host, or the issue of a wave. -/
inductive Turn where
  | event (i : Instr)
  | issue (token : W32)
  deriving DecidableEq, Repr

/-- The machine. -/
structure State where
  wave : Wave
  waves : List Wave
  groups : List Group
  gangs : List Gang
  tasks : List Task
  launches : List Launch
  parts : Vector Partition 24
  cores : Vector Core 192
  dies : Vector Die 2
  hbm : List Host.Cell
  /-- The clock of each byte's latest write: its dependencies and its stamp (R276). -/
  clks : List (Nat × Clk)
  /-- Bytes whose latest write is a completion update of an engine (R286). -/
  joins : List Nat
  lag : List WriteRec
  vbytes : List VByte
  vlines : List VLine
  tags : List (Nat × TaskKey)
  /-- Signals that a gang's CNTADD has applied to successor counters: the task, the physical address (R430). -/
  signals : List (GangKey × W64 × Nat)
  objs : List ObjEntry
  links : List HolderLink
  engWaits : List EngineWait
  /-- Engine records that wait for the host to map the side buffer's page (R237, R478). -/
  recWaits : List (Issuer × List (W64 × Cause))
  /-- Locks held, by the owner's token and the word's key (R405, R407). -/
  locks : List (W32 × ObjKey)
  owned : List Nat
  /-- The stamps of the writes that have arrived from other packages (R276, R451). -/
  arrived : Clk
  /-- Bytes of global memory whose only copy is lost and that nothing has written since (R10, R464). -/
  lost : List Nat
  colls : List Coll
  collGroups : List (Nat × List W16)
  farMembers : List FarMember
  /-- Requests of other packages that write or add, by source and tag, with the answers that they got (R443). -/
  served : List (Nat × Nat × RemoteAnswer)
  /-- The tag of the next request that is sent (R443). -/
  nextTag : Nat
  scrubs : List (Nat × Nat)
  pkg : Pkg
  powered : Bool
  hostLog : List HostMsg
  fabricOut : List FabricMsg
  agenda : List Turn
  free : Nat
  nextKey : Nat
  deriving DecidableEq, Repr

/-- Why the machine stops. -/
inductive Fault where
  /-- Raised by step: the module has no power, so that every die is stopped, and nothing comes from outside it (R468, R474). Safe: the hardware does nothing either. -/
  | noPower
  deriving DecidableEq, Repr

/-- Why an instruction has no meaning. -/
inductive Refusal where
  /-- Raised by exec for an instruction that is not modelled. Safe: nothing is proved about its effect. -/
  | notModelled (mnemonic : String)
  deriving DecidableEq, Repr

/-- The outcome of a step of this machine. -/
abbrev Out := Host.Outcome State Fault Refusal

/-! ### Reset -/

/-- The registers at wave start (R141, R150). -/
def Regs.reset : Regs where
  pc := 0
  q := Vector.replicate 16 (Lanes.all 0)
  qvalid := 0
  pushes := 0
  named := Vector.replicate 40 (Lanes.all 0)
  mirror := Vector.replicate 16 (Lanes.all 0)
  sel := 0
  pflag := false
  pcnt := Lanes.all 0
  acnt := Lanes.all 0
  didx := Lanes.all 0
  dkey := 0
  latch := Vector.replicate 3 ⟨Lanes.all 0, 0⟩
  preds := Vector.replicate 8 0
  exec := 0xFFFFFFFF
  mstack := Vector.replicate 16 0
  msdepth := 0
  msidx := 0
  mode := 0
  k := Vector.replicate 32 0
  h := Vector.replicate 8 0
  rs := []
  prio := 0
  tbase := 0
  variant := 0
  nregs := 0
  mirrorOn := false
  clockLatch := none

/-- The frame of a wave that has taken no trap. -/
def Frame.reset : Frame where
  pc := 0
  q := Vector.replicate 16 (Lanes.all 0)
  qvalid := 0
  pushes := 0
  latch := Vector.replicate 3 ⟨Lanes.all 0, 0⟩
  pflag := false
  exec := 0xFFFFFFFF
  mstack := Vector.replicate 16 0
  msdepth := 0
  mode := 0
  clockLatch := none
  rs := []

/-- The idle wave of a device on which no wave has started (log entry 15). -/
def Wave.reset : Wave where
  ids := ⟨0, 0, ⟨0, 0⟩, 0, 0, 0, 0, 0⟩
  regs := Regs.reset
  run := .ended
  handler := false
  frame := Frame.reset
  npOpen := false
  npleft := 0
  npOwed := false
  psize := 0
  priv := []
  pbase := 0
  backing := []
  eprio := 0
  acqEpoch := 0
  clk := {}
  floor := {}
  covers := []
  digest := 0
  flights := []
  wait := none
  remoteOut := []
  remoteErr := none
  waited := 0
  losses := 0
  readySince := 0
  released := none
  tried := none

/-- A channel register at reset (R353). -/
def Chan.reset : Chan where
  state := 0
  part := 0xFF
  stale := 0
  dropw := 0
  cur := 0
  last := 0
  polls := 0
  since := 0
  kicker := none
  linked := []
  inService := none

/-- A core at reset: caches empty, no selection, in service. -/
def Core.reset : Core where
  l1 := []
  l1p := []
  epoch := 0
  tlb := []
  icache := []
  mxWait := []
  mxQueue := []
  bound := []
  pm := Vector.replicate 4 ⟨0, false, 0⟩
  gated := false
  outOfService := false
  testDue := false
  testHost := false
  testGo := false
  testAfter := []
  testing := false
  corrected := 0

/-- A die at reset (R276, R316, R387, R446). -/
def Die.reset : Die where
  clock := 0
  wctr := 0
  applied := {}
  tokens := 0
  pending := []
  l2 := []
  tilePins := []
  tlb := []
  ctxsize := 24
  vsmax := 32
  wftxbase := 0
  chans := Vector.replicate 96 Chan.reset
  copyWait := []
  copyRun := []
  corrected := Vector.replicate 64 0

/-- A partition's registers at reset (R446). -/
def Partition.reset : Partition where
  present := false
  clusters := 0
  lockstep := false
  pfmode := 0
  ptroot := 0
  dpid := 0
  sbbase := 0
  ctxbase := 0
  vbase := 0
  vsize := 0
  pwto := 32227
  qord := 0
  cmdcompl := 0
  dzpool := 0
  cmd := Chan.reset
  launchQ := Vector.replicate 8 []
  taskQ := Vector.replicate 16 []
  accepted := 0
  commits := 0
  parked := []

/-- The package's registers at reset (R446, R472); READY is set by the start-up sequence (R469). ATTPTR, for which R482 states no value, gives 4 KiB at 0x20_0000 of the window (DESIGN CHOICE, log entry 13). -/
def Pkg.reset : Pkg where
  rank := 0
  dsize := 1
  rmapbase := 0
  stepping := 0
  fwsvn := 0
  fwbuild := 0
  attptr := 0x004F_F000_0020_0000
  ready := false
  recovery := false
  standby := false
  failingCheck := 0
  failedParts := 0
  power := 0
  tjmax := 0
  tcool := 0
  testiv := 24
  alert := 0
  image := 0
  staged := none
  floor := 0
  copiesLost := false
  portsOut := 0
  stacksOut := 0
  corrected := Vector.replicate 8 0

/-- The machine right after reset: no partition, no wave, empty memories, registers at their reset values. -/
def State.reset : State where
  wave := Wave.reset
  waves := []
  groups := []
  gangs := []
  tasks := []
  launches := []
  parts := Vector.replicate 24 Partition.reset
  cores := Vector.replicate 192 Core.reset
  dies := Vector.replicate 2 Die.reset
  hbm := []
  clks := []
  joins := []
  lag := []
  vbytes := []
  vlines := []
  tags := []
  signals := []
  objs := []
  links := []
  engWaits := []
  recWaits := []
  locks := []
  owned := []
  arrived := {}
  lost := []
  colls := []
  collGroups := []
  farMembers := []
  served := []
  nextTag := 0
  scrubs := []
  pkg := Pkg.reset
  powered := true
  hostLog := []
  fabricOut := []
  agenda := []
  free := 0
  nextKey := 0

end Sys2Proof.Machine
end

