-- ==== Sys2Proof/Machine/Mem.lean ====
section
/-!
DEFINITION. Memory: the canonical lists, lookups and updates of the state's parts, address windows (R229 to R231), stamped writes and the dies' views (R275 to R279), versions (R261, R287), scratchpads (R240), page tables and TLBs (R232 to R237, R481), performance counters (R324, R325).
-/

namespace Sys2Proof.Machine

/-! ### Canonical lists -/

/-- The value at a key; `d` where unlisted. Keys rise. -/
def cellGet {α : Type} (d : α) : List (Nat × α) → Nat → α
  | [], _ => d
  | (b, v) :: l, a => if a = b then v else if a < b then d else cellGet d l a

/-- The list with `v` at key `a`; an entry equal to `d` is left out. -/
def cellSet {α : Type} [DecidableEq α] (d : α) : List (Nat × α) → Nat → α → List (Nat × α)
  | [], a, v => if v = d then [] else [(a, v)]
  | (b, w) :: l, a, v =>
    if a < b then (if v = d then (b, w) :: l else (a, v) :: (b, w) :: l)
    else if a = b then (if v = d then l else (a, v) :: l)
    else (b, w) :: cellSet d l a v

/-- Keys above `lo` and strictly rising, and no entry equal to `d`. -/
def cellsFrom {α : Type} [DecidableEq α] (d : α) : Option Nat → List (Nat × α) → Bool
  | _, [] => true
  | lo, (a, v) :: l => (match lo with | none => true | some b => decide (b < a)) && decide (v ≠ d) && cellsFrom d (some a) l

/-- The canonical form of a list of cells. -/
def cellsWf {α : Type} [DecidableEq α] (d : α) (l : List (Nat × α)) : Bool := cellsFrom d none l

/-- The canonical form of the global memory; an unlisted byte reads 0 (log entry 2). -/
def Memory.wf (m : List Host.Cell) : Bool := cellsWf (0 : W8) m

/-- Several bytes written. -/
def cellsPut (l : List Host.Cell) (bytes : List (Nat × W8)) : List Host.Cell :=
  bytes.foldl (fun m b => cellSet 0 m b.1 b.2) l

/-- A little-endian number from bytes (R103), and back. -/
def leNat : List W8 → Nat
  | [] => 0
  | b :: l => b.toNat + 256 * leNat l

def leBytes : Nat → Nat → List W8
  | 0, _ => []
  | n + 1, x => BitVec.ofNat 8 x :: leBytes n (x / 256)

/-- Bytes at consecutive keys from `a`. -/
def keyed (a : Nat) : List W8 → List (Nat × W8)
  | [] => []
  | b :: l => (a, b) :: keyed (a + 1) l

/-! ### Parts of the state -/

def onDie (s : State) (d : Fin 2) (f : Die → Die) : State := { s with dies := s.dies.set d.val (f s.dies[d]) }
def onCore (s : State) (c : Fin 192) (f : Core → Core) : State :=
  { s with cores := s.cores.set c.val (f s.cores[c]) }
def onPart (s : State) (p : Fin 24) (f : Partition → Partition) : State :=
  { s with parts := s.parts.set p.val (f s.parts[p]) }
def onChan (s : State) (d : Fin 2) (ch : Fin 96) (f : Chan → Chan) : State :=
  onDie s d fun x => { x with chans := x.chans.set ch.val (f x.chans[ch]) }
def onWave (s : State) (f : Wave → Wave) : State := { s with wave := f s.wave }
def onRegs (s : State) (f : Regs → Regs) : State := { s with wave := { s.wave with regs := f s.wave.regs } }
def onWaves (s : State) (f : Wave → Wave) : State := { s with wave := f s.wave, waves := s.waves.map f }
def onToken (s : State) (t : W32) (f : Wave → Wave) : State :=
  onWaves s fun w => if w.ids.token = t then f w else w
def onGroup (s : State) (k : GangKey) (i : Fin 8) (f : Group → Group) : State :=
  { s with groups := s.groups.map fun g => if g.gang = k ∧ g.index = i then f g else g }
def onGang (s : State) (k : GangKey) (f : Gang → Gang) : State :=
  { s with gangs := s.gangs.map fun g => if g.key = k then f g else g }
def onTask (s : State) (t : W64) (p : Fin 24) (f : Task → Task) : State :=
  { s with tasks := s.tasks.map fun x => if x.tid = t ∧ x.part = p then f x else x }
def onLaunch (s : State) (k : Nat) (f : Launch → Launch) : State :=
  { s with launches := s.launches.map fun x => if x.key = k then f x else x }

/-- Every wave that has started and not ended, the issuing one first. -/
def liveWaves (s : State) : List Wave := (s.wave :: s.waves).filter fun w => w.run != .ended
def findWave (s : State) (t : W32) : Option Wave := (liveWaves s).find? fun w => w.ids.token == t
def findGroup (s : State) (k : GangKey) (i : Nat) : Option Group :=
  s.groups.find? fun g => g.gang == k && g.index.val == i
def findGang (s : State) (k : GangKey) : Option Gang := s.gangs.find? fun g => g.key == k
def findTask (s : State) (t : W64) (p : Fin 24) : Option Task := s.tasks.find? fun x => x.tid == t && x.part == p
def findLaunch (s : State) (k : Nat) : Option Launch := s.launches.find? fun x => x.key == k

/-- Whether the issuing wave stands at the instruction at which the host released it (R43). -/
def isReleased (s : State) : Bool := s.wave.released == some s.wave.regs.pc

/-- The die of a core of the package, and its number on the die (R19). -/
def coreDie (c : Fin 192) : Fin 2 := if c.val < 96 then 0 else 1
def coreNum (c : Fin 192) : Nat := c.val % 96
def clusterOf (c : Fin 192) : Fin 24 := Fin.ofNat 24 (c.val / 8)
def waveDie (w : Wave) : Fin 2 := coreDie w.ids.core

/-- A message to the host. -/
def tellHost (s : State) (m : HostMsg) : State := { s with hostLog := s.hostLog ++ [m] }

/-- DDR (R422): group, cause and INFO. -/
def ddrOf (group : Nat) (cause : Cause) (info : Nat) : BitVec 96 :=
  BitVec.ofNat 96 (group + 32 * cause.toNat + 65536 * info)

/-- A report of the device handler to the host (R422). -/
def report (s : State) (p : Option (Fin 24)) (group : Nat) (cause : Cause) (info : Nat) : State :=
  tellHost s (.report p (ddrOf group cause info))

/-- The next free value (log entry 3). -/
def drawFree (s : State) : W64 × State := (Config.freeWord s.free, { s with free := s.free + 1 })

/-! ### Clocks (R276) -/

def clkJoin (a b : Clk) : Clk := ⟨max a.c0 b.c0, max a.c1 b.c1⟩
def clkLe (a b : Clk) : Bool := decide (a.c0 ≤ b.c0) && decide (a.c1 ≤ b.c1)
def clkAt (a : Clk) (d : Fin 2) : Nat := if d = 0 then a.c0 else a.c1
def clkRaise (a : Clk) (d : Fin 2) (n : Nat) : Clk := if d = 0 then ⟨max a.c0 n, a.c1⟩ else ⟨a.c0, max a.c1 n⟩

/-- A clock that covers every write stamped so far. -/
def clkNow (s : State) : Clk := ⟨s.dies[0].wctr, s.dies[1].wctr⟩

/-- The home die of a physical address (R233). -/
def homeOf (pa : Nat) : Fin 2 := if pa / 2 ^ 38 % 2 = 0 then 0 else 1

/-! ### L2 (R244 to R248) -/

/-- The set of a line: 64 slices of 4 MiB with 16-way sets of 128-byte lines (R244, log entry 10). -/
def l2SetOf (d : Fin 2) (line : Nat) : Nat := Config.l2Set d.val line % 131072

/-- The lines that the gangs on a die and the tile fetches pin in its L2 (R264, R300). -/
def pinnedOn (s : State) (d : Fin 2) : List Nat :=
  ((s.gangs.filter fun g => coreDie g.block == d).flatMap fun g => g.pins.flatMap fun r => r.lines) ++
    s.dies[d].tilePins.map fun x => x.2

/-- The ways of a set that the context partition takes, from every slice alike (R248, log entry 10). -/
def contextWays (s : State) (d : Fin 2) (set : Nat) : Nat :=
  let c := s.dies[d].ctxsize.toNat
  c / 16 + if set % 2048 / 128 < c % 16 then 1 else 0

/-- The lines of the version store in a set (R248). -/
def versionWays (s : State) (d : Fin 2) (set : Nat) : Nat :=
  (s.vlines.filter fun l => l.inL2 && homeOf (l.line * 128) == d && l2SetOf d l.line == set).length

/-- The ways of a set for ordinary lines. -/
def ordinaryWays (s : State) (d : Fin 2) (set : Nat) : Nat := 16 - contextWays s d set - versionWays s d set

/-- The line of a set that leaves: first, normal, last class, the least recently used of its class; a pinned line never (R247). -/
def l2Victim (pinned : List Nat) (l : List L2Line) : Option L2Line :=
  let free := (l.filter fun x => !pinned.contains x.line).reverse
  ([0, 1, 2] : List (Fin 3)).findSome? fun c => free.find? fun x => x.cls == c

/-- Lines leave a set until it holds at most `room` of them, or only pinned ones: at most `n` lines. -/
def dropOver (pinned : List Nat) (here : L2Line → Bool) (room : Nat) : Nat → List L2Line → List L2Line
  | 0, l => l
  | n + 1, l =>
    if (l.filter here).length ≤ room then l
    else match l2Victim pinned (l.filter here) with
      | some v => dropOver pinned here room n (l.filter fun x => x.line != v.line)
      | none => l

/-- A line touched in a die's L2 is the most recent one (R247). Its class is the one given, else the one that it has, else normal; a thirteenth line of the last class in a set is placed as normal (R246, R247). Where the reservations and pinned lines leave no way, it is not placed. -/
def touchL2 (s : State) (d : Fin 2) (line : Nat) (cls : Option (Fin 3)) : State :=
  let x := s.dies[d]
  let others := x.l2.filter fun l => l.line != line
  let here := fun (l : L2Line) => l2SetOf d l.line == l2SetOf d line
  let room := ordinaryWays s d (l2SetOf d line)
  let set := others.filter here
  let want : Fin 3 := cls.getD (((x.l2.find? fun l => l.line == line).map fun l => l.cls).getD 1)
  let c : Fin 3 := if want = 2 ∧ 12 ≤ (set.filter fun l => l.cls == 2).length then 1 else want
  let left := dropOver (pinnedOn s d) here (room - 1) 16 others
  onDie s d fun x => { x with l2 := if (left.filter here).length < room then ⟨line, c⟩ :: left else left }

/-- Ordinary lines leave the set of a line, where a reservation has taken their ways (R248). -/
def trimSet (s : State) (d : Fin 2) (line : Nat) : State :=
  let here := fun (l : L2Line) => l2SetOf d l.line == l2SetOf d line
  onDie s d fun x => { x with l2 := dropOver (pinnedOn s d) here (ordinaryWays s d (l2SetOf d line)) 16 x.l2 }

/-- The same for every set of a die. -/
def trimDie (s : State) (d : Fin 2) : State := s.dies[d].l2.foldl (fun t l => trimSet t d l.line) s

/-- Whether new pins would give a set of the die more than 8 pinned ways (R247). -/
def pinOver (s : State) (d : Fin 2) (new : List Nat) : Bool :=
  let all := (pinnedOn s d ++ new).eraseDups
  new.any fun x => decide (8 < (all.filter fun y => l2SetOf d y == l2SetOf d x).length)

/-- The ways of a set that the version store may still take: those of no pinned, context or version line (R248). -/
def freeWays (s : State) (d : Fin 2) (line : Nat) : Nat :=
  ordinaryWays s d (l2SetOf d line) - (((pinnedOn s d).eraseDups).filter fun y => l2SetOf d y == l2SetOf d line).length

/-! ### Global memory in write order -/

/-- The value that the latest stamped write of a byte gave it (R272). -/
def memByte (s : State) (pa : Nat) : W8 := cellGet 0 s.hbm pa
def memBytes (s : State) (pa n : Nat) : List W8 := (List.range n).map fun i => memByte s (pa + i)
def memNat (s : State) (pa n : Nat) : Nat := leNat (memBytes s pa n)

/-- Lost bytes that a write does not replace. -/
def stillLost (l : List Nat) (bytes : List (Nat × W8)) : List Nat := l.filter fun a => !bytes.any fun b => b.1 == a

/-- Bytes that have a clock, each given one clock. -/
def clksPut (l : List (Nat × Clk)) (bytes : List (Nat × W8)) (v : Clk) : List (Nat × Clk) :=
  bytes.foldl (fun m b => cellSet {} m b.1 v) l

/-- The clocks of bytes, where they are not (0, 0). -/
def clksOf (l : List (Nat × Clk)) (bytes : List (Nat × W8)) : List (Nat × Clk) :=
  (bytes.map fun b => (b.1, cellGet ({} : Clk) l b.1)).filter fun e => e.2 != {}

/-- One unit written by an agent: stamped at its home die (R275); a die shows it once it has applied it (R277). Its clock stays with its bytes (R276), it is no completion update (R286), and it reaches its line in its home die's L2 (R244). -/
def stampUnit (s : State) (core : Option (Fin 192)) (token : W32) (dep : Clk) (bytes : List (Nat × W8)) :
    State × (Fin 2 × Nat) :=
  match bytes with
  | [] => (s, (0, 0))
  | (a, _) :: _ =>
    let h := homeOf a
    let n := s.dies[h].wctr + 1
    let r : WriteRec :=
      ⟨h, n, bytes.map fun b => (b.1, memByte s b.1, b.2), dep, dep, clksOf s.clks bytes, token, core, false, false⟩
    (touchL2 (onDie { s with
        hbm := cellsPut s.hbm bytes
        clks := clksPut s.clks bytes (clkRaise dep h n)
        joins := stillLost s.joins bytes
        lag := s.lag ++ [r]
        lost := stillLost s.lost bytes } h fun d => { d with wctr := n }) h (a / 128) none,
      (h, n))

/-- Who makes a write: for a wave its core and its token; none for an engine or the device. -/
structure Writer where
  core : Option (Fin 192)
  token : W32
  deriving DecidableEq, Repr

def deviceWriter : Writer := ⟨none, 0⟩
def waveWriter (s : State) : Writer := ⟨some s.wave.ids.core, s.wave.ids.token⟩

/-- A write by the walkers or the firmware: stamped like any other, with no dependency (R271, R275). -/
def pokeBytes (s : State) (bytes : List (Nat × W8)) : State := (stampUnit s none 0 {} bytes).1
def pokeNat (s : State) (pa n x : Nat) : State := pokeBytes s (keyed pa (leBytes n x))

/-- A write of the device that follows every earlier write (R290, R366): records' STATUS and OWN, counters. -/
def deviceWrite (s : State) (pa n x : Nat) : State :=
  (stampUnit s none 0 (clkNow s) (keyed pa (leBytes n x))).1

def recOn (r : WriteRec) (d : Fin 2) : Bool := if d = 0 then r.on0 else r.on1
def recNew (r : WriteRec) (pa : Nat) : Option W8 := (r.bytes.find? fun b => b.1 == pa).map fun b => b.2.2
def recOld (r : WriteRec) (pa : Nat) : Option W8 := (r.bytes.find? fun b => b.1 == pa).map fun b => b.2.1
def recHas (r : WriteRec) (pa : Nat) : Bool := r.bytes.any fun b => b.1 == pa

/-- The latest write of a byte, among those not yet applied everywhere, that an agent on die d may read (R279, cases 1 and 3). -/
def visibleWrite (s : State) (d : Fin 2) (token : W32) (pa : Nat) : Option WriteRec :=
  s.lag.reverse.find? fun r => recHas r pa && (recOn r d || (token != 0 && r.token == token))

/-- The byte that an agent on die d reads past L1. -/
def viewByte (s : State) (d : Fin 2) (token : W32) (pa : Nat) : W8 :=
  match visibleWrite s d token pa with
  | some r => (recNew r pa).getD 0
  | none =>
    match s.lag.find? fun r => recHas r pa with
    | some r => (recOld r pa).getD 0
    | none => memByte s pa

/-- Whether a load must wait: its floor covers a write that die d has not applied (R279, case 2). -/
def floorBlocks (s : State) (d : Fin 2) (fl : Clk) (pa : Nat) : Bool :=
  s.lag.any fun r => recHas r pa && !recOn r d && decide (r.stamp ≤ clkAt fl r.home)

/-- The clock that a reader gains from a write (R276). -/
def recClk (r : WriteRec) : Clk := clkRaise r.cover r.home r.stamp

/-- The clock of the write whose value an agent on die d reads: its dependencies and its stamp (R276). -/
def visibleClk (s : State) (d : Fin 2) (token : W32) (pa : Nat) : Clk :=
  match visibleWrite s d token pa with
  | some r => recClk r
  | none =>
    match s.lag.find? fun r => recHas r pa with
    | some r => ((r.prior.find? fun e => e.1 == pa).map fun e => e.2).getD {}
    | none => cellGet {} s.clks pa

/-- What a read of the byte adds to the reader's clock (R276). -/
def readClk (s : State) (d : Fin 2) (token : W32) (pa : Nat) (v : Clk) : Clk := clkJoin v (visibleClk s d token pa)

/-- The clock after a read of the latest writes of bytes, as an atomic reads them (R273, R276). -/
def latestClk (s : State) (pa n : Nat) (v : Clk) : Clk :=
  (List.range n).foldl (fun v i => clkJoin v (cellGet {} s.clks (pa + i))) v

/-- Whether a read of bytes returns the value of a completion update (R286). -/
def readsJoin (s : State) (pas : List Nat) : Bool := !s.joins.isEmpty && pas.any fun a => s.joins.contains a

/-- The stamps of an agent's writes that die d has not applied (R281, R284). -/
def pendingOn (s : State) (d : Fin 2) (token : W32) : List (Fin 2 × Nat) :=
  (s.lag.filter fun r => r.token == token && !recOn r d).map fun r => (r.home, r.stamp)

/-- The writes that have been stamped between two states, by their stamps. -/
def newStamps (s t : State) : List (Fin 2 × Nat) :=
  (t.lag.filter fun r => decide (s.dies[r.home].wctr < r.stamp)).map fun r => (r.home, r.stamp)

/-- Whether writes named by their stamps have been applied on die d. -/
def appliedOn (s : State) (d : Fin 2) (l : List (Fin 2 × Nat)) : Bool :=
  l.all fun p => !s.lag.any fun r => r.home == p.1 && r.stamp == p.2 && !recOn r d

/-- The next write homed on die h that die d may apply (R277). Between the two homes R277 sets no order: the step names the home (log entry 7). -/
def nextApply (s : State) (d h : Fin 2) : Option WriteRec :=
  s.lag.find? fun r => r.home == h && !recOn r d && clkAt s.dies[d].applied r.home + 1 == r.stamp &&
    clkLe r.dep s.dies[d].applied

/-- A line of L1 with some bytes replaced. -/
def linePatch (l : L1Line) (r : WriteRec) : L1Line :=
  let mine := r.bytes.filter fun b => b.1 / 128 == l.line
  { l with
    bytes := l.bytes.mapIdx fun i b => (recNew r (l.line * 128 + i)).getD b
    clks := mine.foldl (fun m b => cellSet {} m b.1 (recClk r)) l.clks }

/-- Die d applies its next write homed on die h; the L1 lines of the writer's own core and of the cores in `cs` are updated with it (R243, R277, log entry 8). -/
def applyWrite (s : State) (d h : Fin 2) (cs : List (Fin 192)) : State :=
  match nextApply s d h with
  | none => s
  | some r =>
    let mark := fun (x : WriteRec) =>
      if x.home == r.home && x.stamp == r.stamp then (if d = 0 then { x with on0 := true } else { x with on1 := true }) else x
    let lag := (s.lag.map mark).filter fun x => !(x.on0 && x.on1)
    let s1 := onDie { s with lag := lag } d fun x => { x with applied := clkRaise x.applied r.home r.stamp }
    let own := match r.core with
      | some c => if coreDie c = d then [c] else []
      | none => []
    (own ++ cs).foldl (fun t c => onCore t c fun x => { x with l1 := x.l1.map fun l => linePatch l r }) s1

/-! ### L1 (R243) -/

/-- The line that a wave may use: present, not older than its acquire epoch, and with every write that the wave's floor covers (R279, cases 2 and 4). -/
def l1Find (s : State) (w : Wave) (line : Nat) : Option L1Line :=
  s.cores[w.ids.core].l1.find? fun l => l.line == line && decide (w.acqEpoch ≤ l.epoch) && clkLe w.floor l.seen

/-! ### Private memory in L1 and in the backing area (R239, R243) -/

/-- The address of a byte's backing place: key 32 o + L of Wave.priv is byte o of lane L (R239). -/
def backAddr (pbase key : Nat) : Nat := pbase + key / 128 * 128 + 4 * (key % 32) + key / 32 % 4

/-- A line of private memory is written to the backing area and leaves the wave's lines in L1. -/
def writeBack (w : Wave) (line : Nat) : Wave :=
  let out := w.priv.filter fun b => b.1 / 128 == line
  { w with
    priv := w.priv.filter fun b => b.1 / 128 != line
    backing := out.foldl (fun m b => cellSet 0 m (backAddr w.pbase.toNat b.1) b.2) w.backing }

/-- The keys of a line. -/
def lineKeys (line : Nat) : List Nat := (List.range 128).map fun i => 128 * line + i

/-- A line of private memory is read from the backing area into L1. -/
def readBack (w : Wave) (line : Nat) : Wave :=
  if w.backing.isEmpty then w
  else
    let ks := lineKeys line
    { w with
      priv := ks.foldl (fun m k =>
        let v := cellGet (0 : W8) w.backing (backAddr w.pbase.toNat k)
        if v = 0 then m else cellSet 0 m k v) w.priv
      backing := w.backing.filter fun b => !ks.any fun k => backAddr w.pbase.toNat k == b.1 }

/-- Lines of private memory leave a core's L1 and are written back (R239). -/
def spillLines (s : State) (c : Fin 192) (l : List (W32 × Nat)) : State :=
  if l.isEmpty then s
  else
    onCore (l.foldl (fun t x => onToken t x.1 fun w => writeBack w x.2) s) c fun x =>
      { x with l1p := x.l1p.filter fun y => !l.contains y }

/-- Every line of a wave is written back, as at its eviction (R239, R250). -/
def writeBackAll (s : State) (w : Wave) : State :=
  spillLines s w.ids.core ((s.cores[w.ids.core].l1p.filter fun x => x.1 == w.ids.token))

/-- A line of private memory of a wave enters its core's L1, which holds 1,024 lines in all; where they are all private, the oldest is written back (log entry 8). -/
def privFill (s : State) (w : Wave) (line : Nat) : State :=
  let c := w.ids.core
  let x := s.cores[c]
  let me := (w.ids.token, line)
  if x.l1p.contains me then onCore s c fun x => { x with l1p := me :: x.l1p.filter fun y => y != me }
  else
    let s1 := spillLines s c (x.l1p.drop 1023)
    onCore (onToken s1 w.ids.token fun w => readBack w line) c fun x =>
      { x with l1p := me :: x.l1p, l1 := x.l1.take (1023 - x.l1p.length) }

/-- A line filled on a core; with the private ones 1,024 lines are held, and the oldest leaves (log entry 8). -/
def l1Fill (s : State) (c : Fin 192) (line : Nat) : State :=
  let s1 := spillLines s c (s.cores[c].l1p.drop 1023)
  let ks := (List.range 128).map fun i => line * 128 + i
  let clks := (ks.map fun a => (a, visibleClk s1 (coreDie c) 0 a)).filter fun e => e.2 != {}
  onCore s1 c fun x =>
    let l : L1Line := ⟨line, x.epoch, s1.dies[coreDie c].applied, ks.map (viewByte s1 (coreDie c) 0), clks⟩
    { x with l1 := (l :: x.l1.filter fun l => l.line != line).take (1024 - x.l1p.length) }

/-- An acquire of a wave at gang scope or wider: epoch and floor (R243, R278). -/
def acquireStep (s : State) (w : Wave) : State × Wave :=
  let c := s.cores[w.ids.core]
  if c.epoch == 0xFFFF then
    (onCore (onWaves s fun x => if x.ids.core = w.ids.core then { x with acqEpoch := 0 } else x) w.ids.core
      fun x => { x with l1 := [], epoch := 1 },
      { w with acqEpoch := 0, floor := clkJoin w.floor w.clk })
  else
    (onCore s w.ids.core fun x => { x with epoch := c.epoch + 1 },
      { w with acqEpoch := c.epoch, floor := clkJoin w.floor w.clk })

/-- The writes of a wave's group that its die has not applied, those of its waves that have ended among them. -/
def groupPending (s : State) (w : Wave) : List (Fin 2 × Nat) :=
  let toks := (((s.wave :: s.waves).filter fun x => x.ids.gang == w.ids.gang && x.ids.group == w.ids.group).map fun x => x.ids.token) ++
    ((findGroup s w.ids.gang w.ids.group.val).map fun g => g.endedWaves).getD []
  (s.lag.filter fun r => toks.contains r.token && !recOn r (waveDie w)).map fun r => (r.home, r.stamp)

/-- An acquire at scope wave or group: it covers the writes that the waves of its group have performed (R278). -/
def groupAcquire (s : State) : State := onWave s fun w => { w with covers := groupPending s w }

/-- The acquire of the issuing wave. -/
def acquire (s : State) : State :=
  let r := acquireStep s s.wave
  { r.1 with wave := r.2 }

/-! ### Versions (R261, R287, R425) -/

/-- The gang's latest versioned value of a byte. -/
def gangVersion (s : State) (k : GangKey) (pa : Nat) : Option W8 :=
  (s.vbytes.find? fun v => v.gang == k && v.pa == pa).map fun v => v.val

/-- The byte that an agent of a gang reads past L1, its gang's versions first. -/
def gangByte (s : State) (k : Option GangKey) (d : Fin 2) (token : W32) (pa : Nat) : W8 :=
  match k.bind fun g => gangVersion s g pa with
  | some v => v
  | none => viewByte s d token pa

/-- An 8-byte word as a gang reads it at its home slice: the gang's version, else the latest value (R287). -/
def gangWord (s : State) (k : GangKey) (pa : Nat) : Nat :=
  leNat ((List.range 8).map fun i => (gangVersion s k (pa + i)).getD (memByte s (pa + i)))

/-- Whether a further line finds room in the version store, true, or the version area, false (R248, R425, R447). -/
def lineRoom (s : State) (p : Fin 24) (line : Nat) : Option Bool :=
  let d := homeOf (line * 128)
  let inL2 := (s.vlines.filter fun l => l.inL2 && homeOf (l.line * 128) == d).length
  let spilled := (s.vlines.filter fun l => !l.inL2 && l.task.part == p).length
  if inL2 < s.dies[d].vsmax.toNat * 8192 && 0 < freeWays s d line then some true
  else if (spilled + 1) * 192 ≤ (s.parts[p]).vsize.toNat && (s.parts[p]).vbase != 0 then some false
  else none

/-- A versioned write of one unit; none when the version area is full (R425). A line that the store takes displaces an ordinary one where its set is full (R248). -/
def versionUnit (s : State) (p : Fin 24) (k : GangKey) (tid : W64) (bytes : List (Nat × W8)) : Option State :=
  match bytes with
  | [] => some s
  | (a, _) :: _ =>
    let line := a / 128
    let me : TaskKey := ⟨p, tid⟩
    let new := bytes.reverse.map fun b => (⟨me, k, b.1, b.2, a⟩ : VByte)
    let old := fun (v : VByte) => v.task == me && v.gang == k && bytes.any fun b => b.1 == v.pa
    let put := fun (t : State) => { t with vbytes := new ++ t.vbytes.filter fun v => !old v }
    let place := fun (t : State) (b : Bool) => if b then trimSet t (homeOf a) line else t
    if s.vlines.any fun l => l.task == me && l.line == line then some (put s)
    else match lineRoom s p line with
      | none => none
      | some b => some (place (put { s with vlines := ⟨me, line, b⟩ :: s.vlines }) b)

/-! ### Lost data (R10, R435, R464) -/

/-- The stack of the package that holds a physical address: 4 times the die and PA[9:8] (R233, R422). -/
def stackOf (pa : Nat) : Fin 8 := Fin.ofNat 8 (4 * (homeOf pa).val + pa / 256 % 4)

/-- Whether any data of the package is lost. -/
def anyLost (s : State) : Bool := s.pkg.stacksOut != 0 || !s.lost.isEmpty

/-- The place of a byte's copy on the other die, in a lockstep partition (R460, log entry 37). -/
def copyAddr (pa : Nat) : Nat := if homeOf pa = 0 then pa + 2 ^ 38 else pa - 2 ^ 38

/-- Whether the memory of a partition has lost a byte: in a lockstep partition both copies (R10, R460). -/
def byteGone (s : State) (p : Fin 24) (pa : Nat) : Bool :=
  let gone := fun (a : Nat) => s.pkg.stacksOut.getLsbD (stackOf a).val || s.lost.contains a
  gone pa && (!(s.parts[p]).lockstep || gone (copyAddr pa))

/-- Whether a byte that an agent of a partition and a gang reads is lost; a version of the gang stands in its place. -/
def lostByte (s : State) (p : Fin 24) (k : Option GangKey) (pa : Nat) : Bool :=
  byteGone s p pa && (k.bind fun g => gangVersion s g pa).isNone

/-- Whether some byte of a read is lost. -/
def lostRead (s : State) (p : Fin 24) (k : Option GangKey) (pas : List Nat) : Bool := anyLost s && pas.any (lostByte s p k)

def bytesFrom (pa n : Nat) : List Nat := (List.range n).map fun i => pa + i

/-! ### Addresses (R229 to R231) -/

/-- Where an address leads. -/
inductive Win where
  | global (va : Nat)
  | l2direct (va : Nat)
  | own (off : Nat)
  | aperture (slot off : Nat)
  | remote (rank off : Nat)
  | ndomet
  | bad
  deriving DecidableEq, Repr

/-- The window of an address; a fabric-global address of the package's own rank is the local global address (R230). -/
def windowOf (s : State) (a : Nat) : Win :=
  if a / 2 ^ 62 = 2 then
    if a / 2 ^ 44 % 256 = 255 then .ndomet
    else if a / 2 ^ 52 % 1024 = s.pkg.rank.toNat then .global (a % 2 ^ 52)
    else .remote (a / 2 ^ 52 % 1024) (a % 2 ^ 52)
  else if a / 2 ^ 56 ≠ 0 then .bad
  else if a < 2 ^ 54 then .global a
  else if a < 2 ^ 55 then .l2direct (a - 2 ^ 54)
  else if a / 2 ^ 48 = 0xFE then .own (a % 2 ^ 48)
  else if a / 2 ^ 48 = 0xFF ∧ a % 2 ^ 48 < 2 ^ 22 then .aperture (a % 2 ^ 48 / 2 ^ 19) (a % 2 ^ 19)
  else .bad

/-- A local global address, by its form (R229). R230 makes an address of the package's own rank lead to the same memory; where a rule asks for a local global address as such, the model does not count that form as one (DESIGN CHOICE, log entry 43). -/
def isLocalGlobal (a : Nat) : Bool := decide (a < 2 ^ 54)

/-- A rank that the domain has (R444): below DSIZE, and present in the rank map where one is given. -/
def rankPresent (s : State) (r : Nat) : Bool :=
  decide (r < s.pkg.dsize.toNat) &&
    (s.pkg.rmapbase == 0 || (memByte s (s.pkg.rmapbase.toNat + r / 8)).getLsbD (r % 8))

/-- An aperture slot and offset of a gang: its group, when the allocation holds n bytes there (R240). -/
def apertureAt (s : State) (k : GangKey) (slot off n : Nat) : Option Group :=
  match findGroup s k slot with
  | some g => if off + n ≤ g.spadSize * 4096 then some g else none
  | none => none

/-- Whether a unit of a group's scratchpad overlaps a registered barrier (R320). -/
def overlapsBar (g : Group) (off n : Nat) : Bool := g.bars.any fun b => decide (b < off + n) && decide (off < b + 16)

/-- Whether a unit overlaps a record line that an engine owns (R355). -/
def overlapsOwned (s : State) (pa n : Nat) : Bool :=
  s.owned.any fun l => decide (l * 128 < pa + n) && decide (pa < l * 128 + 128)

def spadBytes (g : Group) (off n : Nat) : List W8 := (List.range n).map fun i => cellGet 0 g.spad (off + i)

/-- A write to a scratchpad, the writer's clock stored beside it (R276). -/
def spadWrite (s : State) (k : GangKey) (i : Fin 8) (off : Nat) (bytes : List W8) (v : Clk) : State :=
  onGroup s k i fun g =>
    { g with
      spad := cellsPut g.spad (keyed off bytes)
      spadJoin := stillLost g.spadJoin (keyed off bytes)
      spadClk := (keyed off bytes).foldl (fun l b => cellSet {} l b.1 v) g.spadClk }

def spadClkAt (g : Group) (off n : Nat) (v : Clk) : Clk :=
  (List.range n).foldl (fun a i => clkJoin a (cellGet {} g.spadClk (off + i))) v

/-! ### Page tables (R232 to R237) -/

/-- Bits below the page number at a level. -/
def pageBits (lv : Nat) : Nat := match lv with | 0 => 15 | 1 => 21 | 2 => 29 | _ => 42

/-- Index bits of a level's table. -/
def indexBits (lv : Nat) : Nat := match lv with | 0 => 6 | 1 => 8 | 2 => 13 | _ => 12

/-- How a walk ends (R234). -/
inductive Walk where
  | leaf (lv addr pte : Nat)
  | fail (c : Cause)
  | demand (lv addr : Nat)
  deriving DecidableEq, Repr

/-- What an entry at a level means: the end of the walk, or the next table (R234). -/
def readEntry (lv addr p : Nat) : Walk ⊕ Nat :=
  if p % 2 = 0 then .inl (if p / 16 % 2 = 1 ∧ lv < 3 then .demand lv addr else .fail 0x20)
  else if p / 128 % 32 ≠ 0 ∨ p / 2 ^ 39 ≠ 0 then .inl (.fail 0x23)
  else if p / 2 % 2 = 1 then
    .inl (if lv = 3 ∨ p % 2 ^ 39 / 4096 * 4096 % 2 ^ pageBits lv ≠ 0 then .fail 0x23 else .leaf lv addr p)
  else if lv = 0 then .inl (.fail 0x23)
  else .inr (p % 2 ^ 39 / 4096 * 4096)

/-- The address of an address's entry in a table. -/
def entryAddr (va lv base : Nat) : Nat := base + va / 2 ^ pageBits lv % 2 ^ indexBits lv * 8

/-- An entry as walkers read it, through the home die's L2 (R234). -/
def entryView (s : State) (addr : Nat) : Nat := leNat ((List.range 8).map fun i => viewByte s (homeOf addr) 0 (addr + i))

/-- Whether an entry that a walker reads is lost data (R10). -/
def entryLost (s : State) (p : Fin 24) (addr : Nat) : Bool := lostRead s p none (bytesFrom addr 8)

/-- The walk of an address through the levels left, from a table at `base`. A lost entry ends it with DATA_LOST. -/
def walkFrom (s : State) (p : Fin 24) (va : Nat) : List Nat → Nat → Walk
  | [], _ => .fail 0x23
  | lv :: rest, base =>
    let addr := entryAddr va lv base
    if entryLost s p addr then .fail 0x4D
    else match readEntry lv addr (entryView s addr) with
      | .inl w => w
      | .inr next => walkFrom s p va rest next

/-- The tables that a walk passes: level, address of the entry, and the next table. -/
def walkNodes (s : State) (p : Fin 24) (va : Nat) : List Nat → Nat → List (Nat × Nat × Nat)
  | [], _ => []
  | lv :: rest, base =>
    let addr := entryAddr va lv base
    if entryLost s p addr then []
    else match readEntry lv addr (entryView s addr) with
      | .inl _ => []
      | .inr next => (lv, addr, next) :: walkNodes s p va rest next

/-- The walk from a partition's root. -/
def walkPage (s : State) (p : Fin 24) (va : Nat) : Walk :=
  walkFrom s p va [3, 2, 1, 0] (s.parts[p].ptroot.toNat % 2 ^ 39)

/-- A pool ring is well formed; SIZE 0 makes its class empty (R481). -/
def ringOk (s : State) (pool c : Nat) : Bool :=
  let b := pool + 32 * c
  let ring := memNat s b 8
  let size := memNat s (b + 8) 4
  decide (ring % 64 = 0) && decide (ring < 2 ^ 39) && decide (size ≤ 2 ^ 24) &&
    (size == 0 || decide (2 ^ size.log2 = size))

/-- A pool descriptor without a reserved field set, whose rings are all well formed (R481). -/
def poolOk (s : State) (pool : Nat) : Bool :=
  memNat s (pool + 96) 32 == 0 &&
    [0, 1, 2].all fun c =>
      memNat s (pool + 32 * c + 12) 4 == 0 && memNat s (pool + 32 * c + 24) 8 == 0 && ringOk s pool c

/-- The entry at the head of a class's ring. -/
def poolHead (s : State) (pool c : Nat) : Nat :=
  let b := pool + 32 * c
  memNat s b 8 + memNat s (b + 16) 4 % memNat s (b + 8) 4 * 8

/-- Whether the firmware's next taking from a class needs lost data: the descriptor, or the entry at the head (R10). -/
def poolLost (s : State) (p : Fin 24) (pool c : Nat) : Bool :=
  lostRead s p none (bytesFrom pool 128 ++ if memNat s (pool + 32 * c + 8) 4 = 0 then [] else bytesFrom (poolHead s pool c) 8)

/-- The next usable page of a class, entries that are not usable being reported (R481): at most `n` takings. -/
def poolTake (p : Fin 24) (pool c : Nat) : Nat → State → Option Nat × State
  | 0, s => (none, s)
  | n + 1, s =>
    let b := pool + 32 * c
    let size := memNat s (b + 8) 4
    let head := memNat s (b + 16) 4
    if head = memNat s (b + 20) 4 ∨ size = 0 ∨ poolLost s p pool c then (none, s)
    else
      let e := memNat s (poolHead s pool c) 8
      let s1 := pokeNat s (b + 16) 4 (head + 1)
      if e < 2 ^ 39 ∧ e % 2 ^ pageBits c = 0 then (some e, s1)
      else poolTake p pool c n (report s1 (some p) 2 0 (e % 2 ^ 39))

/-- Bytes of a physical range dropped from a list: they read 0. -/
def dropRange (l : List Host.Cell) (lo n : Nat) : List Host.Cell :=
  l.filter fun c => decide (c.1 < lo) || decide (lo + n ≤ c.1)

/-- The entries that a pool's class holds, at most what a ring can hold (R481). -/
def poolCount (s : State) (pool c : Nat) : Nat :=
  min ((memNat s (pool + 32 * c + 20) 4 + 2 ^ 32 - memNat s (pool + 32 * c + 16) 4) % 2 ^ 32) (2 ^ 24)

/-- A physical range is zeroed: this is the initial value of its bytes, and nothing older is shown on any die or held in any L1 (R237, R272). -/
def zeroRange (s : State) (lo n : Nat) : State :=
  let out := fun (a : Nat) => decide (a < lo) || decide (lo + n ≤ a)
  { s with
    hbm := dropRange s.hbm lo n
    clks := s.clks.filter fun e => out e.1
    joins := s.joins.filter out
    lost := s.lost.filter out
    lag := s.lag.map fun r => { r with bytes := r.bytes.filter fun b => out b.1 }
    cores := s.cores.map fun c => { c with l1 := c.l1.filter fun l => out (l.line * 128) } }

/-- A page from the pool reads 0 and is mapped, writable and not executable, by the entry at `addr` (R237). -/
def mapZero (s : State) (lv addr pg : Nat) : State := pokeNat (zeroRange s pg (2 ^ pageBits lv)) addr 8 (7 + pg)

/-- Demand-zero resolution in hardware mode (R237): false when the pool is empty, or cannot be read for lost data. -/
def demandZero (s : State) (p : Fin 24) (lv addr : Nat) : Bool × State :=
  let pool := s.parts[p].dzpool.toNat
  if pool = 0 ∨ poolLost s p pool lv ∨ !poolOk s pool then (false, s)
  else
    match poolTake p pool lv (poolCount s pool lv) s with
    | (none, s1) => (false, s1)
    | (some pg, s1) => (true, mapZero s1 lv addr pg)

/-- The cause of a demand-zero resolution that found no page (R10, R237). -/
def zeroCause (s : State) (p : Fin 24) (lv : Nat) : Cause :=
  let pool := s.parts[p].dzpool.toNat
  if pool ≠ 0 ∧ poolLost s p pool lv then 0x4D else 0x20

/-! ### TLBs (R235) -/

def tlbHit (l : List TlbEntry) (p : Fin 24) (va : Nat) : Option TlbEntry :=
  l.find? fun e => e.leaf && e.part == p && e.page == va / 2 ^ pageBits e.level

/-- The non-leaf entry of an L2 TLB that brings a walk furthest. -/
def nodeHit (l : List TlbEntry) (p : Fin 24) (va : Nat) : Option TlbEntry :=
  ([1, 2, 3] : List Nat).findSome? fun lv =>
    l.find? fun e => !e.leaf && e.level == lv && e.part == p && e.page == va / 2 ^ pageBits lv

/-- Where a walk on a die begins: at the table that a non-leaf entry of its L2 TLB gives, or at the root (R232, R235). -/
def walkStart (s : State) (d : Fin 2) (p : Fin 24) (va : Nat) : List Nat × Nat :=
  match nodeHit s.dies[d].tlb p va with
  | some e => ((List.range e.level).reverse, e.base)
  | none => ([3, 2, 1, 0], s.parts[p].ptroot.toNat % 2 ^ 39)

/-- A walk on a die (R234, R235). -/
def walkOn (s : State) (d : Fin 2) (p : Fin 24) (va : Nat) : Walk :=
  walkFrom s p va (walkStart s d p va).1 (walkStart s d p va).2

def entryOf (p : Fin 24) (va lv addr pte : Nat) : TlbEntry :=
  ⟨p, true, lv, va / 2 ^ pageBits lv, pte % 2 ^ 39 / 4096 * 4096, decide (pte / 4 % 2 = 1), decide (pte / 8 % 2 = 1),
    decide (pte / 64 % 2 = 1), addr⟩

/-- An entry placed before the others of a TLB of n entries; the oldest leaves (log entry 9). -/
def tlbPut (e : TlbEntry) (l : List TlbEntry) (n : Nat) : List TlbEntry :=
  (e :: l.filter fun x => !(x.leaf == e.leaf && x.part == e.part && x.level == e.level && x.page == e.page)).take n

/-- The non-leaf entries of a walk enter the die's L2 TLB, and its lines that die's L2 (R234, R235, R244). -/
def nodeFill (s : State) (d : Fin 2) (p : Fin 24) (va : Nat) : State :=
  (walkNodes s p va (walkStart s d p va).1 (walkStart s d p va).2).foldl (fun t x =>
    let e : TlbEntry := ⟨p, false, x.1, va / 2 ^ pageBits x.1, x.2.2, false, false, false, x.2.1⟩
    touchL2 (onDie t d fun y => { y with tlb := tlbPut e y.tlb 32768 }) (homeOf x.2.1) (x.2.1 / 128) none) s

/-- A leaf translation enters both TLBs (R235). -/
def tlbFill (s : State) (c : Fin 192) (e : TlbEntry) : State :=
  let keep := tlbPut e
  onDie (onCore s c fun x => { x with tlb := keep x.tlb 384 }) (coreDie c) fun x => { x with tlb := keep x.tlb 32768 }

/-- How a translation ends. -/
inductive Tr where
  | ok (pa : Nat)
  | fail (c : Cause)
  /-- The page waits for the host (R237, R41). -/
  | held
  deriving DecidableEq, Repr

/-- Use of a leaf: permissions, and D before the first write (R234). -/
def useEntry (s : State) (c : Fin 192) (e : TlbEntry) (va : Nat) (acc : Access) : Tr × State :=
  let pa := e.base + va % 2 ^ pageBits e.level
  match acc with
  | .read => (.ok pa, s)
  | .fetch => (if e.x then .ok pa else .fail 0x22, s)
  | .write =>
    if !e.w then (.fail 0x21, s)
    else if e.d then (.ok pa, s)
    else
      (.ok pa, tlbFill (pokeNat s e.pte 8 (memNat s e.pte 8 ||| 64)) c { e with d := true })

/-- A walk that ends at a leaf sets A in the entry as it stands at its home, and fills the TLBs (R234, R235). -/
def leafFill (s : State) (c : Fin 192) (p : Fin 24) (va lv addr pte : Nat) : TlbEntry × State :=
  let s0 := nodeFill s (coreDie c) p va
  let s1 := touchL2 (if pte / 32 % 2 = 1 then s0 else pokeNat s0 addr 8 (memNat s0 addr 8 ||| 32)) (homeOf addr) (addr / 128) none
  let e := entryOf p va lv addr pte
  (e, tlbFill s1 c e)

/-- The leaf that stands at the home of an entry which a walk still sees as demand-zero: the firmware has mapped it, its write not yet applied (R237). -/
def mappedLeaf (s : State) (lv addr : Nat) : Option Nat :=
  match readEntry lv addr (memNat s addr 8) with
  | .inl (.leaf _ _ pte) => some pte
  | _ => none

/-- The use of an entry that the firmware has mapped. -/
def useMapped (s : State) (c : Fin 192) (p : Fin 24) (va lv addr : Nat) (acc : Access) : Tr × State :=
  match mappedLeaf s lv addr with
  | some pte => let r := leafFill s c p va lv addr pte; useEntry r.2 c r.1 va acc
  | none => (.fail 0x20, s)

/-- Translation of a global address for an agent of partition p at core c (R234 to R237). -/
def translate (s : State) (c : Fin 192) (p : Fin 24) (va : Nat) (acc : Access) : Tr × State :=
  match tlbHit s.cores[c].tlb p va with
  | some e => useEntry s c e va acc
  | none =>
    match tlbHit s.dies[coreDie c].tlb p va with
    | some e => useEntry (tlbFill s c e) c e va acc
    | none =>
      match walkOn s (coreDie c) p va with
      | .fail x => (.fail x, s)
      | .leaf lv addr pte => let r := leafFill s c p va lv addr pte; useEntry r.2 c r.1 va acc
      | .demand lv addr =>
        if (mappedLeaf s lv addr).isSome then useMapped s c p va lv addr acc
        else if s.parts[p].pfmode.getLsbD 0 then (.held, s)
        else
          match demandZero s p lv addr with
          | (false, s1) => (.fail (zeroCause s1 p lv), s1)
          | (true, s1) => useMapped s1 c p va lv addr acc

/-! ### Performance counters (R324, R325) -/

/-- `n` occurrences of an event on a core, caused by a gang or by none. -/
def countEvent (s : State) (c : Fin 192) (k : Option GangKey) (ev : Nat) (n : Nat) : State :=
  let meas : Option GangKey := ((s.groups.find? fun g => g.core == c &&
    ((findGang s g.gang).any fun x => x.meas && x.evictedAt.isNone)).map fun g => g.gang)
  if meas.isNone then s
  else
    let step := fun (p : Pm) =>
      if p.event.toNat = ev ∧ ev ≠ 0 ∧ (!p.own ∨ k = meas) then
        { p with value := BitVec.ofNat 64 (min (p.value.toNat + n) (2 ^ 64 - 1)) } else p
    onCore s c fun x => { x with pm := x.pm.map step }

/-- A versioned task that runs on a core for a gang has read or written an L2 line (R337). -/
def noteLine (s : State) (c : Fin 192) (k : Option GangKey) (x : Fin 2 × Nat) : State :=
  let runs := fun (t : Task) => t.versioned && some t.gang == k &&
    t.group.all fun i => (findGroup s t.gang i.val).any fun g => g.core == c && g.task == some t.tid
  { s with tasks := s.tasks.map fun t => if runs t && !t.lines.contains x then { t with lines := x :: t.lines } else t }

/-- An access of a core reaches a line in a die's L2: events 7 and 8, and the line is touched (R244, R246, R325). The manual does not say on which die an access counts; the model takes the die whose L2 serves it (log entry 10). -/
def useL2 (s : State) (c : Fin 192) (k : Option GangKey) (d : Fin 2) (line : Nat) (cls : Option (Fin 3)) : State :=
  touchL2 (noteLine (countEvent s c k (if s.dies[d].l2.any fun y => y.line == line then 7 else 8) 1) c k (d, line)) d line cls

/-- Lines that an operation reaches in a die's L2, each once. -/
def useLines (s : State) (c : Fin 192) (k : Option GangKey) (d : Fin 2) (lines : List Nat) : State :=
  lines.eraseDups.foldl (fun t x => useL2 t c k d x none) s

/-- A translation for a gang, or for none, through a core's TLBs, with its events 9 and 10 (R325). -/
def coreTranslate (s : State) (c : Fin 192) (k : Option GangKey) (p : Fin 24) (va : Nat) (acc : Access) : Tr × State :=
  let miss := (tlbHit s.cores[c].tlb p va).isNone
  let walk := miss && (tlbHit s.dies[coreDie c].tlb p va).isNone
  let s1 := if miss then countEvent s c k 9 1 else s
  translate (if walk then countEvent s1 c k 10 1 else s1) c p va acc

/-- The atomic step of a wave at a word reaches the line in the L2 of its home die (R244, R325, R337). -/
def writerLine (s : State) (o : Writer) (pa : Nat) : State :=
  match o.core, findWave s o.token with
  | some c, some w => useL2 s c (some w.ids.gang) (homeOf pa) (pa / 128) none
  | _, _ => s

/-! ### Requests to other packages (R443, R444) -/

/-- Requests leave for their ranks, each under a tag of its own. -/
def sendRequests (s : State) (l : List (Nat × RemoteReq)) : State :=
  { s with
    fabricOut := s.fabricOut ++ l.mapIdx fun i x => .request x.1 (s.nextTag + i) x.2
    nextTag := s.nextTag + l.length }

/-- A translation for the issuing wave: once the host has released it, a page that still awaits the host is not mapped (R41, R43). -/
def onRelease (s : State) (r : Tr × State) : Tr × State :=
  match r with
  | (.held, t) => (if isReleased s then .fail 0x20 else .held, t)
  | r => r

end Sys2Proof.Machine
end

