-- ==== Sys2Proof/Machine/Wft.lean ====
section
/-!
DEFINITION. The wait-for table (R387 to R399): holders, registration, cycle search, effective priority, and the hand-over of locks and semaphore units (R405 to R407).
-/

namespace Sys2Proof.Machine

/-- The token of an engine agent (R387): type 0 channel, 1 direct queue, 2 matrix engine, 3 router, 4 collective engine. -/
def engToken (d : Fin 2) (type i : Nat) : W32 := BitVec.ofNat 32 (2 ^ 31 + d.val * 2 ^ 30 + type * 2 ^ 24 + i)

/-- The tokens of a group's waves. -/
def groupTokens (s : State) (k : GangKey) (i : Fin 8) : List W32 :=
  ((liveWaves s).filter fun w => w.ids.gang == k && w.ids.group == i).map fun w => w.ids.token

/-- The object of a word that an agent of a partition and a gang names: a scratchpad word by its owner, any other word by its address, which for the package's own rank is the local one (R389). R389 names no partition in the key; this one holds it, since one virtual address of two partitions names two words (DEDUCED, log entry 16). -/
def keyAt (s : State) (p : Fin 24) (k : Option GangKey) (a : Nat) : ObjKey :=
  match windowOf s a with
  | .aperture slot off =>
    match k.bind fun x => findGroup s x slot with
    | some g => .spad g.gang g.index off
    | none => .word p a
  | .global va => .word p va
  | _ => .word p a

/-- The objects at a completion address, with a multicast's mask (R305, R347). -/
def keysAt (s : State) (who : Issuer) (mask : Option W8) (a : W64) : List ObjKey :=
  match who.gang, windowOf s a.toNat, mask with
  | some k, .aperture _ off, some m =>
    (List.finRange 8).filterMap fun i =>
      if m.getLsbD i.val then (findGroup s k i.val).map fun g => .spad k g.index off else none
  | k, _, _ => [keyAt s who.part k a.toNat]

/-- The objects that a copy will arrive on or add to; address 0 names none (R345). -/
def completionKeys (s : State) (who : Issuer) (mask : Option W8) (a : W64) : List ObjKey :=
  if a = 0 then [] else keysAt s who mask a

def copyMask (x : CopyKind) : Option W8 :=
  match x with
  | .multi m => some m
  | _ => none

/-- A field of a record's bytes. -/
def recField (snap : List W8) (hi lo : Nat) : Nat := bitsOf (leNat snap) hi lo

/-- The objects of a channel's record in service (R355, R359). -/
def recordKeys (s : State) (who : Issuer) (snap : List W8) : List ObjKey :=
  let kind := recField snap 3 2
  let mask : Option W8 := if kind = 1 then some (BitVec.ofNat 8 (recField snap 15 8)) else none
  let own := completionKeys s who mask (BitVec.ofNat 64 (recField snap 319 256))
  if kind = 3 then
    let n := recField snap 359 352
    let drain := recField snap 360 360 = 1
    let ring := if drain then recField snap 127 64 else recField snap 191 128
    let base := ring / 2 ^ 19 * 2 ^ 19 + 16 * recField snap 378 364 + if drain then 16 * n else 0
    own ++ (List.range n).flatMap fun i => completionKeys s who none (BitVec.ofNat 64 (base + 16 * i))
  else own

/-- The completion addresses of a matrix command: those of its steps not yet done (R306). -/
def cmdCompls (s : State) (x : MxCmd) : List W64 :=
  match x with
  | .steps _ _ _ _ (some c) _ cnt nst done =>
    match windowOf s c.toNat with
    | .aperture _ _ =>
      (List.range (min cnt nst)).filterMap fun i =>
        if (List.range (cnt - done)).any fun j => (done + j) % nst = i then some (c + BitVec.ofNat 64 (16 * i)) else none
    | _ => [c]
  | .mon _ _ _ (some c) => [c]
  | .signal c _ _ => [c]
  | _ => []

/-- A holder link of an engine: the die of the table, the object, the agent, and the partition of the operation. -/
structure EngLink where
  die : Fin 2
  key : ObjKey
  agent : W32
  part : Fin 24
  deriving DecidableEq, Repr

/-- The table of an operation: that of the engine's die, for a lockstep partition that of die 0 (R390). -/
def opDie (s : State) (p : Fin 24) (d : Fin 2) : Fin 2 := if (s.parts[p]).lockstep then 0 else d

/-- The links of an operation on a die. -/
def opLinks (s : State) (d : Fin 2) (agent : W32) (who : Issuer) (keys : List ObjKey) : List EngLink :=
  keys.map fun k => ⟨opDie s who.part d, k, agent, who.part⟩

/-- The holder links of the engines' accepted operations (R388, R392). -/
def engineLinks (s : State) : List EngLink :=
  let dieLinks := fun (d : Fin 2) =>
    (s.dies[d].copyRun.flatMap fun c =>
      opLinks s d (engToken d 1 (c.who.core.val % 96 / 8)) c.who (completionKeys s c.who (copyMask c.kind) c.compl)) ++
    ((List.finRange 96).flatMap fun ch =>
      match s.dies[d].chans[ch].inService with
      | some r => (r.op.map fun o => opLinks s d (engToken d 0 ch.val) o.who (recordKeys s o.who r.snap)).getD []
      | none => [])
  let matrix := (List.finRange 192).flatMap fun c =>
    s.cores[c].mxQueue.flatMap fun e => (cmdCompls s e.cmd).flatMap fun a =>
      opLinks s (coreDie c) (engToken (coreDie c) 2 (coreNum c)) e.who (keysAt s e.who none a)
  let colls := s.colls.flatMap fun x => x.parts.flatMap fun p =>
    match p.who with
    | none => []
    | some who =>
      if p.compl = 0 then []
      else opLinks s (coreDie who.core) (engToken (coreDie who.core) 4 0) who [keyAt s who.part who.gang p.compl.toNat]
  dieLinks 0 ++ dieLinks 1 ++ matrix ++ colls

/-- The engine agents that will arrive on, or add to, an object (R388). -/
def engineHolders (s : State) (key : ObjKey) : List W32 :=
  ((engineLinks s).filter fun l => l.key == key).map fun l => l.agent

/-- The waves of a task that have not ended. -/
def taskWaves (s : State) (t : TaskKey) : List Wave := (liveWaves s).filter fun w => w.ids.tid == t.tid && w.ids.part == t.part

/-- The tokens under which tasks that have ended stand in the table until they are done with (log entry 32). -/
def endedTokens (s : State) (f : Task → Bool) : List W32 :=
  (s.tasks.filter fun t => t.ended && f t).flatMap fun t => t.waves.take 1

/-- The holders of an object (R388, R479), by token. A task that has ended still holds its place in a queue until it is done with, and its commit until it has committed. -/
def holdersOf (s : State) (key : ObjKey) : List W32 :=
  let linked := (s.links.filter fun l => l.key == key && l.lkind != 3).map fun l => l.agent
  let groupsOf := fun (f : Group → Bool) => (s.groups.filter f).flatMap fun g => groupTokens s g.gang g.index
  let more : List W32 :=
    match key with
    | .word _ _ | .spad _ _ _ => engineHolders s key
    | .roomLaunch p q =>
      let on := fun (k : GangKey) => (findLaunch s k.launch).any fun l => l.part == p && l.queue == q
      (((liveWaves s).filter fun w => on w.ids.gang).map fun w => w.ids.token) ++ endedTokens s fun t => on t.gang
    | .roomTask p q =>
      (groupsOf fun g => (g.task.bind fun t => findTask s t p).any fun t => t.group.isSome && t.queue == q) ++
        endedTokens s fun t => t.part == p && t.group.isSome && t.queue == q
    | .roomPos l pos => groupsOf fun g => g.gang.launch == l && g.held.any fun h => h.pos == pos
    | .recPipe l => groupsOf fun g => g.gang.launch == l && (g.held.isSome || !g.taken)
    | .recTask _ _ => []
    | .pending d =>
      (s.links.filter fun l => l.lkind == 0 && (match l.key with
        | .word p va =>
          (match walkPage s p va with
            | .leaf lv _ pte => s.dies[d].pending.any fun e =>
                e.1 == pte % 2 ^ 39 / 4096 * 4096 + va % 2 ^ pageBits lv
            | _ => false)
        | _ => false)).map fun l => l.agent
    | .coll _ _ _ => []
    | .commit t => ((taskWaves s t).map fun w => w.ids.token) ++ endedTokens s fun x => x.part == t.part && x.tid == t.tid && !x.committed
  linked ++ more

/-- The wait of a wave that stands in the table: one that has ended does not (R393). -/
def openWait (w : Wave) : Option WaitLink := w.wait.filter fun l => !l.granted

/-- The agent under which a token's wait stands: the waves of a task that has ended share its commit's (log entry 32). -/
def waitAgent (s : State) (t : W32) : W32 :=
  match s.tasks.find? fun x => x.ended && x.waves.contains t with
  | some x => (x.waves.head?).getD t
  | none => t

/-- The registered wait of an agent. -/
def waitOf (s : State) (t : W32) : Option WaitLink :=
  match findWave s t with
  | some w => openWait w
  | none => (s.engWaits.find? fun e => e.agent == waitAgent s t).map fun e => e.link

/-- Every agent with its registered wait. -/
def waiters (s : State) : List (W32 × WaitLink) :=
  ((liveWaves s).filterMap fun w => (openWait w).map fun l => (w.ids.token, l)) ++
    s.engWaits.map fun e => (e.agent, e.link)

/-! ### Effective priority (R394) -/

def prioAt (tab : List (W32 × Nat)) (t : W32) : Nat := ((tab.find? fun e => e.1 == t).map fun e => e.2).getD 0

/-- One step of propagation: each agent gets the priority of those that wait on what it holds. -/
def prioRound (base : List (W32 × Nat)) (edges : List (W32 × W32)) (tab : List (W32 × Nat)) : List (W32 × Nat) :=
  base.map fun e => (e.1, (edges.filter fun x => x.2 == e.1).foldl (fun m x => max m (prioAt tab x.1)) e.2)

/-- EPRIO of every wave after at most 32 holder steps. -/
def settlePrio (s : State) : State :=
  let ws := waiters s
  if ws.isEmpty && s.objs.isEmpty then onWaves s fun w => { w with eprio := w.regs.prio }
  else
    let edges := ws.flatMap fun e => (holdersOf s e.2.key).map fun h => (e.1, h)
    let ceil := fun (t : W32) => s.objs.foldl (fun m o =>
      if o.ceil != 0 && (holdersOf s o.key).contains t then max m o.ceil.val else m) 0
    let base := ((liveWaves s).map fun w => (w.ids.token, max w.regs.prio.val (ceil w.ids.token))) ++
      ((engineLinks s).map (fun l => l.agent) ++ s.engWaits.map fun e => e.agent).eraseDups.map fun t => (t, 0)
    let tab := (List.range 32).foldl (fun t _ => prioRound base edges t) base
    let at16 := fun (t : W32) => Fin.ofNat 16 (min 15 (prioAt tab t))
    onWaves { s with engWaits := s.engWaits.map fun e => { e with eprio := at16 e.agent } } fun w =>
      if w.run == .ended then w else { w with eprio := at16 w.ids.token }

/-- The effective priority of an agent (R394). -/
def prioOf (s : State) (t : W32) : Nat :=
  match findWave s t with
  | some w => w.eprio.val
  | none => ((s.engWaits.find? fun e => e.agent == t).map fun e => e.eprio.val).getD 0

/-! ### Objects and links (R388, R389, R399) -/

/-- A phase barrier that is registered (R320). -/
def isBarrier (s : State) (key : ObjKey) : Bool :=
  match key with
  | .spad k i off => (findGroup s k i.val).any fun g => g.bars.contains off
  | _ => false

/-- Whether a wave is in its handler with records that name an object (R397, log entry 21). -/
def namedNow (s : State) (o : ObjEntry) : Bool := (o.named.bind (findWave s)).any fun w => w.handler

/-- Objects without waiter, holder or ceiling are freed, but for registered barriers and those that a wave's DEADLOCK records name (R320, R388). -/
def sweepObjs (s : State) : State :=
  let ws := waiters s
  { s with objs := s.objs.filter fun o =>
      o.ceil != 0 || namedNow s o || (ws.any fun e => e.2.key == o.key) || (s.links.any fun l => l.key == o.key) || isBarrier s o.key ||
        !(holdersOf s o.key).isEmpty }

/-- Where a new entry or link finds room (R399). -/
inductive Room where
  | onDie | ext | host | full
  deriving DecidableEq, Repr

/-- The links of the engines' operations that a die's table holds. -/
def engineUse (s : State) (d : Fin 2) : Nat := ((engineLinks s).filter fun l => l.die == d).length

/-- Holder links of a die that are not in the extension; those of engine operations count (R388, R392). -/
def linksUsed (s : State) (d : Fin 2) : Nat :=
  (s.links.filter fun l => l.die == d && !l.ext).length + engineUse s d

/-- The links in a die's extension: those placed there, and those of engine operations beyond the table. -/
def extLinks (s : State) (d : Fin 2) : Nat :=
  (s.links.filter fun l => l.die == d && l.ext).length + (linksUsed s d - 16384)

/-- Records of a die's extension in use: one for each object, one for four links. -/
def extUsed (s : State) (d : Fin 2) : Nat :=
  (s.objs.filter fun o => o.die == d && o.ext).length + (extLinks s d + 3) / 4

/-- Where an object entry, or a link where `link` says so, finds room: a link may take a free quarter of a record. `hw` says that the agent has been released by the host (R43). -/
def tableRoom (s : State) (d : Fin 2) (p : Fin 24) (hw link : Bool) (used cap : Nat) : Room :=
  if used < cap then .onDie
  else if s.dies[d].wftxbase == 0 || (decide (1048576 ≤ extUsed s d) && !(link && extLinks s d % 4 != 0)) then .full
  else if (s.parts[p]).pfmode.getLsbD 1 && !hw then .host
  else .ext

/-- Object entries of a die that are not in the extension. -/
def objsUsed (s : State) (d : Fin 2) : Nat := (s.objs.filter fun o => o.die == d && !o.ext).length

/-- Where the objects and the links of an operation find room, all of them (R399). -/
def roomFor (s : State) (d : Fin 2) (p : Fin 24) (hw : Bool) (keys : List ObjKey) : Room :=
  let objs := objsUsed s d + (keys.eraseDups.filter fun k => !s.objs.any fun o => o.key == k).length
  let links := linksUsed s d + keys.length
  let ext := (s.objs.filter fun o => o.die == d && o.ext).length + (objs - 8192) +
    ((s.links.filter fun l => l.die == d && l.ext).length + (links - 16384) + 3) / 4
  if objs ≤ 8192 && links ≤ 16384 then .onDie
  else if s.dies[d].wftxbase == 0 || decide (1048576 < ext) then .full
  else if (s.parts[p]).pfmode.getLsbD 1 && !hw then .host
  else .ext

/-- The lowest index not in use on a die's table or its extension. -/
def freeIndex (s : State) (d : Fin 2) (ext : Bool) : Nat :=
  let used := (s.objs.filter fun o => o.die == d && o.ext == ext).map fun o => o.index
  ((List.range (used.length + 1)).find? fun i => !used.contains i).getD used.length

/-- The state with an object for the key, if there is room. -/
def ensureObjBy (s : State) (hw : Bool) (d : Fin 2) (p : Fin 24) (key : ObjKey) (kind : Nat) : Room × State :=
  if s.objs.any fun o => o.key == key then (.onDie, s)
  else
    let r := tableRoom s d p hw false (objsUsed s d) 8192
    match r with
    | .onDie | .ext =>
      let x := r == .ext
      (r, { s with objs := s.objs ++ [⟨d, freeIndex s d x, x, key, kind, 0, p, none⟩] })
    | _ => (r, s)

/-- The same for the issuing wave. -/
def ensureObj (s : State) (d : Fin 2) (p : Fin 24) (key : ObjKey) (kind : Nat) : Room × State :=
  ensureObjBy s (isReleased s) d p key kind

/-- The kind of an object that an engine's operation first names (R388). -/
def engineKind (key : ObjKey) : Nat :=
  match key with
  | .spad _ _ _ => 1
  | _ => 2

/-- The objects of accepted engine operations have their entries (R388, R392): to be called where an operation is accepted, and where one ends. -/
def settleObjs (s : State) : State :=
  sweepObjs ((engineLinks s).foldl (fun t l => (ensureObjBy t true l.die l.part l.key (engineKind l.key)).2) s)

/-- A holder link added, its object made when absent. -/
def putLink (s : State) (d : Fin 2) (p : Fin 24) (kind : Nat) (l : HolderLink) : Room × State :=
  let same := fun (x : HolderLink) => x.key == l.key && x.lkind == l.lkind && x.agent == l.agent && x.observer == l.observer
  if s.links.any same then
    (.onDie, { s with links := s.links.map fun x => if same x then { x with units := x.units + l.units } else x })
  else
    match ensureObj s d p l.key kind with
    | (.onDie, s1) | (.ext, s1) =>
      let r := tableRoom s1 d p (isReleased s) true (linksUsed s1 d) 16384
      match r with
      | .onDie | .ext => (r, { s1 with links := s1.links ++ [{ l with die := d, ext := r == .ext }] })
      | _ => (r, s)
    | (r, _) => (r, s)

def addLink (s : State) (d : Fin 2) (p : Fin 24) (key : ObjKey) (kind lkind : Nat) (agent : W32) (units : Nat) :
    Room × State :=
  putLink s d p kind ⟨d, false, key, lkind, agent, units, none⟩

/-- A producer and an observer of its escaping writes (R426). -/
structure Observed where
  producer : TaskKey
  observer : TaskKey
  deriving DecidableEq, Repr

/-- The observed-by edges: the links of LKIND 3 on the commits of their producers (R391). -/
def observedOf (s : State) : List Observed :=
  s.links.filterMap fun l =>
    match l.key, l.observer with
    | .commit t, some o => if l.lkind = 3 then some ⟨t, o⟩ else none
    | _, _ => none

/-- An observed-by link is added. -/
def addObserved (s : State) (d : Fin 2) (o : Observed) : Room × State :=
  putLink s d o.observer.part 7 ⟨d, false, .commit o.producer, 3, BitVec.ofNat 32 o.observer.tid.toNat, 0, some o.observer⟩

/-- The observed-by links of tasks, as producers or observers, are removed. -/
def dropObserved (s : State) (l : List TaskKey) : State :=
  { s with links := s.links.filter fun x =>
      !(x.lkind == 3 && ((x.observer.any fun o => l.contains o) || match x.key with | .commit t => l.contains t | _ => false)) }

def dropLink (s : State) (key : ObjKey) (lkind : Nat) (agent : W32) : State :=
  sweepObjs { s with links := s.links.filter fun l => !(l.key == key && l.lkind == lkind && l.agent == agent) }

/-! ### Cycle search (R395 to R397) -/

/-- What a search finds: the members in order, each with the object it waits on. -/
inductive Search where
  | cycle (members : List (W32 × ObjKey))
  | none
  | long
  deriving DecidableEq, Repr

/-- A word of another package: the search stops there (R395). -/
def isRemoteKey (key : ObjKey) : Bool :=
  match key with
  | .word _ va => va / 2 ^ 62 == 2
  | _ => false

/-- The search: `todo` holds agents to follow with the path that leads to them; at most 64 edges; `far` says that it met a word of another package. -/
def searchGo (s : State) (target : W32) : Nat → Nat → Bool → List W32 → List (W32 × List (W32 × ObjKey)) → Search
  | 0, _, _, _, _ => .long
  | _, _, far, _, [] => if far then .long else .none
  | n + 1, edges, far, seen, (a, path) :: todo =>
    match (if seen.contains a then none else waitOf s a) with
    | none => searchGo s target n edges far seen todo
    | some l =>
      let path1 := path ++ [(a, l.key)]
      if isRemoteKey l.key then (if edges + 1 > 64 then .long else searchGo s target n (edges + 1) true (a :: seen) todo)
      else
        let hs := holdersOf s l.key
        if hs.contains target then (if edges + 1 + (hs.takeWhile (· != target)).length + 1 > 64 then .long else .cycle path1)
        else
          let edges1 := edges + 1 + hs.length
          if edges1 > 64 then .long
          else searchGo s target n edges1 far (a :: seen) (hs.map (fun h => (h, path1)) ++ todo)

def cycleSearch (s : State) (a : W32) : Search := searchGo s a 200 0 false [] [(a, [])]

/-- A member record of R397. -/
def memberRecord (s : State) (agent : W32) (key : ObjKey) (sub : Nat) : W64 :=
  let o := s.objs.find? fun o => o.key == key
  let i := (o.map fun o => o.index).getD 0
  let x := (o.map fun o => if o.ext then 1 else 0).getD 0
  let d := (o.map fun o => o.die.val).getD 0
  BitVec.ofNat 64 (agent.toNat + 2 ^ 32 * (i % 2 ^ 21) + 2 ^ 53 * x + 2 ^ 54 * d + 2 ^ 56 * sub)

/-- The member list in cycle order, at most 32 listed (R397). -/
def memberList (s : State) (l : List (W32 × ObjKey)) : List W64 :=
  (l.take 32).mapIdx fun i m => memberRecord s m.1 m.2
    (if i + 1 = l.length then 1 else if i = 31 then 2 else 0)

/-- Every wave among the members is held for the host (R396); one that has loads in flight keeps its registers until they return (R268), and one that is away stays away. -/
def holdMembers (s : State) (l : List (W32 × ObjKey)) : State :=
  onWaves s fun w => if w.run != .evicted && l.any fun m => m.1 == w.ids.token then { w with run := .held } else w

/-! ### Registration (R393, R396, R399) -/

/-- How a registration of the issuing wave ends. -/
inductive Reg where
  | ok (s : State)
  /-- The state has the object's entry, without the wait (R396). -/
  | deadlock (s : State) (records : List W64)
  | full
  /-- No entry is free, and the wave is held for the host. -/
  | host (s : State)
  /-- The wait is registered, and the wave is held as a member of a cycle. -/
  | member (s : State)

/-- The die whose table a wave uses. -/
def tableDie (s : State) : Fin 2 := opDie s s.wave.ids.part (waveDie s.wave)

/-- The issuing wave is held for the host with a cause (R41). -/
def holdWave (s : State) (c : Cause) : State :=
  let s1 := onWave s fun w => { w with run := .held }
  tellHost (onPart s1 s.wave.ids.part fun p => { p with parked := ⟨s.wave.ids.tid, c, [s.wave.ids.token]⟩ :: p.parked })
    (.parked s.wave.ids.part s.wave.ids.tid c)

/-- Registration of a wait of the issuing wave on an object. -/
def registerWait (s : State) (key : ObjKey) (kind : Nat) (what : WaitFor) (explicit remote : Bool) : Reg :=
  match ensureObj s (tableDie s) s.wave.ids.part key kind with
  | (.full, _) => .full
  | (.host, _) => .host (holdWave s 0x2D)
  | (_, s1) =>
    let link : WaitLink := ⟨explicit, remote, key, s.dies[tableDie s].clock, what, false, s.nextKey⟩
    let s2 := { s1 with wave := { s1.wave with wait := some link }, nextKey := s1.nextKey + 1 }
    match cycleSearch s2 s.wave.ids.token with
    | .none => .ok (settlePrio s2)
    | .long => .ok (settlePrio (onWave s2 fun w => { w with wait := some { link with long := true } }))
    | .cycle m =>
      if (s.parts[s.wave.ids.part]).pfmode.getLsbD 2 && !isReleased s then
        let s3 := holdMembers s2 m
        .member (tellHost (onPart s3 s.wave.ids.part fun p => { p with parked := ⟨s.wave.ids.tid, 0x29, m.map fun e => e.1⟩ :: p.parked })
          (.members s.wave.ids.part (memberList s2 m)))
      else .deadlock s1 (memberList s1 m)

/-- The wait of the issuing wave is removed. -/
def endWait (s : State) : State :=
  match s.wave.wait with
  | none => s
  | some _ => settlePrio (sweepObjs (onWave s fun w => { w with wait := none }))

/-! ### Lock and semaphore words (R405 to R407) -/

/-- The place of an 8-byte word. -/
inductive WordLoc where
  | mem (pa : Nat)
  | spad (k : GangKey) (i : Fin 8) (off : Nat)
  deriving DecidableEq, Repr

def wordRead (s : State) (l : WordLoc) : Nat :=
  match l with
  | .mem pa => memNat s pa 8
  | .spad k i off =>
    match findGroup s k i.val with
    | some g => leNat (spadBytes g off 8)
    | none => 0

/-- A word written in an atomic step, which reads it first: the clock at the word joins the writer's (R276, R405, R406). -/
def wordWrite (s : State) (o : Writer) (l : WordLoc) (x : Nat) (v : Clk) : State :=
  match l with
  | .mem pa => (stampUnit (writerLine s o pa) o.core o.token (latestClk s pa 8 v) (keyed pa (leBytes 8 x))).1
  | .spad k i off => spadWrite s k i off (leBytes 8 x) (((findGroup s k i.val).map fun g => spadClkAt g off 8 v).getD v)

/-- The waves that wait on a word with a kind of request, first the highest EPRIO, then the oldest. -/
def handWaiters (s : State) (key : ObjKey) (f : WaitFor → Bool) : List Wave :=
  let ws := (liveWaves s).filter fun w => (openWait w).any fun l => l.key == key && f l.what
  let age := fun (w : Wave) => (w.wait.map fun l => l.age).getD 0
  let before := fun (x y : Wave) => decide (y.eprio < x.eprio) || (x.eprio == y.eprio && decide (age x ≤ age y))
  ws.foldr (fun w acc => (acc.takeWhile fun y => !before w y) ++ w :: acc.dropWhile fun y => !before w y) []

def isLockWait (f : WaitFor) : Bool := match f with | .lockHand => true | _ => false
def isUnitsWait (f : WaitFor) : Bool := match f with | .units _ => true | _ => false

/-- A wait of a wave ends by a hand-over: the wave is ready from now on (R38). -/
def grantWait (s : State) (t : W32) : State :=
  onToken s t fun w => { w with wait := w.wait.map fun l => { l with granted := true }, readySince := s.free }

/-- The word's OWNER and WAITERS replaced; other bits kept. -/
def lockWord (old owner : Nat) (waiting : Bool) : Nat :=
  old / 2 ^ 33 * 2 ^ 33 + (if waiting then 2 ^ 32 else 0) + owner

/-- UNLOCK at the word: hand over to the first waiter, or free the lock (R405). -/
def lockRelease (s : State) (o : Writer) (l : WordLoc) (key : ObjKey) (holder : W32) (v : Clk) : State :=
  let old := wordRead s l
  match handWaiters s key isLockWait with
  | [] =>
    let s1 := dropLink (wordWrite s o l (lockWord old 0 false) v) key 1 holder
    { s1 with locks := s1.locks.filter fun e => !(e.1 == holder && e.2 == key) }
  | w :: rest =>
    let s1 := wordWrite s o l (lockWord old w.ids.token.toNat (!rest.isEmpty)) v
    let owner := fun (x : HolderLink) => if x.key == key && x.lkind == 1 then { x with agent := w.ids.token } else x
    let s2 := { s1 with
      links := s1.links.map owner
      locks := (w.ids.token, key) :: s1.locks.filter fun e => !(e.1 == holder && e.2 == key) }
    settlePrio (grantWait s2 w.ids.token)

/-- COUNT and WAITERS replaced. -/
def semWord (old count : Nat) (waiting : Bool) : Nat :=
  old / 2 ^ 33 * 2 ^ 33 + (if waiting then 2 ^ 32 else 0) + count

/-- Whether the word's WAITERS bit is set. -/
def semWaiting (x : Nat) : Bool := decide (x / 2 ^ 32 % 2 = 1)

/-- SEMTAKE waiters granted in order while the first one's request fits (R406). A waiter whose link finds no room in the table is not granted: its wait ends, and it meets WFT_FULL at its instruction (R399). -/
def semGrant (o : Writer) (p : Fin 24) (d : Fin 2) (l : WordLoc) (key : ObjKey) (v : Clk) : List Wave → State → State
  | [], s => s
  | w :: rest, s =>
    match w.wait with
    | some ⟨_, _, _, _, .units n, _, _⟩ =>
      let x := wordRead s l
      if n ≤ x % 2 ^ 32 then
        match addLink s d p key 4 2 w.ids.token n with
        | (.onDie, t) | (.ext, t) =>
          semGrant o p d l key v rest (grantWait (wordWrite t o l (semWord x (x % 2 ^ 32 - n) (semWaiting x)) v) w.ids.token)
        | _ => semGrant o p d l key v rest (onToken s w.ids.token fun y => { y with wait := none })
      else s
    | _ => s

/-- SEMGIVE at the word: units given back by an agent (R406). -/
def semRelease (s : State) (o : Writer) (p : Fin 24) (d : Fin 2) (l : WordLoc) (key : ObjKey) (agent : W32) (n : Nat) (v : Clk) : State :=
  let old := wordRead s l
  let s1 := wordWrite s o l (semWord old (min (old % 2 ^ 32 + n) (2 ^ 32 - 1)) (semWaiting old)) v
  let lower := fun (x : HolderLink) =>
    if x.key == key && x.lkind == 2 && x.agent == agent then { x with units := x.units - n } else x
  let s2 := { s1 with links := (s1.links.map lower).filter fun x => !(x.lkind == 2 && x.units == 0) }
  match handWaiters s key isUnitsWait with
  | [] => sweepObjs s2
  | ws => settlePrio (semGrant o p d l key v ws s2)

/-! ### Whether a wait is over -/

/-- Whether the condition of a wait of a wave holds (R330, R333): for room and records see Machine/Router.lean. -/
def waitHolds (s : State) (w : Wave) (l : WaitLink) : Bool :=
  match l.what with
  | .phase b =>
    (match l.key with
      | .spad k i off => (findGroup s k i.val).any fun g => (cellGet (0 : W8) g.spad (off + 6)).getLsbD 0 != b
      | _ => true)
  | .count pa n => decide (n ≤ gangWord s w.ids.gang pa % 2 ^ 63)
  | _ => false

/-- Whether the registered wait of a wave is over (R38, R393). -/
def waitOver (w : Wave) : Bool :=
  match w.wait with
  | none => true
  | some l => l.explicit || l.granted

end Sys2Proof.Machine
end

