-- ==== Sys2Proof/Machine/Sync.lean ====
section
/-!
DEFINITION. Phase barriers, progress and successor counters, pending signals (R316 to R323).
-/

namespace Sys2Proof.Machine

/-! ### Phase barriers (R318, R319) -/

/-- The fields of a barrier object. -/
structure Bar where
  pb : Nat
  pa : Nat
  phase : Nat
  err : Nat
  ovf : Nat
  eb : Nat
  ea : Nat
  gen : Nat
  deriving DecidableEq, Repr

def barOf (o : Nat) : Bar :=
  ⟨bitsOf o 31 0, bitsOf o 47 32, bitsOf o 48 48, bitsOf o 49 49, bitsOf o 50 50, bitsOf o 95 64, bitsOf o 111 96,
    bitsOf o 127 112⟩

def barBits (b : Bar) : Nat :=
  b.pb + b.pa * 2 ^ 32 + b.phase * 2 ^ 48 + b.err * 2 ^ 49 + b.ovf * 2 ^ 50 + b.eb * 2 ^ 64 + b.ea * 2 ^ 96 +
    b.gen * 2 ^ 112

/-- `Arrive(o, n, err)` of R319. -/
def arrive (b0 : Bar) (n0 : Nat) (err : Bool) : Bar :=
  let b := if err then { b0 with err := 1 } else b0
  if b.pa = 0 ∧ n0 = 0 then { b with ovf := 1 }
  else
    let n := min n0 b.pb
    let b1 := { b with
      ovf := if n0 > b.pb then 1 else b.ovf
      pa := b.pa - 1
      pb := b.pb - n }
    if b1.pa = 0 ∧ b1.pb = 0 then
      { b1 with phase := 1 - b1.phase, gen := (b1.gen + 1) % 2 ^ 16, pa := b1.ea, pb := b1.eb }
    else b1

def barAt (s : State) (k : GangKey) (i : Fin 8) (off : Nat) : Bar :=
  match findGroup s k i.val with
  | some g => barOf (leNat (spadBytes g off 16))
  | none => barOf 0

/-- An arrival applied at the owning core: the clock that it carries joins the object's (R285, R286, R319). -/
def arriveAt (s : State) (k : GangKey) (i : Fin 8) (off n : Nat) (err : Bool) (v : Clk) : State :=
  match findGroup s k i.val with
  | some g => spadWrite s k i off (leBytes 16 (barBits (arrive (barOf (leNat (spadBytes g off 16))) n err)))
      (spadClkAt g off 16 v)
  | none => s

/-- An arrival by an engine: the object's bytes then hold a completion update (R286). -/
def engineArrives (s : State) (k : GangKey) (i : Fin 8) (off n : Nat) (err : Bool) (v : Clk) : State :=
  onGroup (arriveAt s k i off n err v) k i fun g =>
    { g with spadJoin := ((List.range 16).map fun j => off + j) ++ stillLost g.spadJoin (keyed off (List.replicate 16 0)) }

/-! ### Progress counters (R321) -/

def counterAdd (x n : Nat) : Nat := x / 2 ^ 63 * 2 ^ 63 + min (x % 2 ^ 63 + n) (2 ^ 63 - 1)
def counterMax (x n : Nat) : Nat := x / 2 ^ 63 * 2 ^ 63 + max (x % 2 ^ 63) (n % 2 ^ 63)
def counterErr (x : Nat) : Nat := 2 ^ 63 + x % 2 ^ 63

/-- An update of an 8-byte counter at its home slice. It is one atomic step, so that it follows the write it replaces (R273). -/
def counterWrite (s : State) (o : Writer) (pa x : Nat) (dep : Clk) : State :=
  (stampUnit (writerLine s o pa) o.core o.token (latestClk s pa 8 dep) (keyed pa (leBytes 8 x))).1

/-- An engine's add of n, with ERR on an error: a completion update (R286, R321, R351). -/
def counterBump (s : State) (pa n : Nat) (err : Bool) (dep : Clk) : State :=
  let x := counterAdd (memNat s pa 8) n
  let t := counterWrite s deviceWriter pa (if err then counterErr x else x) dep
  { t with joins := bytesFrom pa 8 ++ t.joins }

/-! ### Successor counters and pending signals (R322, R323) -/

/-- What a signal does to an armed counter's first word: none when it is not armed; the flag says that it fires. -/
def signalWord (x : Nat) : Option (Nat × Bool) :=
  if x / 2 ^ 32 % 2 = 0 then none
  else if x / 2 ^ 33 % 2 = 1 then some (if x / 2 ^ 34 % 2 = 1 then x else x + 2 ^ 34, false)
  else
    let r := (x % 2 ^ 32 + 2 ^ 32 - 1) % 2 ^ 32
    let y := x / 2 ^ 32 * 2 ^ 32 + r
    if r = 0 then some (y + 2 ^ 33, true) else some (y, false)

/-- The pending count of an unarmed counter raised by one; none when the die's table is full (R323). -/
def pendSignal (s : State) (pa : Nat) : Option State :=
  let d := homeOf pa
  if s.dies[d].pending.any fun e => e.1 == pa then
    some (onDie s d fun x => { x with pending := x.pending.map fun e => if e.1 = pa then (e.1, e.2 + 1) else e })
  else if s.dies[d].pending.length < 1024 then
    some (onDie s d fun x => { x with pending := x.pending ++ [(pa, 1)] })
  else none

def pendCount (s : State) (pa : Nat) : Nat :=
  ((s.dies[homeOf pa].pending.find? fun e => e.1 == pa).map fun e => e.2.toNat).getD 0

def pendDrop (s : State) (pa : Nat) : State :=
  onDie s (homeOf pa) fun x => { x with pending := x.pending.filter fun e => e.1 != pa }

end Sys2Proof.Machine
end

