-- ==== Sys2Proof/Machine/Tasks.lean ====
section
/-!
DEFINITION. Launch and task records: acceptance, queues, posting by a fired counter, the end of a launch, the return of an item (R4, R363 to R370, R423, R447).
-/

namespace Sys2Proof.Machine

/-- The first core of a partition: device accesses of the partition use its TLBs. -/
def partCore (s : State) (p : Fin 24) : Fin 192 :=
  match (List.finRange 24).find? fun c => (s.parts[p]).clusters.getLsbD c.val with
  | some c => Fin.ofNat 192 (c.val * 8)
  | none => 0

/-- Translation of an address for the device's own accesses of a partition. In host-assisted mode R41 and R237 park waiting waves and are silent on an access that no wave makes: it fails with NOT_MAPPED where its page awaits the host (DESIGN CHOICE, log entry 44). -/
def devTranslate (s : State) (p : Fin 24) (va : Nat) (acc : Access) : Except Cause Nat × State :=
  match translate s (partCore s p) p va acc with
  | (.ok pa, t) => (.ok pa, t)
  | (.fail c, t) => (.error c, t)
  | (.held, t) => (.error 0x20, t)

/-- STATUS and OWN of a record at a physical address, in one release (R356, R366, R368). -/
def statusAt (s : State) (pa own : Nat) (status : Cause) : State :=
  let x := memNat s pa 4
  deviceWrite s pa 4 (x / 2 ^ 24 * 2 ^ 24 + status.toNat * 2 ^ 16 + x % 2 ^ 16 / 4 * 4 + own)

/-- STATUS and OWN of a record written in one release (R366, R368). Where the record can no longer be written, the host is told of the item with cause group 1, as of a COMPL that fails (R6, R366; log entry 44). -/
def recordStatus (s : State) (p : Fin 24) (va : Nat) (own : Nat) (status : Cause) (tid : W64) : State :=
  match devTranslate s p va .write with
  | (.ok pa, t) => statusAt t pa own status
  | (.error c, t) => report t (some p) 1 (if status = 0 then c else status) tid.toNat

/-- OWN = 2 and GEN + 1 in one step: acceptance (R4, R355, R370). -/
def acceptWord (s : State) (pa : Nat) : State :=
  let x := memNat s pa 8
  deviceWrite s pa 8 (((x / 2 ^ 32 + 1) % 2 ^ 32) * 2 ^ 32 + x % 2 ^ 32 / 4 * 4 + 2)

/-- A partition with PTROOT, SBBASE or CTXBASE at 0 admits no work (R447). -/
def partServes (s : State) (p : Fin 24) : Bool :=
  (s.parts[p]).present && (s.parts[p]).ptroot != 0 && (s.parts[p]).sbbase != 0 && (s.parts[p]).ctxbase != 0

/-- A partition with no core in service returns what it holds (R435); a core of a lockstep partition serves with the one of its number on die 1 (R29). -/
def partAlive (s : State) (p : Fin 24) : Bool :=
  (List.finRange 192).any fun c => (s.parts[p]).clusters.getLsbD (c.val / 8) && !s.cores[c].outOfService &&
    (!(s.parts[p]).lockstep || (decide (c.val < 96) && !(s.cores[(Fin.ofNat 192 (c.val + 96) : Fin 192)]).outOfService))

/-! ### Records -/

/-- The fields of a launch record from its 1,024 bits (R363). -/
def launchOf (r : Nat) : LaunchRec :=
  let f := fun hi lo => bitsOf r hi lo
  let tb := f 319 256
  let ps := f 351 320
  let compl := f 575 512
  let pipe := f 447 384
  { idem := f 2 2 == 1
    meas := f 3 3 == 1
    nover := f 4 4 == 1
    tserv := f 5 5 == 1
    prio := Fin.ofNat 16 (f 11 8)
    tq := Fin.ofNat 16 (f 15 12)
    sched := BitVec.ofNat 64 (f 127 64)
    size := BitVec.ofNat 64 (f 191 128)
    arg := BitVec.ofNat 64 (f 255 192)
    tbase := BitVec.ofNat 64 tb
    psize := ps
    gcount := f 383 352
    pipe := BitVec.ofNat 64 pipe
    qbase := BitVec.ofNat 64 (f 511 448)
    compl := BitVec.ofNat 64 compl
    malformed := f 7 6 != 0 || f 31 24 != 0 || f 1023 576 != 0 || tb % 4096 != 0 || tb / 2 ^ 56 != 0 ||
      ps % 4 != 0 || ps > 65536 || f 383 352 == 0 || (f 5 5 == 1 && pipe != 0) ||
      (pipe != 0 && f 511 448 % 64 != 0) || (compl != 0 && (compl % 8 != 0 || !isLocalGlobal compl)) }

/-- A malformed task record (R367). -/
def taskMalformed (r : Nat) : Bool :=
  let entry := bitsOf r 127 64
  let succ := bitsOf r 319 256
  bitsOf r 7 4 != 0 || bitsOf r 15 12 != 0 || bitsOf r 31 24 != 0 || bitsOf r 511 320 != 0 ||
    entry % 4 != 0 || entry / 2 ^ 56 != 0 || (succ != 0 && (succ % 16 != 0 || !isLocalGlobal succ))

/-- A task identifier (R423). -/
def taskId (group : Bool) (item seq : Nat) : W64 :=
  BitVec.ofNat 64 (item % 2 ^ 32 + seq % 2 ^ 28 * 2 ^ 32 + (if group then 2 ^ 63 else 0))

/-! ### The end of a launch (R366) -/

/-- The launch's completion counter raised by one, with ERR on an error; a failed access is reported. -/
def bumpCompl (s : State) (p : Fin 24) (acc : Nat) (compl : W64) (err : Bool) : State :=
  if compl = 0 then s
  else
    match devTranslate s p compl.toNat .write with
    | (.ok pa, t) =>
      if lostRead t p none (bytesFrom pa 8) then report t (some p) 2 0x4D (pa % 2 ^ 39) else counterBump t pa 1 err (clkNow t)
    | (.error c, t) => report t (some p) 1 c (taskId false 0 acc).toNat

/-- STATUS of a launch that ends: the cause of the return as a whole, else that of the lowest returned gang. -/
def launchStatus (l : Launch) (whole : Option Cause) : Cause :=
  match whole with
  | some c => c
  | none =>
    match l.returned with
    | [] => 0
    | x :: xs => (xs.foldl (fun a b => if b.1 < a.1 then b else a) x).2

/-- The launch leaves its queue: STATUS and OWN = 3 in one release, then COMPL. -/
def finishLaunch (s : State) (key : Nat) (whole : Option Cause) : State :=
  match findLaunch s key with
  | none => s
  | some l =>
    let s1 := recordStatus s l.part l.addr.toNat 3 (launchStatus l whole) (taskId false 0 l.acc)
    let err := whole.isSome || !l.returned.isEmpty || l.itemErr
    let badCompl := l.snap.compl.toNat % 8 != 0 || !isLocalGlobal l.snap.compl.toNat
    let s2 := if badCompl then s1 else bumpCompl s1 l.part l.acc l.snap.compl err
    let s3 := onPart s2 l.part fun p => { p with launchQ := p.launchQ.map fun q => q.filter fun k => k != key }
    { s3 with launches := s3.launches.filter fun x => x.key != key }

/-- A launch whose gangs have all ended ends. -/
def checkLaunch (s : State) (key : Nat) : State :=
  match findLaunch s key with
  | none => s
  | some l =>
    if l.nextGang = l.snap.gcount ∧ l.again = [] ∧ l.done + l.returned.length = l.snap.gcount then finishLaunch s key none
    else s

/-! ### Acceptance -/

/-- A launch record accepted into a queue at physical address pa (R370); none of its checks refuses it here but OWN. The acquire on the ownership write covers what its clock covers (R290). -/
def acceptLaunch (s : State) (p : Fin 24) (q : Fin 8) (va : W64) (pa : Nat) : Except Cause State :=
  let r := memNat s pa 128
  if lostRead s p none (bytesFrom pa 128) then .error 0x4D
  else if r % 4 ≠ 1 then .error 0x2E
  else
    let s1 := acceptWord s pa
    let acc := (s.parts[p]).accepted
    let s2 := onPart s1 p fun x => { x with accepted := x.accepted + 1 }
    let l : Launch := ⟨s2.nextKey, p, q, va, BitVec.ofNat 32 (memNat s1 (pa + 4) 4), acc, launchOf r, [], 0, 0, 0, [], 0, [], false, none, false, false,
      latestClk s pa 8 {}⟩
    let s3 := { s2 with launches := s2.launches ++ [l], nextKey := s2.nextKey + 1 }
    if !partServes s p then .ok (finishLaunch s3 l.key (some 0x3B))
    else if !partAlive s p then .ok (finishLaunch s3 l.key (some 0x4F))
    else .ok (onPart s3 p fun x => { x with launchQ := x.launchQ.set q.val ((x.launchQ[q]) ++ [l.key]) })

/-- A task record accepted into its queue (R367, R370). -/
def acceptTask (s : State) (p : Fin 24) (va : W64) (pa : Nat) (after : List TaskKey) : Except Cause State :=
  let r := memNat s pa 64
  if lostRead s p none (bytesFrom pa 64) then .error 0x4D
  else if r % 4 ≠ 1 ∨ taskMalformed r then .error 0x2E
  else
    let s1 := acceptWord s pa
    let acc := (s.parts[p]).accepted
    let s2 := onPart s1 p fun x => { x with accepted := x.accepted + 1 }
    if !partServes s p then .ok (recordStatus s2 p va.toNat 3 0x3B (taskId true acc acc))
    else if !partAlive s p then .ok (recordStatus s2 p va.toNat 3 0x4F (taskId true acc acc))
    else
      let q : Fin 16 := Fin.ofNat 16 (bitsOf r 11 8)
      let e : TaskEnt := ⟨taskId true acc acc, va, BitVec.ofNat 32 (memNat s1 (pa + 4) 4), BitVec.ofNat 64 (bitsOf r 127 64), BitVec.ofNat 64 (bitsOf r 191 128),
        BitVec.ofNat 64 (bitsOf r 255 192), BitVec.ofNat 64 (bitsOf r 319 256), bitsOf r 2 2 == 1, bitsOf r 3 3 == 1, 0, 0, 0, none, after, false, false, latestClk s pa 8 {}⟩
      .ok (onPart s2 p fun x => { x with taskQ := x.taskQ.set q.val ((x.taskQ[q]) ++ [e]) })

/-- The task queue that a record names, when it has a free entry (R364). -/
def taskRoom (s : State) (p : Fin 24) (pa : Nat) : Bool :=
  decide (((s.parts[p]).taskQ[(Fin.ofNat 16 (bitsOf (memNat s pa 8) 11 8) : Fin 16)]).length < 4096)

def launchRoom (s : State) (p : Fin 24) (q : Fin 8) : Bool := decide (((s.parts[p]).launchQ[q]).length < 256)

/-- The tasks whose tags stand on the line of an address (R426). -/
def lineTags (s : State) (pa : Nat) : List TaskKey := ((s.tags.filter fun t => t.1 == pa / 128).map fun t => t.2).eraseDups

/-- The post of a fired counter's record, as TKPOST does (R323, R370); none while its queue is full. -/
def firePost (s : State) (p : Fin 24) (va : Nat) (after : List TaskKey) : Option State :=
  match devTranslate s p va .write with
  | (.error c, t) => some (report t (some p) 1 c 0)
  | (.ok pa, t) =>
    if !taskRoom t p pa then none
    else
      match acceptTask t p (BitVec.ofNat 64 va) pa after with
      | .ok u => some u
      | .error c => some (if c = 0x4D then report t (some p) 2 c (pa % 2 ^ 39) else recordStatus t p va 3 0x2E 0)

/-- One signal at a successor counter's home slice (R323); none while it waits for a pending entry or for queue room. A counter whose data are lost takes none, and the host learns it (R10). -/
def signalAt (s : State) (o : Writer) (p : Fin 24) (pa : Nat) (dep : Clk) : Option State :=
  if lostRead s p none (bytesFrom pa 16) then some (report s (some p) 2 0x4D (pa % 2 ^ 39))
  else match signalWord (memNat s pa 8) with
  | none => pendSignal s pa
  | some (x, fires) =>
    let s1 := counterWrite s o pa x dep
    let task := memNat s (pa + 8) 8
    let s2 := if fires then { s1 with signals := s1.signals.filter fun e => e.2.2 != pa } else s1
    if fires && task != 0 then firePost s2 p task (lineTags s2 pa) else some s2

/-! ### Return of an item (R6, R431) -/

/-- An item of a launch has been returned or an effect of it has failed: ERR of COMPL at its end. -/
def markErr (s : State) (key : Nat) : State := onLaunch s key fun l => { l with itemErr := true }

/-- A task is returned to its submitter with a cause; its launch may end with it. -/
def returnTask (s : State) (t : Task) (c : Cause) : State :=
  let s1 := { s with tasks := s.tasks.filter fun x => !(x.tid == t.tid && x.part == t.part) }
  match t.group with
  | none =>
    let s2 := onLaunch s1 t.gang.launch fun l =>
      { l with again := l.again.filter fun i => i != t.gang.index, returned := l.returned ++ [(t.gang.index, c)] }
    checkLaunch s2 t.gang.launch
  | some _ =>
    let s2 := recordStatus s1 t.part t.home.toNat 3 c t.tid
    let s3 := onPart s2 t.part fun x =>
      { x with taskQ := x.taskQ.map fun q => q.filter fun e => e.tid != t.tid }
    markErr s3 t.gang.launch

end Sys2Proof.Machine
end

