-- ==== Sys2Proof/Machine/Slots.lean ====
section
/-!
DEFINITION. The slots of a pipeline's queue area and their headers (R373, R374), voided slots, and the rejection of a record that a killed group holds (R378, R384, R385).
-/

namespace Sys2Proof.Machine

/-! ### Positions and slots (R373) -/

/-- The stages of each position, from stage n on. -/
def positionsFrom : Nat → List StageEnt → List (List Nat)
  | _, [] => []
  | n, e :: rest =>
    match positionsFrom (n + 1) rest, rest with
    | q :: more, f :: _ => if e.set ≠ 0 ∧ f.set = e.set then (n :: q) :: more else [n] :: q :: more
    | l, _ => [n] :: l

def positions (p : Pipe) : List (List Nat) := positionsFrom 1 p.stages

/-- The entry of a stage, counted from 1. -/
def stageAt (p : Pipe) (n : Nat) : StageEnt := if n = 0 then ⟨0, 0, 0, 0⟩ else (p.stages[n - 1]?).getD ⟨0, 0, 0, 0⟩

def setAt (p : Pipe) (m : Nat) : SetEnt := if m = 0 then ⟨0, false, 256, 0⟩ else (p.sets[m - 1]?).getD ⟨0, false, 256, 0⟩

/-- The stages of a position; none beyond the last one. -/
def stagesOf (p : Pipe) (pos : Nat) : List Nat := ((positions p)[pos]?).getD []

/-- The first stage of a position, whose slots and slot bytes are the position's. -/
def leadOf (p : Pipe) (pos : Nat) : StageEnt := stageAt p ((stagesOf p pos).headD 0)

/-- The set at a position; 0 for a stage in no set. -/
def setOf (p : Pipe) (pos : Nat) : Nat := (leadOf p pos).set

def orderedPos (p : Pipe) (pos : Nat) : Bool := setOf p pos != 0 && (setAt p (setOf p pos)).ordered

/-- The position of a stage. -/
def posOf (p : Pipe) (stage : Nat) : Nat := ((positions p).takeWhile fun l => !l.contains stage).length

def lastPos (p : Pipe) (pos : Nat) : Bool := decide (pos + 1 = (positions p).length)

/-- The payload bytes of a slot. -/
def payloadSize (p : Pipe) (pos : Nat) : Nat := (leadOf p pos).slotBytes - 16 - if setOf p pos = 0 then 0 else 256

/-- The address of a slot. -/
def slotAddr (l : Launch) (p : Pipe) (pos slot : Nat) : Nat :=
  (List.range pos).foldl (fun a i => a + (leadOf p i).slots * (leadOf p i).slotBytes) l.snap.qbase.toNat +
    slot * (leadOf p pos).slotBytes

def findRec (p : Pipe) (pos slot : Nat) : Option PRec := p.recs.find? fun r => r.pos == pos && r.slot == slot

/-- The header of a record (R374). -/
def headerBits (r : PRec) (rej : Bool) : Nat :=
  r.seq.toNat + r.done.toNat * 2 ^ 32 + r.setid * 2 ^ 40 + (if rej then 2 ^ 43 else 0) + r.obcnt * 2 ^ 44 + r.entno.toNat * 2 ^ 64

/-- A core of the cluster whose router serves a pipeline. -/
def routerCore (p : Pipe) : Fin 192 := Fin.ofNat 192 (((p.cluster.map fun c => c.val).getD 0) * 8)

/-! ### Records discarded -/

/-- Voided slots at the head of a position's queue are skipped (R378). -/
def skipVoided (p : Pipe) : Pipe :=
  let older := fun (r : PRec) => p.recs.any fun x => x.pos == r.pos && decide (x.arrival < r.arrival) && x.loc != .voided && x.loc != .held
  { p with recs := p.recs.filter fun r => r.loc != .voided || older r }

/-- A record discarded: its slot is freed and its reserved slot voided (R384). -/
def discardRec (p : Pipe) (pos slot : Nat) : Pipe :=
  match findRec p pos slot with
  | none => p
  | some r =>
    let gone := p.recs.filter fun x => !(x.pos == pos && x.slot == slot)
    let void := fun (x : PRec) => if x.pos == pos + 1 && r.resv == some x.slot then { x with loc := .voided } else x
    skipVoided { p with recs := gone.map void }

def onPipe (s : State) (key : Nat) (f : Pipe → Pipe) : State :=
  onLaunch s key fun l => { l with pipe := l.pipe.map f }

/-- Translation of a slot's header for the router (R230, R231, R373). -/
def slotTranslate (s : State) (l : Launch) (p : Pipe) (pos slot : Nat) : Tr × State :=
  match windowOf s (slotAddr l p pos slot) with
  | .global va => translate s (routerCore p) l.part va .write
  | .bad => (.fail 0x19, s)
  | _ => (.fail 0x1C, s)

/-- The record that a killed group holds is rejected as by RTREJ, uncounted, with ERR of the launch's COMPL (R385). A header that cannot be written stays as it is (log entry 33). -/
def rejectHeld (s : State) (launch : Nat) (h : Held) : State :=
  let done := fun (t : State) => markErr (onPipe t launch fun p => discardRec p h.pos h.slot) launch
  match findLaunch s launch with
  | none => s
  | some l =>
    match l.pipe with
    | none => s
    | some p =>
      match findRec p h.pos h.slot with
      | none => done s
      | some r =>
        if p.stopped then done s
        else
          match slotTranslate s l p h.pos h.slot with
          | (.ok pa, t) => done (stampUnit t none 0 r.clk (keyed pa (leBytes 16 (headerBits r true)))).1
          | (_, t) => done t

end Sys2Proof.Machine
end

