-- ==== Sys2Proof/Machine/Contain.lean ====
section
/-!
DEFINITION. Versions' observers (R426, R427) and containment: killing gangs and settling their tasks (R385, R407, R429 to R432).
-/

namespace Sys2Proof.Machine

/-! ### Observed-by links (R426, R427) -/

def taskKey (t : Task) : TaskKey := ⟨t.part, t.tid⟩

/-- The tasks reached from tasks along observed-by links: producers of producers, `n` rounds. -/
def producersOf (links : List Observed) : Nat → List TaskKey → List TaskKey
  | 0, l => l
  | n + 1, l =>
    let new := (links.filter fun o => l.contains o.observer && !l.contains o.producer).map fun o => o.producer
    if new.isEmpty then l else producersOf links n (l ++ new.eraseDups)

/-- The commit group of a task: the tasks on cycles of observed-by links with it (R427). -/
def commitGroup (s : State) (t : TaskKey) : List TaskKey :=
  let links := observedOf s
  let from1 := producersOf links (links.length + 1) [t]
  from1.filter fun u => u == t || (producersOf links (links.length + 1) [u]).contains t

/-- The gangs of tasks. -/
def gangsOf (s : State) (l : List TaskKey) : List GangKey :=
  ((s.tasks.filter fun t => l.contains (taskKey t)).map fun t => t.gang).eraseDups

/-- How the making of observed-by links ends: made; a commit group would span more than 64 gangs (R427); the table has no room for a link, or the host is asked for it (R399). -/
inductive Observe where
  | ok (s : State)
  | limit
  | full
  | host

/-- Observed-by links added one by one to the table of die d; those that stand already change nothing. -/
def addObserves (d : Fin 2) : List Observed → State → Observe
  | [], s => .ok s
  | o :: rest, s =>
    match addObserved s d o with
    | (.onDie, t) | (.ext, t) => addObserves d rest t
    | (.host, _) => .host
    | (.full, _) => .full

/-- The gangs that a commit group spans, the members of its collectives in other packages among them (R427, R457): each of those counts as a gang of its own (log entry 34). -/
def groupSpan (s : State) (l : List TaskKey) : Nat :=
  (gangsOf s l).length +
    ((s.farMembers.filter fun m => l.contains m.task).map fun m => (m.dpid, m.group, m.cseq, m.index)).eraseDups.length

/-- Links made, unless the commit group of a task would grow too large. -/
def linkTasks (s : State) (d : Fin 2) (reader : TaskKey) (l : List Observed) : Observe :=
  if l.isEmpty then .ok s
  else match addObserves d l s with
    | .ok t => if groupSpan t (commitGroup t reader) > 64 then .limit else .ok t
    | x => x

/-- The die of a gang's cores. -/
def gangDie (s : State) (k : GangKey) : Fin 2 := ((findGang s k).map fun g => coreDie g.block).getD 0

/-- The links that a reading task gains from the tasks of other gangs whose tags stand on lines (R426). -/
def observeTags (s : State) (reader : TaskKey) (k : GangKey) (lines : List Nat) : Observe :=
  let tids := ((s.tags.filter fun t => lines.contains t.1 && t.2 != reader).map fun t => t.2).eraseDups
  let others := tids.filter fun t => s.tasks.any fun x => taskKey x == t && x.gang != k
  let new := (others.map fun t => (⟨t, reader⟩ : Observed)).filter fun o => !(observedOf s).contains o
  linkTasks s (opDie s reader.part (gangDie s k)) reader new

/-- A tag left by an escaping write (R426). -/
def tagLine (s : State) (t : TaskKey) (line : Nat) : State :=
  if s.tags.contains (line, t) then s else { s with tags := (line, t) :: s.tags }

/-! ### Killing a gang (R430) -/

/-- The place of the word that a key names. -/
def locOfKey (s : State) (key : ObjKey) : Option WordLoc :=
  match key with
  | .spad k i off => some (.spad k i off)
  | .word q va =>
    match walkPage s q va with
    | .leaf lv _ pte => some (.mem (pte % 2 ^ 39 / 4096 * 4096 + va % 2 ^ pageBits lv))
    | _ => none
  | _ => none

/-- Locks of killed waves are handed on, units given back, holds and waits removed (R407). -/
def releaseHolds (s : State) (p : Fin 24) (d : Fin 2) (toks : List W32) : State :=
  let s1 := (s.locks.filter fun e => toks.contains e.1).foldl (fun t e =>
    match locOfKey t e.2 with
    | some l => lockRelease t deviceWriter l e.2 e.1 (clkNow t)
    | none => { t with locks := t.locks.filter fun x => x != e }) s
  let s2 := (s1.links.filter fun x => x.lkind == 2 && toks.contains x.agent).foldl (fun t x =>
    match locOfKey t x.key with
    | some l => semRelease t deviceWriter p d l x.key x.agent x.units (clkNow t)
    | none => t) s1
  sweepObjs { s2 with links := s2.links.filter fun x => !(x.lkind != 3 && toks.contains x.agent) }

/-- Signals of the gang to counters that have not fired are withdrawn (R430). -/
def withdrawSignals (s : State) (k : GangKey) : State :=
  let s1 := (s.signals.filter fun e => e.1 == k).foldl (fun t e =>
    let x := memNat t e.2.2 8
    if x / 2 ^ 32 % 2 = 0 then
      let lower := fun (q : Nat × W32) => if q.1 = e.2.2 then (q.1, q.2 - 1) else q
      onDie t (homeOf e.2.2) fun d => { d with pending := (d.pending.map lower).filter fun q => q.2 != 0 }
    else if x / 2 ^ 33 % 2 = 0 then
      counterWrite t deviceWriter e.2.2 (x / 2 ^ 32 * 2 ^ 32 + (x % 2 ^ 32 + 1) % 2 ^ 32) (clkNow t)
    else t) s
  { s1 with signals := s1.signals.filter fun e => e.1 != k }

/-- An address in the aperture. -/
def inAperture (s : State) (a : Nat) : Bool := match windowOf s a with | .aperture _ _ => true | _ => false

/-- A transfer record that names the aperture, by its source, its destination or its completion object (R360). -/
def recordAperture (s : State) (snap : List W8) : Bool :=
  let at8 := fun i => leNat ((snap.drop i).take 8)
  inAperture s (at8 8) || inAperture s (at8 16) || inAperture s (at8 32)

/-- What stands for a killed gang where something of it lives on: a gang that never is, since a relaunch takes the killed one's number again (R360, R431). -/
def deadGang (k : GangKey) : GangKey := ⟨k.launch, 0xFFFFFFFF⟩

/-- An issuer of a killed gang. -/
def deadIssuer (k : GangKey) (w : Issuer) : Issuer := if w.gang = some k then { w with gang := some (deadGang k) } else w

/-- Records of a killed gang that name its aperture end with APERTURE_HOLE; those of its chains that are still to be examined find no gang, and so no aperture (R360). -/
def endRecords (s : State) (k : GangKey) : State :=
  let dead := deadIssuer k
  let f := fun (c0 : Chan) =>
    let c : Chan := { c0 with kicker := c0.kicker.map dead, linked := c0.linked.map fun (e : W64 × Issuer) => (e.1, dead e.2) }
    match c.inService with
    | some r =>
      if (r.op.any fun o => o.who.gang == some k) && recordAperture s r.snap then
        { c with inService := some { r with status := 0x1A, err := true, finished := true, op := r.op.map fun o => { o with who := dead o.who } } }
      else { c with inService := some { r with op := r.op.map fun o => { o with who := dead o.who } } }
    | none => c
  let s1 := onDie s 0 fun d => { d with chans := d.chans.map f }
  onDie s1 1 fun d => { d with chans := d.chans.map f }

/-- The router's agent under which an idle group of a core waits for a task record (R368, R388, log entry 32). -/
def idleAgent (c : Fin 192) : W32 := engToken (coreDie c) 3 (12 + coreNum c)

/-- Whether a wait is that of an idle group. -/
def idleWait (e : EngineWait) (g : Group) : Bool := e.agent == idleAgent g.core && g.idleSince == some e.link.age

/-- Every token of a gang: of its waves that live, and of those that have ended, which keep what they hold (R407). -/
def gangTokens (s : State) (k : GangKey) : List W32 :=
  ((((liveWaves s).filter fun w => w.ids.gang == k).map fun w => w.ids.token) ++
    ((s.groups.filter fun g => g.gang == k).flatMap fun g => g.endedWaves) ++
    (s.tasks.filter fun t => t.gang == k).flatMap fun t => t.waves).eraseDups

/-- The other packages of a collective group (R454). -/
def farRanks (s : State) (group : Nat) : List Nat :=
  ((((s.collGroups.find? fun e => e.1 == group).map fun e => e.2).getD []).map fun r => r.toNat).filter
    (fun r => r != s.pkg.rank.toNat) |>.eraseDups

/-- What becomes of a collective instance when a gang is killed: a versioned member abandons it for all versioned members, which issue it afresh (R457); an unversioned member's contribution stands in the journal, unless its launch is idempotent and its replay issues it again (R8, R458, log entry 34). -/
def leaveColl (s : State) (k : GangKey) (x : Coll) : Coll :=
  let ours := fun (p : Contribution) => p.who.any fun w => w.gang == some k
  if x.parts.any fun p => p.moved.isSome then { x with parts := x.parts.filter fun p => !ours p }
  else
    let kept := if x.parts.any fun p => ours p && p.ver then x.parts.filter fun p => !p.ver else x.parts
    let idem := (findLaunch s k.launch).any fun l => l.snap.idem
    { x with parts := (kept.filter fun p => !(ours p && idem)).map fun p => if ours p then { p with who := none } else p }

/-- The instances that a gang's kill abandons are abandoned in the other packages too (R457). -/
def abandonFar (s : State) (k : GangKey) : State :=
  let hit := s.colls.filter fun x => (x.parts.all fun p => p.moved.isNone) && x.parts.any fun p => p.ver && p.who.any fun w => w.gang == some k
  sendRequests s (hit.flatMap fun x => (farRanks s x.group).map fun r => (r, .abandon (BitVec.ofNat 16 x.dpid) x.group x.cseq))

/-- The tile-fetch pins of a core are released: its step has been read, is gone, or fetches again later (R300). -/
def unpinTiles (s : State) (core : Fin 192) : State :=
  onDie s (coreDie core) fun x => { x with tilePins := x.tilePins.filter fun e => e.1 != core }

/-- The effects of killing one gang (R430). -/
def killGang (s : State) (k : GangKey) : State :=
  match findGang s k with
  | none => s
  | some g =>
    let mine := fun (w : Wave) => w.ids.gang == k
    let toks := gangTokens s k
    let tids := (s.tasks.filter fun t => t.gang == k).map taskKey
    let groups := s.groups.filter fun x => x.gang == k
    let ended := (s.tasks.filter fun t => t.gang == k && !t.committed).flatMap fun t => t.waves
    let s1 := { s with
      wave := if mine s.wave then { s.wave with run := .ended, wait := none, flights := [] } else s.wave
      waves := s.waves.filter fun w => !mine w }
    let s2 := releaseHolds s1 g.part (coreDie g.block) toks
    let s3 := groups.foldl (fun t x =>
      match x.held with
      | some h => rejectHeld t k.launch h
      | none => t) s2
    let s4 := { dropObserved (abandonFar s3 k) tids with
      vbytes := s3.vbytes.filter fun v => v.gang != k
      vlines := s3.vlines.filter fun v => !tids.contains v.task
      tags := s3.tags.filter fun t => !tids.contains t.2
      groups := s3.groups.filter fun x => x.gang != k
      recWaits := s3.recWaits.filter fun x => x.1.gang != some k
      engWaits := s3.engWaits.filter fun e => !(ended.contains e.agent || groups.any (idleWait e))
      gangs := s3.gangs.filter fun x => x.key != k
      colls := (s3.colls.map (leaveColl s3 k)).filter fun c => !c.parts.isEmpty || c.ended.isSome
      farMembers := s3.farMembers.filter fun m => !tids.contains m.task }
    let dropMx := fun (c : Core) => { c with
      mxWait := c.mxWait.filter fun e => e.who.gang != some k
      mxQueue := c.mxQueue.filter fun e => e.who.gang != some k
      l1p := c.l1p.filter fun e => !toks.contains e.1
      bound := c.bound.filter fun b => b.1 != k }
    let quiet := fun (t : State) (c : Fin 192) => onCore t c fun x => { x with pm := Vector.replicate 4 ⟨0, false, 0⟩ }
    let heads := (List.finRange 192).filter fun c => (s4.cores[c].mxQueue.head?).any fun e => e.who.gang == some k
    let emptied := heads.foldl unpinTiles { s4 with cores := s4.cores.map dropMx }
    let cores := if g.meas && g.evictedAt.isNone then groups.foldl (fun t x => quiet t x.core) emptied else emptied
    let dropCp := fun (d : Die) => { d with
      copyWait := d.copyWait.filter fun o => o.who.gang != some k
      copyRun := (d.copyRun.filter fun o => o.who.gang != some k || o.forTask.isSome).map fun o => { o with who := deadIssuer k o.who } }
    withdrawSignals (endRecords (onDie (onDie cores 0 dropCp) 1 dropCp) k) k

/-! ### Settling (R431, R432) -/

/-- A task as it is before it starts. -/
def freshTask (t : Task) : Task :=
  { t with ended := false, waves := [], deferred := [], replay := none, digest := 0, clk := {}, lines := [], freed := false }

/-- A task goes back to be run again, in the place of its original. -/
def relaunchTask (s : State) (t : Task) (c : Cause) : State :=
  let n := if c = 0x4C then t.relaunches else t.relaunches + 1
  match t.group with
  | none =>
    let s1 := onTask s t.tid t.part fun x => { freshTask x with relaunches := n }
    onPipe (onLaunch s1 t.gang.launch fun l => { l with again := l.again ++ [t.gang.index] }) t.gang.launch fun p =>
      { p with took := p.took.filter fun e => e.1 != t.gang.index }
  | some _ =>
    let back := fun (e : TaskEnt) =>
      if e.tid = t.tid then { e with taken := false, relaunches := n, vfull := t.vfull, mismatches := t.mismatches, replay := none } else e
    let s1 := onPart s t.part fun x => { x with taskQ := x.taskQ.map fun q => q.map back }
    { s1 with tasks := s1.tasks.filter fun x => !(x.tid == t.tid && x.part == t.part) }

/-- Whether a task may be replayed (R8). -/
def replayable (t : Task) : Bool := t.versioned || t.idem

/-- One uncommitted task of a killed gang settled by its cause (R431); in host-assisted mode of CONT its relaunch waits for the host (R41). -/
def settleTask (s0 : State) (t : Task) (c : Cause) (replay : Bool) : State :=
  let s := onPart s0 t.part fun p => { p with parked := p.parked.filter fun i => i.tid != t.tid }
  if !replay || !replayable t || t.relaunches ≥ 3 then returnTask s t c
  else if c = 0x49 ∧ t.vfull ≥ 2 then returnTask s t c
  else if (s.parts[t.part]).pfmode.getLsbD 3 || (c == 0x4E && (s.parts[t.part]).pfmode.getLsbD 8) then
    let s2 := onTask s t.tid t.part freshTask
    tellHost (onPart s2 t.part fun p => { p with parked := ⟨t.tid, c, []⟩ :: p.parked }) (.parked t.part t.tid c)
  else relaunchTask s t c

/-- A task has taken VERSION_FULL: its next run is alone, and a second time returns it (R432). -/
def markFull (s : State) (tid : W64) (p : Fin 24) : State := onTask s tid p fun x => { x with vfull := x.vfull + 1, alone := true }

/-- The seed set closed under observers, `n` rounds (R429). -/
def closeGangs (s : State) : Nat → List GangKey → List GangKey
  | 0, l => l
  | n + 1, l =>
    let hit := fun (t : TaskKey) => s.tasks.any fun x => taskKey x == t && l.contains x.gang
    let new := ((observedOf s).filter fun o => hit o.producer).filterMap fun o =>
      (s.tasks.find? fun x => taskKey x == o.observer).map fun x => x.gang
    let more := (new.filter fun k => !l.contains k).eraseDups
    if more.isEmpty then l else closeGangs s n (l ++ more)

/-- INFO of cause group 1: the task and the gangs killed (R422). -/
def taskInfo (s : State) (tid : W64) (ks : List GangKey) : Nat :=
  tid.toNat + min (closeGangs s (s.gangs.length + 1) ks).length 0xFFFF * 2 ^ 64

/-- Containment of a seed set with a cause (R429): close, kill, settle; the host learns of the tasks of the gangs that the closure adds (R422). -/
def contain (s : State) (seeds : List GangKey) (c : Cause) (replay : Bool) : State :=
  let ks := closeGangs s (s.gangs.length + 1) (seeds.filter fun k => (findGang s k).isSome)
  let tasks := s.tasks.filter fun t => ks.contains t.gang && !t.committed
  let s1 := ks.foldl killGang s
  let s2 := tasks.foldl (fun t x =>
    if seeds.contains x.gang then settleTask t x c replay
    else settleTask (report t (some x.part) 1 0x4C (x.tid.toNat + min ks.length 0xFFFF * 2 ^ 64)) x 0x4C true) s1
  settlePrio (settleObjs s2)

/-- Items that need lost data are returned with DATA_LOST (0x4D), and the host learns the address (R10, R422, R431). -/
def dataLost (s : State) (p : Fin 24) (seeds : List GangKey) (pa : Nat) : State :=
  contain (report s (some p) 2 0x4D (pa % 2 ^ 39)) seeds 0x4D false

/-- The physical address of an address of a partition's program; 0 where it is not mapped. -/
def physAddr (s : State) (p : Fin 24) (a : Nat) : Nat :=
  match windowOf s a with
  | .global va | .l2direct va =>
    (match walkPage s p va with
      | .leaf lv _ pte => pte % 2 ^ 39 / 4096 * 4096 + va % 2 ^ pageBits lv
      | _ => 0)
  | _ => 0

end Sys2Proof.Machine
end

