-- ==== Sys2Proof/Machine/Flags.lean ====
section
/-!
DEFINITION. MODE's fields, predicates, active lanes, comparisons, class masks, votes: everything that sets or reads a predicate (R84 to R89, R147, R164, R167, R176).
-/

namespace Sys2Proof.Machine

/-! ### MODE (R84) -/

def modeGuard (m : W32) : Nat := m.toNat % 16
def modeType (m : W32) : Nat := m.toNat / 16 % 32
def modeRound (m : W32) : Nat := m.toNat / 512 % 8
def modeSat (m : W32) : Bool := m.getLsbD 12

/-- Assigned TYPE and ROUND codes, reserved bits zero (R85, R86, R89). -/
def modeLegal (x : Nat) : Bool := x < 2 ^ 13 && x / 16 % 32 < 15 && x / 512 % 8 < 6

/-- The element type in force. -/
def regsTy (r : Regs) : Option Ty := tyOf (modeType r.mode)

/-- Whether lane operands are 64 bits wide under the TYPE in force (R156). -/
def regsWide (r : Regs) : Bool := (regsTy r).any tyWide

/-! ### Predicates and active lanes (R87, R147) -/

/-- The lanes in which a guard or cond value holds (R87). -/
def guardMask (r : Regs) (g : Nat) : W32 :=
  if g % 16 == 0 then 0xFFFFFFFF
  else if g % 16 == 8 then 0
  else if g % 16 < 8 then r.preds[Fin.ofNat 8 g]
  else ~~~ r.preds[Fin.ofNat 8 g]

/-- `Active` of R97, for all lanes at once. -/
def activeMask (r : Regs) : W32 := r.exec &&& guardMask r (modeGuard r.mode)

/-- The value of predicate p in the lanes; p0 reads 1. -/
def predMask (r : Regs) (p : PReg) : W32 := if p.val == 0 then 0xFFFFFFFF else r.preds[p]

/-- Predicate write in the lanes of `lanes`; a write to p0 is ignored (R147). -/
def writePred (r : Regs) (p : PReg) (lanes val : W32) : Regs :=
  if p.val == 0 then r
  else { r with preds := r.preds.set p.val ((r.preds[p] &&& ~~~ lanes) ||| (val &&& lanes)) }

/-- The lowest lane of a mask, if any. -/
def lowestLane (m : W32) : Option (Fin 32) := laneList.find? fun l => m.getLsbD l.val

/-! ### Comparison (R123, R167, R181) -/

/-- Whether a condition holds for an ordering; `none` is unordered. -/
def condHolds (c : CmpOp) (o : Option Ordering) : Bool :=
  match c, o with
  | .eq, some .eq | .ne, some .lt | .ne, some .gt | .ne, none => true
  | .lt, some .lt | .gt, some .gt => true
  | .le, some .lt | .le, some .eq | .ge, some .gt | .ge, some .eq => true
  | .ord, some _ | .unord, none => true
  | _, _ => false

/-- The order of two elements of a type. -/
def elemOrder (t : Ty) (x y : Nat) : Option Ordering :=
  match fmtOf t with
  | some f => fCmp (decodeF f x) (decodeF f y)
  | none => some (compare (intOf t x) (intOf t y))

/-- The class mask of R164. -/
def classMask (f : Fmt) (x : Nat) : Nat :=
  match decodeF f x with
  | .nan => 1
  | .inf n => if n then 2 else 256
  | .fin n m _ _ =>
    if m == 0 then (if n then 16 else 32)
    else if m < 2 ^ f.m then (if n then 8 else 64)
    else if n then 4 else 128

/-- The number that VOTE delivers, from the active lanes and their values (R176). -/
def voteValue (o : VoteOp) (act : W32) (x : Lanes W64) : W32 :=
  let yes := maskOf fun l => act.getLsbD l.val && x[l] != 0
  let b : Bool :=
    match o with
    | .any => yes != 0
    | .all => yes == act
    | .none => yes == 0
    | .ballot => false
    | .uniform =>
      match lowestLane act with
      | none => true
      | some f => laneList.all fun l => !act.getLsbD l.val || x[l] == x[f]
  match o with
  | .ballot => yes
  | _ => if b then 1 else 0

end Sys2Proof.Machine
end

