-- ==== Sys2Proof/Machine/Operands.lean ====
section
/-!
DEFINITION. Operand forms: reading sources, the checks of R91, the hold, the push and the commit (R97, R143 to R146), the advance past an instruction, taken transfers (R144).
-/

namespace Sys2Proof.Machine

/-! ### Named registers and sources -/

/-- Whether n0 to n15 reach copy 1 in a lane (R212). -/
def copyOne (r : Regs) (l : Fin 32) : Bool := r.sel.getLsbD l.val != r.pflag

/-- nX in a lane (R97). -/
def namedRead (r : Regs) (x : Fin 40) (l : Fin 32) : W32 :=
  if h : x.val < 16 then
    if copyOne r l then r.mirror[(⟨x.val, h⟩ : Fin 16)][l] else r.named[x][l]
  else r.named[x][l]

/-- Named register write in the lanes of `lanes` (R145, R212). -/
def namedWrite (r : Regs) (x : Fin 40) (lanes : W32) (v : Lanes W32) : Regs :=
  let one := fun l => decide (x.val < 16) && copyOne r l
  let c0 := Lanes.of fun l => if lanes.getLsbD l.val && !one l then v[l] else r.named[x][l]
  if h : x.val < 16 then
    let c1 := Lanes.of fun l => if lanes.getLsbD l.val && one l then v[l] else r.mirror[(⟨x.val, h⟩ : Fin 16)][l]
    { r with named := r.named.set x.val c0, mirror := r.mirror.set x.val c1 }
  else { r with named := r.named.set x.val c0 }

/-- Queue entry j, and beyond q15 nothing. -/
def queueAt (r : Regs) (j : Nat) (l : Fin 32) : W32 := if h : j < 16 then r.q[(⟨j, h⟩ : Fin 16)][l] else 0

def latchAt (r : Regs) (j : Nat) (l : Fin 32) : W32 := if h : j < 3 then r.latch[(⟨j, h⟩ : Fin 3)].val[l] else 0

def namedAt (r : Regs) (x : Nat) (l : Fin 32) : W32 := if h : x < 40 then namedRead r ⟨x, h⟩ l else 0

/-- `Src(code, lane, w)` of R97; `wv` is WAVE. -/
def srcAt (r : Regs) (wv : Nat) (c : Src) (wide : Bool) (l : Fin 32) : W64 :=
  let two := fun (lo hi : W32) => pair64 (if wide then hi else 0) lo
  match c with
  | .q j => two (queueAt r j.val l) (queueAt r (j.val + 1) l)
  | .n x => two (namedAt r x.val l) (namedAt r (x.val + 1) l)
  | .l j => two (latchAt r j.val l) (latchAt r (j.val + 1) l)
  | .lane => BitVec.ofNat 64 l.val
  | .wave => BitVec.ofNat 64 wv
  | .zero => 0
  | .ones => two 0xFFFFFFFF 0xFFFFFFFF

/-- A source in every lane. -/
def srcLanes (r : Regs) (wv : Nat) (c : Src) (wide : Bool) : Lanes W64 := Lanes.of (srcAt r wv c wide)

/-- `Bcast(K, w)` of R157. -/
def bcastK (r : Regs) (i : KReg) (wide : Bool) : W64 := if wide then r.k[i] else (lo32 r.k[i]).setWidth 64

/-- A second source in every lane (R77). -/
def src2Lanes (r : Regs) (wv : Nat) (c : Src2) (wide : Bool) : Lanes W64 :=
  match c with
  | .s x => srcLanes r wv x wide
  | .k i => Lanes.all (bcastK r i wide)

/-- The second operand of a uniform instruction (R180). -/
def kopValue (r : Regs) (y : KOp) : W64 :=
  match y with
  | .k i => r.k[i]
  | .imm v => v.setWidth 64

/-! ### The checks of R91 -/

/-- An operand that an instruction names, with its width. -/
inductive OpUse where
  | src (c : Src) (wide : Bool)
  | dst (d : Dst) (wide : Bool)
  /-- A quad of R254, as a source and as a destination. -/
  | quad (c : Src)
  | quadDst (d : Dst)
  deriving DecidableEq, Repr

/-- The uses of a second source. -/
def useSrc2 (c : Src2) (wide : Bool) : List OpUse :=
  match c with
  | .s x => [.src x wide]
  | .k _ => []

/-- Check 1 of R91. -/
def rangeBad (r : Regs) (u : OpUse) : Bool :=
  match u with
  | .src (.n x) w | .dst (.n x) w => x.val ≥ r.nregs.val || (w && x.val + 1 ≥ r.nregs.val)
  | .quad (.n x) | .quadDst (.n x) => x.val + 3 ≥ r.nregs.val
  | _ => false

/-- Check 2 of R91. -/
def pairBad (u : OpUse) : Bool :=
  match u with
  | .src (.n x) true | .dst (.n x) true => x.val % 2 == 1
  | .src (.q j) true => j.val == 15
  | .src (.l j) true => j.val == 2
  | .quad (.n x) | .quadDst (.n x) => x.val % 4 != 0
  | .quad (.q j) => decide (12 < j.val)
  | .quad (.l _) => true
  | _ => false

/-- Check 4 of R91. -/
def queueBad (r : Regs) (u : OpUse) : Bool :=
  match u with
  | .src (.q j) w => !r.qvalid.getLsbD j.val || (w && !r.qvalid.getLsbD (j.val + 1))
  | .quad (.q j) => (List.range 4).any fun i => !r.qvalid.getLsbD (j.val + i)
  | _ => false

def latchLive (r : Regs) (j : Nat) : Bool := if h : j < 3 then r.latch[(⟨j, h⟩ : Fin 3)].life != 0 else false

/-- Check 5 of R91. -/
def latchBad (r : Regs) (u : OpUse) : Bool :=
  match u with
  | .src (.l j) w => !latchLive r j.val || (w && !latchLive r (j.val + 1))
  | _ => false

/-- The registers that a use reads in the register file: 0 and a queue place, or 1 and a named register. -/
def useReads (u : OpUse) : List (Nat × Nat) :=
  let run := fun (k x n : Nat) => (List.range n).map fun i => (k, x + i)
  match u with
  | .src (.q j) w => run 0 j.val (if w then 2 else 1)
  | .src (.n x) w => run 1 x.val (if w then 2 else 1)
  | .quad (.q j) => run 0 j.val 4
  | .quad (.n x) => run 1 x.val 4
  | _ => []

/-- The bank of a register: that of its number, or of the push that made a queue entry (R152). -/
def bankOf (r : Regs) (x : Nat × Nat) : Nat := if x.1 = 0 then (r.pushes.val + 19 - x.2) % 4 else x.2 % 4

/-- The extra issue cycles of an instruction whose sources share a bank (R152). -/
def bankExtra (r : Regs) (uses : List OpUse) : Nat :=
  let l := (uses.flatMap useReads).eraseDups.map (bankOf r)
  ([0, 1, 2, 3].map fun b => l.count b).foldl max 0 - 1

/-- The first failing operand check of R91, in its order. -/
def operandFault (r : Regs) (uses : List OpUse) (tyOk : Bool) : Option Cause :=
  if uses.any (rangeBad r) then some 0x0C
  else if uses.any pairBad then some 0x0D
  else if !tyOk then some 0x02
  else if uses.any (queueBad r) then some 0x08
  else if uses.any (latchBad r) then some 0x09
  else none

/-! ### Results -/

/-- One push (R97, R143, R152). -/
def pushOne (r : Regs) (v : Lanes W32) : Regs :=
  { r with
    q := Vector.ofFn fun j => if h : j.val = 0 then v else r.q[j.val - 1]
    qvalid := (r.qvalid <<< 1) ||| 1
    pushes := r.pushes + 1 }

def loLanes (v : Lanes W64) : Lanes W32 := Lanes.of fun l => lo32 v[l]
def hiLanes (v : Lanes W64) : Lanes W32 := Lanes.of fun l => hi32 v[l]

/-- The push of a result: high half first, low half second (R97). -/
def pushResult (r : Regs) (v : Lanes W64) (wide : Bool) : Regs :=
  if wide then pushOne (pushOne r (hiLanes v)) (loLanes v) else pushOne r (loLanes v)

/-- The named write of a result (R97, R145). -/
def writeDst (r : Regs) (d : Dst) (lanes : W32) (v : Lanes W64) (wide : Bool) : Regs :=
  match d with
  | .queue => r
  | .n x =>
    let r1 := namedWrite r x lanes (loLanes v)
    if wide then (if h : x.val + 1 < 40 then namedWrite r1 ⟨x.val + 1, h⟩ lanes (hiLanes v) else r1) else r1

/-- `Commit(d, v, w)` of R97; the lanes are those active before the instruction. -/
def commit (r : Regs) (lanes : W32) (d : Dst) (v : Lanes W64) (wide : Bool) : Regs :=
  writeDst (pushResult r v wide) d lanes v wide

/-- The new latch after a hold (R57, R146). -/
def holdValue (r : Regs) (v : Lanes W64) (wide : Bool) : Regs :=
  let l0 := r.latch[0]
  let l1 := r.latch[1]
  if wide then { r with latch := #v[⟨loLanes v, 2⟩, ⟨hiLanes v, 2⟩, l0] }
  else { r with latch := #v[⟨loLanes v, 2⟩, l0, l1] }

/-- What a lane instruction holds in each case: first source, second source, result, each with its width. -/
structure HoldSet where
  a : Lanes W64
  aWide : Bool
  b : Lanes W64
  bWide : Bool

def hold (r : Regs) (h : Hold) (s : HoldSet) (v : Lanes W64) (wide : Bool) : Regs :=
  match h with
  | .none => r
  | .a => holdValue r s.a s.aWide
  | .b => holdValue r s.b s.bWide
  | .result => holdValue r v wide

/-- The lives after a completed instruction (R98, R146). -/
def lowerLives (r : Regs) : Regs :=
  { r with latch := r.latch.map fun e => { e with life := if e.life = 0 then 0 else e.life - 1 } }

/-- A completed instruction of `n` bytes that transfers no control (R75, R146). -/
def retire (r : Regs) (n : Nat) : Regs := { lowerLives r with pc := r.pc + BitVec.ofNat 64 n }

/-- A taken control transfer: every queue entry and latch entry becomes invalid (R144). -/
def takeTransfer (r : Regs) (target : W64) : Regs :=
  { r with
    pc := target
    qvalid := 0
    latch := r.latch.map fun e => { e with life := 0 } }

/-- A value masked to zero in inactive lanes (R143). -/
def maskLanes (lanes : W32) (v : Lanes W64) : Lanes W64 :=
  Lanes.of fun l => if lanes.getLsbD l.val then v[l] else 0

/-- A lane instruction's effect on the registers: advance, hold, commit (R97, R157). -/
def laneFinish (r : Regs) (n : Nat) (d : Dst) (h : Hold) (s : HoldSet) (v : Lanes W64) (wide : Bool) : Regs :=
  let m := maskLanes (activeMask r) v
  commit (hold (retire r n) h s m wide) (activeMask r) d m wide

/-- The target of a word branch (R80). -/
def branchTarget (pc : W64) (o : BitVec 20) : W64 := pc + (o.signExtend 64 <<< 2)

/-- The update of the control-flow digest (R338). -/
def digestStep (d v : W64) : W64 := ((d.rotateLeft 5) ^^^ v) * 0x9E3779B97F4A7C15

end Sys2Proof.Machine
end

