-- ==== Sys2Proof/Machine/Ops.lean ====
section
/-!
DEFINITION. The shared operations of the meanings: taking a precise trap and the return from it (R202 to R204, R416 to R421, R478), stalls, the operand checks in front of an effect, in-flight operations (R268).
-/

namespace Sys2Proof.Machine

/-! ### Taking a trap (R417) -/

/-- A lane's record of a trap: REC, LCAUSE and LSUB. -/
structure TrapRec where
  lane : Fin 32
  value : W64
  cause : Cause
  sub : W8
  deriving DecidableEq, Repr

/-- A wave's side-buffer entry (R419); `core` numbers dies and cores together. -/
def sbAddr (s : State) (w : Wave) : Nat :=
  (s.parts[w.ids.part]).sbbase.toNat + (w.ids.core.val * 48 + w.ids.slot.val) * 1024

/-- LCAUSE of a lane: 0xFF where it has no record (R419). -/
def lcauseOf (recs : List TrapRec) (l : Fin 32) : W8 := ((recs.find? fun r => r.lane == l).map fun r => r.cause).getD 0xFF

/-- The bytes that trap entry writes to the side-buffer entry at physical address `pa`: REC and LSUB of the lanes with records, LCAUSE of all. -/
def sbRecords (pa : Nat) (recs : List TrapRec) : List (Nat × W8) :=
  (recs.flatMap fun r => keyed (pa + 8 * r.lane.val) (leBytes 8 r.value.toNat) ++ [(pa + 288 + r.lane.val, r.sub)]) ++
    (List.finRange 32).map fun l => (pa + 256 + l.val, lcauseOf recs l)

/-- The device writes the records; the wave reads them as it reads its own stores (R279, R417). -/
def writeRecords (s : State) (pa : Nat) (recs : List TrapRec) : State :=
  (stampUnit s (some s.wave.ids.core) s.wave.ids.token s.wave.clk (sbRecords pa recs)).1

/-- The side buffer is seen fresh: the wave's core keeps no L1 line of the entry (R417). -/
def freshEntry (s : State) (u : Fin 192) (pa : Nat) : State :=
  onCore s u fun c => { c with l1 := c.l1.filter fun l => !(decide (pa / 128 ≤ l.line) && decide (l.line < pa / 128 + 8)) }

/-- The mask-stack entries 8 to 15 of the handler (R418). -/
def frameView (r : Regs) (np : Bool) (cause : Cause) (spc : W64) (fmask : W32) (sb : Nat) : Vector W32 16 :=
  let d := r.msdepth.val
  let top : W32 := if d = 0 then 0 else r.mstack[(Fin.ofNat 16 (d - 1) : Fin 16)]
  let e8 := cause.toNat + 4096 * (cause.toNat / 8) + (if r.pflag then 65536 else 0) + 131072 * d +
    2 ^ 22 * modeGuard r.mode + (if np then 2 ^ 26 else 0)
  let m := r.mstack
  #v[m[0], m[1], m[2], m[3], m[4], m[5], m[6], m[7], BitVec.ofNat 32 e8, lo32 spc, hi32 spc, r.exec, fmask, top,
    BitVec.ofNat 32 sb, BitVec.ofNat 32 (sb / 2 ^ 32)]

/-- The frame of R151. -/
def saveFrame (r : Regs) (spc : W64) : Frame where
  pc := spc
  q := r.q
  qvalid := r.qvalid
  pushes := r.pushes
  latch := r.latch
  pflag := r.pflag
  exec := r.exec
  mstack := r.mstack
  msdepth := r.msdepth
  mode := r.mode
  clockLatch := r.clockLatch
  rs := r.rs

/-- The registers with which a handler starts (R151, R188, R202, R418). -/
def handlerRegs (r : Regs) (cause : Cause) (view : Vector W32 16) : Regs :=
  { r with
    pc := r.tbase + BitVec.ofNat 64 (cause.toNat / 8 * 256)
    qvalid := 0
    latch := r.latch.map fun e => { e with life := 0 }
    pflag := false
    exec := 0xFFFFFFFF
    mstack := view
    msdepth := 0
    mode := 0
    clockLatch := none
    rs := [] }

/-- INFO of cause group 0 (R422). -/
def waveInfo (w : Wave) : Nat := w.ids.tid.toNat % 2 ^ 48 + w.ids.token.toNat * 2 ^ 48

/-- The device handler contains the issuing wave's gang and returns its tasks with the cause (R203, R431, R478). -/
def deviceHandler (s : State) (cause : Cause) : State :=
  contain (report s (some s.wave.ids.part) 0 cause (waveInfo s.wave)) [s.wave.ids.gang] cause false

/-- Trap entry of the issuing wave (R417), with the saved program counter and the lanes' records. DATA_LOST is not raised at an instruction (R416). -/
def trapEntry (s : State) (cause : Cause) (spc : W64) (recs : List TrapRec) : State :=
  if cause = 0x4D then
    dataLost s s.wave.ids.part [s.wave.ids.gang] (physAddr s s.wave.ids.part ((recs.head?.map fun r => r.value.toNat).getD 0))
  else if s.wave.handler then deviceHandler s cause
  else
    let sb := sbAddr s s.wave
    match onRelease s (coreTranslate s s.wave.ids.core (some s.wave.ids.gang) s.wave.ids.part sb .write) with
    | (.fail c, t) => deviceHandler t c
    | (.held, t) => holdWave t 0x20
    | (.ok pa, t) =>
      let t1 := freshEntry (writeRecords t pa recs) t.wave.ids.core pa
      let fmask := maskOf fun l => recs.any fun r => r.lane == l
      let view := frameView t1.wave.regs t1.wave.npOpen cause spc fmask sb
      let t2 := onWave t1 fun w =>
        { w with
          frame := saveFrame w.regs spc
          handler := true
          regs := handlerRegs w.regs cause view }
      let t3 := countEvent (acquire t2) t2.wave.ids.core (some t2.wave.ids.gang) 15 1
      if cause.toNat / 8 = 8 ∨ cause.toNat / 8 = 9 then
        report t3 (some t3.wave.ids.part) 0 cause (waveInfo t3.wave)
      else t3

/-- A per-wave fault at the instruction (R417). -/
def trapWave (s : State) (cause : Cause) : State := trapEntry s cause s.wave.regs.pc [⟨0, 0, cause, 0⟩]

/-- A per-wave fault with a value in lane 0's record. -/
def trapValue (s : State) (cause : Cause) (v : W64) (sub : W8) : State :=
  trapEntry s cause s.wave.regs.pc [⟨0, v, cause, sub⟩]

/-! ### Return from a trap (R204, R420) -/

/-- SPC as the frame view holds it. -/
def viewPc (r : Regs) : W64 := pair64 r.mstack[10] r.mstack[9]

/-- A saved program counter that ERET does not accept. -/
def badPc (x : W64) : Bool := x.toNat % 4 != 0 || x.toNat / 2 ^ 56 != 0

/-- The registers after ERET. -/
def restoreFrame (r : Regs) (f : Frame) : Regs :=
  { r with
    pc := viewPc r
    q := f.q
    qvalid := f.qvalid
    pushes := f.pushes
    latch := f.latch
    pflag := f.pflag
    exec := f.exec
    mstack := f.mstack
    msdepth := f.msdepth
    mode := f.mode
    clockLatch := f.clockLatch
    rs := f.rs }

/-- Return from a trap. -/
def trapReturn (s : State) : State :=
  if !s.wave.handler then trapWave s 0x06
  else if badPc (viewPc s.wave.regs) then trapWave s 0x0F
  else onWave s fun w => { w with handler := false, regs := restoreFrame w.regs w.frame }

/-! ### Stalls, checks, advances -/

/-- The issuing wave does not complete its instruction and tries it again (R92). -/
def stall (s : State) : State := onWave s fun w => { w with run := .stalled, tried := some w.regs.pc }

/-- Whether the issuing wave tries its instruction again. -/
def triesAgain (s : State) : Bool := s.wave.tried == some s.wave.regs.pc

/-- The bank conflicts of an instruction that issues, as a performance event (R152, R325). -/
def countBanks (s : State) (uses : List OpUse) : State :=
  let n := bankExtra s.wave.regs uses
  if n = 0 ∨ triesAgain s then s else countEvent s s.wave.ids.core (some s.wave.ids.gang) 3 n

/-- An effect on the registers behind the operand checks of R91. -/
def checked (s : State) (uses : List OpUse) (tyOk : Bool) (f : Regs → Regs) : Out :=
  match operandFault s.wave.regs uses tyOk with
  | some c => .next (trapWave s c)
  | none => .next (onRegs (countBanks s uses) f)

/-- An effect on the state behind the operand checks of R91. -/
def checkedState (s : State) (uses : List OpUse) (tyOk : Bool) (f : State → State) : Out :=
  match operandFault s.wave.regs uses tyOk with
  | some c => .next (trapWave s c)
  | none => .next (f (countBanks s uses))

/-- A completed instruction of one word that leaves the registers otherwise alone. -/
def retireWave (s : State) (n : Nat) : State := onRegs s fun r => retire r n

/-- A value that the control-flow digest takes in (R338). -/
def digestEvent (s : State) (v : W64) : State := onWave s fun w => { w with digest := digestStep w.digest v }

/-- A taken transfer that completes (R144, R338). -/
def jumpTo (s : State) (target : W64) : State :=
  digestEvent (onWave s fun w => { w with regs := takeTransfer w.regs target, tried := none }) target

/-- A transfer to a target: one to the next word in sequence is not taken (R144). -/
def transferTo (s : State) (target : W64) : State :=
  if target = s.wave.regs.pc + 4 then retireWave s 4 else jumpTo s target

/-- INFO of cause group 5 (R459). -/
def fabricInfo (rank port die group sub id : Nat) : Nat :=
  rank % 1024 + port % 64 * 2 ^ 10 + die % 2 * 2 ^ 16 + group % 256 * 2 ^ 17 + sub % 128 * 2 ^ 25 + id % 2 ^ 32 * 2 ^ 48

/-! ### In-flight operations (R268) -/

def flightCount (w : Wave) (p : FlightPath) : Nat := (w.flights.filter fun f => f.path == p).length

def raiseFlight (w : Wave) (p : FlightPath) (remote : Bool) : Wave := { w with flights := w.flights ++ [⟨p, remote⟩] }

/-- The oldest operation of a path leaves. -/
def dropFlight (p : FlightPath) : List Flight → List Flight
  | [] => []
  | f :: l => if f.path = p then l else f :: dropFlight p l

def lowerFlight (w : Wave) (p : FlightPath) : Wave := { w with flights := dropFlight p w.flights }

/-- The issuing wave as the issuer of an engine operation (R283, R284). -/
def issuerOf (s : State) : Issuer where
  part := s.wave.ids.part
  gang := some s.wave.ids.gang
  group := s.wave.ids.group
  core := s.wave.ids.core
  slot := s.wave.ids.slot
  token := s.wave.ids.token
  tid := some s.wave.ids.tid
  clk := s.wave.clk
  writes := pendingOn s (waveDie s.wave) s.wave.ids.token
  spill := false

/-- The issuing wave's group and task. -/
def myGroup (s : State) : Option Group := findGroup s s.wave.ids.gang s.wave.ids.group.val
def myTask (s : State) : Option Task := findTask s s.wave.ids.tid s.wave.ids.part
def myLaunch (s : State) : Option Launch := findLaunch s s.wave.ids.gang.launch

/-- Whether the issuing wave's task runs versioned (R424). -/
def isVersioned (s : State) : Bool := (myTask s).any fun t => t.versioned

/-- The number of the wave within the gang's lanes: GLANE of a lane (R26). -/
def glane (w : Wave) (l : Fin 32) : W32 :=
  BitVec.ofNat 32 (w.ids.gang.index.toNat * 4096 + w.ids.group.val * 512 + w.ids.wave.val * 32 + l.val)

end Sys2Proof.Machine
end

