-- ==== Sys2Proof/Machine/Lane.lean ====
section
/-!
DEFINITION. The lane, conversion and predicate instructions (R156 to R174).
-/

namespace Sys2Proof.Machine

/-! ### Shared forms -/

/-- INT and FP (R156). -/
def okArith (t : Ty) : Bool := tyInt t || tyFp t

/-- ANY (R156). -/
def okAny (_ : Ty) : Bool := true

/-- MODE's fields for element operations. -/
def arithOf (r : Regs) (t : Ty) : Arith := ⟨t, modeRound r.mode, modeSat r.mode⟩

/-- The type in force, where it is known to be defined. -/
def curTy (r : Regs) : Ty := (regsTy r).getD .i32

/-- Whether the type in force is in a set. -/
def tyIn (r : Regs) (ok : Ty → Bool) : Bool := (regsTy r).any ok

/-- 32 values that nothing constrains: what `.hb` holds in a one-source instruction (log entry 17). -/
def freeLanes (s : State) : Lanes W64 := Lanes.of fun l => Config.freeWord (s.free + l.val)

/-- The state after 32 free values have been taken, where a hold takes them. -/
def useFree (s : State) (h : Hold) : State := if h = .b then { s with free := s.free + 32 } else s

/-- A two-source element instruction (R157). -/
def laneTwo (s : State) (d : Dst) (a : Src) (b : Src2) (h : Hold) (ok : Ty → Bool)
    (f : Arith → Nat → Nat → Nat) : Out :=
  let w := regsWide s.wave.regs
  checked s ([.src a w] ++ useSrc2 b w ++ [.dst d w]) (tyIn s.wave.regs ok) fun r =>
    let x := srcLanes r s.wave.ids.wave.val a w
    let y := src2Lanes r s.wave.ids.wave.val b w
    let t := curTy r
    laneFinish r 4 d h ⟨x, w, y, w⟩ (Lanes.of fun l => map2 t (f (arithOf r t)) x[l] y[l]) w

/-- A one-source lane instruction with a function of the whole lane value; `dw` is the width of its result. R57 gives `.hb` the width of the held value and is silent where source and result differ in width: the hold is of the result's width (DESIGN CHOICE, log entry 17). -/
def laneOneBy (s : State) (d : Dst) (a : Src) (h : Hold) (ok : Ty → Bool) (sw dw : Bool)
    (f : Regs → Lanes W64 → Lanes W64) : Out :=
  checkedState s [.src a sw, .dst d dw] (tyIn s.wave.regs ok) fun s =>
    let x := srcLanes s.wave.regs s.wave.ids.wave.val a sw
    onRegs (useFree s h) fun r => laneFinish r 4 d h ⟨x, sw, freeLanes s, dw⟩ (f r x) dw

/-- A one-source element instruction (R157). -/
def laneOne (s : State) (d : Dst) (a : Src) (h : Hold) (ok : Ty → Bool) (f : Arith → Nat → Nat) : Out :=
  let w := regsWide s.wave.regs
  laneOneBy s d a h ok w w fun r x =>
    let t := curTy r
    Lanes.of fun l => map1 t (f (arithOf r t)) x[l]

/-- A three-source instruction of format F1 (R165); the second and third sources have the width `yw`. -/
def laneThree (s : State) (d : Dst) (a b c : Src) (ok : Ty → Bool) (yw : Bool)
    (f : Regs → W64 → W64 → W64 → W64) : Out :=
  let w := regsWide s.wave.regs
  checked s [.src a w, .src b yw, .src c yw, .dst d w] (tyIn s.wave.regs ok) fun r =>
    let wv := s.wave.ids.wave.val
    let x := srcLanes r wv a w
    let y := srcLanes r wv b yw
    let z := srcLanes r wv c yw
    laneFinish r 4 d .none ⟨x, w, y, yw⟩ (Lanes.of fun l => f r x[l] y[l] z[l]) w

/-! ### Element arithmetic and logic -/

/-- ADD (R159 to R161). -/
def execAdd (d : Dst) (a : Src) (b : Src2) (h : Hold) (s : State) : Out := laneTwo s d a b h okArith eAdd

/-- SUB (R159 to R161). -/
def execSub (d : Dst) (a : Src) (b : Src2) (h : Hold) (s : State) : Out := laneTwo s d a b h okArith eSub

/-- MUL (R159 to R161). -/
def execMul (d : Dst) (a : Src) (b : Src2) (h : Hold) (s : State) : Out := laneTwo s d a b h okArith eMul

/-- MULHI (R159 to R161). -/
def execMulhi (d : Dst) (a : Src) (b : Src2) (h : Hold) (s : State) : Out := laneTwo s d a b h tyInt eMulhi

/-- MIN (R159 to R161). -/
def execMin (d : Dst) (a : Src) (b : Src2) (h : Hold) (s : State) : Out := laneTwo s d a b h okArith eMin

/-- MAX (R159 to R161). -/
def execMax (d : Dst) (a : Src) (b : Src2) (h : Hold) (s : State) : Out := laneTwo s d a b h okArith eMax

/-- DIV (R159 to R161). -/
def execDiv (d : Dst) (a : Src) (b : Src2) (h : Hold) (s : State) : Out := laneTwo s d a b h okArith eDiv

/-- SCALEB (R159 to R161). -/
def execScaleb (d : Dst) (a : Src) (b : Src2) (h : Hold) (s : State) : Out := laneTwo s d a b h tyFp eScaleb

/-- AND (R159 to R161). -/
def execAnd (d : Dst) (a : Src) (b : Src2) (h : Hold) (s : State) : Out := laneTwo s d a b h okAny (fun _ => eAnd)

/-- OR (R159 to R161). -/
def execOr (d : Dst) (a : Src) (b : Src2) (h : Hold) (s : State) : Out := laneTwo s d a b h okAny (fun _ => eOr)

/-- XOR (R159 to R161). -/
def execXor (d : Dst) (a : Src) (b : Src2) (h : Hold) (s : State) : Out := laneTwo s d a b h okAny (fun _ => eXor)

/-- ANDN (R159 to R161). -/
def execAndn (d : Dst) (a : Src) (b : Src2) (h : Hold) (s : State) : Out := laneTwo s d a b h okAny eAndn

/-- SHL (R159 to R161). -/
def execShl (d : Dst) (a : Src) (b : Src2) (h : Hold) (s : State) : Out := laneTwo s d a b h tyInt eShl

/-- SHR (R159 to R161). -/
def execShr (d : Dst) (a : Src) (b : Src2) (h : Hold) (s : State) : Out := laneTwo s d a b h tyInt eShr

/-- SAR (R159 to R161). -/
def execSar (d : Dst) (a : Src) (b : Src2) (h : Hold) (s : State) : Out := laneTwo s d a b h tyInt eSar

/-- ROTL (R159 to R161). -/
def execRotl (d : Dst) (a : Src) (b : Src2) (h : Hold) (s : State) : Out := laneTwo s d a b h tyInt eRotl

/-- NEG (R162, R163). -/
def execNeg (d : Dst) (a : Src) (h : Hold) (s : State) : Out := laneOne s d a h okArith eNeg

/-- ABS (R162, R163). -/
def execAbs (d : Dst) (a : Src) (h : Hold) (s : State) : Out := laneOne s d a h okArith eAbs

/-- NOT (R162, R163). -/
def execNot (d : Dst) (a : Src) (h : Hold) (s : State) : Out := laneOne s d a h okAny eNot

/-- CLZ (R162, R163). -/
def execClz (d : Dst) (a : Src) (h : Hold) (s : State) : Out := laneOne s d a h tyInt eClz

/-- POPC (R162, R163). -/
def execPopc (d : Dst) (a : Src) (h : Hold) (s : State) : Out := laneOne s d a h tyInt ePopc

/-- BREV (R162, R163). -/
def execBrev (d : Dst) (a : Src) (h : Hold) (s : State) : Out := laneOne s d a h tyInt eBrev

/-- RCP (R162, R163). -/
def execRcp (d : Dst) (a : Src) (h : Hold) (s : State) : Out := laneOne s d a h tyFp eRcp

/-- RSQ (R162, R163). -/
def execRsq (d : Dst) (a : Src) (h : Hold) (s : State) : Out := laneOne s d a h tyFps eRsq

/-- SQRT (R162, R163). -/
def execSqrt (d : Dst) (a : Src) (h : Hold) (s : State) : Out := laneOne s d a h tyFp eSqrt

/-- EXP2 (R162, R163). -/
def execExp2 (d : Dst) (a : Src) (h : Hold) (s : State) : Out := laneOne s d a h tyFps eExp2

/-- LOG2 (R162, R163). -/
def execLog2 (d : Dst) (a : Src) (h : Hold) (s : State) : Out := laneOne s d a h tyFps eLog2

/-- LN (R162, R163). -/
def execLn (d : Dst) (a : Src) (h : Hold) (s : State) : Out := laneOne s d a h tyFps eLn

/-- FRACT (R162, R163). -/
def execFract (d : Dst) (a : Src) (h : Hold) (s : State) : Out := laneOne s d a h tyFp eFract

/-- ROUNDI (R162, R163). -/
def execRoundi (d : Dst) (a : Src) (h : Hold) (s : State) : Out := laneOne s d a h tyFp eRoundi

/-- CLASS pushes one 32-bit entry, also under f64 (R162, R164). -/
def execClassF (d : Dst) (a : Src) (h : Hold) (s : State) : Out :=
  laneOneBy s d a h tyFp (regsWide s.wave.regs) false fun r x =>
    let t := curTy r
    Lanes.of fun l =>
      match fmtOf t with
      | some f => map1 t (classMask f) x[l]
      | none => 0

/-- MAD (R165). -/
def execMad (d : Dst) (a b c : Src) (s : State) : Out :=
  laneThree s d a b c okArith (regsWide s.wave.regs) fun r x y z => map3 (curTy r) (eMad (arithOf r (curTy r))) x y z

/-- BFX (R165): the offset and the width are read at 32 bits. -/
def execBfx (d : Dst) (a b c : Src) (s : State) : Out :=
  laneThree s d a b c tyScal false fun r x y z =>
    map1 (curTy r) (fun e => eBfx (arithOf r (curTy r)) e (y.toNat % 256) (z.toNat % 256)) x

/-- BFI (R165): the inserted bits, the offset and the width are read at 32 bits; under i64 and n64 the bits of y above bit 31 count as 0 where the width reaches them (log entry 45). -/
def execBfi (d : Dst) (a b c : Src) (s : State) : Out :=
  laneThree s d a b c tyScal false fun r x y z =>
    map1 (curTy r) (fun e => eBfi (arithOf r (curTy r)) e y.toNat (z.toNat % 256) (z.toNat / 256 % 256)) x

/-- LEA (R166): the first source is read at 32 bits. -/
def execLea (d : Dst) (a : Src) (b : Src2) (sh : Fin 8) (h : Hold) (s : State) : Out :=
  let w := regsWide s.wave.regs
  checked s ([.src a false] ++ useSrc2 b w ++ [.dst d w]) (tyIn s.wave.regs tyScal) fun r =>
    let x := srcLanes r s.wave.ids.wave.val a false
    let y := src2Lanes r s.wave.ids.wave.val b w
    let f := fun (l : Fin 32) => BitVec.ofNat 64 (eLea (arithOf r (curTy r)) x[l].toNat y[l].toNat sh.val)
    laneFinish r 4 d h ⟨x, false, y, w⟩ (Lanes.of f) w

/-! ### Comparison and selection -/

/-- Whether a type admits a condition of CMP (R167). -/
def cmpTyOk (c : CmpOp) (t : Ty) : Bool := tyFp t || (tyInt t && c != .ord && c != .unord)

/-- The mask element of CMP. -/
def cmpElem (t : Ty) (c : CmpOp) (x y : Nat) : Nat := if condHolds c (elemOrder t x y) then 2 ^ tyBits t - 1 else 0

/-- Whether a condition holds in every element of a lane. -/
def cmpLane (t : Ty) (c : CmpOp) (x y : W64) : Bool :=
  (List.range (tyCount t)).all fun i =>
    condHolds c (elemOrder t (elemAt (tyBits t) x.toNat i) (elemAt (tyBits t) y.toNat i))

/-- CMP (R167). -/
def execCmp (d : Dst) (a : Src) (b : Src2) (c : CmpOp) (h : Hold) (s : State) : Out :=
  let w := regsWide s.wave.regs
  checked s ([.src a w] ++ useSrc2 b w ++ [.dst d w]) (tyIn s.wave.regs (cmpTyOk c)) fun r =>
    let x := srcLanes r s.wave.ids.wave.val a w
    let y := src2Lanes r s.wave.ids.wave.val b w
    let t := curTy r
    let v := Lanes.of fun l => map2 t (cmpElem t c) x[l] y[l]
    writePred (laneFinish r 4 d h ⟨x, w, y, w⟩ v w) 1 (activeMask r) (maskOf fun l => cmpLane t c x[l] y[l])

/-- SEL (R168). -/
def execSel (d : Dst) (a : Src) (b : Src2) (p : PReg) (h : Hold) (s : State) : Out :=
  let w := regsWide s.wave.regs
  checked s ([.src a w] ++ useSrc2 b w ++ [.dst d w]) (tyIn s.wave.regs okAny) fun r =>
    let x := srcLanes r s.wave.ids.wave.val a w
    let y := src2Lanes r s.wave.ids.wave.val b w
    let v := Lanes.of fun l => if (predMask r p).getLsbD l.val then x[l] else y[l]
    laneFinish r 4 d h ⟨x, w, y, w⟩ v w

/-! ### Predicates (R169) -/

/-- A predicate instruction: the bits of active lanes are written. -/
def predWrite (r : Regs) (p : PReg) (v : W32) : Regs := writePred (retire r 4) p (activeMask r) v

/-- PSET (R169). -/
def execPset (p : PReg) (a : Src) (s : State) : Out :=
  checked s [.src a false] true fun r =>
    let x := srcLanes r s.wave.ids.wave.val a false
    predWrite r p (maskOf fun l => x[l] != 0)

/-- PAND (R169). -/
def execPand (p : PReg) (g1 g2 : Guard) (s : State) : Out :=
  .next (onRegs s fun r => predWrite r p (guardMask r g1.toNat &&& guardMask r g2.toNat))

/-- POR (R169). -/
def execPor (p : PReg) (g1 g2 : Guard) (s : State) : Out :=
  .next (onRegs s fun r => predWrite r p (guardMask r g1.toNat ||| guardMask r g2.toNat))

/-- PNOT (R169). -/
def execPnot (p : PReg) (g : Guard) (s : State) : Out :=
  .next (onRegs s fun r => predWrite r p (~~~ guardMask r g.toNat))

/-! ### Conversion, packing, microscaling (R170 to R174) -/

/-- The target type of CVT; none where it is not a type (R170). -/
def cvtTarget (r : Regs) (k : KReg) : Option Ty := if r.k[k].toNat < 32 then tyOf r.k[k].toNat else none

/-- CVT (R170). -/
def execCvt (d : Dst) (a : Src) (k : KReg) (h : Hold) (s : State) : Out :=
  let w := regsWide s.wave.regs
  let target := cvtTarget s.wave.regs k
  let tw := target.any tyWide
  checked s [.src a w, .dst d tw] ((regsTy s.wave.regs).isSome && target.isSome) fun r =>
    let x := srcLanes r s.wave.ids.wave.val a w
    let t := curTy r
    let u := target.getD .i32
    let one := fun (v : W64) => BitVec.ofNat 64 (convert t u (modeRound r.mode) (modeSat r.mode) (elemAt (tyBits t) v.toNat 0))
    laneFinish r 4 d h ⟨x, w, Lanes.all (bcastK r k w), w⟩ (Lanes.of fun l => one x[l]) tw

/-- PACK (R171). -/
def execPack (d : Dst) (a : Src) (b : Src2) (h : Hold) (s : State) : Out :=
  let w := regsWide s.wave.regs
  checked s ([.src a w] ++ useSrc2 b w ++ [.dst d w]) (tyIn s.wave.regs fun t => (partner t).isSome) fun r =>
    let x := srcLanes r s.wave.ids.wave.val a w
    let y := src2Lanes r s.wave.ids.wave.val b w
    laneFinish r 4 d h ⟨x, w, y, w⟩ (Lanes.of fun l => packLane (arithOf r (curTy r)) x[l] y[l]) w

/-- UNPACK pushes a 64-bit value (R172). -/
def execUnpack (d : Dst) (a : Src) (h : Hold) (s : State) : Out :=
  laneOneBy s d a h (fun t => (partner t).isSome) (regsWide s.wave.regs) true fun r x =>
    Lanes.of fun l => unpackLane (curTy r) x[l]

/-- The values that MXQ delivers, before the mask of R143. -/
def mxqLanes (r : Regs) (x : Lanes W64) : Lanes W64 :=
  let act := activeMask r
  let q := mxQuant (rmodeOf (modeRound r.mode) 4) (laneList.map fun l =>
    if act.getLsbD l.val then some (x[l].toNat % 2 ^ 32) else none)
  Lanes.of fun l =>
    if l.val ≤ 3 then BitVec.ofNat 64 (packElems 4 ((q.2.drop (8 * l.val)).take 8))
    else if l.val = 4 then BitVec.ofNat 64 q.1
    else 0

/-- MXQ (R173). -/
def execMxq (d : Dst) (a : Src) (h : Hold) (s : State) : Out := laneOneBy s d a h (· == .f32) false false mxqLanes

/-- MXDQ (R174). -/
def execMxdq (d : Dst) (a : Src) (b : Src2) (h : Hold) (s : State) : Out :=
  checked s ([.src a false] ++ useSrc2 b false ++ [.dst d false]) (tyIn s.wave.regs (· == .f32)) fun r =>
    let x := srcLanes r s.wave.ids.wave.val a false
    let y := src2Lanes r s.wave.ids.wave.val b false
    let e := fun (l : Fin 32) => elemAt 4 (x[(Fin.ofNat 32 (l.val / 8) : Fin 32)]).toNat (l.val % 8)
    let v := Lanes.of fun l => BitVec.ofNat 64
      (mxDequant (rmodeOf (modeRound r.mode) 32) (modeSat r.mode) (y[4].toNat % 256) (e l))
    laneFinish r 4 d h ⟨x, false, y, false⟩ v false

end Sys2Proof.Machine
end

