-- ==== Sys2Proof/Machine/Access.lean ====
section
/-!
DEFINITION. Access to memory by lanes: the policy word (R245, R246), the checks of R236 and R255, reads, writes and atomic steps at one place (R257 to R261, R279), the acknowledgement of stores (R281).
-/

namespace Sys2Proof.Machine

/-! ### The policy word (R245) -/

/-- A policy word that breaks R245. -/
def policyBad (x : W64) : Bool :=
  hi32 x != 0 || 5 < x.toNat % 8 || bitsOf x.toNat 7 5 != 0 || bitsOf x.toNat 31 25 != 0

def polScope (x : W64) : Nat := x.toNat % 8
def polAcquire (x : W64) : Bool := x.getLsbD 3
def polRelease (x : W64) : Bool := x.getLsbD 4
def polNol1 (x : W64) : Bool := x.getLsbD 24

/-- The eviction class of a virtual line address (R246). -/
def evictClass (x : W64) (va : Nat) : Fin 3 :=
  let h := [bitsOf va 14 7, bitsOf va 22 15, bitsOf va 30 23, bitsOf va 38 31, bitsOf va 46 39, bitsOf va 53 47].foldl
    (fun a b => a ^^^ b) 0
  if h < bitsOf x.toNat 15 8 then 0 else if bitsOf x.toNat 23 16 ≤ h then 2 else 1

/-! ### Where a unit lies -/

/-- What an access does: a load, a store, an atomic. -/
inductive Use where
  | load | store | atomic
  deriving DecidableEq, Repr

/-- Step 1 of R236 for a range of bytes: the window of its first byte, when the whole range lies there. -/
def rangeWindow (s : State) (a n : Nat) : Except Cause Win :=
  let w := windowOf s a
  let e := windowOf s ((a + n - 1) % 2 ^ 64)
  let same : Bool := match w, e with
    | .global _, .global _ | .own _, .own _ | .aperture _ _, .aperture _ _ | .remote _ _, .remote _ _ => true
    | _, _ => false
  if w == .bad || e == .bad then .error 0x19
  else if !same then .error 0x1C
  else match w with
    | .remote rank _ => if rankPresent s rank then .ok w else .error 0x45
    | _ => .ok w

/-- A translation of the issuing wave with its performance events (R325). -/
def waveTranslate (s : State) (va : Nat) (acc : Access) : Tr × State :=
  onRelease s (coreTranslate s s.wave.ids.core (some s.wave.ids.gang) s.wave.ids.part va acc)

/-- The checks of R236 and R255 on a unit of n bytes. -/
def checkUnit (s : State) (a n : Nat) (u : Use) : Checked × State :=
  let aligned : Bool := a % n == 0
  match rangeWindow s a n with
  | .error c => (.fail c, s)
  | .ok (.own off) =>
    if off + n > s.wave.psize then (.fail 0x1B, s)
    else if !aligned then (.fail 0x18, s)
    else if u == .atomic then (.fail 0x1E, s)
    else (.ok (.own off), s)
  | .ok (.aperture slot off) =>
    match apertureAt s s.wave.ids.gang slot off n with
    | none => (.fail 0x1A, s)
    | some g =>
      if !aligned then (.fail 0x18, s)
      else if u != .load && overlapsBar g off n then (.fail 0x2C, s)
      else (.ok (.spad g.index off), s)
  | .ok (.global va) =>
    if !aligned then (.fail 0x18, s)
    else
      match waveTranslate s va (if u == .load then .read else .write) with
      | (.fail c, t) => (.fail c, t)
      | (.held, t) => (.held, t)
      | (.ok pa, t) =>
        if u != .load && overlapsOwned t pa n then (.fail 0x3C, t)
        else if u != .store && lostRead t t.wave.ids.part (some t.wave.ids.gang) (bytesFrom pa n) then (.fail 0x4D, t)
        else (.ok (.mem pa va), t)
  | .ok (.remote _ _) => if !aligned then (.fail 0x18, s) else (.ok (.remote (BitVec.ofNat 64 a)), s)
  | .ok _ => (.fail 0x1C, s)

/-- The checks of the lanes of a mask, in ascending order. -/
def checkLanes (s : State) (act : W32) (ea : Lanes W64) (n : Nat) (u : Use) : List LaneAt × State :=
  (laneList.filter fun l => act.getLsbD l.val).foldl (fun (acc : List LaneAt × State) l =>
    let r := checkUnit acc.2 ea[l].toNat n u
    (acc.1 ++ [⟨l, ea[l], r.1⟩], r.2)) ([], s)

def anyHeld (l : List LaneAt) : Bool := l.any fun x => x.res == .held

/-- The failing lanes with their causes, and the lowest cause (R236). -/
def laneFails (l : List LaneAt) : List (LaneAt × Cause) :=
  l.filterMap fun x => match x.res with
    | .fail c => some (x, c)
    | _ => none

def lowestCause (l : List (LaneAt × Cause)) : Cause := l.foldl (fun m x => if x.2 < m then x.2 else m) 0xFF

/-- The trap that reports failing lanes (R236, R440). Lost data is no check of R236 or R255: a lane that would meet it has no record beside lanes that fail one, since the instruction then reads nothing, and alone it is no trap (R416). -/
def trapLanes (s : State) (l0 : List (LaneAt × Cause)) : State :=
  let checks := l0.filter fun x => x.2 != 0x4D
  let l := if checks.isEmpty then l0 else checks
  trapEntry s (lowestCause l) s.wave.regs.pc (l.map fun x => ⟨x.1.lane, x.1.addr, x.2, 0⟩)

/-- The places of the lanes that passed. -/
def placesOf (l : List LaneAt) : List (Fin 32 × Place) :=
  l.filterMap fun x => match x.res with
    | .ok p => some (x.lane, p)
    | _ => none

/-! ### Reads (R279, R287) -/

/-- Whether the issuing wave has its own write to a byte that its die has not applied. -/
def ownPending (s : State) (pa : Nat) : Bool :=
  s.lag.any fun r => recHas r pa && r.token == s.wave.ids.token && !recOn r (waveDie s.wave)

/-- The L1 line that serves the issuing wave's load of a byte (R279, case 4). -/
def l1Serves (s : State) (nol1 : Bool) (pa : Nat) : Option L1Line :=
  if nol1 || ownPending s pa then none else l1Find s s.wave (pa / 128)

/-- A byte of global memory as the issuing wave loads it. -/
def loadByte (s : State) (nol1 : Bool) (pa : Nat) : W8 :=
  let w := s.wave
  let past := viewByte s (waveDie w) w.ids.token pa
  match gangVersion s w.ids.gang pa with
  | some v => v
  | none =>
    match l1Serves s nol1 pa with
    | some l => (l.bytes[pa % 128]?).getD past
    | none => past

/-- The bytes of a unit of own memory of a lane (R239). -/
def ownBytes (w : Wave) (l : Fin 32) (off n : Nat) : List W8 :=
  (List.range n).map fun i => cellGet 0 w.priv (32 * (off + i) + l.val)

/-- The bytes of a unit at a place; a remote unit has none here. -/
def loadUnit (s : State) (nol1 : Bool) (l : Fin 32) (p : Place) (n : Nat) : List W8 :=
  match p with
  | .mem pa _ => (List.range n).map fun i => loadByte s nol1 (pa + i)
  | .own off => ownBytes s.wave l off n
  | .spad i off =>
    match findGroup s s.wave.ids.gang i.val with
    | some g => spadBytes g off n
    | none => List.replicate n 0
  | .remote _ => []

/-- What the read of a unit past L1 adds to the clock (R276). -/
def unitClk (s : State) (p : Place) (n : Nat) (v : Clk) : Clk :=
  match p with
  | .mem pa _ => (List.range n).foldl (fun v i => readClk s (waveDie s.wave) s.wave.ids.token (pa + i) v) v
  | .spad i off =>
    match findGroup s s.wave.ids.gang i.val with
    | some g => spadClkAt g off n v
    | none => v
  | _ => v

/-- What a load of a byte adds to the clock: the clock of the write whose value it returns (R276). -/
def loadClk (s : State) (nol1 : Bool) (pa : Nat) (v : Clk) : Clk :=
  if (gangVersion s s.wave.ids.gang pa).isSome then v
  else match l1Serves s nol1 pa with
    | some l => clkJoin v (cellGet {} l.clks pa)
    | none => readClk s (waveDie s.wave) s.wave.ids.token pa v

/-- The same for a unit. -/
def loadUnitClk (s : State) (nol1 : Bool) (p : Place) (n : Nat) (v : Clk) : Clk :=
  match p with
  | .mem pa _ => (List.range n).foldl (fun v i => loadClk s nol1 (pa + i) v) v
  | p => unitClk s p n v

/-- Whether a write of the wave's group that an acquire covers stands before the byte (R278). -/
def coverBlocks (s : State) (pa : Nat) : Bool :=
  s.lag.any fun r => recHas r pa && !recOn r (waveDie s.wave) && s.wave.covers.contains (r.home, r.stamp)

/-- The MXMON commands of the issuing wave whose writes are not performed: they are stores of the wave (R310). -/
def pendingMons (s : State) : List MxCmd :=
  let c := s.cores[s.wave.ids.core]
  ((c.mxWait ++ c.mxQueue).filter fun e => e.who.token == s.wave.ids.token && (match e.cmd with | .mon _ _ _ _ => true | _ => false)).map
    fun e => e.cmd

/-- Whether the write of an MXMON of the wave stands before a unit: accesses to one location keep program order (R265, R310). -/
def monBlocks (s : State) (p : Place) (n : Nat) : Bool :=
  (pendingMons s).any fun x =>
    match x, p with
    | .mon _ _ pas _, .mem pa _ => pas.any fun q => decide (q < pa + n) && decide (pa < q + 8)
    | .mon _ a _ _, .spad i off =>
      (match windowOf s a.toNat with
        | .aperture slot o => slot == i.val && decide (o < off + n) && decide (off < o + 24)
        | _ => false)
    | _, _ => false

/-- Whether a load of a unit must wait for a covered write (R278, R279, case 2), or for one of its wave's own. -/
def unitBlocked (s : State) (p : Place) (n : Nat) : Bool :=
  monBlocks s p n ||
    match p with
    | .mem pa _ => (List.range n).any fun i => floorBlocks s (waveDie s.wave) s.wave.floor (pa + i) || coverBlocks s (pa + i)
    | _ => false

/-- Whether the read of a unit returns the value of a completion update (R286). -/
def unitJoins (s : State) (p : Place) (n : Nat) : Bool :=
  match p with
  | .mem pa _ => readsJoin s (bytesFrom pa n)
  | .spad i off => (findGroup s s.wave.ids.gang i.val).any fun g => (bytesFrom off n).any fun o => g.spadJoin.contains o
  | _ => false

/-- The lines of global places, each once, with a virtual address in it. -/
def memLines (l : List (Fin 32 × Place)) : List (Nat × Nat) :=
  l.foldl (fun acc x =>
    match x.2 with
    | .mem pa va => if acc.any fun y => y.1 == pa / 128 then acc else acc ++ [(pa / 128, va)]
    | _ => acc) []

/-- The lines of own memory that n bytes at an offset touch (R239). -/
def ownLines (off n : Nat) : List Nat := (List.range ((off + n - 1) / 4 + 1 - off / 4)).map fun i => off / 4 + i

/-- A line of own memory enters L1 for a load, with the events 5 and 6 of R325. -/
def loadPriv (s : State) (line : Nat) : State :=
  let c := s.wave.ids.core
  let hit := s.cores[c].l1p.contains (s.wave.ids.token, line)
  let t := countEvent s c (some s.wave.ids.gang) (if hit then 5 else 6) 1
  privFill t t.wave line

/-- The lines of own memory of a load's lanes, each once, enter L1. -/
def loadPrivs (s : State) (l : List (Fin 32 × Place)) (n : Nat) : State :=
  ((l.flatMap fun x => match x.2 with | .own off => ownLines off n | _ => []).eraseDups).foldl loadPriv s

/-- The lines that a load finds absent enter L1 and L2, with the events 5 to 8 of R325. A load with NOL1 looks no line up in L1, and counts neither 5 nor 6 (DESIGN CHOICE, log entry 18). -/
def fetchLines (s : State) (pol : W64) (l : List (Fin 32 × Place)) : State :=
  let d := waveDie s.wave
  let k := some s.wave.ids.gang
  let c := s.wave.ids.core
  (memLines l).foldl (fun t x =>
    let hit := !polNol1 pol && (l1Find t t.wave x.1).isSome
    if hit then countEvent t c k 5 1
    else
      let t1 := if polNol1 pol then t else countEvent t c k 6 1
      let t2 := useL2 t1 c k d x.1 (some (evictClass pol x.2))
      if polNol1 pol then t2 else l1Fill t2 c x.1) s

/-- The lines that a store or an atomic of the lanes reaches, each once, in the L2 of their home dies (R244, R246). -/
def reachLines (s : State) (pol : W64) (l : List (Fin 32 × Place)) : State :=
  (memLines l).foldl (fun t x =>
    useL2 t t.wave.ids.core (some t.wave.ids.gang) (homeOf (x.1 * 128)) x.1 (some (evictClass pol x.2))) s

/-! ### Observers (R426, R427) -/

/-- The task of the issuing wave. -/
def taskOf (s : State) : TaskKey := ⟨s.wave.ids.part, s.wave.ids.tid⟩

/-- Lanes whose lines carry tags of tasks of other gangs: those that R427 reports at ESCAPE_LIMIT are every lane that reads such a line, linked already or not (log entry 43). -/
def taggedLanes (s : State) (l : List LaneAt) : List LaneAt :=
  l.filter fun x => match x.res with
    | .ok (.mem pa _) => s.tags.any fun t => t.1 == pa / 128 && (s.tasks.any fun y => taskKey y == t.2 && y.gang != s.wave.ids.gang)
    | _ => false

/-- The links that a read of a versioned task makes. -/
def observe (s : State) (lines : List Nat) : Observe :=
  if isVersioned s then observeTags s (taskOf s) s.wave.ids.gang lines else .ok s

/-- A read of the issuing wave goes on with the links that it makes, or traps: ESCAPE_LIMIT in the lanes given, WFT_FULL where the table has no room for a link, or is held for the host (R399, R427). -/
def observing (s : State) (lines : List Nat) (limit : Unit → State) (k : State → State) : State :=
  match observe s lines with
  | .ok t => k t
  | .limit => limit ()
  | .full => trapWave s 0x2D
  | .host => holdWave s 0x2D

/-! ### Writes -/

/-- A task's version area is full (R432): in host-assisted mode its waves are held; a task of which no wave is left is held all the same. -/
def versionFullFor (s : State) (p : Fin 24) (tid : W64) (k : GangKey) : State :=
  let mine := (liveWaves s).filter fun w => w.ids.tid == tid && w.ids.part == p
  let toks := mine.map fun w => w.ids.token
  let freed := (mine.any fun w => w.released.isSome) || (findTask s tid p).any fun t => t.freed
  if (s.parts[p]).pfmode.getLsbD 4 && !freed then
    if (s.parts[p]).parked.any fun i => i.tid == tid then s
    else
      let hold0 := fun (x : Wave) => if x.ids.tid = tid ∧ x.ids.part = p ∧ x.run ≠ .ended ∧ x.run ≠ .evicted then { x with run := .held } else x
      report (tellHost (onPart (onWaves s hold0) p fun q => { q with parked := ⟨tid, 0x49, toks⟩ :: q.parked }) (.parked p tid 0x49))
        (some p) 1 0x49 tid.toNat
  else contain (markFull (report s (some p) 1 0x49 (taskInfo s tid [k])) tid p) [k] 0x49 true

/-- The version area is full for a store of the issuing wave (R432). -/
def versionFull (s : State) : State := versionFullFor s s.wave.ids.part s.wave.ids.tid s.wave.ids.gang

/-- A write of the issuing wave that is performed at once: stamped, and its stamp joins the clock (R275, R276). -/
def waveStamp (s : State) (bytes : List (Nat × W8)) : State :=
  let r := stampUnit s (some s.wave.ids.core) s.wave.ids.token s.wave.clk bytes
  onWave r.1 fun w => { w with clk := clkRaise w.clk r.2.1 r.2.2 }

/-- The store of one unit; none when the version area is full. -/
def storeUnit (s : State) (versioned : Bool) (l : Fin 32) (p : Place) (bytes : List W8) : Option State :=
  match p with
  | .mem pa _ =>
    if versioned then versionUnit s s.wave.ids.part s.wave.ids.gang s.wave.ids.tid (keyed pa bytes)
    else some (waveStamp s (keyed pa bytes))
  | .own off =>
    let t := (ownLines off bytes.length).foldl (fun t i => privFill t t.wave i) s
    some (onWave t fun w => { w with
      priv := (keyed off bytes).foldl (fun m b => cellSet 0 m (32 * b.1 + l.val) b.2) w.priv })
  | .spad i off => some (spadWrite s s.wave.ids.gang i off bytes s.wave.clk)
  | .remote _ => some s

/-! ### Acknowledgement (R281) -/

/-- Whether every earlier store of the issuing wave is acknowledged at a scope. -/
def storesAcked (s : State) (scope : Nat) : Bool :=
  let t := s.wave.ids.token
  let d := waveDie s.wave
  (pendingMons s).isEmpty && (s.lag.all fun r => r.token != t || (if scope ≥ 4 then r.on0 && r.on1 else recOn r d)) &&
    s.wave.flights.all fun f => !(f.remote && f.path == .store)

/-- Whether an operation of a path finds room in its counter (R268). -/
def flightRoom (s : State) (p : FlightPath) : Bool := decide (flightCount s.wave p < 63)

/-- Whether an access that performs a lane must wait for room in its counter (R268). -/
def noRoom (s : State) (ps : List (Fin 32 × Place)) (p : FlightPath) : Bool := !ps.isEmpty && !flightRoom s p

/-- The path of a load (R268): aperture loads alone count in IFAL; for lanes that span the aperture and private memory R268 names no counter, and the model takes IFGL (DESIGN CHOICE, log entry 43). -/
def loadPath (l : List (Fin 32 × Place)) : FlightPath :=
  if l.all fun x => match x.2 with | .spad _ _ => true | _ => false then .aload else .gload

/-- Whether some lane's place is outside own memory, so that ORDER counts (R266). -/
def ordered (l : List (Fin 32 × Place)) : Bool := l.any fun x => match x.2 with | .own _ => false | _ => true

/-- The acquire part of an access (R266, R278): at scope gang or wider, and where a completion update was read, which is a join (R286), it steps the epoch; at scope wave or group it covers the group's writes. An access that performs no lane acquires nothing (DESIGN CHOICE, log entry 43). -/
def acquirePart (s : State) (pol : W64) (l : List (Fin 32 × Place)) (joins : Bool) : State :=
  if polAcquire pol && ordered l then
    if decide (2 ≤ polScope pol) || joins then acquire s else groupAcquire s
  else s

/-- Whether a store must wait for the write of an MXMON of its wave: the stores of a wave keep their order (R265, R310). -/
def monWaits (s : State) (l : List (Fin 32 × Place)) : Bool := ordered l && !(pendingMons s).isEmpty

/-- Whether the release part of an access must wait (R266). -/
def releaseWaits (s : State) (pol : W64) (l : List (Fin 32 × Place)) : Bool :=
  polRelease pol && ordered l && !storesAcked s (polScope pol)

/-! ### Other packages (R444, R445) -/

/-- The lanes of an access that go to another package. -/
def remoteLanes (l : List (Fin 32 × Place)) : List (Fin 32 × W64) :=
  l.filterMap fun x => match x.2 with
    | .remote a => some (x.1, a)
    | _ => none

/-- The remote access that the instruction at the program counter waits for: sent, with the answers that have come. One that a trap left behind is not the handler's. -/
def blockingWait (w : Wave) : Option RemoteWait :=
  w.remoteOut.find? fun r => r.blocking && r.pc == w.regs.pc && r.handler == w.handler

/-- The remote operation of a path that the wave waited for has returned. -/
def lowerRemote (w : Wave) (p : FlightPath) : Wave :=
  match w.flights.find? fun f => f.remote && f.path == p with
  | some f => { w with flights := w.flights.erase f }
  | none => w

def dropBlocking (w : Wave) : Wave :=
  match blockingWait w with
  | some r => { w with remoteOut := w.remoteOut.erase r }
  | none => w

/-- A blocking access whose instruction the program has left: its answers are taken, and change nothing. -/
def forget (w : Wave) (r : RemoteWait) : Wave :=
  let f := w.flights.find? fun f => f.remote && (f.path == .gload || f.path == .aload)
  { w with
    remoteOut := w.remoteOut.map fun x => if x = r then { x with blocking := false, addrs := [] } else x
    flights := match f with
      | some y => w.flights.erase y
      | none => w.flights }

/-- A wave at an instruction other than those that it had issued forgets what they wait for. -/
def forgetLeft (w : Wave) : Wave :=
  (w.remoteOut.filter fun r => r.blocking && r.handler == w.handler && r.pc != w.regs.pc).foldl forget w

/-- The rank and the offset of a fabric-global address (R230). -/
def rankOf (a : W64) : Nat := a.toNat / 2 ^ 52 % 1024
def offsetOf (a : W64) : W64 := BitVec.ofNat 64 (a.toNat % 2 ^ 52)

/-- DPID of a partition. -/
def dpidOf (s : State) (p : Fin 24) : W16 := (s.parts[p]).dpid.setWidth 16

/-- The access that the wave waited for has returned, on its path. -/
def dropWaited (w : Wave) (p : FlightPath) : Wave := if (blockingWait w).isSome then lowerRemote (dropBlocking w) p else w

/-- The requests of an access's lanes. -/
def laneRequests (l : List (Fin 32 × W64)) (req : Fin 32 → W64 → RemoteReq) : List (Nat × RemoteReq) :=
  l.map fun x => (rankOf x.2, req x.1 x.2)

/-- A remote access of the issuing wave as it is sent, with n requests. -/
def newWait (s : State) (ls : List LaneAt) (l : List (Fin 32 × W64)) (blocking : Bool) (n : Nat) : RemoteWait :=
  ⟨l, ls, blocking, s.wave.regs.pc, s.wave.handler, s.dies[waveDie s.wave].clock, List.replicate n none⟩

/-- A blocking access is sent, and the wave waits (R444). -/
def sendBlocking (s : State) (ls : List LaneAt) (l : List (Fin 32 × W64)) (reqs : List (Nat × RemoteReq)) (p : FlightPath) : State :=
  stall (onWave (sendRequests s reqs) fun w =>
    raiseFlight { w with remoteOut := w.remoteOut ++ [newWait s ls l true reqs.length] } p true)

/-- A write to another package is sent and not waited for (R281, R445). -/
def sendWrite (s : State) (l : List (Fin 32 × W64)) (req : Fin 32 → W64 → RemoteReq) : State :=
  onWave (sendRequests s (laneRequests l req)) fun w => { w with remoteOut := w.remoteOut ++ [newWait s [] l false l.length] }

/-- Cause and sub-cause of an answer that reports a failure. -/
def answerFault (x : RemoteAnswer) : Option (Cause × W8) :=
  match x with
  | .failed sub => some (0x41, BitVec.ofNat 8 sub)
  | .late => some (0x42, 0)
  | .copied (r :: _) _ => some (0x41, BitVec.ofNat 8 r.2)
  | _ => none

/-- The values of an answer. -/
def answerVals (x : Option RemoteAnswer) : List W64 :=
  match x with
  | some (.data l) => l
  | _ => []

/-- A blocking access that failed takes its fault in the remote lanes that failed, each with its own cause and sub-cause; the lowest cause is the trap's (R236, R445). -/
def trapRemote (s : State) (l : List ((Fin 32 × W64) × (Cause × W8))) (p : FlightPath) : State :=
  trapEntry (onWave s fun w => dropWaited w p) (l.foldl (fun m x => if x.2.1 < m then x.2.1 else m) 0xFF) s.wave.regs.pc
    (l.map fun x => ⟨x.1.1, x.1.2, x.2.1, x.2.2⟩)

/-- The value that the answers give a remote lane, where each lane had a request of its own. -/
def answerAt (l : List (Fin 32 × W64)) (vals : List (List W64)) (lane : Fin 32) : W64 :=
  ((l.zip vals).find? fun x => x.1.1 == lane).map (fun x => x.2.headD 0) |>.getD 0

end Sys2Proof.Machine
end

