-- ==== Sys2Proof/Machine/Engine.lean ====
section
/-!
DEFINITION. What the engines share: translation of ranges, engine records (R419, R478), completion updates (R305, R351), reads and writes of an operation (R283 to R285, R320, R350).
-/

namespace Sys2Proof.Machine

/-! ### Ranges -/

/-- How the translation of a range ends: pages of 32 KiB with their physical bases, a failing address, a page held for the host. -/
inductive Pages where
  | ok (l : List (Nat × Nat))
  | fail (c : Cause) (va : Nat)
  | held
  deriving DecidableEq, Repr

/-- The 32 KiB pages of a range. -/
def pagesOf (va n : Nat) : List Nat :=
  (List.range ((va + n - 1) / 2 ^ 15 + 1 - va / 2 ^ 15)).map fun i => va / 2 ^ 15 + i

/-- The pages of a range from `va` translated in ascending order for a gang, or for none. -/
def transPages (c : Fin 192) (k : Option GangKey) (p : Fin 24) (va : Nat) (acc : Access) : List Nat → State → Pages × State
  | [], s => (.ok [], s)
  | page :: rest, s =>
    let a := max va (page * 2 ^ 15)
    match coreTranslate s c k p a acc with
    | (.fail x, t) => (.fail x a, t)
    | (.held, t) => (.held, t)
    | (.ok pa, t) =>
      match transPages c k p va acc rest t with
      | (.ok l, u) => (.ok ((page, pa - a % 2 ^ 15) :: l), u)
      | r => r

/-- A physical address through translated pages. -/
def paThrough (l : List (Nat × Nat)) (va : Nat) : Nat :=
  (((l.find? fun q => q.1 == va / 2 ^ 15).map fun q => q.2).getD 0) + va % 2 ^ 15

/-! ### Engine records (R419, R478) -/

/-- INFO of cause group 0 for an issuer. -/
def issuerInfo (who : Issuer) : Nat := (who.tid.getD 0).toNat % 2 ^ 48 + who.token.toNat * 2 ^ 48

/-- One engine record written to the entry at physical address `sb`. -/
def putRecord (s : State) (sb : Nat) (r : W64 × Cause) : State :=
  let b := (memByte s (sb + 608)).toNat
  let n := b % 64
  if 32 ≤ n then pokeNat s (sb + 608) 1 (b / 128 * 128 + 64 + n)
  else
    let s1 := pokeNat s (sb + 320 + 8 * n) 8 r.1.toNat
    pokeNat (pokeNat s1 (sb + 576 + n) 1 r.2.toNat) (sb + 608) 1 (b / 64 * 64 + n + 1)

/-- Engine records that wait for their page: the wave that issued the operation is held for the host, as at an access of its own (R41, R237, R478). -/
def holdRecords (s : State) (who : Issuer) (l : List (W64 × Cause)) : State :=
  let tid := who.tid.getD 0
  let hold1 := fun (w : Wave) => if w.run = .evicted ∨ w.run = .ended then w else { w with run := .held }
  let s1 := onToken { s with recWaits := s.recWaits ++ [(who, l)] } who.token hold1
  tellHost (onPart s1 who.part fun p => { p with parked := ⟨tid, 0x20, [who.token]⟩ :: p.parked }) (.parked who.part tid 0x20)

/-- Engine records written; where they cannot be, the gang is contained (R478). `final` says that the host has released them: a page still unmapped fails then. -/
def writeEngineRecords (s : State) (who : Issuer) (l : List (W64 × Cause)) (final : Bool) : State :=
  let va := (s.parts[who.part]).sbbase.toNat + (who.core.val * 48 + who.slot.val) * 1024
  let bad := fun (t : State) (c : Cause) =>
    contain (report t (some who.part) 0 c (issuerInfo who)) (who.gang.toList) c false
  match coreTranslate s who.core who.gang who.part va .write with
  | (.fail c, t) => bad t c
  | (.held, t) => if final then bad t 0x20 else holdRecords t who l
  | (.ok sb, t) => l.foldl (fun t r => putRecord t sb r) t

/-- Engine records of an operation; where data are lost the gang is contained (R10). A kick of the host has no wave slot. -/
def engineRecords (s : State) (who : Issuer) (l : List (W64 × Cause)) : State :=
  if l = [] ∨ who.token = 0 then s
  else if l.any fun r => r.2 == 0x4D then dataLost s who.part who.gang.toList (physAddr s who.part ((l.headD (0, 0)).1.toNat))
  else writeEngineRecords s who l false

/-- The side-buffer entry of an issuer's wave slot, where it is mapped (R419). -/
def entryPa (s : State) (who : Issuer) : Option Nat :=
  let va := (s.parts[who.part]).sbbase.toNat + (who.core.val * 48 + who.slot.val) * 1024
  match walkPage s who.part va with
  | .leaf lv _ pte => some (pte % 2 ^ 39 / 4096 * 4096 + va % 2 ^ pageBits lv)
  | _ => none

/-- Whether the engine records of an issuer's wave slot are performed, as die d shows them: they come before the operation's completion (R285, R419). -/
def recordsDone (s : State) (who : Issuer) (d : Fin 2) : Bool :=
  (s.recWaits.all fun e => e.1.token != who.token) &&
    (entryPa s who).all fun sb => s.lag.all fun r => recOn r d || r.bytes.all fun b => decide (b.1 < sb + 320) || decide (sb + 609 ≤ b.1)

/-- A clock that covers the engine records of an issuer's wave slot (R285, R419). -/
def recordsClk (s : State) (who : Issuer) (v : Clk) : Clk := ((entryPa s who).map fun sb => latestClk s (sb + 320) 289 v).getD v

/-- Engine records that waited for a task's page go on when the host releases the task (R43, R478). -/
def releaseRecords (s : State) (p : Fin 24) (tid : W64) : State :=
  let mine := fun (e : Issuer × List (W64 × Cause)) => e.1.part == p && e.1.tid.getD 0 == tid
  (s.recWaits.filter mine).foldl (fun t e => writeEngineRecords t e.1 e.2 true)
    { s with recWaits := s.recWaits.filter fun e => !mine e }

/-! ### Completion (R305, R351) -/

/-- Whether a gang has ended: no longer there, or with its own task ended, its last wave or its last group gone (R27, R366, R368). -/
def gangOver (s : State) (k : GangKey) : Bool :=
  (findGang s k).isNone || s.tasks.any fun t => t.gang == k && t.group.isNone && t.ended

/-- A completion update that fails translation: recorded, and the gang is contained, or reported when it has ended (R305). -/
def completionFails (s : State) (who : Issuer) (a : W64) (c : Cause) : State :=
  let s1 := engineRecords s who [(a, c)]
  let tid := who.tid.getD 0
  match who.gang with
  | none => report s1 (some who.part) 1 c tid.toNat
  | some k =>
    if gangOver s1 k then report s1 (some who.part) 1 c tid.toNat
    else contain (report s1 (some who.part) 1 c (taskInfo s1 tid [k])) [k] c false

/-- The update of a completion object: an arrival of n bytes, on each masked slot for a multicast, or an add of 1. -/
def completeAt (s : State) (who : Issuer) (mask : Option W8) (a : W64) (n : Nat) (err : Bool) (v : Clk) : State :=
  match windowOf s a.toNat with
  | .aperture slot off =>
    match who.gang, mask with
    | none, _ => s
    | some k, none =>
      (match findGroup s k slot with
        | some g => engineArrives s k g.index off n err v
        | none => s)
    | some k, some m =>
      (List.finRange 8).foldl (fun t i => if m.getLsbD i.val then engineArrives t k i off n err v else t) s
  | .global va =>
    match coreTranslate s who.core who.gang who.part va .write with
    | (.ok pa, t) => if lostRead t who.part none (bytesFrom pa 8) then completionFails t who a 0x4D else counterBump t pa 1 err v
    | (.fail c, t) => completionFails t who a c
    | (.held, t) => completionFails t who a 0x20
  | _ => s

/-- The die of a completion object. -/
def objectDie (s : State) (who : Issuer) (a : W64) : Fin 2 :=
  match windowOf s a.toNat with
  | .global va =>
    (match walkPage s who.part va with
      | .leaf lv _ pte => homeOf (pte % 2 ^ 39 / 4096 * 4096 + va % 2 ^ pageBits lv)
      | _ => coreDie who.core)
  | _ => coreDie who.core

/-- The checks of a completion address at issue (R305), on its whole object (R231): a barrier's 16 bytes or a counter's 8. -/
def completionCheck (s : State) (k : GangKey) (a : Nat) : Option Cause :=
  match rangeWindow s a (match windowOf s a with | .aperture _ _ => 16 | _ => 8) with
  | .error c => some (if c = 0x45 then 0x1C else c)
  | .ok (.aperture slot off) =>
    if (apertureAt s k slot off 16).isNone then some 0x1A else if a % 16 ≠ 0 then some 0x18 else none
  | .ok (.global _) => if a % 8 ≠ 0 then some 0x18 else none
  | .ok _ => some 0x1C

/-- Where the table has room for the objects and links of an operation of a die's engine (R399). -/
def engineRoom (s : State) (who : Issuer) (d : Fin 2) (keys : List ObjKey) : Room := roomFor s (opDie s who.part d) who.part who.spill keys

def hasRoom (r : Room) : Bool := r == .onDie || r == .ext

/-- Whether the engine agent stops for the host, as a member of a cycle or for want of a table entry (R41, R396). -/
def engineStopped (s : State) (p : Fin 24) (agent : W32) : Bool := (s.parts[p]).parked.any fun i => i.tokens.contains agent

/-- In host-assisted mode an engine that finds no table entry stops, and the host is messaged (R41, R399). -/
def stopEngine (s : State) (who : Issuer) (agent : W32) : State :=
  if engineStopped s who.part agent then s
  else
    let tid := who.tid.getD 0
    tellHost (onPart s who.part fun p => { p with parked := ⟨tid, 0x2D, [agent]⟩ :: p.parked }) (.parked who.part tid 0x2D)

/-! ### What an operation reads and writes -/

/-- Whether the issuer's earlier writes are performed and applied on the engine's die (R284). -/
def forkReady (s : State) (who : Issuer) : Bool :=
  appliedOn s (coreDie who.core) who.writes &&
    ((findWave s who.token).all fun w => w.flights.all fun f => !(f.remote && f.path == .store))

/-- A byte of global memory that an operation reads (R279, R283, R287). -/
def opByte (s : State) (who : Issuer) (pa : Nat) : W8 := gangByte s who.gang (coreDie who.core) 0 pa

/-- Whether an operation must wait for a write that its floor covers (R279). -/
def opBlocked (s : State) (who : Issuer) (pa : Nat) : Bool := floorBlocks s (coreDie who.core) who.clk pa

/-- The clock after a byte is read (R276). -/
def opClk (s : State) (who : Issuer) (pa : Nat) (v : Clk) : Clk := readClk s (coreDie who.core) 0 pa v

/-- A clock that covers writes. -/
def coverWrites (v : Clk) (l : List (Fin 2 × Nat)) : Clk := l.foldl (fun v x => clkRaise v x.1 x.2) v

/-- Whether the issuer's task is versioned (R261). -/
def issuerVersioned (s : State) (who : Issuer) : Bool :=
  (who.tid.bind fun t => findTask s t who.part).any fun t => t.versioned && some t.gang == who.gang

/-- How a write of an operation ends: performed, with its stamp; or no room in the version area. -/
inductive OpWrite where
  | done (s : State) (stamp : List (Fin 2 × Nat))
  | full

/-- A write of an operation to global memory: the bytes of owned record lines are left out (R350). It reaches its line in its home die's L2 (R244). -/
def opStore (s : State) (who : Issuer) (pa : Nat) (bytes : List W8) (v : Clk) : OpWrite :=
  let l := (keyed pa bytes).filter fun b => !overlapsOwned s b.1 1
  if l = [] then .done s []
  else
    let s1 := useL2 s who.core who.gang (homeOf pa) (pa / 128) none
    if issuerVersioned s who then
      match versionUnit s1 who.part (who.gang.getD ⟨0, 0⟩) (who.tid.getD 0) l with
      | some t => .done t []
      | none => .full
    else
      let r := stampUnit s1 none 0 v l
      .done r.1 [r.2]

/-- A write of an operation to a scratchpad: the bytes of registered barriers are left out (R320). -/
def opSpad (s : State) (k : GangKey) (g : Group) (off : Nat) (bytes : List W8) (v : Clk) : State :=
  let l := (keyed off bytes).filter fun b => !overlapsBar g b.1 1
  onGroup s k g.index fun x =>
    { x with
      spad := cellsPut x.spad l
      spadJoin := stillLost x.spadJoin l
      spadClk := l.foldl (fun m b => cellSet {} m b.1 v) x.spadClk }

end Sys2Proof.Machine
end

