-- ==== Sys2Proof/Machine/MemInstr.lean ====
section
/-!
DEFINITION. The memory instructions (R251 to R269).
-/

namespace Sys2Proof.Machine

/-! ### Units and quads (R253, R254) -/

/-- The unit of an access in bytes (R253). -/
def unitOf (t : Ty) : Nat :=
  match t with
  | .i64 | .n64 | .f64 => 8
  | .i16 | .n16 => 2
  | .i8 | .n8 => 1
  | _ => 4

/-- A loaded unit as a lane value (R253). -/
def extendUnit (t : Ty) (bytes : List W8) : W64 :=
  let x := leNat bytes
  match t with
  | .i16 => ((BitVec.ofNat 16 x).signExtend 32).setWidth 64
  | .i8 => ((BitVec.ofNat 8 x).signExtend 32).setWidth 64
  | _ => BitVec.ofNat 64 x

/-- Word i of a quad operand (R254). -/
def quadWord (r : Regs) (wv : Nat) (c : Src) (l : Fin 32) (i : Nat) : W32 :=
  match c with
  | .q j => queueAt r (j.val + i) l
  | .n x => namedAt r (x.val + i) l
  | c => lo32 (srcAt r wv c false l)

/-- The 16 bytes of a quad operand. -/
def quadBytes (r : Regs) (wv : Nat) (c : Src) (l : Fin 32) : List W8 :=
  (List.range 4).flatMap fun i => leBytes 4 (quadWord r wv c l i).toNat

/-- The commit of four words: word 3 is pushed first, word 0 last (R254). -/
def commitQuad (r : Regs) (lanes : W32) (d : Dst) (v : Lanes (List W8)) : Regs :=
  let word := fun (i : Nat) => Lanes.of fun l =>
    if lanes.getLsbD l.val then BitVec.ofNat 32 (leNat ((v[l].drop (4 * i)).take 4)) else (0 : W32)
  let r1 := pushOne (pushOne (pushOne (pushOne r (word 3)) (word 2)) (word 1)) (word 0)
  match d with
  | .queue => r1
  | .n x => (List.range 4).foldl (fun q i =>
      if h : x.val + i < 40 then namedWrite q ⟨x.val + i, h⟩ lanes (word i) else q) r1

/-! ### Loads (R257) -/

/-- The addresses of a load. -/
def loadAddrs (s : State) (a b : Src) : Lanes W64 :=
  let r := s.wave.regs
  let wv := s.wave.ids.wave.val
  Lanes.of fun l => srcAt r wv a true l + (lo32 (srcAt r wv b false l)).signExtend 64

/-- The remote units of a load, each once: lanes that name one unit read one value (R258). -/
def remoteUnits (l : List (Fin 32 × W64)) : List W64 := (l.map fun x => x.2).eraseDups

/-- The requests of a load, one for each unit in another package. -/
def loadRequests (s : State) (n : Nat) (l : List (Fin 32 × W64)) : List (Nat × RemoteReq) :=
  (remoteUnits l).map fun a => (rankOf a, .read (dpidOf s s.wave.ids.part) (offsetOf a) n)

/-- The lanes of an access whose requests failed; `index` gives the request of a lane. -/
def remoteFails (w : RemoteWait) (index : Fin 32 × W64 → Nat) : List ((Fin 32 × W64) × (Cause × W8)) :=
  w.addrs.filterMap fun x => (((w.asks[index x]?).getD none).bind answerFault).map fun f => (x, f)

/-- The use of an access's answers: the wave goes on waiting for them, takes the fault of the lanes that failed, or uses the values (R444, R445). -/
def useAnswer (s : State) (w : RemoteWait) (p : FlightPath) (index : Fin 32 × W64 → Nat) (k : List (List W64) → State) : State :=
  if w.asks.any fun x => x.isNone then stall s
  else if (remoteFails w index).isEmpty then k (w.asks.map answerVals)
  else trapRemote s (remoteFails w index) p

/-- The request of a load's lane. -/
def unitIndex (rem : List (Fin 32 × W64)) (x : Fin 32 × W64) : Nat := (remoteUnits rem).idxOf x.2

/-- The bytes that a load delivers in a lane; a remote lane takes them from the answer to its request. -/
def deliver (s : State) (nol1 : Bool) (ps : List (Fin 32 × Place)) (vals : List (List W64)) (n : Nat) (l : Fin 32) : List W8 :=
  match ps.find? fun x => x.1 == l with
  | none => List.replicate n 0
  | some (_, .remote a) =>
    let v := (vals[unitIndex (remoteLanes ps) (l, a)]?).getD []
    ((List.range ((n + 7) / 8)).flatMap fun j => leBytes (min n 8) ((v[j]?).getD 0).toNat).take n
  | some (_, p) => loadUnit s nol1 l p n

/-- The clock after the reads of the lanes. -/
def readsClk (s : State) (nol1 : Bool) (ps : List (Fin 32 × Place)) (n : Nat) : Clk :=
  ps.foldl (fun v x => loadUnitClk s nol1 x.2 n v) s.wave.clk

/-- A load whose checks have passed. -/
def performLoad (s : State) (pol : W64) (n : Nat) (ls : List LaneAt) (vals : List (List W64))
    (finish : Lanes (List W8) → Regs → Regs) : State :=
  let ps := placesOf ls
  observing s ((memLines ps).map fun x => x.1)
    (fun _ => trapLanes (onWave s fun w => dropWaited w (loadPath ps)) ((taggedLanes s ls).map fun x => (x, 0x4A))) fun t =>
    let u := fetchLines (loadPrivs t ps n) pol ps
    let v := Lanes.of fun l => deliver u (polNol1 pol) ps vals n l
    let w1 := onWave u fun w =>
      let w2 := { dropWaited w (loadPath ps) with clk := readsClk u (polNol1 pol) ps n }
      if ps.isEmpty then w2 else raiseFlight w2 (loadPath ps) false
    onRegs (acquirePart w1 pol ps (ps.any fun x => unitJoins u x.2 n)) (finish v)

/-- A load (R257): n bytes per lane, `finish` delivers them. -/
def loadOp (s : State) (uses : List OpUse) (n : Nat) (a b : Src) (c : KReg)
    (finish : Lanes (List W8) → Regs → Regs) : Out :=
  checkedState s uses (regsTy s.wave.regs).isSome fun s =>
    let pol := s.wave.regs.k[c]
    let blocked := fun (t : State) (ls : List LaneAt) => (placesOf ls).any fun x => unitBlocked t x.2 n
    match blockingWait s.wave with
    | some w =>
      if blocked s w.lanes then stall s
      else useAnswer s w (loadPath (placesOf w.lanes)) (unitIndex w.addrs) fun vals => performLoad s pol n w.lanes vals finish
    | none =>
      if policyBad pol then trapWave s 0x1D
      else
        let r := checkLanes s (activeMask s.wave.regs) (loadAddrs s a b) n .load
        let t := r.2
        let ps := placesOf r.1
        let rem := remoteLanes ps
        if anyHeld r.1 then holdWave t 0x20
        else if !(laneFails r.1).isEmpty then trapLanes t (laneFails r.1)
        else if noRoom t ps (loadPath ps) || blocked t r.1 then stall t
        else if rem.isEmpty then performLoad t pol n r.1 [] finish
        else sendBlocking t r.1 rem (loadRequests t n rem) (loadPath ps)

/-- LD (R257). -/
def execLd (d : Dst) (a b : Src) (c : KReg) (s : State) : Out :=
  let t := curTy s.wave.regs
  let w := regsWide s.wave.regs
  loadOp s [.src a true, .src b false, .dst d w] (unitOf t) a b c fun v r =>
    let x := Lanes.of fun l => extendUnit t v[l]
    laneFinish r 4 d .none ⟨x, w, x, w⟩ x w

/-- LDQ moves 16 bytes per lane (R254, R257). -/
def execLdq (d : Dst) (a b : Src) (c : KReg) (s : State) : Out :=
  loadOp s [.src a true, .src b false, .quadDst d] 16 a b c fun v r => commitQuad (retire r 4) (activeMask r) d v

/-! ### Stores (R257, R258) -/

/-- A deferred effect of a versioned task (R6, R261). -/
def defer (s : State) (x : Deferred) : State :=
  onTask s s.wave.ids.tid s.wave.ids.part fun t =>
    { t with deferred := t.deferred ++ [(issuerOf s, x)] }

/-- The lanes' stores in ascending order; none when the version area is full. -/
def performStores (versioned : Bool) (data : Fin 32 → List W8) : List (Fin 32 × Place) → State → Option State
  | [], s => some s
  | (l, p) :: rest, s =>
    match storeUnit s versioned l p (data l) with
    | none => none
    | some t => performStores versioned data rest t

/-- The writes that go to another package: deferred in a versioned task, else sent. -/
def remoteWrites (s : State) (rem : List (Fin 32 × W64)) (req : Fin 32 → W64 → RemoteReq) : State :=
  if rem.isEmpty then s
  else if isVersioned s then (laneRequests rem req).foldl (fun t x => defer t (.remoteReq x.1 x.2)) s
  else sendWrite s rem req

/-- A store (R257): the failing lanes' stores alone are suppressed (R256). -/
def storeOp (s : State) (uses : List OpUse) (n : Nat) (a : Src) (c : KReg) (data : Regs → Fin 32 → List W8) : Out :=
  checkedState s uses (regsTy s.wave.regs).isSome fun s =>
    let pol := s.wave.regs.k[c]
    if policyBad pol then trapWave s 0x1D
    else
      let ea := srcLanes s.wave.regs s.wave.ids.wave.val a true
      let r := checkLanes s (activeMask s.wave.regs) ea n .store
      let t := r.2
      let ps := placesOf r.1
      let rem := remoteLanes ps
      if anyHeld r.1 then holdWave t 0x20
      else if noRoom t ps .store || releaseWaits t pol ps || monWaits t ps then stall t
      else
        match performStores (isVersioned t) (data t.wave.regs) ps (reachLines t pol ps) with
        | none => versionFull t
        | some u =>
          let u1 := remoteWrites u rem fun l x => .write (dpidOf u u.wave.ids.part) (offsetOf x) (data t.wave.regs l)
          let u2 := if ps.isEmpty then u1 else onWave u1 fun w =>
            raiseFlight w .store (!rem.isEmpty && !isVersioned u1)
          if (laneFails r.1).isEmpty then retireWave u2 4 else trapLanes u2 (laneFails r.1)

/-- ST (R257). -/
def execSt (a b : Src) (c : KReg) (s : State) : Out :=
  let w := regsWide s.wave.regs
  let n := unitOf (curTy s.wave.regs)
  storeOp s [.src a true, .src b w] n a c fun r l => leBytes n (srcAt r s.wave.ids.wave.val b w l).toNat

/-- STQ (R254, R257). -/
def execStq (a b : Src) (c : KReg) (s : State) : Out :=
  storeOp s [.src a true, .quad b] 16 a c fun r l => quadBytes r s.wave.ids.wave.val b l

/-! ### Atomics (R259, R260) -/

/-- The type set of the atomics (R260). -/
def atomTy (t : Ty) : Bool := tyScal t || t == .f32 || t == .f64

/-- Apply (R260): floating-point add rounds to nearest even. -/
def atomApply (o : AtomOp) (t : Ty) (sat : Bool) (x y : Nat) : Nat :=
  let a : Arith := ⟨t, 1, sat⟩
  match o with
  | .add => eAdd a x y
  | .min => eMin a x y
  | .max => eMax a x y
  | .and => eAnd x y
  | .or => eOr x y
  | .xor => eXor x y
  | .xchg => y

/-- The latest value of a unit for an atomic: the gang's version where it acts on versions, else the write order's. -/
def atomBytes (s : State) (onVersions : Bool) (pa n : Nat) : List W8 :=
  (List.range n).map fun i =>
    match (if onVersions then gangVersion s s.wave.ids.gang (pa + i) else none) with
    | some v => v
    | none => memByte s (pa + i)

/-- One atomic step in a lane: `f` gives the new value, or none for no write; none for a full version area. -/
def atomUnit (s : State) (versioned escape : Bool) (n : Nat) (l : Fin 32) (p : Place) (f : Nat → Option Nat) :
    Option (Nat × State) :=
  match p with
  | .mem pa _ =>
    let onV := versioned && !escape
    let old := leNat (atomBytes s onV pa n)
    let s1 := onWave s fun w => { w with clk := latestClk s pa n w.clk }
    let s2 := if versioned && escape then countEvent s1 s.wave.ids.core (some s.wave.ids.gang) 17 1 else s1
    match f old with
    | none => some (old, s2)
    | some y =>
      match storeUnit s2 onV l p (leBytes n y) with
      | none => none
      | some t => some (old, if versioned && escape then tagLine t (taskOf s) (pa / 128) else t)
  | .spad i off =>
    match findGroup s s.wave.ids.gang i.val with
    | none => some (0, s)
    | some g =>
      let old := leNat (spadBytes g off n)
      let s1 := onWave s fun w => { w with clk := spadClkAt g off n w.clk }
      match f old with
      | none => some (old, s1)
      | some y => some (old, spadWrite s1 s.wave.ids.gang i off (leBytes n y) s1.wave.clk)
  | _ => some (0, s)

/-- The lanes' atomic steps in ascending order, with the old values. -/
def performAtoms (versioned escape : Bool) (n : Nat) (f : Fin 32 → Nat → Option Nat) :
    List (Fin 32 × Place) → State → Option (List (Fin 32 × Nat) × State)
  | [], s => some ([], s)
  | (l, p) :: rest, s =>
    match atomUnit s versioned escape n l p (f l) with
    | none => none
    | some (old, t) =>
      match performAtoms versioned escape n f rest t with
      | none => none
      | some (olds, u) => some ((l, old) :: olds, u)

/-- The old values in the lanes: remote lanes take them from the answer. -/
def oldLanes (ps : List (Fin 32 × Place)) (olds : List (Fin 32 × Nat)) (vals : List (List W64)) : Lanes W64 :=
  Lanes.of fun l =>
    match ps.find? fun x => x.1 == l with
    | some (_, .remote _) => answerAt (remoteLanes ps) vals l
    | _ => BitVec.ofNat 64 (((olds.find? fun x => x.1 == l).map fun x => x.2).getD 0)

/-- An atomic whose checks have passed; `send` is what goes to another package without an answer being waited for. -/
def performAtom (s : State) (pol : W64) (n : Nat) (path : FlightPath) (remoteFlight : Bool) (ls : List LaneAt)
    (vals : List (List W64)) (send : State → State) (f : Fin 32 → Nat → Option Nat) (finish : Lanes W64 → Regs → Regs) : State :=
  let ps := placesOf ls
  observing s ((memLines ps).map fun x => x.1)
    (fun _ => trapLanes (onWave s fun w => dropWaited w path) ((taggedLanes s ls).map fun x => (x, 0x4A))) fun t =>
    match performAtoms (isVersioned t) (decide (3 ≤ polScope pol)) n f ps (reachLines t pol ps) with
    | none => versionFull t
    | some (olds, u) =>
      let u1 := onWave (send u) fun w =>
        if ps.isEmpty then w else raiseFlight (dropWaited w path) path remoteFlight
      onRegs (acquirePart u1 pol ps (ps.any fun x => unitJoins t x.2 n)) (finish (oldLanes ps olds vals))

/-- An atomic (R259). Of a versioned ATOMR or CAS, lanes that fail a check of R255 are reported alone, and lanes in another package with REMOTE_ESCAPE only where none fails: R261 gives that cause no place among the checks (DESIGN CHOICE, log entry 43). `returns` says that old values are delivered; `req` is what goes to another package. -/
def atomOp (s : State) (uses : List OpUse) (a : Src) (c : KReg) (returns : Bool) (req : Fin 32 → W64 → RemoteReq)
    (f : Fin 32 → Nat → Option Nat) (finish : Lanes W64 → Regs → Regs) : Out :=
  checkedState s uses (tyIn s.wave.regs atomTy) fun s =>
    let pol := s.wave.regs.k[c]
    let n := unitOf (curTy s.wave.regs)
    match blockingWait s.wave with
    | some w =>
      let path := if returns then loadPath (placesOf w.lanes) else .store
      useAnswer s w path (fun x => w.addrs.idxOf x) fun vals => performAtom s pol n path false w.lanes vals id f finish
    | none =>
    if policyBad pol then trapWave s 0x1D
    else
      let ea := srcLanes s.wave.regs s.wave.ids.wave.val a true
      let r := checkLanes s (activeMask s.wave.regs) ea n .atomic
      let t := r.2
      let ps := placesOf r.1
      let rem := remoteLanes ps
      let path := if returns then loadPath ps else .store
      let far := r.1.filter fun x => match x.res with
        | .ok (.remote _) => true
        | _ => false
      if anyHeld r.1 then holdWave t 0x20
      else if !(laneFails r.1).isEmpty then trapLanes t (laneFails r.1)
      else if returns && isVersioned t && !far.isEmpty then trapLanes t (far.map fun x => (x, 0x4B))
      else if noRoom t ps path || releaseWaits t pol ps || monWaits t ps then stall t
      else if returns && !rem.isEmpty then sendBlocking t r.1 rem (laneRequests rem req) path
      else performAtom t pol n path (!rem.isEmpty && !isVersioned t) r.1 [] (fun u => remoteWrites u rem req) f finish

/-- The number of an operation (R95). -/
def atomCode (o : AtomOp) : Nat :=
  match o with
  | .add => 0 | .min => 1 | .max => 2 | .and => 3 | .or => 4 | .xor => 5 | .xchg => 6

/-- The request of an atomic to another package. -/
def atomRequest (s : State) (o : AtomOp) (b : Src) (l : Fin 32) (x : W64) : RemoteReq :=
  let r := s.wave.regs
  .atom (dpidOf s s.wave.ids.part) (offsetOf x) (atomCode o) (modeType r.mode) (modeSat r.mode)
    (srcAt r s.wave.ids.wave.val b (regsWide r) l)

/-- The element function of an atomic in a lane. -/
def atomFn (r : Regs) (wv : Nat) (o : AtomOp) (b : Src) (l : Fin 32) (x : Nat) : Option Nat :=
  some (atomApply o (curTy r) (modeSat r.mode) x ((srcAt r wv b (regsWide r) l).toNat % 2 ^ tyBits (curTy r)))

/-- ATOM (R259). -/
def execAtom (o : AtomOp) (a b : Src) (c : KReg) (s : State) : Out :=
  atomOp s [.src a true, .src b (regsWide s.wave.regs)] a c false (atomRequest s o b)
    (atomFn s.wave.regs s.wave.ids.wave.val o b) fun _ r => retire r 4

/-- ATOMR (R259). -/
def execAtomr (o : AtomOp) (d : Dst) (a b : Src) (c : KReg) (s : State) : Out :=
  let w := regsWide s.wave.regs
  atomOp s [.src a true, .src b w, .dst d w] a c true (atomRequest s o b)
    (atomFn s.wave.regs s.wave.ids.wave.val o b) fun v r => laneFinish r 4 d .none ⟨v, w, v, w⟩ v w

/-- The compare and the new value of CAS in a lane (R259). -/
def casPair (r : Regs) (wv : Nat) (b : Src) (l : Fin 32) : Nat × Nat :=
  if regsWide r then
    let x := quadWord r wv b l
    ((pair64 (x 1) (x 0)).toNat, (pair64 (x 3) (x 2)).toNat)
  else
    let x := srcAt r wv b true l
    ((lo32 x).toNat, (hi32 x).toNat)

/-- CAS (R259). -/
def execCas (d : Dst) (a b : Src) (c : KReg) (s : State) : Out :=
  let w := regsWide s.wave.regs
  let r := s.wave.regs
  let wv := s.wave.ids.wave.val
  let pr := casPair r wv b
  atomOp s [.src a true, if w then .quad b else .src b true, .dst d w] a c true
    (fun l x => .cas (dpidOf s s.wave.ids.part) (offsetOf x) (if w then 8 else 4) (BitVec.ofNat 64 (pr l).1) (BitVec.ofNat 64 (pr l).2))
    (fun l x => if x = (pr l).1 then some (pr l).2 else none) fun v r =>
      writePred (laneFinish r 4 d .none ⟨v, w, v, w⟩ v w) 1 (activeMask r)
        (maskOf fun l => v[l].toNat == (pr l).1)

/-! ### Prefetch and pinning (R262 to R264) -/

/-- The lines that PREF brings in: those of global addresses whose translation a TLB holds. -/
def prefLine (s : State) (pol : W64) (a : W64) : State :=
  match windowOf s a.toNat with
  | .global va =>
    let c := s.wave.ids.core
    let hit := fun (l : List TlbEntry) => tlbHit l s.wave.ids.part va
    match (hit s.cores[c].tlb).or (hit s.dies[coreDie c].tlb) with
    | none => s
    | some e =>
      let line := (e.base + va % 2 ^ pageBits e.level) / 128
      let t := useL2 s c (some s.wave.ids.gang) (waveDie s.wave) line (some (evictClass pol va))
      if polNol1 pol then t else l1Fill t c line
  | _ => s

/-- PREF (R262). -/
def execPref (a : Src) (c : KReg) (s : State) : Out :=
  checkedState s [.src a true] true fun s =>
    let pol := s.wave.regs.k[c]
    if policyBad pol then trapWave s 0x1D
    else
      let ea := srcLanes s.wave.regs s.wave.ids.wave.val a true
      let act := activeMask s.wave.regs
      let t := laneList.foldl (fun t l => if act.getLsbD l.val then prefLine t pol ea[l] else t) s
      retireWave t 4

/-- The lines of a range, as virtual line addresses. -/
def rangeLines (start len : Nat) : List Nat :=
  (List.range ((start + len - 1) / 128 + 1 - start / 128)).map fun i => (start / 128 + i) * 128

/-- How the translation of a range ends: the physical lines, a fault at a line, or a page held for the host. -/
inductive Lines where
  | ok (l : List Nat)
  | fail (c : Cause) (va : Nat)
  | held
  deriving DecidableEq, Repr

/-- The cause of a line of a range that is no translated global memory. -/
def pinCause (s : State) (w : Win) : Cause :=
  match w with
  | .aperture slot off => if (apertureAt s s.wave.ids.gang slot off 128).isNone then 0x1A else 0x1C
  | .own off => if s.wave.psize ≤ off then 0x1B else 0x1C
  | _ => 0x1C

/-- The lines of a range translated in ascending address (R263). A line in the aperture, in private memory or in another package takes the first fault that R236 gives its address. Where it has none, it is still no translated global memory, and the model raises WINDOW_ACCESS (DESIGN CHOICE, log entry 43). -/
def pinLines : List Nat → State → Lines × State
  | [], s => (.ok [], s)
  | va :: rest, s =>
    match (match rangeWindow s va 128 with
      | .ok (.global g) => waveTranslate s g .read
      | .ok w => (.fail (pinCause s w), s)
      | .error c => (.fail c, s)) with
    | (.fail c, t) => (.fail c va, t)
    | (.held, t) => (.held, t)
    | (.ok pa, t) =>
      match pinLines rest t with
      | (.ok l, u) => (.ok (pa / 128 :: l), u)
      | x => x

/-- A line of a range becomes resident and pinned. The manual gives it no class of its own: it keeps the one that it has, and is normal where it was absent (DESIGN CHOICE, log entry 10). -/
def pinLine (s : State) (d : Fin 2) (line : Nat) : State :=
  useL2 s s.wave.ids.core (some s.wave.ids.gang) d line none

/-- PIN (R263). A range that the gang holds already counts as a further one, and needs an UNPIN of its own (DESIGN CHOICE, log entry 43). -/
def execPin (a b : KReg) (s : State) : Out :=
  let start := s.wave.regs.k[a].toNat
  let len := s.wave.regs.k[b].toNat
  let pins := ((findGang s s.wave.ids.gang).map fun g => g.pins).getD []
  if len = 0 then .next (retireWave s 4)
  else if 16 ≤ pins.length ∨ 2 ^ 21 < len then .next (trapWave s 0x1F)
  else
    match pinLines (rangeLines start len) s with
    | (.fail c va, t) => .next (trapValue t c (BitVec.ofNat 64 va) 0)
    | (.held, t) => .next (holdWave t 0x20)
    | (.ok l, t) =>
      let d := waveDie s.wave
      if pinOver t d l then .next (trapWave t 0x1F)
      else
        let held := onGang t s.wave.ids.gang fun g => { g with pins := g.pins ++ [⟨start, len, l⟩] }
        .next (retireWave (l.foldl (fun x line => pinLine x d line) held) 4)

/-- The first range with a start and a length is removed. -/
def dropPin (start len : Nat) (l : List PinRange) : List PinRange :=
  l.eraseP fun r => r.start == start && r.len == len

/-- UNPIN (R264). -/
def execUnpin (a b : KReg) (s : State) : Out :=
  let start := s.wave.regs.k[a].toNat
  let len := s.wave.regs.k[b].toNat
  .next (retireWave (onGang s s.wave.ids.gang fun g => { g with pins := dropPin start len g.pins }) 4)

/-! ### Ordering (R267, R269) -/

/-- The number of a scope (R245). -/
def scopeNum (x : Scope) : Nat :=
  match x with
  | .wave => 0 | .group => 1 | .gang => 2 | .die => 3 | .package => 4 | .domain => 5

/-- FENCE (R267). -/
def execFence (x : Scope) (o : FenceOrder) (s : State) : Out :=
  if o != .acq && !storesAcked s (scopeNum x) then .next (stall s)
  else if o == .rel then .next (retireWave s 4)
  else .next (retireWave (if 2 ≤ scopeNum x then acquire s else groupAcquire s) 4)

/-- WAITP (R269). -/
def execWaitp (p : FlightPath) (a : KReg) (s : State) : Out :=
  if flightCount s.wave p ≤ min s.wave.regs.k[a].toNat 63 then .next (retireWave s 4) else .next (stall s)

end Sys2Proof.Machine
end

