-- ==== Sys2Proof/Machine/CopyOps.lean ====
section
/-!
DEFINITION. Copies as operations: shape records, the checks at issue, the moves of an operation, its completion (R341 to R352, R451).
-/

namespace Sys2Proof.Machine

/-! ### Shape records (R342) -/

/-- The fields of a shape record; `esz` in bytes. -/
structure Shape where
  code : Nat
  rowe : Nat
  rows : Nat
  sstr : Nat
  dstr : Nat
  deriving DecidableEq, Repr

def shapeOf (x : W64) : Shape :=
  let f := fun hi lo => bitsOf x.toNat hi lo
  ⟨f 2 0, f 17 3, f 33 18, f 48 34, f 63 49⟩

def Shape.esz (x : Shape) : Nat := 2 ^ x.code

def shapeValid (x : Shape) : Bool :=
  decide (x.code ≤ 4) && x.rowe != 0 && x.rows != 0 && (x.rows == 1 || decide (x.rowe ≤ x.dstr))

/-- The bytes of a row at the source and at the destination. -/
def srcRowBytes (x : Shape) : Nat := x.esz * x.rowe

def dstRowBytes (o : CopyOp) (x : Shape) : Nat :=
  match o.kind with
  | .dequant => 64 * x.rowe
  | _ => x.esz * x.rowe

/-- The byte count that a completion carries (R346, R348). -/
def copyBytes (o : CopyOp) : Nat :=
  let x := shapeOf o.shape
  dstRowBytes o x * x.rows

/-- The bytes that the source rows, and the destination rows, span. -/
def srcSpan (x : Shape) : Nat := ((x.rows - 1) * x.sstr + x.rowe) * x.esz

def dstSpan (o : CopyOp) (x : Shape) : Nat :=
  match o.kind with
  | .dequant => (x.rows - 1) * x.dstr * 16 + 64 * x.rowe
  | _ => ((x.rows - 1) * x.dstr + x.rowe) * x.esz

/-! ### Windows (R341, R444, R451) -/

/-- A fabric-global address. -/
def isFabric (a : W64) : Bool := a.toNat / 2 ^ 62 == 2

/-- What windows an end of an operation may lie in. -/
structure Ends where
  globalOk : Bool
  aperture : Bool
  remote : Bool
  /-- Only a fabric-global address is accepted. -/
  fabricOnly : Bool

def srcEnds (x : CopyKind) : Ends :=
  match x with
  | .plain | .multi _ | .gather _ _ => ⟨true, true, true, false⟩
  | .dequant => ⟨true, false, true, false⟩
  | .puts _ | .radd _ _ _ => ⟨true, true, false, false⟩
  | .get => ⟨true, false, true, true⟩

def dstEnds (x : CopyKind) : Ends :=
  match x with
  | .plain | .gather _ _ => ⟨true, true, true, false⟩
  | .multi _ | .dequant => ⟨false, true, false, false⟩
  | .puts _ | .radd _ _ _ => ⟨true, false, true, true⟩
  | .get => ⟨true, true, false, false⟩

/-- The window checks of a range of n bytes (R345, check 4). -/
def endCheck (s : State) (k : Option GangKey) (a : W64) (n : Nat) (e : Ends) (hole : Bool) : Option Cause :=
  let w := windowOf s a.toNat
  let z := windowOf s ((a.toNat + n - 1) % 2 ^ 64)
  if w == .bad || z == .bad then some 0x19
  else if e.fabricOnly && !isFabric a then some 0x1C
  else
    match w, z with
    | .global _, .global _ => if e.globalOk then none else some 0x1C
    | .remote r _, .remote _ _ => if !e.remote then some 0x1C else if rankPresent s r then none else some 0x45
    | .aperture slot off, .aperture _ _ =>
      if !e.aperture then some 0x1C
      else
        match k with
        | none => some 0x1A
        | some k => if hole && (apertureAt s k slot off n).isNone then some 0x1A else none
    | _, _ => some 0x1C

/-- The offset of an aperture address within its slot. -/
def slotOffset (a : W64) : Nat := a.toNat % 2 ^ 19

/-- A multicast's slots hold the range (R347). -/
def maskHolds (s : State) (k : Option GangKey) (m : W8) (off n : Nat) : Bool :=
  match k with
  | none => false
  | some k => (List.finRange 8).all fun i => !m.getLsbD i.val || (apertureAt s k i.val off n).isSome

/-- The checks of a completion address (R305, R345, R347). -/
def complCheck (s : State) (who : Issuer) (mask : Option W8) (a : W64) : Option Cause :=
  if a = 0 then none
  else
    match windowOf s a.toNat, who.gang with
    | .aperture _ _, none => some 0x1A
    | .aperture slot _, some k =>
      (match mask with
        | some m =>
          if !maskHolds s (some k) m (slotOffset a) 16 then some 0x1A else if a.toNat % 16 ≠ 0 then some 0x18 else none
        | none => if slot < 8 then completionCheck s k a.toNat else some 0x1A)
    | _, _ => completionCheck s (who.gang.getD ⟨0, 0⟩) a.toNat

/-- A failing check: cause, address, sub-cause. -/
structure CopyFault where
  cause : Cause
  addr : W64
  sub : Nat
  deriving DecidableEq, Repr

/-- Check 1 of R345. -/
def shapeBad (o : CopyOp) (x : Shape) : Bool :=
  !shapeValid x ||
    match o.kind with
    | .dequant => x.code != 4 || (x.rows != 1 && decide (x.dstr < 4 * x.rowe))
    | .gather _ _ => decide (32 < x.rows)
    | .radd t _ _ => x.esz * 8 != ((tyOf t).map tyBits).getD 0
    | _ => false

/-- The remote signal's counter lies at the destination's rank, outside its Ndomet window, its 8 bytes in one window (R231, R451, log entry 22). -/
def rsigCheck (s : State) (o : CopyOp) : Option CopyFault :=
  match o.kind with
  | .puts true | .radd _ _ true =>
    if rangeWindow s o.scale.toNat 8 matches .error 0x19 then some ⟨0x19, o.scale, 2⟩
    else if !isFabric o.scale || windowOf s o.scale.toNat == .ndomet || rankOf o.scale != rankOf o.dst then some ⟨0x1C, o.scale, 2⟩
    else if o.scale.toNat % 8 ≠ 0 then some ⟨0x18, o.scale, 2⟩
    else none
  | _ => none

/-- The bytes of scales from which a dequantise reads (R348), checked as a source range (R341, R345). R345 gives the scale range no place in its order: it follows the source, and is named as a source is (DESIGN CHOICE, log entry 30). -/
def scaleCheck (s : State) (o : CopyOp) (x : Shape) : Option CopyFault :=
  match o.kind with
  | .dequant => (endCheck s o.who.gang o.scale (x.rowe * x.rows) (srcEnds .dequant) true).map fun c => ⟨c, o.scale, 0⟩
  | _ => none

/-- The checks of R345, in order, with the windows of the two ends. -/
def copyCheckIn (s : State) (o : CopyOp) (se de : Ends) : Option CopyFault :=
  let x := shapeOf o.shape
  let gather : Bool := match o.kind with | .gather _ _ => true | _ => false
  if shapeBad o x then some ⟨0x39, 0, 0⟩
  else if 2 ^ 32 ≤ copyBytes o then some ⟨0x3E, 0, 0⟩
  else if !gather && o.src.toNat % x.esz != 0 then some ⟨0x3D, o.src, 0⟩
  else if o.dst.toNat % x.esz != 0 then some ⟨0x3D, o.dst, 1⟩
  else
    match (if gather then none else endCheck s o.who.gang o.src (srcSpan x) se true) with
    | some c => some ⟨c, o.src, 0⟩
    | none =>
      match scaleCheck s o x with
      | some f => some f
      | none =>
        let mask := copyMask o.kind
        match endCheck s o.who.gang o.dst (dstSpan o x) de mask.isNone with
        | some c => some ⟨c, o.dst, 1⟩
        | none =>
          if mask.any fun m => !maskHolds s o.who.gang m (slotOffset o.dst) (dstSpan o x) then some ⟨0x1A, o.dst, 1⟩
          else
            match complCheck s o.who mask o.compl with
            | some c => some ⟨c, o.compl, 2⟩
            | none => rsigCheck s o

/-- The checks of an operation at its issue (R341, R345). -/
def copyCheck (s : State) (o : CopyOp) : Option CopyFault := copyCheckIn s o (srcEnds o.kind) (dstEnds o.kind)

/-! ### Rows -/

/-- How the read of a row ends. -/
inductive RowRead where
  | ok (bytes : List W8) (v : Clk)
  | fail (addr : W64) (c : Cause)
  deriving DecidableEq, Repr

/-- A range of n bytes read by an operation at this package, global memory through the L2 of the engine's die (R340). -/
def localRead (s : State) (who : Issuer) (a : W64) (n : Nat) (v : Clk) : RowRead × State :=
  match rangeWindow s a.toNat n, who.gang with
  | .error c, _ => (.fail a c, s)
  | .ok (.aperture slot off), some k =>
    (match apertureAt s k slot off n with
      | some g => (.ok (spadBytes g off n) (spadClkAt g off n v), s)
      | none => (.fail a 0x1A, s))
  | .ok (.aperture _ _), none => (.fail a 0x1A, s)
  | .ok (.global va), _ =>
    (match transPages who.core who.gang who.part va .read (pagesOf va n) s with
      | (.ok l, t) =>
        let pas := (List.range n).map fun i => paThrough l (va + i)
        if lostRead t who.part who.gang pas then (.fail a 0x4D, t)
        else (.ok (pas.map fun pa => opByte t who pa) (pas.foldl (fun v pa => opClk t who pa v) v),
          useLines t who.core who.gang (coreDie who.core) (pas.map fun pa => pa / 128))
      | (.fail c _, t) => (.fail a c, t)
      | (.held, t) => (.fail a 0x20, t))
  | .ok _, _ => (.fail a 0x1C, s)

def isRemote (s : State) (a : W64) : Bool := match windowOf s a.toNat with | .remote _ _ => true | _ => false

def dstRemote (s : State) (o : CopyOp) : Bool := isRemote s o.dst

/-- The address of a source row; none for a row that is skipped (R349). -/
def srcRow (o : CopyOp) (x : Shape) (r : Nat) : Option W64 :=
  match o.kind with
  | .gather a act =>
    if h : r < 32 then (if act.getLsbD r then some a[(⟨r, h⟩ : Fin 32)] else none) else none
  | _ => some (o.src + BitVec.ofNat 64 (r * x.sstr * x.esz))

/-- The checks of a gathered address at the access (R349). -/
def gatherCheck (s : State) (o : CopyOp) (x : Shape) (a : W64) : Option Cause :=
  match o.kind with
  | .gather _ _ =>
    (match endCheck s o.who.gang a (srcRowBytes x) (srcEnds .plain) true with
      | some c => some c
      | none => if a.toNat % x.esz != 0 then some 0x3D else none)
  | _ => none

/-- The address of the scales of row r of a dequantise (R348). -/
def scaleRow (o : CopyOp) (x : Shape) (r : Nat) : W64 := o.scale + BitVec.ofNat 64 (r * x.rowe)

/-- What an operation asks other packages for: number, address and length of each item (R348, R349, R451). -/
def askItems (s : State) (o : CopyOp) : List (Nat × W64 × Nat) :=
  let x := shapeOf o.shape
  let gather : Bool := match o.kind with | .gather _ _ => true | _ => false
  let rows :=
    if gather || isRemote s o.src then
      (List.range x.rows).filterMap fun r => (srcRow o x r).bind fun a =>
        if isRemote s a && (gatherCheck s o x a).isNone then some (r, a, srcRowBytes x) else none
    else []
  match o.kind with
  | .dequant =>
    rows ++ if isRemote s o.scale then (List.range x.rows).map fun r => (x.rows + r, scaleRow o x r, x.rowe) else []
  | _ => rows

/-- Whether an operation reads from another package. -/
def srcRemote (s : State) (o : CopyOp) : Bool := !(askItems s o).isEmpty

/-- An item of an answer: it failed with a cause, or its bytes. -/
def gotItem (s : State) (o : CopyOp) (i : Nat) (a : W64) (v : Clk) : RowRead :=
  match o.got with
  | none => .fail a 0x41
  | some (fails, bytes) =>
    match fails.find? fun q => q.1 == i with
    | some q => .fail a (BitVec.ofNat 8 q.2)
    | none =>
      let before := (askItems s o).takeWhile fun e => e.1 != i
      let n := (((askItems s o).find? fun e => e.1 == i).map fun e => e.2.2).getD 0
      .ok ((bytes.drop (before.foldl (fun m e => m + e.2.2) 0)).take n) v

/-- An item read at this package, or taken from the answer of another. -/
def readItem (s : State) (o : CopyOp) (i : Nat) (a : W64) (n : Nat) (v : Clk) : RowRead × State :=
  if isRemote s a then (gotItem s o i a v, s) else localRead s o.who a n v

/-- The BF16 bits of an MXFP4 element under a block scale (R348). -/
def dequantElem (scale nibble : Nat) : Nat :=
  if scale = 0xFF then 0x7FC0
  else match decodeF e2m1 nibble with
    | .fin n m e more => roundVal bf16 .rne false (.fin n m (e + scale - 127) more)
    | v => roundVal bf16 .rne false v

/-- A row of blocks expanded (R113, R348). -/
def dequantRow (blocks scales : List W8) : List W8 :=
  (blocks.mapIdx fun i b => [b.toNat % 16, b.toNat / 16].flatMap fun n =>
    leBytes 2 (dequantElem ((scales[i / 16]?).getD 0).toNat n)).flatten

/-- A source row as its destination bytes; a row of another package comes from its answer. -/
def readRow (s : State) (o : CopyOp) (x : Shape) (r : Nat) (a : W64) (v : Clk) : RowRead × State :=
  match gatherCheck s o x a with
  | some c => (.fail a c, s)
  | none =>
    match o.kind, readItem s o r a (srcRowBytes x) v with
    | .dequant, (.ok bytes v1, t) =>
      (match readItem t o (x.rows + r) (scaleRow o x r) x.rowe v1 with
        | (.ok scales v2, u) => (.ok (dequantRow bytes scales) v2, u)
        | q => q)
    | _, q => q

/-- The destinations of a row: one, or one for each slot of a multicast. -/
def dstRows (o : CopyOp) (x : Shape) (r : Nat) : List W64 :=
  let step := match o.kind with
    | .dequant => BitVec.ofNat 64 (16 * r * x.dstr)
    | _ => BitVec.ofNat 64 (r * x.dstr * x.esz)
  match copyMask o.kind with
  | none => [o.dst + step]
  | some m =>
    (List.finRange 8).filterMap fun i =>
      if m.getLsbD i.val then some (BitVec.ofNat 64 (0xFF * 2 ^ 48 + i.val * 2 ^ 19 + slotOffset o.dst) + step) else none

/-- Bytes in units of n. -/
def unitsOfRow (n : Nat) (bytes : List W8) : List (Nat × List W8) :=
  (List.range (bytes.length / n)).map fun i => (n * i, (bytes.drop (n * i)).take n)

/-- The unit of a destination write: two bytes where blocks are expanded (R346, R348). -/
def dstUnit (o : CopyOp) (x : Shape) : Nat :=
  match o.kind with
  | .dequant => 2
  | _ => x.esz

/-- What the moves have done so far. -/
structure Moving where
  s : State
  writes : List (Fin 2 × Nat)
  clk : Clk
  recs : List (W64 × Cause)
  out : List (Nat × RemoteReq)
  rows : List (Nat × List W8)
  full : Bool

/-- The latest value of a unit for an add of an operation (R260, R287). -/
def opLatest (s : State) (who : Issuer) (pa n : Nat) : Nat :=
  leNat ((List.range n).map fun i => (who.gang.bind fun k => gangVersion s k (pa + i)).getD (memByte s (pa + i)))

/-- Units written to global memory, or added there (R346, R451). -/
def putUnits (o : CopyOp) (l : List (Nat × Nat)) (va : Nat) : List (Nat × List W8) → Moving → Moving
  | [], m => m
  | (i, bytes) :: rest, m =>
    let pa := paThrough l (va + i)
    let new : List W8 :=
      match o.kind with
      | .radd t sat _ =>
        let n := bytes.length
        leBytes n (atomApply .add ((tyOf t).getD .i32) sat (opLatest m.s o.who pa n) (leNat bytes))
      | _ => bytes
    match opStore m.s o.who pa new m.clk with
    | .full => { m with full := true }
    | .done t w => putUnits o l va rest { m with s := t, writes := m.writes ++ w }

/-- A row written at one destination; one that meets a registered barrier or an owned record line stays unwritten (R350). -/
def writeRow (o : CopyOp) (x : Shape) (r : Nat) (bytes : List W8) (m : Moving) (d : W64) : Moving :=
  if m.full then m
  else
    match windowOf m.s d.toNat, o.who.gang with
    | .aperture slot off, some k =>
      (match apertureAt m.s k slot off bytes.length with
        | none => { m with recs := m.recs ++ [(d, 0x1A)] }
        | some g =>
          if overlapsBar g off bytes.length then { m with recs := m.recs ++ [(d, 0x2C)] }
          else { m with s := opSpad m.s k g off bytes m.clk })
    | .global va, _ =>
      (match transPages o.who.core o.who.gang o.who.part va .write (pagesOf va bytes.length) m.s with
        | (.fail c _, t) => { m with s := t, recs := m.recs ++ [(d, c)] }
        | (.held, t) => { m with s := t, recs := m.recs ++ [(d, 0x20)] }
        | (.ok l, t) =>
          let hit := (unitsOfRow (dstUnit o x) bytes).any fun u => overlapsOwned t (paThrough l (va + u.1)) u.2.length
          let adds : Bool := match o.kind with | .radd _ _ _ => true | _ => false
          let pas := (List.range bytes.length).map fun i => paThrough l (va + i)
          if hit then { m with s := t, recs := m.recs ++ [(d, 0x3C)] }
          else if adds && lostRead t o.who.part o.who.gang pas then { m with s := t, recs := m.recs ++ [(d, 0x4D)] }
          else putUnits o l va (unitsOfRow (dstUnit o x) bytes) { m with s := t })
    | .remote rank _, _ =>
      let dp := dpidOf m.s o.who.part
      let req := fun (u : Nat × List W8) =>
        let a := offsetOf (d + BitVec.ofNat 64 u.1)
        match o.kind with
        | .radd t sat _ => RemoteReq.atom dp a 0 t sat (BitVec.ofNat 64 (leNat u.2))
        | _ => RemoteReq.write dp a u.2
      { m with
        out := m.out ++ (unitsOfRow (dstUnit o x) bytes).map fun u => (rank, req u)
        rows := m.rows ++ [(r, bytes)] }
    | _, _ => { m with recs := m.recs ++ [(d, 0x1C)] }

/-- One row of an operation: at most one record, whatever the slots of a multicast that fail (R350). -/
def moveRow (o : CopyOp) (x : Shape) (m : Moving) (r : Nat) : Moving :=
  if m.full then m
  else
    match srcRow o x r with
    | none => m
    | some a =>
      match readRow m.s o x r a m.clk with
      | (.fail b c, t) => { m with s := t, recs := m.recs ++ [(b, c)] }
      | (.ok bytes v, t) =>
        let m1 := (dstRows o x r).foldl (writeRow o x r bytes) { m with s := t, clk := v, recs := [] }
        { m1 with recs := m.recs ++ m1.recs.take 1 }

/-- The moves of an operation, row by row (R346, log entry 5). -/
def moveAll (s : State) (o : CopyOp) : Moving :=
  let x := shapeOf o.shape
  (List.range x.rows).foldl (moveRow o x) ⟨s, [], o.who.clk, [], [], [], false⟩

/-- Whether an operation reads data that are lost, an add at its destination among them (R10). -/
def copyLost (s : State) (o : CopyOp) : Bool := anyLost s && (moveAll s o).recs.any fun r => r.2 == 0x4D

/-- The add that a remote signal sends after the data (R451). -/
def rsigRequest (s : State) (o : CopyOp) : List (Nat × RemoteReq) :=
  match o.kind with
  | .puts true | .radd _ _ true => [(rankOf o.scale, .counterAdd (dpidOf s o.who.part) (offsetOf o.scale))]
  | _ => []

/-! ### The steps of an operation -/

/-- Whether an operation can perform its reads (R279, R284, log entry 5). -/
def copyReady (s : State) (o : CopyOp) : Bool :=
  forkReady s o.who && clkLe o.who.clk s.dies[coreDie o.who.core].applied &&
    !((s.cores[o.who.core].mxWait ++ s.cores[o.who.core].mxQueue).any fun e =>
      e.who.token == o.who.token && (match e.cmd with | .mon _ _ _ _ => true | _ => false))

/-- How far an operation has come. -/
inductive CopyStage where
  | waits
  /-- An operation of a channel that the engine can take up (R340, R352). -/
  | accept
  | ask | move | finish
  deriving DecidableEq, Repr

/-- Whether what an operation has written is there for its completion at an address: on its die its writes, and where rows failed its engine records (R285, R419). -/
def copySeen (s : State) (o : CopyOp) (m : Moved) (d : Fin 2) : Bool := appliedOn s d m.writes && (!m.err || recordsDone s o.who d)

/-- The next step of an accepted operation. -/
def copyStage (s : State) (o : CopyOp) : CopyStage :=
  if o.sent then .waits
  else
    match o.moved with
    | some m =>
      let seen := fun (a : W64) => copySeen s o m (objectDie s o.who a)
      let rsig : Bool := match o.kind with | .puts true | .radd _ _ true => !dstRemote s o | _ => false
      if (if o.compl = 0 then copySeen s o m (coreDie o.who.core) else seen o.compl) && (!rsig || seen o.scale) then .finish
      else .waits
    | none =>
      if (s.parts[o.who.part]).parked.any fun i => some i.tid == o.who.tid then .waits
      else if !copyReady s o then .waits
      else if srcRemote s o && o.got.isNone then .ask
      else .move

/-- The requests for the items that lie in other packages. -/
def askRows (s : State) (o : CopyOp) : State :=
  sendRequests s ((askItems s o).map fun e => (rankOf e.2.1, RemoteReq.read (dpidOf s o.who.part) (offsetOf e.2.1) e.2.2))

/-- What the moves leave of an operation. -/
inductive AfterMove where
  | full
  /-- The operation goes on, with its state. -/
  | goes (s : State) (o : CopyOp)
  /-- It is deferred to the commit of its task (R352, R451). -/
  | deferred (s : State)

/-- A deferred copy joins its task. -/
def deferCopy (s : State) (o : CopyOp) (rows : List (Nat × List W8)) : State :=
  onTask s (o.who.tid.getD 0) o.who.part fun t =>
    { t with deferred := t.deferred ++ [(o.who, .remoteCopy o rows)] }

/-- The moves of an operation with what follows them: records, requests to another package. -/
def performMoves (s : State) (o : CopyOp) : AfterMove :=
  let m := moveAll s o
  if m.full then .full
  else
    let s1 := engineRecords m.s o.who m.recs
    let o1 := { o with moved := some ⟨m.writes, coverWrites m.clk m.writes, !m.recs.isEmpty⟩ }
    if !dstRemote s o then .goes s1 o1
    else if issuerVersioned s o.who then .deferred (deferCopy s1 o1 m.rows)
    else .goes (sendRequests s1 (m.out ++ rsigRequest s o)) { o1 with sent := true, since := s.dies[coreDie o.who.core].clock }

/-- A remote signal whose counter lies at this package is a local add (R451). -/
def localSignal (s : State) (o : CopyOp) (v : Clk) : State :=
  match o.kind with
  | .puts true | .radd _ _ true => if dstRemote s o then s else completeAt s o.who none o.scale 0 false v
  | _ => s

/-- The completion of an operation (R351). -/
def finishCopy (s : State) (o : CopyOp) (err : Bool) : State :=
  match o.moved with
  | none => s
  | some m =>
    let v := if m.err then recordsClk s o.who m.clk else m.clk
    let s1 := localSignal s o v
    if o.compl = 0 then s1 else completeAt s1 o.who (copyMask o.kind) o.compl (copyBytes o) (m.err || err) v

/-- The answer of another package to an operation: a read's rows, or the acknowledgement of its writes (R445, R451). -/
def answerCopy (s : State) (o : CopyOp) (x : RemoteAnswer) : CopyOp × State :=
  let sh := shapeOf o.shape
  let all := fun (c : Nat) =>
    (if o.moved.isNone then (askItems s o).map fun e => e.1 else List.range sh.rows).map fun r => (r, c)
  let rows : List (Nat × Nat) :=
    match x with
    | .copied rows _ => rows.map fun q => (q.1, 0x41)
    | .failed _ => all 0x41
    | .late => all 0x42
    | _ => []
  let bytes : List W8 := match x with | .copied _ b => b | _ => []
  match o.moved with
  | none => ({ o with sent := false, got := some (rows, bytes) }, s)
  | some m =>
    let recs := rows.map fun q => ((dstRows o sh q.1).headD 0, (BitVec.ofNat 8 q.2 : Cause))
    ({ o with sent := false, moved := some { m with err := m.err || !rows.isEmpty } }, engineRecords s o.who recs)

end Sys2Proof.Machine
end

