-- ==== Sys2Proof/Machine/Copy.lean ====
section
/-!
DEFINITION. SHAPE, the copy instructions, PUTS, GET, RADD, and the direct queue of a cluster's copy engine (R340 to R352, R451).
-/

namespace Sys2Proof.Machine

/-! ### SHAPE (R343) -/

/-- The code of an element size. -/
def sizeCode (e : ElemSize) : Nat := match e with | .b1 => 0 | .b2 => 1 | .b4 => 2 | .b8 => 3 | .b16 => 4

/-- The record that SHAPE makes, or none where it raises SHAPE_FIELD. -/
def makeShape (e : ElemSize) (a b : W64) : Option W64 :=
  let n := 2 ^ sizeCode e
  let row := bitsOf a.toNat 31 0
  let rows := bitsOf a.toNat 63 32
  let ss := bitsOf b.toNat 31 0
  let ds := bitsOf b.toNat 63 32
  if row % n ≠ 0 ∨ ss % n ≠ 0 ∨ ds % n ≠ 0 then none
  else if 2 ^ 15 ≤ row / n ∨ 2 ^ 16 ≤ rows ∨ 2 ^ 15 ≤ ss / n ∨ 2 ^ 15 ≤ ds / n then none
  else
    let x : W64 := BitVec.ofNat 64 (sizeCode e + row / n * 2 ^ 3 + rows * 2 ^ 18 + ss / n * 2 ^ 34 + ds / n * 2 ^ 49)
    if shapeValid (shapeOf x) then some x else none

/-- SHAPE (R343). -/
def execShape (d a b : KReg) (e : ElemSize) (s : State) : Out :=
  match makeShape e s.wave.regs.k[a] s.wave.regs.k[b] with
  | none => .next (trapWave s 0x39)
  | some x => .next (onRegs s fun r => { retire r 4 with k := r.k.set d.val x })

/-! ### Issue (R344, R345) -/

/-- The block of registers of a copy, from kA. -/
def copyBlock (s : State) (kind : CopyKind) (a : KReg) : CopyOp :=
  let k := s.wave.regs.k
  ⟨kind, k[a], k[(a + 1 : Fin 32)], k[(a + 2 : Fin 32)], k[(a + 3 : Fin 32)], k[(a + 4 : Fin 32)], issuerOf s, false, none,
    none, none, 0, 0⟩

/-- A copy behind its checks: it waits in the issue buffer with IFEN raised. -/
def copyIssue (s : State) (o : CopyOp) : State :=
  match copyCheck s o with
  | some f => trapValue s f.cause f.addr (BitVec.ofNat 8 f.sub)
  | none =>
    if !flightRoom s .engine then stall s
    else
      let t := onDie s (waveDie s.wave) fun d => { d with copyWait := d.copyWait ++ [o] }
      retireWave (onWave t fun w => raiseFlight w .engine false) 4

/-- CPY, a gather with a source operand (R344, R349). -/
def execCpy (a : KReg) (src : Option Src) (s : State) : Out :=
  match src with
  | none => .next (copyIssue s (copyBlock s .plain a))
  | some c =>
    checkedState s [.src c true] true fun s =>
      let r := s.wave.regs
      copyIssue s (copyBlock s (.gather (srcLanes r s.wave.ids.wave.val c true) (activeMask r)) a)

/-- CPYM (R347). -/
def execCpym (a : KReg) (mask : W8) (s : State) : Out := .next (copyIssue s (copyBlock s (.multi mask) a))

/-- CPYDQ (R348). -/
def execCpydq (a : KReg) (s : State) : Out := .next (copyIssue s (copyBlock s .dequant a))

/-- PUTS (R451). -/
def execPuts (a : KReg) (rsig : Bool) (s : State) : Out := .next (copyIssue s (copyBlock s (.puts rsig) a))

/-- GET (R451). -/
def execGet (a : KReg) (s : State) : Out := .next (copyIssue s (copyBlock s .get a))

/-- The types that RADD accepts (R451). -/
def raddTy (t : Ty) : Bool := tyScal t || t == .f32 || t == .f64

/-- RADD (R451). -/
def execRadd (a : KReg) (rsig : Bool) (s : State) : Out :=
  let m := s.wave.regs.mode
  if !tyIn s.wave.regs raddTy then .next (trapWave s 0x02)
  else .next (copyIssue s (copyBlock s (.radd (modeType m) (modeSat m) rsig) a))

/-! ### The direct queue (R340, R352) -/

/-- Whether an operation was issued on a cluster. -/
def onCluster (cl : Fin 24) (o : CopyOp) : Bool := clusterOf o.who.core == cl

def clusterDie (cl : Fin 24) : Fin 2 := if cl.val < 12 then 0 else 1

/-- The cores into whose scratchpads an operation writes, with the bytes (R352). -/
def copyCores (s : State) (o : CopyOp) : List (Fin 192 × Nat) :=
  match o.who.gang with
  | none => []
  | some k =>
    let one := fun (i : Nat) => ((findGroup s k i).map fun g => (g.core, copyBytes o)).toList
    match copyMask o.kind with
    | some m => (List.range 8).flatMap fun i => if m.getLsbD i then one i else []
    | none => match windowOf s o.dst.toNat with
      | .aperture slot _ => one slot
      | _ => []

/-- The accepted operations of a die's channels that have not ended, with their channels. -/
def channelOps (s : State) (d : Fin 2) : List (Fin 96 × CopyOp) :=
  (List.finRange 96).filterMap fun ch =>
    match s.dies[d].chans[ch].inService with
    | some r => if r.finished then none else (r.op.filter fun o => o.seq != 0).map fun o => (ch, o)
    | none => none

/-- Every accepted operation of a die that has not ended. -/
def dieOps (s : State) (d : Fin 2) : List CopyOp := s.dies[d].copyRun ++ (channelOps s d).map fun x => x.2

/-- The bytes outstanding into a core's scratchpad, of copies and of channel records (R352). -/
def outstanding (s : State) (c : Fin 192) : Nat :=
  ((dieOps s 0 ++ dieOps s 1).flatMap (copyCores s)).foldl (fun n x => if x.1 = c then n + x.2 else n) 0

/-- Whether the cores of an operation have room for it. -/
def copyFits (s : State) (o : CopyOp) : Bool :=
  (copyCores s o).all fun x => let n := outstanding s x.1; n == 0 || decide (n + x.2 ≤ 262144)

/-- The accepted operations of a cluster, of its direct queue and of its channels (R340). -/
def clusterOps (s : State) (cl : Fin 24) : List CopyOp :=
  let d := clusterDie cl
  (s.dies[d].copyRun.filter (onCluster cl)) ++
    ((channelOps s d).filter fun x => x.1.val / 8 == cl.val % 12).map fun x => x.2

/-- Whether an accepted operation is among the 16 in progress: they are the first in acceptance order (R340). -/
def inProgress (s : State) (cl : Fin 24) (o : CopyOp) : Bool :=
  decide (((clusterOps s cl).filter fun x => decide (x.seq < o.seq)).length < 16)

/-- What an accepted operation does next. -/
def opStage (s : State) (cl : Fin 24) (o : CopyOp) : CopyStage := if inProgress s cl o then copyStage s o else .waits

/-- Whether an issuer's gang or wave has been evicted: its issue buffer has gone with it (R360, R409). -/
def issuerAway (s : State) (who : Issuer) : Bool :=
  (who.gang.any fun k => (findGang s k).any fun g => g.evictedAt.isSome) || (findWave s who.token).any fun w => w.run == .evicted

/-- The agent of a cluster's direct queue (R387). -/
def queueAgent (cl : Fin 24) : W32 := engToken (clusterDie cl) 1 (cl.val % 12)

/-- Where the table has room for an operation's completion objects, one for each slot of a multicast, and for their links (R399). -/
def copyRoom (s : State) (cl : Fin 24) (o : CopyOp) : Room :=
  if o.compl = 0 then .onDie else engineRoom s o.who (clusterDie cl) (completionKeys s o.who (copyMask o.kind) o.compl)

/-- Whether an operation that waits can leave its issue buffer, by acceptance or for a message to the host: the direct queue holds 32 beside those in progress (R340, R352, R399). -/
def copyAccepts (s : State) (cl : Fin 24) (o : CopyOp) : Bool :=
  let queued := ((s.dies[clusterDie cl].copyRun.filter (onCluster cl)).filter fun x => !inProgress s cl x).length
  decide (queued < 32) && !issuerAway s o.who && copyFits s o && copyRoom s cl o != .full &&
    !engineStopped s o.who.part (queueAgent cl)

/-- The first waiting copy of a cluster that can be accepted: a wave's copies keep their order in its issue buffer, and one that waits holds back no other wave's (R352). -/
def nextAccept (s : State) (cl : Fin 24) : List CopyOp → List W32 → Option CopyOp
  | [], _ => none
  | o :: rest, seen =>
    if onCluster cl o && !seen.contains o.who.token && copyAccepts s cl o then some o
    else nextAccept s cl rest (o.who.token :: seen)

/-- COPY_ACCEPT: a waiting copy of the cluster is accepted, and IFEN falls (R268, R352). -/
def execCopyAccept (cl : Fin 24) (s : State) : Out :=
  let d := clusterDie cl
  match nextAccept s cl s.dies[d].copyWait [] with
  | none => .next s
  | some o =>
    if copyRoom s cl o = .host then .next (stopEngine s o.who (queueAgent cl)) else
    let t := onDie { s with nextKey := s.nextKey + 1 } d fun x =>
      { x with copyWait := x.copyWait.erase o, copyRun := x.copyRun ++ [{ o with seq := s.nextKey + 1 }] }
    .next (settleObjs (onToken t o.who.token fun w => lowerFlight w .engine))

/-- The i-th of a cluster's copies in progress. -/
def copyAt (s : State) (cl : Fin 24) (i : Nat) : Option CopyOp :=
  ((s.dies[clusterDie cl].copyRun.filter (onCluster cl)).filter (inProgress s cl))[i]?

/-- An operation of a die replaced by another, or removed. -/
def replaceCopy (s : State) (d : Fin 2) (o : CopyOp) (new : Option CopyOp) : State :=
  let swap := fun (l : List CopyOp) =>
    match new with
    | none => l.erase o
    | some n => (l.takeWhile fun x => x != o) ++ n :: (l.dropWhile fun x => x != o).drop 1
  onDie s d fun x => { x with copyRun := swap x.copyRun }

/-- COPY_COMPLETE: the next step of an operation in progress: its requests, its moves, or its completion (R346, R351). -/
def execCopyComplete (cl : Fin 24) (i : Nat) (s : State) : Out :=
  let d := clusterDie cl
  match copyAt s cl i with
  | none => .next s
  | some o =>
    match copyStage s o with
    | .waits | .accept => .next s
    | .ask => .next (replaceCopy (askRows s o) d o (some { o with sent := true, since := s.dies[coreDie o.who.core].clock }))
    | .finish => .next (settleObjs (finishCopy (replaceCopy s d o none) o false))
    | .move =>
      if copyLost s o then .next (dataLost s o.who.part o.who.gang.toList (physAddr s o.who.part o.src.toNat))
      else
      match performMoves s o with
      | .full => .next (versionFullFor s o.who.part (o.who.tid.getD 0) (o.who.gang.getD ⟨0, 0⟩))
      | .deferred t => .next (replaceCopy t d o none)
      | .goes t n => .next (replaceCopy t d o (some n))

/-- The direct queues' next step, if any. -/
def copyEvent (s : State) : Option Instr :=
  if s.dies[(0 : Fin 2)].copyWait.isEmpty && s.dies[(1 : Fin 2)].copyWait.isEmpty && s.dies[(0 : Fin 2)].copyRun.isEmpty &&
      s.dies[(1 : Fin 2)].copyRun.isEmpty then none
  else
    (List.finRange 24).findSome? fun cl =>
      if (nextAccept s cl s.dies[clusterDie cl].copyWait []).isSome then some (.copyAccept cl) else running cl
where
  running (cl : Fin 24) : Option Instr :=
    ((List.range 16).find? fun i => (copyAt s cl i).any fun o => copyStage s o != .waits).map fun i => .copyComplete cl i

end Sys2Proof.Machine
end

