-- ==== Sys2Proof/Machine/Channel.lean ====
section
/-!
DEFINITION. Chains of records: the channels of the copy engines and the partitions' command chains as one state machine (R353 to R359, R449), with CHKICK, CHTAIL and the channels' steps.
-/

namespace Sys2Proof.Machine

/-! ### Chains -/

/-- A channel of a die, or a partition's command chain. -/
inductive ChainRef where
  | chan (d : Fin 2) (ch : Fin 96)
  | cmd (p : Fin 24)
  deriving DecidableEq, Repr

def chainAt (s : State) (x : ChainRef) : Chan :=
  match x with
  | .chan d ch => s.dies[d].chans[ch]
  | .cmd p => (s.parts[p]).cmd

def onChain (s : State) (x : ChainRef) (f : Chan → Chan) : State :=
  match x with
  | .chan d ch => onChan s d ch f
  | .cmd p => onPart s p fun q => { q with cmd := f q.cmd }

/-- The first core of the cluster that a channel serves. -/
def chanCore (d : Fin 2) (ch : Fin 96) : Fin 192 := Fin.ofNat 192 (96 * d.val + 8 * (ch.val / 8))

/-- The core through whose TLBs a chain's records are reached. -/
def chainCore (s : State) (x : ChainRef) : Fin 192 :=
  match x with
  | .chan d ch => chanCore d ch
  | .cmd p => partCore s p

/-- The partition that owns a chain; 0xFF names none (R353). -/
def chainPart (s : State) (x : ChainRef) : Option (Fin 24) :=
  match x with
  | .chan d ch =>
    let p := (s.dies[d].chans[ch]).part.toNat
    if h : p < 24 then some ⟨p, h⟩ else none
  | .cmd p => some p

def staleUp (c : Chan) : Chan := { c with stale := BitVec.ofNat 16 (min (c.stale.toNat + 1) 0xFFFF) }
def dropUp (c : Chan) : Chan := { c with dropw := BitVec.ofNat 16 (min (c.dropw.toNat + 1) 0xFFFF) }

/-- The chain sleeps on CUR, with one stale kick more. -/
def sleepChain (c : Chan) : Chan := { staleUp c with state := 3, inService := none }

/-- A report of the command interface (R422, R449). -/
def reportCommand (s : State) (p : Fin 24) (a : W64) (c : Cause) : State :=
  report s (some p) 7 c (a.toNat % 2 ^ 54 + p.val * 2 ^ 54)

/-- A record that cannot be reached: the chain sleeps on it, and for a command the host is told (R449). -/
def unreachable (s : State) (x : ChainRef) (a : W64) (c : Cause) : State :=
  let t := onChain s x sleepChain
  match x with
  | .cmd p => reportCommand t p a c
  | .chan _ _ => t

/-- The host as the issuer of a kick: it has no gang and no wave slot (R341). -/
def hostIssuer (p : Fin 24) (core : Fin 192) : Issuer := ⟨p, none, 0, core, 0, 0, none, {}, [], false⟩

/-- Who stands for the record at an address: who linked it, else who kicked the chain (R341). -/
def recordIssuer (s : State) (x : ChainRef) (a : W64) : Issuer :=
  let c := chainAt s x
  match c.linked.find? fun e => e.1 == a with
  | some e => e.2
  | none => c.kicker.getD (hostIssuer ((chainPart s x).getD 0) (chainCore s x))

/-! ### Transfer records (R354) -/

def snapField (snap : List W8) (hi lo : Nat) : W64 := BitVec.ofNat 64 (recField snap hi lo)

/-- The fields of a stream record (R359). -/
structure StreamRec where
  tiles : Nat
  nslot : Nat
  drain : Bool
  boff : Nat
  gstep : Nat
  rstep : Nat
  deriving DecidableEq, Repr

def streamOf (snap : List W8) : StreamRec where
  tiles := recField snap 351 320
  nslot := recField snap 359 352
  drain := recField snap 360 360 == 1
  boff := recField snap 378 364
  gstep := recField snap 479 448
  rstep := recField snap 511 480

/-- The ring's address. -/
def ringOf (snap : List W8) : W64 := if (streamOf snap).drain then snapField snap 127 64 else snapField snap 191 128

/-- The copy of tile i of a stream record. -/
def tileOp (snap : List W8) (who : Issuer) (i : Nat) : CopyOp :=
  let x := streamOf snap
  let g := BitVec.ofNat 64 (i * x.gstep)
  let r := BitVec.ofNat 64 (i % x.nslot * x.rstep)
  ⟨.plain, snapField snap 127 64 + (if x.drain then r else g), snapField snap 191 128 + (if x.drain then g else r),
    snapField snap 255 192, 0, 0, who, false, none, none, none, 0, 0⟩

/-- The copy that a record of KIND 0 to 2 makes. R355 checks the record of a multicast as it checks CPYM, whose form with no slot is reserved as an encoding, and names no cause for MASK 0 in a record: it is a copy to no slot (DESIGN CHOICE, log entry 30). -/
def recordOp (snap : List W8) (who : Issuer) : CopyOp :=
  let kind : CopyKind :=
    match recField snap 3 2 with
    | 1 => .multi (BitVec.ofNat 8 (recField snap 15 8))
    | 2 => .dequant
    | _ => .plain
  ⟨kind, snapField snap 127 64, snapField snap 191 128, snapField snap 255 192, snapField snap 319 256,
    snapField snap 383 320, who, false, none, none, none, 0, 0⟩

def isStream (snap : List W8) : Bool := recField snap 3 2 == 3

/-- The group and the offset of barrier i of a stream's ring. -/
def ringBar (s : State) (who : Issuer) (snap : List W8) (i : Nat) : Option (Group × Nat) :=
  match windowOf s (ringOf snap).toNat with
  | .aperture slot _ => (who.gang.bind fun k => findGroup s k slot).map fun g => (g, 16 * ((streamOf snap).boff + i))
  | _ => none

/-- The check that a tile fails, if any: the ring lies in the aperture, the other end in global memory (R341, R345, R359). -/
def tileCheck (s : State) (snap : List W8) (o : CopyOp) : Option Cause :=
  let ring : Ends := ⟨false, true, false, false⟩
  let other : Ends := ⟨true, false, false, false⟩
  (if (streamOf snap).drain then copyCheckIn s o ring other else copyCheckIn s o other ring).map fun f => f.cause

/-- The check that a stream record fails at its acceptance, if any. R359 names no cause for TILES or NSLOT of 0, nor for a ring barrier that is not registered: the model takes 0x39 and 0x28 (DESIGN CHOICE, log entry 30). -/
def streamCheck (s : State) (snap : List W8) (who : Issuer) : Option Cause :=
  let x := streamOf snap
  if x.tiles = 0 ∨ x.nslot = 0 then some 0x39
  else
    match tileCheck s snap { tileOp snap who 0 with compl := snapField snap 319 256 } with
    | some c => some c
    | none =>
      if (List.range (2 * x.nslot)).all fun i => (ringBar s who snap i).any fun b => b.1.bars.contains b.2 then none else some 0x28

/-- A transfer record as it is accepted: with its first check that fails, if any (R355). -/
def transferRun (s : State) (a : W64) (pa : Nat) (snap : List W8) (who : Issuer) : RecRun :=
  let op := if isStream snap then tileOp snap who 0 else recordOp snap who
  let bad := if isStream snap then streamCheck s snap who else (copyCheck s op).map fun f => f.cause
  ⟨a, pa, snap, bad.getD 0, some op, 0, bad.isSome, bad.isSome⟩

/-! ### Examination (R355) -/

/-- Acceptance of the record at CUR: OWN and GEN, the snapshot, the tag of its line; taking it is an acquire of the ownership write (R290). -/
def acceptRecord (s : State) (x : ChainRef) (a : W64) (pa : Nat) (who : Issuer) : State :=
  let who := { who with clk := latestClk s pa 64 who.clk }
  let t := acceptWord s pa
  let snap := memBytes t pa 64
  let t1 := { t with owned := (pa / 128) :: t.owned }
  let r : RecRun :=
    match x with
    | .chan _ _ => transferRun t1 a pa snap who
    | .cmd _ => ⟨a, pa, snap, 0, none, 0, false, false⟩
  settleObjs (onChain t1 x fun c => { c with state := 1, inService := some r, linked := c.linked.filter fun e => e.1 != a })

/-- The die on which a chain's engine stands. -/
def chainDie (s : State) (x : ChainRef) : Fin 2 := coreDie (chainCore s x)

/-- An address that a chain accepts for a record (R357). -/
def recordAddrOk (a : W64) : Bool := a.toNat % 64 == 0 && isLocalGlobal a.toNat

/-- The agent of a chain's engine (R387). -/
def chainAgent (x : ChainRef) : W32 :=
  match x with
  | .chan d ch => engToken d 0 ch.val
  | .cmd _ => 0

/-- Where the table has room for the objects that a record names and for their links (R399); a command names none. -/
def recordRoom (s : State) (x : ChainRef) (pa : Nat) (who : Issuer) : Room :=
  match x with
  | .chan d _ => let keys := recordKeys s who (memBytes s pa 64); if keys.isEmpty then .onDie else engineRoom s who d keys
  | .cmd _ => .onDie

/-- A chain that waits with a record that it cannot accept yet: it runs, with none in service (R399). -/
def stallChain (c : Chan) : Chan := { c with state := 1, inService := none }

/-- Acceptance, where the table has room: else the engine stalls until a record of the table frees, or stops for the host (R41, R399). -/
def admitRecord (s : State) (x : ChainRef) (a : W64) (pa : Nat) (who : Issuer) : State :=
  match recordRoom s x pa who with
  | .onDie | .ext => acceptRecord s x a pa who
  | .full => onChain s x stallChain
  | .host => stopEngine (onChain s x stallChain) who (chainAgent x)

/-- Examination of the record at CUR; `idle` says what happens when its submitter still owns it. -/
def examineWith (s : State) (x : ChainRef) (idle : Chan → Chan) : State :=
  let a := (chainAt s x).cur
  match chainPart s x with
  | none => unreachable s x a 0x20
  | some p =>
    if !recordAddrOk a then unreachable s x a 0x3F
    else
      match translate s (chainCore s x) p a.toNat .write with
      | (.fail c, t) => unreachable t x a c
      | (.held, t) => unreachable t x a 0x20
      | (.ok pa, t) =>
        if lostRead t p none (bytesFrom pa 64) then unreachable t x a 0x4D
        else
        match memNat t pa 1 % 4 with
        | 0 => onChain t x idle
        | 1 => admitRecord t x a pa (recordIssuer t x a)
        | _ => onChain t x sleepChain

/-- A chain that begins to poll: 16 re-reads, counted from now. -/
def startPolling (s : State) (x : ChainRef) (c : Chan) : Chan :=
  { c with state := 2, polls := 16, since := s.dies[chainDie s x].clock, inService := none }

def examine (s : State) (x : ChainRef) : State := examineWith s x (startPolling s x)

/-- One re-read of a chain: the last one of a polling chain ends in sleep; one that waited for room examines its record anew. -/
def pollAgain (s : State) (x : ChainRef) : State :=
  if (chainAt s x).state = 1 then examine s x else
  let now := s.dies[chainDie s x].clock
  examineWith s x fun c => if c.polls ≤ 1 then sleepChain c else { c with polls := c.polls - 1, since := now }

/-- Whether a chain that waits with its record finds room for it now. -/
def roomCame (s : State) (x : ChainRef) : Bool :=
  let c := chainAt s x
  c.state == 1 && c.inService.isNone && ((chainPart s x).all fun p => !engineStopped s p (chainAgent x)) &&
    match physChain s x with
    | some pa => recordRoom s x pa (recordIssuer s x c.cur) != .full
    | none => true
where
  physChain (s : State) (x : ChainRef) : Option Nat :=
    (chainPart s x).bind fun p => match walkPage s p (chainAt s x).cur.toNat with
      | .leaf lv _ pte => some (pte % 2 ^ 39 / 4096 * 4096 + (chainAt s x).cur.toNat % 2 ^ pageBits lv)
      | _ => none

/-- Whether a re-read of a chain is due: the next one of a polling chain, or that of one that waited for room. -/
def pollDue (s : State) (x : ChainRef) : Bool :=
  let c := chainAt s x
  (c.state == 2 && decide (256 ≤ (s.dies[chainDie s x].clock - c.since).toNat)) || roomCame s x

/-! ### Kicks and appends (R357, R358) -/

/-- A kick with a head that is 0 or the address of a record. -/
def kickChain (s : State) (x : ChainRef) (head : W64) (who : Issuer) : State :=
  let c := chainAt s x
  if c.state = 1 then onChain s x staleUp
  else
    let own := fun (c : Chan) => { c with kicker := some who, linked := if head = 0 then c.linked else [] }
    let aim := fun (c : Chan) => if head = 0 then own c else { own c with cur := head, last := head }
    if c.state = 2 then onChain s x fun c => startPolling s x (aim c)
    else if head = 0 ∧ c.cur = 0 then onChain s x fun c => staleUp (own c)
    else examine (onChain s x aim) x

/-- A record appended to a chain. -/
def appendChain (s : State) (x : ChainRef) (a : W64) (who : Issuer) : State :=
  let c := chainAt s x
  if c.state = 0 ∨ c.state = 3 then
    examine (onChain s x fun c => { c with kicker := some who, linked := [], cur := a, last := a }) x
  else
    match translate s (chainCore s x) who.part c.last.toNat .write with
    | (.ok pa, t) =>
      onChain (deviceWrite t (pa + 48) 8 a.toNat) x fun c => { c with last := a, linked := c.linked ++ [(a, who)] }
    | (_, t) => onChain t x staleUp

/-! ### The end of a record (R356) -/

/-- The chain goes on to NEXT, or becomes idle. LAST moves on with a chain that its submitter linked (R353). -/
def nextRecord (s : State) (x : ChainRef) (r : RecRun) : State :=
  let next : W64 := BitVec.ofNat 64 (memNat s (r.pa + 48) 8)
  if next = 0 then onChain s x fun c => { c with state := 0, cur := 0, last := r.addr, inService := none }
  else
    examine (onChain s x fun c =>
      { c with inService := none, cur := next, last := if c.last = r.addr then next else c.last }) x

/-- STATUS and OWN = 3, and the tag removed. -/
def returnRecord (s : State) (r : RecRun) (status : Cause) : State :=
  let t := statusAt s r.pa 3 status
  { t with owned := t.owned.erase (r.pa / 128) }

/-! ### The waits of an engine (R388, R393, R396) -/

/-- How a registration of an engine's wait ends. -/
inductive EngineReg where
  | waits (s : State)
  | deadlock
  /-- No entry is free: the engine stalls (R399). -/
  | full
  /-- The engine stops for the host (R41, R399). -/
  | host (s : State)

def engineWaits (s : State) (agent : W32) : Bool := s.engWaits.any fun e => e.agent == agent

/-- An engine's wait removed. -/
def dropEngineWait (s : State) (agent : W32) : State :=
  if engineWaits s agent then settlePrio (sweepObjs { s with engWaits := s.engWaits.filter fun e => e.agent != agent }) else s

/-- An engine registers a wait of one of its operations on an object. -/
def registerEngine (s : State) (d : Fin 2) (agent : W32) (who : Issuer) (key : ObjKey) (kind : Nat) : EngineReg :=
  let p := who.part
  let e := opDie s p d
  match ensureObjBy s who.spill e p key kind with
  | (.full, _) => .full
  | (.host, _) => .host (stopEngine s who agent)
  | (_, s1) =>
    let link : WaitLink := ⟨false, false, key, s.dies[e].clock, .record, false, s.nextKey⟩
    let put := fun (l : WaitLink) => { s1 with engWaits := s1.engWaits ++ [⟨agent, l, 0⟩], nextKey := s1.nextKey + 1 }
    match cycleSearch (put link) agent with
    | .none => .waits (settlePrio (put link))
    | .long => .waits (settlePrio (put { link with long := true }))
    | .cycle m =>
      if (s.parts[p]).pfmode.getLsbD 2 then
        let s2 := put link
        let item : ParkedItem := ⟨who.tid.getD 0, 0x29, m.map fun e => e.1⟩
        .waits (tellHost (onPart (holdMembers s2 m) p fun q => { q with parked := item :: q.parked }) (.members p (memberList s2 m)))
      else .deadlock

/-! ### The instructions -/

/-- The channel that an instruction names: of the issuing core's cluster. -/
def channelOf (s : State) (ch : Fin 8) : ChainRef :=
  .chan (waveDie s.wave) (Fin.ofNat 96 (8 * (coreNum s.wave.ids.core / 8) + ch.val))

/-- A channel of another partition (R357). -/
def chanForeign (s : State) (x : ChainRef) : Bool := chainPart s x != some s.wave.ids.part

/-- CHKICK (R357). -/
def execChkick (ch : Fin 8) (a : KReg) (s : State) : Out :=
  let head := s.wave.regs.k[a]
  let x := channelOf s ch
  if chanForeign s x || (head != 0 && !recordAddrOk head) then .next (trapWave s 0x3F)
  else if !storesAcked s 4 then .next (stall s)
  else if isVersioned s then .next (retireWave (defer s (.chkick ch head)) 4)
  else .next (retireWave (kickChain s x head (issuerOf s)) 4)

/-- NEXT of a record as the issuing gang reads it. -/
def nextField (s : State) (pa : Nat) : Nat :=
  leNat ((List.range 8).map fun i => (gangVersion s s.wave.ids.gang (pa + 48 + i)).getD (memByte s (pa + 48 + i)))

/-- CHTAIL (R358). -/
def execChtail (ch : Fin 8) (a : KReg) (s : State) : Out :=
  let rec0 := s.wave.regs.k[a]
  let x := channelOf s ch
  if chanForeign s x || !recordAddrOk rec0 then .next (trapWave s 0x3F)
  else if !storesAcked s 4 then .next (stall s)
  else
    match waveTranslate s rec0.toNat .read with
    | (.fail c, t) => .next (trapValue t c rec0 0)
    | (.held, t) => .next (holdWave t 0x20)
    | (.ok pa, t) =>
      if lostRead t t.wave.ids.part (some t.wave.ids.gang) (bytesFrom (pa + 48) 8) then
        .next (dataLost t t.wave.ids.part [t.wave.ids.gang] (pa + 48))
      else if nextField t pa ≠ 0 then .next (trapWave t 0x3F)
      else if isVersioned t then .next (retireWave (defer t (.chtail ch rec0)) 4)
      else .next (retireWave (appendChain t x rec0 (issuerOf t)) 4)

/-! ### The channels' steps -/

/-- CHANNEL_POLL (R355). -/
def execChannelPoll (d : Fin 2) (ch : Fin 96) (s : State) : Out :=
  if pollDue s (.chan d ch) then .next (pollAgain s (.chan d ch)) else .next s

/-- A channel's record ends: STATUS, OWN, the tag, the completion, then the chain (R356). -/
def endRecord (s : State) (d : Fin 2) (ch : Fin 96) (r : RecRun) (o : CopyOp) : State :=
  let s1 := dropEngineWait (returnRecord s r r.status) (engToken d 0 ch.val)
  let compl := snapField r.snap 319 256
  let mask := copyMask o.kind
  let n := if isStream r.snap then 0 else copyBytes o
  let err := r.status != 0 || r.err || (o.moved.any fun m => m.err)
  let v0 := (o.moved.map fun m => m.clk).getD o.who.clk
  let v := if err then recordsClk s o.who v0 else v0
  let s2 :=
    if compl = 0 ∨ (complCheck s1 o.who mask compl).isSome then s1 else completeAt s1 o.who mask compl n err v
  nextRecord s2 (.chan d ch) r

/-- A record in service with a field of it replaced. -/
def onRecord (s : State) (d : Fin 2) (ch : Fin 96) (f : RecRun → RecRun) : State :=
  onChan s d ch fun c => { c with inService := c.inService.map f }

/-- The cluster whose engine a channel belongs to. -/
def chanCluster (d : Fin 2) (ch : Fin 96) : Fin 24 := clusterOf (chanCore d ch)

/-- The operation of a channel's record takes its place in the acceptance order (R340). -/
def acceptOp (s : State) (d : Fin 2) (ch : Fin 96) : State :=
  onRecord { s with nextKey := s.nextKey + 1 } d ch fun r => { r with op := r.op.map fun o => { o with seq := s.nextKey + 1 } }

/-- What a channel's record does next, outside stream tiles: it is taken up when its bytes fit (R352). -/
def recordStage (s : State) (d : Fin 2) (ch : Fin 96) (r : RecRun) : CopyStage :=
  match r.op with
  | none => .waits
  | some o =>
    if r.finished then .finish
    else if isStream r.snap then .waits
    else if o.seq = 0 then (if copyFits s o then .accept else .waits)
    else opStage s (chanCluster d ch) o

/-- RECORD_RETURN: the next step of the record in service: its reads, its moves, or its return (R355, R356). -/
def execRecordReturn (d : Fin 2) (ch : Fin 96) (s : State) : Out :=
  match (s.dies[d].chans[ch]).inService with
  | none => .next s
  | some r =>
    match r.op, recordStage s d ch r with
    | none, _ | _, .waits => .next s
    | some _, .accept => .next (acceptOp s d ch)
    | some o, .ask =>
      .next (onRecord (askRows s o) d ch fun r => { r with op := some { o with sent := true, since := s.dies[coreDie o.who.core].clock } })
    | some o, .finish => .next (settleObjs (endRecord s d ch r o))
    | some o, .move =>
      if copyLost s o then .next (onRecord s d ch fun r => { r with status := 0x4D, err := true, finished := true })
      else
      match performMoves s o with
      | .full => .next (versionFullFor s o.who.part (o.who.tid.getD 0) (o.who.gang.getD ⟨0, 0⟩))
      | .deferred t => .next (onRecord t d ch fun r => { r with finished := true })
      | .goes t n => .next (onRecord t d ch fun r => { r with op := some n })

/-! ### Streams (R359, R360) -/

/-- The barrier that a tile waits for, and the one on which it arrives. -/
def tileBars (snap : List W8) (i : Nat) : Nat × Nat :=
  let x := streamOf snap
  let k := i % x.nslot
  if x.drain then (k, x.nslot + k) else (x.nslot + k, k)

/-- Whether the ring lets a tile go: GEN of its barrier has reached the tile's round. -/
def tileOpen (snap : List W8) (i : Nat) (o : Bar) : Bool :=
  let x := streamOf snap
  let j := i / x.nslot + if x.drain then 1 else 0
  decide ((o.gen + 2 ^ 16 - j % 2 ^ 16) % 2 ^ 16 < 2 ^ 15)

/-- What a stream record does next. -/
inductive TileStage where
  | none
  | stop (c : Cause)
  | register (key : ObjKey)
  | accept
  | move (v : Clk)
  | arrive
  deriving DecidableEq, Repr

def tileStage (s : State) (d : Fin 2) (ch : Fin 96) (r : RecRun) (o : CopyOp) : TileStage :=
  let agent := engToken d 0 ch.val
  if engineStopped s o.who.part agent then .none
  else if o.moved.isSome then (if opStage s (chanCluster d ch) o == .finish then .arrive else .none)
  else if (o.who.gang.bind fun k => findGang s k).any fun g => g.evictedAt.isSome then .none
  else
    match ringBar s o.who r.snap (tileBars r.snap r.tile).1 with
    | none => .stop 0x1A
    | some b =>
      if !tileOpen r.snap r.tile (barOf (leNat (spadBytes b.1 b.2 16))) then
        (if engineWaits s agent then .none else .register (.spad b.1.gang b.1.index b.2))
      else
        match tileCheck s r.snap o with
        | some c => .stop c
        | none =>
          let v := spadClkAt b.1 b.2 16 o.who.clk
          if o.seq = 0 then (if copyFits s o then .accept else .none)
          else if opStage s (chanCluster d ch) { o with who := { o.who with clk := v } } == .move then .move v
          else .none

/-- The record ends with a cause. -/
def stopRecord (s : State) (d : Fin 2) (ch : Fin 96) (c : Cause) : State :=
  onRecord (dropEngineWait s (engToken d 0 ch.val)) d ch fun r => { r with status := c, err := true, finished := true }

/-- A tile is complete: it arrives on its barrier, and the next tile follows. -/
def finishTile (s : State) (d : Fin 2) (ch : Fin 96) (r : RecRun) (o : CopyOp) : State :=
  let err := o.moved.any fun m => m.err
  let v0 := (o.moved.map fun m => m.clk).getD o.who.clk
  let v := if err then recordsClk s o.who v0 else v0
  let s1 :=
    match ringBar s o.who r.snap (tileBars r.snap r.tile).2 with
    | some b => engineArrives s b.1.gang b.1.index b.2 (if (streamOf r.snap).drain then 0 else copyBytes o) err v
    | none => s
  onRecord s1 d ch fun r =>
    if r.tile + 1 ≥ (streamOf r.snap).tiles then { r with err := r.err || err, finished := true }
    else { r with tile := r.tile + 1, err := r.err || err, op := some (tileOp r.snap o.who (r.tile + 1)) }

/-- STREAM_TILE: the next step of a stream record: its wait, the moves of a tile, or the tile's arrival. -/
def execStreamTile (d : Fin 2) (ch : Fin 96) (s : State) : Out :=
  let agent := engToken d 0 ch.val
  match (s.dies[d].chans[ch]).inService with
  | none => .next s
  | some r =>
    match r.op with
    | none => .next s
    | some o =>
      if r.finished || !isStream r.snap then .next s
      else
        match tileStage s d ch r o with
        | .none => .next s
        | .stop c => .next (stopRecord s d ch c)
        | .accept => .next (acceptOp s d ch)
        | .register key =>
          (match registerEngine s d agent o.who key 1 with
            | .waits t | .host t => .next t
            | .deadlock => .next (stopRecord s d ch 0x29)
            | .full => .next s)
        | .move v =>
          if copyLost s o then .next (stopRecord s d ch 0x4D)
          else
          (match performMoves (dropEngineWait s agent) { o with who := { o.who with clk := v } } with
            | .full => .next (versionFullFor s o.who.part (o.who.tid.getD 0) (o.who.gang.getD ⟨0, 0⟩))
            | .deferred t => .next t
            | .goes t n => .next (onRecord t d ch fun r => { r with op := some n }))
        | .arrive => .next (finishTile s d ch r o)

/-! ### The host (R353, R357) -/

/-- HOST_CHANNEL_KICK: it acts as CHKICK does; a head that is no record's address is refused as R449 refuses it. -/
def execHostChannelKick (d : Fin 2) (ch : Fin 96) (head : W64) (s : State) : Out :=
  let x : ChainRef := .chan d ch
  let p := (chainPart s x).getD 0
  if !s.pkg.ready then .next s
  else if head != 0 && !recordAddrOk head then .next (reportCommand (onChain s x staleUp) p head 0x3F)
  else .next (kickChain s x head (hostIssuer p (chanCore d ch)))

/-! ### The channels' next step -/

/-- Whether a stream record has a step to take: a wait that finds no entry is none. -/
def tileReady (s : State) (d : Fin 2) (ch : Fin 96) (r : RecRun) (o : CopyOp) : Bool :=
  match tileStage s d ch r o with
  | .none => false
  | .register key => (ensureObjBy s o.who.spill (opDie s o.who.part d) o.who.part key 1).1 != .full
  | _ => true

/-- The next step of one channel. -/
def channelStep (s : State) (d : Fin 2) (ch : Fin 96) : Option Instr :=
  let c := s.dies[d].chans[ch]
  match c.inService with
  | none => none
  | some r =>
    match r.op with
    | none => none
    | some o =>
      if recordStage s d ch r != .waits then some (.recordReturn d ch)
      else if isStream r.snap && !r.finished && tileReady s d ch r o then some (.streamTile d ch)
      else none

/-- The channels' next step, if any. -/
def channelEvent (s : State) : Option Instr :=
  let on := fun (d : Fin 2) => if s.dies[d].chans.toList.all fun c => c.inService.isNone then none else (List.finRange 96).findSome? (channelStep s d)
  (on 0).or (on 1)

/-- The next re-read of a polling channel that is due. -/
def channelPollEvent (s : State) : Option Instr :=
  let on := fun (d : Fin 2) =>
    if s.dies[d].chans.toList.all fun c => c.state != 2 && !(c.state == 1 && c.inService.isNone) then none
    else ((List.finRange 96).find? fun ch => pollDue s (.chan d ch)).map fun ch => Instr.channelPoll d ch
  (on 0).or (on 1)

end Sys2Proof.Machine
end

