-- ==== Sys2Proof/Machine/Life.lean ====
section
/-!
DEFINITION. The end of waves, groups and gangs (R208, R337, R366, R368) and the selector of schedule variants (R33, R34).
-/

namespace Sys2Proof.Machine

/-! ### The selector (R33, R34) -/

/-- The variant with the smallest bound at or above the size, lowest index first, among the eligible ones. -/
def selectVariant (l : List VariantEnt) (size : Nat) (ok : VariantEnt → Bool) : Option (Nat × VariantEnt) :=
  let fit := (l.mapIdx fun i v => (i, v)).filter fun x => ok x.2 && decide (size ≤ x.2.bound)
  match fit with
  | [] => none
  | x :: xs => some (xs.foldl (fun a b => if b.2.bound < a.2.bound then b else a) x)

/-- The variant of an index. -/
def variantAt (l : List VariantEnt) (i : Nat) : Option VariantEnt := l[i]?

/-! ### The end of a wave (R208) -/

/-- The sums over a gang's cores of each of the four counters, saturating (R335, R337, log entry 18). -/
def passCounters (s : State) (k : GangKey) : List W64 :=
  let cores := (s.groups.filter fun g => g.gang == k).map fun g => g.core
  (List.finRange 4).map fun c =>
    BitVec.ofNat 64 (min (cores.foldl (fun n x => n + ((s.cores[x]).pm[c]).value.toNat) 0) (2 ^ 64 - 1))

/-- What a pass of PMREPLAY records when its task's waves have ended (R337). -/
def recordPass (s : State) (t : Task) : State :=
  onTask s t.tid t.part fun x =>
    { x with replay := x.replay.map fun r =>
        { r with started := false, passes := (passCounters s t.gang, x.digest) :: r.passes } }

/-- A gang's cores are released: scratchpads, barriers, tiles, monitor slots, pins and counters (R241, R264, R366). -/
def releaseCores (s : State) (k : GangKey) : State :=
  let cores := (s.groups.filter fun g => g.gang == k).map fun g => g.core
  let meas := (findGang s k).any fun g => g.meas
  let drop := fun (c : Core) =>
    { c with
      bound := c.bound.filter fun b => b.1 != k
      pm := if meas then Vector.replicate 4 ⟨0, false, 0⟩ else c.pm }
  let s1 := cores.foldl (fun t c => onCore t c drop) s
  sweepObjs { s1 with
    groups := s1.groups.filter fun g => g.gang != k
    gangs := s1.gangs.map fun g => if g.key = k then { g with pins := [] } else g }

/-- A task whose waves have all ended (R428). -/
def markEnded (s : State) (t : Task) : State := onTask s t.tid t.part fun x => { x with ended := true }

/-- A group becomes idle: it waits, as a registered wait on the records of its queue (R368, R479). -/
def idleGroup (s : State) (k : GangKey) (i : Fin 8) : State :=
  match findGroup s k i.val, findLaunch s k.launch with
  | some g, some l =>
    let s1 := onGroup s k i fun g => { g with task := none, idleSince := some s.nextKey }
    let d := opDie s l.part (coreDie g.core)
    let key : ObjKey := .recTask l.part l.snap.tq
    let link : WaitLink := ⟨false, false, key, s.dies[d].clock, .record, false, s.nextKey⟩
    { (ensureObj s1 d l.part key 5).2 with
      engWaits := s1.engWaits ++ [⟨idleAgent g.core, link, 0⟩]
      nextKey := s.nextKey + 1 }
  | _, _ => s

/-- The idle wait of a group on a queue ends (R368). -/
def wakeGroup (s : State) (g : Group) : State :=
  sweepObjs (onGroup { s with engWaits := s.engWaits.filter fun e => !idleWait e g } g.gang g.index fun y => { y with idleSince := none })

/-- When no wave of a task is left, the task has ended (R366, R368). -/
def afterEnd (s : State) (w : Wave) : State :=
  match findTask s w.ids.tid w.ids.part with
  | none => s
  | some t => if (taskWaves s (taskKey t)).isEmpty then markEnded s t else s

/-- A wave's window has closed: no core's test is deferred by it any longer, in a lockstep partition the paired core's too (R29, R205, R413). -/
def windowClosed (s : State) (w : Wave) : State :=
  { s with cores := s.cores.map fun c => { c with testAfter := c.testAfter.filter fun t => t != w.ids.token } }

/-- The end of the issuing wave: its slot, window, private memory, frame and wait go, and its digest joins the task's (R208, R239, R338). -/
def endWave (s : State) : State :=
  let w := s.wave
  let s0 := onGroup s w.ids.gang w.ids.group fun g => { g with endedWaves := w.ids.token :: g.endedWaves }
  let s1 := onTask s0 w.ids.tid w.ids.part fun t => { t with digest := t.digest ^^^ w.digest, clk := clkJoin t.clk w.clk, waves := w.ids.token :: t.waves }
  let s2 := onWave s1 fun w =>
    { w with
      run := .ended
      handler := false
      npOpen := false
      npleft := 0
      npOwed := false
      priv := []
      backing := []
      wait := none
      regs := { w.regs with pflag := false } }
  let s3 := onCore (windowClosed s2 w) w.ids.core fun c => { c with l1p := c.l1p.filter fun x => x.1 != w.ids.token }
  settlePrio (sweepObjs (afterEnd s3 w))

end Sys2Proof.Machine
end

