-- ==== Sys2Proof/Machine/Start.lean ====
section
/-!
DEFINITION. The start of waves (R141, R239, R240, R243, R276, R278, R338, R365, R387), wave slots and register-file room (R23, R36, R37).
-/

namespace Sys2Proof.Machine

/-! ### Wave slots and residency -/

/-- A gang that has been evicted as a whole (R409). -/
def gangAway (s : State) (k : GangKey) : Bool := (findGang s k).any fun g => g.evictedAt.isSome

/-- The wave slots of a core that are in use: END frees a slot, and eviction does (R208, R409). -/
def usedSlots (s : State) (c : Fin 192) : List (Fin 48) :=
  ((liveWaves s).filter fun w => w.ids.core == c && w.run != .evicted && !gangAway s w.ids.gang).map fun w => w.ids.slot

/-- The lowest free slot of a sub-core. -/
def freeSlotOf (used : List (Fin 48)) (sub : Nat) : Option (Fin 48) :=
  ((List.range 12).find? fun i => !used.contains (Fin.ofNat 48 (12 * sub + i))).map fun i => Fin.ofNat 48 (12 * sub + i)

/-- Slots for a group's waves from wave i on, with base b (R23, R36). -/
def takeSlots (b i : Nat) : Nat → List (Fin 48) → Option (List (Fin 48))
  | 0, _ => some []
  | n + 1, used =>
    match freeSlotOf used ((b + i) % 4) with
    | none => none
    | some x => (takeSlots b (i + 1) n (x :: used)).map fun l => x :: l

/-- The lowest base that passes, with the slots (R36). -/
def findBase (s : State) (c : Fin 192) (waves : Nat) : Option (Fin 4 × List (Fin 48)) :=
  (List.finRange 4).findSome? fun b => (takeSlots b.val 0 waves (usedSlots s c)).map fun l => (b, l)

/-- The register-file entries of a wave (R37). -/
def footprintOf (nregs : Nat) (mirror : Bool) : Nat := 16 + (nregs + 3) / 4 * 4 + if mirror then 16 else 0
def footprint (w : Wave) : Nat := footprintOf w.regs.nregs.val w.regs.mirrorOn

/-- Whether a wave's footprint stands in its sub-core's register file; a wave held for the host is parked, once its loads have returned (R41, R268). -/
def isResident (w : Wave) : Bool :=
  w.run == .running || w.run == .stalled || (w.run == .held && w.flights.any fun f => f.path == .gload || f.path == .aload)

def sameSubCore (w : Wave) (c : Fin 192) (slot : Fin 48) : Bool := w.ids.core == c && w.ids.slot.val / 12 == slot.val / 12

/-- The register-file entries in use on a slot's sub-core, of 384 (R37). -/
def entriesUsed (s : State) (c : Fin 192) (slot : Fin 48) : Nat :=
  ((liveWaves s).filter fun w => sameSubCore w c slot && isResident w && !gangAway s w.ids.gang).foldl (fun n w => n + footprint w) 0

/-! ### Wave start -/

/-- The wave token of the n-th wave of a die (R387). -/
def waveToken (d : Fin 2) (n : Nat) : W32 := BitVec.ofNat 32 (d.val * 2 ^ 30 + 1 + n % (2 ^ 30 - 1))

/-- What a wave starts with beside its place: entry, k0 to k2, and its variant. -/
structure StartInfo where
  entry : W64
  k0 : W64
  k1 : W64
  k2 : W64
  variant : Fin 8
  tid : W64
  deriving DecidableEq, Repr

/-- The registers of a wave at its start (R141, R148, R150, R365). -/
def startRegs (l : Launch) (v : VariantEnt) (x : StartInfo) : Regs :=
  { Regs.reset with
    pc := x.entry
    k := (((Regs.reset.k.set 0 x.k0).set 1 x.k1).set 2 x.k2).set l.sizek.val l.snap.size
    prio := l.snap.prio
    tbase := l.snap.tbase
    variant := x.variant
    nregs := Fin.ofNat 41 (min v.nregs 40)
    mirrorOn := v.mirror }

/-- A wave started in a slot: its clock is what its die has applied (R276, R278), its epoch the core's (R243), and its core fetches instructions anew (R93). -/
def startWave (s : State) (l : Launch) (v : VariantEnt) (x : StartInfo) (g : Group) (i : Nat) (slot : Fin 48) : State :=
  let d := coreDie g.core
  let v0 := s.dies[d].applied
  let room := decide (entriesUsed s g.core slot + footprintOf v.nregs v.mirror ≤ 384)
  let w : Wave := { Wave.reset with
    ids := ⟨waveToken d s.dies[d].tokens, l.part, g.gang, g.index, Fin.ofNat 16 i, g.core, slot, x.tid⟩
    regs := startRegs l v x
    run := if room then .running else .parked
    psize := l.snap.psize
    pbase := Config.privateBase l.part.val g.core.val slot.val
    eprio := l.snap.prio
    clk := v0
    floor := v0
    digest := BitVec.ofNat 64 (g.gang.index.toNat * 256 + g.index.val * 16 + i)
    readySince := s.free }
  let r := acquireStep (onCore s g.core fun c => { c with icache := [] }) w
  onDie { r.1 with waves := r.1.waves ++ [r.2] } d fun y => { y with tokens := y.tokens + 1 }

/-- The waves of a group started from wave i on. -/
def startWaves (l : Launch) (v : VariantEnt) (x : StartInfo) (g : Group) : Nat → List (Fin 48) → State → State
  | _, [], s => s
  | i, slot :: rest, s => startWaves l v x g (i + 1) rest (startWave s l v x g i slot)

/-! ### Room for versioned work (R432) -/

/-- Whether another versioned task of a partition holds speculative lines. -/
def othersSpeculate (s : State) (p : Fin 24) (tid : W64) : Bool :=
  s.vlines.any fun l => l.task.part == p && l.task.tid != tid

/-- The tasks of a partition that run alone until they commit: those admitted, and those that wait in a queue. -/
def aloneTasks (s : State) (p : Fin 24) : List W64 :=
  ((s.tasks.filter fun t => t.part == p && t.alone && !t.committed).map fun t => t.tid) ++
    (s.parts[p]).taskQ.toList.flatMap fun q => (q.filter fun e => !e.taken && decide (0 < e.vfull)).map fun e => e.tid

/-- Whether a task stands before another in a task queue, so that the other can only follow it (R368). -/
def standsBefore (s : State) (p : Fin 24) (x y : W64) : Bool :=
  (s.parts[p]).taskQ.toList.any fun q => (q.takeWhile fun e => e.tid != y).any fun e => e.tid == x && q.any fun e => e.tid == y

/-- Whether a versioned task may start: one that runs alone finds no speculative line, and no other starts meanwhile, but for those without which it could not run: the entries before it in its queue, and the gang task of a gang that serves a queue, `serves` (log entry 32). -/
def mayStart (s : State) (p : Fin 24) (tid : W64) (versioned alone serves : Bool) : Bool :=
  !versioned || (if alone then !othersSpeculate s p tid
    else serves || (aloneTasks s p).all fun t => t == tid || standsBefore s p tid t)

end Sys2Proof.Machine
end

