-- ==== Sys2Proof/Machine/Commit.lean ====
section
/-!
DEFINITION. The life of tasks: taking a record of a task queue (R368), commit with its deferred operations and signals (R288, R428, R431, R451), passes of a replay measurement (R337), the lockstep comparison (R461).
-/

namespace Sys2Proof.Machine

/-! ### When a task commits (R428) -/

/-- Engine operations of a task that have not ended. -/
def engineBusy (s : State) (t : Task) : Bool :=
  let mine := fun (w : Issuer) => w.tid == some t.tid && w.part == t.part
  let copies := fun (d : Fin 2) => (s.dies[d].copyWait ++ s.dies[d].copyRun).any fun o => mine o.who && o.forTask.isNone
  copies 0 || copies 1 ||
    (s.groups.any fun g => g.gang == t.gang && (s.cores[g.core].mxWait ++ s.cores[g.core].mxQueue).any fun e => mine e.who) ||
    ((findGang s t.gang).any fun g => g.saved.any fun e => mine e.who) ||
    s.colls.any fun c => c.parts.any fun x => x.who.any mine

/-- Whether earlier entries of an in-order queue, outside a commit group, hold a task back (R7, R366, R368). -/
def heldBack (s : State) (grp : List TaskKey) (t : Task) : Bool :=
  let p := s.parts[t.part]
  match t.group with
  | none =>
    (match findLaunch s t.gang.launch with
      | none => false
      | some l =>
        p.qord.getLsbD l.queue.val &&
          ((p.launchQ[l.queue]).takeWhile fun k => k != l.key).any fun k =>
            (findLaunch s k).any fun e =>
              e.nextGang != e.snap.gcount || !e.again.isEmpty ||
                s.tasks.any fun x => x.gang.launch == k && x.group.isNone && !x.committed && !grp.contains (taskKey x))
  | some _ =>
    p.qord.getLsbD (8 + t.queue.val) &&
      ((p.taskQ[t.queue]).takeWhile fun e => e.tid != t.tid).any fun e =>
        !grp.contains ⟨t.part, e.tid⟩ && !(s.tasks.any fun x => x.tid == e.tid && x.part == t.part && x.committed)

/-- The agent under which the waits of a task's commit stand: its last wave, or the router of its core where it had none (log entry 32). -/
def commitAgent (s : State) (t : Task) : W32 :=
  match t.waves with
  | x :: _ => x
  | [] => idleAgent (Fin.ofNat 192 ((((findGang s t.gang).map fun g => g.block.val).getD 0) + (t.group.getD 0).val))

/-- Whether a task's commit has stopped for the host, as a member of a cycle (R396). -/
def commitStopped (s : State) (t : Task) : Bool := engineStopped s t.part (commitAgent s t)

/-- A task that has ended and has nothing of its own left to do. -/
def taskDone (s : State) (t : Task) : Bool :=
  t.ended && !t.committed && !engineBusy s t && !commitStopped s t && !((s.parts[t.part]).parked.any fun i => i.tid == t.tid)

/-- Whether a task's group still stands with it: a task that waits for its queue's order has left it (R368). -/
def onItsGroup (s : State) (t : Task) : Bool :=
  (t.group.bind fun i => findGroup s t.gang i.val).any fun g => g.task == some t.tid

/-- Whether the cores of a gang task's gang are still to be released (R366). -/
def standing (s : State) (t : Task) : Bool := t.group.isNone && s.groups.any fun g => g.gang == t.gang

/-- A task with nothing left but its commit. -/
def taskReady (s : State) (grp : List TaskKey) (t : Task) : Bool := taskDone s t && !standing s t && !heldBack s grp t

/-- The commit group of a task: itself, where no task observes another. -/
def groupOf (s : State) (t : Task) : List TaskKey :=
  if (observedOf s).isEmpty then [taskKey t] else commitGroup s (taskKey t)

/-- The uncommitted tasks outside a commit group that some of its tasks observe (R428). -/
def producersOut (s : State) (grp obs : List TaskKey) : List TaskKey :=
  ((observedOf s).filter fun o => obs.contains o.observer && !grp.contains o.producer &&
    s.tasks.any fun x => taskKey x == o.producer && !x.committed).map fun o => o.producer

/-- The tasks that commit with a task in this package, when all of them are ready and every task that they observe has committed. -/
def localGroup (s : State) (t : Task) : Option (List Task) :=
  let grp := groupOf s t
  let tasks := s.tasks.filter fun x => grp.contains (taskKey x)
  if tasks.all (taskReady s grp) && (producersOut s grp grp).isEmpty then some tasks else none

/-- The members in other packages that some tasks observe (R457). -/
def farOf (s : State) (tasks : List Task) : List FarMember := s.farMembers.filter fun m => (tasks.map taskKey).contains m.task

/-- The tasks that commit with a task, when the members of their collectives in other packages could commit too (R428, R457, log entry 34). -/
def readyGroup (s : State) (t : Task) : Option (List Task) :=
  (localGroup s t).filter fun l => (farOf s l).all fun m => m.ready && m.told

/-- The other packages are told that the members here could commit: none where there is nothing to tell. -/
def tellFar (s : State) (t : Task) : Option State :=
  (localGroup s t).bind fun l =>
    let new := (farOf s l).filter fun m => !m.told
    if new.isEmpty then none
    else
      let keys := (new.map fun m => (m.dpid, m.group, m.cseq, m.mine)).eraseDups
      let out := keys.flatMap fun k => (farRanks s k.2.1).map fun r => (r, RemoteReq.memberReady (BitVec.ofNat 16 k.1) k.2.1 k.2.2.1 k.2.2.2)
      some (sendRequests { s with farMembers := s.farMembers.map fun m => if new.contains m then { m with told := true } else m } out)

/-! ### The version enters the write order (R288) -/

/-- The latest versioned value of each byte of some tasks, with its unit. -/
def versionCells (s : State) (grp : List TaskKey) : List VByte :=
  (s.vbytes.filter fun v => grp.contains v.task).foldr (fun v l => v :: l.filter fun b => b.pa != v.pa) []

/-- The bytes of those values. -/
def versionBytes (s : State) (grp : List TaskKey) : List (Nat × W8) := (versionCells s grp).map fun v => (v.pa, v.val)

/-- What the waves of some gangs and tasks have seen: the dependencies of a commit (R288). -/
def commitDep (s : State) (tasks : List Task) : Clk :=
  let gangs := tasks.map fun t => t.gang
  ((s.tasks.filter fun t => gangs.contains t.gang).map fun t => t.clk).foldl clkJoin
    (((liveWaves s).filter fun w => gangs.contains w.ids.gang).foldl (fun v w => clkJoin v w.clk) {})

/-- Bytes written as one commit: a write for each written unit, its clock covering every other one (R288). Each byte comes with the first byte of its unit. -/
def commitBytes (s : State) (dep : Clk) (bytes : List (Nat × Nat × W8)) : State :=
  let units := (bytes.map fun b => b.1).eraseDups
  let r := units.foldl (fun (x : State × Clk) u =>
    let q := stampUnit x.1 none 0 dep ((bytes.filter fun b => b.1 == u).map fun b => b.2)
    (q.1, clkRaise x.2 q.2.1 q.2.2)) (s, dep)
  let new := fun (x : WriteRec) => decide (s.dies[x.home].wctr < x.stamp)
  { r.1 with
    lag := r.1.lag.map fun x => if new x then { x with cover := r.2 } else x
    clks := clksPut r.1.clks (bytes.map fun b => b.2) r.2 }

/-- What a version leaves when it is freed: tags, links and the waits on its commit, lines, signals that can be withdrawn. -/
def freeVersions (s : State) (grp : List TaskKey) : State :=
  let ended := fun (e : EngineWait) => match e.link.key with | .commit t => grp.contains t | _ => false
  let s1 := dropObserved s grp
  sweepObjs { s1 with
    vbytes := s1.vbytes.filter fun v => !grp.contains v.task
    vlines := s1.vlines.filter fun v => !grp.contains v.task
    tags := s1.tags.filter fun t => !grp.contains t.2
    signals := s1.signals.filter fun e => !((findGang s e.1).any fun g => grp.contains ⟨g.part, e.2.1⟩)
    engWaits := s1.engWaits.filter fun e => !ended e
    farMembers := s1.farMembers.filter fun m => !grp.contains m.task }

/-! ### Replay measurement (R337) -/

/-- A task whose pass is not the last one. -/
def morePasses (t : Task) : Bool := t.replay.any fun r => decide (r.passes.length < r.npass)

/-- The result record of a measurement. -/
def resultBytes (r : Replay) : List W8 :=
  let l := r.passes.reverse
  let d0 := (l.head?.map fun p => p.2).getD 0
  leBytes 8 (r.npass + if l.any fun p => p.2 != d0 then 16 else 0) ++
    l.flatMap fun p => (p.1 ++ [p.2]).flatMap fun v => leBytes 8 v.toNat

/-- The bytes of a task's result record at their physical addresses; a record that cannot be written is reported. -/
def resultWrites (s : State) (t : Task) : List (Nat × W8) × State :=
  match t.replay with
  | none => ([], s)
  | some r =>
    let b := resultBytes r
    let va := match windowOf s r.result.toNat with | .global a => a | _ => r.result.toNat % 2 ^ 54
    match transPages (partCore s t.part) (some t.gang) t.part va .write (pagesOf va b.length) s with
    | (.ok l, u) => ((keyed va b).map fun x => (paThrough l x.1, x.2), u)
    | (.fail c _, u) => ([], report u (some t.part) 1 c t.tid.toNat)
    | (.held, u) => ([], report u (some t.part) 1 0x20 t.tid.toNat)

/-- The results of some tasks. -/
def allResults : List Task → State → List (Nat × W8) × State
  | [], s => ([], s)
  | t :: rest, s =>
    let r := resultWrites s t
    let q := allResults rest r.2
    (r.1 ++ q.1, q.2)

/-- What a pass records, where it has not: with its group, or with its gang's cores (R337). -/
def closePass (s : State) (t : Task) : State := if t.replay.isSome && (onItsGroup s t || standing s t) then recordPass s t else s

/-- L2 lines evicted (R337). -/
def evictLines (s : State) (l : List (Fin 2 × Nat)) : State :=
  let drop := fun (d : Fin 2) (x : Die) => { x with l2 := x.l2.filter fun y => !l.contains (d, y.line) }
  onDie (onDie s 0 (drop 0)) 1 (drop 1)

/-- The L1 of a core invalidated: its lines of private memory are written back (R239, R337). -/
def emptyL1 (s : State) (c : Fin 192) : State := onCore (spillLines s c s.cores[c].l1p) c fun x => { x with l1 := [] }

/-- A pass ends: the version is discarded, the L2 lines that the task read or wrote leave, L1 is emptied, and the task is relaunched as after containment, with its measurement. -/
def endPass (s : State) (t : Task) : State :=
  let cores := ((findGang s t.gang).map fun g => (List.range g.groups).map fun i => (Fin.ofNat 192 (g.block.val + i) : Fin 192)).getD []
  let s1 := cores.foldl emptyL1 (evictLines s t.lines)
  let s2 := contain (onTask s1 t.tid t.part fun x => { x with relaunches := 0 }) [t.gang] 0x4C true
  let s3 := onTask s2 t.tid t.part fun x => { x with relaunches := t.relaunches, replay := t.replay }
  let back := fun (e : TaskEnt) => if e.tid = t.tid then { e with relaunches := t.relaunches, replay := t.replay } else e
  onPart s3 t.part fun x => { x with taskQ := x.taskQ.map fun q => q.map back }

/-! ### The lockstep comparison (R461) -/

/-- A request to another package as numbers. -/
def reqNums (r : RemoteReq) : List Nat :=
  match r with
  | .read d a n => [0, d.toNat, a.toNat, n]
  | .write d a l => 1 :: d.toNat :: a.toNat :: l.length :: l.map fun b => b.toNat
  | .atom d a o t sat v => [2, d.toNat, a.toNat, o, t, if sat then 1 else 0, v.toNat]
  | .cas d a n x y => [3, d.toNat, a.toNat, n, x.toNat, y.toNat]
  | .counterAdd d a => [4, d.toNat, a.toNat]
  | .contribute d g q i o t sat b root l ver =>
    [5, d.toNat, g, q, i, o, t, if sat then 1 else 0, b, root, if ver then 1 else 0, l.length] ++ l.map fun x => x.toNat
  | .memberReady d g q i => [6, d.toNat, g, q, i]
  | .abandon d g q => [7, d.toNat, g, q]

/-- A deferred operation as numbers, with what it sends. -/
def deferredNums (x : Deferred) : List Nat :=
  match x with
  | .tkpost a => [0, a.toNat]
  | .launch q a => [1, q.val, a.toNat]
  | .chkick ch h => [2, ch.val, h.toNat]
  | .chtail ch r => [3, ch.val, r.toNat]
  | .remoteReq rank r => 4 :: rank :: reqNums r
  | .remoteCopy o rows =>
    let kind : Nat := match o.kind with
      | .plain => 0
      | .multi m => 1 + 8 * m.toNat
      | .dequant => 2
      | .gather _ _ => 3
      | .puts rsig => if rsig then 12 else 4
      | .get => 5
      | .radd t sat rsig => 6 + (if rsig then 8 else 0) + (if sat then 16 else 0) + 32 * t
    [5, kind, o.src.toNat, o.dst.toNat, o.shape.toNat, o.compl.toNat, o.scale.toNat] ++
      rows.flatMap fun r => r.1 :: r.2.length :: r.2.map fun b => b.toNat

/-- Whether the two dies' digests of a task's write set, its lines and its deferred operations, differ. -/
def lockstepDiffers (s : State) (t : Task) : Bool :=
  let set := versionBytes s [taskKey t]
  let ops := t.deferred.flatMap fun x => deferredNums x.2
  (s.parts[t.part]).lockstep && t.versioned && Config.lockstepDigest set ops != Config.otherDigest s.free set ops

/-- A mismatch is reported; the task is discarded and replayed once, or it goes to the host (R422, R461). -/
def lockstepMismatch (s : State) (t : Task) : State :=
  let s1 := onTask { s with free := s.free + 1 } t.tid t.part fun x => { x with mismatches := x.mismatches + 1 }
  let s2 := report s1 (some t.part) 4 0x4E (t.tid.toNat + (s.parts[t.part]).commits % 2 ^ 16 * 2 ^ 64)
  contain s2 [t.gang] 0x4E ((s.parts[t.part]).pfmode.getLsbD 8 || t.mismatches = 0)

/-! ### Deferred operations (R358, R370, R451) -/

/-- The issuer of a deferred kick: its writes have committed. -/
def deferredIssuer (s : State) (who : Issuer) : Issuer := { who with tid := none, clk := clkNow s, writes := [] }

/-- A post at commit: not performed when its record is no longer submitted. None while its queue is full. -/
def commitPost (s : State) (t : Task) (addr : W64) : Option State :=
  match devTranslate s t.part addr.toNat .write with
  | (.error _, u) => some (markErr u t.gang.launch)
  | (.ok pa, u) =>
    if !taskRoom u t.part pa then none
    else
      match acceptTask u t.part addr pa [] with
      | .ok v => some v
      | .error _ => some (markErr u t.gang.launch)

/-- A launch at commit. -/
def commitLaunch (s : State) (t : Task) (q : Fin 8) (addr : W64) : Option State :=
  match devTranslate s t.part addr.toNat .write with
  | (.error _, u) => some (markErr u t.gang.launch)
  | (.ok pa, u) =>
    if !launchRoom u t.part q then none
    else
      match acceptLaunch u t.part q addr pa with
      | .ok v => some v
      | .error _ => some (markErr u t.gang.launch)

/-- The requests of a deferred copy: its rows at the target, then its remote signal. -/
def copyRequests (s : State) (o : CopyOp) (rows : List (Nat × List W8)) : List (Nat × RemoteReq) :=
  let x := shapeOf o.shape
  let m := rows.foldl (fun m r => (dstRows o x r.1).foldl (writeRow o x r.1 r.2) m) (⟨s, [], {}, [], [], [], false⟩ : Moving)
  m.out ++ rsigRequest s o

/-- The channel of a deferred kick. -/
def deferredChannel (core : Fin 192) (ch : Fin 8) : ChainRef :=
  .chan (coreDie core) (Fin.ofNat 96 (8 * (coreNum core / 8) + ch.val))

/-- One deferred operation performed: none while it waits for room. R358 says nothing of a deferred CHTAIL whose record has NEXT not 0 by then, or cannot be reached: it appends nothing, as a deferred post whose record is no longer submitted posts nothing (R370), and ERR of the launch's COMPL is set (DESIGN CHOICE, log entry 30). -/
def performDeferred (s : State) (t : Task) (who : Issuer) (x : Deferred) : Option State :=
  match x with
  | .tkpost a => commitPost s t a
  | .launch q a => commitLaunch s t q a
  | .chkick ch head => some (kickChain s (deferredChannel who.core ch) head (deferredIssuer s who))
  | .chtail ch a =>
    (match devTranslate s t.part a.toNat .read with
      | (.error _, u) => some (markErr u t.gang.launch)
      | (.ok pa, u) =>
        if lostRead u t.part none (bytesFrom (pa + 48) 8) then some (markErr (report u (some t.part) 2 0x4D (pa % 2 ^ 39)) t.gang.launch)
        else if memNat u (pa + 48) 8 ≠ 0 then some (markErr u t.gang.launch)
        else some (appendChain u (deferredChannel who.core ch) a (deferredIssuer u who)))
  | .remoteReq rank r =>
    some (onTask (sendRequests s [(rank, r)]) t.tid t.part fun y =>
      { y with acks := y.acks ++ [(who.token, rank)], sentAt := s.dies[(0 : Fin 2)].clock })
  | .remoteCopy o rows =>
    let o1 := { o with sent := true, forTask := some t.tid, who := { o.who with tid := none }, since := s.dies[coreDie who.core].clock }
    some (onDie (sendRequests s (copyRequests s o rows)) (coreDie who.core) fun d => { d with copyRun := d.copyRun ++ [o1] })

/-- Whether the commit's writes are applied on both dies: the deferred operations follow them, as they follow a release (R281, R288). -/
def commitApplied (s : State) (t : Task) : Bool := appliedOn s 0 t.writes && appliedOn s 1 t.writes

/-- The deferred operations in order, as far as they go. -/
def sendDeferred (t : Task) : List (Issuer × Deferred) → State → List (Issuer × Deferred) × State
  | [], s => ([], s)
  | x :: rest, s =>
    match performDeferred s t x.1 x.2 with
    | none => (x :: rest, s)
    | some u => sendDeferred t rest u

/-! ### The end of a task (R366, R368) -/

/-- A gang of which no task is left goes. -/
def dropGang (s : State) (k : GangKey) : State :=
  if s.tasks.any fun t => t.gang == k then s else { s with gangs := s.gangs.filter fun g => g.key != k }

/-- A gang task has committed or ended: its launch counts it, and may end. -/
def finishGang (s : State) (t : Task) : State :=
  let s1 := { s with tasks := s.tasks.filter fun x => !(x.tid == t.tid && x.part == t.part) }
  let s2 := onLaunch s1 t.gang.launch fun l => { l with done := l.done + 1 }
  checkLaunch (dropGang s2 t.gang) t.gang.launch

/-- A group task has committed or ended: its signal, its record, its entry, its group. None while its signal waits. -/
def finishGroup (s : State) (t : Task) : Option State :=
  let signalled : Option State :=
    if t.succ = 0 then some s
    else
      match devTranslate s t.part t.succ.toNat .write with
      | (.ok pa, u) => signalAt u deviceWriter t.part pa (clkNow u)
      | (.error c, u) => some (markErr (report u (some t.part) 1 c t.tid.toNat) t.gang.launch)
  signalled.map fun s1 =>
    let s2 := recordStatus s1 t.part t.home.toNat 3 0 t.tid
    let s3 := onPart s2 t.part fun x => { x with taskQ := x.taskQ.map fun q => q.filter fun e => e.tid != t.tid }
    let s4 := { s3 with tasks := s3.tasks.filter fun x => !(x.tid == t.tid && x.part == t.part) }
    dropGang (if onItsGroup s4 t then idleGroup s4 t.gang (t.group.getD 0) else s4) t.gang

/-- Whether something that a committed task has sent is still out. -/
def awaitsAnswers (s : State) (t : Task) : Bool :=
  !t.acks.isEmpty || [(0 : Fin 2), 1].any fun d => s.dies[d].copyRun.any fun o => o.forTask == some t.tid && o.who.part == t.part

/-- A committed task goes on: its deferred operations, their acknowledgements, its signal and its record. -/
def settleCommitted (s0 : State) (t : Task) : State :=
  let s := dropEngineWait s0 (commitAgent s0 t)
  let r := if commitApplied s t then sendDeferred t t.deferred s else (t.deferred, s)
  let s1 := onTask r.2 t.tid t.part fun x => { x with deferred := r.1 }
  match findTask s1 t.tid t.part with
  | none => s1
  | some t1 =>
    if !t1.deferred.isEmpty || awaitsAnswers s1 t1 then s1
    else if t1.group.isNone then finishGang s1 t1
    else (finishGroup s1 t1).getD s1

/-- The commit of a group of tasks in one step, each then going on. -/
def commitTasks (s : State) (tasks : List Task) : State :=
  let grp := tasks.map taskKey
  let r := allResults tasks s
  let extra := r.1
  let bytes := (versionCells r.2 grp).filter fun b => !extra.any fun e => e.1 == b.pa
  let s1 := commitBytes r.2 (commitDep s tasks) (extra.map (fun e => (e.1 / 8 * 8, e)) ++ bytes.map fun v => (v.unit, v.pa, v.val))
  let s2 := freeVersions s1 grp
  let w := newStamps r.2 s1
  let s3 := tasks.foldl (fun u t => onPart (onTask u t.tid t.part fun x => { x with committed := true, writes := w }) t.part
    fun p => { p with commits := p.commits + 1 }) s2
  tasks.foldl (fun u t => ((findTask u t.tid t.part).map (settleCommitted u)).getD u) s3

/-! ### The waits of a commit (R323, R388, R428) -/

/-- What a committed task's next step waits for: room in a queue, or an entry of the pending table. -/
def settleWait (s : State) (t : Task) : Option (ObjKey × Nat) :=
  if !commitApplied s t then none else
  match t.deferred with
  | (_, .tkpost a) :: _ =>
    (match devTranslate s t.part a.toNat .write with
      | (.ok pa, u) => if taskRoom u t.part pa then none else some (.roomTask t.part (Fin.ofNat 16 (bitsOf (memNat u pa 8) 11 8)), 5)
      | _ => none)
  | (_, .launch q _) :: _ => if launchRoom s t.part q then none else some (.roomLaunch t.part q, 5)
  | _ :: _ => none
  | [] =>
    if t.group.isNone || t.succ = 0 || awaitsAnswers s t then none
    else
      match devTranslate s t.part t.succ.toNat .write with
      | (.error _, _) => none
      | (.ok pa, u) =>
        if (signalAt u deviceWriter t.part pa (clkNow u)).isSome then none
        else if (signalWord (memNat u pa 8)).isNone then some (.pending (homeOf pa), 6)
        else
          match devTranslate u t.part (memNat u (pa + 8) 8) .write with
          | (.ok rp, v) => some (.roomTask t.part (Fin.ofNat 16 (bitsOf (memNat v rp 8) 11 8)), 5)
          | _ => none

/-- What a task waits for before or after its commit step, as a registered wait: a task that it observes, room, a pending entry. -/
def commitWait (s : State) (t : Task) : Option (ObjKey × Nat) :=
  if t.committed then settleWait s t
  else if taskDone s t && !standing s t then
    ((producersOut s (groupOf s t) [taskKey t]).head?).map fun p => (.commit p, 7)
  else none

/-- The issuer of a commit's waits. A wait that finds no entry of the table spills, in either mode (log entry 32). -/
def commitIssuer (s : State) (t : Task) : Issuer :=
  let b := ((findGang s t.gang).map fun g => g.block.val).getD 0
  ⟨t.part, some t.gang, t.group.getD 0, Fin.ofNat 192 (b + (t.group.getD 0).val), 0, commitAgent s t, some t.tid, {}, [], true⟩

/-- The registration that a task's commit has to make. -/
def commitRegister (s : State) (t : Task) : Option EngineReg :=
  if engineWaits s (commitAgent s t) then none
  else
    match commitWait s t with
    | none => none
    | some (key, kind) =>
      match registerEngine s (coreDie (commitIssuer s t).core) (commitAgent s t) (commitIssuer s t) key kind with
      | .full => none
      | r => some r

/-- A wait of a commit that would close a cycle, or is suspected to (R396, R398): before the commit step the task is returned with the cause; after it the operation that waits is given up with ERR (log entry 32). -/
def commitEnds (s0 : State) (t : Task) (c : Cause) : State :=
  let s := dropEngineWait s0 (commitAgent s0 t)
  if !t.committed then contain (report s (some t.part) 1 c (taskInfo s t.tid [t.gang])) [t.gang] c false
  else
    let s1 := markErr (report s (some t.part) 1 c t.tid.toNat) t.gang.launch
    onTask s1 t.tid t.part fun x => if x.deferred.isEmpty then { x with succ := 0 } else { x with deferred := x.deferred.drop 1 }

/-- The step of a registration. -/
def registerStep (s : State) (t : Task) (r : EngineReg) : State :=
  match r with
  | .waits u | .host u => u
  | .deadlock => commitEnds s t 0x29
  | .full => s

/-! ### TASK_COMMIT -/

/-- Whether a committed task has something left that it can do. -/
def settles (s : State) (t : Task) : Bool :=
  match t.deferred with
  | x :: _ => commitApplied s t && (performDeferred s t x.1 x.2).isSome
  | [] => !awaitsAnswers s t && (t.group.isNone || (finishGroup s t).isSome)

/-- Whether a task leaves its cores or its group before its commit (R366, R368). -/
def leaves (s : State) (t : Task) : Bool :=
  taskDone s t && (standing s t || (onItsGroup s t && heldBack s (groupOf s t) t))

/-- A task leaves its cores or its group: what its pass counted is recorded. -/
def leaveStep (s : State) (t : Task) : State :=
  let s1 := closePass s t
  match t.group with
  | none => releaseCores s1 t.gang
  | some i => idleGroup s1 t.gang i

/-- The commit of ready tasks: the comparison of a lockstep partition and the passes of a measurement come first. -/
def commitReady (s : State) (tasks : List Task) : State :=
  match tasks.find? (lockstepDiffers s) with
  | some x => lockstepMismatch s x
  | none =>
    let s1 := tasks.foldl closePass s
    let now := s1.tasks.filter fun x => (tasks.map taskKey).contains (taskKey x)
    match now.find? morePasses with
    | some x => endPass s1 x
    | none => commitTasks s1 now

/-- Whether a task has a step of its commit to take. -/
def commitEnabled (s : State) (t : Task) : Bool :=
  !commitStopped s t &&
    ((if t.committed then settles s t else t.ended && (leaves s t || (tellFar s t).isSome || (readyGroup s t).isSome)) ||
      (commitRegister s t).isSome)

/-- The step of a task's commit. -/
def commitStep (s : State) (t : Task) : State :=
  if t.committed && settles s t then settleCommitted s t
  else if !t.committed && leaves s t then leaveStep s t
  else
    match (if t.committed then none else tellFar s t), (if t.committed then none else readyGroup s t) with
    | some u, _ => u
    | none, some tasks => commitReady s tasks
    | none, none =>
      match commitRegister s t with
      | some r => registerStep s t r
      | none => s

/-- TASK_COMMIT (R428): of the tasks with an identifier, the first that has a step to take. -/
def execTaskCommit (tid : W64) (s : State) : Out :=
  match s.tasks.find? fun t => t.tid == tid && (t.ended || t.committed) && commitEnabled s t with
  | some t => .next (commitStep s t)
  | none => .next s

/-! ### TASK_TAKE (R368) -/

/-- The idle groups that serve a queue, the one that has been idle longest first. -/
def idleGroups (s : State) (p : Fin 24) (q : Fin 16) : List Group :=
  let l := s.groups.filter fun g => g.idleSince.isSome && !g.left && ((findLaunch s g.gang.launch).any fun l =>
    l.part == p && l.snap.tserv && l.snap.tq == q) && ((findGang s g.gang).any fun x => x.evictedAt.isNone)
  let age := fun (g : Group) => g.idleSince.getD 0
  l.foldr (fun g acc => (acc.takeWhile fun y => decide (age y < age g)) ++ g :: acc.dropWhile fun y => decide (age y < age g)) []

/-- The first entry of a task queue that no group has taken. -/
def nextEntry (s : State) (p : Fin 24) (q : Fin 16) : Option TaskEnt := (s.parts[p]).taskQ[q].find? fun e => !e.taken

def entVersioned (l : Launch) (e : TaskEnt) : Bool := !l.snap.nover && !e.nover

/-- A group that leaves the cycle; its gang ends with its last group. -/
def leaveGroup (s : State) (g : Group) : State :=
  let s1 := onGroup (wakeGroup s g) g.gang g.index fun y => { y with left := true, task := none }
  if (s1.groups.filter fun y => y.gang == g.gang).all fun y => y.left then
    match s1.tasks.find? fun t => t.gang == g.gang && t.group.isNone with
    | some t => markEnded s1 t
    | none => s1
  else s1

/-- The task of an entry taken by a group: idempotent where its record or its launch says so (R8). -/
def takenTask (p : Fin 24) (q : Fin 16) (l : Launch) (g : Group) (e : TaskEnt) : Task :=
  ⟨e.tid, p, g.gang, some g.index, entVersioned l e && e.entry != 0, e.idem || l.snap.idem, e.relaunches, e.vfull, decide (1 ≤ e.vfull), e.entry == 0,
    [], e.mismatches, e.addr, e.succ, q, [], false, [], [], e.replay, 0, {}, [], 0, false⟩

/-- The task observes those whose tags stood on the counter that posted it (R426, R427). -/
def observeStart (s : State) (t : Task) (e : TaskEnt) : Observe :=
  let from1 := e.after.filter fun u => t.versioned && u != taskKey t &&
    s.tasks.any fun x => taskKey x == u && !x.committed && x.versioned
  linkTasks s (opDie s t.part (gangDie s t.gang)) (taskKey t) (from1.map fun u => ⟨u, taskKey t⟩)

/-- A task whose start would exceed the limit of a commit group waits, and the host learns it once (R422, R427, log entry 32). -/
def tellLimit (s : State) (p : Fin 24) (q : Fin 16) (e : TaskEnt) : Option State :=
  if e.told then none
  else
    let mark := fun (x : TaskEnt) => if x.tid = e.tid then { x with told := true } else x
    some (report (onPart s p fun x => { x with taskQ := x.taskQ.set q.val ((x.taskQ[q]).map mark) }) (some p) 1 0x4A e.tid.toNat)

/-- The head entry of a queue taken by a group: none while it waits, for its turn, for wave slots (R208, log entry 32), or until the die has applied what the acquire at the entry's acceptance covers (R290). -/
def takeStep (s : State) (p : Fin 24) (q : Fin 16) : Option State :=
  match idleGroups s p q, nextEntry s p q with
  | g :: _, some e =>
    (match findLaunch s g.gang.launch with
      | none => none
      | some l =>
        let t := takenTask p q l g e
        if !mayStart s p t.tid t.versioned t.alone false || !clkLe e.seen s.dies[opDie s p (coreDie g.core)].applied then none
        else
          let mark := fun (x : TaskEnt) => if x.tid = e.tid then { x with taken := true } else x
          let s1 := onPart { s with tasks := s.tasks ++ [t] } p fun x => { x with taskQ := x.taskQ.set q.val ((x.taskQ[q]).map mark) }
          if e.entry = 0 then some (leaveGroup s1 g)
          else
            let v := (variantAt l.variants l.chosen).getD ⟨0, 0, 0, 1, 0, false, 0⟩
            match takeSlots g.base.val 0 v.waves (usedSlots s g.core), observeStart s1 t e with
            | some slots, .ok s2 =>
              let s3 := onGroup (wakeGroup s2 g) g.gang g.index fun y => { y with task := some e.tid, slots := slots }
              some (settlePrio (startWaves l v ⟨e.entry, e.arg, e.tile, e.addr, Fin.ofNat 8 l.chosen, e.tid⟩ g 0 slots s3))
            | some _, .limit => tellLimit s p q e
            | _, _ => none)
  | _, _ => none

/-- TASK_TAKE. -/
def execTaskTake (p : Fin 24) (q : Fin 16) (s : State) : Out := .next ((takeStep s p q).getD s)

/-- The next commit or taking of a task, if any. -/
def taskEvent (s : State) : Option Instr :=
  match s.tasks.find? fun t => (t.ended || t.committed) && commitEnabled s t with
  | some t => some (.taskCommit t.tid)
  | none =>
    if s.groups.all fun g => g.idleSince.isNone then none
    else
      (List.finRange 24).findSome? fun p =>
        ((List.finRange 16).find? fun q => !((s.parts[p]).taskQ[q]).isEmpty && (takeStep s p q).isSome).map fun q => .taskTake p q

end Sys2Proof.Machine
end

