-- ==== Sys2Proof/WellFormed.lean ====
section
/-!
DEFINITION. Which terms of Instr the manual's encodings admit: the reserved values that the types of Syntax do not rule out already (R77 to R81, R89, R90, R187, R216, R301, R326, R344, R400, R450), and for the steps without an encoding the ranges of their operands.
-/

namespace Sys2Proof

/-- Holds of the instructions whose row lists 0b00 and 0b11 (R187, R216, R400). -/
def Hold.resultOnly : Hold → Bool
  | .none | .result => true
  | _ => false

/-- Holds of the instructions whose row lists 0b00, 0b01 and 0b11 (R216, R301, R326, R383). -/
def Hold.notSecond : Hold → Bool
  | .b => false
  | _ => true

/-- Holds of an instruction without a lane result and with one source (R77, R187). -/
def Hold.firstOnly : Hold → Bool
  | .none | .a => true
  | _ => false

/-- A cond value of format F3: the value 8 is reserved (R80). -/
def condOk (c : Guard) : Bool := c != 8#4

/-- Assigned TYPE codes are 0 to 14 and assigned ROUND codes 0 to 5 (R85, R86, R89). -/
def modeOk (m : BitVec 13) : Bool := bitsOf m.toNat 8 4 < 15 && bitsOf m.toNat 11 9 < 6

/-- The special registers that SETSR may name (R149, R150). -/
def SpecialReg.writable : SpecialReg → Bool
  | .prio | .tbase | .tbaseh | .mode | .msdepth | .msidx | .msval => true
  | _ => false

/-- The six conditions of KCMP (R181). -/
def CmpOp.integer : CmpOp → Bool
  | .ord | .unord => false
  | _ => true

/-- The terms that the manual's encodings admit. -/
def Instr.wf : Instr → Bool
  | .brany c _ | .brall c _ | .brnone c _ | .ifp c _ | .breakp c _ => condOk c
  | .execrd _ h => h.resultOnly
  | .execwr _ h => h.firstOnly
  | .setMode m => modeOk m
  | .getsr _ _ h => h.resultOnly
  | .setsr r _ => r.writable
  | .kcmp _ _ _ c => c.integer
  | .accept _ _ h => h.notSecond
  | .draw _ h => h.resultOnly
  | .mxstep _ _ a _ | .mxloop _ _ a _ _ => a.val ≤ 29
  | .mxmon _ a sig => !sig || a.val ≤ 30
  | .mxrd _ _ h | .monrd _ _ h | .pmrd _ _ h | .rtstat _ _ h => h.notSecond
  | .cntarm a _ => a.val ≤ 30
  | .cpy a _ => a.val ≤ 28
  | .cpym a mask => a.val ≤ 28 && mask != 0#8
  | .cpydq a => a.val ≤ 27
  | .puts a rsig | .radd a rsig => if rsig then a.val ≤ 27 else a.val ≤ 28
  | .get a => a.val ≤ 28
  | .wquery _ _ _ h => h.resultOnly
  | .pageWalk _ _ va _ | .demandZeroResolution _ _ va => va < 2 ^ 54
  | .hbmUncorrectable _ pa => pa < 2 ^ 39
  | .remoteResponse _ x => x != .late
  | .hbmScrub _ row _ => row < 2 ^ 39
  | .collectiveComplete dpid group cseq => dpid < 2 ^ 16 && group < 256 && cseq < 2 ^ 32
  | .registerWrite off _ => off < 2 ^ 52
  | .firmwareStage _ svn build => svn < 2 ^ 16 && build < 2 ^ 16
  | .raiseRollbackFloor svn _ => svn < 2 ^ 16
  | _ => true

/-- The rows without an encoding: they are never decoded from memory (log entry 1). -/
def Instr.isEvent : Instr → Bool
  | .matrixCommandAccept _ | .kStep _ | .matrixCommandRun _ | .copyAccept _ | .copyComplete _ _
  | .channelPoll _ _ | .recordReturn _ _ | .streamTile _ _ | .admitGang _ | .preemptEvict _
  | .resumeEvicted _ | .unparkWave _ | .clockGate _ | .clockRestart _ | .nopreemptExpired _
  | .suspectedDeadlock _ | .pageWalk _ _ _ _ | .demandZeroResolution _ _ _ | .writeApply _ _
  | .memoryResponse _ _ | .taskTake _ _ | .taskCommit _ | .routerSetEntry _ | .routerSetLeave _
  | .routerMove _ | .pipeCheck _ | .partFaultEvent _ | .hbmUncorrectable _ _ | .hbmScrub _ _ _
  | .inFieldTest _ | .inFieldTestForced _ | .linkFault _ | .remoteRequest _ | .remoteResponse _ _
  | .remoteTimeout _ | .collectiveComplete _ _ _ | .submitLaunch _ | .submitTaskRecord _
  | .tlbInvalidate _ | .releaseParkedItem _ | .returnParkedItem _ | .writeRegister _
  | .setCollectiveGroup _ | .destroyPartition _ | .createPartition _ | .createLockstepPartition _
  | .resetPartition _ | .cmdkick _ _ | .commandPoll _ | .hostChannelKick _ _ _
  | .channelRegisterRead _ | .pfmodeWrite _ _ | .ptrootWrite _ _ | .ctxsizeWrite _ _
  | .vsmaxWrite _ _ | .registerWrite _ _ | .powerOnReset _ | .dieReset _ | .packageReset
  | .alertWrite _ | .sidebandRegisterWrite _ _ | .temperatureAlert _ | .thermalShutdown
  | .firmwareStage _ _ _ | .raiseRollbackFloor _ _ | .attestationQuote _ | .illegalInstr _
  | .powerLoss | .inFieldTestEnd _ _ | .secondCopyRestored | .contributorPackageFailure _
  | .flitRetransmission _ => true
  | _ => false

end Sys2Proof
end

