-- ==== Sys2Proof/Decode.lean ====
section
/-!
DEFINITION. Decoding of instruction words (R75 to R96), total on any bytes and rejecting by name, and after it the encoder, written from the same tables.
-/

namespace Sys2Proof

/-- Why a word is no instruction (R90); `truncated` means that fewer bytes are given than the format has. -/
inductive DecodeError where
  | truncated
  | unassignedOpcode
  | reservedField
  | unassignedFunction
  | sourceCode63
  | reservedDestination
  | reservedValue
  deriving DecidableEq, Repr

abbrev Dec (α : Type) := Except DecodeError α

/-- A field that must be zero (R16, R90). -/
def zeroField (x : Nat) : Dec Unit := if x = 0 then .ok () else .error .reservedField

/-- A source code (R52, R83). -/
def srcOf (c : Nat) : Dec Src :=
  if h : c < 16 then .ok (.q ⟨c, h⟩)
  else if h : c - 16 < 40 then .ok (.n ⟨c - 16, h⟩)
  else if h : c - 56 < 3 then .ok (.l ⟨c - 56, h⟩)
  else if c = 59 then .ok .lane
  else if c = 60 then .ok .wave
  else if c = 61 then .ok .zero
  else if c = 62 then .ok .ones
  else .error .sourceCode63

/-- A lane destination code (R51, R83). -/
def dstOf (c : Nat) : Dec Dst :=
  if c = 0 then .ok .queue
  else if c < 16 then .error .reservedDestination
  else if h : c - 16 < 40 then .ok (.n ⟨c - 16, h⟩)
  else .error .reservedDestination

/-- A uniform register index in [4:0] of a 6-bit field, [5] reserved. -/
def kOf (c : Nat) : Dec KReg := if h : c < 32 then .ok ⟨c, h⟩ else .error .reservedField

/-- The hold field (R57). -/
def holdOf (c : Nat) : Hold :=
  if c = 0 then .none else if c = 1 then .a else if c = 2 then .b else .result

/-- The second source of format F0: `f[3]` selects a uniform register (R77). -/
def src2Of (f3 b : Nat) : Dec Src2 :=
  if f3 = 0 then (srcOf b).map .s else (kOf b).map .k

/-- The second operand of the uniform instructions (R180). -/
def kopOf (f3 b : Nat) : Dec KOp :=
  if f3 = 0 then (kOf b).map .k else .ok (.imm (BitVec.ofNat 6 b))

def preg (c : Nat) : PReg := Fin.ofNat 8 c
def guardOf (c : Nat) : Guard := BitVec.ofNat 4 c

/-- Function values of CMP and KCMP (R96). -/
def cmpOf (c : Nat) : CmpOp :=
  match c with
  | 0 => .eq | 1 => .ne | 2 => .lt | 3 => .le | 4 => .gt | 5 => .ge | 6 => .ord | _ => .unord

/-- Function values of VOTE (R96). -/
def voteOf (c : Nat) : Dec VoteOp :=
  match c with
  | 0 => .ok .any | 1 => .ok .all | 2 => .ok .none | 3 => .ok .ballot | 4 => .ok .uniform
  | _ => .error .unassignedFunction

/-- Function values of LREDUCE and LSCAN (R96). -/
def redOf (c : Nat) : Dec RedOp :=
  match c with
  | 0 => .ok .add | 1 => .ok .min | 2 => .ok .max | 3 => .ok .and | 4 => .ok .or | 5 => .ok .xor
  | _ => .error .unassignedFunction

/-- Operations of the groups ATOM and ATOMR by op[2:0]; 7 is unassigned (R95). -/
def atomOf (c : Nat) : Dec AtomOp :=
  match c with
  | 0 => .ok .add | 1 => .ok .min | 2 => .ok .max | 3 => .ok .and | 4 => .ok .or | 5 => .ok .xor
  | 6 => .ok .xchg
  | _ => .error .unassignedOpcode

/-- Scope codes; 6 and 7 are reserved (R245, R251). -/
def scopeOf (c : Nat) : Dec Scope :=
  match c with
  | 0 => .ok .wave | 1 => .ok .group | 2 => .ok .gang | 3 => .ok .die | 4 => .ok .package
  | 5 => .ok .domain
  | _ => .error .reservedValue

/-- Order codes of FENCE; 0 is reserved (R251). -/
def fenceOrderOf (c : Nat) : Dec FenceOrder :=
  match c with
  | 1 => .ok .acq | 2 => .ok .rel | 3 => .ok .acqrel
  | _ => .error .reservedValue

/-- Path codes of WAITP (R251). -/
def pathOf (c : Nat) : FlightPath :=
  match c with
  | 0 => .gload | 1 => .aload | 2 => .store | _ => .engine

/-- Fill values of MXZERO; 3 is reserved (R301). -/
def fillOf (c : Nat) : Dec TileFill :=
  match c with
  | 0 => .ok .zero | 1 => .ok .pinf | 2 => .ok .ninf
  | _ => .error .reservedValue

/-- ESZ codes of SHAPE; 5 to 7 are reserved (R343, R344). -/
def esizeOf (c : Nat) : Dec ElemSize :=
  match c with
  | 0 => .ok .b1 | 1 => .ok .b2 | 2 => .ok .b4 | 3 => .ok .b8 | 4 => .ok .b16
  | _ => .error .reservedValue

/-- Special register numbers 0 to 24 (R150). -/
def srOf (c : Nat) : Dec SpecialReg :=
  match c with
  | 0 => .ok .lane | 1 => .ok .wave | 2 => .ok .group | 3 => .ok .gang | 4 => .ok .stage
  | 5 => .ok .core | 6 => .ok .die | 7 => .ok .rank | 8 => .ok .clock | 9 => .ok .clockh
  | 10 => .ok .glane | 11 => .ok .taskid | 12 => .ok .variant | 13 => .ok .nregs
  | 14 => .ok .sumrev | 15 => .ok .prio | 16 => .ok .eprio | 17 => .ok .tbase | 18 => .ok .tbaseh
  | 19 => .ok .mode | 20 => .ok .msdepth | 21 => .ok .msidx | 22 => .ok .msval | 23 => .ok .qvalid
  | 24 => .ok .npleft
  | _ => .error .unassignedFunction

/-! ### Formats -/

/-- F0 with two sources and no function value. -/
def decTwo (mk : Dst → Src → Src2 → Hold → Instr) (w : Nat) : Dec Instr := do
  let d ← dstOf (bitsOf w 23 18)
  let a ← srcOf (bitsOf w 17 12)
  zeroField (bitsOf w 4 2)
  let b ← src2Of (bitsOf w 5 5) (bitsOf w 11 6)
  .ok (mk d a b (holdOf (bitsOf w 1 0)))

/-- F0 with one source: b and f are zero (R77). -/
def decOne (mk : Dst → Src → Hold → Instr) (w : Nat) : Dec Instr := do
  let d ← dstOf (bitsOf w 23 18)
  let a ← srcOf (bitsOf w 17 12)
  zeroField (bitsOf w 11 2)
  .ok (mk d a (holdOf (bitsOf w 1 0)))

/-- F0 with two sources and a function value in f[2:0]. -/
def decTwoF (mk : Dst → Src → Src2 → Nat → Hold → Instr) (w : Nat) : Dec Instr := do
  let d ← dstOf (bitsOf w 23 18)
  let a ← srcOf (bitsOf w 17 12)
  let b ← src2Of (bitsOf w 5 5) (bitsOf w 11 6)
  .ok (mk d a b (bitsOf w 4 2) (holdOf (bitsOf w 1 0)))

/-- F1 with a destination and three source codes (R78). -/
def decThree (mk : Dst → Src → Src → Src → Instr) (w : Nat) : Dec Instr := do
  let d ← dstOf (bitsOf w 23 18)
  let a ← srcOf (bitsOf w 17 12)
  let b ← srcOf (bitsOf w 11 6)
  let c ← srcOf (bitsOf w 5 0)
  .ok (mk d a b c)

/-- F1 of the memory instructions with a destination (R251). -/
def decMemD (mk : Dst → Src → Src → KReg → Instr) (w : Nat) : Dec Instr := do
  let d ← dstOf (bitsOf w 23 18)
  let a ← srcOf (bitsOf w 17 12)
  let b ← srcOf (bitsOf w 11 6)
  let c ← kOf (bitsOf w 5 0)
  .ok (mk d a b c)

/-- F1 of the memory instructions without a destination (R251). -/
def decMem (mk : Src → Src → KReg → Instr) (w : Nat) : Dec Instr := do
  zeroField (bitsOf w 23 18)
  let a ← srcOf (bitsOf w 17 12)
  let b ← srcOf (bitsOf w 11 6)
  let c ← kOf (bitsOf w 5 0)
  .ok (mk a b c)

/-- F3 without a condition (R80). -/
def decJump (mk : BitVec 20 → Instr) (w : Nat) : Dec Instr := do
  zeroField (bitsOf w 23 20)
  .ok (mk (BitVec.ofNat 20 (bitsOf w 19 0)))

/-- F3 with a condition (R80). -/
def decCond (mk : Guard → BitVec 20 → Instr) (w : Nat) : Dec Instr :=
  .ok (mk (guardOf (bitsOf w 23 20)) (BitVec.ofNat 20 (bitsOf w 19 0)))

/-- F4 that uses no field. -/
def decBare (i : Instr) (w : Nat) : Dec Instr := do
  zeroField (bitsOf w 23 0)
  .ok i

/-- F4 with one uniform register in a. -/
def decK (mk : KReg → Instr) (w : Nat) : Dec Instr := do
  zeroField (bitsOf w 23 16)
  let a ← kOf (bitsOf w 15 10)
  zeroField (bitsOf w 9 0)
  .ok (mk a)

/-- F4 with uniform registers in a and b. -/
def decKK (mk : KReg → KReg → Instr) (w : Nat) : Dec Instr := do
  zeroField (bitsOf w 23 16)
  let a ← kOf (bitsOf w 15 10)
  let b ← kOf (bitsOf w 9 4)
  zeroField (bitsOf w 3 0)
  .ok (mk a b)

/-- F4 of the two-operand uniform instructions (R180). -/
def decUni (mk : KReg → KReg → KOp → Nat → Instr) (fn : Bool) (w : Nat) : Dec Instr := do
  let d ← kOf (bitsOf w 23 16)
  let a ← kOf (bitsOf w 15 10)
  let y ← kopOf (bitsOf w 3 3) (bitsOf w 9 4)
  zeroField (if fn then 0 else bitsOf w 2 0)
  .ok (mk d a y (bitsOf w 2 0))

/-- F4 with a small code and a uniform register in a. -/
def decCodeK (bits : Nat) (mk : Nat → KReg → Instr) (w : Nat) : Dec Instr := do
  zeroField (bitsOf w 23 (16 + bits))
  let a ← kOf (bitsOf w 15 10)
  zeroField (bitsOf w 9 0)
  .ok (mk (bitsOf w (15 + bits) 16) a)

/-- F4 of PAND and POR (R169). -/
def decPred2 (mk : PReg → Guard → Guard → Instr) (w : Nat) : Dec Instr := do
  zeroField (bitsOf w 23 19)
  zeroField (bitsOf w 15 14)
  zeroField (bitsOf w 9 8)
  zeroField (bitsOf w 3 0)
  .ok (mk (preg (bitsOf w 18 16)) (guardOf (bitsOf w 13 10)) (guardOf (bitsOf w 7 4)))

/-! ### The opcode map (R94), sixteen opcodes at a time -/

def dec0 (lo w : Nat) : Dec Instr :=
  match lo with
  | 1 => decBare .nop w
  | 2 => decBare .endW w
  | 3 => decBare .yieldW w
  | 4 => decJump .jmp w
  | 5 => decK .jmpk w
  | 6 => decJump .call w
  | 7 => decBare .ret w
  | 8 => decCond .brany w
  | 9 => decCond .brall w
  | 10 => decCond .brnone w
  | 11 => decCond .ifp w
  | 12 => decJump .elsep w
  | 13 => decBare .endifp w
  | 14 => decCond .breakp w
  | 15 => do
      zeroField (bitsOf w 23 19)
      let a ← srcOf (bitsOf w 15 10)
      zeroField (bitsOf w 9 0)
      .ok (.trap (Fin.ofNat 8 (bitsOf w 18 16)) a)
  | _ => .error .unassignedOpcode

def dec1 (lo w : Nat) (literal : Dec W32) : Dec Instr :=
  match lo with
  | 0 => do
      let d ← dstOf (bitsOf w 23 18)
      zeroField (bitsOf w 17 2)
      .ok (.execrd d (holdOf (bitsOf w 1 0)))
  | 1 => do
      zeroField (bitsOf w 23 18)
      let a ← srcOf (bitsOf w 17 12)
      zeroField (bitsOf w 11 2)
      .ok (.execwr a (holdOf (bitsOf w 1 0)))
  | 2 => do
      zeroField (bitsOf w 23 15)
      zeroField (bitsOf w 1 0)
      .ok (.setMode (BitVec.ofNat 13 (bitsOf w 14 2)))
  | 3 => decK .modek w
  | 4 => do
      let d ← dstOf (bitsOf w 23 18)
      zeroField (bitsOf w 17 0)
      let x ← literal
      .ok (.lit d x)
  | 5 => do
      let d ← dstOf (bitsOf w 23 18)
      zeroField (bitsOf w 17 0)
      let x ← literal
      .ok (.lith d x)
  | 6 => do
      let d ← dstOf (bitsOf w 23 18)
      let r ← srOf (bitsOf w 17 2)
      .ok (.getsr d r (holdOf (bitsOf w 1 0)))
  | 7 => do
      let r ← srOf (bitsOf w 23 16)
      let a ← kOf (bitsOf w 15 10)
      zeroField (bitsOf w 9 0)
      .ok (.setsr r a)
  | 8 => decBare .eret w
  | 9 => decBare .nopreempt w
  | 10 => decBare .preemptok w
  | 11 => decBare .phase w
  | _ => .error .unassignedOpcode

def dec2 (lo w : Nat) : Dec Instr :=
  match lo with
  | 0 => decTwo .add w
  | 1 => decTwo .sub w
  | 2 => decTwo .mul w
  | 3 => decTwo .mulhi w
  | 4 => decThree .mad w
  | 5 => decOne .neg w
  | 6 => decOne .abs w
  | 7 => decTwo .min w
  | 8 => decTwo .max w
  | 9 => decTwo .div w
  | 10 => decTwoF (fun d a b f h => .lea d a b (Fin.ofNat 8 f) h) w
  | 11 => decTwo .scaleb w
  | 12 => decTwoF (fun d a b f h => .cmp d a b (cmpOf f) h) w
  | 13 => decTwoF (fun d a b f h => .sel d a b (preg f) h) w
  | 15 => decOne .classF w
  | _ => .error .unassignedOpcode

def dec3 (lo w : Nat) : Dec Instr :=
  match lo with
  | 0 => decTwo .and w
  | 1 => decTwo .or w
  | 2 => decTwo .xor w
  | 3 => decOne .not w
  | 4 => decTwo .andn w
  | 5 => decTwo .shl w
  | 6 => decTwo .shr w
  | 7 => decTwo .sar w
  | 8 => decTwo .rotl w
  | 9 => decOne .clz w
  | 10 => decOne .popc w
  | 11 => decOne .brev w
  | 12 => decThree .bfx w
  | 13 => decThree .bfi w
  | 14 => do
      zeroField (bitsOf w 23 19)
      zeroField (bitsOf w 15 14)
      zeroField (bitsOf w 9 0)
      .ok (.pnot (preg (bitsOf w 18 16)) (guardOf (bitsOf w 13 10)))
  | _ => .error .unassignedOpcode

def dec4 (lo w : Nat) : Dec Instr :=
  match lo with
  | 0 => decOne .rcp w
  | 1 => decOne .rsq w
  | 2 => decOne .sqrt w
  | 3 => decOne .exp2 w
  | 4 => decOne .log2 w
  | 5 => decOne .ln w
  | 6 => decOne .fract w
  | 7 => decOne .roundi w
  | 8 => do
      let d ← dstOf (bitsOf w 23 18)
      let a ← srcOf (bitsOf w 17 12)
      let k ← kOf (bitsOf w 11 6)
      if bitsOf w 5 2 = 8 then .ok (.cvt d a k (holdOf (bitsOf w 1 0))) else .error .unassignedFunction
  | 9 => decTwo .pack w
  | 10 => decOne .unpack w
  | 11 => decOne .mxq w
  | 12 => decTwo .mxdq w
  | 13 => do
      zeroField (bitsOf w 23 19)
      let a ← srcOf (bitsOf w 15 10)
      zeroField (bitsOf w 9 0)
      .ok (.pset (preg (bitsOf w 18 16)) a)
  | 14 => decPred2 .pand w
  | 15 => decPred2 .por w
  | _ => .error .unassignedOpcode

/-- F0 with one source and a function value (R96). -/
def decOneF (mk : Dst → Src → Hold → Dec Instr) (w : Nat) : Dec Instr := do
  let d ← dstOf (bitsOf w 23 18)
  let a ← srcOf (bitsOf w 17 12)
  zeroField (bitsOf w 11 5)
  mk d a (holdOf (bitsOf w 1 0))

def dec5 (lo w : Nat) : Dec Instr :=
  match lo with
  | 0 => decTwo .shfl w
  | 1 => decTwo .bfly w
  | 2 => decTwo .lrot w
  | 3 => decTwo .bcast w
  | 4 => decOneF (fun d a h => (voteOf (bitsOf w 4 2)).map fun o => .vote d a o h) w
  | 5 => decOneF (fun d a h => (redOf (bitsOf w 4 2)).map fun o => .lreduce d a o h) w
  | 6 => decOneF (fun d a h => (redOf (bitsOf w 4 2)).map fun o => .lscan d a o h) w
  | 7 => do
      let d ← kOf (bitsOf w 23 16)
      zeroField (bitsOf w 2 0)
      if bitsOf w 3 3 = 0 then do
        let a ← kOf (bitsOf w 15 10)
        zeroField (bitsOf w 9 4)
        .ok (.kmov d (.k a))
      else do
        zeroField (bitsOf w 15 10)
        .ok (.kmov d (.imm (BitVec.ofNat 6 (bitsOf w 9 4))))
  | 8 => decUni (fun d a y _ => .kadd d a y) false w
  | 9 => decUni (fun d a y _ => .ksub d a y) false w
  | 10 => decUni (fun d a y _ => .kmul d a y) false w
  | 11 => decUni (fun d a y _ => .kand d a y) false w
  | 12 => decUni (fun d a y _ => .kor d a y) false w
  | 13 => decUni (fun d a y _ => .kxor d a y) false w
  | 14 => decUni (fun d a y _ => .kshl d a y) false w
  | 15 => decUni (fun d a y _ => .kshr d a y) false w
  | _ => .error .unassignedOpcode

def dec6 (lo w : Nat) : Dec Instr :=
  match lo with
  | 0 => decUni (fun d a y f => .kcmp d a y (cmpOf f)) true w
  | 1 => do
      let d ← kOf (bitsOf w 23 16)
      let a ← srcOf (bitsOf w 15 10)
      let b ← kOf (bitsOf w 9 4)
      zeroField (bitsOf w 3 1)
      .ok (.kread d a b (bitsOf w 0 0 = 1))
  | 2 => do
      let d ← kOf (bitsOf w 23 18)
      zeroField (bitsOf w 1 0)
      .ok (.klit d (BitVec.ofNat 16 (bitsOf w 17 2)))
  | 8 => decBare .propose w
  | 9 => decOne .accept w
  | 10 => decBare .discard w
  | 11 => do
      let d ← dstOf (bitsOf w 23 18)
      zeroField (bitsOf w 17 2)
      .ok (.draw d (holdOf (bitsOf w 1 0)))
  | 12 => do
      zeroField (bitsOf w 23 16)
      let a ← kOf (bitsOf w 15 10)
      zeroField (bitsOf w 3 1)
      if bitsOf w 0 0 = 0 then do
        zeroField (bitsOf w 9 4)
        .ok (.drawkey a none)
      else do
        let b ← kOf (bitsOf w 9 4)
        .ok (.drawkey a (some b))
  | 13 => do
      let d ← dstOf (bitsOf w 23 18)
      let a ← srcOf (bitsOf w 17 12)
      zeroField (bitsOf w 11 0)
      .ok (.mbstat d a)
  | 14 => do
      zeroField (bitsOf w 23 19)
      zeroField (bitsOf w 15 0)
      .ok (.mbclr (bitsOf w 16 16 = 1) (bitsOf w 17 17 = 1) (bitsOf w 18 18 = 1))
  | _ => .error .unassignedOpcode

def dec7 (lo w : Nat) : Dec Instr :=
  match lo with
  | 0 => decMemD .ld w
  | 1 => decMem .st w
  | 2 => decMemD .ldq w
  | 3 => decMem .stq w
  | 6 => decMemD .cas w
  | 7 => do
      zeroField (bitsOf w 23 18)
      let a ← srcOf (bitsOf w 17 12)
      zeroField (bitsOf w 11 6)
      let c ← kOf (bitsOf w 5 0)
      .ok (.pref a c)
  | 8 => decKK .pin w
  | 9 => decKK .unpin w
  | 10 => do
      zeroField (bitsOf w 23 21)
      let s ← scopeOf (bitsOf w 18 16)
      let o ← fenceOrderOf (bitsOf w 20 19)
      zeroField (bitsOf w 15 0)
      .ok (.fence s o)
  | 11 => decCodeK 2 (fun c a => .waitp (pathOf c) a) w
  | _ => .error .unassignedOpcode

def dec8 (lo w : Nat) : Dec Instr := do
  let o ← atomOf (lo % 8)
  if lo < 8 then decMem (.atom o) w else decMemD (.atomr o) w

def dec9 (lo w : Nat) : Dec Instr :=
  match lo with
  | 0 => decCodeK 3 (fun c a => .mxplan (Fin.ofNat 8 c) a) w
  | 1 => do
      zeroField (bitsOf w 23 20)
      zeroField (bitsOf w 15 0)
      let f ← fillOf (bitsOf w 19 18)
      .ok (.mxzero (Fin.ofNat 4 (bitsOf w 17 16)) f)
  | 2 => decCodeK 6 (fun c a =>
      .mxstep (Fin.ofNat 4 (bitsOf c 1 0)) (Fin.ofNat 8 (bitsOf c 4 2)) a (bitsOf c 5 5 = 1)) w
  | 3 => do
      zeroField (bitsOf w 23 22)
      let a ← kOf (bitsOf w 15 10)
      let l ← kOf (bitsOf w 9 4)
      zeroField (bitsOf w 3 0)
      .ok (.mxloop (Fin.ofNat 4 (bitsOf w 17 16)) (Fin.ofNat 8 (bitsOf w 20 18)) a l
        (bitsOf w 21 21 = 1))
  | 4 => decOne .mxrd w
  | 5 => do
      zeroField (bitsOf w 23 16)
      let a ← srcOf (bitsOf w 15 10)
      let b ← srcOf (bitsOf w 9 4)
      zeroField (bitsOf w 3 0)
      .ok (.mxwr a b)
  | 6 => do
      zeroField (bitsOf w 23 19)
      let a ← kOf (bitsOf w 15 10)
      zeroField (bitsOf w 9 1)
      .ok (.mxmon (Fin.ofNat 8 (bitsOf w 18 16)) a (bitsOf w 0 0 = 1))
  | 7 => decOne .monrd w
  | 8 => do
      zeroField (bitsOf w 15 0)
      .ok (.monclr (BitVec.ofNat 8 (bitsOf w 23 16)))
  | _ => .error .unassignedOpcode

def decA (lo w : Nat) : Dec Instr :=
  match lo with
  | 0 => decKK .barinit w
  | 1 => do
      zeroField (bitsOf w 23 16)
      let a ← kOf (bitsOf w 15 10)
      zeroField (bitsOf w 3 1)
      if bitsOf w 0 0 = 0 then do
        zeroField (bitsOf w 9 4)
        .ok (.bararr a none)
      else do
        let b ← kOf (bitsOf w 9 4)
        .ok (.bararr a (some b))
  | 2 => decKK .barwait w
  | 3 => decK .barfree w
  | 4 => do
      zeroField (bitsOf w 23 16)
      let a ← kOf (bitsOf w 15 10)
      zeroField (bitsOf w 3 2)
      if bitsOf w 1 0 = 0 then do
        let b ← kOf (bitsOf w 9 4)
        .ok (.cntadd a b)
      else if bitsOf w 1 0 = 1 then do
        let b ← kOf (bitsOf w 9 4)
        .ok (.cntaddMax a b)
      else if bitsOf w 1 0 = 2 then do
        zeroField (bitsOf w 9 4)
        .ok (.cntaddSignal a)
      else .error .reservedValue
  | 5 => decKK .cntwait w
  | 6 => decKK .cntarm w
  | 7 => decCodeK 2 (fun c a => .pmsel (Fin.ofNat 4 c) a) w
  | 8 => decOne .pmrd w
  | 9 => decK .pmreplay w
  | _ => .error .unassignedOpcode

def decB (lo w : Nat) : Dec Instr :=
  match lo with
  | 0 => do
      let e ← esizeOf (bitsOf w 23 21)
      let a ← kOf (bitsOf w 15 10)
      let b ← kOf (bitsOf w 9 4)
      zeroField (bitsOf w 3 0)
      .ok (.shape (Fin.ofNat 32 (bitsOf w 20 16)) a b e)
  | 1 => do
      zeroField (bitsOf w 23 17)
      let a ← kOf (bitsOf w 15 10)
      zeroField (bitsOf w 3 0)
      if bitsOf w 16 16 = 0 then do
        zeroField (bitsOf w 9 4)
        .ok (.cpy a none)
      else do
        let b ← srcOf (bitsOf w 9 4)
        .ok (.cpy a (some b))
  | 2 => decCodeK 8 (fun c a => .cpym a (BitVec.ofNat 8 c)) w
  | 3 => decK .cpydq w
  | 4 => decCodeK 3 (fun c a => .chkick (Fin.ofNat 8 c) a) w
  | 5 => decCodeK 3 (fun c a => .chtail (Fin.ofNat 8 c) a) w
  | 8 => decK .tkpost w
  | 9 => decCodeK 3 (fun c a => .launch (Fin.ofNat 8 c) a) w
  | 10 => decCodeK 1 (fun c a => if c = 0 then .rtemitRec a else .rtemitBox a) w
  | 11 => do
      let d ← dstOf (bitsOf w 23 18)
      zeroField (bitsOf w 17 0)
      match d with
      | .queue => .error .reservedDestination
      | .n x => .ok (.rttake x)
  | 12 => decBare .rtdone w
  | 13 => decBare .rtrej w
  | 14 => decOne .rtstat w
  | _ => .error .unassignedOpcode

def decC (lo w : Nat) : Dec Instr :=
  match lo with
  | 0 => decCodeK 1 (fun c a => if c = 0 then .wregWait a else .wregHold a) w
  | 1 =>
      if bitsOf w 16 16 = 0 then decBare .wderegWait w
      else decCodeK 1 (fun _ a => .wderegHold a) w
  | 2 => decKK .wprio w
  | 3 => decTwo .wquery w
  | 4 => decK .lock w
  | 5 => decK .unlock w
  | 6 => decKK .semtake w
  | 7 => decKK .semgive w
  | _ => .error .unassignedOpcode

def decD (lo w : Nat) : Dec Instr :=
  match lo with
  | 0 => decCodeK 1 (fun c a => .puts a (c = 1)) w
  | 1 => decK .get w
  | 2 => decCodeK 1 (fun c a => .radd a (c = 1)) w
  | 3 => decBare .rfence w
  | 4 => decK .coll w
  | _ => .error .unassignedOpcode

/-- The instruction whose first word is `w`, by primary opcode (R94); `literal` is the literal word of format F5. -/
def decodeFields (w : Nat) (literal : Dec W32) : Dec Instr :=
  match bitsOf w 31 28 with
  | 0 => dec0 (bitsOf w 27 24) w
  | 1 => dec1 (bitsOf w 27 24) w literal
  | 2 => dec2 (bitsOf w 27 24) w
  | 3 => dec3 (bitsOf w 27 24) w
  | 4 => dec4 (bitsOf w 27 24) w
  | 5 => dec5 (bitsOf w 27 24) w
  | 6 => dec6 (bitsOf w 27 24) w
  | 7 => dec7 (bitsOf w 27 24) w
  | 8 => dec8 (bitsOf w 27 24) w
  | 9 => dec9 (bitsOf w 27 24) w
  | 10 => decA (bitsOf w 27 24) w
  | 11 => decB (bitsOf w 27 24) w
  | 12 => decC (bitsOf w 27 24) w
  | 13 => decD (bitsOf w 27 24) w
  | _ => .error .unassignedOpcode

/-- A word is an instruction when its fields are assigned and no value of it is reserved (R90). -/
def decodeWord (w : W32) (literal : Dec W32) : Dec Instr := do
  let i ← decodeFields w.toNat literal
  if i.wf then .ok i else .error .reservedValue

/-- Whether a first word asks for a literal word: format F5 (R82). -/
def wantsLiteral (w : W32) : Bool := bitsOf w.toNat 31 24 = 0x14 || bitsOf w.toNat 31 24 = 0x15

/-- The word stored in four bytes, least significant first (R75). -/
def wordOfBytes (b0 b1 b2 b3 : W8) : W32 := b3 ++ b2 ++ b1 ++ b0

/-- The four bytes of a word, least significant first. -/
def bytesOfWord (w : W32) : List W8 :=
  [w.extractLsb' 0 8, w.extractLsb' 8 8, w.extractLsb' 16 8, w.extractLsb' 24 8]

/-- The literal word at the front of a list of bytes. -/
def literalOf : List W8 → Dec W32
  | b0 :: b1 :: b2 :: b3 :: _ => .ok (wordOfBytes b0 b1 b2 b3)
  | _ => .error .truncated

/-- Decode the bytes at an address: the instruction and the bytes after it. -/
def decode : List W8 → Dec (Instr × List W8)
  | b0 :: b1 :: b2 :: b3 :: rest => do
      let w := wordOfBytes b0 b1 b2 b3
      let i ← decodeWord w (literalOf rest)
      .ok (i, if wantsLiteral w then rest.drop 4 else rest)
  | _ => .error .truncated

/-- The instruction that the decoder reads from an instruction with bits `w`, numbered as the opcode table numbers them; every bit at or above `nbits` is zero. -/
def decodeTableWord (nbits w : Nat) : Option Instr :=
  let x := w % 2 ^ nbits
  match decode (bytesOfWord (BitVec.ofNat 32 x) ++ bytesOfWord (BitVec.ofNat 32 (x / 2 ^ 32))) with
  | .ok (i, _) => some i
  | .error _ => none

/-! ### The encoder -/

def Src.code : Src → Nat
  | .q j => j.val
  | .n x => 16 + x.val
  | .l j => 56 + j.val
  | .lane => 59
  | .wave => 60
  | .zero => 61
  | .ones => 62

def Dst.code : Dst → Nat
  | .queue => 0
  | .n x => 16 + x.val

def Hold.code : Hold → Nat
  | .none => 0 | .a => 1 | .b => 2 | .result => 3

/-- Bits [11:6] and [5] of format F0's second source. -/
def Src2.field : Src2 → Nat
  | .s x => x.code * 64
  | .k i => i.val * 64 + 32

/-- Bits [9:4] and [3] of a uniform instruction's second operand. -/
def KOp.field : KOp → Nat
  | .k i => i.val * 16
  | .imm v => v.toNat * 16 + 8

def CmpOp.code : CmpOp → Nat
  | .eq => 0 | .ne => 1 | .lt => 2 | .le => 3 | .gt => 4 | .ge => 5 | .ord => 6 | .unord => 7

def VoteOp.code : VoteOp → Nat
  | .any => 0 | .all => 1 | .none => 2 | .ballot => 3 | .uniform => 4

def RedOp.code : RedOp → Nat
  | .add => 0 | .min => 1 | .max => 2 | .and => 3 | .or => 4 | .xor => 5

def AtomOp.code : AtomOp → Nat
  | .add => 0 | .min => 1 | .max => 2 | .and => 3 | .or => 4 | .xor => 5 | .xchg => 6

def Scope.code : Scope → Nat
  | .wave => 0 | .group => 1 | .gang => 2 | .die => 3 | .package => 4 | .domain => 5

def FenceOrder.code : FenceOrder → Nat
  | .acq => 1 | .rel => 2 | .acqrel => 3

def FlightPath.code : FlightPath → Nat
  | .gload => 0 | .aload => 1 | .store => 2 | .engine => 3

def TileFill.code : TileFill → Nat
  | .zero => 0 | .pinf => 1 | .ninf => 2

def ElemSize.code : ElemSize → Nat
  | .b1 => 0 | .b2 => 1 | .b4 => 2 | .b8 => 3 | .b16 => 4

def SpecialReg.code : SpecialReg → Nat
  | .lane => 0 | .wave => 1 | .group => 2 | .gang => 3 | .stage => 4 | .core => 5 | .die => 6
  | .rank => 7 | .clock => 8 | .clockh => 9 | .glane => 10 | .taskid => 11 | .variant => 12
  | .nregs => 13 | .sumrev => 14 | .prio => 15 | .eprio => 16 | .tbase => 17 | .tbaseh => 18
  | .mode => 19 | .msdepth => 20 | .msidx => 21 | .msval => 22 | .qvalid => 23 | .npleft => 24

def bit (b : Bool) : Nat := if b then 1 else 0

/-- Format F0 with two sources: op, d, a, b with f[3], function value, hold. -/
def encTwo (op : Nat) (d : Dst) (a : Src) (b : Src2) (f : Nat) (h : Hold) : Nat :=
  op * 16777216 + d.code * 262144 + a.code * 4096 + b.field + f * 4 + h.code

/-- Format F0 with one source. -/
def encOne (op : Nat) (d : Dst) (a : Src) (f : Nat) (h : Hold) : Nat :=
  op * 16777216 + d.code * 262144 + a.code * 4096 + f * 4 + h.code

/-- Format F1. -/
def encFour (op d a b c : Nat) : Nat :=
  op * 16777216 + d * 262144 + a * 4096 + b * 64 + c

/-- Format F3. -/
def encBranch (op : Nat) (c : Nat) (o : BitVec 20) : Nat :=
  op * 16777216 + c * 1048576 + o.toNat

/-- Format F4. -/
def encSys (op code a b f : Nat) : Nat :=
  op * 16777216 + code * 65536 + a * 1024 + b * 16 + f

/-- Format F4 of the uniform instructions. -/
def encUni (op : Nat) (d a : KReg) (y : KOp) (f : Nat) : Nat :=
  op * 16777216 + d.val * 65536 + a.val * 1024 + y.field + f

/-- The first word of an instruction, as a number; `none` for a row without an encoding. -/
def encodeFirst : Instr → Option Nat
  | .nop => some (encSys 0x01 0 0 0 0)
  | .endW => some (encSys 0x02 0 0 0 0)
  | .yieldW => some (encSys 0x03 0 0 0 0)
  | .jmp o => some (encBranch 0x04 0 o)
  | .jmpk a => some (encSys 0x05 0 a.val 0 0)
  | .call o => some (encBranch 0x06 0 o)
  | .ret => some (encSys 0x07 0 0 0 0)
  | .brany c o => some (encBranch 0x08 c.toNat o)
  | .brall c o => some (encBranch 0x09 c.toNat o)
  | .brnone c o => some (encBranch 0x0A c.toNat o)
  | .ifp c o => some (encBranch 0x0B c.toNat o)
  | .elsep o => some (encBranch 0x0C 0 o)
  | .endifp => some (encSys 0x0D 0 0 0 0)
  | .breakp c o => some (encBranch 0x0E c.toNat o)
  | .trap n a => some (encSys 0x0F n.val a.code 0 0)
  | .execrd d h => some (encFour 0x10 d.code 0 0 h.code)
  | .execwr a h => some (encFour 0x11 0 a.code 0 h.code)
  | .setMode m => some (0x12 * 16777216 + m.toNat * 4)
  | .modek a => some (encSys 0x13 0 a.val 0 0)
  | .lit d _ => some (0x14 * 16777216 + d.code * 262144)
  | .lith d _ => some (0x15 * 16777216 + d.code * 262144)
  | .getsr d r h => some (0x16 * 16777216 + d.code * 262144 + r.code * 4 + h.code)
  | .setsr r a => some (encSys 0x17 r.code a.val 0 0)
  | .eret => some (encSys 0x18 0 0 0 0)
  | .nopreempt => some (encSys 0x19 0 0 0 0)
  | .preemptok => some (encSys 0x1A 0 0 0 0)
  | .phase => some (encSys 0x1B 0 0 0 0)
  | .add d a b h => some (encTwo 0x20 d a b 0 h)
  | .sub d a b h => some (encTwo 0x21 d a b 0 h)
  | .mul d a b h => some (encTwo 0x22 d a b 0 h)
  | .mulhi d a b h => some (encTwo 0x23 d a b 0 h)
  | .mad d a b c => some (encFour 0x24 d.code a.code b.code c.code)
  | .neg d a h => some (encOne 0x25 d a 0 h)
  | .abs d a h => some (encOne 0x26 d a 0 h)
  | .min d a b h => some (encTwo 0x27 d a b 0 h)
  | .max d a b h => some (encTwo 0x28 d a b 0 h)
  | .div d a b h => some (encTwo 0x29 d a b 0 h)
  | .lea d a b s h => some (encTwo 0x2A d a b s.val h)
  | .scaleb d a b h => some (encTwo 0x2B d a b 0 h)
  | .cmp d a b c h => some (encTwo 0x2C d a b c.code h)
  | .sel d a b p h => some (encTwo 0x2D d a b p.val h)
  | .classF d a h => some (encOne 0x2F d a 0 h)
  | .and d a b h => some (encTwo 0x30 d a b 0 h)
  | .or d a b h => some (encTwo 0x31 d a b 0 h)
  | .xor d a b h => some (encTwo 0x32 d a b 0 h)
  | .not d a h => some (encOne 0x33 d a 0 h)
  | .andn d a b h => some (encTwo 0x34 d a b 0 h)
  | .shl d a b h => some (encTwo 0x35 d a b 0 h)
  | .shr d a b h => some (encTwo 0x36 d a b 0 h)
  | .sar d a b h => some (encTwo 0x37 d a b 0 h)
  | .rotl d a b h => some (encTwo 0x38 d a b 0 h)
  | .clz d a h => some (encOne 0x39 d a 0 h)
  | .popc d a h => some (encOne 0x3A d a 0 h)
  | .brev d a h => some (encOne 0x3B d a 0 h)
  | .bfx d a b c => some (encFour 0x3C d.code a.code b.code c.code)
  | .bfi d a b c => some (encFour 0x3D d.code a.code b.code c.code)
  | .pnot p g => some (encSys 0x3E p.val g.toNat 0 0)
  | .rcp d a h => some (encOne 0x40 d a 0 h)
  | .rsq d a h => some (encOne 0x41 d a 0 h)
  | .sqrt d a h => some (encOne 0x42 d a 0 h)
  | .exp2 d a h => some (encOne 0x43 d a 0 h)
  | .log2 d a h => some (encOne 0x44 d a 0 h)
  | .ln d a h => some (encOne 0x45 d a 0 h)
  | .fract d a h => some (encOne 0x46 d a 0 h)
  | .roundi d a h => some (encOne 0x47 d a 0 h)
  | .cvt d a k h => some (encTwo 0x48 d a (.k k) 0 h)
  | .pack d a b h => some (encTwo 0x49 d a b 0 h)
  | .unpack d a h => some (encOne 0x4A d a 0 h)
  | .mxq d a h => some (encOne 0x4B d a 0 h)
  | .mxdq d a b h => some (encTwo 0x4C d a b 0 h)
  | .pset p a => some (encSys 0x4D p.val a.code 0 0)
  | .pand p g1 g2 => some (encSys 0x4E p.val g1.toNat g2.toNat 0)
  | .por p g1 g2 => some (encSys 0x4F p.val g1.toNat g2.toNat 0)
  | .shfl d a b h => some (encTwo 0x50 d a b 0 h)
  | .bfly d a b h => some (encTwo 0x51 d a b 0 h)
  | .lrot d a b h => some (encTwo 0x52 d a b 0 h)
  | .bcast d a b h => some (encTwo 0x53 d a b 0 h)
  | .vote d a o h => some (encOne 0x54 d a o.code h)
  | .lreduce d a o h => some (encOne 0x55 d a o.code h)
  | .lscan d a o h => some (encOne 0x56 d a o.code h)
  | .kmov d (.k a) => some (encSys 0x57 d.val a.val 0 0)
  | .kmov d (.imm v) => some (encSys 0x57 d.val 0 v.toNat 8)
  | .kadd d a y => some (encUni 0x58 d a y 0)
  | .ksub d a y => some (encUni 0x59 d a y 0)
  | .kmul d a y => some (encUni 0x5A d a y 0)
  | .kand d a y => some (encUni 0x5B d a y 0)
  | .kor d a y => some (encUni 0x5C d a y 0)
  | .kxor d a y => some (encUni 0x5D d a y 0)
  | .kshl d a y => some (encUni 0x5E d a y 0)
  | .kshr d a y => some (encUni 0x5F d a y 0)
  | .kcmp d a y c => some (encUni 0x60 d a y c.code)
  | .kread d a l w => some (encSys 0x61 d.val a.code l.val (bit w))
  | .klit d i => some (0x62 * 16777216 + d.val * 262144 + i.toNat * 4)
  | .propose => some (encSys 0x68 0 0 0 0)
  | .accept d a h => some (encOne 0x69 d a 0 h)
  | .discard => some (encSys 0x6A 0 0 0 0)
  | .draw d h => some (encFour 0x6B d.code 0 0 h.code)
  | .drawkey a none => some (encSys 0x6C 0 a.val 0 0)
  | .drawkey a (some b) => some (encSys 0x6C 0 a.val b.val 1)
  | .mbstat d a => some (encOne 0x6D d a 0 .none)
  | .mbclr p a n => some (encSys 0x6E (bit p + 2 * bit a + 4 * bit n) 0 0 0)
  | .ld d a b c => some (encFour 0x70 d.code a.code b.code c.val)
  | .st a b c => some (encFour 0x71 0 a.code b.code c.val)
  | .ldq d a b c => some (encFour 0x72 d.code a.code b.code c.val)
  | .stq a b c => some (encFour 0x73 0 a.code b.code c.val)
  | .cas d a b c => some (encFour 0x76 d.code a.code b.code c.val)
  | .pref a c => some (encFour 0x77 0 a.code 0 c.val)
  | .pin a b => some (encSys 0x78 0 a.val b.val 0)
  | .unpin a b => some (encSys 0x79 0 a.val b.val 0)
  | .fence s o => some (encSys 0x7A (s.code + 8 * o.code) 0 0 0)
  | .waitp p a => some (encSys 0x7B p.code a.val 0 0)
  | .atom o a b c => some (encFour (0x80 + o.code) 0 a.code b.code c.val)
  | .atomr o d a b c => some (encFour (0x88 + o.code) d.code a.code b.code c.val)
  | .mxplan p a => some (encSys 0x90 p.val a.val 0 0)
  | .mxzero t f => some (encSys 0x91 (t.val + 4 * f.code) 0 0 0)
  | .mxstep t p a s => some (encSys 0x92 (t.val + 4 * p.val + 32 * bit s) a.val 0 0)
  | .mxloop t p a l s => some (encSys 0x93 (t.val + 4 * p.val + 32 * bit s) a.val l.val 0)
  | .mxrd d a h => some (encOne 0x94 d a 0 h)
  | .mxwr a b => some (encSys 0x95 0 a.code b.code 0)
  | .mxmon s a g => some (encSys 0x96 s.val a.val 0 (bit g))
  | .monrd d a h => some (encOne 0x97 d a 0 h)
  | .monclr m => some (encSys 0x98 m.toNat 0 0 0)
  | .barinit a b => some (encSys 0xA0 0 a.val b.val 0)
  | .bararr a none => some (encSys 0xA1 0 a.val 0 0)
  | .bararr a (some b) => some (encSys 0xA1 0 a.val b.val 1)
  | .barwait a b => some (encSys 0xA2 0 a.val b.val 0)
  | .barfree a => some (encSys 0xA3 0 a.val 0 0)
  | .cntadd a b => some (encSys 0xA4 0 a.val b.val 0)
  | .cntaddMax a b => some (encSys 0xA4 0 a.val b.val 1)
  | .cntaddSignal a => some (encSys 0xA4 0 a.val 0 2)
  | .cntwait a b => some (encSys 0xA5 0 a.val b.val 0)
  | .cntarm a b => some (encSys 0xA6 0 a.val b.val 0)
  | .pmsel c a => some (encSys 0xA7 c.val a.val 0 0)
  | .pmrd d a h => some (encOne 0xA8 d a 0 h)
  | .pmreplay a => some (encSys 0xA9 0 a.val 0 0)
  | .shape d a b e => some (encSys 0xB0 (d.val + 32 * e.code) a.val b.val 0)
  | .cpy a none => some (encSys 0xB1 0 a.val 0 0)
  | .cpy a (some b) => some (encSys 0xB1 1 a.val b.code 0)
  | .cpym a m => some (encSys 0xB2 m.toNat a.val 0 0)
  | .cpydq a => some (encSys 0xB3 0 a.val 0 0)
  | .chkick c a => some (encSys 0xB4 c.val a.val 0 0)
  | .chtail c a => some (encSys 0xB5 c.val a.val 0 0)
  | .tkpost a => some (encSys 0xB8 0 a.val 0 0)
  | .launch q a => some (encSys 0xB9 q.val a.val 0 0)
  | .rtemitRec a => some (encSys 0xBA 0 a.val 0 0)
  | .rtemitBox a => some (encSys 0xBA 1 a.val 0 0)
  | .rttake x => some (encFour 0xBB (16 + x.val) 0 0 0)
  | .rtdone => some (encSys 0xBC 0 0 0 0)
  | .rtrej => some (encSys 0xBD 0 0 0 0)
  | .rtstat d a h => some (encOne 0xBE d a 0 h)
  | .wregWait a => some (encSys 0xC0 0 a.val 0 0)
  | .wregHold a => some (encSys 0xC0 1 a.val 0 0)
  | .wderegWait => some (encSys 0xC1 0 0 0 0)
  | .wderegHold a => some (encSys 0xC1 1 a.val 0 0)
  | .wprio a b => some (encSys 0xC2 0 a.val b.val 0)
  | .wquery d a b h => some (encTwo 0xC3 d a b 0 h)
  | .lock a => some (encSys 0xC4 0 a.val 0 0)
  | .unlock a => some (encSys 0xC5 0 a.val 0 0)
  | .semtake a b => some (encSys 0xC6 0 a.val b.val 0)
  | .semgive a b => some (encSys 0xC7 0 a.val b.val 0)
  | .puts a r => some (encSys 0xD0 (bit r) a.val 0 0)
  | .get a => some (encSys 0xD1 0 a.val 0 0)
  | .radd a r => some (encSys 0xD2 (bit r) a.val 0 0)
  | .rfence => some (encSys 0xD3 0 0 0 0)
  | .coll a => some (encSys 0xD4 0 a.val 0 0)
  | _ => none

/-- The words of an instruction, in storage order; none for a row without an encoding. -/
def encode (i : Instr) : List W32 :=
  match encodeFirst i with
  | none => []
  | some w =>
    match i with
    | .lit _ x | .lith _ x => [BitVec.ofNat 32 w, x]
    | _ => [BitVec.ofNat 32 w]

/-- The bytes of an instruction as memory holds them (R75). -/
def encodeBytes (i : Instr) : List W8 := (encode i).flatMap bytesOfWord

/-- The bytes an instruction takes: 8 in format F5, else 4 (R75). -/
def Instr.size : Instr → Nat
  | .lit _ _ | .lith _ _ => 8
  | _ => 4

end Sys2Proof
end

