-- ==== Sys2Proof/Machine/Control.lean ====
section
/-!
DEFINITION. Control, mode and system instructions (R186 to R209).
-/

namespace Sys2Proof.Machine

/-! ### Completion, yield, end -/

/-- NOP (R207). -/
def execNop (s : State) : Out := .next (retireWave s 4)

/-- END with a remote error recorded: the device handler returns the task with its cause (R445). -/
def endRemoteErr (s : State) (e : RemoteError) : State :=
  let w := s.wave
  let info := fabricInfo (rankOf e.addr) 0 (waveDie w).val 0 e.sub.toNat (w.ids.tid.toNat % 2 ^ 32)
  contain (report s (some w.ids.part) 5 e.cause info) [w.ids.gang] e.cause false

/-- END stalls until every in-flight counter is 0 (R208). -/
def execEndW (s : State) : Out :=
  if !s.wave.flights.isEmpty then .next (stall s)
  else
    match s.wave.remoteErr with
    | none => .next (endWave s)
    | some e => .next (endRemoteErr s e)

/-- YIELD: ready in the following cycle, with its counts at zero (R207). -/
def execYieldW (s : State) : Out :=
  .next (onWave (retireWave s 4) fun w =>
    { w with
      waited := 0
      losses := 0
      readySince := s.free + 1 })

/-! ### Jumps (R188 to R190) -/

/-- JMP (R189). -/
def execJmp (o : BitVec 20) (s : State) : Out := .next (transferTo s (branchTarget s.wave.regs.pc o))

/-- JMPK (R189). -/
def execJmpk (a : KReg) (s : State) : Out :=
  let t := s.wave.regs.k[a]
  .next (if badPc t then trapWave s 0x03 else transferTo s t)

/-- CALL (R189). -/
def execCall (o : BitVec 20) (s : State) : Out :=
  let r := s.wave.regs
  if r.rs.length ≥ 16 then .next (trapWave s 0x04)
  else .next (transferTo (onRegs s fun r => { r with rs := (r.pc + 4) :: r.rs }) (branchTarget r.pc o))

/-- RET (R189). -/
def execRet (s : State) : Out :=
  match s.wave.regs.rs with
  | [] => .next (trapWave s 0x05)
  | t :: rest => .next (transferTo (onRegs s fun r => { r with rs := rest }) t)

/-! ### Branches on votes (R191) -/

/-- A branch that is taken or completes in sequence. -/
def branchIf (s : State) (o : BitVec 20) (taken : Bool) : Out :=
  .next (if taken then transferTo s (branchTarget s.wave.regs.pc o) else retireWave s 4)

/-- BRANY (R191). -/
def execBrany (c : Guard) (o : BitVec 20) (s : State) : Out :=
  branchIf s o ((s.wave.regs.exec &&& guardMask s.wave.regs c.toNat) != 0)

/-- BRALL (R191). -/
def execBrall (c : Guard) (o : BitVec 20) (s : State) : Out :=
  branchIf s o ((s.wave.regs.exec &&& ~~~ guardMask s.wave.regs c.toNat) == 0)

/-- BRNONE (R191). -/
def execBrnone (c : Guard) (o : BitVec 20) (s : State) : Out :=
  branchIf s o ((s.wave.regs.exec &&& guardMask s.wave.regs c.toNat) == 0)

/-! ### Divergent regions (R192 to R196) -/

/-- The mask-stack entry below the top. -/
def maskTop (r : Regs) : W32 := r.mstack[(Fin.ofNat 16 (r.msdepth.val - 1) : Fin 16)]

/-- A new EXEC, taken into the digest (R338). -/
def setExec (s : State) (x : W32) : State := digestEvent (onRegs s fun r => { r with exec := x }) (x.setWidth 64)

/-- IFP (R192). -/
def execIfp (c : Guard) (o : BitVec 20) (s : State) : Out :=
  let r := s.wave.regs
  if h : r.msdepth.val < 16 then
    let x := r.exec &&& guardMask r c.toNat
    let push := fun (q : Regs) => { q with
      mstack := q.mstack.set r.msdepth.val r.exec
      msdepth := ⟨r.msdepth.val + 1, by omega⟩ }
    branchIf (setExec (onRegs s push) x) o (x == 0)
  else .next (trapWave s 0x0A)

/-- ELSEP (R192). -/
def execElsep (o : BitVec 20) (s : State) : Out :=
  let r := s.wave.regs
  if r.msdepth = 0 then .next (trapWave s 0x0B)
  else
    let x := maskTop r &&& ~~~ r.exec
    branchIf (setExec s x) o (x == 0)

/-- The registers after a pop of the mask stack. -/
def popMask (r : Regs) : Regs :=
  { r with
    exec := maskTop r
    msdepth := r.msdepth - 1 }

/-- ENDIFP (R192). -/
def execEndifp (s : State) : Out :=
  if s.wave.regs.msdepth = 0 then .next (trapWave s 0x0B)
  else .next (onRegs s fun r => retire (popMask r) 4)

/-- BREAKP (R192). -/
def execBreakp (c : Guard) (o : BitVec 20) (s : State) : Out :=
  let r := s.wave.regs
  if r.msdepth = 0 then .next (trapWave s 0x0B)
  else
    let x := r.exec &&& ~~~ guardMask r c.toNat
    if x = 0 then branchIf (setExec (onRegs s popMask) (maskTop r)) o true
    else branchIf (setExec s x) o false

/-- EXECRD (R195). -/
def execExecrd (d : Dst) (h : Hold) (s : State) : Out :=
  checked s [.dst d false] true fun r =>
    let v : Lanes W64 := Lanes.all (r.exec.setWidth 64)
    laneFinish r 4 d h ⟨v, false, v, false⟩ v false

/-- EXECWR reads its source in the lowest lane of EXEC, or in lane 0 (R196). -/
def execExecwr (a : Src) (h : Hold) (s : State) : Out :=
  checkedState s [.src a false] true fun s =>
    let x := srcLanes s.wave.regs s.wave.ids.wave.val a false
    let l := (lowestLane s.wave.regs.exec).getD 0
    setExec (onRegs s fun r => hold (retire r 4) h ⟨x, false, x, false⟩ x false) (lo32 x[l])

/-! ### MODE and literals (R197 to R199) -/

/-- MODE (R197). -/
def execSetMode (m : BitVec 13) (s : State) : Out :=
  .next (onRegs s fun r => { retire r 4 with mode := m.setWidth 32 })

/-- MODEK (R89, R197). -/
def execModek (a : KReg) (s : State) : Out :=
  let v := s.wave.regs.k[a]
  .next (if modeLegal v.toNat then onRegs s fun r => { retire r 4 with mode := lo32 v } else trapWave s 0x01)

/-- LIT (R198). -/
def execLit (d : Dst) (w : W32) (s : State) : Out :=
  checked s [.dst d false] true fun r =>
    let v : Lanes W64 := Lanes.all (w.setWidth 64)
    laneFinish r 8 d .none ⟨v, false, v, false⟩ v false

/-- LITH: the literal above q0 (R199). -/
def execLith (d : Dst) (w : W32) (s : State) : Out :=
  checked s [.src (.q 0) false, .dst d true] true fun r =>
    let v : Lanes W64 := Lanes.of fun l => pair64 w (r.q[0])[l]
    laneFinish r 8 d .none ⟨v, true, v, true⟩ v true

/-! ### Special registers (R149, R150, R200, R201) -/

/-- The cycle count of a wave's die. -/
def waveClock (s : State) : W64 := (s.dies[waveDie s.wave]).clock

/-- The sample that CLOCKH returns. -/
def clockHigh (s : State) : W32 := hi32 (s.wave.regs.clockLatch.getD (waveClock s))

/-- The value of a special register in a lane (R150). -/
def specialValue (s : State) (x : SpecialReg) (l : Fin 32) : W32 :=
  let w := s.wave
  let r := w.regs
  match x with
  | .lane => BitVec.ofNat 32 l.val
  | .wave => BitVec.ofNat 32 w.ids.wave.val
  | .group => BitVec.ofNat 32 w.ids.group.val
  | .gang => w.ids.gang.index
  | .stage => BitVec.ofNat 32 (((myGroup s).map fun g => g.stage.val).getD 0)
  | .core => BitVec.ofNat 32 (coreNum w.ids.core)
  | .die => BitVec.ofNat 32 (waveDie w).val
  | .rank => lo32 s.pkg.rank
  | .clock => lo32 (waveClock s)
  | .clockh => clockHigh s
  | .glane => glane w l
  | .taskid => lo32 w.ids.tid
  | .variant => BitVec.ofNat 32 r.variant.val
  | .nregs => BitVec.ofNat 32 r.nregs.val
  | .sumrev => 1
  | .prio => BitVec.ofNat 32 r.prio.val
  | .eprio => BitVec.ofNat 32 w.eprio.val
  | .tbase => lo32 r.tbase
  | .tbaseh => hi32 r.tbase
  | .mode => r.mode
  | .msdepth => BitVec.ofNat 32 r.msdepth.val
  | .msidx => BitVec.ofNat 32 r.msidx.val
  | .msval => r.mstack[r.msidx]
  | .qvalid => r.qvalid.setWidth 32
  | .npleft => if w.npOpen then BitVec.ofNat 32 w.npleft else 0

/-- The clock latch after a read of a special register (R150). -/
def latchClock (s : State) (x : SpecialReg) (r : Regs) : Regs :=
  match x with
  | .clock => { r with clockLatch := some (waveClock s) }
  | .clockh => { r with clockLatch := none }
  | _ => r

/-- GETSR (R200). -/
def execGetsr (d : Dst) (x : SpecialReg) (h : Hold) (s : State) : Out :=
  checked s [.dst d false] true fun r =>
    let v : Lanes W64 := Lanes.of fun l => (specialValue s x l).setWidth 64
    latchClock s x (laneFinish r 4 d h ⟨v, false, v, false⟩ v false)

/-- Whether SETSR accepts a value (R201). -/
def srAccepts (x : SpecialReg) (v : W32) : Bool :=
  match x with
  | .prio | .msidx => decide (v.toNat < 16)
  | .tbase => v.toNat % 4096 == 0
  | .tbaseh => decide (v.toNat < 2 ^ 24)
  | .mode => modeLegal v.toNat
  | .msdepth => decide (v.toNat ≤ 16)
  | _ => true

/-- The registers after SETSR; the registers that it cannot write stay as they are. -/
def srWrite (x : SpecialReg) (v : W32) (r : Regs) : Regs :=
  match x with
  | .prio => { r with prio := Fin.ofNat 16 v.toNat }
  | .tbase => { r with tbase := pair64 (hi32 r.tbase) v }
  | .tbaseh => { r with tbase := pair64 v (lo32 r.tbase) }
  | .mode => { r with mode := v }
  | .msdepth => { r with msdepth := Fin.ofNat 17 v.toNat }
  | .msidx => { r with msidx := Fin.ofNat 16 v.toNat }
  | .msval => { r with mstack := r.mstack.set r.msidx.val v }
  | _ => r

/-- SETSR (R201). -/
def execSetsr (x : SpecialReg) (a : KReg) (s : State) : Out :=
  let v := lo32 s.wave.regs.k[a]
  if srAccepts x v then
    let t := onRegs s fun r => retire (srWrite x v r) 4
    .next (if x = .prio then settlePrio t else t)
  else .next (trapWave s 0x0E)

/-! ### Traps (R202 to R204) -/

/-- The records of TRAP: the source's values in the lanes of EXEC, or a per-wave record (R202). -/
def trapRecords (s : State) (n : Fin 8) (a : Src) : List TrapRec :=
  let cause : Cause := BitVec.ofNat 8 (0x58 + n.val)
  let sub : W8 := BitVec.ofNat 8 n.val
  let x := srcLanes s.wave.regs s.wave.ids.wave.val a false
  if s.wave.regs.exec = 0 then [⟨0, 0, cause, sub⟩]
  else (laneList.filter fun l => s.wave.regs.exec.getLsbD l.val).map fun l => ⟨l, x[l], cause, sub⟩

/-- TRAP completes and then enters the handler (R202). -/
def execTrap (n : Fin 8) (a : Src) (s : State) : Out :=
  checkedState s [.src a false] true fun s =>
    let t := retireWave s 4
    let u := trapEntry t (BitVec.ofNat 8 (0x58 + n.val)) t.wave.regs.pc (trapRecords s n a)
    if u.wave.run = .held then onRegs u fun _ => s.wave.regs else u

/-- ERET (R204, R420). -/
def execEret (s : State) : Out := .next (trapReturn s)

/-- ILLEGAL_INSTR at a word that R90 refuses; any other word is left alone. -/
def execIllegalInstr (w : W32) (s : State) : Out :=
  match decode (bytesOfWord w ++ [0, 0, 0, 0]) with
  | .ok _ => .next s
  | .error _ => .next (trapEntry s 0x00 s.wave.regs.pc [⟨0, w.setWidth 64, 0x00, 0⟩])

/-! ### Windows (R205, R206) -/

/-- NOPREEMPT (R205). -/
def execNopreempt (s : State) : Out :=
  .next (onWave (retireWave s 4) fun w =>
    if w.npOpen then w else { w with npOpen := true, npleft := 20000 })

/-- PREEMPTOK (R205). -/
def execPreemptok (s : State) : Out :=
  .next (onWave (retireWave (windowClosed s s.wave) 4) fun w => { w with npOpen := false, npleft := 0 })

/-! ### PHASE (R34, R209) -/

/-- Whether PHASE may choose a variant over the running one. -/
def phaseEligible (cur : VariantEnt) (open0 : Bool) (v : VariantEnt) : Bool :=
  v.gshape == cur.gshape && v.waves == cur.waves && decide (v.nregs ≤ cur.nregs) && decide (v.spad ≤ cur.spad) &&
    (cur.mirror || !v.mirror) && (!open0 || v.mirror)

/-- The registers after PHASE. -/
def phaseRegs (i : Nat) (v : VariantEnt) (r : Regs) : Regs :=
  { r with
    variant := Fin.ofNat 8 i
    nregs := Fin.ofNat 41 (min v.nregs 40)
    mirrorOn := v.mirror }

/-- PHASE (R209, R225). The open proposal is that of PFLAG as it stands: in a handler, one that the frame holds is not looked at, and its copies stay for ERET (log entry 45). -/
def execPhase (s : State) : Out :=
  match myLaunch s with
  | none => .next (trapWave s 0x3A)
  | some l =>
    let r := s.wave.regs
    match variantAt l.variants r.variant.val with
    | none => .next (trapWave s 0x3A)
    | some cur =>
      match selectVariant l.variants r.k[l.sizek].toNat (phaseEligible cur r.pflag) with
      | none => .next (trapWave s 0x3A)
      | some (i, v) => .next (jumpTo (onRegs s (phaseRegs i v)) v.entry)

end Sys2Proof.Machine
end

