-- ==== Sys2Proof/Machine/Waiting.lean ====
section
/-!
DEFINITION. Registered waits of the issuing wave (R393, R396) and the checks of an instruction that names one word (R236, R255, R327, R401).
-/

namespace Sys2Proof.Machine

/-! ### Implicit waits (R393) -/

/-- Whether the issuing wave waits at its instruction. -/
def inWait (s : State) : Bool := s.wave.wait.any fun l => !l.explicit

/-- The implicit wait ends before the instruction completes; an explicit one stays. -/
def leaveWait (s : State) : State := if inWait s then endWait s else s

/-- The trap of a wait that would close a cycle: record i stands in lane i's place (R396, R397). -/
def trapDeadlock (s : State) (records : List W64) : State :=
  let s1 := onWave s fun w => { w with wait := none }
  settlePrio (sweepObjs (trapEntry s1 0x29 s1.wave.regs.pc ((laneList.zip records).map fun x => ⟨x.1, x.2, 0x29, 0⟩)))

/-- What finding room in the table, or none, leads to (R399). -/
def roomed (s : State) (r : Room × State) (k : State → State) : State :=
  match r with
  | (.full, _) => trapWave s 0x2D
  | (.host, _) => holdWave s 0x2D
  | (_, t) => k t

/-- The clock of the issuing wave after one of its atomic updates of a word: what it read and what it wrote (R273, R276). -/
def updatedClk (s : State) (pa n : Nat) : State := onWave s fun w => { w with clk := latestClk s pa n w.clk }

/-- What a registration leads to: the wave goes on with `k`, traps, or is held. -/
def registered (s : State) (r : Reg) (k : State → State) : State :=
  match r with
  | .ok t => k t
  | .deadlock t records => trapDeadlock t records
  | .full => trapWave s 0x2D
  | .host t | .member t => t

/-- What is done with a wait that is registered, a member's among them. -/
def markReg (f : State → State) (r : Reg) : Reg :=
  match r with
  | .ok t => .ok (f t)
  | .member t => .member (f t)
  | r => r

/-- The issuing wave waits at its instruction on an object; a wait already registered goes on. -/
def await (s : State) (key : ObjKey) (kind : Nat) (what : WaitFor) (remote : Bool) : State :=
  if s.wave.wait.any fun l => !l.explicit && !l.granted && l.key == key && l.what == what then stall s
  else registered s (registerWait s key kind what false remote) stall

/-- Whether any wait is registered on an object, but for the issuing wave's wait at its instruction. -/
def anyWait (s : State) (key : ObjKey) : Bool :=
  (waiters s).any fun e => e.2.key == key && !(e.1 == s.wave.ids.token && !e.2.explicit)

/-- The acquire of a join (R286): the object's clock is merged, then the acquire at package scope. -/
def join (s : State) (v : Clk) : State := acquire (onWave s fun w => { w with clk := v })

/-! ### One word named by a uniform register -/

/-- What windows a word may lie in, and what is done to it. -/
structure WordUse where
  aperture : Bool
  globalOk : Bool
  acc : Access
  /-- The final checks of R255 apply. -/
  final : Bool

/-- The checks of R236 on the n bytes at an address, and the final ones of R255. -/
def checkWord (s : State) (a : W64) (n : Nat) (u : WordUse) : Checked × State :=
  match rangeWindow s a.toNat n with
  | .error c => (.fail (if c = 0x45 then 0x1C else c), s)
  | .ok (.aperture slot off) =>
    if !u.aperture then (.fail 0x1C, s)
    else
      match apertureAt s s.wave.ids.gang slot off n with
      | none => (.fail 0x1A, s)
      | some g =>
        if a.toNat % n != 0 then (.fail 0x18, s)
        else if u.final && overlapsBar g off n then (.fail 0x2C, s)
        else (.ok (.spad g.index off), s)
  | .ok (.global va) =>
    if !u.globalOk then (.fail 0x1C, s)
    else if a.toNat % n != 0 then (.fail 0x18, s)
    else
      match waveTranslate s va u.acc with
      | (.fail c, t) => (.fail c, t)
      | (.held, t) => (.held, t)
      | (.ok pa, t) =>
        if u.final && overlapsOwned t pa n then (.fail 0x3C, t)
        else if lostRead t t.wave.ids.part (some t.wave.ids.gang) (bytesFrom pa n) then (.fail 0x4D, t)
        else (.ok (.mem pa va), t)
  | .ok _ => (.fail 0x1C, s)

/-- An instruction behind the checks of its word: the failing address stands in lane 0's record (R327). -/
def withWord (s : State) (a : W64) (n : Nat) (u : WordUse) (k : Place → State → State) : Out :=
  match checkWord s a n u with
  | (.fail c, t) => .next (trapValue t c a 0)
  | (.held, t) => .next (holdWave t 0x20)
  | (.ok p, t) => .next (k p t)

end Sys2Proof.Machine
end

