-- ==== Sys2Proof/Machine/Counter.lean ====
section
/-!
DEFINITION. Barriers, counters, performance counters and replay measurement (R316 to R338).
-/

namespace Sys2Proof.Machine

/-! ### Phase barriers (R328 to R331) -/

/-- The checks of a barrier's address. -/
def barUse : WordUse where
  aperture := true
  globalOk := false
  acc := .read
  final := false

/-- An instruction behind the checks of its barrier. -/
def withBar (s : State) (a : KReg) (k : Group → Nat → State → State) : Out :=
  withWord s s.wave.regs.k[a] 16 barUse fun p s =>
    match p with
    | .spad i off =>
      match findGroup s s.wave.ids.gang i.val with
      | some g => k g off s
      | none => trapWave s 0x1A
    | _ => trapWave s 0x1C

def barKey (g : Group) (off : Nat) : ObjKey := .spad g.gang g.index off

/-- Expectations that BARINIT refuses. -/
def barExpectBad (x : Nat) : Bool := bitsOf x 31 16 != 0 || (bitsOf x 15 0 == 0 && bitsOf x 63 32 == 0)

/-- The object that BARINIT writes. -/
def barInitial (x : Nat) : Bar where
  pb := bitsOf x 63 32
  pa := bitsOf x 15 0
  phase := 0
  err := 0
  ovf := 0
  eb := bitsOf x 63 32
  ea := bitsOf x 15 0
  gen := 0

/-- BARINIT: the object is written, and registered in the table (R320, R328). -/
def execBarinit (a b : KReg) (s : State) : Out :=
  withBar s a fun g off s =>
    let x := s.wave.regs.k[b].toNat
    if barExpectBad x || overlapsBar g off 16 then trapWave s 0x2A
    else
      roomed s (ensureObj s (tableDie s) s.wave.ids.part (barKey g off) 1) fun u =>
        let t := spadWrite u g.gang g.index off (leBytes 16 (barBits (barInitial x))) s.wave.clk
        retireWave (onGroup t g.gang g.index fun y => { y with bars := y.bars ++ [off] }) 4

/-- BARARR: a release at gang scope, then one arrival (R329, log entry 20). -/
def execBararr (a : KReg) (b : Option KReg) (s : State) : Out :=
  withBar s a fun g off s =>
    let x := (b.map fun i => s.wave.regs.k[i].toNat).getD 0
    if x / 2 ^ 32 ≠ 0 then trapWave s 0x2A
    else if !g.bars.contains off then trapWave s 0x28
    else if !storesAcked s 2 || !flightRoom s .store then stall s
    else
      let t := arriveAt s g.gang g.index off x false s.wave.clk
      retireWave (onWave t fun w => raiseFlight w .store false) 4

/-- p1 is written in all 32 lanes (R330, R333). -/
def setP1 (r : Regs) (b : Bool) : Regs := { r with preds := r.preds.set 1 (if b then 0xFFFFFFFF else 0) }

/-- A wait that has returned: the join, then p1 (R286, R330, R333). -/
def finishJoin (s : State) (v : Clk) (err : Bool) : State :=
  onRegs (join (leaveWait s) v) fun r => retire (setP1 r err) 4

/-- Whether the issuing wave's wait on an object has ended (R393). -/
def isGranted (s : State) (key : ObjKey) : Bool := s.wave.wait.any fun l => l.key == key && l.granted

/-- BARWAIT (R330). A wave that was away checks its object again: its resumption ends a wait that the phase had ended meanwhile (Machine/Sched.lean). -/
def execBarwait (a b : KReg) (s : State) : Out :=
  withBar s a fun g off s =>
    let seen := s.wave.regs.k[b].getLsbD 0
    let o := barOf (leNat (spadBytes g off 16))
    if !g.bars.contains off && !inWait s && !triesAgain s then trapWave s 0x28
    else if (o.phase == 1) != seen || isGranted s (barKey g off) then finishJoin s (spadClkAt g off 16 s.wave.clk) (o.err == 1)
    else await s (barKey g off) 1 (.phase seen) false

/-- BARFREE (R331). -/
def execBarfree (a : KReg) (s : State) : Out :=
  withBar s a fun g off s =>
    let key := barKey g off
    if !g.bars.contains off then trapWave s 0x28
    else if !(engineHolders s key).isEmpty then await s key 1 .room false
    else if anyWait s key then trapWave (leaveWait s) 0x2A
    else retireWave (sweepObjs (onGroup (leaveWait s) g.gang g.index fun y => { y with bars := y.bars.erase off })) 4

/-! ### Progress and successor counters (R332 to R334) -/

/-- The checks of a counter that is only read, and of one that is updated. -/
def countRead : WordUse where
  aperture := false
  globalOk := true
  acc := .read
  final := false

def countWrite : WordUse where
  aperture := false
  globalOk := true
  acc := .write
  final := true

/-- An instruction behind the checks of its counter of n bytes. -/
def withCount (s : State) (a : KReg) (n : Nat) (u : WordUse) (k : Nat → Nat → State → State) : Out :=
  withWord s s.wave.regs.k[a] n u fun p s =>
    match p with
    | .mem pa va => k pa va s
    | _ => trapWave s 0x1C

/-- What follows an update that escapes a versioned task: the tag and the event (R325, R426); IFST is raised (R332). -/
def escaped (s : State) (pa : Nat) : State :=
  let t := if isVersioned s then
      countEvent (tagLine s (taskOf s) (pa / 128)) s.wave.ids.core (some s.wave.ids.gang) 17 1
    else s
  retireWave (onWave (updatedClk t pa 8) fun w => raiseFlight w .store false) 4

/-- The wait for room in the queue that a task record names (R370, R479). -/
def awaitTaskRoom (s : State) (task : Nat) : State :=
  match devTranslate s s.wave.ids.part task .write with
  | (.ok pa, _) =>
    await s (.roomTask s.wave.ids.part (Fin.ofNat 16 (bitsOf (memNat s pa 8) 11 8))) 5 .room false
  | (.error _, _) => stall s

/-- The wait of a signal for a pending entry, or for room in the queue of the record that it posts (R323, R388). -/
def awaitSignal (s : State) (pa task : Nat) : State :=
  if memNat s pa 8 / 2 ^ 32 % 2 = 0 then await s (.pending (homeOf pa)) 6 (.signal pa) false else awaitTaskRoom s task

/-- CNTADD behind its checks: a release at package scope, then the update (R332). -/
def cntUpdate (s : State) (a : KReg) (pa : Nat) (f : State → Option State) : State :=
  if !storesAcked s 4 || !flightRoom s .store then stall s
  else
    observing s [pa / 128] (fun _ => trapValue s 0x4A s.wave.regs.k[a] 0) fun t =>
      match f t with
      | none => awaitSignal s pa (memNat s (pa + 8) 8)
      | some u => escaped (leaveWait u) pa

/-- CNTADD in the add and max modes. -/
def cntAddBy (s : State) (a b : KReg) (f : Nat → Nat → Nat) : Out :=
  withCount s a 8 countWrite fun pa _ s =>
    let n := s.wave.regs.k[b].toNat
    if n / 2 ^ 63 = 1 then trapWave s 0x2B
    else cntUpdate s a pa fun t => some (counterWrite t (waveWriter t) pa (f (memNat t pa 8) n) t.wave.clk)

/-- CNTADD (R332). -/
def execCntadd (a b : KReg) (s : State) : Out := cntAddBy s a b counterAdd

/-- CNTADD max (R332). -/
def execCntaddMax (a b : KReg) (s : State) : Out := cntAddBy s a b counterMax

/-- A signal of the issuing wave's gang; one that has not made the counter fire can be withdrawn (R430). -/
def gangSignal (s : State) (pa : Nat) : Option State :=
  let s0 := if (signalWord (memNat s pa 8)).isNone then writerLine s (waveWriter s) pa else s
  match signalAt s0 (waveWriter s) s.wave.ids.part pa s.wave.clk with
  | none => none
  | some t =>
    let x := memNat t pa 8
    if x / 2 ^ 32 % 2 = 1 ∧ x / 2 ^ 33 % 2 = 1 then some t
    else some { t with signals := t.signals ++ [(t.wave.ids.gang, t.wave.ids.tid, pa)] }

/-- CNTADD signal (R332). -/
def execCntaddSignal (a : KReg) (s : State) : Out :=
  withCount s a 16 countWrite fun pa _ s => cntUpdate s a pa fun t => gangSignal t pa

/-- CNTWAIT (R333). -/
def execCntwait (a b : KReg) (s : State) : Out :=
  withCount s a 8 countRead fun pa va s0 =>
    let s := if triesAgain s0 then s0 else writerLine s0 (waveWriter s0) pa
    let n := s.wave.regs.k[b].toNat % 2 ^ 63
    let x := gangWord s s.wave.ids.gang pa
    if n ≤ x % 2 ^ 63 then
      observing s [pa / 128] (fun _ => trapValue (leaveWait s) 0x4A s.wave.regs.k[a] 0) fun t =>
        finishJoin t (latestClk t pa 8 t.wave.clk) (decide (x / 2 ^ 63 = 1))
    else await s (.word s.wave.ids.part va) 2 (.count pa n) false

/-- Operands and a state of the counter that CNTARM refuses. -/
def armBad (s : State) (b : W64) (t : W64) (pa : Nat) : Bool :=
  let o := memNat s pa 8
  b.toNat / 2 ^ 32 != 0 || lo32 b == 0 || (o / 2 ^ 32 % 2 == 1 && o / 2 ^ 33 % 2 == 0) ||
    (t != 0 && (t.toNat % 64 != 0 || !isLocalGlobal t.toNat))

/-- The counter's 16 bytes after CNTARM with p pending signals. -/
def armedWord (c p : Nat) (t : W64) : Nat :=
  t.toNat * 2 ^ 64 + 2 ^ 32 + if c ≤ p then 2 ^ 33 + (if c < p then 2 ^ 34 else 0) else c - p

/-- CNTARM at the home slice; none while the record that it posts waits for room. -/
def armCounter (s : State) (pa c : Nat) (t : W64) : Option State :=
  let p := pendCount s pa
  let s1 := pendDrop s pa
  let s2 := waveStamp (writerLine s1 (waveWriter s1) pa) (keyed pa (leBytes 16 (armedWord c p t)))
  if c ≤ p then
    let s3 := { s2 with signals := s2.signals.filter fun e => e.2.2 != pa }
    if t = 0 then some s3 else firePost s3 s3.wave.ids.part t.toNat (lineTags s3 pa)
  else some s2

/-- CNTARM (R334). -/
def execCntarm (a b : KReg) (s : State) : Out :=
  withCount s a 16 countWrite fun pa _ s =>
    let r := s.wave.regs
    let t := r.k[(a + 1 : Fin 32)]
    if armBad s r.k[b] t pa then trapWave s 0x2B
    else if !storesAcked s 4 then stall s
    else
      match armCounter s pa (lo32 r.k[b]).toNat t with
      | none => awaitTaskRoom s t.toNat
      | some u => retireWave (leaveWait u) 4

/-! ### Performance counters (R335) -/

/-- Whether the issuing wave's gang may measure. -/
def mayMeasure (s : State) : Bool := (findGang s s.wave.ids.gang).any fun g => g.meas

/-- PMSEL (R335). -/
def execPmsel (c : Fin 4) (a : KReg) (s : State) : Out :=
  let v := s.wave.regs.k[a]
  if !mayMeasure s then .next (trapWave s 0x50)
  else if 17 < v.toNat % 256 ∨ v.toNat / 2 ^ 9 ≠ 0 then .next (trapWave s 0x51)
  else .next (retireWave (onCore s s.wave.ids.core fun x =>
    { x with pm := x.pm.set c.val ⟨v.setWidth 8, v.getLsbD 8, 0⟩ }) 4)

/-- What PMRD reads for a selector. -/
def pmHalf (k : Core) (x : W64) : W32 :=
  let v := (k.pm[(Fin.ofNat 4 x.toNat : Fin 4)]).value
  if x.getLsbD 2 then hi32 v else lo32 v

/-- PMRD (R335). -/
def execPmrd (d : Dst) (a : Src) (h : Hold) (s : State) : Out :=
  checkedState s [.src a false, .dst d false] true fun s =>
    if !mayMeasure s then trapWave s 0x50
    else
      let x := srcLanes s.wave.regs s.wave.ids.wave.val a false
      let v : Lanes W64 := Lanes.of fun l => (pmHalf s.cores[s.wave.ids.core] x[l]).setWidth 64
      onRegs s fun r => laneFinish r 4 d h ⟨x, false, v, false⟩ v false

/-! ### Replay measurement (R336, R337) -/

/-- The events of a pass are selected on the four counters of every core of the gang and start at 0. R337 starts the pass digest here, and R338 makes it of the final D of every wave, which runs from the wave's start: the model seeds no D anew (DEDUCED, log entry 18). -/
def startPass (s : State) (k : GangKey) : State :=
  match (myTask s).bind fun t => t.replay with
  | none => s
  | some r =>
    let p := r.passes.length
    let pm : Vector Pm 4 := Vector.ofFn fun i => ⟨(r.sel[4 * p + i.val]?).getD 0, true, 0⟩
    let s1 := ((s.groups.filter fun g => g.gang == k).map fun g => g.core).foldl
      (fun t c => onCore t c fun x => { x with pm := pm }) s
    onTask s1 s1.wave.ids.tid s1.wave.ids.part fun t => { t with replay := some { r with started := true } }

/-- A descriptor that PMREPLAY refuses (R336). -/
def replayBad (s : State) (d : Nat) : Bool :=
  let n := bitsOf d 3 0
  let res := bitsOf d 383 320
  n == 0 || decide (8 < n) || bitsOf d 63 4 != 0 || bitsOf d 511 384 != 0 || res % 64 != 0 ||
    (match windowOf s res with | .global _ => false | _ => true) ||
    (List.range 32).any fun i => decide (17 < bitsOf d (64 + 8 * i + 7) (64 + 8 * i))

/-- The measurement that a descriptor asks for. -/
def replayOf (d : Nat) : Replay where
  npass := bitsOf d 3 0
  sel := (List.range 32).map fun i => BitVec.ofNat 8 (bitsOf d (64 + 8 * i + 7) (64 + 8 * i))
  result := BitVec.ofNat 64 (bitsOf d 383 320)
  started := false
  passes := []

/-- PMREPLAY (R336, R337). -/
def execPmreplay (a : KReg) (s : State) : Out :=
  let k := s.wave.ids.gang
  if !mayMeasure s then .next (trapWave s 0x50)
  else if !isVersioned s then .next (trapWave s 0x52)
  else
    match (myTask s).bind fun t => t.replay with
    | some r => .next (retireWave (if r.started then s else startPass s k) 4)
    | none =>
      withCount s a 64 countRead fun pa _ s =>
        let d := leNat ((List.range 64).map fun i => gangByte s (some k) (waveDie s.wave) s.wave.ids.token (pa + i))
        if unitBlocked s (.mem pa 0) 64 then stall s
        else if replayBad s d then trapWave s 0x52
        else
          let s := onWave s fun w => { w with clk := unitClk s (.mem pa 0) 64 w.clk }
          retireWave (startPass (onTask s s.wave.ids.tid s.wave.ids.part fun t => { t with replay := some (replayOf d) }) k) 4

end Sys2Proof.Machine
end

