-- ==== Sys2Proof/Machine/Cross.lean ====
section
/-!
DEFINITION. The cross-lane and the uniform instructions (R175 to R184).
-/

namespace Sys2Proof.Machine

/-! ### Permutations (R175) -/

/-- A permutation: `f lane selector` is the lane whose value is delivered; `own` says that each lane has its own selector. -/
def permute (s : State) (d : Dst) (a : Src) (b : Src2) (h : Hold) (own : Bool) (f : Nat → Nat → Nat) : Out :=
  let w := regsWide s.wave.regs
  checked s ([.src a w] ++ useSrc2 b w ++ [.dst d w]) (tyIn s.wave.regs okAny) fun r =>
    let x := srcLanes r s.wave.ids.wave.val a w
    let y := src2Lanes r s.wave.ids.wave.val b w
    let low := (lowestLane (activeMask r)).getD 0
    let sel := fun (l : Fin 32) => (if own then y[l] else y[low]).toNat % 32
    let v := Lanes.of fun l => x[(Fin.ofNat 32 (f l.val (sel l)) : Fin 32)]
    laneFinish r 4 d h ⟨x, w, y, w⟩ v w

/-- SHFL (R175). -/
def execShfl (d : Dst) (a : Src) (b : Src2) (h : Hold) (s : State) : Out := permute s d a b h true fun _ k => k

/-- BFLY (R175). -/
def execBfly (d : Dst) (a : Src) (b : Src2) (h : Hold) (s : State) : Out := permute s d a b h false fun l k => l ^^^ k

/-- LROT (R175). -/
def execLrot (d : Dst) (a : Src) (b : Src2) (h : Hold) (s : State) : Out := permute s d a b h false fun l k => (l + k) % 32

/-- BCAST (R175). -/
def execBcast (d : Dst) (a : Src) (b : Src2) (h : Hold) (s : State) : Out := permute s d a b h false fun _ k => k

/-! ### Votes, reductions, scans (R176 to R179) -/

/-- VOTE pushes a 32-bit result (R176). -/
def execVote (d : Dst) (a : Src) (o : VoteOp) (h : Hold) (s : State) : Out :=
  laneOneBy s d a h okAny (regsWide s.wave.regs) false fun r x =>
    Lanes.all ((voteValue o (activeMask r) x).setWidth 64)

/-- One element position over the lanes, absent where a lane is inactive. -/
def elemColumn (act : W32) (t : Ty) (x : Lanes W64) (i : Nat) : List (Option Nat) :=
  laneList.map fun l => if act.getLsbD l.val then some (elemAt (tyBits t) x[l].toNat i) else none

/-- LREDUCE (R177, R179). -/
def execLreduce (d : Dst) (a : Src) (o : RedOp) (h : Hold) (s : State) : Out :=
  let w := regsWide s.wave.regs
  laneOneBy s d a h okArith w w fun r x =>
    let t := curTy r
    Lanes.all (BitVec.ofNat 64 (packElems (tyBits t) ((List.range (tyCount t)).map fun i =>
      reduceElem (arithOf r t) o (elemColumn (activeMask r) t x i))))

/-- LSCAN (R178, R179). -/
def execLscan (d : Dst) (a : Src) (o : RedOp) (h : Hold) (s : State) : Out :=
  let w := regsWide s.wave.regs
  laneOneBy s d a h okArith w w fun r x =>
    let t := curTy r
    let cols := (List.range (tyCount t)).map fun i => scanElem (arithOf r t) o (elemColumn (activeMask r) t x i)
    Lanes.of fun l => BitVec.ofNat 64 (packElems (tyBits t) (cols.map fun u => (u[l.val]?).getD 0))

/-! ### Uniform instructions (R180 to R184) -/

/-- A completed instruction that writes a uniform register. -/
def writeK (r : Regs) (d : KReg) (v : W64) : Regs := { retire r 4 with k := r.k.set d.val v }

/-- A two-operand uniform instruction. -/
def uniform (s : State) (d a : KReg) (y : KOp) (f : W64 → W64 → W64) : Out :=
  .next (onRegs s fun r => writeK r d (f r.k[a] (kopValue r y)))

/-- KMOV (R182). -/
def execKmov (d : KReg) (y : KOp) (s : State) : Out := .next (onRegs s fun r => writeK r d (kopValue r y))

/-- KADD (R180). -/
def execKadd (d a : KReg) (y : KOp) (s : State) : Out := uniform s d a y (· + ·)

/-- KSUB (R180). -/
def execKsub (d a : KReg) (y : KOp) (s : State) : Out := uniform s d a y (· - ·)

/-- KMUL (R180). -/
def execKmul (d a : KReg) (y : KOp) (s : State) : Out := uniform s d a y (· * ·)

/-- KAND (R180). -/
def execKand (d a : KReg) (y : KOp) (s : State) : Out := uniform s d a y (· &&& ·)

/-- KOR (R180). -/
def execKor (d a : KReg) (y : KOp) (s : State) : Out := uniform s d a y (· ||| ·)

/-- KXOR (R180). -/
def execKxor (d a : KReg) (y : KOp) (s : State) : Out := uniform s d a y (· ^^^ ·)

/-- KSHL: 0 when the count is 64 or more (R180). -/
def execKshl (d a : KReg) (y : KOp) (s : State) : Out :=
  uniform s d a y fun x c => if c.toNat < 64 then x <<< c.toNat else 0

/-- KSHR: 0 when the count is 64 or more (R180). -/
def execKshr (d a : KReg) (y : KOp) (s : State) : Out :=
  uniform s d a y fun x c => if c.toNat < 64 then x >>> c.toNat else 0

/-- KCMP compares signed (R180, R181). -/
def execKcmp (d a : KReg) (y : KOp) (c : CmpOp) (s : State) : Out :=
  uniform s d a y fun x v => if condHolds c (some (compare x.toInt v.toInt)) then 1 else 0

/-- KREAD (R183). -/
def execKread (d : KReg) (a : Src) (l : Fin 32) (w64 : Bool) (s : State) : Out :=
  checked s [.src a w64] true fun r => writeK r d (srcAt r s.wave.ids.wave.val a w64 l)

/-- KLIT (R184). -/
def execKlit (d : KReg) (i : W16) (s : State) : Out := .next (onRegs s fun r => writeK r d (i.signExtend 64))

end Sys2Proof.Machine
end

