-- ==== Sys2Proof/Machine/Sum.lean ====
section
/-!
DEFINITION. The summation contract (R124 to R136): plans, products, chunks, promotion, the fold into a tile, the monitor counts.
-/

namespace Sys2Proof.Machine

/-! ### Plans (R124, R125) -/

/-- The fields of a plan. -/
structure Plan where
  len : Nat × Nat × Nat
  width : Nat × Nat × Nat
  align : Nat × Nat × Nat
  round : Nat × Nat × Nat
  semi : Nat
  osa : Bool
  osb : Bool
  mslot : Fin 8
  men : Bool
  fa : Nat
  fb : Nat
  rsv : Nat
  deriving DecidableEq, Repr

def planOf (h : W64) : Plan :=
  let f := fun hi lo => bitsOf h.toNat hi lo
  { len := (2 ^ (f 2 0 + 1), 2 ^ f 5 3, 2 ^ f 8 6)
    width := (f 14 9, f 20 15, f 26 21)
    align := (f 28 27, f 30 29, f 32 31)
    round := (f 35 33, f 38 36, f 41 39)
    semi := f 44 42
    osa := f 45 45 == 1
    osb := f 46 46 == 1
    mslot := Fin.ofNat 8 (f 49 47)
    men := f 50 50 == 1
    fa := f 53 51
    fb := f 56 54
    rsv := f 63 57 }

/-- The width class of a format code, and the products of a K-step of that class. -/
def formatClass (x : Nat) : Nat := match x with | 0 | 1 => 0 | 2 => 1 | _ => 2
def classProducts (x : Nat) : Nat := match x with | 0 => 384 | 1 => 768 | _ => 192

/-- A valid plan (R125). -/
def planOk (h : W64) : Bool :=
  let p := planOf h
  let code := fun (x : Nat) => decide (1 ≤ x) && decide (x ≤ 5)
  let width := fun (x : Nat) => decide (8 ≤ x) && decide (x ≤ 48)
  let len := p.len.1 * p.len.2.1 * p.len.2.2
  decide (p.len.1 ≤ 32) && decide (p.len.2.1 ≤ 16) && decide (p.len.2.2 ≤ 16) &&
    width p.width.1 && width p.width.2.1 && width p.width.2.2 &&
    decide (p.align.1 ≤ 2) && decide (p.align.2.1 ≤ 2) && decide (p.align.2.2 ≤ 2) &&
    code p.round.1 && code p.round.2.1 && code p.round.2.2 &&
    decide (p.semi ≤ 4) && decide (p.fa ≤ 4) && decide (p.fb ≤ 4) && p.rsv == 0 &&
    formatClass p.fa == formatClass p.fb && classProducts (formatClass p.fa) % len == 0 &&
    (!(p.osa || p.osb) || (p.semi == 0 && p.fa == 2 && p.fb == 2))

/-- OP, the footprint of an operand in bytes (R298). -/
def operandBytes (fmt : Nat) : Nat := if fmt = 2 then 26240 else 24576

/-! ### Operand images (R113, R298) -/

/-- The format of a code. -/
def planFmt (x : Nat) : Fmt :=
  match x with
  | 0 => e4m3 | 1 => e5m2 | 2 => e2m1 | 3 => fp16 | _ => bf16

/-- A value times 2^(X - 127); a scale of 0xFF is a NaN (R112). -/
def scaleBy (x : Nat) (v : FVal) : FVal :=
  if x = 0xFF then .nan
  else match v with
    | .fin n m e s => .fin n m (e + x - 127) s
    | v => v

/-- Pairs of bytes as 16-bit numbers. -/
def halves : List W8 → List Nat
  | a :: b :: l => (a.toNat + 256 * b.toNat) :: halves l
  | _ => []

/-- The elements of one row of A, or column of B, along K, from its 384 bytes and its 24 block scales. -/
def rowElems (fmt : Nat) (bytes scales : List W8) : List FVal :=
  let f := planFmt fmt
  match fmt with
  | 0 | 1 => bytes.map fun b => decodeF f b.toNat
  | 2 =>
    let nibbles := bytes.flatMap fun b => [b.toNat % 16, b.toNat / 16]
    nibbles.mapIdx fun k x => scaleBy ((scales[k / 32]?).getD 0).toNat (decodeF f x)
  | _ => (halves bytes).map fun x => decodeF f x

/-- The 64 rows of an image. -/
def imageRows (fmt : Nat) (img : List W8) : List (List FVal) :=
  (List.range 64).map fun i => rowElems fmt ((img.drop (384 * i)).take 384) ((img.drop (24576 + 24 * i)).take 24)

/-- The outer scale bytes of an image. -/
def outerScales (img : List W8) : List Nat := ((img.drop 26112).take 64).map fun b => b.toNat

/-! ### Chunks (R100, R127 to R131) -/

/-- Exp of R128 for a non-zero finite value. -/
def fExp (m : Nat) (e : Int) : Int := m.log2 + e

def popCount : Nat → Nat → Nat
  | 0, _ => 0
  | n + 1, x => x % 2 + popCount n (x / 2)

/-- Align of R100: the integer at weight 2^q, the bits lost, and whether the input is gone. -/
def alignAt (neg : Bool) (m : Nat) (e q : Int) (mode : Nat) : Int × Nat × Nat :=
  if q ≤ e then (signed neg (m * 2 ^ (e - q).toNat), 0, 0)
  else
    let k := (q - e).toNat
    let t := m / 2 ^ k
    let r := m % 2 ^ k
    let lost := popCount (m.log2 + 1) r
    let gone := if m ≠ 0 ∧ t = 0 then 1 else 0
    let a : Int := match mode with
      | 0 => signed neg t
      | 1 => signed neg (if r = 0 then t else t ||| 1)
      | _ => if neg ∧ r ≠ 0 then -(t : Int) - 1 else signed neg t
    (a, lost, gone)

/-- The flags of a chunk's inputs summarised (R129); none when all are finite. -/
def flagSummary (l : List FVal) : Option FVal :=
  let nan := l.any fun v => v == .nan
  let pinf := l.any fun v => v == .inf false
  let ninf := l.any fun v => v == .inf true
  if nan || (pinf && ninf) then some .nan
  else if pinf then some (.inf false)
  else if ninf then some (.inf true)
  else none

/-- A negative zero (R130). -/
def isNegZero (v : FVal) : Bool :=
  match v with
  | .fin n m _ _ => n && m == 0
  | _ => false

/-- A chunk of R128: its value and flag, the bits lost, the inputs gone. -/
def chunkSum (w mode : Nat) (l : List FVal) : FVal × Nat × Nat :=
  let exps := l.filterMap fun v => match v with
    | .fin _ m e _ => if m = 0 then none else some (fExp m e)
    | _ => none
  match exps with
  | [] => ((flagSummary l).getD (.fin (l.all isNegZero) 0 0 false), 0, 0)
  | x :: xs =>
    let q := xs.foldl max x - w + 1
    let r := l.foldl (fun (acc : Int × Nat × Nat) v => match v with
      | .fin n m e _ => let a := alignAt n m e q mode; (acc.1 + a.1, acc.2.1 + a.2.1, acc.2.2 + a.2.2)
      | _ => acc) (0, 0, 0)
    let v : FVal := if r.1 = 0 then .fin false 0 0 false else .fin (decide (r.1 < 0)) r.1.natAbs q false
    ((flagSummary l).getD v, r.2.1, r.2.2)

/-- The rounding of a plan's code. -/
def planRound (x : Nat) : RMode := rmodeOf x 32

/-- Promotion to p significant bits (R131). -/
def promote (p : Nat) (r : RMode) (v : FVal) : FVal :=
  match v with
  | .fin n m e s =>
    let d := m.log2 + 1 - p
    if m = 0 ∨ d = 0 then .fin n m e s else .fin n (roundShift r n m d false) (e + d) false
  | v => v

/-- A list in parts of n; the list has at most `fuel` parts. -/
def partsOf (n : Nat) : Nat → List FVal → List (List FVal)
  | 0, _ => []
  | fuel + 1, l => if l.isEmpty then [] else l.take n :: partsOf n fuel (l.drop n)

/-- One level: its sums, with the bits lost and the inputs gone. -/
def levelSums (n w mode : Nat) (l : List FVal) : List FVal × Nat × Nat :=
  (partsOf n l.length l).foldr (fun part acc =>
    let r := chunkSum w mode part
    (r.1 :: acc.1, acc.2.1 + r.2.1, acc.2.2 + r.2.2)) ([], 0, 0)

/-- The counts of one element or of a step: lost and gone at levels 0, 1 and 2 (R134). -/
abbrev Counts := List Nat

/-- The level-2 sums of an element under plus-times, with its counts. -/
def plusSums (p : Plan) (l : List FVal) : List FVal × Counts :=
  let a := levelSums p.len.1 p.width.1 p.align.1 l
  let b := levelSums p.len.2.1 p.width.2.1 p.align.2.1 (a.1.map (promote p.width.2.1 (planRound p.round.1)))
  let u := levelSums p.len.2.2 p.width.2.2 p.align.2.2 (b.1.map (promote p.width.2.2 (planRound p.round.2.1)))
  (u.1, [a.2.1, a.2.2, b.2.1, b.2.2, u.2.1, u.2.2])

/-! ### The other semirings (R136) -/

/-- The lesser of two values, -0 below +0; a NaN propagates. -/
def fMin (x y : FVal) : FVal :=
  match fCmp x y with
  | none => .nan
  | some .lt => x
  | some .gt => y
  | some .eq => if isNegZero y then y else x

def fMax (x y : FVal) : FVal :=
  match fCmp x y with
  | none => .nan
  | some .gt => x
  | some .lt => y
  | some .eq => if isNegZero x then y else x

/-- Whether a value counts as non-zero in or-and. -/
def fNonZero (v : FVal) : Bool :=
  match v with
  | .fin _ m _ _ => m != 0
  | _ => true

/-- The product of R126 and of the table of R136. -/
def semiProduct (semi : Nat) (x y : FVal) : FVal :=
  match semi with
  | 0 | 3 => fMul x y
  | 1 | 2 => fAdd .rne x y
  | _ => .fin false (if fNonZero x && fNonZero y then 1 else 0) 0 false

/-- The sum of a chunk of a semiring that is not plus-times. -/
def semiSum (semi : Nat) (l : List FVal) : FVal :=
  match l with
  | [] => .fin false 0 0 false
  | x :: xs => if semi = 1 then xs.foldl fMin x else xs.foldl fMax x

/-- The level-2 sums of an element. -/
def elementSums (p : Plan) (l : List FVal) : List FVal × Counts :=
  if p.semi = 0 then plusSums p l
  else
    let n := p.len.1 * p.len.2.1 * p.len.2.2
    ((partsOf n l.length l).map (semiSum p.semi), [0, 0, 0, 0, 0, 0])

/-! ### Level 3 (R132, R136) -/

/-- OuterScale: the two bytes that apply; 127 stands for a factor of 1. -/
def outerScaled (p : Plan) (sa sb : Nat) (v : FVal) : FVal :=
  let v1 := if p.osa then scaleBy sa v else v
  if p.osb then scaleBy sb v1 else v1

/-- The fold of one level-2 sum into an element. -/
def foldElem (p : Plan) (sa sb : Nat) (t : Nat) (v : FVal) : Nat :=
  let r := planRound p.round.2.2
  if p.semi = 4 then (if t % 2 ^ 31 ≠ 0 ∨ fNonZero v then 0x3F800000 else 0)
  else
    let y := decodeF fp32 (roundVal fp32 r false (outerScaled p sa sb v))
    let x := decodeF fp32 t
    match p.semi with
    | 0 => roundVal fp32 .rne false (fAdd .rne x y)
    | 1 => roundVal fp32 .rne false (fMin x y)
    | _ => roundVal fp32 .rne false (fMax x y)

/-! ### The K-step (R304) -/

/-- The counters of a slot raised, each to its ceiling (R134). -/
def addCounts (slot : Vector W32 6) (l : Counts) : Vector W32 6 :=
  Vector.ofFn fun i => BitVec.ofNat 32 (min (slot[i].toNat + (l[i.val]?).getD 0) (2 ^ 32 - 1))

/-- One element of a tile after a step, with its counts. -/
def stepElem (p : Plan) (t : Nat) (ra cb : List FVal) (sa sb : Nat) : Nat × Counts :=
  let r := elementSums p (List.zipWith (semiProduct p.semi) ra cb)
  (r.1.foldl (foldElem p sa sb) t, r.2)

/-- A tile after a step on two images, and the step's counts. -/
def kStepTile (h : W64) (tile : List (Nat × W32)) (imgA imgB : List W8) : List (Nat × W32) × Counts :=
  let p := planOf h
  let ra := imageRows p.fa imgA
  let cb := imageRows p.fb imgB
  let sa := outerScales imgA
  let sb := outerScales imgB
  let cells := (ra.mapIdx fun i row => (cb.mapIdx fun j col =>
    (64 * i + j, stepElem p (cellGet (0 : W32) tile (64 * i + j)).toNat row col ((sa[i]?).getD 127) ((sb[j]?).getD 127)))).flatten
  let new := cells.filterMap fun x => if x.2.1 = 0 then none else some (x.1, BitVec.ofNat 32 x.2.1)
  (new, cells.foldl (fun acc x => List.zipWith (· + ·) acc x.2.2) [0, 0, 0, 0, 0, 0])

end Sys2Proof.Machine
end

