-- ==== Sys2Proof/Machine/Fabric.lean ====
section
/-!
DEFINITION. The fabric: RFENCE (R452), requests and answers between packages (R443 to R445, R451), collectives (R138 to R140, R453 to R458).
-/

namespace Sys2Proof.Machine

/-! ### RFENCE (R452) -/

/-- A PUTS or RADD. -/
def isPut (x : CopyKind) : Bool :=
  match x with
  | .puts _ | .radd _ _ _ => true
  | _ => false

/-- Whether a PUTS or RADD of the issuing wave has not completed; deferred ones do not count. -/
def ownPuts (s : State) : Bool :=
  let d := s.dies[waveDie s.wave]
  (d.copyWait ++ d.copyRun).any fun o =>
    isPut o.kind && o.who.token == s.wave.ids.token && o.forTask.isNone && !(dstRemote s o && issuerVersioned s o.who)

/-- The remote error is reported precisely and cleared (R445). -/
def trapRemoteErr (s : State) (e : RemoteError) : State :=
  let t := trapValue s e.cause e.addr e.sub
  if t.wave.handler then onWave t fun w => { w with remoteErr := none } else t

/-- RFENCE. It waits for writes alone, and for no read that a trap has left behind. -/
def execRfence (s : State) : Out :=
  if !storesAcked s 5 || (s.wave.remoteOut.any fun r => !r.blocking && !r.addrs.isEmpty) || ownPuts s then .next (stall s)
  else
    match s.wave.remoteErr with
    | some e => .next (trapRemoteErr s e)
    | none => .next (retireWave s 4)

/-! ### Collective descriptors (R455) -/

/-- The fields of a collective descriptor. -/
structure CollDesc where
  op : Nat
  type : Nat
  sat : Bool
  b : Nat
  group : Nat
  cseq : Nat
  count : Nat
  index : Nat
  root : Nat
  src : W64
  dst : W64
  compl : W64
  rsv : Bool
  deriving DecidableEq, Repr

def collOf (r : Nat) : CollDesc :=
  let f := fun hi lo => bitsOf r hi lo
  { op := f 3 0, type := f 7 4, sat := f 8 8 == 1, b := f 15 9, group := f 23 16, cseq := f 63 32, count := f 95 64,
    index := f 111 96, root := f 127 112, src := BitVec.ofNat 64 (f 191 128), dst := BitVec.ofNat 64 (f 255 192),
    compl := BitVec.ofNat 64 (f 319 256), rsv := f 31 24 != 0 || f 511 320 != 0 }

/-- OP, ETYPE, SAT and B as they stand in the descriptor: what all contributors must give alike. -/
def collPar (d : CollDesc) : W64 := BitVec.ofNat 64 (d.op + d.type * 2 ^ 4 + (if d.sat then 2 ^ 8 else 0) + d.b * 2 ^ 9)

def parOp (p : W64) : Nat := bitsOf p.toNat 3 0
def parType (p : W64) : Nat := bitsOf p.toNat 7 4
def parSat (p : W64) : Bool := p.getLsbD 8

/-- The bits of B: 0 stands for 96. -/
def parB (p : W64) : Nat := if bitsOf p.toNat 15 9 = 0 then 96 else bitsOf p.toNat 15 9

/-- The element types of ETYPE. -/
def collTy (x : Nat) : Option Ty :=
  match x with
  | 0 => some .i32 | 1 => some .n32 | 2 => some .i64 | 3 => some .n64 | 4 => some .f32 | 5 => some .f16 | 6 => some .bf16
  | _ => none

def collFloat (x : Nat) : Bool := decide (4 ≤ x)

/-- The bytes of a contribution's element, and of a result's. -/
def elemBytes (x : Nat) : Nat := ((collTy x).map tyBits).getD 8 / 8
def resultBytesOf (op type : Nat) : Nat := if op = 3 ∨ !collFloat type then elemBytes type else 4

/-- The rank list of a group (R454). -/
def rankList (s : State) (g : Nat) : Option (List W16) := (s.collGroups.find? fun e => e.1 == g).map fun e => e.2

/-- A range of n bytes of local global memory whose start is a multiple of m. -/
def localRange (s : State) (a : W64) (n m : Nat) : Bool :=
  (match windowOf s a.toNat, windowOf s ((a.toNat + n - 1) % 2 ^ 64) with
    | .global _, .global _ => true
    | _, _ => false) && a.toNat % m == 0

/-- What raises COLL_INVALID (R455). -/
def collBad (s : State) (d : CollDesc) : Bool :=
  let inGroup : Bool :=
    match rankList s d.group with
    | none => false
    | some l => decide (d.index < l.length) && decide (d.root < l.length) &&
        (l[d.index]?).any fun r => r.toNat == s.pkg.rank.toNat
  d.rsv || decide (3 < d.op) || decide (6 < d.type) || (d.b != 0 && (decide (d.b < 40) || decide (120 < d.b))) || !inGroup ||
    d.count == 0 || decide (2 ^ 28 < d.count) || !localRange s d.src (d.count * elemBytes d.type) 16 ||
    !localRange s d.dst (d.count * resultBytesOf d.op d.type) 16 || (d.compl != 0 && !localRange s d.compl 8 8)

/-- A floating-point sum of more contributions than R139 allows. -/
def collLimit (s : State) (d : CollDesc) : Bool :=
  d.op == 0 && collFloat d.type && decide (2 ^ (125 - parB (collPar d)) < ((rankList s d.group).getD []).length)

/-! ### COLL (R455, R457) -/

/-- Elements of n bytes. -/
def elemsOf (n : Nat) : List W8 → Nat → List W64
  | _, 0 => []
  | l, k + 1 => BitVec.ofNat 64 (leNat (l.take n)) :: elemsOf n (l.drop n) k

/-- How the forming of a contribution ends: it stands, or its pages wait for the host. -/
inductive Formed where
  | ok (p : Contribution) (s : State)
  | held

/-- The contribution that a member's engine forms: it reads SRC (R456). A page that awaits the host holds the wave, until the host has released it (R41, R237). -/
def formContribution (s : State) (who : Issuer) (d : CollDesc) : Formed :=
  let n := d.count * elemBytes d.type
  let mk := fun (v : Option (List W64)) (c : Cause) (a : W64) (w : Issuer) =>
    (⟨d.index, collPar d, d.count, d.root, v, c, a, some w, d.dst, d.compl, none, issuerVersioned s who⟩ : Contribution)
  match windowOf s d.src.toNat with
  | .global va =>
    (match transPages who.core who.gang who.part va .read (pagesOf va n) s with
      | (.ok l, t) =>
        let pas := (List.range n).map fun i => paThrough l (va + i)
        let w := { who with clk := pas.foldl (fun v pa => opClk t who pa v) who.clk }
        let u := useLines t who.core who.gang (coreDie who.core) (pas.map fun pa => pa / 128)
        if lostRead t who.part who.gang pas then .ok (mk none 0x4D d.src who) t
        else .ok (mk (some (elemsOf (elemBytes d.type) (pas.map fun pa => opByte t who pa) d.count)) 0 0 w) u
      | (.fail c a, t) => .ok (mk none c (BitVec.ofNat 64 a) who) t
      | (.held, t) => if isReleased s then .ok (mk none 0x20 d.src who) t else .held)
  | _ => .ok (mk none 0x1C d.src who) s

/-- A contribution joins its instance (R453). -/
def joinColl (s : State) (dpid group cseq : Nat) (d : Fin 2) (p : Contribution) : State :=
  let same := fun (x : Coll) => x.dpid == dpid && x.group == group && x.cseq == cseq
  let join := fun (x : Coll) => { x with parts := x.parts ++ [p], came := if x.ended.isSome then p.index :: x.came else x.came }
  if s.colls.any same then { s with colls := s.colls.map fun x => if same x then join x else x }
  else { s with colls := s.colls ++ [⟨dpid, group, cseq, s.dies[d].clock, false, none, [], [p]⟩] }

/-- Versioned members here and a versioned contributor there observe one another (R457). -/
def addFar (s : State) (tasks : List (TaskKey × Nat)) (dpid group cseq index : Nat) : State :=
  { s with farMembers := s.farMembers ++ tasks.map fun t => ⟨t.1, dpid, group, cseq, t.2, index, false, false⟩ }

/-- The request that carries a contribution to another package; a failed read carries no values. -/
def contributeReq (dpid : W16) (d : CollDesc) (p : Contribution) : RemoteReq :=
  .contribute dpid d.group d.cseq d.index d.op d.type d.sat d.b d.root (p.values.getD []) p.ver

/-- The members of an instance that observe one another with the issuing task (R457). -/
def collMembers (s : State) (dpid : Nat) (d : CollDesc) : List TaskKey :=
  let parts := (s.colls.filter fun x => x.dpid == dpid && x.group == d.group && x.cseq == d.cseq).flatMap fun x => x.parts
  (parts.filterMap fun p => p.who.bind fun w => if issuerVersioned s w then w.tid.map fun t => (⟨w.part, t⟩ : TaskKey) else none).eraseDups.filter
    fun t => t != ⟨s.wave.ids.part, s.wave.ids.tid⟩

/-- The indexes of an instance's versioned contributors in other packages. -/
def farVersioned (s : State) (dpid : Nat) (d : CollDesc) : List Nat :=
  ((s.colls.filter fun x => x.dpid == dpid && x.group == d.group && x.cseq == d.cseq && x.ended.isNone).flatMap fun x =>
    (x.parts.filter fun p => p.ver && p.who.isNone && p.moved.isNone).map fun p => p.index).eraseDups

/-- The links of the members, those in other packages among them; the group that they make may not grow too large (R427, R457). -/
def linkMembers (s : State) (l : List TaskKey) (dpid : Nat) (d : CollDesc) : Observe :=
  let me : TaskKey := ⟨s.wave.ids.part, s.wave.ids.tid⟩
  if !isVersioned s then .ok s
  else
    let s1 := (farVersioned s dpid d).foldl (fun t i => addFar t [(me, d.index)] dpid d.group d.cseq i) s
    match linkTasks s1 (tableDie s) me ((l.flatMap fun t => [⟨t, me⟩, ⟨me, t⟩]).filter fun o => !(observedOf s).contains o) with
    | .ok t => if groupSpan t (commitGroup t me) > 64 then .limit else .ok t
    | x => x

/-- A contribution that joins its instance, with what goes to the other packages. -/
def collSend (s : State) (who : Issuer) (d : CollDesc) : State :=
  let dp := dpidOf s s.wave.ids.part
  match formContribution s who d with
  | .held => holdWave s 0x20
  | .ok p t =>
    let s2 := settleObjs (joinColl t dp.toNat d.group d.cseq (waveDie s.wave) p)
    retireWave (sendRequests s2 ((farRanks s2 d.group).map fun k => (k, contributeReq dp d p))) 4

/-- COLL behind the read of its descriptor. -/
def collIssue (s : State) (a : W64) (d : CollDesc) : State :=
  let who := issuerOf s
  let room : Room := if d.compl = 0 then .onDie else engineRoom s { who with spill := isReleased s } (waveDie s.wave) [keyAt s who.part who.gang d.compl.toNat]
  if collBad s d then trapWave s 0x44
  else if collLimit s d then trapWave s 0x43
  else if !flightRoom s .engine || !forkReady s who || !clkLe who.clk s.dies[waveDie s.wave].applied then stall s
  else if room == .full then stall s
  else if room == .host then holdWave s 0x2D
  else
    match linkMembers s (collMembers s (dpidOf s s.wave.ids.part).toNat d) (dpidOf s s.wave.ids.part).toNat d with
    | .limit => trapValue s 0x4A a 0
    | .full => trapWave s 0x2D
    | .host => holdWave s 0x2D
    | .ok s1 => collSend s1 who d

/-- COLL. -/
def execColl (a : KReg) (s : State) : Out :=
  let x := s.wave.regs.k[a]
  match windowOf s x.toNat with
  | .global va =>
    if x.toNat % 64 ≠ 0 then .next (trapWave s 0x44)
    else
      (match waveTranslate s va .read with
        | (.fail c, t) => .next (trapValue t c x 0)
        | (.held, t) => .next (holdWave t 0x20)
        | (.ok pa, t) =>
          let bytes := (List.range 64).map fun i => gangByte t (some t.wave.ids.gang) (waveDie t.wave) t.wave.ids.token (pa + i)
          if unitBlocked t (.mem pa 0) 64 then .next (stall t)
          else if lostRead t t.wave.ids.part (some t.wave.ids.gang) (bytesFrom pa 64) then .next (trapValue t 0x4D x 0)
          else .next (collIssue (onWave t fun w => { w with clk := unitClk t (.mem pa 0) 64 w.clk }) x (collOf (leNat bytes))))
  | _ => .next (trapWave s 0x44)

/-! ### What an instance computes (R138, R140, R456) -/

/-- The sum of R138, as FP32 bits. -/
def exactSum (b : Nat) (l : List FVal) : Nat :=
  match flagSummary l with
  | some v => roundVal fp32 .rne false v
  | none =>
    match maxExp l with
    | none => if l.all isNegZero then 2 ^ 31 else 0
    | some e =>
      let q : Int := e - b
      let add := fun (n : Int) (v : FVal) =>
        match v with
        | .fin neg m x _ => n + signed neg (roundShift .rna neg m (q - x) false)
        | _ => n
      let n := l.foldl add 0
      roundVal fp32 .rne false (.fin (decide (n < 0)) n.natAbs q false)

/-- One element of a result from the elements of the contributions. -/
def collElem (par : W64) (root : W64) (l : List W64) : Nat :=
  let ty := (collTy (parType par)).getD .i32
  let ints := l.map fun x => intOf ty (x.toNat % 2 ^ tyBits ty)
  let vals := l.map fun x => decodeF ((fmtOf ty).getD fp32) x.toNat
  match parOp par, collFloat (parType par) with
  | 0, true => exactSum (parB par) vals
  | 0, false => intRes ty (parSat par) (ints.foldl (· + ·) 0)
  | 1, true => roundVal fp32 .rne false (vals.tail.foldl fMin (vals.headD .nan))
  | 1, false => intBits ty (ints.tail.foldl min (ints.headD 0))
  | 2, true => roundVal fp32 .rne false (vals.tail.foldl fMax (vals.headD .nan))
  | 2, false => intBits ty (ints.tail.foldl max (ints.headD 0))
  | _, _ => root.toNat

/-- The results of an instance, element by element. -/
def collResults (par : W64) (root count : Nat) (parts : List Contribution) : List Nat :=
  let rows := parts.map fun p => p.values.getD []
  let top := ((parts.find? fun p => p.index == root).bind fun p => p.values).getD []
  (List.range count).map fun i => collElem par ((top[i]?).getD 0) (rows.map fun r => (r[i]?).getD 0)

/-! ### The end of an instance (R456) -/

/-- The add to a member's COMPL, as a versioned write in a versioned task (R457). -/
def collSignal (s : State) (who : Issuer) (compl : W64) (err : Bool) (v : Clk) : State :=
  if compl = 0 then s
  else if issuerVersioned s who then
    match windowOf s compl.toNat with
    | .global va =>
      (match coreTranslate s who.core who.gang who.part va .write with
        | (.ok pa, t) =>
          if lostRead t who.part who.gang (bytesFrom pa 8) then completionFails t who compl 0x4D
          else
          let x := counterAdd (opLatest t who pa 8) 1
          let k := who.gang.getD ⟨0, 0⟩
          let tid := who.tid.getD 0
          (versionUnit t who.part k tid (keyed pa (leBytes 8 (if err then counterErr x else x)))).getD (versionFullFor t who.part tid k)
        | (.fail c, t) => completionFails t who compl c
        | (.held, t) => completionFails t who compl 0x20)
    | _ => s
  else completeAt s who none compl 0 err v

/-- One member of an instance that ends without a result: its record, then its add with ERR, which waits where the record has to (R285, R419). -/
def failMember (c : Cause) (m : List Contribution × State) (p : Contribution) : List Contribution × State :=
  match p.who with
  | none => m
  | some who =>
    let r := drawFree m.2
    let own := if c = 0x46 ∧ p.cause ≠ 0 then (p.addr, p.cause) else (r.1, c)
    let t := engineRecords r.2 who [own]
    if t.recWaits.any fun e => e.1.token == who.token then (m.1 ++ [{ p with moved := some ⟨[], who.clk, true⟩ }], t)
    else (m.1, collSignal t who p.compl true (recordsClk t who who.clk))

/-- Whether two entries are the same instance (R453). -/
def sameColl (x y : Coll) : Bool := x.dpid == y.dpid && x.group == y.group && x.cseq == y.cseq

/-- An instance removed. -/
def dropColl (s : State) (x : Coll) : State := settleObjs { s with colls := s.colls.filter fun y => !sameColl x y }

/-- The members among some whose engine records wait: those of a gang that has been killed meanwhile are gone. -/
def stillHeld (s : State) (l : List Contribution) : List Contribution :=
  l.filter fun p => p.who.any fun w => s.recWaits.any fun e => e.1.token == w.token

/-- The contributors of a group. -/
def groupSize (s : State) (group : Nat) : Nat := ((rankList s group).getD []).length

/-- An instance ends in the members that have come, and stays for those that are still to come (R456, R458). The address of a record without a failing address is left open (log entry 3). -/
def endColl (s : State) (x : Coll) (c : Cause) : State :=
  let came := (x.parts.map fun p => p.index) ++ x.came
  let r := x.parts.foldl (failMember c) ([], dropColl s x)
  let held := stillHeld r.2 r.1
  if held.isEmpty && (List.range (groupSize s x.group)).all came.contains then r.2
  else { r.2 with colls := r.2.colls ++ [{ x with ended := some c, came := came, parts := held }] }

/-- INFO of cause group 5 for an instance. -/
def collInfo (x : Coll) (rank : Nat) : Nat :=
  let d := (x.parts.findSome? fun p => p.who.map fun w => (coreDie w.core).val).getD 0
  fabricInfo rank 0 d x.group 0 x.cseq

/-- The rank of a contributor. -/
def rankAt (s : State) (group index : Nat) : Nat := ((((rankList s group).getD [])[index]?).map fun r => r.toNat).getD 0

/-- An instance that ends by a failure of its contributors: the device handler gets the asynchronous result too (R416, R422, R459). -/
def failColl (s : State) (x : Coll) (c : Cause) : State :=
  let by1 := if c = 0x46 then x.parts.find? fun p => p.values.isNone else x.parts.getLast?
  let rank := (by1.map fun p => rankAt s x.group p.index).getD 0
  endColl (report s (x.parts.findSome? fun p => p.who.map fun w => w.part) 5 c (collInfo x rank)) x c

/-- The write of a member's results so far. -/
structure Delivery where
  s : State
  writes : List (Fin 2 × Nat)
  recs : List (W64 × Cause)
  full : Bool

/-- Elements of one page written. -/
def putElems (who : Issuer) (n : Nat) : List (Nat × Nat) → Delivery → Delivery
  | [], m => m
  | (pa, x) :: rest, m =>
    match opStore m.s who pa (leBytes n x) who.clk with
    | .full => { m with full := true }
    | .done t w => putElems who n rest { m with s := t, writes := m.writes ++ w }

/-- The results that fall on one page; a failing page stays unwritten. -/
def putPage (who : Issuer) (va n : Nat) (vals : List Nat) (m : Delivery) (page : Nat) : Delivery :=
  let a := max va (page * 2 ^ 15)
  if m.full then m
  else
    match coreTranslate m.s who.core who.gang who.part a .write with
    | (.fail c, t) => { m with s := t, recs := m.recs ++ [(BitVec.ofNat 64 a, c)] }
    | (.held, t) => { m with s := t, recs := m.recs ++ [(BitVec.ofNat 64 a, 0x20)] }
    | (.ok pa, t) =>
      let mine := (vals.mapIdx fun i x => (va + n * i, x)).filter fun e => e.1 / 2 ^ 15 == page
      let hit := mine.any fun e => overlapsOwned t (pa + (e.1 - a)) n
      putElems who n (mine.map fun e => (pa + (e.1 - a), e.2))
        { m with s := t, recs := if hit then m.recs ++ [(BitVec.ofNat 64 a, 0x3C)] else m.recs }

/-- The results written for one member, with its records: what its completion waits for (R285). -/
def deliverMember (n : Nat) (vals : List Nat) (s : State) (p : Contribution) : Option Contribution × State :=
  match p.who, windowOf s p.dst.toNat with
  | some who, .global va =>
    let m := (pagesOf va (n * vals.length)).foldl (putPage who va n vals) ⟨s, [], [], false⟩
    if m.full then (none, versionFullFor s who.part (who.tid.getD 0) (who.gang.getD ⟨0, 0⟩))
    else (some { p with moved := some ⟨m.writes, coverWrites who.clk m.writes, !m.recs.isEmpty⟩ }, engineRecords m.s who m.recs)
  | _, _ => (none, s)

/-- The members' results written, with the members that still await their completion. -/
def deliverAll (n : Nat) (vals : List Nat) : List Contribution → State → List Contribution × State
  | [], s => ([], s)
  | p :: rest, s =>
    let r := deliverMember n vals s p
    let q := deliverAll n vals rest r.2
    (r.1.toList ++ q.1, q.2)

/-- A member whose results are written and applied on the die of its completion object, with its engine records (R285, R419). -/
def signalReady (s : State) (p : Contribution) : Bool :=
  match p.who, p.moved with
  | some who, some m =>
    let d := if p.compl = 0 then coreDie who.core else objectDie s who p.compl
    appliedOn s d m.writes && (!m.err || recordsDone s who d)
  | _, _ => false

/-- Whether an instance that has ended has members that are still to come. -/
def awaited (s : State) (x : Coll) : Bool := x.ended.isSome && !(List.range (groupSize s x.group)).all x.came.contains

/-- The completion of one member; the instance goes with its last one. -/
def signalMember (s : State) (x : Coll) (p : Contribution) : State :=
  let rest := x.parts.erase p
  let swap := fun (y : Coll) => if sameColl x y then { y with parts := rest } else y
  let s1 := if rest.isEmpty && !awaited s x then dropColl s x else { s with colls := s.colls.map swap }
  match p.who, p.moved with
  | some who, some m => settleObjs (collSignal s1 who p.compl m.err (if m.err then recordsClk s who m.clk else m.clk))
  | _, _ => s1

/-- How far an instance has come. -/
inductive CollStage where
  | waits
  | ends (c : Cause)
  | result
  /-- The results are written; a member's completion follows. -/
  | signal (p : Contribution)
  /-- A member has come to an instance that has ended. -/
  | late (c : Cause)
  /-- The wait for contributors is to be registered. -/
  | register (who : Issuer)
  deriving DecidableEq, Repr

/-- Whether two contributions disagree; a failed read brings no COUNT. -/
def disagree (x y : Contribution) : Bool :=
  x.par != y.par || x.root != y.root || (x.count != y.count && x.values.isSome && y.values.isSome)

/-- The key of an instance's wait for contributors. -/
def collKey (x : Coll) : ObjKey := .coll x.dpid x.group x.cseq

/-- The collective engine of a die (R387). -/
def collAgent (d : Fin 2) : W32 := engToken d 4 0

/-- The first member here of an instance that waits for contributors: the engine of its die registers the wait, one at a time, since it has one wait link (R390, R456, log entry 34). -/
def collWaiter (s : State) (x : Coll) : Option Issuer :=
  (x.parts.findSome? fun p => p.who).filter fun w =>
    x.ended.isNone && !engineWaits s (collAgent (coreDie w.core)) && !engineStopped s w.part (collAgent (coreDie w.core)) &&
      (ensureObjBy s w.spill (opDie s w.part (coreDie w.core)) w.part (collKey x) 5).1 != .full

def collStage (s : State) (x : Coll) : CollStage :=
  let ids := x.parts.map fun p => p.index
  let waits := x.parked || x.parts.any fun p => p.who.any fun w =>
    engineStopped s w.part (collAgent (coreDie w.core)) || (s.parts[w.part]).parked.any fun i => some i.tid == w.tid
  if (x.parts.any fun p => p.moved.isSome) && !(x.ended.isSome && (x.parts.any fun p => p.moved.isNone)) then
    (match x.parts.find? (signalReady s) with
      | some p => .signal p
      | none => .waits)
  else if waits then .waits
  else if x.ended.isSome then (if x.parts.isEmpty then .waits else .late (x.ended.getD 0))
  else if ids.eraseDups.length ≠ ids.length then .ends 0x44
  else if ids.length < groupSize s x.group then
    (match collWaiter s x with
      | some w => .register w
      | none => .waits)
  else
    match x.parts with
    | [] => .waits
    | p :: rest =>
      if rest.any (disagree p) then .ends 0x44
      else if x.parts.any fun q => q.values.isNone then .ends 0x46
      else .result

/-- The results delivered to the members; where one member's version area is full, that member's task is treated first (R432). -/
def deliverColl (s : State) (x : Coll) : State :=
  match x.parts with
  | [] => s
  | p :: _ =>
    let vals := collResults p.par p.root p.count x.parts
    let n := resultBytesOf (parOp p.par) (parType p.par)
    let full := x.parts.find? fun q =>
      match q.who, windowOf s q.dst.toNat with
      | some who, .global va => ((pagesOf va (n * vals.length)).foldl (putPage who va n vals) ⟨s, [], [], false⟩).full
      | _, _ => false
    match full.bind fun q => q.who with
    | some who => versionFullFor s who.part (who.tid.getD 0) (who.gang.getD ⟨0, 0⟩)
    | none =>
      let r := deliverAll n vals x.parts { s with colls := s.colls.erase x }
      settleObjs (if r.1.isEmpty then r.2 else { r.2 with colls := r.2.colls ++ [{ x with parts := r.1 }] })

/-- The instance of a key. -/
def findColl (s : State) (dpid group cseq : Nat) : Option Coll :=
  s.colls.find? fun x => x.dpid == dpid && x.group == group && x.cseq == cseq

/-- Members that have come to an instance that has ended take its end; where a package had failed, their tasks are returned (R456, R458). -/
def lateColl (s : State) (x : Coll) (c : Cause) : State :=
  let new := x.parts.filter fun p => p.moved.isNone
  let r := new.foldl (failMember c) ([], s)
  let y : Coll := { x with parts := (x.parts.filter fun p => p.moved.isSome) ++ stillHeld r.2 r.1 }
  let others := r.2.colls.filter fun z => !sameColl x z
  let s1 := { r.2 with colls := if y.parts.isEmpty && !awaited s y then others else others ++ [y] }
  if c = 0x46 then contain s1 ((new.filterMap fun p => p.who.bind fun w => w.gang).eraseDups) c false else settleObjs s1

/-- The wait for contributors registered, with LONG where one of them lies in another package (R395, R456). -/
def registerColl (s : State) (x : Coll) (who : Issuer) : State :=
  let d := coreDie who.core
  match registerEngine s d (collAgent d) who (collKey x) 5 with
  | .waits t =>
    let far := !(farRanks s x.group).isEmpty
    { t with engWaits := t.engWaits.map fun e =>
        if e.agent = collAgent d && e.link.key == collKey x then { e with link := { e.link with long := e.link.long || far } } else e }
  | .host t => t
  | .deadlock => endColl s x 0x29
  | .full => s

/-- COLLECTIVE_COMPLETE. -/
def execCollectiveComplete (dpid group cseq : Nat) (s : State) : Out :=
  match findColl s dpid group cseq with
  | none => .next s
  | some x =>
    match collStage s x with
    | .waits => .next s
    | .ends c => .next (failColl s x c)
    | .late c => .next (lateColl s x c)
    | .register who => .next (registerColl s x who)
    | .result => .next (deliverColl s x)
    | .signal p => .next (signalMember s x p)

/-- The collective engines' next step, if any. -/
def collEvent (s : State) : Option Instr :=
  (s.colls.find? fun x => collStage s x != .waits).map fun x => .collectiveComplete x.dpid x.group x.cseq

/-- Steps that a part fault finds under way stop in host-assisted mode; in hardware mode their recomputation gives the same bits (R458). -/
def parkColls (s : State) (c : Cause) : State :=
  let assisted := fun (x : Coll) => x.parts.any fun p => p.who.any fun w => (s.parts[w.part]).pfmode.getLsbD 6
  let hit := fun (x : Coll) => x.ended.isNone && (match collStage s x with | .waits | .register _ | .late _ => false | _ => true) && assisted x
  let s1 := { s with colls := s.colls.map fun x => if hit x then { x with parked := true } else x }
  (s.colls.filter hit).foldl (fun t x => x.parts.foldl (fun t p =>
    match p.who with
    | some w =>
      let tid := w.tid.getD 0
      tellHost (onPart t w.part fun q => { q with parked := ⟨tid, c, []⟩ :: q.parked.filter fun i => i.tid != tid }) (.parked w.part tid c)
    | none => t) t) s1

/-- CONTRIBUTOR_PACKAGE_FAILURE: its instances end in every member here, and the members' tasks are returned (R458). -/
def execContributorPackageFailure (rank : Fin 1024) (s : State) : Out :=
  let hit := s.colls.filter fun x => x.ended.isNone && (x.parts.all fun p => p.moved.isNone) && ((rankList s x.group).getD []).any fun r => r.toNat == rank.val
  let one := fun (t : State) (x0 : Coll) =>
    match findColl t x0.dpid x0.group x0.cseq with
    | none => t
    | some x =>
      let seeds := (x.parts.filterMap fun p => p.who.bind fun w => w.gang).eraseDups
      let part := x.parts.findSome? fun p => p.who.map fun w => w.part
      let lost := (List.range (groupSize s x.group)).filter fun i => rankAt s x.group i == rank.val
      contain (report (endColl t { x with came := lost ++ x.came } 0x46) part 5 0x46 (collInfo x rank.val)) seeds 0x46 false
  .next (hit.foldl one s)

/-! ### Links (R442, R443) -/

/-- FLIT_RETRANSMISSION is never visible (R442). -/
def execFlitRetransmission (_ : Fin 128) (s : State) : Out := .next s

/-! ### Requests that arrive (R444, R451) -/

/-- The partition of a DPID. -/
def targetPart (s : State) (dp : W16) : Option (Fin 24) :=
  (List.finRange 24).find? fun p => (s.parts[p]).present && (s.parts[p]).dpid.setWidth 16 == dp

def answerOut (s : State) (x : RemoteAnswer) : State := { s with fabricOut := s.fabricOut ++ [.answer x] }

/-- The domain partition of a request, its address and the bytes that it touches there. -/
def reqDpid (r : RemoteReq) : W16 :=
  match r with
  | .read d _ _ | .write d _ _ | .atom d _ _ _ _ _ | .cas d _ _ _ _ | .counterAdd d _ | .contribute d _ _ _ _ _ _ _ _ _ _ |
    .memberReady d _ _ _ | .abandon d _ _ => d

def reqAddr (r : RemoteReq) : Nat :=
  match r with
  | .read _ a _ | .write _ a _ | .atom _ a _ _ _ _ | .cas _ a _ _ _ | .counterAdd _ a => a.toNat
  | .contribute .. | .memberReady .. | .abandon .. => 0

def reqBytes (r : RemoteReq) : Nat :=
  match r with
  | .read _ _ n => n
  | .write _ _ l => l.length
  | .atom _ _ _ t _ _ => ((tyOf t).map tyBits).getD 32 / 8
  | .cas _ _ n _ _ => n
  | .counterAdd _ _ => 8
  | .contribute .. | .memberReady .. | .abandon .. => 0

def reqReads (r : RemoteReq) : Bool := match r with | .read _ _ _ => true | _ => false

/-- Whether a request is one access, which must be aligned (R236). -/
def reqUnit (r : RemoteReq) : Bool :=
  match r with
  | .atom .. | .cas .. | .counterAdd .. => true
  | _ => false

/-- A number of an atomic's operation (R95). -/
def atomOfCode (n : Nat) : AtomOp :=
  match n with
  | 0 => .add | 1 => .min | 2 => .max | 3 => .and | 4 => .or | 5 => .xor | _ => .xchg

/-- A write that arrives from another package: it depends on nothing (R276, R291). -/
def arriveWrite (s : State) (bytes : List (Nat × W8)) : State :=
  let r := stampUnit s none 0 {} bytes
  { r.1 with arrived := clkRaise r.1.arrived r.2.1 r.2.2 }

/-- A write to the line of a record that an engine owns is dropped, and the channel that owns it counts it (R355). -/
def dropOwned (s : State) (pa n : Nat) : State :=
  let hit := fun (c : Chan) => c.inService.any fun r => decide (r.pa / 128 * 128 < pa + n) && decide (pa < r.pa / 128 * 128 + 128)
  let up := fun (c : Chan) => if hit c then dropUp c else c
  let s1 := onDie (onDie s 0 fun d => { d with chans := d.chans.map up }) 1 fun d => { d with chans := d.chans.map up }
  { s1 with parts := s1.parts.map fun p => { p with cmd := up p.cmd } }

/-- Eight-byte words of bytes. -/
def wordsOf (l : List W8) : List W64 := elemsOf 8 l ((l.length + 7) / 8)

/-- A byte that a read of another package returns: the latest that its home die has applied (R277). -/
def servedByte (s : State) (pa : Nat) : W8 := viewByte s (homeOf pa) 0 pa

/-- A request performed at physical addresses: those of its bytes. The add that follows an operation's data covers what has arrived (R451). -/
def serveAt (s : State) (r : RemoteReq) (pas : List Nat) : State :=
  let pa := pas.headD 0
  let old := leNat (pas.map (memByte s))
  match r with
  | .read _ _ _ => answerOut s (.data (wordsOf (pas.map (servedByte s))))
  | .write _ _ bytes => answerOut (arriveWrite s (pas.zip bytes)) .done
  | .atom _ _ o t sat v =>
    let ty := (tyOf t).getD .i32
    let new := atomApply (atomOfCode o) ty sat old (v.toNat % 2 ^ tyBits ty)
    answerOut (arriveWrite s (keyed pa (leBytes pas.length new))) (.data [BitVec.ofNat 64 old])
  | .cas _ _ n x y =>
    let s1 := if old = x.toNat % 2 ^ (8 * n) then arriveWrite s (keyed pa (leBytes n y.toNat)) else s
    answerOut s1 (.data [BitVec.ofNat 64 old])
  | .counterAdd _ _ => answerOut (counterBump s pa 1 false s.arrived) .done
  | .contribute .. | .memberReady .. | .abandon .. => s

/-- A request to memory: translated in the target's partition, then performed. -/
def serveMemory (s : State) (p : Fin 24) (r : RemoteReq) : State :=
  let a := reqAddr r
  let n := reqBytes r
  let fail := fun (t : State) (c : Cause) => answerOut t (.failed c.toNat)
  if a / 2 ^ 44 % 256 = 255 ∨ n = 0 then fail s 0x1C
  else if reqUnit r && a % n != 0 then fail s 0x18
  else
    match transPages (partCore s p) none p a (if reqReads r then .read else .write) (pagesOf a n) s with
    | (.fail c _, t) => fail t c
    | (.held, t) => fail t 0x20
    | (.ok l, t) =>
      let pas := (List.range n).map fun i => paThrough l (a + i)
      if !reqReads r && pas.any fun pa => overlapsOwned t pa 1 then fail (dropOwned t (pas.headD 0) n) 0x3C
      else if (match r with | .write _ _ _ => false | _ => lostRead t p none pas) then fail t 0x4D
      else serveAt t r pas

/-- The versioned members here of an instance that has not ended, with their indexes (R457). -/
def versionedHere (s : State) (dpid group cseq : Nat) : List (TaskKey × Nat) :=
  ((s.colls.filter fun x => x.dpid == dpid && x.group == group && x.cseq == cseq && x.ended.isNone).flatMap fun x =>
    x.parts.filterMap fun p => if p.ver then p.who.bind fun w => w.tid.map fun t => ((⟨w.part, t⟩ : TaskKey), p.index) else none).eraseDups

/-- The gangs here whose uncommitted tasks are versioned members of an instance, before its end and after (R457). -/
def memberGangs (s : State) (dpid group cseq : Nat) : List GangKey :=
  let keys := (versionedHere s dpid group cseq).map (fun x => x.1) ++
    (s.farMembers.filter fun m => m.dpid == dpid && m.group == group && m.cseq == cseq).map fun m => m.task
  ((s.tasks.filter fun t => keys.contains (taskKey t) && !t.committed).map fun t => t.gang).eraseDups

/-- A member's containment in another package abandons the instance here (R457): its contributions of versioned members go, and the members' gangs are contained as observers (R429). -/
def abandonHere (s : State) (dpid group cseq : Nat) : State :=
  let same := fun (x : Coll) => x.dpid == dpid && x.group == group && x.cseq == cseq
  let drop := fun (x : Coll) => if same x && x.parts.all fun p => p.moved.isNone then { x with parts := x.parts.filter fun p => !p.ver } else x
  let gangs := memberGangs s dpid group cseq
  let s1 := { s with colls := (s.colls.map drop).filter fun x => !x.parts.isEmpty || x.ended.isSome }
  contain { s1 with farMembers := s1.farMembers.filter fun m => !(m.dpid == dpid && m.group == group && m.cseq == cseq) } gangs 0x4C true

/-- A request performed. -/
def serveRequest (s : State) (r : RemoteReq) : State :=
  match r with
  | .contribute dp group cseq index op type sat b root values ver =>
    let d : CollDesc := ⟨op, type, sat, b, group, cseq, values.length, index, root, 0, 0, 0, false⟩
    let v := if values.isEmpty then none else some values
    let s1 := if ver then addFar s (versionedHere s dp.toNat group cseq) dp.toNat group cseq index else s
    joinColl s1 dp.toNat group cseq 0 ⟨index, collPar d, values.length, root, v, 0, 0, none, 0, 0, none, ver⟩
  | .memberReady dp group cseq index =>
    { s with farMembers := s.farMembers.map fun m =>
        if m.dpid = dp.toNat ∧ m.group = group ∧ m.cseq = cseq ∧ m.index = index then { m with ready := true } else m }
  | .abandon dp group cseq => abandonHere s dp.toNat group cseq
  | _ =>
    match targetPart s (reqDpid r) with
    | none => answerOut s (.failed 0x20)
    | some p => serveMemory s p r

/-- The answer that has just gone out. -/
def lastAnswer (s : State) : RemoteAnswer := match s.fabricOut.getLast? with | some (.answer x) => x | _ => .done

/-- REMOTE_REQUEST: a request of another package, with its answer (log entry 14). A write or an add that has come before, by its source and tag, is performed once; a duplicate gets the answer again (R443). -/
def execRemoteRequest (x : TaggedReq) (s : State) : Out :=
  if reqReads x.req then .next (serveRequest s x.req)
  else
    match s.served.find? fun e => e.1 == x.src && e.2.1 == x.tag with
    | some e => .next (match x.req with | .contribute .. | .memberReady .. | .abandon .. => s | _ => answerOut s e.2.2)
    | none =>
      let t := serveRequest s x.req
      .next { t with served := (x.src, x.tag, lastAnswer t) :: t.served }

/-! ### Answers (R445, R451, R452) -/

/-- The oldest remote store in flight is acknowledged. -/
def ackFlight : List Flight → List Flight
  | [] => []
  | f :: l => if f.remote && f.path == .store then { f with remote := false } :: l else f :: ackFlight l

/-- The first request without an answer gets one. -/
def fillAsk (x : RemoteAnswer) : List (Option RemoteAnswer) → List (Option RemoteAnswer)
  | [] => []
  | none :: l => some x :: l
  | some y :: l => some y :: fillAsk x l

/-- A write of a wave, or a read that a trap has left behind: it goes with its last answer, a write then acknowledged (R268, R281). -/
def settleWait1 (w : Wave) (e e1 : RemoteWait) : Wave :=
  if e1.blocking || e1.asks.any fun x => x.isNone then { w with remoteOut := w.remoteOut.map fun y => if y = e then e1 else y }
  else
    { w with
      remoteOut := w.remoteOut.erase e
      flights := if e1.addrs.isEmpty then w.flights else ackFlight w.flights }

/-- One answer taken by an access of a wave: a first failure of a write is recorded (R445). -/
def takeAnswer (w : Wave) (e : RemoteWait) (x : RemoteAnswer) : Wave :=
  let a := ((e.addrs[(e.asks.takeWhile fun y => y.isSome).length]?).map fun y => y.2).getD 0
  let w1 := if e.blocking || e.addrs.isEmpty then w
    else { w with remoteErr := w.remoteErr.or ((answerFault x).map fun f => ⟨a, f.1, f.2⟩) }
  settleWait1 w1 e { e with asks := fillAsk x e.asks }

/-- Whether an answer brings data, which only a read waits for. -/
def answersData (x : RemoteAnswer) : Bool := match x with | .data _ => true | _ => false

/-- The answer taken by a wave: data go to its oldest read, other answers to its oldest access, that waits for one. -/
def waveAnswer (w : Wave) (x : RemoteAnswer) : Wave :=
  match w.remoteOut.find? fun e => (e.asks.any fun y => y.isNone) && (!answersData x || e.blocking || e.addrs.isEmpty) with
  | none => w
  | some e => takeAnswer w e x

/-- The cycles within which a request must be answered (R444). -/
def answerCycles : Nat := 33000000

def overdue (now since : W64) : Bool := decide (answerCycles ≤ (now - since).toNat)

/-- Whether an access of a wave has waited too long for an answer. -/
def waitOverdue (s : State) (w : Wave) (e : RemoteWait) : Bool := (e.asks.any fun y => y.isNone) && overdue s.dies[waveDie w].clock e.since

/-- Every request of an access that has no answer ends with REMOTE_TIMEOUT (R444). -/
def lateAll (w : Wave) (e : RemoteWait) : Wave :=
  let i := (e.asks.zipIdx.find? fun y => y.1.isNone).map fun y => y.2
  let a := ((i.bind fun i => e.addrs[i]?).map fun y => y.2).getD 0
  let w1 := if e.blocking || e.addrs.isEmpty then w else { w with remoteErr := w.remoteErr.or (some ⟨a, 0x42, 0⟩) }
  settleWait1 w1 e { e with asks := e.asks.map fun y => y.or (some .late) }

/-- A committed task's operation has failed at its target: it cannot be returned (R445). -/
def lateFailure (s : State) (t : Task) (x : RemoteAnswer) (rank : Nat) (d : Fin 2) : State :=
  match answerFault x with
  | none => s
  | some f =>
    report (markErr s t.gang.launch) (some t.part) 5 f.1 (fabricInfo rank 0 d.val 0 f.2.toNat (t.tid.toNat % 2 ^ 32))

/-- The die of a wave's token. -/
def tokenDie (token : W32) : Fin 2 := if token.getLsbD 30 then 1 else 0

/-- The answer to a request that a committed task sent. -/
def taskAnswer (s : State) (token : W32) (x : RemoteAnswer) : State :=
  match s.tasks.findSome? fun t => if t.committed then (t.acks.find? fun a => a.1 == token).map fun a => (t, a) else none with
  | none => s
  | some (t, a) => lateFailure (onTask s t.tid t.part fun y => { y with acks := y.acks.erase a }) t x a.2 (tokenDie token)

/-- The failure of a PUTS or RADD at its target goes to the remote-error record of its wave (R445). -/
def putFailure (s : State) (o : CopyOp) (x : RemoteAnswer) : State :=
  let a := match x with
    | .copied (r :: _) _ => (dstRows o (shapeOf o.shape) r.1).headD o.dst
    | _ => o.dst
  if isPut o.kind && o.forTask.isNone then
    onToken s o.who.token fun w => { w with remoteErr := w.remoteErr.or ((answerFault x).map fun f => ⟨a, f.1, f.2⟩) }
  else s

/-- The rank that an operation's answer comes from: its destination's, or that of the first item it asks for. -/
def copyRank (s : State) (o : CopyOp) : Nat :=
  if dstRemote s o then rankOf o.dst else (((askItems s o).head?).map fun e => rankOf e.2.1).getD 0

/-- The failure of an operation other than PUTS and RADD is an asynchronous result that the device handler gets (R416, R459). -/
def reportCopy (s : State) (o : CopyOp) (x : RemoteAnswer) : State :=
  match answerFault x with
  | some f =>
    if isPut o.kind || o.forTask.isSome then s
    else report s (some o.who.part) 5 f.1
      (fabricInfo (copyRank s o) 0 (coreDie o.who.core).val 0 f.2.toNat ((o.who.tid.getD 0).toNat % 2 ^ 32))
  | none => s

/-- The answer to an operation of a cluster. -/
def copyAnswer (s : State) (cl : Fin 24) (o : CopyOp) (x : RemoteAnswer) : State :=
  let r := answerCopy (reportCopy s o x) o x
  let s1 := putFailure (replaceCopy r.2 (clusterDie cl) o (some r.1)) o x
  match o.forTask.bind fun t => findTask s1 t o.who.part with
  | some t => lateFailure s1 t x (copyRank s o) (coreDie o.who.core)
  | none => s1

/-- The answer to the first operation of a cluster that waits for one and meets a condition. -/
def clusterAnswer (s : State) (cl : Fin 24) (x : RemoteAnswer) (f : CopyOp → Bool) : State :=
  match s.dies[clusterDie cl].copyRun.find? fun o => onCluster cl o && o.sent && f o with
  | none => s
  | some o => copyAnswer s cl o x

/-- The answer to a channel's record. -/
def channelAnswer (s : State) (d : Fin 2) (ch : Fin 96) (x : RemoteAnswer) (f : CopyOp → Bool) : State :=
  match ((s.dies[d].chans[ch]).inService).bind fun r => r.op with
  | none => s
  | some o =>
    if !o.sent || !f o then s
    else
      let r := answerCopy (reportCopy s o x) o x
      onRecord r.2 d ch fun y => { y with op := some r.1 }

/-- An answer delivered to the agent of a token (R387). -/
def deliverAnswer (s : State) (token : W32) (x : RemoteAnswer) : State :=
  let d := tokenDie token
  let i := token.toNat % 2 ^ 24
  if token.getLsbD 31 then
    match bitsOf token.toNat 29 24 with
    | 0 => channelAnswer s d (Fin.ofNat 96 i) x fun _ => true
    | 1 => clusterAnswer s (Fin.ofNat 24 (12 * d.val + i)) x fun _ => true
    | _ => s
  else if (findWave s token).isSome then onToken s token fun w => waveAnswer w x
  else taskAnswer s token x

/-- REMOTE_RESPONSE (R445): `late` is no answer of another package. -/
def execRemoteResponse (token : W32) (x : RemoteAnswer) (s : State) : Out := .next (if x = .late then s else deliverAnswer s token x)

/-- Whether an operation has waited too long for its answer. -/
def opOverdue (s : State) (o : CopyOp) : Bool := o.sent && overdue s.dies[coreDie o.who.core].clock o.since

def taskOverdue (s : State) (t : Task) : Bool := t.committed && !t.acks.isEmpty && overdue s.dies[(0 : Fin 2)].clock t.sentAt

/-- Requests of an agent that have had no answer for 33,000,000 cycles end with REMOTE_TIMEOUT (R444). -/
def timeOut (s : State) (token : W32) : State :=
  let d := tokenDie token
  let i := token.toNat % 2 ^ 24
  if token.getLsbD 31 then
    match bitsOf token.toNat 29 24 with
    | 0 => channelAnswer s d (Fin.ofNat 96 i) .late (opOverdue s)
    | 1 => clusterAnswer s (Fin.ofNat 24 (12 * d.val + i)) .late (opOverdue s)
    | _ => s
  else
    match findWave s token with
    | some w => onToken s token fun x => ((w.remoteOut.filter (waitOverdue s w)).foldl lateAll x)
    | none =>
      match s.tasks.find? fun t => taskOverdue s t && t.acks.any fun a => a.1 == token with
      | some t => (t.acks.filter fun a => a.1 == token).foldl (fun u a => taskAnswer u a.1 .late) s
      | none => s

/-- REMOTE_TIMEOUT (R444). -/
def execRemoteTimeout (token : W32) (s : State) : Out := .next (timeOut s token)

/-- The next request that has waited too long, if any, by the token of its agent. -/
def timeoutEvent (s : State) : Option Instr :=
  let waves := (liveWaves s).find? fun w => w.remoteOut.any (waitOverdue s w)
  let copies := fun (d : Fin 2) => (s.dies[d].copyRun.find? (opOverdue s)).map fun o => engToken d 1 (o.who.core.val % 96 / 8)
  let chans := fun (d : Fin 2) =>
    if s.dies[d].chans.toList.all fun c => c.inService.isNone then none
    else ((List.finRange 96).find? fun ch => ((s.dies[d].chans[ch]).inService.bind fun r => r.op).any (opOverdue s)).map fun ch => engToken d 0 ch.val
  let tasks := (s.tasks.find? (taskOverdue s)).bind fun t => t.acks.head?.map fun a => a.1
  ((waves.map fun w => w.ids.token).or ((copies 0).or ((copies 1).or ((chans 0).or ((chans 1).or tasks))))).map fun t => .remoteTimeout t

end Sys2Proof.Machine
end

