-- ==== Sys2Proof/Machine/Matrix.lean ====
section
/-!
DEFINITION. The matrix engine: its instructions, the acceptance and the running of its commands, the K-step (R295 to R312).
-/

namespace Sys2Proof.Machine

/-! ### Issue (R296) -/

/-- A command is issued: it waits in the issue buffer with IFEN raised. -/
def mxIssue (s : State) (x : MxCmd) : State :=
  if !flightRoom s .engine then stall s
  else
    let t := onCore s s.wave.ids.core fun c => { c with mxWait := c.mxWait ++ [⟨x, issuerOf s, false⟩] }
    retireWave (onWave t fun w => raiseFlight w .engine false) 4

/-- MXPLAN (R302). -/
def execMxplan (p : HReg) (a : KReg) (s : State) : Out :=
  let v := s.wave.regs.k[a]
  .next (if planOk v then onRegs s fun r => { retire r 4 with h := r.h.set p.val v } else trapWave s 0x38)

/-- MXZERO (R303). -/
def execMxzero (t : TileReg) (f : TileFill) (s : State) : Out := .next (mxIssue s (.zero t f))

/-! ### MXSTEP, MXLOOP (R304 to R306) -/

/-- How the issue checks of a step end. -/
inductive StepCheck where
  | ok (pages : List (Nat × Nat))
  | fail (c : Cause) (addr : Nat) (which step : Nat)
  | held
  deriving DecidableEq, Repr

/-- The check of one operand range (R304). -/
def operandCheck (s : State) (a n which step : Nat) : StepCheck × State :=
  let w := windowOf s a
  let e := windowOf s ((a + n - 1) % 2 ^ 64)
  if w == .bad || e == .bad then (.fail 0x19 a which step, s)
  else
    match w, e with
    | .aperture slot off, .aperture _ _ =>
      if (apertureAt s s.wave.ids.gang slot off n).isNone then (.fail 0x1A a which step, s)
      else if a % 128 ≠ 0 then (.fail 0x18 a which step, s)
      else (.ok [], s)
    | .l2direct va, .l2direct _ =>
      if a % 128 ≠ 0 then (.fail 0x18 a which step, s)
      else
        match transPages s.wave.ids.core (some s.wave.ids.gang) s.wave.ids.part va .read (pagesOf va n) s with
        | (.ok l, t) => (.ok l, t)
        | (.fail c x, t) => (.fail c (2 ^ 54 + x) which step, t)
        | (.held, t) => (.held, t)
    | _, _ => (.fail 0x1C a which step, s)

/-- The completion address of a step of a ring (R306). -/
def ringCompl (s : State) (c : W64) (i : Nat) : W64 :=
  match windowOf s c.toNat with
  | .aperture _ _ => c + BitVec.ofNat 64 (16 * i)
  | _ => c

/-- The bases of stage i of a ring. -/
def stageBase (a : W64) (n i : Nat) : W64 := a + BitVec.ofNat 64 (i * n)

/-- The checks of the stages of a ring, in ascending order, A before B before the completion address. -/
def ringChecks (p : Plan) (a b : W64) (compl : Option W64) : List Nat → List (Nat × Nat) → State → StepCheck × State
  | [], pages, s => (.ok pages, s)
  | i :: rest, pages, s =>
    let oa := operandBytes p.fa
    let ob := operandBytes p.fb
    match operandCheck s (stageBase a oa i).toNat oa 0 i with
    | (.ok la, t) =>
      match operandCheck t (stageBase b ob i).toNat ob 1 i with
      | (.ok lb, u) =>
        match compl.bind fun c => (completionCheck u u.wave.ids.gang (ringCompl u c i).toNat).map fun x => (x, ringCompl u c i) with
        | some (x, c) => (.fail x c.toNat 2 i, u)
        | none => ringChecks p a b compl rest (pages ++ la ++ lb) u
      | r => r
    | r => r

/-- The record of a failing check (R304). -/
def trapStep (s : State) (c : Cause) (addr which step : Nat) : State :=
  if step = 0 then trapValue s c (BitVec.ofNat 64 addr) (BitVec.ofNat 8 which)
  else trapValue s c (BitVec.ofNat 64 (addr % 2 ^ 56 + step * 2 ^ 56)) (BitVec.ofNat 8 (which + 128))

/-- The issue of CNT steps over a ring of NST stages. -/
def mxSteps (s : State) (t : TileReg) (p : HReg) (a : KReg) (sig : Bool) (cnt nst : Nat) : State :=
  let r := s.wave.regs
  let plan := r.h[p]
  let ka := r.k[a]
  let kb := r.k[(a + 1 : Fin 32)]
  let compl := if sig then some r.k[(a + 2 : Fin 32)] else none
  if !planOk plan then trapWave s 0x38
  else
    match ringChecks (planOf plan) ka kb compl (List.range (min cnt nst)) [] s with
    | (.fail c addr which step, u) => trapStep u c addr which step
    | (.held, u) => holdWave u 0x20
    | (.ok pages, u) => if cnt = 0 then retireWave u 4 else mxIssue u (.steps t plan ka kb compl pages.eraseDups cnt nst 0)

/-- MXSTEP (R304). -/
def execMxstep (t : TileReg) (p : HReg) (a : KReg) (sig : Bool) (s : State) : Out := .next (mxSteps s t p a sig 1 1)

/-- MXLOOP (R306). -/
def execMxloop (t : TileReg) (p : HReg) (a l : KReg) (sig : Bool) (s : State) : Out :=
  let x := s.wave.regs.k[l].toNat
  let nst := bitsOf x 23 16
  .next (mxSteps s t p a sig (bitsOf x 15 0) (if nst = 0 then 256 else nst))

/-! ### MXRD, MXWR (R307, R308) -/

/-- The tile and the element that a selector names. -/
def selTile (x : W64) : TileReg := Fin.ofNat 4 (x.toNat / 4096)
def selElem (x : W64) : Nat := x.toNat % 4096

/-- The tiles that a command acts on. -/
def cmdTiles (x : MxCmd) : List TileReg :=
  match x with
  | .zero t _ => [t]
  | .steps t _ _ _ _ _ _ _ _ => [t]
  | .write l => l.map fun e => e.1
  | _ => []

/-- The commands of the issuing wave's group that have not completed. -/
def groupCmds (s : State) : List MxCmd :=
  let c := s.cores[s.wave.ids.core]
  ((c.mxQueue ++ c.mxWait).filter fun e => e.who.gang == some s.wave.ids.gang && e.who.group == s.wave.ids.group).map
    fun e => e.cmd

/-- A logical tile is bound to a physical tile of its core; one of another group gives way (R242). -/
def bindTile (s : State) (c : Fin 192) (k : GangKey) (i : Fin 8) (t : TileReg) : State :=
  let fit := fun (l : List (GangKey × Fin 8 × TileReg)) =>
    if l.length ≤ 4 then l
    else
      match l.reverse.find? fun b => !(b.1 == k && b.2.1 == i) with
      | some b => l.erase b
      | none => l.take 4
  onCore s c fun x => { x with bound := fit ((k, i, t) :: x.bound.filter fun b => b != (k, i, t)) }

/-- MXRD (R307). -/
def execMxrd (d : Dst) (a : Src) (h : Hold) (s : State) : Out :=
  checkedState s [.src a false, .dst d false] true fun s =>
    let r := s.wave.regs
    let x := srcLanes r s.wave.ids.wave.val a false
    let named := (laneList.filter fun l => (activeMask r).getLsbD l.val).map fun l => selTile x[l]
    if (groupCmds s).any fun y => (cmdTiles y).any named.contains then stall s
    else
      match myGroup s with
      | none => stall s
      | some g =>
        let v : Lanes W64 := Lanes.of fun l => (cellGet (0 : W32) g.tiles[selTile x[l]] (selElem x[l])).setWidth 64
        let t := named.eraseDups.foldl (fun t y => bindTile t s.wave.ids.core s.wave.ids.gang s.wave.ids.group y) s
        onRegs t fun r => laneFinish r 4 d h ⟨x, false, v, false⟩ v false

/-- MXWR (R308). -/
def execMxwr (a b : Src) (s : State) : Out :=
  checkedState s [.src a false, .src b false] true fun s =>
    let r := s.wave.regs
    let x := srcLanes r s.wave.ids.wave.val a false
    let y := srcLanes r s.wave.ids.wave.val b false
    mxIssue s (.write ((laneList.filter fun l => (activeMask r).getLsbD l.val).map fun l =>
      (selTile x[l], selElem x[l], lo32 y[l])))

/-! ### Monitor slots (R309, R310) -/

/-- A counter of a slot; 6 and 7 read as zero. -/
def monCounter (g : Group) (x : W64) : W32 :=
  let c := x.toNat / 8 % 8
  let slot := g.mons[(Fin.ofNat 8 x.toNat : Fin 8)]
  if h : c < 6 then slot[(⟨c, h⟩ : Fin 6)] else 0

/-- MONRD (R309). -/
def execMonrd (d : Dst) (a : Src) (h : Hold) (s : State) : Out :=
  checkedState s [.src a false, .dst d false] true fun s =>
    if !(groupCmds s).isEmpty then stall s
    else
      match myGroup s with
      | none => stall s
      | some g =>
        let x := srcLanes s.wave.regs s.wave.ids.wave.val a false
        let v : Lanes W64 := Lanes.of fun l => (monCounter g x[l]).setWidth 64
        onRegs s fun r => laneFinish r 4 d h ⟨x, false, v, false⟩ v false

/-- MONCLR (R309). -/
def execMonclr (mask : W8) (s : State) : Out := .next (mxIssue s (.monclr mask))

/-- How the checks of MXMON's range end: the physical addresses of its three units. -/
inductive MonCheck where
  | ok (pas : List Nat)
  | fail (c : Cause) (addr : Nat)
  | held
  deriving DecidableEq, Repr

/-- The checks of MXMON's 24 bytes (R255, R310). -/
def monCheck (s : State) (a : Nat) : MonCheck × State :=
  match rangeWindow s a 24 with
  | .error c => (.fail (if c = 0x45 then 0x1C else c) a, s)
  | .ok (.aperture slot off) =>
    match apertureAt s s.wave.ids.gang slot off 24 with
    | none => (.fail 0x1A a, s)
    | some g =>
      if a % 8 ≠ 0 then (.fail 0x18 a, s)
      else if overlapsBar g off 24 then (.fail 0x2C a, s)
      else (.ok [], s)
  | .ok (.global va) =>
    if a % 8 ≠ 0 then (.fail 0x18 a, s)
    else
      match transPages s.wave.ids.core (some s.wave.ids.gang) s.wave.ids.part va .write (pagesOf va 24) s with
      | (.fail c x, t) => (.fail c x, t)
      | (.held, t) => (.held, t)
      | (.ok l, t) =>
        let pas := [0, 8, 16].map fun i => paThrough l (va + i)
        if pas.any fun pa => overlapsOwned t pa 8 then (.fail 0x3C a, t) else (.ok pas, t)
  | .ok _ => (.fail 0x1C a, s)

/-- MXMON (R310). -/
def execMxmon (slot : Fin 8) (a : KReg) (sig : Bool) (s : State) : Out :=
  let addr := s.wave.regs.k[a]
  let compl := if sig then some s.wave.regs.k[(a + 1 : Fin 32)] else none
  match monCheck s addr.toNat with
  | (.fail c x, t) => .next (trapValue t c (BitVec.ofNat 64 x) 0)
  | (.held, t) => .next (holdWave t 0x20)
  | (.ok pas, t) =>
    match compl.bind fun c => (completionCheck t t.wave.ids.gang c.toNat).map fun x => (x, c) with
    | some (x, c) => .next (trapValue t x c 2)
    | none => .next (mxIssue t (.mon slot addr pas compl))

/-! ### Acceptance (R296) -/

/-- The agent of a core's matrix engine (R387). -/
def matrixAgent (c : Fin 192) : W32 := engToken (coreDie c) 2 (coreNum c)

/-- Where the table has room for the links of a command's completion objects (R399). -/
def mxRoom (s : State) (c : Fin 192) (e : MxEntry) : Room :=
  let keys := (cmdCompls s e.cmd).flatMap (keysAt s e.who none)
  if keys.isEmpty then .onDie else engineRoom s e.who (coreDie c) keys

/-- Whether the core's first waiting command can leave its issue buffer, by acceptance or for a message to the host. -/
def mxAccepts (s : State) (c : Fin 192) (x : Core) : Bool :=
  match x.mxWait with
  | [] => false
  | e :: _ => decide (x.mxQueue.length < 16) && mxRoom s c e != .full && !engineStopped s e.who.part (matrixAgent c)

/-- MATRIX_COMMAND_ACCEPT: the first waiting command enters the queue, and IFEN falls unless it fell before an eviction (R296, R311). -/
def execMatrixCommandAccept (core : Fin 192) (s : State) : Out :=
  match s.cores[core].mxWait with
  | [] => .next s
  | e :: rest =>
    if !mxAccepts s core s.cores[core] then .next s
    else if mxRoom s core e = .host then .next (stopEngine s e.who (matrixAgent core))
    else
      let t := onCore s core fun c => { c with mxWait := rest, mxQueue := c.mxQueue ++ [e] }
      .next (settleObjs (if e.again then t else onToken t e.who.token fun w => lowerFlight w .engine))

/-! ### The K-step (R304) -/

/-- The places of an operand's bytes. -/
inductive OpPlace where
  | spad (g : Group) (off : Nat)
  | mem (va : Nat)
  | gone

def operandPlace (s : State) (who : Issuer) (a : W64) : OpPlace :=
  match windowOf s a.toNat, who.gang with
  | .l2direct va, _ => .mem va
  | .aperture slot off, some k =>
    (match findGroup s k slot with
      | some g => .spad g off
      | none => .gone)
  | _, _ => .gone

/-- An operand image. -/
def operandImage (s : State) (who : Issuer) (pages : List (Nat × Nat)) (a : W64) (n : Nat) : List W8 :=
  match operandPlace s who a with
  | .spad g off => spadBytes g off n
  | .mem va => (List.range n).map fun i => opByte s who (paThrough pages (va + i))
  | .gone => List.replicate n 0

/-- Whether the read of an image must wait (R279). -/
def operandBlocked (s : State) (who : Issuer) (pages : List (Nat × Nat)) (a : W64) (n : Nat) : Bool :=
  match operandPlace s who a with
  | .mem va => (List.range n).any fun i => opBlocked s who (paThrough pages (va + i))
  | _ => false

/-- Whether data of an image are lost. -/
def operandLost (s : State) (who : Issuer) (pages : List (Nat × Nat)) (a : W64) (n : Nat) : Bool :=
  match operandPlace s who a with
  | .mem va => lostRead s who.part who.gang ((List.range n).map fun i => paThrough pages (va + i))
  | _ => false

/-- What the read of an image adds to the operation's clock (R276). -/
def operandClk (s : State) (who : Issuer) (pages : List (Nat × Nat)) (a : W64) (n : Nat) (v : Clk) : Clk :=
  match operandPlace s who a with
  | .spad g off => spadClkAt g off n v
  | .mem va => (List.range n).foldl (fun v i => opClk s who (paThrough pages (va + i)) v) v
  | .gone => v

/-- The bytes that a step reads through the shared port (R299). -/
def portBytes (s : State) (who : Issuer) (a : W64) (n : Nat) : Nat :=
  match operandPlace s who a with
  | .spad g _ => if g.index = who.group then 0 else n
  | .mem _ => n
  | .gone => 0

/-- The operands of the step at the head of a queue, with the bytes that it reads of each. -/
structure StepOps where
  a : W64
  na : Nat
  b : W64
  nb : Nat
  deriving DecidableEq, Repr

/-- The bytes that a step reads of an image: of an E2M1 one its elements, its block scales, and its outer scales where they act (R298). -/
def operandReads (fmt : Nat) (outer : Bool) : Nat := if fmt = 2 then 26112 + if outer then 64 else 0 else 24576

def stepOps (plan a b : W64) (nst done : Nat) : StepOps :=
  let p := planOf plan
  let i := done % nst
  ⟨stageBase a (operandBytes p.fa) i, operandReads p.fa p.osa, stageBase b (operandBytes p.fb) i, operandReads p.fb p.osb⟩

/-- The lines of global memory that an image takes in, through the L2-direct window. -/
def operandLines (s : State) (who : Issuer) (pages : List (Nat × Nat)) (a : W64) (n : Nat) : List Nat :=
  match operandPlace s who a with
  | .mem va => (List.range ((n + 127) / 128)).map fun i => paThrough pages (va + 128 * i) / 128
  | _ => []

/-- The lines that the step at the head of a queue reads through the L2. -/
def stepLines (s : State) (x : Core) : List Nat :=
  match x.mxQueue with
  | ⟨.steps _ plan a b _ pages _ nst done, who, _⟩ :: _ =>
    let o := stepOps plan a b nst done
    operandLines s who pages o.a o.na ++ operandLines s who pages o.b o.nb
  | _ => []

/-- A line pinned for a core's tile fetch; where its set is at the limit it is read without a pin (R247, R300). -/
def pinTile (core : Fin 192) (s : State) (line : Nat) : State :=
  let d := coreDie core
  if s.dies[d].tilePins.contains (core, line) || pinOver s d [line] then s
  else onDie s d fun x => { x with tilePins := (core, line) :: x.tilePins }

/-- The tile fetch unit requests the operands of the step at the head of a core's queue: it pins their lines (R300). -/
def fetchTiles (s : State) (core : Fin 192) : State := (stepLines s s.cores[core]).foldl (pinTile core) s

/-- Whether the step at the head of a core's queue can read its operands (R279, R284). -/
def stepReady (s : State) (x : Core) : Bool :=
  match x.mxQueue with
  | ⟨.steps _ plan a b _ pages _ nst done, who, _⟩ :: _ =>
    let o := stepOps plan a b nst done
    forkReady s who && !operandBlocked s who pages o.a o.na && !operandBlocked s who pages o.b o.nb
  | _ => false

/-- The group's tile and monitor slot after a step. -/
def foldStep (plan : W64) (t : TileReg) (imgA imgB : List W8) (g : Group) : Group :=
  let p := planOf plan
  let r := kStepTile plan g.tiles[t] imgA imgB
  { g with
    tiles := g.tiles.set t.val r.1
    mons := if p.men then g.mons.set p.mslot.val (addCounts g.mons[p.mslot] r.2) else g.mons }

/-- K_STEP: the step at the head of the core's queue; it reads through the L2 of its die under its pins (R299, R300, R304, R306). -/
def execKStep (core : Fin 192) (s : State) : Out :=
  match s.cores[core].mxQueue with
  | ⟨.steps t plan a b compl pages cnt nst done, who, again⟩ :: rest =>
    if !stepReady s s.cores[core] then .next s
    else
      let o := stepOps plan a b nst done
      if operandLost s who pages o.a o.na || operandLost s who pages o.b o.nb then
        .next (dataLost (unpinTiles s core) who.part who.gang.toList (physAddr s who.part o.a.toNat))
      else
      let imgA := operandImage s who pages o.a o.na
      let imgB := operandImage s who pages o.b o.nb
      let v := operandClk s who pages o.b o.nb (operandClk s who pages o.a o.na who.clk)
      let k := who.gang.getD ⟨0, 0⟩
      let port := (portBytes s who o.a o.na + portBytes s who o.b o.nb + 255) / 256
      let left := if done + 1 < cnt then ⟨.steps t plan a b compl pages cnt nst (done + 1), who, again⟩ :: rest else rest
      let s0 := unpinTiles (useLines (fetchTiles s core) core who.gang (coreDie core) (stepLines s s.cores[core])) core
      let s1 := bindTile (onCore s0 core fun c => { c with mxQueue := left }) core k who.group t
      let s2 := onGroup s1 k who.group (foldStep plan t imgA imgB)
      let s3 := countEvent (countEvent s2 core who.gang 11 1) core who.gang 12 (port - 96 + Config.elapsed s.free)
      match compl with
      | none => .next s3
      | some c => .next (settleObjs (completeAt s3 who none (ringCompl s3 c (done % nst)) 0 false v))
  | _ => .next s

/-! ### Other commands (R303, R308 to R310) -/

/-- The cells of a filled tile. -/
def fillCells (f : TileFill) : List (Nat × W32) :=
  match f with
  | .zero => []
  | .pinf => (List.range 4096).map fun i => (i, 0x7F800000)
  | .ninf => (List.range 4096).map fun i => (i, 0xFF800000)

/-- The six counters of a slot as 24 bytes. -/
def monBytes (g : Group) (slot : Fin 8) : List W8 := g.mons[slot].toList.flatMap fun x => leBytes 4 x.toNat

/-- The stamps of a wave's MXMON join its clock, and its operations that are still to come follow the write (R265, R276, R284, R310). -/
def monDone (s : State) (who : Issuer) (w : List (Fin 2 × Nat)) : State :=
  let f := fun (i : Issuer) => if i.token = who.token then { i with clk := coverWrites i.clk w, writes := i.writes ++ w } else i
  let mx := fun (e : MxEntry) => { e with who := f e.who }
  let cp := fun (o : CopyOp) => { o with who := f o.who }
  let s1 := onToken s who.token fun x => { x with clk := coverWrites x.clk w }
  let s2 := onCore s1 who.core fun c => { c with mxWait := c.mxWait.map mx, mxQueue := c.mxQueue.map mx }
  onDie s2 (coreDie who.core) fun d => { d with copyWait := d.copyWait.map cp, copyRun := d.copyRun.map cp }

/-- MXMON's write: a store of the issuing wave (R310). -/
def monUnit (s : State) (who : Issuer) (pa : Nat) (bytes : List W8) : OpWrite :=
  let l := (keyed pa bytes).filter fun b => !overlapsOwned s b.1 1
  if issuerVersioned s who then opStore s who pa bytes who.clk
  else
    let r := stampUnit (if l = [] then s else useL2 s who.core who.gang (homeOf pa) (pa / 128) none) (some who.core) who.token who.clk l
    .done r.1 (if l = [] then [] else [r.2])

/-- The units of MXMON's write in order. -/
def monUnits (who : Issuer) : List (Nat × List W8) → List (Fin 2 × Nat) → State → OpWrite
  | [], w, s => .done s w
  | (pa, bytes) :: rest, w, s =>
    match monUnit s who pa bytes with
    | .full => .full
    | .done t l => monUnits { who with clk := coverWrites who.clk l } rest (w ++ l) t

/-- What MXMON leaves at the head of the queue. -/
def monRest (compl : Option W64) (writes : List (Fin 2 × Nat)) (err : Bool) (who : Issuer) : List MxEntry :=
  match compl with
  | some c => [⟨.signal c writes err, who, false⟩]
  | none => []

/-- MXMON at the head of the queue (R310). -/
def runMon (s : State) (core : Fin 192) (slot : Fin 8) (addr : W64) (pas : List Nat) (compl : Option W64) (who : Issuer)
    (rest : List MxEntry) : State :=
  let k := who.gang.getD ⟨0, 0⟩
  match findGroup s k who.group.val with
  | none => onCore s core fun c => { c with mxQueue := monRest compl [] false who ++ rest }
  | some g =>
    let bytes := monBytes g slot
    match operandPlace s who addr with
    | .spad h off =>
      let t := opSpad s k h off bytes who.clk
      onCore t core fun c => { c with mxQueue := monRest compl [] (overlapsBar h off 24) who ++ rest }
    | _ =>
      match monUnits who (pas.mapIdx fun i pa => (pa, (bytes.drop (8 * i)).take 8)) [] s with
      | .full => versionFullFor s who.part (who.tid.getD 0) k
      | .done t w =>
        let err := pas.any fun pa => overlapsOwned s pa 8
        monDone (onCore t core fun c => { c with mxQueue := monRest compl w err who ++ rest }) who w

/-- Whether the command at the head of a core's queue, no step, can run. -/
def runReady (s : State) (x : Core) : Bool :=
  match x.mxQueue with
  | [] => false
  | ⟨.steps _ _ _ _ _ _ _ _ _, _, _⟩ :: _ => false
  | ⟨.signal c w _, who, _⟩ :: _ => appliedOn s (objectDie s who c) w
  | ⟨.mon _ _ _ _, who, _⟩ :: _ => !(s.parts[who.part]).parked.any fun i => some i.tid == who.tid
  | _ => true

/-- MATRIX_COMMAND_RUN: the command at the head of the core's queue, no step (R296). -/
def execMatrixCommandRun (core : Fin 192) (s : State) : Out :=
  if !runReady s s.cores[core] then .next s
  else
    match s.cores[core].mxQueue with
    | [] => .next s
    | e :: rest =>
      let k := e.who.gang.getD ⟨0, 0⟩
      let s1 := onCore s core fun c => { c with mxQueue := rest }
      match e.cmd with
      | .zero t f =>
        .next (onGroup (bindTile s1 core k e.who.group t) k e.who.group fun g =>
          { g with tiles := g.tiles.set t.val (fillCells f) })
      | .write l =>
        let s2 := l.foldl (fun t x => bindTile t core k e.who.group x.1) s1
        .next (onGroup s2 k e.who.group fun g =>
          l.foldl (fun g x => { g with tiles := g.tiles.set x.1.val (cellSet 0 g.tiles[x.1] x.2.1 x.2.2) }) g)
      | .monclr mask =>
        .next (onGroup s1 k e.who.group fun g =>
          { g with mons := Vector.ofFn fun i => if mask.getLsbD i.val then Vector.replicate 6 0 else g.mons[i] })
      | .signal c w err => .next (settleObjs (completeAt s1 e.who none c 0 err (coverWrites e.who.clk w)))
      | .mon slot addr pas compl => .next (runMon s core slot addr pas compl e.who rest)
      | .steps _ _ _ _ _ _ _ _ _ => .next s

/-- The matrix engines' next step, if any. -/
def matrixEvent (s : State) : Option Instr :=
  s.cores.toList.zipIdx.findSome? fun x =>
    if x.1.mxWait.isEmpty && x.1.mxQueue.isEmpty then none
    else
      let c : Fin 192 := Fin.ofNat 192 x.2
      if mxAccepts s c x.1 then some (.matrixCommandAccept c)
      else if runReady s x.1 then some (.matrixCommandRun c)
      else if stepReady s x.1 then some (.kStep c)
      else none

end Sys2Proof.Machine
end

