-- ==== Sys2Proof/Machine/Router.lean ====
section
/-!
DEFINITION. The prism router: positions and slots, the lottery, statistics, moves, and the router instructions (R371 to R385).
-/

namespace Sys2Proof.Machine

/-! ### Positions and slots (R373) -/

/-- The free slot of a position that a record takes or reserves. The manual gives the free slots no order: the model takes the one of the lowest number, which RTTAKE's address shows (DESIGN CHOICE, log entry 33). -/
def freeSlot (p : Pipe) (pos : Nat) : Option Nat :=
  (List.range (leadOf p pos).slots).find? fun i => !p.recs.any fun r => r.pos == pos && r.slot == i

/-- Whether a position can accept a record: a free slot and, for an ORDERED set, one to reserve behind it (R376, R378). -/
def canAccept (p : Pipe) (pos : Nat) : Bool := (freeSlot p pos).isSome && (!orderedPos p pos || (freeSlot p (pos + 1)).isSome)

def queuedAt (p : Pipe) (stage : Nat) : Nat := (p.recs.filter fun r => r.loc == .queued stage).length

/-- A record replaced. -/
def setRec (p : Pipe) (pos slot : Nat) (f : PRec → PRec) : Pipe :=
  { p with recs := p.recs.map fun r => if r.pos = pos ∧ r.slot = slot then f r else r }

def dropRec (p : Pipe) (pos slot : Nat) : Pipe := { p with recs := p.recs.filter fun r => !(r.pos == pos && r.slot == slot) }

/-- A slot taken for a record that will fill it. -/
def reserveSlot (p : Pipe) (pos slot : Nat) : Pipe :=
  { p with recs := p.recs ++ [⟨pos, slot, .reserved, 0, 0, 0, 0, 0, p.arrivals, none, false, 0, [], {}⟩], arrivals := p.arrivals + 1 }

/-- A slot taken for a record that moves on; for an ORDERED set the slot behind it is taken with it, so that the entry waits for none (R376, R384). -/
def takeSlot (p : Pipe) (pos slot : Nat) : Pipe :=
  match (if orderedPos p pos then freeSlot p (pos + 1) else none) with
  | some n => setRec (reserveSlot (reserveSlot p pos slot) (pos + 1) n) pos slot fun r => { r with resv := some n }
  | none => reserveSlot p pos slot

/-! ### Statistics and the lottery (R379, R380) -/

def statAt (p : Pipe) (stage : Nat) : StageStat := if stage = 0 then ⟨128, 0, 0, 0⟩ else (p.stats[stage - 1]?).getD ⟨128, 0, 0, 0⟩

def windowAt (p : Pipe) (stage : Nat) : Nat := (setAt p (stageAt p stage).set).window

/-- The window closes when PAS + REJ reaches its length. -/
def closeWindow (n : Nat) (x : StageStat) : StageStat :=
  if x.pas.toNat + x.rej.toNat ≥ n then ⟨(512 * x.pas.toNat + n) / (2 * n), 0, 0, 0⟩ else x

def onStat (p : Pipe) (stage : Nat) (f : StageStat → StageStat) : Pipe :=
  { p with stats := p.stats.mapIdx fun i x => if i + 1 = stage then f x else x }

def countPass (p : Pipe) (stage : Nat) : Pipe := onStat p stage fun x => closeWindow (windowAt p stage) { x with pas := x.pas + 1 }
def countReject (p : Pipe) (stage : Nat) : Pipe := onStat p stage fun x => closeWindow (windowAt p stage) { x with rej := x.rej + 1 }
def countTake (p : Pipe) (stage : Nat) : Pipe := onStat p stage fun x => { x with ent := x.ent + 1 }

def freeAt (p : Pipe) (stage : Nat) : Nat := (stageAt p stage).slots - queuedAt p stage

/-- One draw of the xorshift generator. -/
def nextDraw (x0 : W32) : W32 :=
  let x1 := x0 ^^^ (x0 <<< 13)
  let x2 := x1 ^^^ (x1 >>> 17)
  x2 ^^^ (x2 <<< 5)

def lotteryWeight (p : Pipe) (stage : Nat) : Nat := (257 - (statAt p stage).passq8) * (1 + freeAt p stage)

/-- The first stage at which the running sum exceeds r. -/
def lotteryPick (p : Pipe) (r : Nat) : Nat → List Nat → Nat
  | _, [] => 0
  | _, [n] => n
  | sum, n :: rest => if r < sum + lotteryWeight p n then n else lotteryPick p r (sum + lotteryWeight p n) rest

/-- `Choose` of R379: the next member of a set for a record. -/
def chooseMember (p : Pipe) (m : Nat) (left : List Nat) : Nat × Pipe :=
  match left with
  | [n] => (n, p)
  | _ =>
    let x := nextDraw ((p.x[m - 1]?).getD 0)
    let total := left.foldl (fun a n => a + lotteryWeight p n) 0
    (lotteryPick p (x.toNat * total / 2 ^ 32) 0 left, { p with x := p.x.mapIdx fun i y => if i + 1 = m then x else y })

/-- The members that a record has left to visit. -/
def membersLeft (p : Pipe) (pos : Nat) (done : W8) : List Nat := (stagesOf p pos).filter fun n => !done.getLsbD (n - 1)

/-! ### Arrival at a position (R376, R377) -/

/-- A record put into a slot that has been taken for it: entry into a set, or the queue of a stage; none while no slot can be reserved for an ORDERED set. -/
def placeRec (p : Pipe) (pos slot : Nat) (r : PRec) : Option (Pipe × PRec) :=
  let m := setOf p pos
  let keep := orderedPos p (pos - 1) && pos != 0
  let old := (findRec p pos slot).map fun x => x.arrival
  let arrival := if keep then old.getD p.arrivals else p.arrivals
  let fresh : PRec := { r with pos := pos, slot := slot, setid := m, done := 0, obcnt := 0, arrival := arrival, resv := none, passed := false, boxes := 0, boxWrites := [] }
  let p1 := { dropRec p pos slot with arrivals := p.arrivals + 1 }
  if m = 0 then
    let r1 := { fresh with loc := .queued ((stagesOf p pos).headD 0) }
    some ({ p1 with recs := p1.recs ++ [r1] }, r1)
  else
    let mine := (findRec p pos slot).bind fun x => x.resv
    let next := if !orderedPos p pos then some 0 else if mine.isSome then mine else freeSlot p (pos + 1)
    match next with
    | none => none
    | some n =>
      let p2 :=
        if !orderedPos p pos then p1
        else if mine.isNone then reserveSlot p1 (pos + 1) n
        else setRec { p1 with arrivals := p1.arrivals + 1 } (pos + 1) n fun x => { x with arrival := p1.arrivals }
      let c := chooseMember p2 m (stagesOf p pos)
      let r1 := { fresh with
        loc := .queued c.1
        entno := BitVec.ofNat 32 (((c.2.nextEnt[m - 1]?).getD 0).toNat)
        resv := if orderedPos p pos then some n else none }
      let up := c.2.nextEnt.mapIdx fun i y => if i + 1 = m then y + 1 else y
      some ({ c.2 with recs := c.2.recs ++ [r1], nextEnt := up }, r1)

/-! ### The router's accesses (R373) -/

/-- Translation of a slot for the router, which needs W: the whole of it lies in local global memory, by either form of its address (R230, R231, R373). -/
def slotPages (s : State) (l : Launch) (p : Pipe) (pos slot : Nat) : Pages × State :=
  let a := slotAddr l p pos slot
  let n := (leadOf p pos).slotBytes
  match rangeWindow s a n with
  | .ok (.global va) =>
    (match transPages (routerCore p) none l.part va .write (pagesOf va n) s with
      | (.ok l, t) => (.ok (l.map fun q => (q.1 + (a - va) / 2 ^ 15, q.2)), t)
      | r => r)
  | .error 0x19 => (.fail 0x19 a, s)
  | _ => (.fail 0x1C a, s)

/-- An access of the router that fails: every gang of the launch is contained, and the launch is returned. -/
def routerFails (s : State) (l : Launch) (c : Cause) : State :=
  let ks := (s.gangs.filter fun g => g.key.launch == l.key).map fun g => g.key
  let s1 := onPipe (report s (some l.part) 1 c (taskInfo s (taskId false 0 l.acc) ks)) l.key fun p => { p with stopped := true }
  finishLaunch (contain s1 ks c false) l.key (some c)

/-- A router's agent (R387). -/
def routerAgent (p : Pipe) : W32 := engToken (coreDie (routerCore p)) 3 (coreNum (routerCore p) / 8)

/-- The item under which a launch's router waits for the host: an index that no gang has (log entry 33). -/
def routerItem (l : Launch) : W64 := taskId false (2 ^ 32 - 1) l.acc

/-- Whether a launch's router waits for the host. -/
def routerHeld (s : State) (l : Launch) : Bool := (s.parts[l.part]).parked.any fun i => i.tid == routerItem l

/-- An access of the router to a page that the host is to map: the router's work for the launch waits (R41, R237, R373). -/
def holdRouter (s : State) (l : Launch) (p : Pipe) : State :=
  tellHost (onPart s l.part fun x => { x with parked := ⟨routerItem l, 0x20, [routerAgent p]⟩ :: x.parked }) (.parked l.part (routerItem l) 0x20)

/-- A step of the router behind the translation of its pages. -/
def routerPages (s : State) (l : Launch) (p : Pipe) (r : Pages × State) (k : List (Nat × Nat) → State → Option State) : Option State :=
  match r with
  | (.fail c _, t) => some (routerFails t l c)
  | (.held, t) => if routerHeld s l then none else some (if p.freed then routerFails t l 0x20 else holdRouter t l p)
  | (.ok pages, t) => k pages t

/-- The same for an instruction: its wave is held for the host. -/
def wavePages (s : State) (l : Launch) (r : Pages × State) (k : List (Nat × Nat) → State → State) : State :=
  match r with
  | (.fail c _, t) => routerFails t l c
  | (.held, t) => if isReleased s then routerFails t l 0x20 else holdWave t 0x20
  | (.ok pages, t) => k pages t

def chunks : Nat → List W8 → List (List W8)
  | 0, _ => []
  | _, [] => []
  | n + 1, l => l.take 16 :: chunks n (l.drop 16)

/-- Bytes written by the router, in units of 16, at an address of translated pages. -/
def routerWrite (s : State) (pages : List (Nat × Nat)) (va : Nat) (bytes : List W8) (v : Clk) : State :=
  ((chunks bytes.length bytes).mapIdx fun i b => (i, b)).foldl
    (fun t u => (stampUnit t none 0 v (keyed (paThrough pages (va + 16 * u.1)) u.2)).1) s

/-- Bytes read by the router. -/
def routerRead (s : State) (p : Pipe) (pages : List (Nat × Nat)) (va n : Nat) : List W8 :=
  (List.range n).map fun i => viewByte s (coreDie (routerCore p)) 0 (paThrough pages (va + i))

/-- Whether a read of the router has to wait for a write that the record's clock covers (R279, R283). -/
def routerBlocked (s : State) (p : Pipe) (pages : List (Nat × Nat)) (va n : Nat) (v : Clk) : Bool :=
  (List.range n).any fun i => floorBlocks s (coreDie (routerCore p)) v (paThrough pages (va + i))

/-- The record's clock after such a read (R276). -/
def routerClk (s : State) (p : Pipe) (pages : List (Nat × Nat)) (va n : Nat) (v : Clk) : Clk :=
  (List.range n).foldl (fun v i => readClk s (coreDie (routerCore p)) 0 (paThrough pages (va + i)) v) v

/-- A clock that covers the latest writes of bytes. -/
def writtenClk (s : State) (pages : List (Nat × Nat)) (va n : Nat) (v : Clk) : Clk :=
  (List.range n).foldl (fun v i => clkJoin v (cellGet {} s.clks (paThrough pages (va + i)))) v

/-- What a record's payload becomes at another position: truncated or padded with zero (R377). -/
def fitPayload (n : Nat) (bytes : List W8) : List W8 := (bytes ++ List.replicate n 0).take n

/-- A record written into its slot: header and payload. -/
def writeRecord (s : State) (l : Launch) (p : Pipe) (pages : List (Nat × Nat)) (r : PRec) (bytes : List W8) : State :=
  let va := slotAddr l p r.pos r.slot
  let s1 := routerWrite s pages va (leBytes 16 (headerBits r false)) r.clk
  routerWrite s1 pages (va + 16) (fitPayload (payloadSize p r.pos) bytes) r.clk

def setPipe (s : State) (l : Launch) (p : Pipe) : State := onLaunch s l.key fun x => { x with pipe := some p }

/-- A record's clock kept with it once its bytes are written. -/
def keepClk (s : State) (l : Launch) (p : Pipe) (pages : List (Nat × Nat)) (pos slot : Nat) (v : Clk) : State :=
  let now := writtenClk s pages (slotAddr l p pos slot) (leadOf p pos).slotBytes v
  onPipe s l.key fun q => setRec q pos slot fun x => { x with clk := now }

/-- A record copied into a slot taken for it, its old slot freed: none while its entry or its bytes wait (R283, R376, R377). -/
def moveRecord (s : State) (l : Launch) (p : Pipe) (r : PRec) (pos slot : Nat) : Option State :=
  routerPages s l p (slotPages s l p r.pos r.slot) fun src t =>
    routerPages s l p (slotPages t l p pos slot) fun dst u =>
      let from0 := slotAddr l p r.pos r.slot + 16
      let n := payloadSize p r.pos
      if lostRead u l.part none ((List.range n).map fun i => paThrough src (from0 + i)) then some (routerFails u l 0x4D)
      else if routerBlocked u p src from0 n r.clk then none
      else
        let v := routerClk u p src from0 n r.clk
        (placeRec (dropRec p r.pos r.slot) pos slot { r with clk := v }).map fun x =>
          keepClk (setPipe (writeRecord u l x.1 dst x.2 (routerRead u p src from0 n)) l x.1) l p dst pos slot v

/-! ### Outboxes (R381) -/

/-- The fields of an outbox entry. -/
structure BoxEnt where
  addr : Nat
  len : Nat
  kind : Nat
  stage : Nat
  reserved : Nat
  data : List W8
  deriving DecidableEq, Repr

def boxOf (bytes : List W8) : BoxEnt :=
  let x := leNat bytes
  ⟨bitsOf x 63 0, bitsOf x 69 64, bitsOf x 71 70, bitsOf x 79 72, bitsOf x 127 80, bytes.drop 16⟩

/-- An entry that RTEMIT refuses; STAGE is written by the router. -/
def boxBad (b : BoxEnt) : Bool :=
  b.kind == 3 || b.reserved != 0 ||
    (if b.kind = 0 then b.len == 0 || decide (48 < b.len) else b.len != 0) ||
    (b.kind == 1 && b.addr % 8 != 0) || (b.kind == 2 && b.addr % 16 != 0)

/-- The address of outbox entry i of a slot. -/
def boxAddr (l : Launch) (p : Pipe) (r : PRec) (i : Nat) : Nat :=
  slotAddr l p r.pos r.slot + (leadOf p r.pos).slotBytes - 256 + 64 * i

/-- The bytes that an entry writes. -/
def boxSize (b : BoxEnt) : Nat := match b.kind with | 0 => b.len | 1 => 8 | _ => 16

/-- The translation of an entry's address: the whole of its bytes lies in local memory (R381). -/
def boxPages (s : State) (l : Launch) (p : Pipe) (b : BoxEnt) : Pages × State :=
  if isLocalGlobal (b.addr + boxSize b - 1) then
    transPages (routerCore p) none l.part b.addr .write (pagesOf b.addr (boxSize b)) s
  else (.fail 0x1C b.addr, s)

/-- One entry applied: none while its signal waits. A counter whose data are lost ends the launch (R10). -/
def applyBox (s : State) (l : Launch) (p : Pipe) (b : BoxEnt) : Option State :=
  match boxPages s l p b with
  | (.fail _ _, t) | (.held, t) => some (markErr t l.key)
  | (.ok pages, t) =>
    let pa := paThrough pages b.addr
    if b.kind ≠ 0 && lostRead t l.part none (bytesFrom pa (boxSize b)) then some (routerFails t l 0x4D)
    else
    match b.kind with
    | 0 =>
      let put := fun (u : State) (page : Nat) =>
        let l := ((List.range b.len).filter fun i => (b.addr + i) / 2 ^ 15 == page).map fun i =>
          (paThrough pages (b.addr + i), (b.data[i]?).getD 0)
        (stampUnit u none 0 (clkNow u) l).1
      some ((pagesOf b.addr b.len).foldl put t)
    | 1 => some (counterWrite t deviceWriter pa (counterAdd (memNat t pa 8) (leNat (b.data.take 8) % 2 ^ 63)) (clkNow t))
    | _ => signalAt t deviceWriter l.part pa (clkNow t)

/-- The entries of a record by ascending STAGE, in emission order within one. -/
def boxesOf (s : State) (l : Launch) (p : Pipe) (pages : List (Nat × Nat)) (r : PRec) : List BoxEnt :=
  let all := (List.range r.obcnt).map fun i => boxOf (routerRead s p pages (boxAddr l p r i) 64)
  (List.range 256).flatMap fun n => all.filter fun b => b.stage == n

/-- Whether a record of an ORDERED set still has one with a lower entry number before it (R377). -/
def lowerEntry (p : Pipe) (r : PRec) : Bool :=
  p.recs.any fun x => x.pos == r.pos && x.setid == r.setid && x.loc != .reserved && x.loc != .voided && x.entno != r.entno &&
    decide ((r.entno - x.entno).toNat < 2 ^ 31)

/-- The next outbox entry of a leaving record applied: its stamps join the record's clock, so that the copy follows it (R381). -/
def boxStep (s : State) (l : Launch) (p : Pipe) (r : PRec) : Option State :=
  routerPages s l p (slotPages s l p r.pos r.slot) fun pages t =>
    let n := 64 * r.obcnt
    if lostRead t l.part none ((List.range n).map fun i => paThrough pages (boxAddr l p r 0 + i)) then some (routerFails t l 0x4D)
    else if routerBlocked t p pages (boxAddr l p r 0) n r.clk then none
    else
      ((boxesOf t l p pages r)[r.boxes]?).bind fun b =>
        if !p.freed && (boxPages t l p b).1 == .held then (if routerHeld s l then none else some (holdRouter t l p))
        else
          (applyBox t l p b).map fun u =>
            let w := newStamps t u
            onPipe u l.key fun q => setRec q r.pos r.slot fun x => { x with boxes := r.boxes + 1, boxWrites := w, clk := coverWrites r.clk w }

/-- A record that has visited every member leaves its set: its outbox entries one by one, each applied on its home die before the next, then the copy, which alone waits for a slot; none while it waits (R377, R381). -/
def leaveSet (s : State) (l : Launch) (p : Pipe) (r : PRec) : Option State :=
  if orderedPos p r.pos && lowerEntry p r then none
  else if r.boxWrites.any fun x => !appliedOn s x.1 [x] then none
  else if r.boxes < r.obcnt then boxStep s l p r
  else if lastPos p r.pos then some (setPipe s l (dropRec p r.pos r.slot))
  else
    (if orderedPos p r.pos then r.resv else freeSlot p (r.pos + 1)).bind fun slot => moveRecord s l p r (r.pos + 1) slot

/-! ### The router's steps -/

/-- The records of a launch at a place in their life, first arrived first. -/
def recsAt (p : Pipe) (x : RecAt) : List PRec :=
  let l := p.recs.filter fun r => r.loc == x
  l.foldr (fun r acc => (acc.takeWhile fun y => decide (y.arrival < r.arrival)) ++ r :: acc.dropWhile fun y => decide (y.arrival < r.arrival)) []

/-- The first result of a step that some record of a launch can take. The host's release of an access of the router ends with the step that makes it (R41, R43). -/
def firstStep (s : State) (launch : Nat) (x : RecAt) (f : Launch → Pipe → PRec → Option State) : Option State :=
  match findLaunch s launch with
  | none => none
  | some l =>
    match l.pipe with
    | none => none
    | some p =>
      if p.stopped then none
      else ((recsAt p x).findSome? (f l p)).map fun t => if p.freed then onPipe t launch fun q => { q with freed := false } else t

/-- A record that RTDONE has passed on moves into the slot taken for it: into a set, or into the queue of a stage. -/
def moveOn (s : State) (intoSet : Bool) (l : Launch) (p : Pipe) (r : PRec) : Option State :=
  if (setOf p (r.pos + 1) != 0) == intoSet then r.resv.bind fun slot => moveRecord s l p r (r.pos + 1) slot else none

def setEntryStep (s : State) (launch : Nat) : Option State := firstStep s launch .moving (moveOn s true)
def setLeaveStep (s : State) (launch : Nat) : Option State := firstStep s launch .leaving (leaveSet s)
def routerMoveStep (s : State) (launch : Nat) : Option State := firstStep s launch .moving (moveOn s false)

/-- ROUTER_SET_ENTRY (R376). -/
def execRouterSetEntry (launch : Nat) (s : State) : Out := .next ((setEntryStep s launch).getD s)

/-- ROUTER_SET_LEAVE (R377). -/
def execRouterSetLeave (launch : Nat) (s : State) : Out := .next ((setLeaveStep s launch).getD s)

/-- ROUTER_MOVE (R384). -/
def execRouterMove (launch : Nat) (s : State) : Out := .next ((routerMoveStep s launch).getD s)

/-- The routers' next step, if any. -/
def routerEvent (s : State) : Option Instr :=
  s.launches.findSome? fun l =>
    match l.pipe with
    | none => none
    | some p =>
      if p.recs.all fun r => r.loc != .moving && r.loc != .leaving then none
      else if (setLeaveStep s l.key).isSome then some (.routerSetLeave l.key)
      else if (setEntryStep s l.key).isSome then some (.routerSetEntry l.key)
      else if (routerMoveStep s l.key).isSome then some (.routerMove l.key)
      else none

/-! ### The instructions (R383, R384) -/

/-- An instruction of a wave of a pipeline launch. -/
def withPipe (s : State) (k : Launch → Pipe → Group → State) : State :=
  match myLaunch s, myGroup s with
  | some l, some g =>
    match l.pipe with
    | some p => k l p g
    | none => trapWave s 0x2F
  | _, _ => trapWave s 0x2F

/-- The windows and bounds of a range that RTEMIT reads (R345, R384). -/
def emitEnds : Ends := ⟨true, true, false, false⟩

def emitCheck (s : State) (a : W64) (n align : Nat) : Option Cause :=
  match endCheck s (some s.wave.ids.gang) a n emitEnds true with
  | some c => some c
  | none => if a.toNat % align ≠ 0 then some 0x18 else none

/-- The wave's RTEMIT of a record has been issued, or is over (R375). -/
def emitting (s : State) (l : Launch) (on : Bool) : State :=
  let others := fun (p : Pipe) => p.emitting.filter fun t => t != s.wave.ids.token
  onPipe s l.key fun p => { p with emitting := if on then s.wave.ids.token :: others p else others p }

/-- The pages that an emission reads. -/
def emitPages (s : State) (a : W64) (n : Nat) : Pages × State :=
  match windowOf s a.toNat with
  | .global va => transPages s.wave.ids.core (some s.wave.ids.gang) s.wave.ids.part va .read (pagesOf va n) s
  | _ => (.ok [], s)

/-- An emission reads its bytes behind its checks, once the wave's stores and all that its clock covers are applied (R284); a page that waits for the host holds the wave (R237). `mark` is kept while it waits. -/
def emitRead (s : State) (a : W64) (n align : Nat) (mark : State → State) (k : State → List W8 → Clk → State) : State :=
  match emitCheck s a n align with
  | some c => trapValue s c a 0
  | none =>
    if !storesAcked s 4 || !clkLe s.wave.clk s.dies[waveDie s.wave].applied then stall (mark s)
    else if (emitPages s a n).1 == .held && !isReleased s then holdWave (mark s) 0x20
    else
      match localRead s (issuerOf s) a n s.wave.clk with
      | (.fail b c, t) => trapValue t c b 0
      | (.ok bytes v, t) => k t bytes v

/-- RTEMIT rec (R384). -/
def emitRecord (s : State) (a : KReg) (l : Launch) (p : Pipe) (g : Group) : State :=
  let stage := g.stage.val
  if stage ≠ 0 ∧ ((stageAt p stage).set ≠ 0 ∨ stage = p.stages.length) then trapWave s 0x2F
  else
    let pos := if stage = 0 then 0 else posOf p stage + 1
    emitRead s s.wave.regs.k[a] (payloadSize p pos) 16 (fun t => emitting t l true) fun t0 bytes v =>
      let t := emitting t0 l true
      match (if canAccept p pos then freeSlot p pos else none) with
      | none => await t (.roomPos l.key pos) 5 .room false
      | some slot =>
        wavePages t l (slotPages t l p pos slot) fun pages u =>
          let r : PRec := ⟨pos, slot, .reserved, p.emitted, 0, 0, 0, 0, 0, none, false, 0, [], v⟩
          match placeRec p pos slot r with
          | none => stall u
          | some (p1, r1) =>
            let u1 := setPipe (writeRecord u l p1 pages r1 bytes) l { p1 with emitted := p1.emitted + 1 }
            retireWave (leaveWait (emitting (keepClk u1 l p pages pos slot v) l false)) 4

/-- RTEMIT rec. -/
def execRtemitRec (a : KReg) (s : State) : Out := .next (withPipe s (emitRecord s a))

/-- RTEMIT box (R384). -/
def emitBox (s : State) (a : KReg) (l : Launch) (p : Pipe) (g : Group) : State :=
  match g.held.bind fun h => findRec p h.pos h.slot with
  | none => trapWave s 0x2F
  | some r =>
    if r.setid = 0 ∨ r.obcnt = 4 then trapWave s 0x2F
    else
      emitRead s s.wave.regs.k[a] 64 64 id fun t bytes v =>
        if boxBad (boxOf bytes) then trapWave t 0x2F
        else
          wavePages t l (slotPages t l p r.pos r.slot) fun pages u =>
            let r1 := { r with obcnt := r.obcnt + 1, clk := clkJoin r.clk v }
            let entry := bytes.take 9 ++ BitVec.ofNat 8 g.stage.val :: bytes.drop 10
            let u1 := routerWrite u pages (boxAddr l p r r.obcnt) entry v
            let u2 := routerWrite u1 pages (slotAddr l p r.pos r.slot) (leBytes 16 (headerBits r1 false)) v
            retireWave (keepClk (setPipe u2 l (setRec p r.pos r.slot fun _ => r1)) l p pages r.pos r.slot r1.clk) 4

/-- RTEMIT box. -/
def execRtemitBox (a : KReg) (s : State) : Out := .next (withPipe s (emitBox s a))

/-! ### RTTAKE (R375, R378) -/

/-- The records that a stage's queue lets be taken, in order. -/
def takeable (p : Pipe) (stage : Nat) : List PRec :=
  let pos := posOf p stage
  if setOf p pos = 0 ∧ pos ≠ 0 ∧ orderedPos p (pos - 1) then
    let waiting := p.recs.filter fun r => r.pos == pos && r.loc == .reserved
    let first := waiting.foldl (fun m r => min m r.arrival) p.arrivals
    (recsAt p (.queued stage)).filter fun r => decide (r.arrival < first)
  else recsAt p (.queued stage)

def eligible (p : Pipe) (stage : Nat) : Bool :=
  !(takeable p stage).isEmpty &&
    ((stageAt p stage).set != 0 || stage == p.stages.length || canAccept p (posOf p stage + 1))

/-- The eligible stage of the greatest ratio of takeable records to slots; ties go to the current stage, then to the lowest. -/
def chooseStage (p : Pipe) (cur : Nat) : Option Nat :=
  let load := fun n => (takeable p n).length
  let size := fun n => (stageAt p n).slots
  let l := ((List.range p.stages.length).map (· + 1)).filter (eligible p)
  l.foldl (fun best n =>
    match best with
    | none => some n
    | some b =>
      if load b * size n < load n * size b ∨ (load b * size n = load n * size b ∧ n = cur) then some n else some b) none

/-- Whether the pipeline is closed (R375). The groups of a gang that is to be relaunched have to execute RTTAKE anew; an emission is pending from its issue until it completes. -/
def pipeClosed (s : State) (l : Launch) (p : Pipe) : Bool :=
  let groups := ((variantAt l.variants l.chosen).map fun v => 2 ^ v.gshape).getD 1
  let emits := (liveWaves s).any fun w => p.emitting.contains w.ids.token &&
    (w.tried == some w.regs.pc || w.run == .held || w.released == some w.regs.pc)
  p.closed || (decide (p.took.length = l.snap.gcount * groups) && (p.recs.all fun r => r.loc == .voided) && !emits)

/-- Pipelines close for good in the step in which the conditions of R375 hold. -/
def closePipes (s : State) : State :=
  let closes := fun (l : Launch) => l.pipe.any fun p => !p.closed && pipeClosed s l p
  if s.launches.any closes then
    { s with launches := s.launches.map fun l => if closes l then { l with pipe := l.pipe.map fun p => { p with closed := true } } else l }
  else s

/-- A pair of named registers written in every lane. -/
def writePair (r : Regs) (x : Fin 40) (v : W64) : Regs := writeDst r (.n x) 0xFFFFFFFF (Lanes.all v) true

/-- RTTAKE behind its checks. -/
def takeRecord (s : State) (x : Fin 40) (l : Launch) (p0 : Pipe) (g : Group) : State :=
  if g.held.isSome then trapWave s 0x2F
  else
    let me := (g.gang.index, g.index)
    let p := if p0.took.contains me then p0 else { p0 with took := me :: p0.took }
    let s1 := onGroup (setPipe s l p) g.gang g.index fun y => { y with taken := true }
    if pipeClosed s1 l p then
      onRegs (settlePrio (setPipe (leaveWait s1) l { p with closed := true })) fun q => retire (writePair q x 0) 4
    else
    match chooseStage p g.stage.val with
    | some n =>
      (match takeable p n with
        | [] => stall s1
        | r :: _ =>
          let p1 := skipVoided (countTake (setRec p r.pos r.slot fun y => { y with loc := .held, passed := false }) n)
          let s2 := onGroup (setPipe (leaveWait s1) l p1) g.gang g.index fun y =>
            { y with stage := Fin.ofNat 9 n, held := some ⟨r.pos, r.slot⟩ }
          let s3 := settlePrio (join s2 (clkJoin s2.wave.clk r.clk))
          jumpTo (onRegs s3 fun q => writePair q x (BitVec.ofNat 64 (slotAddr l p r.pos r.slot))) (stageAt p n).entry)
    | none => await s1 (.recPipe l.key) 5 .record false

/-- RTTAKE (R384). -/
def execRttake (x : Fin 40) (s : State) : Out :=
  checkedState s [.dst (.n x) true] true fun s => withPipe s (takeRecord s x)

/-! ### RTDONE, RTREJ, RTSTAT -/

/-- The record that the issuing group holds, behind the release. -/
def withHeld (s : State) (k : Launch → Pipe → Group → PRec → State) : State :=
  withPipe s fun l p g =>
    match g.held.bind fun h => findRec p h.pos h.slot with
    | none => trapWave s 0x2F
    | some r => if !storesAcked s 4 then stall s else k l p g { r with clk := clkJoin r.clk s.wave.clk }

/-- The group lets its record go: the priorities of its waves settle (R394). -/
def dropHeld (s : State) (g : Group) : State := settlePrio (onGroup s g.gang g.index fun y => { y with held := none })

/-- The pass of a held record, counted once (R384). -/
def passOnce (p : Pipe) (stage : Nat) (r : PRec) : Pipe := if r.passed then p else countPass p stage

/-- RTDONE outside a set, before the last stage: the pass is counted, then comes the wait for room, then the slot is taken and the router moves the record. -/
def passOn (s : State) (l : Launch) (p : Pipe) (g : Group) (r : PRec) : State :=
  let pos := r.pos + 1
  let p1 := passOnce p g.stage.val r
  match (if canAccept p pos then freeSlot p pos else none) with
  | none =>
    let t := await s (.roomPos l.key pos) 5 .room false
    if inWait t then onPipe t l.key fun _ => setRec p1 r.pos r.slot fun _ => { r with passed := true } else t
  | some slot =>
    let p2 := setRec p1 r.pos r.slot fun _ => { r with loc := .moving, resv := some slot }
    retireWave (dropHeld (setPipe (leaveWait s) l (takeSlot p2 pos slot)) g) 4

/-- RTDONE in a set: the next member, or the set is left. -/
def passMember (s : State) (l : Launch) (p : Pipe) (g : Group) (r : PRec) : State :=
  wavePages s l (slotPages s l p r.pos r.slot) fun pages t =>
    let p1 := passOnce p g.stage.val r
    let r1 := { r with done := r.done ||| BitVec.ofNat 8 (2 ^ (g.stage.val - 1)) }
    let left := membersLeft p r.pos r1.done
    let chosen := if left = [] then (0, p1) else chooseMember p1 r.setid left
    let at1 : RecAt := if left = [] then .leaving else .queued chosen.1
    let r2 := { r1 with loc := at1, arrival := p.arrivals }
    let p2 := setRec { chosen.2 with arrivals := p.arrivals + 1 } r.pos r.slot fun _ => r2
    let t1 := routerWrite t pages (slotAddr l p r.pos r.slot) (leBytes 16 (headerBits r2 false)) r.clk
    retireWave (dropHeld (keepClk (setPipe t1 l p2) l p pages r.pos r.slot r.clk) g) 4

/-- RTDONE (R384). -/
def execRtdone (s : State) : Out :=
  .next (withHeld s fun l p g r =>
    if r.setid ≠ 0 then passMember s l p g r
    else if g.stage.val < p.stages.length then passOn s l p g r
    else retireWave (dropHeld (setPipe s l (dropRec (passOnce p g.stage.val r) r.pos r.slot)) g) 4)

/-- RTREJ (R384). -/
def execRtrej (s : State) : Out :=
  .next (withHeld s fun l p g r =>
    wavePages s l (slotPages s l p r.pos r.slot) fun pages t =>
      let t1 := routerWrite t pages (slotAddr l p r.pos r.slot) (leBytes 16 (headerBits r true)) r.clk
      retireWave (dropHeld (setPipe t1 l (discardRec (countReject p g.stage.val) r.pos r.slot)) g) 4)

/-- An item of a stage that RTSTAT reads (R380, R385). -/
def statItem (s : State) (l : Launch) (p : Pipe) (sel : W32) : W32 :=
  let n := sel.toNat % 16
  let x := statAt p n
  if n = 0 ∨ p.stages.length < n then 0
  else
    match sel.toNat / 16 % 16 with
    | 0 => BitVec.ofNat 32 x.passq8
    | 1 => x.pas
    | 2 => x.rej
    | 3 => x.ent
    | 4 => BitVec.ofNat 32 (freeAt p n)
    | 5 => BitVec.ofNat 32 (queuedAt p n)
    | 6 => BitVec.ofNat 32 ((s.groups.filter fun g => g.gang.launch == l.key && g.stage.val == n).length % 65536)
    | 7 => if (stageAt p n).set = 0 then 0 else (p.x[(stageAt p n).set - 1]?).getD 0
    | _ => 0

/-- RTSTAT (R385). -/
def execRtstat (d : Dst) (a : Src) (h : Hold) (s : State) : Out :=
  checkedState s [.src a false, .dst d false] true fun s =>
    withPipe s fun l p _ =>
      let x := srcLanes s.wave.regs s.wave.ids.wave.val a false
      let v : Lanes W64 := Lanes.of fun i => (statItem s l p (lo32 x[i])).setWidth 64
      onRegs s fun r => laneFinish r 4 d h ⟨x, false, v, false⟩ v false

/-! ### Waits that are over (R393) -/

/-- Whether the condition of a registered wait holds: those of R330 and R333, a ring's or an object's engines done, room, a record, a pending entry. -/
def conditionHolds (s : State) (w : Wave) (l : WaitLink) : Bool :=
  match l.what, l.key with
  | .room, .roomTask p q => decide (((s.parts[p]).taskQ[q]).length < 4096)
  | .room, .roomLaunch p q => launchRoom s p q
  | .room, .roomPos k pos => ((findLaunch s k).bind fun x => x.pipe).all fun p => canAccept p pos
  | .room, key => (engineHolders s key).isEmpty
  | .record, .recPipe k =>
    (findLaunch s k).all fun x => x.pipe.all fun p => pipeClosed s x p || (chooseStage p 0).isSome
  | .signal pa, _ => (signalWord (memNat s pa 8)).isSome || (pendSignal s pa).isSome
  | _, _ => waitHolds s w l

end Sys2Proof.Machine
end

