-- ==== Sys2Proof/Machine/Sched.lean ====
section
/-!
DEFINITION. The scheduler: admission (R24, R25, R32, R33, R36, R363, R371 to R373, R408), pre-emption and resumption (R264, R311, R409 to R411, R434), parking (R37, R38), clock gating (R39, R412), the end of windows (R206), the timeout of long waits (R398).
-/

namespace Sys2Proof.Machine

/-! ### Waits that are over (R38, R393) -/

/-- Whether a channel's wait on a ring is over: the ring lets its next tile go. -/
def ringOpens (s : State) (e : EngineWait) : Bool :=
  let t := e.agent.toNat
  let d : Fin 2 := if e.agent.getLsbD 30 then 1 else 0
  bitsOf t 31 31 == 1 && bitsOf t 29 24 == 0 &&
    match (s.dies[d].chans[(Fin.ofNat 96 (t % 2 ^ 24) : Fin 96)]).inService with
    | some r => r.op.any fun o => (ringBar s o.who r.snap (tileBars r.snap r.tile).1).any fun b =>
        tileOpen r.snap r.tile (barOf (leNat (spadBytes b.1 b.2 16)))
    | none => true

/-- Whether what a task's commit waits for has come: room, a pending entry, the end of a task that it observes. -/
def commitOver (s : State) (t : Task) (key : ObjKey) : Bool :=
  match key with
  | .commit k => !s.tasks.any fun x => taskKey x == k && !x.committed
  | .roomTask _ _ | .roomLaunch _ _ | .pending _ => t.committed && !(settleWait s t).any fun x => x.1 == key
  | _ => false

/-- Whether a wait of a channel on a ring, of a collective engine on contributors, or of a commit is over. -/
def engineWaitOver (s : State) (e : EngineWait) : Bool :=
  ringOpens s e ||
    match e.link.key with
    | .coll dpid group cseq =>
      (findColl s dpid group cseq).all fun x => x.ended.isSome || x.parts.isEmpty || decide (groupSize s group ≤ x.parts.length)
    | key => (s.tasks.find? fun t => (t.ended || t.committed) && commitAgent s t == e.agent).any fun t => commitOver s t key

/-- The waits whose conditions hold are removed (R393): their waves have only to complete their instructions, and are ready from now on (R38). -/
def endWaits (s : State) : State :=
  let done := fun (w : Wave) => w.run != .ended && (openWait w).any fun l => !l.explicit && conditionHolds s w l
  let out := fun (w : Wave) =>
    if done w then { w with wait := w.wait.map fun l => { l with granted := true }, readySince := s.free } else w
  if (liveWaves s).any done || s.engWaits.any (engineWaitOver s) then
    settlePrio (sweepObjs (onWaves { s with engWaits := s.engWaits.filter fun e => !engineWaitOver s e } out))
  else s

/-! ### The admitter's reads (R33) -/

/-- Pages of a range read without demand-zero resolution. -/
def peekPages (p : Fin 24) (va : Nat) : List Nat → State → Except Cause (List (Nat × Nat)) × State
  | [], s => (.ok [], s)
  | page :: rest, s =>
    let a := page * 2 ^ 15
    match walkPage s p a with
    | .demand _ _ => (.error 0x20, s)
    | _ =>
      match devTranslate s p a .read with
      | (.error c, t) => (.error c, t)
      | (.ok pa, t) =>
        match peekPages p va rest t with
        | (.ok l, u) => (.ok ((page, pa) :: l), u)
        | r => r

/-- n bytes at a global address. -/
def peekBytes (s : State) (p : Fin 24) (va n : Nat) : Except Cause (List W8) × State :=
  match peekPages p va (pagesOf va n) s with
  | (.error c, t) => (.error c, t)
  | (.ok l, t) =>
    let pas := (List.range n).map fun i => paThrough l (va + i)
    if lostRead t p none pas then (.error 0x4D, t) else (.ok (pas.map (memByte t)), t)

/-- Where a table or a descriptor of n bytes stands in local global memory. A range that R231 lets no access name fails with that rule's cause; any other address outside local global memory makes the launch malformed, 0x3B, since R33 names no cause of its own (DESIGN CHOICE, log entry 32). -/
def tableWindow (s : State) (a : W64) (n : Nat) : Except Cause Nat :=
  match rangeWindow s a.toNat n with
  | .ok (.global va) => .ok va
  | .error 0x19 => .error 0x19
  | .error 0x1C => .error 0x1C
  | _ => .error 0x3B

/-- The first n bytes of a table or a descriptor, which is aligned to 64 bytes. -/
def tableBytes (s : State) (p : Fin 24) (a : W64) (n : Nat) : Except Cause (List W8) × State :=
  match tableWindow s a n with
  | .error c => (.error c, s)
  | .ok va => if va % 64 ≠ 0 then (.error 0x3B, s) else peekBytes s p va n

/-- Parts of n bytes each. -/
def bytesAt (l : List W8) (off n : Nat) : Nat := leNat ((l.drop off).take n)

/-- An entry point with [1:0] or [63:56] not zero. -/
def entryBad (x : Nat) : Bool := x % 4 != 0 || x / 2 ^ 56 != 0

/-! ### Schedule tables (R32, R33) -/

/-- A variant entry from its 32 bytes; none when it is malformed. -/
def variantOf (x : Nat) : Option VariantEnt :=
  let f := fun hi lo => bitsOf x hi lo
  if entryBad (f 63 0) || f 127 109 != 0 || f 255 136 != 0 || decide (40 < f 107 102) || decide (112 < f 135 128) then none
  else some ⟨BitVec.ofNat 64 (f 63 0), f 95 64, f 97 96, f 101 98 + 1, f 107 102, f 108 108 == 1, f 135 128⟩

/-- All of a list's values, or none. -/
def allSome {α : Type} : List (Option α) → Option (List α)
  | [] => some []
  | none :: _ => none
  | some x :: l => (allSome l).map fun y => x :: y

/-- The variants and SIZEK of a table, or the cause of the return. An address outside local global memory makes it malformed, 0x3B, where no rule names a cause (`tableWindow`; DESIGN CHOICE, log entry 32). -/
def readTable (s : State) (p : Fin 24) (a : W64) : Except Cause (List VariantEnt × Nat) × State :=
  match tableBytes s p a 16 with
  | (.error c, t) => (.error c, t)
  | (.ok h, t) =>
    let x := leNat h
    let n := x % 16
    if n = 0 ∨ 8 < n ∨ x / 2 ^ 9 ≠ 0 then (.error 0x3B, t)
    else
      match tableBytes t p a (16 + 32 * n) with
      | (.error c, u) => (.error c, u)
      | (.ok l, u) =>
        match allSome ((List.range n).map fun i => variantOf (bytesAt l (16 + 32 * i) 32)) with
        | none => (.error 0x3B, u)
        | some vs => (.ok (vs, bitsOf x 8 4), u)

/-! ### Pipeline descriptors (R371, R372) -/

def stageOf (x : Nat) : Option StageEnt :=
  let f := fun hi lo => bitsOf x hi lo
  let u := f 78 72
  if entryBad (f 63 0) || f 71 67 != 0 || f 79 79 != 0 || f 255 83 != 0 || u == 0 || decide (64 < u) then none
  else some ⟨BitVec.ofNat 64 (f 63 0), 2 ^ (f 66 64 + 1), 64 * u, f 82 80⟩

def setEntOf (x : Nat) : Option SetEnt :=
  let f := fun hi lo => bitsOf x hi lo
  let w := f 28 16
  if f 15 9 != 0 || f 31 29 != 0 || f 255 64 != 0 || decide (w < 16) || decide (4096 < w) || f 63 32 == 0 then none
  else some ⟨BitVec.ofNat 8 (f 7 0), f 8 8 == 1, w, BitVec.ofNat 32 (f 63 32)⟩

/-- The stages whose entries name set m, counted from 1. -/
def namedMembers (stages : List StageEnt) (m : Nat) : List Nat :=
  (stages.mapIdx fun i e => (i + 1, e)).filterMap fun x => if x.2.set = m then some x.1 else none

/-- The rules of R372 for set m. -/
def setOk (stages : List StageEnt) (m : Nat) (x : SetEnt) : Bool :=
  let l := namedMembers stages m
  let ents := l.map fun i => (stages[i - 1]?).getD ⟨0, 0, 0, 0⟩
  let memb := (List.range 8).filterMap fun i => if x.memb.getLsbD i then some (i + 1) else none
  memb == l && decide (2 ≤ l.length) && (List.range l.length).all (fun i => l[i]? == some (l.headD 0 + i)) &&
    ents.all (fun e => e.slots == (ents.headD ⟨0, 0, 0, 0⟩).slots && e.slotBytes == (ents.headD ⟨0, 0, 0, 0⟩).slotBytes &&
      decide (320 ≤ e.slotBytes)) && !(x.ordered && l.contains stages.length)

/-- The router's state for a launch that starts (R371, R379, R380). -/
def freshPipe (stages : List StageEnt) (sets : List SetEnt) : Pipe :=
  ⟨[], stages, sets, none, [], sets.map fun x => x.seed, stages.map fun _ => ⟨128, 0, 0, 0⟩, sets.map fun _ => 0, 0, 0, false, false, [], false⟩

/-- A descriptor read and checked. -/
def readPipe (s : State) (p : Fin 24) (a : W64) : Except Cause Pipe × State :=
  match tableBytes s p a 16 with
  | (.error c, t) => (.error c, t)
  | (.ok h, t) =>
    let x := leNat h
    let ns := x % 16
    let nm := bitsOf x 6 4
    if ns < 2 ∨ 8 < ns ∨ 4 < nm ∨ x / 2 ^ 7 ≠ 0 then (.error 0x3B, t)
    else
      match tableBytes t p a (16 + 32 * ns + 32 * nm) with
      | (.error c, u) => (.error c, u)
      | (.ok l, u) =>
        match allSome ((List.range ns).map fun i => stageOf (bytesAt l (16 + 32 * i) 32)),
          allSome ((List.range nm).map fun i => setEntOf (bytesAt l (16 + 32 * ns + 32 * i) 32)) with
        | some stages, some sets =>
          if stages.any (fun e => decide (nm < e.set)) || !(sets.mapIdx fun i m => setOk stages (i + 1) m).all (fun b => b) then
            (.error 0x3B, u)
          else (.ok (freshPipe stages sets), u)
        | _, _ => (.error 0x3B, u)

/-! ### Examination of a launch (R33, R363, R460) -/

/-- What the admitter learns of a launch, or the cause with which the launch is returned whole. -/
def examineLaunch (s : State) (l : Launch) : Except Cause (Launch → Launch) × State :=
  let r := l.snap
  if r.malformed || ((s.parts[l.part]).lockstep && (r.nover || r.pipe != 0)) then (.error 0x3B, s)
  else
    match readTable s l.part r.sched with
    | (.error c, t) => (.error c, t)
    | (.ok (vs, k), t) =>
      match selectVariant vs r.size.toNat (fun _ => true) with
      | none => (.error 0x3A, t)
      | some (i, v) =>
        if r.pipe = 0 then (.ok fun x => { x with variants := vs, chosen := i, sizek := Fin.ofNat 32 k }, t)
        else if v.waves ≠ 1 then (.error 0x3B, t)
        else
          match readPipe t l.part r.pipe with
          | (.error c, u) => (.error c, u)
          | (.ok q, u) => (.ok fun x => { x with variants := vs, chosen := i, sizek := Fin.ofNat 32 k, pipe := some q }, u)

/-! ### The head launch (R364, R408) -/

/-- Whether a launch has gangs to admit; a record of no gangs stands until its examination returns it. -/
def hasGangs (l : Launch) : Bool := !l.again.isEmpty || l.snap.gcount == 0 || decide (l.nextGang < l.snap.gcount)

/-- The first launch of a queue that has gangs to admit. -/
def queueHead (s : State) (p : Fin 24) (q : Fin 8) : Option Launch :=
  ((s.parts[p]).launchQ[q]).findSome? fun k => (findLaunch s k).bind fun l => if hasGangs l then some l else none

/-- The head launch of highest PRIO, then of the lowest queue. -/
def headLaunch (s : State) (p : Fin 24) : Option Launch :=
  let heads := ((List.finRange 8).filterMap (queueHead s p)).filter fun l => !l.heldByHost
  match heads with
  | [] => none
  | x :: xs => some (xs.foldl (fun a b => if a.snap.prio < b.snap.prio then b else a) x)

/-- The next gang of a launch: relaunched gangs first (R431). -/
def nextGangOf (l : Launch) : W32 := l.again.headD (BitVec.ofNat 32 l.nextGang)

/-! ### Blocks (R24, R36, R324, R373) -/

/-- What a gang needs of a block. -/
structure Need where
  groups : Nat
  waves : Nat
  entries : Nat
  spad : Nat
  meas : Bool
  cluster : Option (Fin 24)
  deriving DecidableEq, Repr

/-- The cores of the block at position m of a cluster. -/
def blockCores (cl : Fin 24) (g m : Nat) : List (Fin 192) := (List.range g).map fun i => Fin.ofNat 192 (8 * cl.val + g * m + i)

/-- The core of the same number on die 1, which runs the other half of a lockstep partition's waves (R29). -/
def twinOf (u : Fin 192) : Fin 192 := Fin.ofNat 192 (u.val + 96)

/-- A core in service, that no test holds; in a lockstep partition with the one beside it on die 1 (R29, R435, R463). -/
def coreUsable (s : State) (p : Fin 24) (u : Fin 192) : Bool :=
  let ok := fun (c : Fin 192) => !s.cores[c].outOfService && !s.cores[c].testing
  ok u && (!(s.parts[p]).lockstep || ok (twinOf u))

/-- The cluster on which a pipeline launch is admitted (R373): that of its first gang, as long as a gang of it stands there and a block of it is in service; otherwise replay goes to another (R435). -/
def pipeCluster (s : State) (l : Launch) (g : Nat) : Option (Fin 24) :=
  (l.pipe.bind fun q => q.cluster).filter fun cl =>
    (s.gangs.any fun x => x.key.launch == l.key && clusterOf x.block == cl) &&
      (List.range (8 / g)).any fun m => (blockCores cl g m).all (coreUsable s l.part)

def needOf (s : State) (l : Launch) (v : VariantEnt) : Need :=
  ⟨2 ^ v.gshape, v.waves, footprintOf v.nregs v.mirror, v.spad, l.snap.meas, pipeCluster s l (2 ^ v.gshape)⟩

/-- The aligned blocks of a partition, lowest first; a lockstep partition's stand on die 0. -/
def blocksOf (s : State) (p : Fin 24) (x : Need) : List (List (Fin 192)) :=
  let ok := fun (cl : Fin 24) => (s.parts[p]).clusters.getLsbD cl.val && (x.cluster.all fun y => y == cl) &&
    !((s.parts[p]).lockstep && decide (12 ≤ cl.val))
  ((List.finRange 24).filter ok).flatMap fun cl => (List.range (8 / x.groups)).map fun m => blockCores cl x.groups m

/-- Groups that stand on a core. -/
def coreGroups (s : State) (u : Fin 192) : List Group := s.groups.filter fun g => g.core == u && !gangAway s g.gang

/-- The granules of a core that no allocation holds, of 112 (R240). -/
def freeSpad (s : State) (u : Fin 192) : Nat := 112 - (coreGroups s u).foldl (fun n g => n + g.spadSize) 0

/-- Whether a gang with a measurement grant stands on a core (R324). -/
def measured (s : State) (u : Fin 192) : Bool := (coreGroups s u).any fun g => (findGang s g.gang).any fun x => x.meas

/-- Base and slots of a group on a core, when the core meets R36. -/
def coreFits (s : State) (p : Fin 24) (x : Need) (u : Fin 192) : Option (Fin 4 × List (Fin 48)) :=
  if coreUsable s p u && decide (x.spad ≤ freeSpad s u) && !(x.meas && measured s u) then findBase s u x.waves else none

/-- The lowest block that meets R36, with the places of the groups. -/
def findBlock (s : State) (p : Fin 24) (bs : List (List (Fin 192))) (x : Need) : Option (List (Fin 192 × Fin 4 × List (Fin 48))) :=
  bs.findSome? fun b => allSome (b.map fun u => (coreFits s p x u).map fun r => (u, r.1, r.2))

/-! ### ADMIT_GANG (R365, R368, R408) -/

/-- A fresh group of a gang. -/
def freshGroup (k : GangKey) (i : Nat) (spad : Nat) (x : Fin 192 × Fin 4 × List (Fin 48)) : Group :=
  ⟨k, Fin.ofNat 8 i, x.1, x.2.1, x.2.2, [], spad, [], [], [], Vector.replicate 4 [], Vector.replicate 8 (Vector.replicate 6 0), 0, none,
    false, none, none, false, none, []⟩

/-- The task of a gang that starts: a relaunched gang keeps its task (R431). -/
def gangTask (s : State) (l : Launch) (idx : W32) : State :=
  let tid := taskId false idx.toNat l.acc
  if (findTask s tid l.part).isSome then
    onTask s tid l.part fun t => { t with ended := false, waves := [], deferred := [], digest := 0 }
  else
    let versioned := !l.snap.nover && l.snap.pipe == 0
    { s with tasks := s.tasks ++
        [⟨tid, l.part, ⟨l.key, idx⟩, none, versioned, l.snap.idem, 0, 0, false, false, [], 0, l.addr, 0, 0, [], false, [], [], none, 0, {}, [], 0, false⟩] }

/-- The launch after the admission of its next gang. -/
def afterAdmit (cl : Fin 24) (l : Launch) : Launch :=
  let l1 := if l.again.isEmpty then { l with nextGang := l.nextGang + 1 } else { l with again := l.again.tail }
  { l1 with spills := false, pipe := l1.pipe.map fun q => { q with cluster := some cl } }

/-- The groups of a gang placed, and their waves started: those of a task-serving gang become idle. -/
def startGang (s : State) (l : Launch) (v : VariantEnt) (places : List (Fin 192 × Fin 4 × List (Fin 48))) : State :=
  let idx := nextGangOf l
  let k : GangKey := ⟨l.key, idx⟩
  let n := places.length
  let groups := places.mapIdx fun i x => freshGroup k i v.spad x
  let block := (places.head?.map fun x => x.1).getD 0
  let g : Gang := ⟨k, l.part, block, n, v.waves, [], none, l.snap.meas, []⟩
  let s1 := gangTask s l idx
  let s2 := { s1 with gangs := s1.gangs ++ [g], groups := s1.groups ++ groups }
  let wipe := fun (t : State) (x : Fin 192 × Fin 4 × List (Fin 48)) =>
    if l.snap.meas then onCore t x.1 fun u => { u with pm := Vector.replicate 4 ⟨0, false, 0⟩ } else t
  let s3 := places.foldl wipe s2
  let s4 := onLaunch s3 l.key (afterAdmit (clusterOf block))
  if l.snap.tserv then groups.foldl (fun t y => idleGroup t k y.index) s4
  else
    let info : StartInfo := ⟨v.entry, l.snap.arg, 0, l.addr, Fin.ofNat 8 l.chosen, taskId false idx.toNat l.acc⟩
    settlePrio (groups.foldl (fun t y => startWaves l v info y 0 y.slots t) s4)

/-- Whether the next gang of a launch may start beside other versioned tasks (R432). -/
def gangMayStart (s : State) (l : Launch) : Bool :=
  let tid := taskId false (nextGangOf l).toNat l.acc
  let versioned := !l.snap.nover && l.snap.pipe == 0
  mayStart s l.part tid versioned ((findTask s tid l.part).any fun t => t.alone) l.snap.tserv

/-- What the admitter does next. -/
inductive Admit where
  | none
  | examine (l : Launch)
  | place (l : Launch) (v : VariantEnt) (x : List (Fin 192 × Fin 4 × List (Fin 48)))
  /-- No block meets R36. -/
  | blocked (l : Launch) (x : Need)

/-- The admitter's next step for a partition. A gang starts once its block's die has applied what the acquire at the launch's acceptance covers (R278, R290). -/
def admitStage (s : State) (p : Fin 24) : Admit :=
  if !partServes s p then .none
  else
    match headLaunch s p with
    | none => .none
    | some l =>
      if l.variants.isEmpty then .examine l
      else
        match variantAt l.variants l.chosen with
        | none => .none
        | some v =>
          if !gangMayStart s l then .none
          else
            match findBlock s p (blocksOf s p (needOf s l v)) (needOf s l v) with
            | some x => if clkLe l.seen s.dies[(x.head?.map fun y => coreDie y.1).getD 0].applied then .place l v x else .none
            | none => .blocked l (needOf s l v)

/-- A launch examined: its table stands ready, or it is returned whole. -/
def examined (s : State) (l : Launch) : State :=
  match examineLaunch s l with
  | (.error c, t) => finishLaunch t l.key (some c)
  | (.ok f, t) => onLaunch t l.key f

/-- ADMIT_GANG: the head launch is examined, or its next gang starts. -/
def execAdmitGang (p : Fin 24) (s : State) : Out :=
  match admitStage s p with
  | .examine l => .next (examined s l)
  | .place l v x => .next (startGang s l v x)
  | _ => .next s

/-! ### Eviction (R409, R434) -/

/-- Gang priority (R409). -/
def gangPrio (s : State) (k : GangKey) : Nat :=
  ((liveWaves s).filter fun w => w.ids.gang == k).foldl (fun m w => max m w.eprio.val) 0

/-- A wave whose loads have returned. -/
def drained (w : Wave) : Bool := flightCount w .gload == 0 && flightCount w .aload == 0

/-- Whether an operation names the aperture: by a source, its destination, its completion object or its last register (R320, R360). -/
def namesAperture (s : State) (o : CopyOp) : Bool :=
  let more : Bool := match o.kind with
    | .gather addrs active => laneList.any fun l => active.getLsbD l.val && inAperture s addrs[l].toNat
    | _ => false
  inAperture s o.src.toNat || inAperture s o.dst.toNat || (o.compl != 0 && inAperture s o.compl.toNat) || inAperture s o.scale.toNat || more

/-- Whether an accepted operation of a gang that names its scratchpads is under way; of a stream record, a tile (R320, R352, R360). -/
def copiesIn (s : State) (k : GangKey) : Bool :=
  let mine := fun (o : CopyOp) => o.who.gang == some k && o.seq != 0 && namesAperture s o
  let here := fun (d : Fin 2) =>
    s.dies[d].copyRun.any mine ||
      s.dies[d].chans.toList.any fun x => x.inService.any fun r =>
        r.op.any fun o => if isStream r.snap then o.who.gang == some k && o.moved.isSome else mine o && !r.finished
  here 0 || here 1

/-- The waves of a gang that have started and not ended. -/
def gangWaves (s : State) (k : GangKey) : List Wave := (liveWaves s).filter fun w => w.ids.gang == k

/-- Whether a whole gang can be evicted now: no window, loads returned, copies complete. Its commands stop between K-steps (R311). -/
def gangEvictable (s : State) (k : GangKey) (windows : Bool) : Bool :=
  (gangWaves s k).all (fun w => drained w && (windows || !w.npOpen)) && !copiesIn s k

/-- A gang of lower priority that stands on some core of a block. -/
def lowerGangs (s : State) (prio : Nat) (b : List (Fin 192)) : List GangKey :=
  (s.groups.filter fun g => b.contains g.core && !gangAway s g.gang && decide (gangPrio s g.gang < prio)).map (fun g => g.gang)
    |>.eraseDups

/-- Gangs in ascending gang priority. -/
def byPrio (s : State) (l : List GangKey) : List GangKey :=
  l.foldr (fun k acc => (acc.takeWhile fun y => decide (gangPrio s y < gangPrio s k)) ++ k ::
    acc.dropWhile fun y => decide (gangPrio s y < gangPrio s k)) []

/-- The commands of a gang on a core, the accepted ones first (R311). -/
def commandsOf (s : State) (k : GangKey) (c : Fin 192) : List MxEntry :=
  let mine := fun (l : List MxEntry) => l.filter fun e => e.who.gang == some k
  (mine s.cores[c].mxQueue).map (fun e => { e with again := true }) ++ mine s.cores[c].mxWait

/-- The whole gang leaves its cores (R311, R324, R409): its private lines are written back (R239, R250), and a step that has not run gives up its pins and fetches again (R300). -/
def evictGang (s : State) (k : GangKey) : State :=
  let groups := s.groups.filter fun g => g.gang == k
  let saved := groups.flatMap fun g => commandsOf s k g.core
  let meas := (findGang s k).any fun g => g.meas
  let keep := fun (t : State) (g : Group) =>
    let t1 := if meas then onGroup t k g.index fun y => { y with pmSaved := some (t.cores[g.core].pm) } else t
    onCore (unpinTiles t1 g.core) g.core fun u =>
      { u with
        mxQueue := u.mxQueue.filter fun e => e.who.gang != some k
        mxWait := u.mxWait.filter fun e => e.who.gang != some k
        bound := u.bound.filter fun b => b.1 != k
        pm := if meas then Vector.replicate 4 ⟨0, false, 0⟩ else u.pm }
  let s1 := (gangWaves s k).foldl writeBackAll (groups.foldl keep s)
  let s2 := onGang s1 k fun g => { g with evictedAt := some s1.nextKey, saved := saved }
  let out := fun (w : Wave) =>
    if w.ids.gang = k ∧ w.run ≠ .ended ∧ w.run ≠ .held then { w with run := .evicted } else w
  onWaves { s2 with nextKey := s2.nextKey + 1 } out

/-- One wave leaves its slot, its private lines written back; `readySince` keeps the time of its eviction. -/
def evictWave (s : State) (t : W32) : State :=
  let s1 := ((findWave s t).map (writeBackAll s)).getD s
  onToken { s1 with nextKey := s.nextKey + 1 } t fun w => { w with run := .evicted, readySince := s.nextKey }

/-- The waves of a gang that an eviction would take: those that are not away (R409). -/
def standingWaves (s : State) (k : GangKey) : List Wave := (gangWaves s k).filter fun w => w.run != .evicted

/-- A state with gangs evicted in order until the block meets R36; none when it never does. -/
def evictUntil (p : Fin 24) (x : Need) (b : List (Fin 192)) (windows : Bool) : List GangKey → State → Option (List GangKey)
  | l, s =>
    if (findBlock s p [b] x).isSome then some []
    else
      match l with
      | [] => none
      | k :: rest =>
        if (gangWaves s k).any fun w => w.npOpen && !windows then evictUntil p x b windows rest s
        else (evictUntil p x b windows rest (evictGang s k)).map fun y => k :: y

/-- Waves of lower gangs on a sub-core that partial eviction may take, lowest EPRIO first. -/
def victimsOn (s : State) (windows : Bool) (gangs : List GangKey) (u : Fin 192) (sub : Nat) : List Wave :=
  let l := (liveWaves s).filter fun w => w.ids.core == u && w.ids.slot.val / 12 == sub && gangs.contains w.ids.gang && (windows || !w.npOpen) &&
    w.run != .evicted && w.run != .held && !gangAway s w.ids.gang
  l.foldr (fun w acc => (acc.takeWhile fun y => decide (y.eprio < w.eprio)) ++ w :: acc.dropWhile fun y => decide (y.eprio < w.eprio)) []

/-- The waves to evict on one sub-core: until n slots and, as far as that goes, their register entries are free; none when slots stay short. -/
def victimsFor (s : State) (x : Need) (u : Fin 192) (sub n : Nat) (l : List Wave) : Option (List W32) :=
  let slot : Fin 48 := Fin.ofNat 48 (12 * sub)
  let used := ((usedSlots s u).filter fun i => i.val / 12 == sub).length
  let held := entriesUsed s u slot
  let enough := fun (m : Nat) => decide (used - m + n ≤ 12) &&
    (n == 0 || decide (held - ((l.take m).filter isResident).foldl (fun a w => a + footprint w) 0 + n * x.entries ≤ 384))
  match (List.range (l.length + 1)).find? enough with
  | some m => some ((l.take m).map fun w => w.ids.token)
  | none => if used - l.length + n ≤ 12 then some (l.map fun w => w.ids.token) else none

/-- The waves to evict on one core for a base (R36). -/
def victimsAt (s : State) (windows : Bool) (x : Need) (gangs : List GangKey) (u : Fin 192) (b : Nat) : Option (List W32) :=
  let count := fun (sub : Nat) => ((List.range x.waves).filter fun i => (b + i) % 4 == sub).length
  (allSome ((List.range 4).map fun sub => victimsFor s x u sub (count sub) (victimsOn s windows gangs u sub))).map fun l => l.flatten

/-- The shortest of some lists, the first of equals. -/
def shortest {α : Type} (l : List (List α)) : Option (List α) :=
  match l with
  | [] => none
  | x :: xs => some (xs.foldl (fun a b => if b.length < a.length then b else a) x)

/-- How a block can be cleared. -/
inductive Clearing where
  | waves (l : List W32)
  | gangs (l : List GangKey)
  deriving DecidableEq, Repr

/-- The clearing of one block with the number of waves that leave (R409), with or without the waves of open windows. -/
def clearing (s : State) (p : Fin 24) (windows : Bool) (prio : Nat) (x : Need) (b : List (Fin 192)) : Option (Nat × Clearing) :=
  let lower := lowerGangs s prio b
  if !b.all (coreUsable s p) || lower.isEmpty || (x.meas && b.any (measured s) &&
      !(b.all fun u => !measured s u || decide (freeSpad s u < x.spad))) then none
  else if b.all fun u => decide (x.spad ≤ freeSpad s u) then
    (allSome (b.map fun u => shortest ((List.range 4).filterMap (victimsAt s windows x lower u)))).map fun l =>
      (l.flatten.length, .waves l.flatten)
  else
    (evictUntil p x b windows (byPrio s lower) s).map fun l => ((l.flatMap (standingWaves s)).length, .gangs l)

/-- The clearing that needs the fewest waves evicted, the lowest block first. -/
def chooseClearing (s : State) (p : Fin 24) (windows : Bool) (prio : Nat) (x : Need) (bs : List (List (Fin 192))) : Option Clearing :=
  match bs.filterMap (clearing s p windows prio x) with
  | [] => none
  | y :: ys => some (ys.foldl (fun a b => if b.1 < a.1 then b else a) y).2

/-- The bytes of an evicted context (R434), of a trap frame in lines of 128 bytes (R151), of a saved tile (R242; log entry 23). -/
def contextBytes : Nat := 589824
def frameBytes : Nat := 2688
def tileBytes : Nat := 16384

/-- The logical tiles of a core's groups that hold values and have given way to others (R242). -/
def savedTiles (s : State) (c : Fin 192) : Nat :=
  ((s.groups.filter fun g => g.core == c && !gangAway s g.gang).flatMap fun g => (List.finRange 4).filter fun i =>
    !(g.tiles[i]).isEmpty && !s.cores[c].bound.contains (g.gang, g.index, i)).length

/-- What the waves that are not evicted and the groups of a die hold in its context partition: frames, parked registers, saved tiles (R248). -/
def contextHeld (s : State) (d : Fin 2) : Nat :=
  let ws := (liveWaves s).filter fun w => waveDie w == d && w.run != .evicted && !gangAway s w.ids.gang
  let one := fun (w : Wave) => (if w.handler then frameBytes else 0) + if isResident w then 0 else 128 * footprint w
  let cores := ((s.groups.filter fun g => coreDie g.core == d).map fun g => g.core).eraseDups
  ws.foldl (fun n w => n + one w) 0 + tileBytes * cores.foldl (fun n c => n + savedTiles s c) 0

/-- The contexts of 576 KiB that find room in a die's context partition beside them (R248, R434, log entry 23). -/
def contextSlots (s : State) (d : Fin 2) : Nat := (s.dies[d].ctxsize.toNat * 2 ^ 20 - contextHeld s d) / contextBytes

/-- The evicted waves of a die. -/
def evictedWaves (s : State) (d : Fin 2) : List Wave :=
  (liveWaves s).filter fun w => waveDie w == d && (w.run == .evicted || gangAway s w.ids.gang)

/-- Evicted contexts of a die. -/
def contextUsed (s : State) (d : Fin 2) : Nat := (evictedWaves s d).length

/-- The evicted contexts of a partition on a die. -/
def contextsOf (s : State) (p : Fin 24) (d : Fin 2) : Nat := ((evictedWaves s d).filter fun w => w.ids.part == p).length

/-- The HBM slots of a partition: one for each wave slot of its cores (R434). -/
def poolSlots (s : State) (p : Fin 24) : Nat :=
  48 * 8 * ((List.finRange 24).filter fun cl => (s.parts[p]).clusters.getLsbD cl.val).length

/-- The free slots of a partition's pool for contexts of a die: the contexts of the other die hold those that its context partition has no room for. -/
def poolFree (s : State) (p : Fin 24) (d : Fin 2) : Nat :=
  let o : Fin 2 := if d = 0 then 1 else 0
  poolSlots s p - min (contextsOf s p o) (contextUsed s o - contextSlots s o)

/-- Whether n more contexts of a partition find slots on a die: those of every partition that the context partition does not hold stand in free slots of their own partition's pool (R434). -/
def contextsFit (s : State) (p : Fin 24) (d : Fin 2) (n : Nat) : Bool :=
  let out := (List.finRange 24).foldl (fun m q => m + min (contextsOf s q d + if q = p then n else 0) (poolFree s q d)) 0
  decide (contextUsed s d + n ≤ contextSlots s d + out)

/-- Where the contexts of an eviction find room. -/
inductive Context where
  | fits | host | waits
  deriving DecidableEq, Repr

def contextRoom (s : State) (l : Launch) (d : Fin 2) (n : Nat) : Context :=
  if contextUsed s d + n ≤ contextSlots s d then .fits
  else if (s.parts[l.part]).pfmode.getLsbD 7 && !l.spills then .host
  else if contextsFit s l.part d n then .fits
  else .waits

/-- The waves that a clearing takes. -/
def clearedWaves (s : State) (x : Clearing) : List Wave :=
  match x with
  | .waves l => (liveWaves s).filter fun w => l.contains w.ids.token
  | .gangs l => l.flatMap (standingWaves s)

/-- Whether a clearing can be carried out now. -/
def clearingReady (s : State) (x : Clearing) : Bool :=
  match x with
  | .waves _ => (clearedWaves s x).all drained
  | .gangs l => l.all fun k => gangEvictable s k false

/-- The incoming gang is parked for the host (R41). No cause is named for a full context partition: the message carries 0. -/
def holdAdmission (s : State) (l : Launch) : State :=
  let tid := taskId false (nextGangOf l).toNat l.acc
  let s1 := onLaunch s l.key fun x => { x with heldByHost := true }
  tellHost (onPart s1 l.part fun p => { p with parked := ⟨tid, 0, []⟩ :: p.parked }) (.parked l.part tid 0)

/-- The pre-emption that a partition's head launch makes, if any. -/
def preemption (s : State) (p : Fin 24) : Option State :=
  match admitStage s p with
  | .blocked l x =>
    (match chooseClearing s p false l.snap.prio.val x (blocksOf s p x) with
      | none => none
      | some y =>
        if !clearingReady s y then none
        else
          let ws := clearedWaves s y
          let d := (ws.head?.map waveDie).getD 0
          match contextRoom s l d ws.length with
          | .waits => none
          | .host => some (holdAdmission s l)
          | .fits =>
            match y with
            | .waves m => some (m.foldl evictWave s)
            | .gangs m => some (m.foldl evictGang s))
  | _ => none

/-- Whether a pre-emption takes a wave now or waits for windows to close that hold it back (R206). -/
def preemptWants (s : State) (w : Wave) : Bool :=
  match admitStage s w.ids.part with
  | .blocked l x =>
    let try1 := fun (open1 : Bool) => chooseClearing s w.ids.part open1 l.snap.prio.val x (blocksOf s w.ids.part x)
    ((try1 false).or (try1 true)).any fun y =>
      let ws := clearedWaves s y
      ws.any (fun v => v.ids.token == w.ids.token) && contextRoom s l ((ws.head?.map waveDie).getD 0) ws.length != .waits
  | _ => false

/-- PREEMPT_EVICT. -/
def execPreemptEvict (p : Fin 24) (s : State) : Out := .next ((preemption s p).getD s)

/-! ### Resumption (R264, R311, R411) -/

/-- What may resume, with its priority and the time of its eviction. -/
inductive Evicted where
  | gang (k : GangKey)
  | wave (t : W32)
  deriving DecidableEq, Repr

/-- The evicted gangs and waves of a partition, in the order of R411. -/
def evictedList (s : State) (p : Fin 24) : List Evicted :=
  let gs := s.gangs.filterMap fun g => if g.part = p then g.evictedAt.map fun t => (gangPrio s g.key, t, Evicted.gang g.key) else none
  let ws := ((liveWaves s).filter fun w => w.ids.part == p && w.run == .evicted && !gangAway s w.ids.gang).map fun w =>
    (gangPrio s w.ids.gang, w.readySince, Evicted.wave w.ids.token)
  let before := fun (x y : Nat × Nat × Evicted) => decide (y.1 < x.1) || (x.1 == y.1 && decide (x.2.1 ≤ y.2.1))
  ((gs ++ ws).foldr (fun x acc => (acc.takeWhile fun y => !before x y) ++ x :: acc.dropWhile fun y => !before x y) []).map fun x => x.2.2

/-- How a wave that resumes goes on: held while an item with it, or its task, waits for the host (R43); resident when its footprint fits. -/
def resumedRun (s : State) (w : Wave) : Run :=
  if w.run == .held || (s.parts[w.ids.part]).parked.any fun i =>
      i.tokens.contains w.ids.token || (i.tid == w.ids.tid && i.cause == 0x49) then .held
  else if entriesUsed s w.ids.core w.ids.slot + footprint w ≤ 384 then .running
  else .parked

/-- The backing area of a wave in another slot: its bytes move with it (R239, log entry 43). -/
def rebase (w : Wave) (base : W64) : Wave :=
  { w with pbase := base, backing := w.backing.map fun b => (b.1 - w.pbase.toNat + base.toNat, b.2) }

/-- A wave that has been parked or away checks its barrier again: a wait that ended meanwhile begins anew where the phase has come back (R330). -/
def checkAgain (w : Wave) : Wave :=
  { w with wait := w.wait.filter fun l => !(l.granted && (match l.what with | .phase _ => true | _ => false)) }

/-- A wave back in a slot of a core: it takes an acquire epoch there (R243), and the core fetches anew (R93). -/
def resumeWave (s : State) (t : W32) (u : Fin 192) (slot : Fin 48) : State :=
  match findWave s t with
  | none => s
  | some w =>
    let w1 := checkAgain (rebase { w with ids := { w.ids with core := u, slot := slot } } (Config.privateBase w.ids.part.val u.val slot.val))
    let r := acquireStep (onCore s u fun c => { c with icache := [] }) w1
    onToken r.1 t fun _ => { r.2 with run := resumedRun r.1 w1, readySince := s.free }

/-- The blocks on which an evicted gang may resume: those of the die of its pins first, others only where every pin fits (R264). -/
def resumeBlocks (s : State) (g : Gang) (x : Need) : List (List (Fin 192)) :=
  let bs := blocksOf s g.part x
  if g.pins.isEmpty then bs
  else
    let home := coreDie g.block
    let far : Fin 2 := if home = 0 then 1 else 0
    let on := fun (d : Fin 2) => bs.filter fun b => (b.head?.map coreDie).getD 0 == d
    if pinOver s far (g.pins.flatMap fun r => r.lines) then on home else on home ++ on far

/-- What an evicted gang needs: the allocations as admitted. -/
def gangNeed (s : State) (g : Gang) : Need :=
  let cluster := (findLaunch s g.key.launch).bind fun l => pipeCluster s l g.groups
  let spad := ((s.groups.find? fun y => y.gang == g.key).map fun y => y.spadSize).getD 0
  ⟨g.groups, g.waves, 0, spad, g.meas, cluster⟩

/-- An issuer moved with its group. -/
def movedIssuer (u : Fin 192) (slots : List (Fin 48)) (old : List (Fin 48)) (w : Issuer) : Issuer :=
  let i := (old.takeWhile fun y => y != w.slot).length
  { w with core := u, slot := (slots[i]?).getD w.slot }

/-- Copies of a group that wait in an issue buffer go with it to its new core. -/
def moveWaiting (s : State) (g : Group) (u : Fin 192) (slots : List (Fin 48)) : State :=
  let mine := fun (o : CopyOp) => o.who.gang == some g.gang && o.who.group == g.index
  let out := s.dies[coreDie g.core].copyWait.filter mine
  if out.isEmpty then s
  else
    let s1 := onDie s (coreDie g.core) fun d => { d with copyWait := d.copyWait.filter fun o => !mine o }
    onDie s1 (coreDie u) fun d => { d with copyWait := d.copyWait ++ out.map fun o => { o with who := movedIssuer u slots g.slots o.who } }

/-- The idle wait of a group stands under the agent of its new core. -/
def moveIdle (s : State) (g : Group) (u : Fin 192) : State :=
  { s with engWaits := s.engWaits.map fun e => if idleWait e g then { e with agent := idleAgent u } else e }

/-- One group put on its new core: slots, counters, saved commands, waves (R311, R324). The commands are accepted anew, ahead of any new one of the gang. -/
def resumeGroup (saved : List MxEntry) (s : State) (y : Group × Fin 192 × Fin 4 × List (Fin 48)) : State :=
  let g := y.1
  let u := y.2.1
  let slots := y.2.2.2
  let mine := (saved.filter fun e => e.who.group == g.index).map fun e => { e with who := movedIssuer u slots g.slots e.who }
  let s1 := onGroup (moveIdle (moveWaiting s g u slots) g u) g.gang g.index fun x => { x with core := u, base := y.2.2.1, slots := slots, pmSaved := none }
  let s2 := onCore s1 u fun x => { x with mxWait := x.mxWait ++ mine, pm := g.pmSaved.getD x.pm }
  let ws := (gangWaves s g.gang).filter fun w => w.ids.group == g.index
  ws.foldl (fun t w => resumeWave t w.ids.token u ((slots[w.ids.wave.val]?).getD w.ids.slot)) s2

/-- The lines of a gang's pins are brought into the L2 of the die on which it resumes (R264). -/
def bringPins (s : State) (g : Gang) (block : Fin 192) : State :=
  if coreDie block = coreDie g.block then s
  else (g.pins.flatMap fun r => r.lines).foldl (fun t line => touchL2 t (coreDie block) line none) s

/-- A gang back on a block. -/
def resumeGang (s : State) (g : Gang) (places : List (Fin 192 × Fin 4 × List (Fin 48))) : State :=
  let groups := s.groups.filter fun y => y.gang == g.key
  let pairs := places.mapIdx fun i x => (groups.find? fun y => y.index.val == i).map fun y => (y, x)
  let block := (places.head?.map fun x => x.1).getD 0
  let s1 := bringPins (onGang s g.key fun y => { y with evictedAt := none, block := block, saved := [] }) g block
  settlePrio ((pairs.filterMap id).foldl (resumeGroup g.saved) s1)

/-- The resumption of one gang or wave, when it can take place. -/
def resumption (s : State) (x : Evicted) : Option State :=
  match x with
  | .gang k =>
    (match findGang s k with
      | none => none
      | some g =>
        let n := gangNeed s g
        (findBlock s g.part (resumeBlocks s g n) n).map (resumeGang s g))
  | .wave t =>
    match findWave s t with
    | none => none
    | some w =>
      if (usedSlots s w.ids.core).contains w.ids.slot || !coreUsable s w.ids.part w.ids.core then none
      else some (settlePrio (resumeWave s t w.ids.core w.ids.slot))

/-- RESUME_EVICTED: the first in order that finds its place. -/
def execResumeEvicted (p : Fin 24) (s : State) : Out := .next (((evictedList s p).findSome? (resumption s)).getD s)

/-! ### Parking (R37, R38) -/

/-- A wave blocked on an implicit registered wait: one that is over blocks no more (R393). -/
def isBlocked (w : Wave) : Bool := (openWait w).any fun l => !l.explicit

/-- Waves of a wave's sub-core whose footprints may be parked for it, in order: blocked ones, then ready ones of lower EPRIO; none with a load in flight (R38, R268). -/
def parkable (s : State) (w : Wave) : List Wave :=
  let l := (liveWaves s).filter fun x => sameSubCore x w.ids.core w.ids.slot && isResident x && drained x && !gangAway s x.ids.gang
  let sort := fun (l : List Wave) => l.foldr (fun x acc =>
    (acc.takeWhile fun y => decide (y.eprio < x.eprio)) ++ x :: acc.dropWhile fun y => decide (y.eprio < x.eprio)) []
  sort (l.filter isBlocked) ++ sort (l.filter fun x => !isBlocked x && decide (x.eprio < w.eprio))

/-- The waves parked to make room for a wave; none when that does not suffice. -/
def parkFor (s : State) (w : Wave) : Option (List W32) :=
  let used := entriesUsed s w.ids.core w.ids.slot
  let l := parkable s w
  let enough := fun (m : Nat) => decide (used - (l.take m).foldl (fun a x => a + footprint x) 0 + footprint w ≤ 384)
  ((List.range (l.length + 1)).find? enough).map fun m => (l.take m).map fun x => x.ids.token

/-- Whether a parked wave waits for its place in the register file. -/
def wantsEntries (s : State) (w : Wave) : Bool := w.run == .parked && !isBlocked w && !gangAway s w.ids.gang

/-- Whether a ready parked wave is the first of its sub-core (R38). -/
def firstParked (s : State) (w : Wave) : Bool :=
  (liveWaves s).all fun x =>
    x.ids.token == w.ids.token || !sameSubCore x w.ids.core w.ids.slot || !wantsEntries s x || decide (x.eprio < w.eprio) ||
      (x.eprio == w.eprio && decide (w.readySince ≤ x.readySince))

/-- UNPARK_WAVE, with the parking that it takes. -/
def execUnparkWave (token : W32) (s : State) : Out :=
  match findWave s token with
  | none => .next s
  | some w =>
    if !(wantsEntries s w && firstParked s w) then .next s
    else
      match parkFor s w with
      | none => .next s
      | some l =>
        let park := fun (x : Wave) => if l.contains x.ids.token then { x with run := .parked } else x
        .next (onToken (onWaves s park) token fun x => { checkAgain x with run := .running, readySince := s.free })

/-! ### Clock gating (R39, R412) -/

/-- Whether a core has engine work: matrix commands, copies into its scratchpad, those that wait to be accepted too (R39, R412). -/
def coreBusy (s : State) (u : Fin 192) : Bool :=
  let into := fun (d : Fin 2) => (s.dies[d].copyWait ++ dieOps s d).any fun o => (copyCores s o).any fun x => x.1 == u
  !s.cores[u].mxWait.isEmpty || !s.cores[u].mxQueue.isEmpty || into 0 || into 1

/-- The waves admitted on a core. -/
def coreWaves (s : State) (u : Fin 192) : List Wave :=
  (liveWaves s).filter fun w => w.ids.core == u && !gangAway s w.ids.gang && w.run != .evicted

/-- The conditions of R412. -/
def mayGate (s : State) (u : Fin 192) : Bool := !coreBusy s u && (coreWaves s u).all isBlocked

/-- CLOCK_GATE. -/
def execClockGate (u : Fin 192) (s : State) : Out :=
  .next (if mayGate s u then onCore s u fun x => { x with gated := true } else s)

/-- CLOCK_RESTART. -/
def execClockRestart (u : Fin 192) (s : State) : Out :=
  .next (if s.cores[u].gated && !mayGate s u then onCore s u fun x => { x with gated := false } else s)

/-! ### Windows (R206) -/

/-- NOPREEMPT_EXPIRED: the window closes and the wave owes the fault. -/
def execNopreemptExpired (token : W32) (s : State) : Out :=
  match findWave s token with
  | none => .next s
  | some w =>
    if w.npOpen && w.npleft == 0 then
      .next (onToken (windowClosed s w) token fun w => { w with npOpen := false, npOwed := true })
    else .next s

/-! ### Long waits (R398) -/

/-- Whether a wait has lasted longer than its partition's timeout. -/
def waitExpired (s : State) (p : Fin 24) (d : Fin 2) (since : W64) : Bool :=
  let n := (s.parts[p]).pwto.toNat % 2 ^ 32
  n != 0 && decide (n * 1024 < (s.dies[d].clock - since).toNat)

/-- A wave brought to the issuing place. -/
def focusWave (s : State) (t : W32) : State :=
  if s.wave.ids.token = t ∧ s.wave.run ≠ .ended then s
  else
    match s.waves.find? fun w => w.ids.token == t with
    | none => s
    | some w => { s with wave := w, waves := s.wave :: s.waves.filter fun x => x.ids.token != t }

/-- Whether the long wait of a wave has expired where the wave can take its trap. -/
def waveExpired (s : State) (w : Wave) : Bool :=
  (w.run == .running || w.run == .stalled || w.run == .parked) &&
    (openWait w).any fun l => l.long && waitExpired s w.ids.part (opDie s w.ids.part (waveDie w)) l.since

/-- The trap of a wave whose wait is suspected: at its waiting instruction, or at its next one. -/
def suspectWave (s : State) (w : Wave) : State :=
  trapWave (endWait (onWave (focusWave s w.ids.token) fun x => { x with run := if x.run = .stalled then .running else x.run })) 0x53

/-- An instance that waits for a contributor in another package, whose wait has expired; one that has stopped for the host does not expire. -/
def collExpired (s : State) (d : Fin 2) (x : Coll) : Bool :=
  !(farRanks s x.group).isEmpty && x.ended.isNone && !x.parked && (match collStage s x with | .waits | .register _ => true | _ => false) &&
    (x.parts.all fun p => p.moved.isNone) &&
    (x.parts.findSome? fun p => p.who).any fun w => coreDie w.core == d && !engineStopped s w.part (collAgent d) && waitExpired s w.part d x.since

/-- The end of an engine's suspected wait: its operation ends with the cause. -/
def suspectEngine (s : State) (token : W32) : State :=
  let d : Fin 2 := if token.getLsbD 30 then 1 else 0
  let i := token.toNat % 2 ^ 24
  match bitsOf token.toNat 29 24 with
  | 0 =>
    let ch : Fin 96 := Fin.ofNat 96 i
    (match s.engWaits.find? fun e => e.agent == token && e.link.long, (s.dies[d].chans[ch]).inService.bind fun r => r.op with
      | some e, some o => if waitExpired s o.who.part d e.link.since then stopRecord s d ch 0x53 else s
      | _, _ => s)
  | 4 => ((s.colls.find? (collExpired s d)).map fun x => endColl s x 0x53).getD s
  | _ => s

/-- The task whose commit waits under a token, when its wait has expired. -/
def suspectCommit (s : State) (token : W32) : Option Task :=
  (s.engWaits.find? fun e => e.agent == token && e.link.long).bind fun e =>
    s.tasks.find? fun t => commitAgent s t == token && waitExpired s t.part (opDie s t.part (gangDie s t.gang)) e.link.since

/-- SUSPECTED_DEADLOCK. -/
def execSuspectedDeadlock (token : W32) (s : State) : Out :=
  if token.getLsbD 31 then .next (suspectEngine s token)
  else
    match (findWave s token).filter (waveExpired s) with
    | some w => .next (suspectWave s w)
    | none =>
      match suspectCommit s token with
      | some t => .next (commitEnds s t 0x53)
      | none => .next s

/-! ### The scheduler's next step -/

/-- The admission, pre-emption or resumption that a partition can make. -/
def partSchedEvent (s : State) (p : Fin 24) : Option Instr :=
  match admitStage s p with
  | .examine _ | .place _ _ _ => some (.admitGang p)
  | _ =>
    if (preemption s p).isSome then some (.preemptEvict p)
    else if ((evictedList s p).findSome? (resumption s)).isSome then some (.resumeEvicted p)
    else none

/-- The step of a wave that the scheduler owes: a window that has run out, a suspected wait, a place in the register file. -/
def waveSchedEvent (s : State) (w : Wave) : Option Instr :=
  if w.npOpen && w.npleft == 0 then some (.nopreemptExpired w.ids.token)
  else if waveExpired s w then some (.suspectedDeadlock w.ids.token)
  else if wantsEntries s w && firstParked s w && (parkFor s w).isSome then some (.unparkWave w.ids.token)
  else none

/-- The suspected waits of engines. -/
def engineSchedEvent (s : State) : Option Instr :=
  let chan := s.engWaits.find? fun e => e.link.long &&
    if e.agent.getLsbD 31 then (suspectEngine s e.agent) != s else (suspectCommit s e.agent).isSome
  (chan.map fun e => Instr.suspectedDeadlock e.agent).or
    (([(0 : Fin 2), 1].find? fun d => s.colls.any (collExpired s d)).map fun d => .suspectedDeadlock (engToken d 4 0))

/-- The scheduler's next step, if any. -/
def schedEvent (s : State) : Option Instr :=
  ((liveWaves s).findSome? (waveSchedEvent s)).or
    ((if s.launches.isEmpty then none else (List.finRange 24).findSome? fun p =>
        if (s.parts[p]).launchQ.toList.all (fun q => q.isEmpty) then none else partSchedEvent s p).or
      (if s.engWaits.isEmpty && s.colls.isEmpty then none else engineSchedEvent s))

/-- A gated core that must run again, and a core whose clock may stop. -/
def restartEvent (s : State) : Option Instr :=
  if !s.cores.toList.any (fun x => x.gated) then none
  else ((List.finRange 192).find? fun u => s.cores[u].gated && !mayGate s u).map fun u => .clockRestart u

def gateEvent (s : State) : Option Instr :=
  let used := ((liveWaves s).map fun w => w.ids.core).eraseDups
  (used.find? fun u => !s.cores[u].gated && !(coreWaves s u).isEmpty && mayGate s u).map fun u => .clockGate u

end Sys2Proof.Machine
end

