-- ==== Sys2Proof/Machine/Host.lean ====
section
/-!
DEFINITION. The Ndomet command interface: the window's registers (R446, R447, R480, R482), command entries (R448, R449), what a release or a return of a parked item does (R43), partitions (R28, R29, R468).
-/

namespace Sys2Proof.Machine

/-! ### The window's registers (R446, R480) -/

/-- Where an offset of the window leads. -/
inductive RegPlace where
  | package (off : Nat)
  | partition (p : Fin 24) (off : Nat)
  | die (d : Fin 2) (off : Nat)
  | channel (d : Fin 2) (ch : Fin 96) (off : Nat)
  | none
  deriving DecidableEq, Repr

/-- The window's base. -/
def windowBase : Nat := 0xFF * 2 ^ 44

def regPlace (off : Nat) : RegPlace :=
  let o := off - windowBase
  if off < windowBase then .none
  else if o < 0x20 + 8 then .package o
  else if 0x10000 ≤ o ∧ o < 0x12000 then .die (Fin.ofNat 2 ((o - 0x10000) / 0x1000)) (o % 0x1000)
  else if 0x100000 ≤ o ∧ o < 0x100000 + 192 * 0x20 then
    let i := (o - 0x100000) / 0x20
    .channel (Fin.ofNat 2 (i / 96)) (Fin.ofNat 96 (i % 96)) (o % 0x20)
  else if 2 ^ 36 ≤ o ∧ o < 2 ^ 36 + 24 * 0x10000 then .partition (Fin.ofNat 24 ((o - 2 ^ 36) / 0x10000)) (o % 0x10000)
  else .none

/-- Whether a die has admitted work (R248). -/
def dieBusy (s : State) (d : Fin 2) : Bool := s.groups.any fun g => coreDie g.core == d

/-- A physical address that is a multiple of n. -/
def physOk (v : W64) (n : Nat) : Bool := decide (v.toNat < 2 ^ 39) && v.toNat % n == 0

/-- A head that a command chain refuses (R449). -/
def headRefused (head : W64) : Bool := head != 0 && !recordAddrOk head

/-- A kick of a partition's command chain (R449). -/
def kickCommand (s : State) (p : Fin 24) (head : W64) : State :=
  let x : ChainRef := .cmd p
  if headRefused head then reportCommand (onChain s x staleUp) p head 0x3F
  else kickChain s x head (hostIssuer p (partCore s p))

/-- The TLB entries that a test picks are dropped, leaves and others. -/
def dropTlb (s : State) (gone : TlbEntry → Bool) : State :=
  let keep := fun (l : List TlbEntry) => l.filter fun e => !gone e
  { s with
    cores := s.cores.map fun u => { u with tlb := keep u.tlb }
    dies := s.dies.map fun d => { d with tlb := keep d.tlb } }

/-- A write of PTROOT invalidates the partition's entries (R250). -/
def dropPartTlb (s : State) (p : Fin 24) : State := dropTlb s fun e => e.part == p

/-- A write of a partition's register; none when it is refused. -/
def writePartReg (s : State) (p : Fin 24) (off : Nat) (v : W64) : Option State :=
  let put := fun (ok : Bool) (f : Partition → Partition) => if ok then some (onPart s p f) else none
  match off with
  | 0x000 => put (decide (v.toNat < 2 ^ 9)) fun q => { q with pfmode := v }
  | 0x008 => if physOk v 4096 then some (dropPartTlb (onPart s p fun q => { q with ptroot := v }) p) else none
  | 0x010 => put (decide (v.toNat < 2 ^ 16)) fun q => { q with dpid := v }
  | 0x018 => put (isLocalGlobal v.toNat && v.toNat % 2 ^ 20 == 0) fun q => { q with sbbase := v }
  | 0x020 => put true fun q => { q with ctxbase := v }
  | 0x028 => put true fun q => { q with vbase := v }
  | 0x030 => put true fun q => { q with vsize := v }
  | 0x038 => put (decide (v.toNat < 2 ^ 32)) fun q => { q with pwto := v }
  | 0x040 => put (decide (v.toNat < 2 ^ 24)) fun q => { q with qord := v }
  | 0x048 => if headRefused v then none else some (kickCommand s p v)
  | 0x050 => put (isLocalGlobal v.toNat && v.toNat % 8 == 0) fun q => { q with cmdcompl := v }
  | 0x070 => put (physOk v 128) fun q => { q with dzpool := v }
  | _ => none

/-- A write of a die's register; none when it is refused (R248, R399). The lines that a larger context partition displaces leave L2. -/
def writeDieReg (s : State) (d : Fin 2) (off : Nat) (v : W64) : Option State :=
  let put := fun (ok : Bool) (f : Die → Die) => if ok then some (onDie s d f) else none
  match off with
  | 0x000 => (put (decide (8 ≤ v.toNat) && decide (v.toNat ≤ 64) && !dieBusy s d) fun x => { x with ctxsize := v }).map fun t => trimDie t d
  | 0x008 => put (decide (v.toNat ≤ 64)) fun x => { x with vsmax := v }
  | 0x010 => put (v.toNat % 2 ^ 26 == 0) fun x => { x with wftxbase := v }
  | _ => none

/-- A write of a package register; none when it is refused. -/
def writePkgReg (s : State) (off : Nat) (v : W64) : Option State :=
  let put := fun (ok : Bool) (f : Pkg → Pkg) => if ok then some { s with pkg := f s.pkg } else none
  match off with
  | 0x08 => put (decide (v.toNat < 1024)) fun k => { k with rank := v }
  | 0x10 => put (decide (1 ≤ v.toNat) && decide (v.toNat ≤ 1024)) fun k => { k with dsize := v }
  | 0x18 => put true fun k => { k with rmapbase := v }
  | _ => none

/-- A write of a channel register: PART alone is writable, and a reserved bit set refuses it (R353, R480). -/
def writeChanReg (s : State) (d : Fin 2) (ch : Fin 96) (off : Nat) (v : W64) : Option State :=
  let part : W8 := BitVec.ofNat 8 (bitsOf v.toNat 15 8)
  if off = 0 ∧ bitsOf v.toNat 7 2 = 0 ∧ bitsOf v.toNat 63 48 = 0 ∧ (part.toNat < 24 ∨ part = 0xFF) then some (onChan s d ch fun c => { c with part := part }) else none

/-- A write to an offset of the window; none when it is refused, or names no register that can be written (R480). -/
def writeWindow (s : State) (off : Nat) (v : W64) : Option State :=
  match regPlace off with
  | .package o => writePkgReg s o v
  | .partition p o => writePartReg s p o v
  | .die d o => writeDieReg s d o v
  | .channel d ch o => writeChanReg s d ch o v
  | .none => none

/-- What a refused write leaves: a refused kick counts and is reported (R449). -/
def refusedWrite (s : State) (off : Nat) (v : W64) : State :=
  match regPlace off with
  | .partition p 0x048 => kickCommand s p v
  | _ => s

/-- A direct write of the host: refused writes are dropped, and before READY every one is (R469, R480). -/
def directWrite (s : State) (off : Nat) (v : W64) : Out :=
  .next (if s.pkg.ready then (writeWindow s off v).getD (refusedWrite s off v) else s)

/-! ### Reading registers (R17, R353, R472, R480, R482) -/

/-- IDENT (R482): SUMREV 1, the stepping, the part code, FWSVN, FWBUILD. -/
def identWord (k : Pkg) : W64 :=
  BitVec.ofNat 64 (1 + k.stepping.toNat * 2 ^ 8 + 0x07A2 * 2 ^ 16 + k.fwsvn.toNat * 2 ^ 32 + k.fwbuild.toNat * 2 ^ 48)

def pkgWord (k : Pkg) (off : Nat) : W64 :=
  match off with
  | 0x00 => identWord k
  | 0x08 => k.rank
  | 0x10 => k.dsize
  | 0x18 => k.rmapbase
  | 0x20 => k.attptr
  | _ => 0

/-- A partition's register; CMDKICK, which is write-only, reads as zero. -/
def partWord (x : Partition) (off : Nat) : W64 :=
  match off with
  | 0x000 => x.pfmode
  | 0x008 => x.ptroot
  | 0x010 => x.dpid
  | 0x018 => x.sbbase
  | 0x020 => x.ctxbase
  | 0x028 => x.vbase
  | 0x030 => x.vsize
  | 0x038 => x.pwto
  | 0x040 => x.qord
  | 0x050 => x.cmdcompl
  | 0x070 => x.dzpool
  | _ => 0

def dieWord (x : Die) (off : Nat) : W64 :=
  match off with
  | 0x000 => x.ctxsize
  | 0x008 => x.vsmax
  | 0x010 => x.wftxbase
  | _ => 0

/-- The bits of a channel register (R353). -/
def chanBits (c : Chan) (part : Nat) : Nat :=
  c.state.val + part * 2 ^ 8 + c.stale.toNat * 2 ^ 16 + c.dropw.toNat * 2 ^ 32 + c.cur.toNat * 2 ^ 64 + c.last.toNat * 2 ^ 128

/-- The 24 bytes of a channel register, as read; STALE and DROPW are cleared. -/
def readChan (s : State) (x : ChainRef) : Nat × State :=
  let bits := match x with
    | .chan d ch => chanBits s.dies[d].chans[ch] s.dies[d].chans[ch].part.toNat
    | .cmd p => chanBits (s.parts[p]).cmd p.val
  (bits, onChain s x fun c => { c with stale := 0, dropw := 0 })

/-- The word i of a channel register; the fields that a read clears stand in word 0. -/
def chanWord (s : State) (x : ChainRef) (i : Nat) : W64 × State :=
  let r := readChan s x
  (BitVec.ofNat 64 (r.1 / 2 ^ (64 * i)), if i = 0 then r.2 else s)

/-- The area of the certificate chain to which ATTPTR points (R482). -/
def certificateWord (k : Pkg) (off : Nat) : W64 :=
  let base := k.attptr.toNat % 2 ^ 52
  if base ≤ off ∧ off < base + k.attptr.toNat / 2 ^ 52 * 1024 then
    BitVec.ofNat 64 (leNat ((List.range 8).map fun i => Config.certificate (off - base + i)))
  else 0

/-- The word at an offset of the window; an offset that names no register reads as zero (R480). -/
def readWindow (s : State) (off : Nat) : W64 × State :=
  match regPlace off with
  | .package o => (pkgWord s.pkg o, s)
  | .partition p o => if 0x58 ≤ o ∧ o < 0x70 ∧ o % 8 = 0 then chanWord s (.cmd p) ((o - 0x58) / 8) else (partWord s.parts[p] o, s)
  | .die d o => (dieWord s.dies[d] o, s)
  | .channel d ch o => if o < 0x18 ∧ o % 8 = 0 then chanWord s (.chan d ch) (o / 8) else (0, s)
  | .none => (certificateWord s.pkg off, s)

/-- MSTAT (R472). -/
def mstat (k : Pkg) : Nat :=
  (if k.ready then 1 else 0) + (if k.recovery then 2 else 0) + k.failingCheck.val * 4 + k.failedParts * 32

/-- The readings of power and temperature, taken anew (R472). -/
def senseNow (s : State) : State :=
  let read := fun (i : Nat) => BitVec.ofNat 32 (Config.sensor (3 * s.free + i))
  { s with pkg := { s.pkg with power := read 0, tjmax := read 1, tcool := read 2 }, free := s.free + 1 }

/-- A sideband register; RSTREQ, which is write-only, reads as zero. -/
def readSideband (s : State) (addr : Nat) : Nat × State :=
  let now := (senseNow s).pkg
  match addr with
  | 0x00 => (mstat s.pkg, s)
  | 0x04 => (now.power.toNat, senseNow s)
  | 0x08 => (now.tjmax.toNat, senseNow s)
  | 0x0C => (now.tcool.toNat, senseNow s)
  | 0x10 => (s.pkg.testiv.toNat, s)
  | 0x18 => (s.pkg.alert.toNat, s)
  | _ => (0, s)

/-- The value of a register read with the state after it; none where the window refuses the read: before READY it serves reads of IDENT alone (R469), and in recovery none (R470). -/
def readRegister (s : State) (r : ChanSel) : Option (Nat × State) :=
  let word := fun (x : W64 × State) => (x.1.toNat, x.2)
  match r with
  | .sideband a => some (readSideband s a)
  | .window off => if s.pkg.ready ∨ (off = windowBase ∧ !s.pkg.recovery) then some (word (readWindow s off)) else none
  | .chan d ch => if s.pkg.ready then some (readChan s (.chan d ch)) else none
  | .cmdstat p => if s.pkg.ready then some (readChan s (.cmd p)) else none

/-- CHANNEL_REGISTER_READ, and the host's read of any other register: the value goes to the host, and fields that a read clears are cleared (R17, R353). -/
def execChannelRegisterRead (r : ChanSel) (s : State) : Out :=
  match readRegister s r with
  | some (v, t) => .next (tellHost t (.value v))
  | none => .next s

/-! ### Writes of the host -/

def partOffset (p : Fin 24) (o : Nat) : Nat := windowBase + 2 ^ 36 + p.val * 0x10000 + o
def dieOffset (d : Fin 2) (o : Nat) : Nat := windowBase + 0x10000 + d.val * 0x1000 + o

/-- REGISTER_WRITE (R446, R480). -/
def execRegisterWrite (off : Nat) (v : W64) (s : State) : Out := directWrite s off v

/-- PFMODE_WRITE (R40, R42). -/
def execPfmodeWrite (p : Fin 24) (v : W64) (s : State) : Out := directWrite s (partOffset p 0) v

/-- PTROOT_WRITE (R232). -/
def execPtrootWrite (p : Fin 24) (v : W64) (s : State) : Out := directWrite s (partOffset p 8) v

/-- CTXSIZE_WRITE (R248). -/
def execCtxsizeWrite (d : Fin 2) (v : W64) (s : State) : Out := directWrite s (dieOffset d 0) v

/-- VSMAX_WRITE (R248). -/
def execVsmaxWrite (d : Fin 2) (v : W64) (s : State) : Out := directWrite s (dieOffset d 8) v

/-- CMDKICK (R449). -/
def execCmdkick (p : Fin 24) (head : W64) (s : State) : Out := .next (if s.pkg.ready then kickCommand s p head else s)

/-- COMMAND_POLL (R355, R449). -/
def execCommandPoll (p : Fin 24) (s : State) : Out := .next (if pollDue s (.cmd p) then pollAgain s (.cmd p) else s)

/-! ### Command entries (R448) -/

/-- ARG i of a command. -/
def cmdArg (r : RecRun) (i : Nat) : W64 := snapField r.snap (127 + 64 * i) (64 + 64 * i)

/-- The command of an entry: OP 1 to 7, and 8 to 11 for the four forms of OP 8; 0 for none. -/
def cmdCode (r : RecRun) : Nat :=
  let op := recField r.snap 15 8
  if op = 8 then (if (cmdArg r 2).toNat ≤ 3 then 8 + (cmdArg r 2).toNat else 0) else if op < 8 then op else 0

/-- The add at CMDCOMPL (R447, R449); one that fails is reported. -/
def bumpCommand (s : State) (p : Fin 24) : State :=
  let a := (s.parts[p]).cmdcompl
  if a = 0 then s
  else
    match devTranslate s p a.toNat .write with
    | (.ok pa, t) => if lostRead t p none (bytesFrom pa 8) then reportCommand t p a 0x4D else counterBump t pa 1 false (clkNow t)
    | (.error c, t) => reportCommand t p a c

/-- The end of a command: STATUS and OWN = 3, the counter, the chain. -/
def finishCommand (s : State) (p : Fin 24) (r : RecRun) (status : Cause) : State :=
  nextRecord (bumpCommand (returnRecord s r status) p) (.cmd p) r

/-- What a command does: its state and its STATUS, or a wait. -/
abbrev CmdRun := State → Fin 24 → RecRun → Option (State × Cause)

/-- The command in service, when it has a code: it is carried out and ends, or waits. An entry whose OP names no command is returned. -/
def runCommand (code : Nat) (f : CmdRun) (p : Fin 24) (s : State) : State :=
  match (s.parts[p]).cmd.inService with
  | none => s
  | some r =>
    if cmdCode r = 0 then finishCommand s p r 0x3B
    else if cmdCode r ≠ code then s
    else
      match f s p r with
      | none => s
      | some (t, c) => finishCommand t p r c

/-- The record address of a submit command, translated for writing. -/
def submitPlace (s : State) (p : Fin 24) (a : W64) (align : Nat) : Except Cause Nat × State :=
  match windowOf s a.toNat with
  | .global va => if a.toNat % align ≠ 0 then (.error 0x2E, s) else devTranslate s p va .write
  | _ => (.error 0x2E, s)

def submitLaunch : CmdRun := fun s p r =>
  let a := cmdArg r 0
  if 7 < (cmdArg r 1).toNat then some (s, 0x3B)
  else
    match submitPlace s p a 128 with
    | (.error c, t) => some (t, c)
    | (.ok pa, t) =>
      let q : Fin 8 := Fin.ofNat 8 (cmdArg r 1).toNat
      if !launchRoom t p q then none
      else
        match acceptLaunch t p q a pa with
        | .ok u => some (u, 0)
        | .error c => some (t, c)

/-- SUBMIT_LAUNCH. -/
def execSubmitLaunch (p : Fin 24) (s : State) : Out := .next (runCommand 1 submitLaunch p s)

def submitTask : CmdRun := fun s p r =>
  let a := cmdArg r 0
  match submitPlace s p a 64 with
  | (.error c, t) => some (t, c)
  | (.ok pa, t) =>
    if !taskRoom t p pa then none
    else
      match acceptTask t p a pa [] with
      | .ok u => some (u, 0)
      | .error c => some (t, c)

/-- SUBMIT_TASK_RECORD. -/
def execSubmitTaskRecord (p : Fin 24) (s : State) : Out := .next (runCommand 2 submitTask p s)

/-! ### TLB_INVALIDATE (R235) -/

/-- Whether n bytes from a overlap m bytes from b. -/
def rangesMeet (a n b m : Nat) : Bool := decide (a < b + m) && decide (b < a + n)

/-- A TLB entry of a partition that maps part of a range. -/
def entryMeets (p : Fin 24) (a n : Nat) (e : TlbEntry) : Bool :=
  e.part == p && rangesMeet a n (e.page * 2 ^ pageBits e.level) (2 ^ pageBits e.level)

/-- An access of a wave under way that holds translations of a range: one with remote lanes that waits for its answers, with its other lanes (R444). -/
def waitMeets (p : Fin 24) (a n : Nat) (w : Wave) : Bool :=
  w.ids.part == p && w.run != .ended && w.remoteOut.any fun e => e.blocking && e.lanes.any fun x =>
    match x.res with
    | .ok (.mem _ va) => rangesMeet a n va 64
    | _ => false

/-- Where a record of a chain stands now. -/
def recordPlace (s : State) (p : Fin 24) (r : RecRun) : Option Nat :=
  match walkPage s p r.addr.toNat with
  | .leaf lv _ pte => some (pte % 2 ^ 39 / 4096 * 4096 + r.addr.toNat % 2 ^ pageBits lv)
  | _ => none

/-- A record in service in a range that has no other place: its end is an access by the old translation. -/
def recordMeets (s : State) (p : Fin 24) (a n : Nat) (c : Chan) : Bool :=
  c.part.toNat == p.val && c.inService.any fun r => rangesMeet a n r.addr.toNat 64 && (recordPlace s p r).isNone

/-- Records in service take the new translations of a range, and so do the waits of waves at words of it: their instructions are tried again. -/
def useNew (s : State) (p : Fin 24) (a n : Nat) : State :=
  let turn := fun (r : RecRun) => if rangesMeet a n r.addr.toNat 64 then { r with pa := (recordPlace s p r).getD r.pa } else r
  let move := fun (c : Chan) => { c with inService := c.inService.map turn }
  let hit := fun (l : WaitLink) =>
    !l.explicit && match l.what, l.key with
      | .count _ _, .word q va => q == p && rangesMeet a n va 8
      | .signal _, _ => true
      | _, _ => false
  let s1 := onWaves s fun w => if w.ids.part = p then { w with wait := w.wait.filter fun l => !hit l } else w
  settlePrio (sweepObjs { s1 with
    dies := s1.dies.map fun d => { d with chans := d.chans.map fun c => if c.part.toNat = p.val then move c else c }
    parts := s1.parts.set p { s1.parts[p] with cmd := move (s1.parts[p]).cmd } })

/-- A matrix command that holds translations of a range. -/
def commandMeets (p : Fin 24) (a n : Nat) (e : MxEntry) : Bool :=
  e.who.part == p && match e.cmd with
    | .steps _ _ _ _ _ pages _ _ _ => pages.any fun q => rangesMeet a n (q.1 * 2 ^ 15) (2 ^ 15)
    | .mon _ addr pas _ => !pas.isEmpty && rangesMeet a n addr.toNat 24
    | _ => false

/-- The entries of a range dropped, once every access that used one has been performed. -/
def invalidateTlb : CmdRun := fun s p r =>
  let a := (cmdArg r 0).toNat
  let n := (cmdArg r 1).toNat
  let busy := (s.cores.toList.any fun u => (u.mxWait ++ u.mxQueue).any (commandMeets p a n)) ||
    (s.gangs.any fun g => g.saved.any (commandMeets p a n)) || (liveWaves s).any (waitMeets p a n) ||
    s.dies.toList.any fun d => d.chans.toList.any (recordMeets s p a n)
  if busy then none
  else some (tellHost (useNew (dropTlb s (entryMeets p a n)) p a n) (.tlbAck p), 0)

/-- TLB_INVALIDATE. -/
def execTlbInvalidate (p : Fin 24) (s : State) : Out := .next (runCommand 3 invalidateTlb p s)

/-! ### Parked items (R41, R43) -/

/-- A held wave that goes on: its footprint is in the context partition, and at its instruction the device acts as in hardware mode. One that is away stays away until it resumes (R411). -/
def freeWave (dropsWait : Bool) (w : Wave) : Wave :=
  if w.run = .held ∨ w.run = .evicted then
    { w with
      run := if w.run = .held then .parked else w.run
      released := some w.regs.pc
      wait := if dropsWait then none else w.wait }
  else w

/-- The channel of an engine agent. -/
def agentChan (k : W32) : Option (Fin 2 × Fin 96) :=
  if k.getLsbD 31 ∧ bitsOf k.toNat 29 24 = 0 then some (if k.getLsbD 30 then 1 else 0, Fin.ofNat 96 (k.toNat % 2 ^ 24)) else none

/-- The instance for whose contributors a collective engine waits. -/
def waitedColl (s : State) (k : W32) : Option Coll :=
  (s.engWaits.find? fun e => e.agent == k).bind fun e => s.colls.find? fun x => collKey x == e.link.key

/-- The wait of an engine or of a commit that closed a cycle ends, with a cause (R396). -/
def endLead (s : State) (k : W32) (c : Cause) : State :=
  match agentChan k, waitedColl s k with
  | some (d, ch), _ => stopRecord s d ch c
  | none, some x => endColl (dropEngineWait s k) x c
  | none, none =>
    match s.tasks.find? fun t => (t.ended || t.committed) && commitAgent s t == k with
    | some t => commitEnds s t c
    | none => settlePrio (settleObjs s)

/-- An operation of an engine that found no table entry goes on, and spills as in hardware mode (R43, R399). -/
def spillAgent (s : State) (k : W32) (tid : W64) : State :=
  let mark := fun (w : Issuer) => if w.tid.getD 0 = tid then { w with spill := true } else w
  let op := fun (o : CopyOp) => { o with who := mark o.who }
  let ours := fun (p : Contribution) => p.who.any fun w => collAgent (coreDie w.core) == k
  let member := fun (p : Contribution) => if ours p then { p with who := p.who.map mark } else p
  match agentChan k with
  | some (d, ch) => onChan s d ch fun c =>
    { c with
      kicker := c.kicker.map mark
      linked := c.linked.map fun e => (e.1, mark e.2)
      inService := c.inService.map fun r => { r with op := r.op.map op } }
  | none =>
    { s with
      colls := s.colls.map fun x => { x with parts := x.parts.map member }
      cores := s.cores.mapIdx fun i u =>
        if matrixAgent (Fin.ofNat 192 i) = k then { u with mxWait := u.mxWait.map fun e => { e with who := mark e.who } } else u
      dies := s.dies.map fun x =>
        { x with copyWait := x.copyWait.map fun o => if queueAgent (clusterOf o.who.core) = k then op o else o } }

/-- The agents of an item go on; of a deadlock, the one whose registration closed the cycle ends its wait (R396). -/
def freeAgents (s : State) (i : ParkedItem) : State :=
  let lead := i.tokens.headD 0
  let one := fun (t : State) (k : W32) => onToken t k (freeWave (i.cause == 0x29 && k == lead))
  let s1 := i.tokens.foldl one s
  if i.cause = 0x29 then endLead s1 lead 0x29
  else if i.cause = 0x2D then i.tokens.foldl (fun t k => spillAgent t k i.tid) s1
  else settlePrio (settleObjs s1)

/-- The launch whose next gang has a task identifier and is held for the host. -/
def heldLaunch (s : State) (p : Fin 24) (tid : W64) : Option Launch :=
  s.launches.find? fun l => l.part == p && l.heldByHost && taskId false (nextGangOf l).toNat l.acc == tid

def collOfTask (x : Coll) (part : Fin 24) (tid : W64) : Bool := x.parts.any fun p => p.who.any fun w => w.part == part && w.tid.getD 0 == tid

/-- The pipeline launch whose router waits for the host under an identifier (log entry 33). -/
def routerLaunch (s : State) (p : Fin 24) (tid : W64) : Option Launch :=
  s.launches.find? fun l => l.part == p && l.pipe.isSome && routerItem l == tid

/-- One item released (R43): its agents and the engine records of its task go on, its router, its admission, its collective, the commit of a task of which no wave is left, or its relaunch. -/
def releaseItem (p : Fin 24) (s : State) (i : ParkedItem) : State :=
  if !i.tokens.isEmpty then
    match routerLaunch s p i.tid with
    | some l => onPipe s l.key fun x => { x with freed := true }
    | none => freeAgents (if i.cause = 0x20 then releaseRecords s p i.tid else s) i
  else
    match heldLaunch s p i.tid with
    | some l => onLaunch s l.key fun x => { x with heldByHost := false, spills := true }
    | none =>
      if s.colls.any fun x => x.parked && collOfTask x p i.tid then
        { s with colls := s.colls.map fun x => if collOfTask x p i.tid then { x with parked := false } else x }
      else
        match findTask s i.tid p with
        | some t =>
          if i.cause = 0x49 ∧ (findGang s t.gang).isSome then onTask s i.tid p fun x => { x with freed := true } else relaunchTask s t i.cause
        | none => s

/-- The parked items of a task identifier, removed from the partition. -/
def takeItems (s : State) (p : Fin 24) (tid : W64) : List ParkedItem × State :=
  ((s.parts[p]).parked.filter fun i => i.tid == tid,
    onPart s p fun q => { q with parked := q.parked.filter fun i => i.tid != tid })

def releaseParked : CmdRun := fun s p r =>
  match takeItems s p (cmdArg r 0) with
  | ([], _) => some (s, 0x3B)
  | (l, t) => some (l.foldl (releaseItem p) t, 0)

/-- RELEASE_PARKED_ITEM. -/
def execReleaseParkedItem (p : Fin 24) (s : State) : Out := .next (runCommand 4 releaseParked p s)

/-- A gang that is not admitted is returned (R43). -/
def returnNext (s : State) (l : Launch) (c : Cause) : State :=
  let idx := nextGangOf l
  let next := fun (x : Launch) =>
    let x1 := if x.again.isEmpty then { x with nextGang := x.nextGang + 1 } else { x with again := x.again.tail }
    { x1 with heldByHost := false, returned := x1.returned ++ [(idx, c)] }
  let tid := taskId false idx.toNat l.acc
  checkLaunch (onLaunch { s with tasks := s.tasks.filter fun t => !(t.tid == tid && t.part == l.part) } l.key next) l.key

/-- One item returned to its submitter with a cause. -/
def returnItem (p : Fin 24) (c : Cause) (s : State) (i : ParkedItem) : State :=
  match heldLaunch s p i.tid, routerLaunch s p i.tid with
  | some l, _ => returnNext s l c
  | none, some l => routerFails s l c
  | none, none =>
    match findTask s i.tid p with
    | none => endLead s (i.tokens.headD 0) c
    | some t =>
      if t.committed then commitEnds s t c
      else if (findGang s t.gang).isSome then contain s [t.gang] c false
      else returnTask s t c

def returnParked : CmdRun := fun s p r =>
  let c : Cause := BitVec.ofNat 8 (cmdArg r 1).toNat
  match takeItems s p (cmdArg r 0) with
  | ([], _) => some (s, 0x3B)
  | (i :: rest, t) =>
    let others := rest.filter fun j => !j.tokens.isEmpty
    some (others.foldl (releaseItem p) (returnItem p c t i), 0)

/-- RETURN_PARKED_ITEM. -/
def execReturnParkedItem (p : Fin 24) (s : State) : Out := .next (runCommand 5 returnParked p s)

/-! ### WRITE_REGISTER, SET_COLLECTIVE_GROUP (R454, R480) -/

/-- Whether an offset lies in an absent partition. -/
def absentPlace (s : State) (off : Nat) : Bool :=
  match regPlace off with
  | .partition p _ => !(s.parts[p]).present
  | _ => false

def writeRegister : CmdRun := fun s _ r =>
  let off := (cmdArg r 0).toNat
  if absentPlace s off then some (s, 0x3B)
  else
    match writeWindow s off (cmdArg r 1) with
    | some t => some (t, 0)
    | none => some (refusedWrite s off (cmdArg r 1), 0x3B)

/-- WRITE_REGISTER. -/
def execWriteRegister (p : Fin 24) (s : State) : Out := .next (runCommand 6 writeRegister p s)

/-- The rank list of n entries at an address. -/
def readRanks (s : State) (p : Fin 24) (a : W64) (n : Nat) : Except Cause (List W16) × State :=
  match rangeWindow s a.toNat (2 * n) with
  | .ok (.global va) =>
    (match transPages (partCore s p) none p va .read (pagesOf va (2 * n)) s with
      | (.fail c _, t) => (.error c, t)
      | (.held, t) => (.error 0x20, t)
      | (.ok l, t) => if lostRead t p none ((List.range (2 * n)).map fun i => paThrough l (va + i)) then (.error 0x4D, t) else (.ok ((List.range n).map fun i =>
          BitVec.ofNat 16 (leNat ((List.range 2).map fun j => memByte t (paThrough l (va + 2 * i + j))))), t))
  | .error 0x19 => (.error 0x19, s)
  | _ => (.error 0x1C, s)

def setGroup : CmdRun := fun s p r =>
  let g := (cmdArg r 0).toNat
  let n := (cmdArg r 1).toNat
  if 255 < g ∨ n = 0 ∨ 65535 < n then some (s, 0x3B)
  else
    match readRanks s p (cmdArg r 2) n with
    | (.error c, t) => some (t, c)
    | (.ok l, t) =>
      if l.any fun k => decide (t.pkg.dsize.toNat ≤ k.toNat) then some (t, 0x45)
      else some ({ t with collGroups := (g, l) :: t.collGroups.filter fun e => e.1 != g }, 0)

/-- SET_COLLECTIVE_GROUP. -/
def execSetCollectiveGroup (p : Fin 24) (s : State) : Out := .next (runCommand 7 setGroup p s)

/-! ### Partitions (R28, R29, R460, R468) -/

/-- The gangs of a launch that have not started are returned, and no further one is admitted; started ones are settled as tasks. -/
def cutLaunch (c : Cause) (l : Launch) : Launch :=
  let l1 := { l with again := [], heldByHost := false }
  if l.nextGang < l.snap.gcount then
    { l1 with
      nextGang := l.nextGang + 1
      snap := { l.snap with gcount := l.nextGang + 1 }
      returned := l1.returned ++ [(BitVec.ofNat 32 l.nextGang, c)] }
  else l1

/-- Entries of task queues that no group runs are returned; those that have committed go on. -/
def returnEntries (s : State) (p : Fin 24) (c : Cause) : State :=
  let live := fun (e : TaskEnt) => s.tasks.any fun t => t.tid == e.tid && t.part == p && t.committed
  let out := (s.parts[p]).taskQ.toList.flatMap fun q => q.filter fun e => !live e
  let s1 := out.foldl (fun t e => recordStatus t p e.addr.toNat 3 c e.tid) s
  onPart s1 p fun x => { x with taskQ := x.taskQ.map fun q => q.filter live }

/-- Every item that a partition holds is returned with a cause: gangs under way, what waits in its queues, what waits for the host. -/
def returnWork (s : State) (p : Fin 24) (c : Cause) : State :=
  let s1 := contain s ((s.gangs.filter fun g => g.part == p).map fun g => g.key) c false
  let waiting := s1.tasks.filter fun t => t.part == p && !t.committed
  let s2 := waiting.foldl (fun t x => returnTask t x c) s1
  let keys := (s2.launches.filter fun l => l.part == p).map fun l => l.key
  let s3 := keys.foldl (fun t k => checkLaunch (onLaunch t k (cutLaunch c)) k) (onPart s2 p fun q => { q with parked := [] })
  returnEntries s3 p c

/-- The wait-for entries of a partition go (R468). -/
def dropEntries (s : State) (p : Fin 24) : State :=
  let gone := fun (k : ObjKey) => s.objs.any fun o => o.key == k && o.part == p
  { s with objs := s.objs.filter fun o => o.part != p, links := s.links.filter fun l => !gone l.key }

/-- A partition reset (R468). -/
def resetPart (s : State) (p : Fin 24) : State := dropEntries (returnWork s p 0x4F) p

/-- The partition number of OP 8; none when it is above 23. -/
def partArg (r : RecRun) : Option (Fin 24) :=
  let n := (cmdArg r 0).toNat
  if h : n < 24 then some ⟨n, h⟩ else none

/-- A cluster of which every core is out of service. -/
def clusterOut (s : State) (cl : Fin 24) : Bool :=
  (List.range 8).all fun i => s.cores[(Fin.ofNat 192 (8 * cl.val + i) : Fin 192)].outOfService

/-- Whether OP 8 may create a partition on a mask (R448). -/
def mayCreate (s : State) (q : Fin 24) (mask : Nat) (lockstep : Bool) : Bool :=
  let used := fun (cl : Fin 24) => (List.finRange 24).any fun p => (s.parts[p]).present && (s.parts[p]).clusters.getLsbD cl.val
  !(s.parts[q]).present && mask != 0 && decide (mask < 2 ^ 24) && (!lockstep || mask / 2 ^ 12 == mask % 2 ^ 12) &&
    (List.finRange 24).all fun cl => mask / 2 ^ cl.val % 2 == 0 || !(used cl || clusterOut s cl)

def createPart (lockstep : Bool) : CmdRun := fun s _ r =>
  match partArg r with
  | none => some (s, 0x3B)
  | some q =>
    let mask := (cmdArg r 1).toNat
    if !mayCreate s q mask lockstep then some (s, 0x3B)
    else
      some (onPart s q fun x =>
        { x with
          present := true
          clusters := BitVec.ofNat 24 mask
          lockstep := lockstep
          launchQ := Vector.replicate 8 []
          taskQ := Vector.replicate 16 []
          accepted := 0
          commits := 0
          parked := [] }, 0)

/-- CREATE_PARTITION. -/
def execCreatePartition (p : Fin 24) (s : State) : Out := .next (runCommand 9 (createPart false) p s)

/-- CREATE_LOCKSTEP_PARTITION (R29, R460). -/
def execCreateLockstepPartition (p : Fin 24) (s : State) : Out := .next (runCommand 10 (createPart true) p s)

def resetCommand : CmdRun := fun s _ r =>
  match partArg r with
  | none => some (s, 0x3B)
  | some q => if (s.parts[q]).present then some (resetPart s q, 0) else some (s, 0x3B)

/-- RESET_PARTITION. -/
def execResetPartition (p : Fin 24) (s : State) : Out := .next (runCommand 11 resetCommand p s)

/-- Destruction: every item is returned as at a reset, and the clusters belong to no partition. -/
def destroyCommand : CmdRun := fun s _ r =>
  match partArg r with
  | none => some (s, 0x3B)
  | some q =>
    if (s.parts[q]).present then
      some (onPart (resetPart s q) q fun x => { x with present := false, clusters := 0, lockstep := false }, 0)
    else some (s, 0x3B)

/-- DESTROY_PARTITION. -/
def execDestroyPartition (p : Fin 24) (s : State) : Out := .next (runCommand 8 destroyCommand p s)

/-! ### The command chains' next step -/

/-- The step of a command code; an entry that names no command is returned by WRITE_REGISTER's. -/
def commandInstr (p : Fin 24) (code : Nat) : Instr :=
  match code with
  | 1 => .submitLaunch p
  | 2 => .submitTaskRecord p
  | 3 => .tlbInvalidate p
  | 4 => .releaseParkedItem p
  | 5 => .returnParkedItem p
  | 7 => .setCollectiveGroup p
  | 8 => .destroyPartition p
  | 9 => .createPartition p
  | 10 => .createLockstepPartition p
  | 11 => .resetPartition p
  | _ => .writeRegister p

/-- Whether the command in service can be carried out now. -/
def commandReady (s : State) (p : Fin 24) (r : RecRun) : Bool :=
  match cmdCode r with
  | 1 => (submitLaunch s p r).isSome
  | 2 => (submitTask s p r).isSome
  | 3 => (invalidateTlb s p r).isSome
  | _ => true

/-- The next command, if any. -/
def commandEvent (s : State) : Option Instr :=
  (List.finRange 24).findSome? fun p =>
    ((s.parts[p]).cmd.inService.filter (commandReady s p)).map fun r => commandInstr p (cmdCode r)

/-- The next re-read of a polling command chain that is due. -/
def commandPollEvent (s : State) : Option Instr :=
  ((List.finRange 24).find? fun p => pollDue s (.cmd p)).map fun p => .commandPoll p

end Sys2Proof.Machine
end

