-- ==== Sys2Proof/Machine/Integrity.lean ====
section
/-!
DEFINITION. Device integrity: arithmetic checks (R433, R464), part faults (R361, R435, R458), memory errors (R464 to R466), in-field tests (R413, R467), resets and start-up (R468, R469), firmware and attestation (R470, R471), the management sideband (R472 to R474).
-/

namespace Sys2Proof.Machine

/-! ### PIPE_CHECK (R433, R464) -/

/-- INFO of cause group 6. -/
def matrixInfo (who : Issuer) (core : Fin 192) : Nat := (who.tid.getD 0).toNat + core.val * 2 ^ 64

/-- A checker mismatch at a wave's unit. -/
def checkWave (s : State) (t : W32) : State :=
  match findWave s t with
  | none => s
  | some w => contain (report s (some w.ids.part) 0 0x48 (waveInfo w)) [w.ids.gang] 0x48 true

/-- A checker mismatch in a matrix engine: its fold is suppressed. -/
def checkMatrix (s : State) (core : Fin 192) : State :=
  match s.cores[core].mxQueue with
  | [] => s
  | e :: _ => contain (report s (some e.who.part) 6 0x48 (matrixInfo e.who core)) e.who.gang.toList 0x48 true

/-- A checker mismatch in a collective engine: the step is replayed from its journal. -/
def checkColl (s : State) (d : Fin 2) : State :=
  match s.colls.find? fun x => x.parts.any fun p => p.who.any fun w => coreDie w.core == d with
  | none => s
  | some x => parkColls (report s (x.parts.findSome? fun p => p.who.map fun w => w.part) 5 0x48 (collInfo x s.pkg.rank.toNat)) 0x48

/-- An uncorrectable error in the scratchpad or the tiles of a group: its gang owns them. It is reported as the core's matrix engine (log entry 36). -/
def checkStorage (s : State) (core : Fin 192) (n : Nat) : State :=
  match (coreGroups s core)[n]?, (coreGroups s core)[n]?.bind fun g => findGang s g.gang with
  | some g, some k =>
    let tid := ((s.tasks.find? fun t => t.gang == g.gang && !t.committed).map fun t => t.tid).getD 0
    contain (report s (some k.part) 6 0x48 (tid.toNat + core.val * 2 ^ 64)) [g.gang] 0x48 true
  | _, _ => s

/-- PIPE_CHECK, and the errors of R464 that are corrected: counted, or the entry invalidated, which the next use fills again. -/
def execPipeCheck (site : CheckSite) (s : State) : Out :=
  match site with
  | .lanes t => .next (checkWave s t)
  | .matrix u => .next (checkMatrix s u)
  | .collective d => .next (checkColl s d)
  | .storage u n => .next (checkStorage s u n)
  | .correctedCore u => .next (onCore s u fun x => { x with corrected := x.corrected + 1 })
  | .correctedSlice d i => .next (onDie s d fun x => { x with corrected := x.corrected.set i.val (x.corrected[i] + 1) })
  | .parityL1 u line => .next (onCore s u fun x => { x with l1 := x.l1.filter fun e => e.line != line })
  | .parityFetch u pa => .next (onCore s u fun x => { x with icache := x.icache.filter fun e => e.1 != pa })
  | .parityTlb u page level => .next (onCore s u fun x => { x with tlb := x.tlb.filter fun e => !(e.page == page && e.level == level) })
  | .parityL2Tlb d page level => .next (onDie s d fun x => { x with tlb := x.tlb.filter fun e => !(e.page == page && e.level == level) })

/-! ### Part faults (R361, R422, R435) -/

/-- INFO of cause group 3. -/
def partInfo (part : PartId) : Nat :=
  match part with
  | .die d => d.val * 4
  | .stack n => 1 + n.val * 4
  | .port n => 2 + n.val * 4
  | .core u => 3 + u.val * 4
  | .cluster cl => 3 + (0x800 + cl.val) * 4

/-- The cores of a part. -/
def partCores (part : PartId) : List (Fin 192) :=
  match part with
  | .die d => (List.range 96).map fun i => Fin.ofNat 192 (96 * d.val + i)
  | .core u => [u]
  | .cluster cl => (List.range 8).map fun i => Fin.ofNat 192 (8 * cl.val + i)
  | _ => []

/-- The clusters whose copy engines a part takes along. -/
def partClusters (part : PartId) : List (Fin 24) :=
  match part with
  | .die d => (List.range 12).map fun i => Fin.ofNat 24 (12 * d.val + i)
  | .cluster cl => [cl]
  | _ => []

/-- Whether a core stands for a group: its own, or in a lockstep partition the one beside it on die 1 (R29). -/
def standsOn (s : State) (g : Group) (l : List (Fin 192)) : Bool :=
  l.any fun u => g.core == u ||
    (g.core.val + 96 == u.val && (findGang s g.gang).any fun x => (s.parts[x.part]).lockstep)

/-- The gangs with a group on some core of a list. -/
def gangsStanding (s : State) (l : List (Fin 192)) : List GangKey :=
  ((s.groups.filter fun g => standsOn s g l).map fun g => g.gang).eraseDups

/-- A channel whose engine has stopped: its record is run again from its snapshot, or returned (R361). -/
def stopChannel (c : Cause) (s : State) (x : Fin 2 × Fin 96) : State :=
  match (s.dies[x.1].chans[x.2]).inService with
  | none => s
  | some r =>
    if r.finished then s
    else if recField r.snap 4 4 = 1 then
      match r.op with
      | none => s
      | some o => onRecord (dropEngineWait s (engToken x.1 0 x.2.val)) x.1 x.2 fun _ => transferRun s r.addr r.pa r.snap { o.who with writes := [] }
    else stopRecord s x.1 x.2 c

/-- The channels of clusters. -/
def clusterChans (l : List (Fin 24)) : List (Fin 2 × Fin 96) :=
  l.flatMap fun cl => (List.range 8).map fun i => (clusterDie cl, Fin.ofNat 96 (8 * (cl.val % 12) + i))

/-- Partitions that a lost die or a lack of cores leaves without work (R435). -/
def settleParts (s : State) (die : Bool) : State :=
  let gone := fun (p : Fin 24) => (s.parts[p]).present && (!partAlive s p || (die && (s.parts[p]).lockstep))
  ((List.finRange 24).filter gone).foldl (fun t p => returnWork t p 0x4F) s

/-- The queues of a partition that hold work. -/
def busyQueues (s : State) (p : Fin 24) : List QueueSel :=
  if (s.parts[p]).present then
    (((List.finRange 8).filter fun q => !((s.parts[p]).launchQ[q]).isEmpty).map .launch) ++
      ((List.finRange 16).filter fun q => !((s.parts[p]).taskQ[q]).isEmpty).map .task
  else []

/-- A second part fails before the second copies are restored: every queue that holds work is reported (R11). -/
def warnQueues (s : State) : State :=
  if s.pkg.copiesLost then
    (List.finRange 24).foldl (fun t p => (busyQueues s p).foldl (fun u q => tellHost u (.unrecoverable p q)) t) s
  else s

/-- Work of cores and engines that have failed or are reset: gangs contained, records and steps settled (R435, R458). -/
def settleWork (s : State) (part : PartId) : State :=
  let s1 := contain s (gangsStanding s (partCores part)) 0x4F true
  let s2 := (clusterChans (partClusters part)).foldl (stopChannel 0x4F) (parkColls s1 0x4F)
  settleParts s2 (match part with | .die _ => true | _ => false)

/-- Tasks with speculative lines on a stack. -/
def stackTasks (s : State) (n : Fin 8) : List GangKey :=
  let tids := (s.vlines.filter fun v => stackOf (v.line * 128) == n).map fun v => v.task
  ((s.tasks.filter fun t => tids.contains (taskKey t)).map fun t => t.gang).eraseDups

def takeCores (s : State) (l : List (Fin 192)) : State :=
  l.foldl (fun t u => onCore t u fun x => { x with outOfService := true }) s

/-- What the fault of one part does. -/
def failPart (s0 : State) (part : PartId) : State :=
  let s := { s0 with pkg := { s0.pkg with failedParts := min (s0.pkg.failedParts + 1) 255 } }
  match part with
  | .die _ => settleWork { (takeCores s (partCores part)) with pkg := { s.pkg with copiesLost := true } } part
  | .stack n =>
    let s1 := { s with pkg := { s.pkg with
      stacksOut := s.pkg.stacksOut ||| BitVec.ofNat 8 (2 ^ n.val)
      copiesLost := true } }
    contain (parkColls s1 0x4F) (stackTasks s1 n) 0x4F true
  | .port n =>
    let s1 := { s with pkg := { s.pkg with portsOut := s.pkg.portsOut ||| BitVec.ofNat 128 (2 ^ n.val) } }
    report (parkColls s1 0x40) none 5 0x40 (fabricInfo 0 (n.val % 64) (n.val / 64) 0 0 0)
  | _ => settleWork (takeCores s (partCores part)) part

/-- PART_FAULT_EVENT. -/
def execPartFaultEvent (part : PartId) (s : State) : Out :=
  .next (failPart (report (warnQueues s) none 3 0x4F (partInfo part)) part)

/-- LINK_FAULT: a port fails, and is taken out of service (R463); collective work is replayed from its journal (R435, R443). -/
def execLinkFault (port : Fin 128) (s : State) : Out := .next (failPart (warnQueues s) (.port port))

/-- SECOND_COPY_RESTORED (R11). -/
def execSecondCopyRestored (s : State) : Out := .next { s with pkg := { s.pkg with copiesLost := false } }

/-! ### Memory errors (R464 to R466) -/

/-- Bytes lost: those of an aligned block of n bytes. -/
def loseBlock (s : State) (pa n : Nat) : State :=
  let new := (bytesFrom (pa / n * n) n).filter fun a => !s.lost.contains a
  { s with lost := new ++ s.lost }

/-- HBM_UNCORRECTABLE: refetched, replayed, or lost and reported (R464); what the context partition has lost of a wave has no address. -/
def execHbmUncorrectable (site : ErrorSite) (pa : Nat) (s : State) : Out :=
  let a := pa % 2 ^ 39
  let told := report s none 2 0x4D a
  match site with
  | .cleanLine => .next s
  | .speculativeLine =>
    let tids := (s.vlines.filter fun v => v.line == a / 128).map fun v => v.task
    .next (contain told (((s.tasks.filter fun t => tids.contains (taskKey t)).map fun t => t.gang).eraseDups) 0x4D true)
  | .context t =>
    .next (match findWave s t with
      | none => s
      | some w => contain (report s (some w.ids.part) 2 0x4D 0) [w.ids.gang] 0x4D false)
  | .dirtyLine => .next (loseBlock told a 128)
  | .hbm => .next (loseBlock told a 64)

/-- HBM_SCRUB of the row that begins at a physical address: corrections are counted, and a row with 8 in succession is reported (R465, R466). -/
def execHbmScrub (stack : Fin 8) (row : Nat) (corrected : Bool) (s : State) : Out :=
  let others := s.scrubs.filter fun e => e.1 != row
  if !corrected then .next { s with scrubs := others }
  else
    let n := ((s.scrubs.find? fun e => e.1 == row).map fun e => e.2).getD 0 + 1
    let counts := s.pkg.corrected
    let s1 := { s with
      scrubs := (row, n) :: others
      pkg := { s.pkg with corrected := counts.set stack.val (counts[stack] + 1) } }
    .next (if n = 8 then report s1 none 2 0 (row % 2 ^ 39) else s1)

/-! ### In-field tests (R413, R467) -/

/-- The partition of a core. -/
def corePart (s : State) (u : Fin 192) : Option (Fin 24) :=
  (List.finRange 24).find? fun p => (s.parts[p]).present && (s.parts[p]).clusters.getLsbD (u.val / 8)

/-- Whether the host chooses the times of a core's tests (R41). -/
def hostTests (s : State) (u : Fin 192) : Bool := (corePart s u).any fun p => (s.parts[p]).pfmode.getLsbD 5

/-- Whether a test has fallen due that starts once nothing defers it: the device's own, by the mode in which it fell due (R42), or one for which the host has chosen the time. -/
def testOwn (s : State) (u : Fin 192) : Bool := s.cores[u].testDue && (!s.cores[u].testHost || s.cores[u].testGo)

/-- The core whose scheduler runs what stands on a core: in a lockstep partition that of the same number on die 0 (R29). -/
def leadCore (s : State) (u : Fin 192) : Fin 192 :=
  if 96 ≤ u.val ∧ (corePart s u).any fun p => (s.parts[p]).lockstep then Fin.ofNat 192 (u.val - 96) else u

/-- Windows open on a core, by their waves' tokens. -/
def openWindows (s : State) (u : Fin 192) : List W32 :=
  ((coreWaves s (leadCore s u)).filter fun w => w.npOpen).map fun w => w.ids.token

/-- Whether the windows open at the due time still defer the test. -/
def testDeferred (s : State) (u : Fin 192) : Bool :=
  s.cores[u].testAfter.any fun t => (findWave s t).any fun w => w.npOpen && w.ids.core == leadCore s u

/-- A gang whose windows close at its eviction. -/
def closeWindows (s : State) (k : GangKey) : State :=
  let mine := fun (w : Wave) => w.ids.gang == k && w.npOpen
  let s1 := ((liveWaves s).filter mine).foldl windowClosed s
  onWaves s1 fun w => if mine w then { w with npOpen := false, npOwed := true } else w

def coreGangs (s : State) (u : Fin 192) : List GangKey := ((coreGroups s (leadCore s u)).map fun g => g.gang).eraseDups

/-- Whether the contexts of a core's gangs find slots (R434); where the host assists with contexts, in the context partition alone (R41). -/
def testRoom (s : State) (u : Fin 192) : Bool :=
  let n := ((coreGangs s u).flatMap (standingWaves s)).length
  let d := coreDie (leadCore s u)
  n == 0 || decide (contextUsed s d + n ≤ contextSlots s d) ||
    (corePart s u).any fun p => !(s.parts[p]).pfmode.getLsbD 7 && contextsFit s p d n

/-- Whether every gang of a core can be evicted. -/
def testClear (s : State) (u : Fin 192) : Bool := (coreGangs s u).all (fun k => gangEvictable s k true) && testRoom s u

/-- Whether a test of a core waits on the window of a wave. -/
def testAwaits (s : State) (w : Wave) (u : Fin 192) : Bool := testOwn s u && s.cores[u].testAfter.contains w.ids.token

/-- Whether a wave whose window has run out waits to be pre-empted before it takes the fault (R206). -/
def windowHeld (s : State) (w : Wave) : Bool :=
  w.npOwed && (testAwaits s w w.ids.core || ((s.parts[w.ids.part]).lockstep && testAwaits s w (twinOf w.ids.core)) || preemptWants s w)

/-- The test starts: every gang with a group on the core is evicted whole. -/
def startTest (s : State) (u : Fin 192) : State :=
  if !testClear s u then s
  else
    let s1 := (coreGangs s u).foldl (fun t k => evictGang (closeWindows t k) k) s
    onCore s1 u fun x => { x with testDue := false, testHost := false, testGo := false, testAfter := [], testing := true }

/-- The test of a core falls due. -/
def markDue (s : State) (u : Fin 192) : State :=
  let s1 := onCore s u fun x => { x with testDue := true, testHost := hostTests s u, testGo := false, testAfter := openWindows s u }
  if hostTests s u then tellHost s1 (.testDue u) else s1

/-- IN_FIELD_TEST: the test falls due, and starts when nothing defers it; in host-assisted mode the next one is the host's choice of the time, from which on the test waits for windows only. -/
def execInFieldTest (u : Fin 192) (s : State) : Out :=
  let x := s.cores[u]
  if x.outOfService || x.testing then .next s
  else if !x.testDue && hostTests s u then .next (markDue s u)
  else
    let s1 := if x.testDue then onCore s u fun y => { y with testGo := y.testHost } else markDue s u
    .next (if testDeferred s1 u then s1 else startTest s1 u)

/-- IN_FIELD_TEST_FORCED: 20 ms past due the test starts whatever windows are open. -/
def execInFieldTestForced (u : Fin 192) (s : State) : Out :=
  .next (if s.cores[u].testDue && s.cores[u].testHost then startTest s u else s)

/-- IN_FIELD_TEST_END: the core returns to service, or has failed. -/
def execInFieldTestEnd (u : Fin 192) (passed : Bool) (s : State) : Out :=
  if !s.cores[u].testing then .next s
  else
    let s1 := onCore s u fun x => { x with testing := false }
    .next (if passed then s1 else failPart (report (warnQueues s1) none 3 0x4F (partInfo (.core u))) (.core u))

/-- A due test that nothing defers any longer, in hardware mode. -/
def testEvent (s : State) : Option Instr :=
  if !s.cores.toList.any (fun x => x.testDue) then none
  else
    ((List.finRange 192).find? fun u => testOwn s u && !testDeferred s u && testClear s u).map
      fun u => .inFieldTest u

/-! ### Die reset (R275, R276, R468) -/

/-! All that has been stamped is applied at a die reset, and every count of stamps starts again (log entry 24). -/

def whoFresh (w : Issuer) : Issuer := { w with clk := {}, writes := [] }
def movedFresh (m : Moved) : Moved := { m with clk := {}, writes := [] }
def opFresh (o : CopyOp) : CopyOp := { o with who := whoFresh o.who, moved := o.moved.map movedFresh }
def mxFresh (e : MxEntry) : MxEntry :=
  let cmd := match e.cmd with
    | .signal c _ err => .signal c [] err
    | c => c
  { e with cmd := cmd, who := whoFresh e.who }
def chanFresh (c : Chan) : Chan :=
  { c with
    kicker := c.kicker.map whoFresh
    linked := c.linked.map fun e => (e.1, whoFresh e.2)
    inService := c.inService.map fun r => { r with op := r.op.map opFresh } }
def pipeFresh (p : Pipe) : Pipe := { p with recs := p.recs.map fun r => { r with boxWrites := [], clk := {} } }
def queueFresh (q : List TaskEnt) : List TaskEnt := q.map fun e => { e with seen := {} }
def partFresh (x : Contribution) : Contribution := { x with who := x.who.map whoFresh, moved := x.moved.map movedFresh }

/-- Every clock (0, 0), and no stamp waited for. The L1 caches are emptied: their lines may be older than what has been applied. -/
def clearClocks (s : State) : State :=
  let s1 := onWaves s fun w => { w with clk := {}, floor := {}, covers := [] }
  { s1 with
    clks := []
    lag := []
    arrived := {}
    groups := s1.groups.map fun g => { g with spadClk := [] }
    gangs := s1.gangs.map fun g => { g with saved := g.saved.map mxFresh }
    tasks := s1.tasks.map fun t => { t with clk := {}, writes := [], deferred := t.deferred.map fun e => (whoFresh e.1, e.2) }
    launches := s1.launches.map fun l => { l with seen := {}, pipe := l.pipe.map pipeFresh }
    recWaits := s1.recWaits.map fun e => (whoFresh e.1, e.2)
    cores := s1.cores.map fun u => { u with l1 := [], mxWait := u.mxWait.map mxFresh, mxQueue := u.mxQueue.map mxFresh }
    dies := s1.dies.map fun x =>
      { x with
        wctr := 0
        applied := {}
        copyWait := x.copyWait.map opFresh
        copyRun := x.copyRun.map opFresh
        chans := x.chans.map chanFresh }
    parts := s1.parts.map fun p => { p with cmd := chanFresh p.cmd, taskQ := p.taskQ.map queueFresh }
    colls := s1.colls.map fun x => { x with parts := x.parts.map partFresh } }

/-- A core after the reset of its die; a test under way begins again. -/
def coreAfter (x : Core) : Core :=
  { Core.reset with
    corrected := x.corrected
    testDue := x.testDue || x.testing
    testHost := x.testDue && x.testHost
    testGo := x.testDue && x.testGo
    testAfter := if x.testing then [] else x.testAfter }

/-- A die after its reset. -/
def dieAfter (x : Die) : Die :=
  { x with
    clock := 0
    tokens := 0
    pending := []
    l2 := []
    tilePins := []
    tlb := [] }

/-- The wait-for table of a die is emptied. -/
def dropTable (d : Fin 2) (s : State) : State :=
  { s with
    objs := s.objs.filter fun o => o.die != d
    links := s.links.filter fun l => l.die != d
    engWaits := s.engWaits.filter fun e => e.agent.getLsbD 30 != (d == 1) }

/-- Since a die counts its cycles from 0 again, what was measured by them is measured anew (R398, R444). -/
def clearTimes (s : State) (d : Fin 2) : State :=
  let ours := fun (x : Coll) => (x.parts.findSome? fun p => p.who).any fun w => coreDie w.core == d
  { s with
    tasks := if d = 0 then s.tasks.map fun t => { t with sentAt := 0 } else s.tasks
    colls := s.colls.map fun x => if ours x then { x with since := 0 } else x }

/-- The state of a die after its reset. Its stacks and ports are not covered: one that has failed stays out of service until the next power-on reset (R463, log entry 36). -/
def clearDie (s : State) (d : Fin 2) : State :=
  let s1 := clearTimes (clearClocks (dropTable d s)) d
  let s2 := { s1 with cores := s1.cores.mapIdx fun i x => if (if i < 96 then (0 : Fin 2) else 1) = d then coreAfter x else x }
  settleObjs (onDie s2 d dieAfter)

/-- The reset of one die: its work settled as at a die fault, with its cores out of service meanwhile (R435), then its state. -/
def resetDie (s : State) (d : Fin 2) : State :=
  clearDie (settleWork (takeCores (warnQueues s) (partCores (.die d))) (.die d)) d

/-- DIE_RESET. -/
def execDieReset (d : Fin 2) (s : State) : Out := .next (resetDie s d)

/-! ### Firmware (R470) -/

/-- The check of R470 that a firmware image fails: 1 key, 2 signature, 3 digest, 4 security version; 0 for none. -/
def imageCheck (k : Pkg) : Nat :=
  let c := Config.firmwareCheck k.image
  if c % 8 ≠ 0 then c % 8 else if k.fwsvn < k.floor then 4 else 0

/-- The firmware starts, or the module stays in recovery. -/
def startFirmware (k : Pkg) : Pkg :=
  let c := imageCheck k
  { k with ready := c == 0, recovery := c != 0, failingCheck := Fin.ofNat 8 c }

/-- A staged image replaces the running one. -/
def takeStaged (k : Pkg) : Pkg :=
  match k.staged with
  | none => k
  | some (image, svn, build) => { k with image := image, fwsvn := svn, fwbuild := build, staged := none }

/-- FIRMWARE_STAGE. -/
def execFirmwareStage (image svn build : Nat) (s : State) : Out :=
  .next { s with pkg := { s.pkg with staged := some (image, BitVec.ofNat 16 svn, BitVec.ofNat 16 build) } }

/-- RAISE_ROLLBACK_FLOOR: the floor never falls. -/
def execRaiseRollbackFloor (svn signature : Nat) (s : State) : Out :=
  .next (if Config.floorSignatureOk svn signature && decide (s.pkg.floor.toNat < svn) && decide (svn < 2 ^ 16) then
    { s with pkg := { s.pkg with floor := BitVec.ofNat 16 svn } } else s)

/-! ### Package reset, power-on reset (R468, R469) -/

/-- The work in flight on both dies replayed or returned at a package reset: what waits in queues stays there (R468). -/
def settleFlight (s : State) : State :=
  let s1 := contain s (s.gangs.map fun g => g.key) 0x4F true
  (clusterChans (List.finRange 24)).foldl (stopChannel 0x4F) (parkColls s1 0x4F)

/-- PACKAGE_RESET: both dies, then the start with the staged image. -/
def execPackageReset (s : State) : Out :=
  let t := clearDie (clearDie (settleFlight s) 0) 1
  .next { t with pkg := { startFirmware (takeStaged t.pkg) with failedParts := 0 } }

/-- What outlasts power: the running image with its numbers, the fused floor, what the manufacturer set. -/
def keptPkg (k : Pkg) : Pkg :=
  { Pkg.reset with
    stepping := k.stepping
    fwsvn := k.fwsvn
    fwbuild := k.fwbuild
    attptr := k.attptr
    image := k.image
    floor := k.floor }

/-- A machine without work; what it has told the host, what goes out and what comes next are not of the module (log entry 1). -/
def blank (s : State) : State :=
  { State.reset with
    pkg := keptPkg s.pkg
    hostLog := s.hostLog
    fabricOut := s.fabricOut
    agenda := s.agenda
    free := s.free
    nextKey := s.nextKey }

/-- A part that fails its start-up test is marked out of service. -/
def startWithout (s : State) (part : PartId) : State :=
  match part with
  | .stack n => { s with pkg := { s.pkg with stacksOut := s.pkg.stacksOut ||| BitVec.ofNat 8 (2 ^ n.val) } }
  | .port n => { s with pkg := { s.pkg with portsOut := s.pkg.portsOut ||| BitVec.ofNat 128 (2 ^ n.val) } }
  | _ => takeCores s (partCores part)

/-- POWER_ON_RESET, with the parts that fail at start-up. -/
def execPowerOnReset (failed : List PartId) (s : State) : Out :=
  let s1 := blank s
  let k := startFirmware s1.pkg
  if k.recovery then .next { s1 with pkg := k }
  else .next (failed.foldl startWithout { s1 with pkg := { k with failedParts := min failed.length 255 } })

/-- POWER_LOSS: nothing survives. -/
def execPowerLoss (s : State) : Out := .next { blank s with powered := false }

/-- THERMAL_SHUTDOWN: every die stops; the management controller keeps MSTAT and ALERT until the next power-on, and answers reads of them (R474). -/
def execThermalShutdown (s : State) : Out :=
  let k := s.pkg
  .next { blank s with
    powered := false
    pkg := { keptPkg k with
      ready := k.ready
      recovery := k.recovery
      failingCheck := k.failingCheck
      failedParts := k.failedParts
      standby := true
      alert := k.alert } }

/-! ### The sideband (R472) -/

/-- ALERT_WRITE. -/
def execAlertWrite (v : BitVec 3) (s : State) : Out := .next { s with pkg := { s.pkg with alert := s.pkg.alert &&& ~~~v } }

/-- SIDEBAND_REGISTER_WRITE: TESTIV, RSTREQ, ALERT; the others are read-only. -/
def execSidebandRegisterWrite (addr : Nat) (v : W32) (s : State) : Out :=
  match addr with
  | 0x10 => if 1 ≤ v.toNat ∧ v.toNat ≤ 168 then .next { s with pkg := { s.pkg with testiv := v } } else .next s
  | 0x14 =>
    if v = 1 then execDieReset 0 s else if v = 2 then execDieReset 1 s else if v = 3 then execPackageReset s else .next s
  | 0x18 => execAlertWrite (v.setWidth 3) s
  | _ => .next s

/-- TEMPERATURE_ALERT: warnings, with the readings that gave them, and the in-band interrupt. -/
def execTemperatureAlert (bits : BitVec 3) (s : State) : Out :=
  let t := senseNow s
  let s1 := { t with pkg := { t.pkg with alert := t.pkg.alert ||| bits } }
  .next (if bits = 0 then s1 else tellHost s1 .alert)

/-! ### Attestation (R471) -/

/-- Cores out of service, as a mask. -/
def coresOut (s : State) : Nat := (List.finRange 192).foldl (fun n u => if s.cores[u].outOfService then n + 2 ^ u.val else n) 0

/-- The fields of a quote. -/
def quoteFields (nonce : BitVec 256) (s : State) : List Nat :=
  [nonce.toNat, 0x07A2, Config.serialNumber, Config.imageDigest s.pkg.image, s.pkg.fwsvn.toNat, 1, coresOut s, s.pkg.stacksOut.toNat,
    s.pkg.portsOut.toNat]

/-- ATTESTATION_QUOTE: signed with the attestation key. -/
def execAttestationQuote (nonce : BitVec 256) (s : State) : Out :=
  let l := quoteFields nonce s
  .next (if s.pkg.ready then tellHost s (.quote l (Config.attestationSignature l)) else s)

end Sys2Proof.Machine
end

