-- ==== Sys2Proof/Machine/MemEvents.lean ====
section
/-!
DEFINITION. The steps of the memory system: walks, demand-zero resolution, the application of stamped writes, responses (R234, R237, R268, R277).
-/

namespace Sys2Proof.Machine

/-- PAGE_WALK: the walk of an access ends at a leaf, which enters the TLBs with A, and D for a write (R234). -/
def execPageWalk (core : Fin 192) (p : Fin 24) (va : Nat) (acc : Access) (s : State) : Out :=
  match walkOn s (coreDie core) p va with
  | .leaf lv addr pte =>
    let r := leafFill s core p va lv addr pte
    .next (useEntry r.2 core r.1 va acc).2
  | _ => .next s

/-- DEMAND_ZERO_RESOLUTION in hardware mode; in host-assisted mode the host maps the page (R237, R41). -/
def execDemandZeroResolution (core : Fin 192) (p : Fin 24) (va : Nat) (s : State) : Out :=
  match walkOn s (coreDie core) p va with
  | .demand lv addr =>
    if (s.parts[p]).pfmode.getLsbD 0 || (mappedLeaf s lv addr).isSome then .next s
    else
      let t := (demandZero s p lv addr).2
      match mappedLeaf t lv addr with
      | some pte => .next (leafFill t core p va lv addr pte).2
      | none => .next t
  | _ => .next s

/-- WRITE_APPLY: a die applies its next write of a home die (R277). -/
def execWriteApply (d : ApplyTurn) (cores : List (Fin 96)) (s : State) : Out :=
  .next (applyWrite s d.die d.home (cores.map fun c => Fin.ofNat 192 (96 * d.die.val + c.val)))

/-- Whether the oldest operation of a path has been served: it awaits no other package, and no engine. -/
def canRespond (w : Wave) (p : FlightPath) : Bool :=
  p != .engine && ((w.flights.find? fun f => f.path == p).any fun f => !f.remote)

/-- MEMORY_RESPONSE: the oldest operation of a path returns (R268). -/
def execMemoryResponse (token : W32) (p : FlightPath) (s : State) : Out :=
  .next (onToken s token fun w => if canRespond w p then lowerFlight w p else w)

/-- The cores of a die whose L1 holds lines. -/
def l1Holders (s : State) (d : Fin 2) : List (Fin 96) :=
  (List.finRange 96).filter fun c => !(s.cores[(Fin.ofNat 192 (96 * d.val + c.val) : Fin 192)]).l1.isEmpty

/-- The next write that some die may apply, in the device's own order: the oldest of its home, die 0 and home 0 first. A turn of the agenda may take another (log entry 7). -/
def nextWrite (s : State) : Option (Fin 2 × Fin 2) :=
  ([(0, 0), (0, 1), (1, 0), (1, 1)] : List (Fin 2 × Fin 2)).find? fun x => (nextApply s x.1 x.2).isSome

/-- The memory system's next step, if any: writes are applied first, to every L1 of the die as well (R277, log entry 8), then operations return. -/
def memoryEvent (s : State) : Option Instr :=
  match nextWrite s with
  | some (d, h) => some (.writeApply ⟨d, h⟩ (l1Holders s d))
  | none =>
    (liveWaves s).findSome? fun w =>
      ([.gload, .aload, .store].find? fun p => canRespond w p).map fun p => .memoryResponse w.ids.token p

end Sys2Proof.Machine
end

