-- ==== Sys2Proof/Machine/Mirror.lean ====
section
/-!
DEFINITION. The mirror-bank instructions (R216 to R227).
-/

namespace Sys2Proof.Machine

/-- Whether a handler runs over an open proposal (R217, R223). -/
def frameOpen (w : Wave) : Bool := w.handler && w.frame.pflag

/-- The registers after PROPOSE: the proposal copy equals the committed copy in every lane (R217). -/
def openProposal (r : Regs) : Regs :=
  let both := fun (x : Fin 16) => Lanes.of fun l => if r.sel.getLsbD l.val then r.mirror[x][l] else r.named[x.val][l]
  { retire r 4 with
    named := Vector.ofFn fun x => if h : x.val < 16 then both ⟨x.val, h⟩ else r.named[x]
    mirror := Vector.ofFn both
    pflag := true }

/-- PROPOSE (R217). -/
def execPropose (s : State) : Out :=
  if !s.wave.regs.mirrorOn then .next (trapWave s 0x32)
  else if s.wave.regs.pflag || frameOpen s.wave then .next (trapWave s 0x30)
  else .next (onRegs s openProposal)

/-- An increment that stops at the top (R218). -/
def satInc (x : W32) : W32 := if x = 0xFFFFFFFF then x else x + 1

/-- A draw in every lane, and DIDX after the draws of the lanes of `lanes` (R215). -/
def draws (w : Wave) : Lanes W32 := Lanes.of fun l => drawValue (glane w l) w.regs.didx[l] w.regs.dkey

def afterDraws (r : Regs) (lanes : W32) : Regs :=
  { r with didx := Lanes.of fun l => if lanes.getLsbD l.val then r.didx[l] + 1 else r.didx[l] }

/-- Whether a lane's log-ratio accepts a draw's logarithm (R218). -/
def accepts (y x : Nat) : Bool := condHolds .le (elemOrder .f32 y x)

/-- ACCEPT after its checks (R218). -/
def acceptRegs (w : Wave) (d : Dst) (a : Src) (h : Hold) : Regs :=
  let r := w.regs
  let act := activeMask r
  let x := srcLanes r w.ids.wave.val a false
  let y : Lanes Nat := Lanes.of fun l => if act.getLsbD l.val then drawLog (draws w)[l] else 0
  let acc := maskOf fun l => act.getLsbD l.val && accepts y[l] x[l].toNat
  let bump := fun (u : Lanes W32) (m : W32) => Lanes.of fun l => if m.getLsbD l.val then satInc u[l] else u[l]
  let r1 := { afterDraws r act with
    pcnt := bump r.pcnt act
    acnt := bump r.acnt acc
    sel := r.sel ^^^ acc
    pflag := false }
  let v : Lanes W64 := Lanes.of fun l => BitVec.ofNat 64 y[l]
  writePred (laneFinish r1 4 d h ⟨x, false, x, false⟩ v false) 1 act acc

/-- The lanes of a mask, counted. -/
def laneCount (m : W32) : Nat := (laneList.filter fun l => m.getLsbD l.val).length

/-- ACCEPT (R218). -/
def execAccept (d : Dst) (a : Src) (h : Hold) (s : State) : Out :=
  checkedState s [.src a false, .dst d false] (tyIn s.wave.regs (· == .f32)) fun s =>
    if !s.wave.regs.pflag then trapWave s 0x31
    else
      let n := laneCount (activeMask s.wave.regs)
      countEvent (onWave s fun w => { w with regs := acceptRegs w d a h }) s.wave.ids.core (some s.wave.ids.gang) 16 n

/-- DISCARD (R219). -/
def execDiscard (s : State) : Out :=
  if !s.wave.regs.pflag then .next (trapWave s 0x31)
  else .next (onRegs s fun r => { retire r 4 with pflag := false })

/-- DRAW (R220). -/
def execDraw (d : Dst) (h : Hold) (s : State) : Out :=
  checked s [.dst d false] true fun r =>
    let v : Lanes W64 := Lanes.of fun l => ((draws s.wave)[l]).setWidth 64
    laneFinish (afterDraws r (activeMask r)) 4 d h ⟨v, false, v, false⟩ v false

/-- DRAWKEY (R221). -/
def execDrawkey (a : KReg) (b : Option KReg) (s : State) : Out :=
  .next (onRegs s fun r =>
    { retire r 4 with
      dkey := r.k[a]
      didx := match b with
        | some j => Lanes.all (lo32 r.k[j])
        | none => r.didx })

/-- The view that a lane's selector chooses (R222). -/
def mbView (r : Regs) (l : Fin 32) (sel : Nat) : W64 :=
  match sel % 4 with
  | 0 => pair64 r.pcnt[l] r.acnt[l]
  | 1 =>
    BitVec.ofNat 64 (r.didx[l].toNat + (if r.sel.getLsbD l.val then 2 ^ 32 else 0) + (if r.pflag then 2 ^ 33 else 0))
  | _ => 0

/-- MBSTAT (R222). -/
def execMbstat (d : Dst) (a : Src) (s : State) : Out :=
  checked s [.src a false, .dst d true] true fun r =>
    let x := srcLanes r s.wave.ids.wave.val a false
    laneFinish r 4 d .none ⟨x, false, x, false⟩ (Lanes.of fun l => mbView r l x[l].toNat) true

/-- SEL set to 0 everywhere, the committed values moved to copy 0 first (R223). -/
def normSel (r : Regs) : Regs :=
  { r with
    named := Vector.ofFn fun x =>
      if h : x.val < 16 then Lanes.of fun l => if r.sel.getLsbD l.val then r.mirror[x.val][l] else r.named[x][l]
      else r.named[x]
    sel := 0 }

/-- MBCLR (R223). -/
def execMbclr (pcnt acnt norm : Bool) (s : State) : Out :=
  if norm && (s.wave.regs.pflag || frameOpen s.wave) then .next (trapWave s 0x33)
  else
    .next (onRegs s fun r =>
      let act := activeMask r
      let clear := fun (b : Bool) (u : Lanes W32) => Lanes.of fun l => if b && act.getLsbD l.val then 0 else u[l]
      let r1 := { retire r 4 with
        pcnt := clear pcnt r.pcnt
        acnt := clear acnt r.acnt }
      if norm then normSel r1 else r1)

end Sys2Proof.Machine
end

