-- ==== Sys2Proof/Machine/Post.lean ====
section
/-!
DEFINITION. TKPOST and LAUNCH (R370).
-/

namespace Sys2Proof.Machine

/-- A post of a record: its address, the check of its alignment, what is deferred, whether its queue has room, the wait for room, its acceptance. -/
structure Posting where
  addr : W64
  align : Nat
  deferred : Deferred
  room : State → Nat → Bool
  key : State → Nat → ObjKey
  accept : State → Nat → Except Cause State

/-- TKPOST and LAUNCH behind their address check: a release at package scope, the registered wait for room, then acceptance. -/
def postRecord (s : State) (x : Posting) : State :=
  if x.addr.toNat % x.align ≠ 0 ∨ !isLocalGlobal x.addr.toNat then trapWave s 0x2E
  else if !storesAcked s 4 then stall s
  else if isVersioned s then retireWave (defer s x.deferred) 4
  else
    match waveTranslate s x.addr.toNat .write with
    | (.fail c, t) => trapValue t c x.addr 0
    | (.held, t) => holdWave t 0x20
    | (.ok pa, t) =>
      if !x.room t pa then await t (x.key t pa) 5 .room false
      else
        match x.accept (leaveWait t) pa with
        | .error c => if c = 0x4D then trapValue (leaveWait t) c x.addr 0 else trapWave (leaveWait t) c
        | .ok u => retireWave u 4

/-- TKPOST (R370). -/
def execTkpost (a : KReg) (s : State) : Out :=
  let p := s.wave.ids.part
  let addr := s.wave.regs.k[a]
  .next (postRecord s
    ⟨addr, 64, .tkpost addr, fun t pa => taskRoom t p pa,
      fun t pa => .roomTask p (Fin.ofNat 16 (bitsOf (memNat t pa 8) 11 8)), fun t pa => acceptTask t p addr pa []⟩)

/-- LAUNCH (R370). -/
def execLaunch (q : Fin 8) (a : KReg) (s : State) : Out :=
  let p := s.wave.ids.part
  let addr := s.wave.regs.k[a]
  .next (postRecord s
    ⟨addr, 128, .launch q addr, fun t _ => launchRoom t p q, fun _ _ => .roomLaunch p q,
      fun t pa => acceptLaunch t p q addr pa⟩)

end Sys2Proof.Machine
end

