-- ==== Sys2Proof/Machine/WaitTable.lean ====
section
/-!
DEFINITION. The instructions of the wait-for table, locks and semaphores (R400 to R407).
-/

namespace Sys2Proof.Machine

/-! ### Objects named by a register (R401 to R403) -/

/-- The checks of WREG, WDEREG hold and WPRIO, which translate nothing (R401): the cause, or whether the word is in another package. -/
def objectCheck (s : State) (a : W64) : Except Cause Bool :=
  match windowOf s a.toNat with
  | .bad => .error 0x19
  | .aperture slot off =>
    if (apertureAt s s.wave.ids.gang slot off 8).isNone then .error 0x1A
    else if a.toNat % 8 != 0 then .error 0x18
    else .ok false
  | .global _ => if a.toNat % 8 != 0 then .error 0x18 else .ok false
  | .remote _ _ => if a.toNat % 8 != 0 then .error 0x18 else .ok true
  | _ => .error 0x1C

/-- An instruction behind the checks of its object. -/
def withObject (s : State) (a : KReg) (k : ObjKey → Bool → State) : Out :=
  let x := s.wave.regs.k[a]
  match objectCheck s x with
  | .error c => .next (trapValue s c x 0)
  | .ok far => .next (k (keyAt s s.wave.ids.part (some s.wave.ids.gang) x.toNat) far)

/-- WREG wait (R402). -/
def execWregWait (a : KReg) (s : State) : Out :=
  withObject s a fun key far =>
    registered s (registerWait s key 0 .explicit true far) fun t => retireWave (settlePrio (sweepObjs t)) 4

/-- WREG hold: a second hold changes nothing (R402). -/
def execWregHold (a : KReg) (s : State) : Out :=
  withObject s a fun key _ =>
    roomed s (addLink s (tableDie s) s.wave.ids.part key 0 0 s.wave.ids.token 0) fun t => retireWave (settlePrio t) 4

/-- WDEREG wait removes an explicit wait (R402). -/
def execWderegWait (s : State) : Out := .next (retireWave (if inWait s then s else endWait s) 4)

/-- WDEREG hold (R402). -/
def execWderegHold (a : KReg) (s : State) : Out :=
  withObject s a fun key _ => retireWave (settlePrio (dropLink s key 0 s.wave.ids.token)) 4

/-- WPRIO (R403). -/
def execWprio (a b : KReg) (s : State) : Out :=
  withObject s a fun key _ =>
    let n : Fin 16 := Fin.ofNat 16 (s.wave.regs.k[b].toNat)
    roomed s (ensureObj s (tableDie s) s.wave.ids.part key 0) fun t =>
      let put := fun (o : ObjEntry) => if o.key == key then { o with ceil := n } else o
      retireWave (settlePrio (sweepObjs { t with objs := t.objs.map put })) 4

/-! ### WQUERY (R404) -/

/-- The object that a source names: by index in the issuing die's table, or by key. -/
def queryKey (s : State) (x : W64) : Option ObjKey :=
  if x.toNat / 2 ^ 62 = 3 then
    (s.objs.find? fun o => o.die == tableDie s && o.index == x.toNat % 2 ^ 21 && o.ext == x.getLsbD 21).map fun o => o.key
  else
    match objectCheck s x with
    | .ok _ => some (keyAt s s.wave.ids.part (some s.wave.ids.gang) x.toNat)
    | .error _ => none

/-- KIND of an object that is present (R388). -/
def kindOf (s : State) (key : ObjKey) : Option Nat := (s.objs.find? fun o => o.key == key).map fun o => o.kind

/-- Item 0: presence, KIND, CEIL, WMAX, NWAIT. -/
def queryHead (s : State) (key : ObjKey) (kind : Nat) : Nat :=
  let ws := (waiters s).filter fun e => e.2.key == key
  let ceil := ((s.objs.find? fun o => o.key == key).map fun o => o.ceil.val).getD 0
  2 ^ 31 + kind * 2 ^ 28 + ceil * 2 ^ 24 + (ws.foldl (fun m e => max m (prioOf s e.1)) 0) * 2 ^ 20 + min ws.length 0xFFFF

/-- Item 1: holder links, those of engines and observers among them. -/
def queryHolders (s : State) (key : ObjKey) : Nat :=
  min ((s.links.filter fun l => l.key == key).length + (engineHolders s key).length) 0xFFFF

/-- Item 2: the wave's own wait link. -/
def queryOwn (s : State) : Nat :=
  match openWait s.wave with
  | none => 0
  | some l => 2 ^ 31 + (if l.explicit then 2 ^ 30 else 0) + (if l.long then 2 ^ 29 else 0) + ((kindOf s l.key).getD 0) * 2 ^ 26

/-- Item 3: entries and links in use on the issuing die. -/
def queryUse (s : State) : Nat := min (objsUsed s (tableDie s)) 8192 + min (linksUsed s (tableDie s)) 16384 * 2 ^ 16

/-- KEY: a word's address; for other objects the value is not given, and `free` stands for it (log entry 21). -/
def keyBits (key : ObjKey) (free : W64) : W64 :=
  match key with
  | .word _ va => BitVec.ofNat 64 va
  | _ => free

/-- One item. -/
def queryItem (s : State) (x : W64) (sel : Nat) (free : W64) : W32 :=
  if sel = 2 then BitVec.ofNat 32 (queryOwn s)
  else if sel = 3 then BitVec.ofNat 32 (queryUse s)
  else
    match (queryKey s x).bind fun k => (kindOf s k).map fun n => (k, n) with
    | none => 0
    | some (k, n) =>
      if sel = 0 then BitVec.ofNat 32 (queryHead s k n)
      else if sel = 1 then BitVec.ofNat 32 (queryHolders s k)
      else if sel = 4 then lo32 (keyBits k free)
      else if sel = 5 then hi32 (keyBits k free)
      else 0

/-- WQUERY (R404). -/
def execWquery (d : Dst) (a : Src) (b : Src2) (h : Hold) (s : State) : Out :=
  checkedState s ([.src a true] ++ useSrc2 b false ++ [.dst d false]) true fun s =>
    let r := s.wave.regs
    let x := srcLanes r s.wave.ids.wave.val a true
    let y := src2Lanes r s.wave.ids.wave.val b false
    let fl := freeLanes s
    let v : Lanes W64 := Lanes.of fun l => (queryItem s x[l] (y[l].toNat % 8) fl[l]).setWidth 64
    onRegs { s with free := s.free + 32 } fun r => laneFinish r 4 d h ⟨x, true, y, false⟩ v false

/-! ### The word of a lock or a semaphore (R401) -/

/-- The checks of a lock or semaphore word. -/
def lockUse : WordUse where
  aperture := true
  globalOk := true
  acc := .write
  final := true

def locOf (s : State) (p : Place) : WordLoc :=
  match p with
  | .mem pa _ => .mem pa
  | .spad i off => .spad s.wave.ids.gang i off
  | _ => .mem 0

/-- The scope at which a lock word orders: package for a global word, gang for an aperture word. -/
def locScope (l : WordLoc) : Nat :=
  match l with
  | .mem _ => 4
  | .spad _ _ _ => 2

/-- What reading the word adds to the clock. -/
def locClk (s : State) (l : WordLoc) : Clk :=
  match l with
  | .mem pa => latestClk s pa 8 s.wave.clk
  | .spad k i off =>
    match findGroup s k i.val with
    | some g => spadClkAt g off 8 s.wave.clk
    | none => s.wave.clk

/-- The lines whose tags an acquisition observes. -/
def locLines (l : WordLoc) : List Nat :=
  match l with
  | .mem pa => [pa / 128]
  | _ => []

/-- The update of the word by the issuing wave. -/
def locWrite (s : State) (l : WordLoc) (x : Nat) : State :=
  match l with
  | .mem pa => waveStamp (writerLine s (waveWriter s) pa) (keyed pa (leBytes 8 x))
  | .spad k i off => spadWrite s k i off (leBytes 8 x) s.wave.clk

/-- The clock of the issuing wave after an update of the word that others see handed on (R276). -/
def locUpdated (s : State) (l : WordLoc) : State := onWave s fun w => { w with clk := locClk s l }

/-- An operation on a global word escapes a versioned task: tag and event (R407, R426). -/
def locEscapes (s : State) (l : WordLoc) : State :=
  match l with
  | .mem pa =>
    if isVersioned s then
      countEvent (tagLine s (taskOf s) (pa / 128)) s.wave.ids.core (some s.wave.ids.gang) 17 1
    else s
  | _ => s

/-- An instruction behind the checks of its word, with its location and key. -/
def withLock (s : State) (a : KReg) (k : WordLoc → ObjKey → State → State) : Out :=
  let x := s.wave.regs.k[a]
  withWord s x 8 lockUse fun p t => k (locOf t p) (keyAt t t.wave.ids.part (some t.wave.ids.gang) x.toNat) t

/-- An acquisition that succeeds: observers, the acquire, the end of the wait (R286, R405, R407). -/
def acquired (s : State) (a : KReg) (l : WordLoc) (k : State → State) : State :=
  observing s (locLines l) (fun _ => trapValue s 0x4A s.wave.regs.k[a] 0) fun t =>
    retireWave (k (join (leaveWait t) (locClk t l))) 4

/-- Whether the issuing wave waits on an object at its instruction. -/
def waitsOn (s : State) (key : ObjKey) : Bool := s.wave.wait.any fun l => l.key == key && !l.explicit

/-- WAITERS set in the word. -/
def setWaiters (s : State) (l : WordLoc) : State :=
  let old := wordRead s l
  wordWrite s (waveWriter s) l (old / 2 ^ 33 * 2 ^ 33 + 2 ^ 32 + old % 2 ^ 32) s.wave.clk

/-! ### LOCK, UNLOCK (R405) -/

/-- A LOCK whose owner is the wave itself, or no live wave: a cycle of one member (R396). The records name the word's entry, which stays for the handler's WQUERY (R397). -/
def lockCycle (s : State) (l : WordLoc) (key : ObjKey) (members : List (W32 × ObjKey)) : State :=
  roomed s (ensureObj s (tableDie s) s.wave.ids.part key 3) fun t =>
  let me := s.wave.ids.token
  let s1 := { t with objs := t.objs.map fun o => if o.key == key then { o with named := some me } else o }
  let rec0 := memberList s1 members
  if (s.parts[s.wave.ids.part]).pfmode.getLsbD 2 && !isReleased s then
    let link : WaitLink := ⟨false, false, key, s.dies[tableDie s].clock, .lockHand, false, s1.nextKey⟩
    let s2 := onWave { setWaiters s1 l with nextKey := s1.nextKey + 1 } fun w => { w with wait := some link, run := .held }
    tellHost (onPart s2 s.wave.ids.part fun p => { p with parked := ⟨s.wave.ids.tid, 0x29, [s.wave.ids.token]⟩ :: p.parked })
      (.members s.wave.ids.part rec0)
  else trapDeadlock s1 rec0

/-- LOCK on a word that another live wave owns. -/
def lockWait (s : State) (l : WordLoc) (key : ObjKey) (owner : W32) : State :=
  roomed s (addLink s (tableDie s) s.wave.ids.part key 3 1 owner 0) fun s1 =>
    registered s (markReg (fun t => setWaiters t l) (registerWait s1 key 3 .lockHand false false)) stall

/-- LOCK (R405). R396 says that a LOCK whose OWNER is no live wave closes a cycle of one member, and R397 gives AGENT 0 for the missing owner: the model lists two records there, the wave's with SUB 0 and the missing owner's with SUB 1 (DESIGN CHOICE, log entry 39). -/
def execLock (a : KReg) (s : State) : Out :=
  withLock s a fun l key s =>
    if isGranted s key then acquired s a l id
    else if waitsOn s key then stall s
    else
      let me := s.wave.ids.token
      let old := wordRead s l
      let owner : W32 := BitVec.ofNat 32 old
      if owner = 0 then
        acquired s a l fun t =>
          locEscapes (locWrite { t with locks := (me, key) :: t.locks } l (old / 2 ^ 32 * 2 ^ 32 + me.toNat)) l
      else if owner = me then lockCycle s l key [(me, key)]
      else if (findWave s owner).isNone then lockCycle s l key [(me, key), (0, .commit ⟨0, 0⟩)]
      else lockWait s l key owner

/-- UNLOCK (R405). -/
def execUnlock (a : KReg) (s : State) : Out :=
  withLock s a fun l key s =>
    let me := s.wave.ids.token
    if BitVec.ofNat 32 (wordRead s l) != me then trapWave s 0x24
    else if !storesAcked s (locScope l) then stall s
    else
      let t := lockRelease (locEscapes s l) (waveWriter s) l key me s.wave.clk
      retireWave (settlePrio (locUpdated t l)) 4

/-! ### SEMTAKE, SEMGIVE (R406) -/

/-- The units that an instruction names. -/
def unitsOf (s : State) (b : KReg) : Nat := (lo32 s.wave.regs.k[b]).toNat

/-- SEMTAKE that waits. -/
def semWait (s : State) (l : WordLoc) (key : ObjKey) (n : Nat) : State :=
  registered s (markReg (fun t => setWaiters t l) (registerWait s key 4 (.units n) false false)) stall

/-- SEMTAKE (R406). -/
def execSemtake (a b : KReg) (s : State) : Out :=
  withLock s a fun l key s =>
    let n := unitsOf s b
    let old := wordRead s l
    if n = 0 then retireWave s 4
    else if isGranted s key then acquired s a l id
    else if waitsOn s key then stall s
    else if n ≤ old % 2 ^ 32 ∧ handWaiters s key isUnitsWait = [] then
      observing s (locLines l) (fun _ => trapValue s 0x4A s.wave.regs.k[a] 0) fun s1 =>
        roomed s (addLink s1 (tableDie s) s.wave.ids.part key 4 2 s.wave.ids.token n) fun t =>
          acquired t a l fun u => settlePrio (locEscapes (locWrite u l (old - n)) l)
    else semWait s l key n

/-- SEMGIVE (R406). -/
def execSemgive (a b : KReg) (s : State) : Out :=
  withLock s a fun l key s =>
    if !storesAcked s (locScope l) then stall s
    else
      let t := locEscapes s l
      let u := semRelease t (waveWriter s) s.wave.ids.part (tableDie s) l key s.wave.ids.token (unitsOf s b) s.wave.clk
      retireWave (settlePrio (locUpdated u l)) 4

end Sys2Proof.Machine
end

