-- ==== Sys2Proof/Machine/Dispatch.lean ====
section
/-!
DEFINITION. One arm for each operation: a direct call of its meaning.
-/

namespace Sys2Proof.Machine

/-- What an operation does. -/
def exec (i : Instr) (s : State) : Host.Outcome State Fault Refusal :=
  match i with
  | .nop => Sys2Proof.Machine.execNop s
  | .endW => Sys2Proof.Machine.execEndW s
  | .yieldW => Sys2Proof.Machine.execYieldW s
  | .jmp o => Sys2Proof.Machine.execJmp o s
  | .jmpk a => Sys2Proof.Machine.execJmpk a s
  | .call o => Sys2Proof.Machine.execCall o s
  | .ret => Sys2Proof.Machine.execRet s
  | .brany c o => Sys2Proof.Machine.execBrany c o s
  | .brall c o => Sys2Proof.Machine.execBrall c o s
  | .brnone c o => Sys2Proof.Machine.execBrnone c o s
  | .ifp c o => Sys2Proof.Machine.execIfp c o s
  | .elsep o => Sys2Proof.Machine.execElsep o s
  | .endifp => Sys2Proof.Machine.execEndifp s
  | .breakp c o => Sys2Proof.Machine.execBreakp c o s
  | .trap n a => Sys2Proof.Machine.execTrap n a s
  | .execrd d h => Sys2Proof.Machine.execExecrd d h s
  | .execwr a h => Sys2Proof.Machine.execExecwr a h s
  | .setMode m => Sys2Proof.Machine.execSetMode m s
  | .modek a => Sys2Proof.Machine.execModek a s
  | .lit d w => Sys2Proof.Machine.execLit d w s
  | .lith d w => Sys2Proof.Machine.execLith d w s
  | .getsr d r h => Sys2Proof.Machine.execGetsr d r h s
  | .setsr r a => Sys2Proof.Machine.execSetsr r a s
  | .eret => Sys2Proof.Machine.execEret s
  | .nopreempt => Sys2Proof.Machine.execNopreempt s
  | .preemptok => Sys2Proof.Machine.execPreemptok s
  | .phase => Sys2Proof.Machine.execPhase s
  | .add d a b h => Sys2Proof.Machine.execAdd d a b h s
  | .sub d a b h => Sys2Proof.Machine.execSub d a b h s
  | .mul d a b h => Sys2Proof.Machine.execMul d a b h s
  | .mulhi d a b h => Sys2Proof.Machine.execMulhi d a b h s
  | .mad d a b c => Sys2Proof.Machine.execMad d a b c s
  | .neg d a h => Sys2Proof.Machine.execNeg d a h s
  | .abs d a h => Sys2Proof.Machine.execAbs d a h s
  | .min d a b h => Sys2Proof.Machine.execMin d a b h s
  | .max d a b h => Sys2Proof.Machine.execMax d a b h s
  | .div d a b h => Sys2Proof.Machine.execDiv d a b h s
  | .lea d a b s0 h => Sys2Proof.Machine.execLea d a b s0 h s
  | .scaleb d a b h => Sys2Proof.Machine.execScaleb d a b h s
  | .cmp d a b c h => Sys2Proof.Machine.execCmp d a b c h s
  | .sel d a b p h => Sys2Proof.Machine.execSel d a b p h s
  | .classF d a h => Sys2Proof.Machine.execClassF d a h s
  | .and d a b h => Sys2Proof.Machine.execAnd d a b h s
  | .or d a b h => Sys2Proof.Machine.execOr d a b h s
  | .xor d a b h => Sys2Proof.Machine.execXor d a b h s
  | .not d a h => Sys2Proof.Machine.execNot d a h s
  | .andn d a b h => Sys2Proof.Machine.execAndn d a b h s
  | .shl d a b h => Sys2Proof.Machine.execShl d a b h s
  | .shr d a b h => Sys2Proof.Machine.execShr d a b h s
  | .sar d a b h => Sys2Proof.Machine.execSar d a b h s
  | .rotl d a b h => Sys2Proof.Machine.execRotl d a b h s
  | .clz d a h => Sys2Proof.Machine.execClz d a h s
  | .popc d a h => Sys2Proof.Machine.execPopc d a h s
  | .brev d a h => Sys2Proof.Machine.execBrev d a h s
  | .bfx d a b c => Sys2Proof.Machine.execBfx d a b c s
  | .bfi d a b c => Sys2Proof.Machine.execBfi d a b c s
  | .pnot p g => Sys2Proof.Machine.execPnot p g s
  | .rcp d a h => Sys2Proof.Machine.execRcp d a h s
  | .rsq d a h => Sys2Proof.Machine.execRsq d a h s
  | .sqrt d a h => Sys2Proof.Machine.execSqrt d a h s
  | .exp2 d a h => Sys2Proof.Machine.execExp2 d a h s
  | .log2 d a h => Sys2Proof.Machine.execLog2 d a h s
  | .ln d a h => Sys2Proof.Machine.execLn d a h s
  | .fract d a h => Sys2Proof.Machine.execFract d a h s
  | .roundi d a h => Sys2Proof.Machine.execRoundi d a h s
  | .cvt d a k h => Sys2Proof.Machine.execCvt d a k h s
  | .pack d a b h => Sys2Proof.Machine.execPack d a b h s
  | .unpack d a h => Sys2Proof.Machine.execUnpack d a h s
  | .mxq d a h => Sys2Proof.Machine.execMxq d a h s
  | .mxdq d a b h => Sys2Proof.Machine.execMxdq d a b h s
  | .pset p a => Sys2Proof.Machine.execPset p a s
  | .pand p g1 g2 => Sys2Proof.Machine.execPand p g1 g2 s
  | .por p g1 g2 => Sys2Proof.Machine.execPor p g1 g2 s
  | .shfl d a b h => Sys2Proof.Machine.execShfl d a b h s
  | .bfly d a b h => Sys2Proof.Machine.execBfly d a b h s
  | .lrot d a b h => Sys2Proof.Machine.execLrot d a b h s
  | .bcast d a b h => Sys2Proof.Machine.execBcast d a b h s
  | .vote d a o h => Sys2Proof.Machine.execVote d a o h s
  | .lreduce d a o h => Sys2Proof.Machine.execLreduce d a o h s
  | .lscan d a o h => Sys2Proof.Machine.execLscan d a o h s
  | .kmov d y => Sys2Proof.Machine.execKmov d y s
  | .kadd d a y => Sys2Proof.Machine.execKadd d a y s
  | .ksub d a y => Sys2Proof.Machine.execKsub d a y s
  | .kmul d a y => Sys2Proof.Machine.execKmul d a y s
  | .kand d a y => Sys2Proof.Machine.execKand d a y s
  | .kor d a y => Sys2Proof.Machine.execKor d a y s
  | .kxor d a y => Sys2Proof.Machine.execKxor d a y s
  | .kshl d a y => Sys2Proof.Machine.execKshl d a y s
  | .kshr d a y => Sys2Proof.Machine.execKshr d a y s
  | .kcmp d a y c => Sys2Proof.Machine.execKcmp d a y c s
  | .kread d a l w64 => Sys2Proof.Machine.execKread d a l w64 s
  | .klit d n => Sys2Proof.Machine.execKlit d n s
  | .propose => Sys2Proof.Machine.execPropose s
  | .accept d a h => Sys2Proof.Machine.execAccept d a h s
  | .discard => Sys2Proof.Machine.execDiscard s
  | .draw d h => Sys2Proof.Machine.execDraw d h s
  | .drawkey a b => Sys2Proof.Machine.execDrawkey a b s
  | .mbstat d a => Sys2Proof.Machine.execMbstat d a s
  | .mbclr pcnt acnt norm => Sys2Proof.Machine.execMbclr pcnt acnt norm s
  | .ld d a b c => Sys2Proof.Machine.execLd d a b c s
  | .st a b c => Sys2Proof.Machine.execSt a b c s
  | .ldq d a b c => Sys2Proof.Machine.execLdq d a b c s
  | .stq a b c => Sys2Proof.Machine.execStq a b c s
  | .cas d a b c => Sys2Proof.Machine.execCas d a b c s
  | .pref a c => Sys2Proof.Machine.execPref a c s
  | .pin a b => Sys2Proof.Machine.execPin a b s
  | .unpin a b => Sys2Proof.Machine.execUnpin a b s
  | .fence s0 o => Sys2Proof.Machine.execFence s0 o s
  | .waitp p a => Sys2Proof.Machine.execWaitp p a s
  | .atom o a b c => Sys2Proof.Machine.execAtom o a b c s
  | .atomr o d a b c => Sys2Proof.Machine.execAtomr o d a b c s
  | .mxplan p a => Sys2Proof.Machine.execMxplan p a s
  | .mxzero t f => Sys2Proof.Machine.execMxzero t f s
  | .mxstep t p a sig => Sys2Proof.Machine.execMxstep t p a sig s
  | .mxloop t p a l sig => Sys2Proof.Machine.execMxloop t p a l sig s
  | .mxrd d a h => Sys2Proof.Machine.execMxrd d a h s
  | .mxwr a b => Sys2Proof.Machine.execMxwr a b s
  | .mxmon slot a sig => Sys2Proof.Machine.execMxmon slot a sig s
  | .monrd d a h => Sys2Proof.Machine.execMonrd d a h s
  | .monclr mask => Sys2Proof.Machine.execMonclr mask s
  | .barinit a b => Sys2Proof.Machine.execBarinit a b s
  | .bararr a b => Sys2Proof.Machine.execBararr a b s
  | .barwait a b => Sys2Proof.Machine.execBarwait a b s
  | .barfree a => Sys2Proof.Machine.execBarfree a s
  | .cntadd a b => Sys2Proof.Machine.execCntadd a b s
  | .cntaddMax a b => Sys2Proof.Machine.execCntaddMax a b s
  | .cntaddSignal a => Sys2Proof.Machine.execCntaddSignal a s
  | .cntwait a b => Sys2Proof.Machine.execCntwait a b s
  | .cntarm a b => Sys2Proof.Machine.execCntarm a b s
  | .pmsel c a => Sys2Proof.Machine.execPmsel c a s
  | .pmrd d a h => Sys2Proof.Machine.execPmrd d a h s
  | .pmreplay a => Sys2Proof.Machine.execPmreplay a s
  | .shape d a b e => Sys2Proof.Machine.execShape d a b e s
  | .cpy a src => Sys2Proof.Machine.execCpy a src s
  | .cpym a mask => Sys2Proof.Machine.execCpym a mask s
  | .cpydq a => Sys2Proof.Machine.execCpydq a s
  | .chkick ch a => Sys2Proof.Machine.execChkick ch a s
  | .chtail ch a => Sys2Proof.Machine.execChtail ch a s
  | .tkpost a => Sys2Proof.Machine.execTkpost a s
  | .launch q a => Sys2Proof.Machine.execLaunch q a s
  | .rtemitRec a => Sys2Proof.Machine.execRtemitRec a s
  | .rtemitBox a => Sys2Proof.Machine.execRtemitBox a s
  | .rttake x => Sys2Proof.Machine.execRttake x s
  | .rtdone => Sys2Proof.Machine.execRtdone s
  | .rtrej => Sys2Proof.Machine.execRtrej s
  | .rtstat d a h => Sys2Proof.Machine.execRtstat d a h s
  | .wregWait a => Sys2Proof.Machine.execWregWait a s
  | .wregHold a => Sys2Proof.Machine.execWregHold a s
  | .wderegWait => Sys2Proof.Machine.execWderegWait s
  | .wderegHold a => Sys2Proof.Machine.execWderegHold a s
  | .wprio a b => Sys2Proof.Machine.execWprio a b s
  | .wquery d a b h => Sys2Proof.Machine.execWquery d a b h s
  | .lock a => Sys2Proof.Machine.execLock a s
  | .unlock a => Sys2Proof.Machine.execUnlock a s
  | .semtake a b => Sys2Proof.Machine.execSemtake a b s
  | .semgive a b => Sys2Proof.Machine.execSemgive a b s
  | .puts a rsig => Sys2Proof.Machine.execPuts a rsig s
  | .get a => Sys2Proof.Machine.execGet a s
  | .radd a rsig => Sys2Proof.Machine.execRadd a rsig s
  | .rfence => Sys2Proof.Machine.execRfence s
  | .coll a => Sys2Proof.Machine.execColl a s
  | .matrixCommandAccept core => Sys2Proof.Machine.execMatrixCommandAccept core s
  | .kStep core => Sys2Proof.Machine.execKStep core s
  | .matrixCommandRun core => Sys2Proof.Machine.execMatrixCommandRun core s
  | .copyAccept cl => Sys2Proof.Machine.execCopyAccept cl s
  | .copyComplete cl n => Sys2Proof.Machine.execCopyComplete cl n s
  | .channelPoll d ch => Sys2Proof.Machine.execChannelPoll d ch s
  | .recordReturn d ch => Sys2Proof.Machine.execRecordReturn d ch s
  | .streamTile d ch => Sys2Proof.Machine.execStreamTile d ch s
  | .admitGang p => Sys2Proof.Machine.execAdmitGang p s
  | .preemptEvict p => Sys2Proof.Machine.execPreemptEvict p s
  | .resumeEvicted p => Sys2Proof.Machine.execResumeEvicted p s
  | .unparkWave token => Sys2Proof.Machine.execUnparkWave token s
  | .clockGate core => Sys2Proof.Machine.execClockGate core s
  | .clockRestart core => Sys2Proof.Machine.execClockRestart core s
  | .nopreemptExpired token => Sys2Proof.Machine.execNopreemptExpired token s
  | .suspectedDeadlock token => Sys2Proof.Machine.execSuspectedDeadlock token s
  | .pageWalk core p va acc => Sys2Proof.Machine.execPageWalk core p va acc s
  | .demandZeroResolution core p va => Sys2Proof.Machine.execDemandZeroResolution core p va s
  | .writeApply d l1cores => Sys2Proof.Machine.execWriteApply d l1cores s
  | .memoryResponse token path => Sys2Proof.Machine.execMemoryResponse token path s
  | .taskTake p q => Sys2Proof.Machine.execTaskTake p q s
  | .taskCommit tid => Sys2Proof.Machine.execTaskCommit tid s
  | .routerSetEntry launch => Sys2Proof.Machine.execRouterSetEntry launch s
  | .routerSetLeave launch => Sys2Proof.Machine.execRouterSetLeave launch s
  | .routerMove launch => Sys2Proof.Machine.execRouterMove launch s
  | .pipeCheck site => Sys2Proof.Machine.execPipeCheck site s
  | .partFaultEvent part => Sys2Proof.Machine.execPartFaultEvent part s
  | .hbmUncorrectable site pa => Sys2Proof.Machine.execHbmUncorrectable site pa s
  | .hbmScrub stack row corrected => Sys2Proof.Machine.execHbmScrub stack row corrected s
  | .inFieldTest core => Sys2Proof.Machine.execInFieldTest core s
  | .inFieldTestForced core => Sys2Proof.Machine.execInFieldTestForced core s
  | .linkFault port => Sys2Proof.Machine.execLinkFault port s
  | .remoteRequest r => Sys2Proof.Machine.execRemoteRequest r s
  | .remoteResponse token x => Sys2Proof.Machine.execRemoteResponse token x s
  | .remoteTimeout token => Sys2Proof.Machine.execRemoteTimeout token s
  | .collectiveComplete dpid group cseq => Sys2Proof.Machine.execCollectiveComplete dpid group cseq s
  | .submitLaunch p => Sys2Proof.Machine.execSubmitLaunch p s
  | .submitTaskRecord p => Sys2Proof.Machine.execSubmitTaskRecord p s
  | .tlbInvalidate p => Sys2Proof.Machine.execTlbInvalidate p s
  | .releaseParkedItem p => Sys2Proof.Machine.execReleaseParkedItem p s
  | .returnParkedItem p => Sys2Proof.Machine.execReturnParkedItem p s
  | .writeRegister p => Sys2Proof.Machine.execWriteRegister p s
  | .setCollectiveGroup p => Sys2Proof.Machine.execSetCollectiveGroup p s
  | .destroyPartition p => Sys2Proof.Machine.execDestroyPartition p s
  | .createPartition p => Sys2Proof.Machine.execCreatePartition p s
  | .createLockstepPartition p => Sys2Proof.Machine.execCreateLockstepPartition p s
  | .resetPartition p => Sys2Proof.Machine.execResetPartition p s
  | .cmdkick p head => Sys2Proof.Machine.execCmdkick p head s
  | .commandPoll p => Sys2Proof.Machine.execCommandPoll p s
  | .hostChannelKick d ch head => Sys2Proof.Machine.execHostChannelKick d ch head s
  | .channelRegisterRead r => Sys2Proof.Machine.execChannelRegisterRead r s
  | .pfmodeWrite p v => Sys2Proof.Machine.execPfmodeWrite p v s
  | .ptrootWrite p v => Sys2Proof.Machine.execPtrootWrite p v s
  | .ctxsizeWrite d v => Sys2Proof.Machine.execCtxsizeWrite d v s
  | .vsmaxWrite d v => Sys2Proof.Machine.execVsmaxWrite d v s
  | .registerWrite off v => Sys2Proof.Machine.execRegisterWrite off v s
  | .powerOnReset failed => Sys2Proof.Machine.execPowerOnReset failed s
  | .dieReset d => Sys2Proof.Machine.execDieReset d s
  | .packageReset => Sys2Proof.Machine.execPackageReset s
  | .alertWrite v => Sys2Proof.Machine.execAlertWrite v s
  | .sidebandRegisterWrite addr v => Sys2Proof.Machine.execSidebandRegisterWrite addr v s
  | .temperatureAlert bits => Sys2Proof.Machine.execTemperatureAlert bits s
  | .thermalShutdown => Sys2Proof.Machine.execThermalShutdown s
  | .firmwareStage image svn build => Sys2Proof.Machine.execFirmwareStage image svn build s
  | .raiseRollbackFloor svn signature => Sys2Proof.Machine.execRaiseRollbackFloor svn signature s
  | .attestationQuote nonce => Sys2Proof.Machine.execAttestationQuote nonce s
  | .illegalInstr word => Sys2Proof.Machine.execIllegalInstr word s
  | .powerLoss => Sys2Proof.Machine.execPowerLoss s
  | .inFieldTestEnd core passed => Sys2Proof.Machine.execInFieldTestEnd core passed s
  | .secondCopyRestored => Sys2Proof.Machine.execSecondCopyRestored s
  | .contributorPackageFailure rank => Sys2Proof.Machine.execContributorPackageFailure rank s
  | .flitRetransmission port => Sys2Proof.Machine.execFlitRetransmission port s

end Sys2Proof.Machine
end

