-- ==== Sys2Proof/Machine/Agenda.lean ====
section
/-!
DEFINITION. The device's own choice of its next step (log entry 1).
-/

namespace Sys2Proof.Machine

/-- The next step of an engine or a queue. -/
def engineEvent (s : State) : Option Instr :=
  (matrixEvent s).or ((copyEvent s).or ((channelEvent s).or ((routerEvent s).or ((taskEvent s).or (collEvent s)))))

/-- The next step of the command interface, the scheduler, the tests and the clocks. -/
def serviceEvent (s : State) : Option Instr :=
  (commandEvent s).or ((schedEvent s).or ((testEvent s).or (restartEvent s)))

/-- The next step that the device takes on its own, if any; an answer that does not come in time is found missing (R444). -/
def nextEvent (s : State) : Option Instr := (memoryEvent s).or ((timeoutEvent s).or ((engineEvent s).or (serviceEvent s)))

/-- A step that only an idle device takes: a re-read that is due, a clock that stops. -/
def idleEvent (s : State) : Option Instr := (channelPollEvent s).or ((commandPollEvent s).or (gateEvent s))

end Sys2Proof.Machine
end

