-- ==== Sys2Proof/Machine/Issue.lean ====
section
/-!
DEFINITION. What the machine does next: time (R102, log entry 3), the fetch of an instruction (R75, R93, R190), arbitration (R154), the turns of State.agenda (log entry 1), and the placing of an instruction where the fetch finds it (log entry 4).
-/

namespace Sys2Proof.Machine

/-! ### Time -/

/-- The cycles that pass with a step: one and some more. -/
def stepCycles (s : State) : Nat := 1 + Config.elapsed s.free

/-- A wave after `n` cycles: the window counts down (R205), and a wave that could issue has waited (R154). -/
def passWave (n : Nat) (w : Wave) : Wave :=
  { w with
    npleft := if w.npOpen then w.npleft - n else w.npleft
    waited := if w.run = .running ∧ waitOver w then w.waited + n else w.waited }

/-- A wave in BARWAIT or CNTWAIT. -/
def inCountedWait (w : Wave) : Bool :=
  (openWait w).any fun l => !l.explicit && (match l.what with | .phase _ | .count _ _ => true | _ => false)

/-- The cycles that a wave adds to events 13 and 14 (R325). -/
def countWave (n : Nat) (s : State) (w : Wave) : State :=
  let s1 := if inCountedWait w then countEvent s w.ids.core (some w.ids.gang) 13 n else s
  if w.run == .parked then countEvent s1 w.ids.core (some w.ids.gang) 14 n else s1

/-- The cycles that a core adds to event 12: the step at the head of its queue waits for its operands (R325). -/
def countOperands (n : Nat) (s : State) (u : Fin 192) : State :=
  match s.cores[u].mxQueue with
  | ⟨.steps _ _ _ _ _ _ _ _ _, who, _⟩ :: _ => if stepReady s s.cores[u] then s else countEvent s u who.gang 12 n
  | _ => s

/-- Occurrences of the events that count cycles (R325), on the cores of measured gangs. -/
def countCycles (s : State) (n : Nat) : State :=
  let here := fun (k : GangKey) => (findGang s k).any fun g => g.evictedAt.isNone
  if s.gangs.any fun g => g.meas then
    let s1 := (s.groups.filter fun g => here g.gang && (findGang s g.gang).any fun x => x.meas).foldl
      (fun t g => countEvent t g.core (some g.gang) 1 n) s
    (List.finRange 192).foldl (countOperands n) (((liveWaves s).filter fun w => here w.ids.gang).foldl (countWave n) s1)
  else s

/-- Time passes. -/
def tick (s : State) : State :=
  let n := stepCycles s
  let die := fun (d : Die) => { d with clock := d.clock + BitVec.ofNat 64 n }
  let s1 := onWaves { s with dies := s.dies.map die, free := s.free + 1 } (passWave n)
  countCycles s1 n

/-! ### What holds before every step -/

/-- Tile fetches of the steps in the array begin (R300). -/
def fetchAll (s : State) : State :=
  if s.cores.toList.all fun c => c.mxQueue.isEmpty then s else (List.finRange 192).foldl fetchTiles s

/-! ### Fetch (R75, R93) -/

/-- The cause of a fetch outside global memory (R229, R231). -/
def fetchWindow (s : State) (va : Nat) : Except Cause Nat :=
  match windowOf s va with
  | .global a => .ok a
  | .bad => .error 0x19
  | _ => .error 0x1C

/-- How the fetch of a word ends. -/
inductive Fetch where
  | word (w : W32)
  | fail (c : Cause)
  | held
  deriving DecidableEq, Repr

/-- The word at a physical address, through the instruction cache and, on a miss, the die's L2: the cache holds the word that it gave before, and where memory has changed since either is taken (R93, log entry 11). -/
def cachedWord (s : State) (c : Fin 192) (pa : Nat) : W32 × State :=
  let new := BitVec.ofNat 32 (memNat s pa 4)
  let put := fun (t : State) =>
    onCore (useL2 t c (some t.wave.ids.gang) (coreDie c) (pa / 128) none) c fun x => { x with icache := ((pa, new) :: x.icache.filter fun e => e.1 != pa).take 16384 }
  match s.cores[c].icache.find? fun e => e.1 == pa with
  | none => (new, put s)
  | some e =>
    if e.2 = new then (new, s)
    else
      let r := drawFree s
      if r.1.getLsbD 0 then (new, put r.2) else (e.2, r.2)

/-- The fetch of one word for the issuing wave. -/
def fetchWord (s : State) (va : Nat) : Fetch × State :=
  match fetchWindow s va with
  | .error c => (.fail c, s)
  | .ok a =>
    match waveTranslate s a .fetch with
    | (.fail c, t) => (.fail c, t)
    | (.held, t) => (.held, t)
    | (.ok pa, t) =>
      if lostRead t t.wave.ids.part none (bytesFrom pa 4) then (.fail 0x4D, t)
      else
        let r := cachedWord t s.wave.ids.core pa
        (.word r.1, r.2)

/-! ### The issue of an instruction (R90, R190, R421) -/

/-- What comes next: nothing for want of power; a step of the device or the host; the issue of an instruction by the issuing wave; a trap in its place; a state that is reached already. -/
inductive Pick where
  | off
  | exec (i : Instr) (s : State)
  | issue (i : Instr) (s : State)
  /-- The issue in the first state has led to the second: a trap before the instruction was carried out. -/
  | trap (t u : State)
  | done (s : State)

/-- A word with its literal, decoded; the trap of R90 where it is illegal. -/
def decoded (w : W32) (literal : Option W32) : Instr :=
  match decode (bytesOfWord w ++ (literal.map bytesOfWord).getD []) with
  | .ok (i, _) => i
  | .error _ => .illegalInstr w

/-- Whether a word is illegal: its literal is data and never checked (R90). -/
def isIllegal (w : W32) : Bool := decoded w (if wantsLiteral w then some 0 else none) == .illegalInstr w

/-- The trap of a fetch. -/
def fetchTrap (t : State) (c : Cause) (va : W64) : Pick := .trap t (trapValue t c va 0)

/-- The issuing wave's next instruction: its word, the check of R90, then its literal (R75, R421). -/
def fetchPick (s : State) : Pick :=
  let pc := s.wave.regs.pc
  match fetchWord s pc.toNat with
  | (.fail c, t) => fetchTrap t c pc
  | (.held, t) => .done (holdWave t 0x20)
  | (.word w, t) =>
    let t1 := if triesAgain t then t else countEvent t t.wave.ids.core (some t.wave.ids.gang) 2 1
    if isIllegal w then .issue (.illegalInstr w) t1
    else if wantsLiteral w then
      match fetchWord t1 (pc + 4).toNat with
      | (.fail c, u) => fetchTrap u c (pc + 4)
      | (.held, u) => .done (holdWave u 0x20)
      | (.word x, u) => .issue (decoded w (some x)) u
    else .issue (decoded w none) t1

/-- Whether a wave's window has run out and has still to close (R206). -/
def windowSpent (w : Wave) : Bool := w.npOpen && w.npleft == 0

/-- The live wave of a token takes the issuing place; one that has ended leaves. -/
def switchTo (s : State) (t : W32) : State :=
  if s.wave.ids.token = t ∧ s.wave.run ≠ .ended then s
  else
    match s.waves.find? fun w => w.ids.token == t && w.run != .ended with
    | none => s
    | some w =>
      let rest := s.waves.filter fun x => x.ids.token != t
      { s with wave := w, waves := if s.wave.run = .ended then rest else rest ++ [s.wave] }

/-- The issuing wave at a new instruction: no release by the host, no earlier try of another instruction and no answer to one counts for it. -/
def arrive0 (s : State) : State :=
  let keep := fun (x : Option W64) => if x == some s.wave.regs.pc then x else none
  onWave s fun w => forgetLeft { w with released := keep w.released, tried := keep w.tried }

/-- Whether the issuing wave has issued the instruction at which it stands, and waits for it to complete: in a registered wait, or for another package. -/
def midInstr (s : State) : Bool := inWait s || (blockingWait s.wave).isSome

/-- The wave in the issuing place issues: a window that has run out closes, an owed trap comes before the next instruction (R206, R421). -/
def issuePick (s : State) : Pick :=
  let s1 := arrive0 (tick s)
  if windowSpent s1.wave then .exec (.nopreemptExpired s1.wave.ids.token) s1
  else if s1.wave.npOwed && !midInstr s1 then
    let s2 := trapWave s1 0x07
    .trap s1 (if s2.wave.handler then onWave s2 fun w => { w with npOwed := false } else s2)
  else fetchPick s1

/-! ### Arbitration (R154) -/

/-- Whether a wave is resident on a core whose clock runs, and not blocked (R39). -/
def mayIssue (s : State) (w : Wave) : Bool :=
  w.run == .running && !s.cores[w.ids.core].gated && waitOver w && !windowHeld s w && !windowSpent w

/-- The sub-core of a wave slot. -/
def subCore (w : Wave) : Nat := w.ids.slot.val / 12

/-- Whether the wave of a token has issued between two states: its instruction did not stall at an interlock, and was not held for the host. The issue of a wait and that of an access to another package count (R92). -/
def hasIssued (t u : State) (k : W32) : Bool :=
  let sent := fun (x : State) => ((findWave x k).map fun w => w.remoteOut.length).getD 0
  (findWave u k).all fun w => w.run != .held && (!(w.run == .stalled && (openWait w).isNone) || decide (sent t < sent u))

/-- Whether a wave's next instruction passes its interlocks, found by trying it (R92, log entry 3). -/
def passes (s : State) (w : Wave) : Bool :=
  let stands := fun (t u : State) => hasIssued t u w.ids.token || (findWave u w.ids.token).any fun x => x.run == .held
  match issuePick (switchTo s w.ids.token) with
  | .issue i t =>
    (match exec i t with
      | .next u => stands t u
      | _ => true)
  | _ => true

/-- Whether another wave of its sub-core may issue too. -/
def contended (s : State) (w : Wave) : Bool :=
  (liveWaves s).any fun x => x.ids.token != w.ids.token && x.ids.core == w.ids.core && subCore x == subCore w && mayIssue s x

/-- Whether a wave is ready (R154): it may issue, and its next instruction passes its interlocks. A wave without a rival the model lets try. -/
def isReady (s : State) (w : Wave) : Bool := mayIssue s w && (!contended s w || passes s w)

/-- Waves that are found not to be ready: they have waited for nothing (R154). -/
def markReady (s : State) : State :=
  let out := ((liveWaves s).filter fun w => mayIssue s w && contended s w && !passes s w).map fun w => w.ids.token
  if out.isEmpty then s else onWaves s fun w => if out.contains w.ids.token then { w with waited := 0, readySince := s.free } else w

/-- What follows from the state at once: tile fetches begin, pipelines close (R375), waits whose conditions hold are over (R393), and who is ready is known. -/
def settle (s : State) : State := markReady (endWaits (closePipes (fetchAll s)))

/-- The losses at which rule 2 of R154 applies, else 0. -/
def lossRank (n : Nat) : Nat := if n < 4 then 0 else n

/-- Whether a wave goes before another of its sub-core (R154): ready for 64 cycles, then priority, then the most of four or more losses, else age of readiness; ties go to the lower slot. -/
def goesBefore (x y : Wave) : Bool :=
  let late := fun (w : Wave) => decide (64 ≤ w.waited)
  let slot := decide (x.ids.slot ≤ y.ids.slot)
  if late x || late y then
    if late x && late y then decide (y.waited < x.waited) || (x.waited == y.waited && slot) else late x
  else if x.eprio ≠ y.eprio then decide (y.eprio < x.eprio)
  else if lossRank x.losses ≠ lossRank y.losses then decide (lossRank y.losses < lossRank x.losses)
  else if lossRank x.losses = 0 ∧ x.readySince ≠ y.readySince then decide (x.readySince < y.readySince)
  else slot

/-- Whether a ready wave is the one that its sub-core selects. -/
def isSelected (s : State) (w : Wave) : Bool :=
  (liveWaves s).all fun x =>
    x.ids.token == w.ids.token || x.ids.core != w.ids.core || subCore x != subCore w || !isReady s x || goesBefore w x

/-- The ready and selected waves, the issuing one first. -/
def issuers (s : State) : List Wave := (liveWaves s).filter fun w => isReady s w && isSelected s w

/-- A stalled wave tries again, unless its wait stands: it is ready anew, at a time counted in steps (log entry 3). -/
def retry (n : Nat) (w : Wave) : Wave :=
  if w.run = .stalled ∧ waitOver w then { w with run := .running, readySince := n, waited := 0 } else w

/-- Stalled waves try again once something has happened. -/
def wake (s : State) : State := onWaves s (retry s.free)

/-- The issue counts of the wave that was selected in `t`, once `u` shows what came of it: where it issued, its counts start anew, the others of its sub-core that were ready lose, and stalled waves try again (R154). -/
def account (t u : State) : State :=
  let me := t.wave
  if !hasIssued t u me.ids.token then u
  else
    let beaten := (liveWaves t).filter fun w =>
      w.ids.token != me.ids.token && w.ids.core == me.ids.core && subCore w == subCore me && isReady t w
    let lost := beaten.map fun w => w.ids.token
    let charge := fun (w : Wave) =>
      if w.ids.token = me.ids.token then { w with waited := 0, losses := 0, readySince := max w.readySince u.free }
      else
        let w1 := retry u.free w
        if lost.contains w.ids.token then { w1 with losses := w1.losses + 1 } else w1
    countEvent (onWaves u charge) me.ids.core (some me.ids.gang) 4 lost.length

/-- The outcome of an issue, with the counts of R154. -/
def issued (t : State) (o : Out) : Out :=
  match o with
  | .next u => .next (account t u)
  | .fault f => .fault f
  | .refused r => .refused r

/-- The waves that their sub-cores select issue in turn, the one that issued last after the others (log entry 1). -/
def chooseWave (s : State) : Option W32 :=
  let l := issuers s
  match l.find? fun w => w.ids.token != s.wave.ids.token with
  | some w => some w.ids.token
  | none => l.head?.map fun w => w.ids.token

/-- The turn that no agenda gives. -/
def ownPick (s : State) : Pick :=
  match nextEvent s with
  | some i => .exec i (wake (tick s))
  | none =>
    match chooseWave s with
    | some t => issuePick (switchTo s t)
    | none =>
      match idleEvent s with
      | some i => .exec i (wake (tick s))
      | none => .done (wake (tick s))

/-- A step of the device or the host, or a wave of R154's choice, from the agenda. -/
def agendaPick (s : State) (t : Turn) : Pick :=
  match t with
  | .event i => if i.isEvent then .exec i (wake (tick s)) else .done s
  | .issue k => if (issuers s).any fun w => w.ids.token == k then issuePick (switchTo s k) else .done s

/-- What the management controller serves in recovery state: the sideband, with the resets that it asks for, and what its sensors find (R470, R472). -/
def sidebandServes (i : Instr) : Bool :=
  match i with
  | .channelRegisterRead (.sideband _) | .sidebandRegisterWrite _ _ | .alertWrite _ | .temperatureAlert _ | .firmwareStage _ _ _
  | .raiseRollbackFloor _ _ | .dieReset _ | .packageReset | .thermalShutdown | .powerLoss | .powerOnReset _ => true
  | _ => false

/-- What it serves after a shutdown: reads of its registers, and the writes that reset nothing (R474). -/
def standbyServes (i : Instr) : Bool :=
  match i with
  | .channelRegisterRead (.sideband _) | .alertWrite _ | .powerLoss | .powerOnReset _ => true
  | .sidebandRegisterWrite a _ => a != 0x14
  | _ => false

/-- Whether a turn can be taken: without power only a power-on reset (R468), after a shutdown and in recovery what the management controller serves. -/
def serves (s : State) (t : Turn) : Bool :=
  match t with
  | .issue _ => s.powered && !s.pkg.recovery
  | .event i =>
    if s.powered then !s.pkg.recovery || sidebandServes i
    else match i with
      | .powerOnReset _ => true
      | _ => s.pkg.standby && standbyServes i

/-- What the machine does next. A turn that it cannot take passes without effect; a module without power for which nothing is to come has stopped (R468, R474). -/
def pick (s : State) : Pick :=
  match s.agenda with
  | [] => if !s.powered then .off else if s.pkg.recovery then .done (tick s) else ownPick (settle s)
  | t :: rest =>
    if serves s t then agendaPick (settle { s with agenda := rest }) t else .done { s with agenda := rest }

/-! ### Placing an instruction (log entry 4) -/

/-- n bytes in global memory, on both dies, as a loader outside the machine leaves them. -/
def placeNat (s : State) (pa n x : Nat) : State := { s with hbm := cellsPut s.hbm (keyed pa (leBytes n x)) }

/-- Every stamped write applied on both dies. -/
def allApplied (s : State) : State :=
  let v : Clk := ⟨s.dies[(0 : Fin 2)].wctr, s.dies[(1 : Fin 2)].wctr⟩
  { s with lag := [], dies := s.dies.map fun d => { d with applied := v } }

/-- The page tables of the placed program: one 512 MiB page, readable, writable and executable. -/
def placeTables (s : State) : State := placeNat (placeNat s 0x10000 8 0x20001) 0x20000 8 0x2000006F

/-- The launch, task, gang, group and wave that run the placed program on core 0 of die 0. -/
def placeWork (s : State) : State :=
  let key : GangKey := ⟨s.nextKey, 0⟩
  let snap := launchOf (16 + 0x2000 * 2 ^ 64 + 0x8000 * 2 ^ 256 + 2 ^ 352)
  let l : Launch :=
    ⟨s.nextKey, 0, 0, 0x3000, 0, 0, snap, [⟨0x1000, 1, 0, 1, 40, true, 4⟩], 0, 2, 1, [], 0, [], false, none, false, false, {}⟩
  let g : Gang := ⟨key, 0, 0, 1, 1, [], none, false, []⟩
  let grp : Group := ⟨key, 0, 0, 0, [0], [], 4, [], [], [], Vector.replicate 4 [], Vector.replicate 8 (Vector.replicate 6 0), 0, none,
    false, none, none, false, none, []⟩
  let t : Task := ⟨taskId false 0 0, 0, key, none, false, false, 0, 0, false, false, [], 0, 0x3000, 0, 0, [], false, [], [], none, 0, {}, [], 0, false⟩
  let w : Wave := { Wave.reset with
    ids := ⟨1, 0, key, 0, 0, 0, 0, taskId false 0 0⟩
    regs := { Regs.reset with pc := 0x1000, nregs := 40, mirrorOn := true, tbase := 0x8000 }
    run := .running
    psize := 128 }
  { s with
    wave := w, waves := [], groups := s.groups ++ [grp], gangs := s.gangs ++ [g], tasks := s.tasks ++ [t]
    launches := s.launches ++ [l], nextKey := s.nextKey + 1, powered := true, pkg := { s.pkg with recovery := false } }

/-- The state in which the device serves partition 0 and runs a program there; the next turn is its wave's. -/
def placeProgram (s : State) : State :=
  let p : Partition := { s.parts[0] with
    present := true, clusters := 1, ptroot := 0x10000, sbbase := 0x100000, ctxbase := 0x1000000 }
  let core := fun (c : Core) => { c with tlb := [], icache := [], gated := false }
  let die := fun (d : Die) => { d with tlb := [], tokens := max d.tokens 1 }
  let t := allApplied s
  placeTables (placeWork { t with
    parts := t.parts.set 0 p, cores := t.cores.set 0 (core t.cores[0]), dies := t.dies.set 0 (die t.dies[0]), agenda := [.issue 1] })

/-- Eight bytes stored where the issuing wave's fetch finds them. -/
def placeBytes (s : State) (nbits w : Nat) : State :=
  match windowOf s s.wave.regs.pc.toNat with
  | .global va =>
    match (translate s s.wave.ids.core s.wave.ids.part va .fetch).1 with
    | .ok pa =>
      placeNat (onCore s s.wave.ids.core fun x => { x with icache := x.icache.filter fun e => e.1 != pa && e.1 != pa + 4 })
        pa 8 (w % 2 ^ min nbits 64)
    | _ => s
  | _ => s

/-- Whether the issuing wave would fetch an instruction at the next step. -/
def fetchesNow (s0 : State) : Bool :=
  let s := settle s0
  s.powered && !s.pkg.recovery && s.agenda.isEmpty && s.wave.run == .running && !s.wave.npOwed && (nextEvent s).isNone &&
    chooseWave s == some s.wave.ids.token &&
    (match windowOf s s.wave.regs.pc.toNat with
      | .global va =>
        (match (translate s s.wave.ids.core s.wave.ids.part va .fetch).1 with
          | .ok _ => true
          | _ => false)
      | _ => false)

end Sys2Proof.Machine
end

