-- ==== Sys2Proof/Machine/Step.lean ====
section
/-!
DEFINITION. One step of the machine, and the placing of an instruction where the next step fetches it.
-/

namespace Sys2Proof.Machine

/-- One step: what `pick` chooses, carried out. -/
def step (s : State) : Host.Outcome State Fault Refusal :=
  match pick s with
  | .off => .fault .noPower
  | .exec i t => exec i t
  | .issue i t => issued t (exec i t)
  | .trap t u => .next (account t u)
  | .done t => .next t

/-- The state with an instruction stored where the next step fetches it; where no wave would fetch at the next step, a program is placed first (log entry 4). -/
def State.withFetchWord (s : State) (nbits w : Nat) : State :=
  placeBytes (if fetchesNow s then s else placeProgram s) nbits w

end Sys2Proof.Machine
end

