-- ==== Sys2Proof/Safety.lean ====
section
/-!
DEFINITION. The terms in which statements are written: safe states, what stays unchanged, what a lane result leaves behind.
-/

namespace Sys2Proof

open Sys2Proof.Machine

/-! ### Safe states and runs -/

/-- Memory in canonical form. -/
def SafeState (s : State) : Prop := Memory.wf s.hbm = true

/-- A run of `n` steps that ends in a next state. -/
def RunsTo (s : State) (n : Nat) (t : State) : Prop := core.run n s = .next t

/-- A state from which no number of steps faults or refuses. -/
def NeverStops (s : State) : Prop := ∀ n, ∃ t, RunsTo s n t

/-! ### Values -/

/-- The number that a finite value stands for (R103, R105). -/
def realOf (v : FVal) : Option ℚ :=
  match v with
  | .fin neg m e _ => some ((if neg then -1 else 1) * m * (2 : ℚ) ^ e)
  | _ => none

/-! ### Frames -/

/-- Global memory reads as before: every byte's latest value, and its value on each die for each agent (R272, R279). -/
structure SameMemory (s t : State) : Prop where
  latest : ∀ pa, memByte t pa = memByte s pa
  view : ∀ d tok pa, viewByte t d tok pa = viewByte s d tok pa
  versions : ∀ k pa, gangVersion t k pa = gangVersion s k pa

/-- Nothing changes outside the issuing wave but the performance counters of cores (R325). -/
structure OnlyWave (s t : State) : Prop where
  rest : t = { s with wave := t.wave, cores := t.cores }
  cores : ∀ c : Fin 192, t.cores[c] = { s.cores[c] with pm := t.cores[c].pm }
  memory : SameMemory s t

/-- Nothing changes but the registers of the issuing wave and the performance counters of cores. -/
structure OnlyRegs (s t : State) : Prop where
  out : OnlyWave s t
  wave : t.wave = { s.wave with regs := t.wave.regs }

/-! ### Lane results (R97, R143 to R147, R212) -/

/-- Whether a lane is active: its EXEC bit, and the guard of MODE (R87, R97). -/
def laneOn (r : Regs) (l : Fin 32) : Bool :=
  let g := r.mode.toNat % 16
  let p := fun (i : Nat) => i == 0 || (r.preds[Fin.ofNat 8 i]).getLsbD l.val
  r.exec.getLsbD l.val && (if g < 8 then p g else !p (g - 8))

/-- The half of a result that a destination writes to nX: 0 the low half, 1 the high half of a 64-bit value. -/
def dstHalf (d : Dst) (wide : Bool) (x : Nat) : Option Nat :=
  match d with
  | .queue => none
  | .n y => if x = y.val then some 0 else if wide ∧ x = y.val + 1 then some 1 else none

/-- What stands in nX of a lane after a commit, from what stood there: `here` says that it is the copy that the lane uses. -/
def afterWrite (r : Regs) (d : Dst) (wide : Bool) (v : Lanes W64) (x : Nat) (l : Fin 32) (here : Bool) (old : W32) : W32 :=
  if laneOn r l && here then
    match dstHalf d wide x with
    | some 0 => lo32 v[l]
    | some _ => hi32 v[l]
    | none => old
  else old

/-- A latch entry one instruction older (R146). -/
def aged (e : LatchEntry) : LatchEntry := ⟨e.val, if e.life = 0 then 0 else e.life - 1⟩

/-- The latch after an instruction that holds a value, or none (R57, R146). -/
def latchAfter (r : Regs) (held : Option (Lanes W64 × Bool)) : Vector LatchEntry 3 :=
  match held with
  | none => #v[aged r.latch[0], aged r.latch[1], aged r.latch[2]]
  | some (x, false) => #v[⟨loLanes x, 2⟩, aged r.latch[0], aged r.latch[1]]
  | some (x, true) => #v[⟨loLanes x, 2⟩, ⟨hiLanes x, 2⟩, aged r.latch[0]]

/-- A value in the active lanes, 0 in the others (R143). -/
def onActive (r : Regs) (v : Lanes W64) : Lanes W64 := Lanes.of fun l => if laneOn r l then v[l] else 0

/-- The registers after a lane instruction of `n` bytes that delivers `v` to `d` and holds `held`: the queue, the valid bits, the destination in active lanes and in the copy that each lane uses, the latch; all others as before. -/
structure LaneDone (r u : Regs) (n : Nat) (d : Dst) (wide : Bool) (v : Lanes W64) (held : Option (Lanes W64 × Bool)) : Prop where
  low : ∀ l : Fin 32, u.q[0][l] = lo32 (onActive r v)[l]
  high : wide = true → ∀ l : Fin 32, u.q[1][l] = hi32 (onActive r v)[l]
  older : ∀ j : Fin 16, ∀ i : Fin 16, j.val + (if wide then 2 else 1) = i.val → u.q[i] = r.q[j]
  valid : u.qvalid = (if wide then (r.qvalid <<< 2) ||| 3 else (r.qvalid <<< 1) ||| 1)
  named : ∀ (x : Fin 40) (l : Fin 32),
    u.named[x][l] = afterWrite r d wide v x.val l (!(decide (x.val < 16) && copyOne r l)) (r.named[x][l])
  mirror : ∀ (x : Fin 16) (l : Fin 32), u.mirror[x][l] = afterWrite r d wide v x.val l (copyOne r l) (r.mirror[x][l])
  latch : u.latch = latchAfter r held
  rest : u = { r with
    pc := r.pc + BitVec.ofNat 64 n
    q := u.q
    qvalid := u.qvalid
    pushes := r.pushes + (if wide then 2 else 1)
    named := u.named
    mirror := u.mirror
    latch := u.latch }

/-- What the hold field names (R57). -/
def heldBy (h : Hold) (a b v : Lanes W64 × Bool) : Option (Lanes W64 × Bool) :=
  match h with
  | .none => none
  | .a => some a
  | .b => some b
  | .result => some v

/-- The value of nX in the copy that a lane has committed (R211, R212). -/
def committed (r : Regs) (x : Fin 16) (l : Fin 32) : W32 := if r.sel.getLsbD l.val then r.mirror[x][l] else r.named[x.val][l]

/-! ### Writes of the device -/

/-- The dies change in nothing but their write counters and the lines in their L2 (R244, R275). -/
def DiesWrite (s u : State) : Prop := ∀ d : Fin 2, u.dies[d] = { s.dies[d] with wctr := u.dies[d].wctr, l2 := u.dies[d].l2 }

/-- Nothing changes but global memory with its write order, and the lines in the L2s. -/
structure OnlyWrites (s u : State) : Prop where
  rest : u = { s with dies := u.dies, hbm := u.hbm, clks := u.clks, joins := u.joins, lag := u.lag, lost := u.lost }
  dies : DiesWrite s u

/-! ### Trap entry (R417 to R419) -/

/-- Trap entry with a side-buffer entry at virtual address `sb` and physical address `pa`: the frame is saved, the handler starts at its vector, the frame view and the lanes' records are written, and no other byte of memory changes. -/
structure Entered (s u : State) (sb pa : Nat) (cause : Cause) (spc : W64) (recs : List TrapRec) : Prop where
  handler : u.wave.handler = true
  frame : u.wave.frame =
    { pc := spc, q := s.wave.regs.q, qvalid := s.wave.regs.qvalid, pushes := s.wave.regs.pushes, latch := s.wave.regs.latch,
      pflag := s.wave.regs.pflag, exec := s.wave.regs.exec, mstack := s.wave.regs.mstack, msdepth := s.wave.regs.msdepth,
      mode := s.wave.regs.mode, clockLatch := s.wave.regs.clockLatch, rs := s.wave.regs.rs }
  regs : u.wave.regs = { s.wave.regs with
    pc := s.wave.regs.tbase + BitVec.ofNat 64 (256 * (cause.toNat / 8))
    qvalid := 0
    latch := s.wave.regs.latch.map fun e => { e with life := 0 }
    pflag := false
    exec := 0xFFFFFFFF
    mstack := u.wave.regs.mstack
    msdepth := 0
    mode := 0
    clockLatch := none
    rs := [] }
  below : ∀ i : Fin 16, i.val < 8 → u.wave.regs.mstack[i] = s.wave.regs.mstack[i]
  entry8 : u.wave.regs.mstack[8] = BitVec.ofNat 32 (cause.toNat + 2 ^ 12 * (cause.toNat / 8) +
    2 ^ 16 * (if s.wave.regs.pflag then 1 else 0) + 2 ^ 17 * s.wave.regs.msdepth.val +
    2 ^ 22 * (s.wave.regs.mode.toNat % 16) + 2 ^ 26 * (if s.wave.npOpen then 1 else 0))
  saved : pair64 u.wave.regs.mstack[10] u.wave.regs.mstack[9] = spc
  mask : u.wave.regs.mstack[11] = s.wave.regs.exec
  lanes : ∀ l : Fin 32, u.wave.regs.mstack[12].getLsbD l.val = recs.any fun x => x.lane == l
  top : u.wave.regs.mstack[13] =
    if s.wave.regs.msdepth = 0 then 0 else s.wave.regs.mstack[(Fin.ofNat 16 (s.wave.regs.msdepth.val - 1) : Fin 16)]
  buffer : u.wave.regs.mstack[14] = BitVec.ofNat 32 sb ∧ u.wave.regs.mstack[15] = BitVec.ofNat 32 (sb / 2 ^ 32)
  records : ∀ x ∈ recs, memBytes u (pa + 8 * x.lane.val) 8 = leBytes 8 x.value.toNat ∧
    memByte u (pa + 256 + x.lane.val) = x.cause ∧ memByte u (pa + 288 + x.lane.val) = x.sub
  others : ∀ l : Fin 32, (∀ x ∈ recs, x.lane ≠ l) → memByte u (pa + 256 + l.val) = 0xFF
  memory : ∀ a, a < pa ∨ pa + 320 ≤ a → memByte u a = memByte s a
  rest : u = { s with
    wave := u.wave, waves := u.waves, cores := u.cores, dies := u.dies, hbm := u.hbm, clks := u.clks, joins := u.joins, lag := u.lag
    lost := u.lost, hostLog := u.hostLog }
  dies : DiesWrite s u

/-- A page that a core's TLB holds, writable and already marked as written (R234, R235): an access through it reaches `pa` and changes nothing in the tables. -/
def PageAt (s : State) (c : Fin 192) (p : Fin 24) (va pa : Nat) : Prop :=
  ∃ e, tlbHit s.cores[c].tlb p va = some e ∧ e.w = true ∧ e.d = true ∧ pa = e.base + va % 2 ^ pageBits e.level

/-- The side-buffer entry of the issuing wave at `sb`, on a page that its core's TLB holds (R419). -/
def SideBufferAt (s : State) (sb pa : Nat) : Prop :=
  sb = (s.parts[s.wave.ids.part]).sbbase.toNat + 1024 * (48 * s.wave.ids.core.val + s.wave.ids.slot.val) ∧
    PageAt s s.wave.ids.core s.wave.ids.part sb pa

/-! ### Memory -/

/-- What a list of written bytes leaves at a key, from what stood there: the last one counts. -/
def written (cells : List (Nat × W8)) (a : Nat) (old : W8) : W8 :=
  ((cells.reverse.find? fun b => b.1 == a).map fun b => b.2).getD old

/-- A unit's key: a group of the gang and an offset in its scratchpad, or a physical address. -/
abbrev UnitKey := Option (Fin 8) × Nat

/-- A byte at a key, as it was written last. -/
def byteAt (s : State) (k : GangKey) (x : UnitKey) : W8 :=
  match x.1 with
  | none => memByte s x.2
  | some i => ((findGroup s k i.val).map fun g => cellGet 0 g.spad x.2).getD 0

/-- The lanes' atomic steps in ascending order over a memory: the old values, and what is left (R259). -/
def atomicSteps (n : Nat) (f : Fin 32 → Nat → Option Nat) :
    List (Fin 32 × UnitKey) → (UnitKey → W8) → List (Fin 32 × Nat) × (UnitKey → W8)
  | [], m => ([], m)
  | (l, x) :: rest, m =>
    let old := leNat ((List.range n).map fun i => m (x.1, x.2 + i))
    let m1 : UnitKey → W8 := match f l old with
      | none => m
      | some y => fun z => if z.1 = x.1 ∧ x.2 ≤ z.2 ∧ z.2 < x.2 + n then ((leBytes n y)[z.2 - x.2]?).getD 0 else m z
    let r := atomicSteps n f rest m1
    ((l, old) :: r.1, r.2)

/-- A byte of a wave's own memory by its key 32 o + L: in L1, or in the backing area (R239). -/
def ownCell (w : Wave) (key : Nat) : W8 :=
  if cellGet 0 w.priv key = 0 then cellGet 0 w.backing (backAddr w.pbase.toNat key) else cellGet 0 w.priv key

/-- A wave's own memory is in canonical form, and each of its lines stands in L1 or in the backing area alone. -/
def OwnWf (s : State) (w : Wave) : Prop :=
  cellsWf (0 : W8) w.priv = true ∧ cellsWf (0 : W8) w.backing = true ∧
    ∀ key : Nat, if (w.ids.token, key / 128) ∈ s.cores[w.ids.core].l1p then
      cellGet 0 w.backing (backAddr w.pbase.toNat key) = 0 else cellGet 0 w.priv key = 0

/-- The same of the issuing wave. -/
def OwnMemoryWf (s : State) : Prop := OwnWf s s.wave

/-! ### Instructions behind their checks -/

/-- The registers after an instruction of one word that delivers nothing (R75, R146). -/
def nextWord (r : Regs) : Regs := { r with pc := r.pc + 4, latch := latchAfter r none }

/-- Who the issuing wave is to an engine (R283, R284). -/
def IssuedBy (s : State) (who : Issuer) : Prop :=
  who.part = s.wave.ids.part ∧ who.gang = some s.wave.ids.gang ∧ who.group = s.wave.ids.group ∧ who.core = s.wave.ids.core ∧
    who.slot = s.wave.ids.slot ∧ who.token = s.wave.ids.token ∧ who.tid = some s.wave.ids.tid ∧ who.clk = s.wave.clk ∧
    who.writes = pendingOn s (coreDie s.wave.ids.core) s.wave.ids.token

/-- A matrix command has been issued: it waits last on the wave's core, an engine operation of the wave is in flight, and nothing else changes (R268, R296). -/
structure MatrixIssued (s u : State) (x : MxCmd) : Prop where
  waits : ∃ who, IssuedBy s who ∧ u.cores[s.wave.ids.core] = { s.cores[s.wave.ids.core] with
    mxWait := s.cores[s.wave.ids.core].mxWait ++ [⟨x, who, false⟩] }
  others : ∀ c : Fin 192, c ≠ s.wave.ids.core → u.cores[c] = s.cores[c]
  wave : u.wave = { s.wave with regs := nextWord s.wave.regs, flights := s.wave.flights ++ [⟨.engine, false⟩] }
  rest : u = { s with wave := u.wave, cores := u.cores }
  memory : SameMemory s u

/-- A copy operation has been issued with the block of registers from kA: it waits last on the wave's die, an engine operation of the wave is in flight, and nothing else changes (R268, R344). -/
structure CopyIssued (s u : State) (kind : CopyKind) (a : KReg) : Prop where
  waits : ∃ who, IssuedBy s who ∧ u.dies[coreDie s.wave.ids.core] = { s.dies[coreDie s.wave.ids.core] with
    copyWait := s.dies[coreDie s.wave.ids.core].copyWait ++
      [⟨kind, s.wave.regs.k[a], s.wave.regs.k[(a + 1 : Fin 32)], s.wave.regs.k[(a + 2 : Fin 32)], s.wave.regs.k[(a + 3 : Fin 32)],
        s.wave.regs.k[(a + 4 : Fin 32)], who, false, none, none, none, 0, 0⟩] }
  other : ∀ d : Fin 2, d ≠ coreDie s.wave.ids.core → u.dies[d] = s.dies[d]
  wave : u.wave = { s.wave with regs := nextWord s.wave.regs, flights := s.wave.flights ++ [⟨.engine, false⟩] }
  rest : u = { s with wave := u.wave, dies := u.dies }
  memory : SameMemory s u

/-! ### Records -/

/-- A record of 64 bytes that a chain's engine reaches: its page stands in the TLB of the core through which it goes, and none of its bytes is lost. -/
def RecordAt (s : State) (c : Fin 192) (p : Fin 24) (va pa : Nat) : Prop :=
  PageAt s c p va pa ∧ lostRead s p none (bytesFrom pa 64) = false

/-- A record is accepted: OWN is 2, GEN is one more, and no other byte of memory changes (R4, R355). -/
def Taken (s u : State) (pa : Nat) : Prop :=
  memNat u pa 8 = (memNat s pa 8 / 2 ^ 32 + 1) % 2 ^ 32 * 2 ^ 32 + memNat s pa 8 % 2 ^ 32 / 4 * 4 + 2 ∧
    ∀ x, x < pa ∨ pa + 8 ≤ x → memByte u x = memByte s x

/-- A record is returned: STATUS is written, OWN is 3, and no other byte of memory changes (R356, R366, R368). -/
def Returned (s u : State) (pa : Nat) (status : Cause) : Prop :=
  memNat u pa 4 = memNat s pa 4 / 2 ^ 24 * 2 ^ 24 + status.toNat * 2 ^ 16 + memNat s pa 4 % 2 ^ 16 / 4 * 4 + 3 ∧
    ∀ x, x < pa ∨ pa + 4 ≤ x → memByte u x = memByte s x

/-- The command in service ends as the last of its chain, where the partition names no counter (R449). -/
structure CommandEnds (t u : State) (p : Fin 24) (r : RecRun) (status : Cause) : Prop where
  record : Returned t u r.pa status
  owned : u.owned = t.owned.erase (r.pa / 128)
  chain : u.parts[p] = { t.parts[p] with cmd := { (t.parts[p]).cmd with state := 0, cur := 0, last := r.addr, inService := none } }
  others : ∀ q : Fin 24, q ≠ p → u.parts[q] = t.parts[q]
  rest : u = { t with
    parts := u.parts, dies := u.dies, hbm := u.hbm, clks := u.clks, joins := u.joins, lag := u.lag, lost := u.lost, owned := u.owned }
  dies : DiesWrite t u

/-- The command in service and its OP (R448). -/
def CommandAt (s : State) (p : Fin 24) (r : RecRun) (op : Nat) : Prop :=
  (s.parts[p]).cmd.inService = some r ∧ recField r.snap 15 8 = op

/-- A command whose partition names no counter and whose entry is the last of its chain, on memory in canonical form. -/
def LastCommand (t : State) (p : Fin 24) (r : RecRun) : Prop :=
  Memory.wf t.hbm = true ∧ (t.parts[p]).cmdcompl = 0 ∧ memNat t (r.pa + 48) 8 = 0

/-- The command in service of a partition has been carried out, with the state `t` after its effect, and its entry is returned with a status. -/
def CommandRuns (i : Instr) (s : State) (p : Fin 24) (r : RecRun) (status : Cause) (effect : State → Prop) : Prop :=
  ∃ t, exec i s = .next (finishCommand t p r status) ∧ effect t ∧
    (LastCommand t p r → CommandEnds t (finishCommand t p r status) p r status)

/-- Where the table has room for the record at `pa` of a chain whose register is `c` (R399). -/
def roomAt (s : State) (x : ChainRef) (c : Chan) (pa : Nat) : Room :=
  let t := onChain s x fun _ => c
  recordRoom t x pa (recordIssuer t x c.cur)

/-- What a kick or an append leaves of a chain register in which the engine looks at the record at CUR: the chain polls while its submitter owns it, sleeps while it has been taken or returned, and takes it when it has been submitted (R355) and the table has room for what it names; else the chain waits with it (R399). -/
def Examined (s u : State) (x : ChainRef) (c : Chan) (pa : Nat) : Prop :=
  (memNat s pa 1 % 4 = 0 → SameMemory s u ∧ chainAt u x = { c with
    state := 2, polls := 16, since := s.dies[chainDie s x].clock, inService := none }) ∧
  (2 ≤ memNat s pa 1 % 4 → SameMemory s u ∧ chainAt u x = { staleUp c with state := 3, inService := none }) ∧
  (memNat s pa 1 % 4 = 1 → roomAt s x c pa = .full → SameMemory s u ∧ chainAt u x = { c with state := 1, inService := none }) ∧
  (memNat s pa 1 % 4 = 1 → hasRoom (roomAt s x c pa) = true → Taken s u pa ∧ u.owned = pa / 128 :: s.owned ∧ (chainAt u x).state = 1 ∧ (chainAt u x).cur = c.cur ∧
    ∃ q, (chainAt u x).inService = some q ∧ q.addr = c.cur ∧ q.pa = pa ∧ q.snap = memBytes u pa 64)

/-- Nothing changes but chain registers, partitions' chains, write order and memory, and the table's entries for the objects of an accepted record. -/
def OnlyChains (s u : State) : Prop :=
  u = { s with
    wave := u.wave, dies := u.dies, parts := u.parts, hbm := u.hbm, clks := u.clks, joins := u.joins, lag := u.lag, lost := u.lost
    owned := u.owned, objs := u.objs }

end Sys2Proof
end

