-- ==== Sys2Proof/Certificates/Slice0/Obligations.lean ====
section
/-!
DEFINITION. The statements for the provers.
-/

open Sys2Proof Sys2Proof.Machine

/-! ### Lane instructions -/

/-- R97, R157 to R161, R175: a two-source lane instruction whose operands pass R91 completes: element by element the result of its function, committed to the queue and the destination in active lanes; nothing else changes. -/
def Obligations.TwoSourceLanes : Prop :=
  ∀ (s : State) (d : Dst) (a : Src) (b : Src2) (h : Hold),
    let r := s.wave.regs
    let w := regsWide r
    let t := curTy r
    let x := srcLanes r s.wave.ids.wave.val a w
    let y := src2Lanes r s.wave.ids.wave.val b w
    let does := fun (i : Instr) (ok : Ty → Bool) (f : Nat → Nat → Nat) =>
      let v : Lanes W64 := Lanes.of fun l => map2 t f x[l] y[l]
      operandFault r ([.src a w] ++ useSrc2 b w ++ [.dst d w]) (tyIn r ok) = none →
        ∃ u, exec i s = .next u ∧ OnlyRegs s u ∧
          LaneDone r u.wave.regs 4 d w v (heldBy h (x, w) (y, w) (onActive r v, w))
    let m := arithOf r t
    does (.add d a b h) okArith (eAdd m) ∧ does (.sub d a b h) okArith (eSub m) ∧
    does (.mul d a b h) okArith (eMul m) ∧ does (.mulhi d a b h) tyInt (eMulhi m) ∧
    does (.min d a b h) okArith (eMin m) ∧ does (.max d a b h) okArith (eMax m) ∧
    does (.div d a b h) okArith (eDiv m) ∧ does (.scaleb d a b h) tyFp (eScaleb m) ∧
    does (.and d a b h) okAny (· &&& ·) ∧ does (.or d a b h) okAny (· ||| ·) ∧
    does (.xor d a b h) okAny (· ^^^ ·) ∧ does (.andn d a b h) okAny (eAndn m) ∧
    does (.shl d a b h) tyInt (eShl m) ∧ does (.shr d a b h) tyInt (eShr m) ∧
    does (.sar d a b h) tyInt (eSar m) ∧ does (.rotl d a b h) tyInt (eRotl m)

/-- R97, R162 to R164: a one-source lane instruction whose operands pass R91 completes; CLASS delivers 32 bits. The value that `.hb` holds is free, and its width is the result's (log entry 17: the model's choice). -/
def Obligations.OneSourceLanes : Prop :=
  ∀ (s : State) (d : Dst) (a : Src) (h : Hold),
    let r := s.wave.regs
    let w := regsWide r
    let t := curTy r
    let x := srcLanes r s.wave.ids.wave.val a w
    let does := fun (i : Instr) (ok : Ty → Bool) (dw : Bool) (v : Lanes W64) =>
      operandFault r [.src a w, .dst d dw] (tyIn r ok) = none →
        ∃ u, exec i s = .next u ∧ OnlyRegs { s with free := u.free } u ∧ (h ≠ .b → u.free = s.free) ∧
          LaneDone r u.wave.regs 4 d dw v (heldBy h (x, w) (freeLanes s, dw) (onActive r v, dw))
    let each := fun (f : Nat → Nat) => (Lanes.of fun l => map1 t f x[l] : Lanes W64)
    let m := arithOf r t
    does (.neg d a h) okArith w (each (eNeg m)) ∧ does (.abs d a h) okArith w (each (eAbs m)) ∧
    does (.not d a h) okAny w (each (eNot m)) ∧ does (.clz d a h) tyInt w (each (eClz m)) ∧
    does (.popc d a h) tyInt w (each (ePopc m)) ∧ does (.brev d a h) tyInt w (each (eBrev m)) ∧
    does (.rcp d a h) tyFp w (each (eRcp m)) ∧ does (.rsq d a h) tyFps w (each (eRsq m)) ∧
    does (.sqrt d a h) tyFp w (each (eSqrt m)) ∧ does (.exp2 d a h) tyFps w (each (eExp2 m)) ∧
    does (.log2 d a h) tyFps w (each (eLog2 m)) ∧ does (.ln d a h) tyFps w (each (eLn m)) ∧
    does (.fract d a h) tyFp w (each (eFract m)) ∧ does (.roundi d a h) tyFp w (each (eRoundi m)) ∧
    (∀ f, fmtOf t = some f → does (.classF d a h) tyFp false (each (classMask f)))

/-- R165, R166: MAD, BFX, BFI and LEA complete; BFX and BFI read offset and width at 32 bits, LEA its first source. -/
def Obligations.ThreeSourceLanes : Prop :=
  ∀ (s : State) (d : Dst) (a b c : Src) (b2 : Src2) (sh : Fin 8) (h : Hold),
    let r := s.wave.regs
    let w := regsWide r
    let t := curTy r
    let m := arithOf r t
    let src := fun (x : Src) (wide : Bool) => srcLanes r s.wave.ids.wave.val x wide
    let does := fun (i : Instr) (uses : List OpUse) (ok : Ty → Bool) (v : Lanes W64) (held : Option (Lanes W64 × Bool)) =>
      operandFault r uses (tyIn r ok) = none →
        ∃ u, exec i s = .next u ∧ OnlyRegs s u ∧ LaneDone r u.wave.regs 4 d w v held
    let three := fun (wide : Bool) => [OpUse.src a w, .src b wide, .src c wide, .dst d w]
    let lea : Lanes W64 := Lanes.of fun l =>
      BitVec.ofNat 64 (eLea m (src a false)[l].toNat (src2Lanes r s.wave.ids.wave.val b2 w)[l].toNat sh.val)
    does (.mad d a b c) (three w) okArith
      (Lanes.of fun l => map3 t (eMad m) (src a w)[l] (src b w)[l] (src c w)[l]) none ∧
    does (.bfx d a b c) (three false) tyScal
      (Lanes.of fun l => map1 t (fun e => eBfx m e ((src b false)[l].toNat % 256) ((src c false)[l].toNat % 256)) (src a w)[l]) none ∧
    does (.bfi d a b c) (three false) tyScal
      (Lanes.of fun l => map1 t (fun e => eBfi m e (src b false)[l].toNat ((src c false)[l].toNat % 256)
        ((src c false)[l].toNat / 256 % 256)) (src a w)[l]) none ∧
    does (.lea d a b2 sh h) ([.src a false] ++ useSrc2 b2 w ++ [.dst d w]) tyScal lea
      (heldBy h (src a false, false) (src2Lanes r s.wave.ids.wave.val b2 w, w) (onActive r lea, w))

/-- R167, R168: CMP delivers all ones in the elements in which the condition holds, and p1 says in which active lanes it holds in every element; SEL chooses by a predicate. -/
def Obligations.CompareSelect : Prop :=
  ∀ (s : State) (d : Dst) (a : Src) (b : Src2) (c : CmpOp) (p : PReg) (h : Hold),
    let r := s.wave.regs
    let w := regsWide r
    let t := curTy r
    let x := srcLanes r s.wave.ids.wave.val a w
    let y := src2Lanes r s.wave.ids.wave.val b w
    let uses := [OpUse.src a w] ++ useSrc2 b w ++ [.dst d w]
    let held := fun (v : Lanes W64) => heldBy h (x, w) (y, w) (onActive r v, w)
    let holds := fun (l : Fin 32) (i : Nat) =>
      condHolds c (elemOrder t (elemAt (tyBits t) x[l].toNat i) (elemAt (tyBits t) y[l].toNat i))
    let cmp : Lanes W64 := Lanes.of fun l => BitVec.ofNat 64
      (packElems (tyBits t) ((List.range (tyCount t)).map fun i => if holds l i then 2 ^ tyBits t - 1 else 0))
    let sel : Lanes W64 := Lanes.of fun l => if p.val = 0 ∨ r.preds[p].getLsbD l.val then x[l] else y[l]
    (operandFault r uses (tyIn r (cmpTyOk c)) = none →
      ∃ u, exec (.cmp d a b c h) s = .next u ∧ OnlyRegs s u ∧
        LaneDone r { u.wave.regs with preds := r.preds } 4 d w cmp (held cmp) ∧
        (∀ l : Fin 32, u.wave.regs.preds[1].getLsbD l.val =
          if laneOn r l then (List.range (tyCount t)).all (holds l) else r.preds[1].getLsbD l.val) ∧
        ∀ q : PReg, q ≠ 1 → u.wave.regs.preds[q] = r.preds[q]) ∧
    (operandFault r uses (tyIn r okAny) = none →
      ∃ u, exec (.sel d a b p h) s = .next u ∧ OnlyRegs s u ∧ LaneDone r u.wave.regs 4 d w sel (held sel))

/-- R170 to R174: CVT, PACK, UNPACK, MXQ and MXDQ complete. UNPACK delivers 64 bits and CVT the width of its target. The value that `.hb` holds after UNPACK and MXQ is free, and its width is the result's (log entry 17: the model's choice). -/
def Obligations.Conversions : Prop :=
  ∀ (s : State) (d : Dst) (a : Src) (b : Src2) (k : KReg) (h : Hold),
    let r := s.wave.regs
    let w := regsWide r
    let t := curTy r
    let m := arithOf r t
    let src := fun (wide : Bool) => srcLanes r s.wave.ids.wave.val a wide
    let src2 := fun (wide : Bool) => src2Lanes r s.wave.ids.wave.val b wide
    (∀ ty, r.k[k].toNat < 32 → tyOf r.k[k].toNat = some ty →
      let v : Lanes W64 := Lanes.of fun l =>
        BitVec.ofNat 64 (convert t ty (modeRound r.mode) (modeSat r.mode) ((src w)[l].toNat % 2 ^ tyBits t))
      operandFault r [.src a w, .dst d (tyWide ty)] (regsTy r).isSome = none →
        ∃ u, exec (.cvt d a k h) s = .next u ∧ OnlyRegs s u ∧ LaneDone r u.wave.regs 4 d (tyWide ty) v
          (heldBy h (src w, w) (Lanes.all (bcastK r k w), w) (onActive r v, tyWide ty))) ∧
    (let v : Lanes W64 := Lanes.of fun l => packLane m (src w)[l] (src2 w)[l];
      operandFault r ([.src a w] ++ useSrc2 b w ++ [.dst d w]) (tyIn r fun t => (partner t).isSome) = none →
        ∃ u, exec (.pack d a b h) s = .next u ∧ OnlyRegs s u ∧
          LaneDone r u.wave.regs 4 d w v (heldBy h (src w, w) (src2 w, w) (onActive r v, w))) ∧
    (let v : Lanes W64 := Lanes.of fun l => unpackLane t (src w)[l];
      operandFault r [.src a w, .dst d true] (tyIn r fun t => (partner t).isSome) = none →
        ∃ u, exec (.unpack d a h) s = .next u ∧ OnlyRegs { s with free := u.free } u ∧ (h ≠ .b → u.free = s.free) ∧
          LaneDone r u.wave.regs 4 d true v (heldBy h (src w, w) (freeLanes s, true) (onActive r v, true))) ∧
    (operandFault r [.src a false, .dst d false] (tyIn r (· == .f32)) = none →
        ∃ u, exec (.mxq d a h) s = .next u ∧ OnlyRegs { s with free := u.free } u ∧ (h ≠ .b → u.free = s.free) ∧
          LaneDone r u.wave.regs 4 d false (mxqLanes r (src false))
            (heldBy h (src false, false) (freeLanes s, false) (onActive r (mxqLanes r (src false)), false))) ∧
    (let v : Lanes W64 := Lanes.of fun l => BitVec.ofNat 64 (mxDequant (rmodeOf (modeRound r.mode) 32) (modeSat r.mode)
        ((src2 false)[4].toNat % 256) ((src false)[(Fin.ofNat 32 (l.val / 8) : Fin 32)].toNat / 2 ^ (4 * (l.val % 8)) % 16));
      operandFault r ([.src a false] ++ useSrc2 b false ++ [.dst d false]) (tyIn r (· == .f32)) = none →
        ∃ u, exec (.mxdq d a b h) s = .next u ∧ OnlyRegs s u ∧
          LaneDone r u.wave.regs 4 d false v (heldBy h (src false, false) (src2 false, false) (onActive r v, false)))

/-- R87, R147, R169: PSET, PAND, POR and PNOT write the bits of active lanes of their predicate, and nothing where it is p0. -/
def Obligations.Predicates : Prop :=
  ∀ (s : State) (p : PReg) (g1 g2 : Guard) (a : Src),
    let r := s.wave.regs
    let holds := fun (g : Guard) (l : Fin 32) =>
      let q := fun (i : Nat) => i == 0 || (r.preds[Fin.ofNat 8 i]).getLsbD l.val
      if g.toNat < 8 then q g.toNat else !q (g.toNat - 8)
    let does := fun (i : Instr) (v : Fin 32 → Bool) =>
      ∃ u, exec i s = .next u ∧ OnlyRegs s u ∧
        u.wave.regs = { r with pc := r.pc + 4, latch := latchAfter r none, preds := u.wave.regs.preds } ∧
        (∀ (q : PReg) (l : Fin 32), u.wave.regs.preds[q].getLsbD l.val =
          if q = p ∧ p ≠ 0 ∧ laneOn r l = true then v l else r.preds[q].getLsbD l.val)
    (operandFault r [.src a false] true = none →
      does (.pset p a) fun l => decide ((srcLanes r s.wave.ids.wave.val a false)[l] ≠ 0)) ∧
    does (.pand p g1 g2) (fun l => holds g1 l && holds g2 l) ∧
    does (.por p g1 g2) (fun l => holds g1 l || holds g2 l) ∧
    does (.pnot p g1) (fun l => !holds g1 l)

/-- R175: the permutations deliver another lane's value: SHFL by each lane's own selector; BFLY, LROT and BCAST by that of the lowest active lane (lane 0 where none is active). -/
def Obligations.Permutations : Prop :=
  ∀ (s : State) (d : Dst) (a : Src) (b : Src2) (h : Hold) (low : Fin 32),
    let r := s.wave.regs
    let w := regsWide r
    let x := srcLanes r s.wave.ids.wave.val a w
    let y := src2Lanes r s.wave.ids.wave.val b w
    ((laneOn r low = true ∧ ∀ l : Fin 32, l < low → laneOn r l = false) ∨ (low = 0 ∧ ∀ l, laneOn r l = false)) →
    operandFault r ([.src a w] ++ useSrc2 b w ++ [.dst d w]) (regsTy r).isSome = none →
    let does := fun (i : Instr) (lane : Fin 32 → Nat) =>
      let v : Lanes W64 := Lanes.of fun l => x[(Fin.ofNat 32 (lane l) : Fin 32)]
      ∃ u, exec i s = .next u ∧ OnlyRegs s u ∧
        LaneDone r u.wave.regs 4 d w v (heldBy h (x, w) (y, w) (onActive r v, w))
    does (.shfl d a b h) (fun l => y[l].toNat % 32) ∧
    does (.bfly d a b h) (fun l => l.val ^^^ (y[low].toNat % 32)) ∧
    does (.lrot d a b h) (fun l => (l.val + y[low].toNat % 32) % 32) ∧
    does (.bcast d a b h) (fun _ => y[low].toNat % 32)

/-- R176 to R178: VOTE, LREDUCE and LSCAN complete. The ballot has a bit for each active lane with a value other than 0; a reduction that all lanes see, and a scan, combine the active lanes' elements. The value that `.hb` holds is free, and its width is the result's (log entry 17: the model's choice). -/
def Obligations.VotesReductionsScans : Prop :=
  ∀ (s : State) (d : Dst) (a : Src) (h : Hold),
    let r := s.wave.regs
    let w := regsWide r
    let t := curTy r
    let x := srcLanes r s.wave.ids.wave.val a w
    let n := tyBits t
    let yes := fun (l : Fin 32) => laneOn r l && decide (x[l] ≠ 0)
    let column := fun (i : Nat) => laneList.map fun l =>
      if laneOn r l then some (x[l].toNat / 2 ^ (n * i) % 2 ^ n) else none
    let does := fun (i : Instr) (ok : Ty → Bool) (dw : Bool) (v : Lanes W64) =>
      operandFault r [.src a w, .dst d dw] (tyIn r ok) = none →
        ∃ u, exec i s = .next u ∧ OnlyRegs { s with free := u.free } u ∧ (h ≠ .b → u.free = s.free) ∧
          LaneDone r u.wave.regs 4 d dw v (heldBy h (x, w) (freeLanes s, dw) (onActive r v, dw))
    let flag := fun (b : Bool) => (Lanes.all (if b then 1 else 0) : Lanes W64)
    (∀ ballot : W32, (∀ l : Fin 32, ballot.getLsbD l.val = yes l) →
      does (.vote d a .ballot h) okAny false (Lanes.all (ballot.setWidth 64))) ∧
    does (.vote d a .any h) okAny false (flag (decide (∃ l, yes l = true))) ∧
    does (.vote d a .all h) okAny false (flag (decide (∀ l, laneOn r l = true → x[l] ≠ 0))) ∧
    does (.vote d a .none h) okAny false (flag (decide (∀ l, yes l = false))) ∧
    does (.vote d a .uniform h) okAny false (flag (decide (∀ l k, laneOn r l = true → laneOn r k = true → x[l] = x[k]))) ∧
    ∀ o : RedOp,
      does (.lreduce d a o h) okArith w (Lanes.all (BitVec.ofNat 64 (packElems n ((List.range (tyCount t)).map fun i =>
        reduceElem (arithOf r t) o (column i))))) ∧
      does (.lscan d a o h) okArith w (Lanes.of fun l => BitVec.ofNat 64 (packElems n ((List.range (tyCount t)).map fun i =>
        ((scanElem (arithOf r t) o (column i))[l.val]?).getD 0)))

/-- R180 to R184: the uniform instructions write one 64-bit register and nothing else; shifts by 64 or more give 0, KCMP compares signed. -/
def Obligations.UniformInstructions : Prop :=
  ∀ (s : State) (d a : KReg) (y : KOp) (i : W16) (b : Src) (l : Fin 32) (w64 : Bool),
    let r := s.wave.regs
    let x := r.k[a]
    let v : W64 := match y with
      | .k j => r.k[j]
      | .imm n => BitVec.ofNat 64 n.toNat
    let does := fun (j : Instr) (out : W64) =>
      ∃ u, exec j s = .next u ∧ OnlyRegs s u ∧
        u.wave.regs = { r with pc := r.pc + 4, latch := latchAfter r none, k := r.k.set d.val out }
    does (.kmov d y) v ∧ does (.kadd d a y) (x + v) ∧ does (.ksub d a y) (x - v) ∧ does (.kmul d a y) (x * v) ∧
    does (.kand d a y) (x &&& v) ∧ does (.kor d a y) (x ||| v) ∧ does (.kxor d a y) (x ^^^ v) ∧
    does (.kshl d a y) (if v.toNat < 64 then x <<< v.toNat else 0) ∧
    does (.kshr d a y) (if v.toNat < 64 then x >>> v.toNat else 0) ∧
    does (.kcmp d a y .eq) (if x = v then 1 else 0) ∧ does (.kcmp d a y .ne) (if x ≠ v then 1 else 0) ∧
    does (.kcmp d a y .lt) (if x.toInt < v.toInt then 1 else 0) ∧ does (.kcmp d a y .le) (if x.toInt ≤ v.toInt then 1 else 0) ∧
    does (.kcmp d a y .gt) (if v.toInt < x.toInt then 1 else 0) ∧ does (.kcmp d a y .ge) (if v.toInt ≤ x.toInt then 1 else 0) ∧
    does (.klit d i) (i.signExtend 64) ∧
    (operandFault r [.src b w64] true = none →
      does (.kread d b l w64) (srcAt r s.wave.ids.wave.val b w64 l))

/-! ### The mirror bank -/

/-- R217, R219, R221, R223: PROPOSE makes both copies of n0 to n15 equal to the committed one and opens a proposal, in every lane; DISCARD closes it; DRAWKEY writes DKEY and, where it names a second register, DIDX; MBCLR clears the named counters in active lanes and moves the committed values to copy 0 where it says so. -/
def Obligations.MirrorBankSystem : Prop :=
  ∀ (s : State) (a : KReg) (b : Option KReg) (cp ca norm : Bool),
    let r := s.wave.regs
    let does := fun (i : Instr) (g : Regs → Regs → Prop) =>
      ∃ u, exec i s = .next u ∧ OnlyRegs s u ∧ u.wave.regs.pc = r.pc + 4 ∧ u.wave.regs.latch = latchAfter r none ∧
        g { r with pc := r.pc + 4, latch := latchAfter r none } u.wave.regs
    let idle := r.pflag = false ∧ ¬(s.wave.handler = true ∧ s.wave.frame.pflag = true)
    (r.mirrorOn = true → idle → does .propose fun q u =>
      u = { q with named := u.named, mirror := u.mirror, pflag := true } ∧
      (∀ (x : Fin 16) (l : Fin 32), u.named[x.val][l] = committed r x l ∧ u.mirror[x][l] = committed r x l) ∧
      ∀ x : Fin 40, 16 ≤ x.val → u.named[x] = r.named[x]) ∧
    (r.mirrorOn = false → exec .propose s = .next (trapWave s 0x32)) ∧
    (r.mirrorOn = true → ¬idle → exec .propose s = .next (trapWave s 0x30)) ∧
    (r.pflag = true → does .discard fun q u => u = { q with pflag := false }) ∧
    (r.pflag = false → exec .discard s = .next (trapWave s 0x31)) ∧
    (norm = true → ¬idle → exec (.mbclr cp ca norm) s = .next (trapWave s 0x33)) ∧
    (does (.drawkey a b) fun q u =>
      u = { q with dkey := r.k[a], didx := u.didx } ∧
      ∀ l : Fin 32, u.didx[l] = match b with | some j => lo32 r.k[j] | none => r.didx[l]) ∧
    ((norm = true → idle) → does (.mbclr cp ca norm) fun q u =>
      u = { q with pcnt := u.pcnt, acnt := u.acnt, named := u.named, sel := if norm then 0 else r.sel } ∧
      (∀ l : Fin 32, u.pcnt[l] = (if cp && laneOn r l then 0 else r.pcnt[l]) ∧
        u.acnt[l] = (if ca && laneOn r l then 0 else r.acnt[l])) ∧
      (∀ (x : Fin 16) (l : Fin 32), u.named[x.val][l] = if norm then committed r x l else r.named[x.val][l]) ∧
      ∀ x : Fin 40, 16 ≤ x.val → u.named[x] = r.named[x])

/-- R215, R218, R220, R222: DRAW delivers a draw in active lanes and advances their DIDX; ACCEPT with an open proposal accepts in the active lanes whose draw's logarithm is not above the source, counts, toggles SEL there, sets p1 and closes the proposal; MBSTAT delivers the view that each lane's selector names. -/
def Obligations.MirrorBankLanes : Prop :=
  ∀ (s : State) (d : Dst) (a : Src) (h : Hold),
    let r := s.wave.regs
    let x := srcLanes r s.wave.ids.wave.val a false
    let draw := fun (l : Fin 32) => drawValue (glane s.wave l) r.didx[l] r.dkey
    let next : Lanes W32 := Lanes.of fun l => if laneOn r l then r.didx[l] + 1 else r.didx[l]
    (operandFault r [.dst d false] true = none →
      let v : Lanes W64 := Lanes.of fun l => (draw l).setWidth 64
      ∃ u, exec (.draw d h) s = .next u ∧ OnlyRegs s u ∧
        LaneDone { r with didx := next } u.wave.regs 4 d false v (heldBy h (v, false) (v, false) (onActive r v, false))) ∧
    (operandFault r [.src a false, .dst d false] (tyIn r (· == .f32)) = none → r.pflag = true →
      let y := fun (l : Fin 32) => if laneOn r l then drawLog (draw l) else 0
      let yes := fun (l : Fin 32) => laneOn r l && condHolds .le (elemOrder .f32 (y l) x[l].toNat)
      let up := fun (v : W32) => if v = 0xFFFFFFFF then v else v + 1
      let v : Lanes W64 := Lanes.of fun l => BitVec.ofNat 64 (y l)
      ∃ u, exec (.accept d a h) s = .next u ∧ OnlyRegs s u ∧
        (∀ l : Fin 32, u.wave.regs.pcnt[l] = (if laneOn r l then up r.pcnt[l] else r.pcnt[l]) ∧
          u.wave.regs.acnt[l] = (if yes l then up r.acnt[l] else r.acnt[l]) ∧
          (u.wave.regs.sel.getLsbD l.val = (r.sel.getLsbD l.val ^^ yes l)) ∧
          u.wave.regs.preds[1].getLsbD l.val = (if laneOn r l then yes l else r.preds[1].getLsbD l.val)) ∧
        (∀ q : PReg, q ≠ 1 → u.wave.regs.preds[q] = r.preds[q]) ∧
        LaneDone { r with didx := next, pcnt := u.wave.regs.pcnt, acnt := u.wave.regs.acnt, sel := u.wave.regs.sel, pflag := false }
          { u.wave.regs with preds := r.preds } 4 d false v (heldBy h (x, false) (x, false) (onActive r v, false))) ∧
    (operandFault r [.src a false, .dst d true] true = none →
      let v : Lanes W64 := Lanes.of fun l =>
        if x[l].toNat % 4 = 0 then pair64 r.pcnt[l] r.acnt[l]
        else if x[l].toNat % 4 = 1 then
          pair64 (BitVec.ofNat 32 ((if r.sel.getLsbD l.val then 1 else 0) + if r.pflag then 2 else 0)) r.didx[l]
        else 0
      ∃ u, exec (.mbstat d a) s = .next u ∧ OnlyRegs s u ∧ LaneDone r u.wave.regs 4 d true v none)

/-! ### Control, mode and system -/

/-- R84, R89, R197, R205, R207: what NOP, YIELD, MODE, MODEK, NOPREEMPT and PREEMPTOK change beside the program counter: nothing; the waiting times; MODE; the window, and with its close the in-field tests that it deferred. -/
def Obligations.SimpleControl : Prop :=
  ∀ (s : State) (m : BitVec 13) (a : KReg),
    let w := s.wave
    let r : Regs := { w.regs with pc := w.regs.pc + 4, latch := latchAfter w.regs none }
    let v := w.regs.k[a].toNat
    exec .nop s = .next { s with wave := { w with regs := r } } ∧
    exec .yieldW s = .next { s with wave := { w with regs := r, waited := 0, losses := 0, readySince := s.free + 1 } } ∧
    exec (.setMode m) s = .next { s with wave := { w with regs := { r with mode := m.setWidth 32 } } } ∧
    (v < 2 ^ 13 → v / 16 % 32 < 15 → v / 512 % 8 < 6 →
      exec (.modek a) s = .next { s with wave := { w with regs := { r with mode := BitVec.ofNat 32 v } } }) ∧
    exec .nopreempt s = .next { s with wave := { w with
      regs := r, npOpen := true, npleft := if w.npOpen then w.npleft else 20000 } } ∧
    ∃ u, exec .preemptok s = .next u ∧ u = { s with wave := { w with regs := r, npOpen := false, npleft := 0 }, cores := u.cores } ∧
      ∀ c : Fin 192, u.cores[c] = { s.cores[c] with testAfter := s.cores[c].testAfter.filter fun t => t != w.ids.token }

/-- R144, R188 to R191, R338: a transfer to the next word in sequence is not taken; any other makes every queue and latch entry invalid and enters the digest. The jumps go to their targets, CALL pushes the address after it, RET pops, and the branches decide by the guard over EXEC. -/
def Obligations.Transfers : Prop :=
  ∀ (s : State) (o : BitVec 20) (a : KReg) (c : Guard),
    let w := s.wave
    let r := w.regs
    let target := r.pc + (o.signExtend 64 <<< 2)
    let holds := fun (l : Fin 32) => (guardMask r c.toNat).getLsbD l.val
    let goes := fun (i : Instr) (t : W64) (rs : List W64) =>
      ∃ u, exec i s = .next u ∧ u = { s with wave := u.wave } ∧ SameMemory s u ∧
        (t ≠ r.pc + 4 → u.wave = { w with
          regs := { r with pc := t, qvalid := 0, latch := r.latch.map (fun e => { e with life := 0 }), rs := rs }
          tried := none
          digest := ((w.digest.rotateLeft 5) ^^^ t) * 0x9E3779B97F4A7C15 }) ∧
        (t = r.pc + 4 → u.wave = { w with regs := { r with pc := t, latch := latchAfter r none, rs := rs } })
    goes (.jmp o) target r.rs ∧
    (r.k[a].toNat % 4 = 0 → r.k[a].toNat < 2 ^ 56 → goes (.jmpk a) r.k[a] r.rs) ∧
    (r.rs.length < 16 → goes (.call o) target ((r.pc + 4) :: r.rs)) ∧
    (∀ t rest, r.rs = t :: rest → goes .ret t rest) ∧
    goes (.brany c o) (if ∃ l : Fin 32, r.exec.getLsbD l.val = true ∧ holds l = true then target else r.pc + 4) r.rs ∧
    goes (.brall c o) (if ∀ l : Fin 32, r.exec.getLsbD l.val = true → holds l = true then target else r.pc + 4) r.rs ∧
    goes (.brnone c o) (if ∀ l : Fin 32, r.exec.getLsbD l.val = true → holds l = false then target else r.pc + 4) r.rs

/-- R144, R192: IFP pushes EXEC and keeps the lanes in which the guard holds; ELSEP takes the other lanes of the saved mask; ENDIFP pops; BREAKP drops lanes, and pops and branches when none is left. A new EXEC of zero branches. A taken branch makes every queue entry invalid, and a transfer to the next word in sequence is not taken.

R338: IFP, ELSEP and BREAKP enter the resulting EXEC into the digest, and a taken branch its target after it; ENDIFP leaves the digest. -/
def Obligations.DivergentRegions : Prop :=
  ∀ (s : State) (o : BitVec 20) (c : Guard),
    let w := s.wave
    let r := w.regs
    let g := guardMask r c.toNat
    let top : W32 := r.mstack[(Fin.ofNat 16 (r.msdepth.val - 1) : Fin 16)]
    let target := r.pc + (o.signExtend 64 <<< 2)
    let enters := fun (d v : W64) => ((d.rotateLeft 5) ^^^ v) * 0x9E3779B97F4A7C15
    let does := fun (i : Instr) (x : W32) (depth : Nat) (stack : Vector W32 16) (goes : Bool) (digest : W64) =>
      let taken := goes = true ∧ target ≠ r.pc + 4
      ∃ u, exec i s = .next u ∧ u = { s with wave := u.wave } ∧ SameMemory s u ∧
        u.wave.regs.exec = x ∧ u.wave.regs.msdepth.val = depth ∧ u.wave.regs.mstack = stack ∧
        u.wave.regs.pc = (if goes then target else r.pc + 4) ∧
        u.wave.regs = { r with
          pc := u.wave.regs.pc, exec := x, msdepth := u.wave.regs.msdepth, mstack := stack
          qvalid := u.wave.regs.qvalid, latch := u.wave.regs.latch } ∧
        (taken → u.wave.regs.qvalid = 0 ∧ u.wave.regs.latch = r.latch.map fun e => { e with life := 0 }) ∧
        (¬taken → u.wave.regs.qvalid = r.qvalid ∧ u.wave.regs.latch = latchAfter r none) ∧
        (taken → u.wave = { w with regs := u.wave.regs, digest := enters digest target, tried := none }) ∧
        (¬taken → u.wave = { w with regs := u.wave.regs, digest := digest })
    let entered := fun (x : W32) => enters w.digest (x.setWidth 64)
    let x1 := r.exec &&& g
    let x2 := top &&& ~~~ r.exec
    let x3 := r.exec &&& ~~~ g
    (∀ h : r.msdepth.val < 16, does (.ifp c o) x1 (r.msdepth.val + 1) (r.mstack.set r.msdepth.val r.exec) (x1 == 0) (entered x1)) ∧
    (0 < r.msdepth.val → does (.elsep o) x2 r.msdepth.val r.mstack (x2 == 0) (entered x2)) ∧
    (0 < r.msdepth.val → does .endifp top (r.msdepth.val - 1) r.mstack false w.digest) ∧
    (0 < r.msdepth.val → x3 ≠ 0 → does (.breakp c o) x3 r.msdepth.val r.mstack false (entered x3)) ∧
    (0 < r.msdepth.val → x3 = 0 → does (.breakp c o) top (r.msdepth.val - 1) r.mstack true (entered top))

/-- R195, R196, R198 to R201: EXECRD, EXECWR, LIT, LITH, GETSR and SETSR complete with the values of the special registers; CLOCK latches its high half for CLOCKH. -/
def Obligations.SpecialRegisters : Prop :=
  ∀ (s : State) (d : Dst) (a : Src) (lit : W32) (x : SpecialReg) (k : KReg) (h : Hold),
    let w := s.wave
    let r := w.regs
    let v := lo32 r.k[k]
    let same := fun (z : W32) => (Lanes.all (z.setWidth 64) : Lanes W64)
    let does := fun (i : Instr) (uses : List OpUse) (n : Nat) (wide : Bool) (z : Lanes W64) (held : Option (Lanes W64 × Bool)) (clock : Option W64) =>
      operandFault r uses true = none →
        ∃ u, exec i s = .next u ∧ OnlyRegs s u ∧ LaneDone { r with clockLatch := clock } u.wave.regs n d wide z held
    let read : Lanes W64 := Lanes.of fun l => (specialValue s x l).setWidth 64
    let written := fun (f : Regs → Regs) => onRegs s fun q => { f q with pc := r.pc + 4, latch := latchAfter r none }
    does (.execrd d h) [.dst d false] 4 false (same r.exec)
      (heldBy h (same r.exec, false) (same r.exec, false) (onActive r (same r.exec), false)) r.clockLatch ∧
    does (.lit d lit) [.dst d false] 8 false (same lit) none r.clockLatch ∧
    does (.lith d lit) [.src (.q 0) false, .dst d true] 8 true (Lanes.of fun l => pair64 lit (r.q[0])[l]) none r.clockLatch ∧
    does (.getsr d x h) [.dst d false] 4 false read (heldBy h (read, false) (read, false) (onActive r read, false))
      (match x with | .clock => some (waveClock s) | .clockh => none | _ => r.clockLatch) ∧
    (operandFault r [.src a false] true = none →
      let y := srcLanes r w.ids.wave.val a false
      let e := lo32 y[(lowestLane r.exec).getD 0]
      ∃ u, exec (.execwr a h) s = .next u ∧ OnlyWave s u ∧
        u.wave = { w with
          regs := { r with pc := r.pc + 4, exec := e, latch := latchAfter r (heldBy h (y, false) (y, false) (y, false)) }
          digest := digestStep w.digest (e.setWidth 64) }) ∧
    (v.toNat % 4096 = 0 → exec (.setsr .tbase k) s = .next (written fun q => { q with tbase := pair64 (hi32 r.tbase) v })) ∧
    (v.toNat < 2 ^ 24 → exec (.setsr .tbaseh k) s = .next (written fun q => { q with tbase := pair64 v (lo32 r.tbase) })) ∧
    (modeLegal v.toNat = true → exec (.setsr .mode k) s = .next (written fun q => { q with mode := v })) ∧
    (v.toNat ≤ 16 → exec (.setsr .msdepth k) s = .next (written fun q => { q with msdepth := Fin.ofNat 17 v.toNat })) ∧
    (v.toNat < 16 → exec (.setsr .msidx k) s = .next (written fun q => { q with msidx := Fin.ofNat 16 v.toNat })) ∧
    exec (.setsr .msval k) s = .next (written fun q => { q with mstack := r.mstack.set r.msidx.val v }) ∧
    (v.toNat < 16 → exec (.setsr .prio k) s = .next (settlePrio (written fun q => { q with prio := Fin.ofNat 16 v.toNat })))

/-! ### Traps -/

/-- R417, R418: trap entry of a wave that runs no handler, for every cause that an instruction raises.

R204, R417, R420: a handler that returns at once leaves the wave with the registers that it had, at the saved program counter. -/
def Obligations.TrapEntry : Prop :=
  ∀ (s : State) (cause : Cause) (spc : W64) (recs : List TrapRec) (sb pa : Nat),
    s.wave.handler = false → cause ≠ 0x4D → SideBufferAt s sb pa →
    (Memory.wf s.hbm = true → (recs.map fun x => x.lane).Nodup → Entered s (trapEntry s cause spc recs) sb pa cause spc recs) ∧
    (spc.toNat % 4 = 0 → spc.toNat < 2 ^ 56 →
      ∃ u, exec .eret (trapEntry s cause spc recs) = .next u ∧ u.wave.handler = false ∧
        u.wave.regs = { s.wave.regs with pc := spc })

/-- R202, R204, R90: TRAP completes and enters the handler with the source's values in the lanes of EXEC; a word that is no instruction enters with cause 0 and the word in lane 0's record; ERET in a handler brings the saved items back and goes to the address in the frame view. -/
def Obligations.TrapInstructions : Prop :=
  ∀ (s : State) (n : Fin 8) (a : Src) (word : W32) (sb pa : Nat),
    let w := s.wave
    let r := w.regs
    let x := srcLanes r w.ids.wave.val a false
    let cause : Cause := BitVec.ofNat 8 (0x58 + n.val)
    let sub : W8 := BitVec.ofNat 8 n.val
    let after := onRegs (countBanks s [.src a false]) fun q => { q with pc := r.pc + 4, latch := latchAfter r none }
    let spc := pair64 r.mstack[10] r.mstack[9]
    (w.handler = false → w.run = .running → SideBufferAt s sb pa → Memory.wf s.hbm = true →
      operandFault r [.src a false] true = none →
      ∃ u recs, exec (.trap n a) s = .next u ∧ Entered after u sb pa cause (r.pc + 4) recs ∧
        (r.exec = 0 → recs = [⟨0, 0, cause, sub⟩]) ∧
        (r.exec ≠ 0 → recs = (laneList.filter fun l => r.exec.getLsbD l.val).map fun l => ⟨l, x[l], cause, sub⟩)) ∧
    (w.handler = false → SideBufferAt s sb pa → Memory.wf s.hbm = true →
      (∀ i rest, decode (bytesOfWord word ++ [0, 0, 0, 0]) ≠ .ok (i, rest)) →
      ∃ u, exec (.illegalInstr word) s = .next u ∧ Entered s u sb pa 0 r.pc [⟨0, word.setWidth 64, 0, 0⟩]) ∧
    (w.handler = true → spc.toNat % 4 = 0 → spc.toNat < 2 ^ 56 →
      exec .eret s = .next { s with wave := { w with
        handler := false
        regs := { r with
          pc := spc, q := w.frame.q, qvalid := w.frame.qvalid, pushes := w.frame.pushes, latch := w.frame.latch
          pflag := w.frame.pflag, exec := w.frame.exec, mstack := w.frame.mstack, msdepth := w.frame.msdepth
          mode := w.frame.mode, clockLatch := w.frame.clockLatch, rs := w.frame.rs } } })

/-- R91: the first failing check decides the trap: a register out of range, a misaligned pair, a type that is not supported, an invalid queue entry, a latch entry that has expired. The instruction then has no other effect. -/
def Obligations.OperandTraps : Prop :=
  ∀ (s : State) (d : Dst) (a : Src) (b : Src2) (h : Hold) (c : Cause),
    let r := s.wave.regs
    let w := regsWide r
    let uses := [OpUse.src a w] ++ useSrc2 b w ++ [.dst d w]
    let ok := tyIn r okArith
    (operandFault r uses ok = some c → exec (.add d a b h) s = .next (trapEntry s c r.pc [⟨0, 0, c, 0⟩])) ∧
    (operandFault r uses ok = some 0x0C ↔ ∃ u ∈ uses, rangeBad r u = true) ∧
    (operandFault r uses ok = some 0x0D ↔ (∀ u ∈ uses, rangeBad r u = false) ∧ ∃ u ∈ uses, pairBad u = true) ∧
    (operandFault r uses ok = some 0x02 ↔ (∀ u ∈ uses, rangeBad r u = false ∧ pairBad u = false) ∧ ok = false) ∧
    (operandFault r uses ok = some 0x08 ↔ (∀ u ∈ uses, rangeBad r u = false ∧ pairBad u = false) ∧ ok = true ∧
      ∃ u ∈ uses, queueBad r u = true) ∧
    (operandFault r uses ok = some 0x09 ↔
      (∀ u ∈ uses, rangeBad r u = false ∧ pairBad u = false ∧ queueBad r u = false) ∧ ok = true ∧
      ∃ u ∈ uses, latchBad r u = true) ∧
    (∀ x : Fin 40, rangeBad r (.src (.n x) w) = true ↔ r.nregs.val ≤ x.val ∨ (w = true ∧ r.nregs.val ≤ x.val + 1)) ∧
    (∀ j : Fin 16, queueBad r (.src (.q j) w) = false ↔
      r.qvalid.getLsbD j.val = true ∧ (w = true → r.qvalid.getLsbD (j.val + 1) = true))

/-- R34, R208, R209: END of a wave without operations in flight ends it; PHASE goes to the entry of the variant with the smallest bound at or above the size, the lowest index among equals, of those it may choose. -/
def Obligations.EndAndPhase : Prop :=
  ∀ (s : State) (l : Launch) (cur v : VariantEnt) (i : Nat),
    let w := s.wave
    let r := w.regs
    let size := r.k[l.sizek].toNat
    let may := fun (x : VariantEnt) => x.gshape = cur.gshape ∧ x.waves = cur.waves ∧ x.nregs ≤ cur.nregs ∧
      x.spad ≤ cur.spad ∧ (x.mirror = true → cur.mirror = true) ∧ (r.pflag = true → x.mirror = true) ∧ size ≤ x.bound
    (w.flights = [] → w.remoteErr = none →
      ∃ u, exec .endW s = .next u ∧ SameMemory s u ∧ u.wave.run = .ended ∧ u.wave.handler = false ∧ u.wave.priv = [] ∧ u.wave.backing = [] ∧
        u.wave.npOpen = false ∧ u.wave.wait = none ∧ u.wave.regs = { r with pflag := false } ∧ u.wave.ids = w.ids) ∧
    (findLaunch s w.ids.gang.launch = some l → l.variants[r.variant.val]? = some cur → l.variants.length ≤ 8 →
      l.variants[i]? = some v → may v →
      (∀ j x, l.variants[j]? = some x → may x → v.bound < x.bound ∨ (v.bound = x.bound ∧ i ≤ j)) →
      ∃ u, exec .phase s = .next u ∧ u = { s with wave := u.wave } ∧ SameMemory s u ∧ u.wave.regs = { r with
        pc := v.entry, variant := Fin.ofNat 8 i, nregs := Fin.ofNat 41 (min v.nregs 40), mirrorOn := v.mirror
        qvalid := 0, latch := r.latch.map fun e => { e with life := 0 } })

/-! ### Memory -/

/-- R229 to R231: the windows of an address. -/
def Obligations.AddressWindows : Prop :=
  ∀ (s : State) (a : Nat), a < 2 ^ 64 →
    (a < 2 ^ 54 → windowOf s a = .global a) ∧
    (2 ^ 54 ≤ a → a < 2 ^ 55 → windowOf s a = .l2direct (a - 2 ^ 54)) ∧
    (a / 2 ^ 48 = 0xFE → windowOf s a = .own (a % 2 ^ 48)) ∧
    (∀ slot off : Nat, slot < 8 → off < 2 ^ 19 → a = 0xFF * 2 ^ 48 + slot * 2 ^ 19 + off → windowOf s a = .aperture slot off) ∧
    (∀ rank off : Nat, rank < 1024 → off < 2 ^ 52 → a = 2 ^ 63 + rank * 2 ^ 52 + off → off / 2 ^ 44 ≠ 255 →
      windowOf s a = if rank = s.pkg.rank.toNat then .global off else .remote rank off) ∧
    (∀ rank off : Nat, rank < 1024 → off < 2 ^ 52 → a = 2 ^ 63 + rank * 2 ^ 52 + off → off / 2 ^ 44 = 255 → windowOf s a = .ndomet) ∧
    (2 ^ 55 ≤ a → a < 2 ^ 63 → a / 2 ^ 48 ≠ 0xFE → a / 2 ^ 48 ≠ 0xFF → windowOf s a = .bad) ∧
    (a / 2 ^ 48 = 0xFF → 2 ^ 22 ≤ a % 2 ^ 48 → windowOf s a = .bad) ∧
    (2 ^ 63 + 2 ^ 62 ≤ a → windowOf s a = .bad)

/-- R253, R257, R239, R240, R279: a load whose lanes all pass their checks, on this package, completes: each active lane gets its unit, zero-extended or sign-extended by TYPE, LDQ four words; no byte of memory changes.

R279: a byte of a load is its gang's version; else, where the wave has a write of its own to it that its die has not applied, or the access passes L1, the value on the die with the wave's own writes; else the byte of the wave's L1 line. -/
def Obligations.Loads : Prop :=
  (∀ (s : State) (d : Dst) (a b : Src) (c : KReg) (quad : Bool),
     let r := s.wave.regs
     let w := regsWide r
     let n := if quad then 16 else unitOf (curTy r)
     let uses := [OpUse.src a true, .src b false, if quad then .quadDst d else .dst d w]
     let ea : Lanes W64 := Lanes.of fun l => srcAt r s.wave.ids.wave.val a true l + (lo32 (srcAt r s.wave.ids.wave.val b false l)).signExtend 64
     let lanes := (checkLanes (countBanks s uses) (activeMask r) ea n .load).1
     let t := (checkLanes (countBanks s uses) (activeMask r) ea n .load).2
     let ps := placesOf lanes
     let read := fetchLines (loadPrivs t ps n) r.k[c] ps
     let bytes := fun (l : Fin 32) => match ps.find? fun x => x.1 == l with
       | none => List.replicate n 0
       | some (_, p) => loadUnit read (polNol1 r.k[c]) l p n
     operandFault r uses (regsTy r).isSome = none → policyBad r.k[c] = false → blockingWait s.wave = none → isVersioned s = false →
     (∀ x ∈ lanes, ∃ p, x.res = .ok p ∧ (∀ z, p ≠ .remote z) ∧ unitBlocked t p n = false) →
     (ps ≠ [] → flightCount s.wave (loadPath ps) < 63) →
     ∃ u, exec (if quad then .ldq d a b c else .ld d a b c) s = .next u ∧ SameMemory t u ∧
       (if quad then u.wave.regs = commitQuad { r with pc := r.pc + 4, latch := latchAfter r none } (activeMask r) d (Lanes.of bytes)
         else LaneDone r u.wave.regs 4 d w (Lanes.of fun l => extendUnit (curTy r) (bytes l)) none) ∧
       u.wave.flights = s.wave.flights ++ (if ps = [] then [] else [⟨loadPath ps, false⟩]) ∧
       u = { t with wave := u.wave, waves := u.waves, cores := u.cores, dies := u.dies, tasks := u.tasks }) ∧
  (∀ (s : State) (nol1 : Bool) (pa : Nat),
     let w := s.wave
     let past := viewByte s (coreDie w.ids.core) w.ids.token pa
     (∀ v, gangVersion s w.ids.gang pa = some v → loadByte s nol1 pa = v) ∧
     (gangVersion s w.ids.gang pa = none → nol1 = true → loadByte s nol1 pa = past) ∧
     (gangVersion s w.ids.gang pa = none →
       (∃ x ∈ s.lag, recHas x pa = true ∧ x.token = w.ids.token ∧ recOn x (coreDie w.ids.core) = false) → loadByte s nol1 pa = past) ∧
     (gangVersion s w.ids.gang pa = none → (∀ l ∈ s.cores[w.ids.core].l1, l.line ≠ pa / 128) → loadByte s nol1 pa = past) ∧
     (∀ x ∈ s.lag, ∀ v, s.lag = [x] → recNew x pa = some v → recOn x (coreDie w.ids.core) = true →
       viewByte s (coreDie w.ids.core) w.ids.token pa = v))

/-- R257, R258, R239, R240, R261: a store whose active lanes pass their checks, on this package: in global memory, scratchpads and own memory exactly the lanes' units take the lanes' data, a later lane over an earlier one, and every other byte keeps its value; a versioned task's store changes its gang's versions and no byte of memory. -/
def Obligations.Stores : Prop :=
  ∀ (s : State) (a b : Src) (c : KReg) (quad : Bool),
    let r := s.wave.regs
    let w := regsWide r
    let k := s.wave.ids.gang
    let n := if quad then 16 else unitOf (curTy r)
    let uses := [OpUse.src a true, if quad then .quad b else .src b w]
    let data := fun (l : Fin 32) => if quad then quadBytes r s.wave.ids.wave.val b l
      else leBytes n (srcAt r s.wave.ids.wave.val b w l).toNat
    let lanes := (checkLanes (countBanks s uses) (activeMask r) (srcLanes r s.wave.ids.wave.val a true) n .store).1
    let t := (checkLanes (countBanks s uses) (activeMask r) (srcLanes r s.wave.ids.wave.val a true) n .store).2
    let ps := placesOf lanes
    let global := ps.flatMap fun x => match x.2 with | .mem pa _ => keyed pa (data x.1) | _ => []
    let shared := fun (i : Fin 8) => ps.flatMap fun x => match x.2 with | .spad j off => if j = i then keyed off (data x.1) else [] | _ => []
    let own := fun (l : Fin 32) => ps.flatMap fun x => match x.2 with | .own off => if x.1 = l then keyed off (data x.1) else [] | _ => []
    operandFault r uses (regsTy r).isSome = none → policyBad r.k[c] = false →
    (∀ x ∈ lanes, ∃ p, x.res = .ok p ∧ ∀ z, p ≠ .remote z) →
    (ps ≠ [] → flightCount s.wave .store < 63) → releaseWaits t r.k[c] ps = false → monWaits t ps = false →
    Memory.wf t.hbm = true → OwnMemoryWf s → (∀ g ∈ t.groups, cellsWf (0 : W8) g.spad = true) →
    (isVersioned s = false →
      ∃ u, exec (if quad then .stq a b c else .st a b c) s = .next u ∧
        u.wave.regs = { r with pc := r.pc + 4, latch := latchAfter r none } ∧
        (∀ x, memByte u x = written global x (memByte t x)) ∧
        (∀ (i : Fin 8) (o : Nat), (findGroup t k i.val).isSome = true →
          byteAt u k (some i, o) = written (shared i) o (byteAt t k (some i, o))) ∧
        (∀ (l : Fin 32) (o : Nat), ownCell u.wave (32 * o + l.val) = written (own l) o (ownCell s.wave (32 * o + l.val))) ∧
        u.wave.flights = s.wave.flights ++ (if ps = [] then [] else [⟨.store, false⟩])) ∧
    (isVersioned s = true → (performStores true data ps (reachLines t r.k[c] ps)).isSome = true →
      ∃ u, exec (if quad then .stq a b c else .st a b c) s = .next u ∧
        u.wave.regs = { r with pc := r.pc + 4, latch := latchAfter r none } ∧
        (∀ x, memByte u x = memByte t x) ∧
        (∀ x, gangVersion u k x = ((global.reverse.find? fun z => z.1 == x).map fun z => z.2).or (gangVersion t k x)))

/-- R236, R256: a store with failing lanes performs the other lanes' stores and traps with the lowest cause, the failing lanes' addresses and causes in its records.

R416: a lane that would only meet lost data (0x4D) has no record beside lanes that fail a check. -/
def Obligations.FailingStores : Prop :=
  ∀ (s v : State) (a b : Src) (c : KReg),
    let r := s.wave.regs
    let w := regsWide r
    let n := unitOf (curTy r)
    let uses := [OpUse.src a true, .src b w]
    let data := fun (l : Fin 32) => leBytes n (srcAt r s.wave.ids.wave.val b w l).toNat
    let lanes := (checkLanes (countBanks s uses) (activeMask r) (srcLanes r s.wave.ids.wave.val a true) n .store).1
    let t := (checkLanes (countBanks s uses) (activeMask r) (srcLanes r s.wave.ids.wave.val a true) n .store).2
    let bad := lanes.filterMap fun x => match x.res with | .fail z => some (x, z) | _ => none
    let ps := placesOf lanes
    let done := if ps = [] then v else onWave v fun z => { z with flights := z.flights ++ [⟨.store, false⟩] }
    operandFault r uses (regsTy r).isSome = none → policyBad r.k[c] = false →
    (∀ x ∈ lanes, x.res ≠ .held ∧ ∀ z, x.res ≠ .ok (.remote z)) → bad ≠ [] →
    (ps ≠ [] → flightCount s.wave .store < 63) → releaseWaits t r.k[c] ps = false → monWaits t ps = false →
    performStores (isVersioned s) data ps (reachLines t r.k[c] ps) = some v →
    let told := if bad.all fun x => x.2 == 0x4D then bad else bad.filter fun x => x.2 != 0x4D
    ∃ u m, exec (.st a b c) s = .next u ∧ (∃ x ∈ told, x.2 = m) ∧ (∀ x ∈ told, ¬ x.2 < m) ∧
      u = trapEntry done m r.pc (told.map fun x => ⟨x.1.lane, x.1.addr, x.2, 0⟩)

/-- R259, R260: an atomic whose active lanes pass their checks, on this package and outside a versioned task, steps lane by lane in ascending order: each lane reads its unit and writes what the operation gives; ATOMR and CAS deliver what the lanes read, CAS writes only where the compare holds and says in p1 where it did; every other byte keeps its value. -/
def Obligations.Atomics : Prop :=
  ∀ (s : State) (o : AtomOp) (d : Dst) (a b : Src) (c : KReg),
    let r := s.wave.regs
    let ty := curTy r
    let w := regsWide r
    let n := unitOf ty
    let k := s.wave.ids.gang
    let src := fun (l : Fin 32) => (srcAt r s.wave.ids.wave.val b w l).toNat % 2 ^ tyBits ty
    let pr := casPair r s.wave.ids.wave.val b
    let oper := fun (l : Fin 32) (x : Nat) => some (atomApply o ty (modeSat r.mode) x (src l))
    let swap := fun (l : Fin 32) (x : Nat) => if x = (pr l).1 then some (pr l).2 else none
    let does := fun (i : Instr) (uses : List OpUse) (f : Fin 32 → Nat → Option Nat) (P : State → (Fin 32 → Nat) → Prop) =>
      let lanes := (checkLanes (countBanks s uses) (activeMask r) (srcLanes r s.wave.ids.wave.val a true) n .atomic).1
      let t := (checkLanes (countBanks s uses) (activeMask r) (srcLanes r s.wave.ids.wave.val a true) n .atomic).2
      let ps := placesOf lanes
      let at0 := ps.filterMap fun x => match x.2 with
        | .mem pa _ => some (x.1, ((none, pa) : UnitKey))
        | .spad i off => some (x.1, (some i, off))
        | _ => none
      operandFault r uses (tyIn r atomTy) = none → policyBad r.k[c] = false → blockingWait s.wave = none →
      (∀ x ∈ lanes, ∃ p, x.res = .ok p ∧ ∀ z, p ≠ .remote z) →
      (∀ x ∈ at0, ∀ i, x.2.1 = some i → (findGroup t k i.val).isSome = true) →
      (ps ≠ [] → ∀ p, flightCount s.wave p < 63) → releaseWaits t r.k[c] ps = false → monWaits t ps = false →
      isVersioned s = false → Memory.wf t.hbm = true → (∀ g ∈ t.groups, cellsWf (0 : W8) g.spad = true) →
      let steps := atomicSteps n f at0 (byteAt t k)
      ∃ u, exec i s = .next u ∧ (∀ x : UnitKey, byteAt u k x = steps.2 x) ∧
        P u (fun l => ((steps.1.find? fun x => x.1 == l).map fun x => x.2).getD 0)
    does (.atom o a b c) [.src a true, .src b w] oper (fun u _ =>
      u.wave.regs = { r with pc := r.pc + 4, latch := latchAfter r none }) ∧
    does (.atomr o d a b c) [.src a true, .src b w, .dst d w] oper (fun u old =>
      LaneDone r u.wave.regs 4 d w (Lanes.of fun l => BitVec.ofNat 64 (old l)) none) ∧
    does (.cas d a b c) [.src a true, if w then .quad b else .src b true, .dst d w] swap (fun u old =>
      LaneDone r { u.wave.regs with preds := r.preds } 4 d w (Lanes.of fun l => BitVec.ofNat 64 (old l)) none ∧
      ∀ l : Fin 32, u.wave.regs.preds[1].getLsbD l.val = if laneOn r l then decide (old l = (pr l).1) else r.preds[1].getLsbD l.val)

/-- R262 to R264, R267, R269: PREF, PIN, UNPIN, FENCE and WAITP complete and change no byte of memory; FENCE with a release part and WAITP complete once the wave's stores, or the path's operations, allow it. -/
def Obligations.CacheAndOrder : Prop :=
  ∀ (s : State) (a : Src) (j k : KReg) (x : Scope) (o : FenceOrder) (p : FlightPath),
    let w := s.wave
    let r := w.regs
    let start := r.k[j].toNat
    let len := r.k[k].toNat
    let next : Regs := { r with pc := r.pc + 4, latch := latchAfter r none }
    let acked := (pendingMons s).isEmpty && s.lag.all (fun y => y.token != w.ids.token ||
      (if 4 ≤ scopeNum x then y.on0 && y.on1 else recOn y (coreDie w.ids.core))) &&
        w.flights.all fun f => !(f.remote && f.path == .store)
    (operandFault r [.src a true] true = none → policyBad r.k[j] = false →
      ∃ u, exec (.pref a j) s = .next u ∧ SameMemory s u ∧ u.wave = { w with regs := next, priv := u.wave.priv, backing := u.wave.backing } ∧
        u = { s with wave := u.wave, waves := u.waves, cores := u.cores, dies := u.dies, tasks := u.tasks }) ∧
    (len = 0 → exec (.pin j k) s = .next { s with wave := { w with regs := next } }) ∧
    (∀ l, 0 < len → len ≤ 2 ^ 21 → (∀ g, findGang s w.ids.gang = some g → g.pins.length < 16) →
      (pinLines (rangeLines start len) s).1 = .ok l → pinOver (pinLines (rangeLines start len) s).2 (coreDie w.ids.core) l = false →
      ∃ u, exec (.pin j k) s = .next u ∧ SameMemory (pinLines (rangeLines start len) s).2 u ∧ u.wave = { w with regs := next } ∧
        (findGang u w.ids.gang).map (fun y => y.pins) = (findGang s w.ids.gang).map fun y => y.pins ++ [⟨start, len, l⟩]) ∧
    (∃ u, exec (.unpin j k) s = .next u ∧ SameMemory s u ∧ u.wave = { w with regs := next } ∧ u = { s with wave := u.wave, gangs := u.gangs } ∧
      (findGang u w.ids.gang).map (fun y => y.pins) = (findGang s w.ids.gang).map fun y => y.pins.eraseP fun z => z.start == start && z.len == len) ∧
    ((o = .acq ∨ acked = true) →
      ∃ u, exec (.fence x o) s = .next u ∧ SameMemory s u ∧ u.wave.regs = next ∧
        (o ≠ .rel → 2 ≤ scopeNum x → u.wave.floor = clkJoin w.floor w.clk) ∧
        (o ≠ .rel → scopeNum x < 2 → u = { s with wave := { w with regs := next, covers := groupPending s w } }) ∧
        (o = .rel → u = { s with wave := { w with regs := next } })) ∧
    (flightCount w p ≤ r.k[j].toNat → flightCount w p ≤ 63 →
      exec (.waitp p j) s = .next { s with wave := { w with regs := next } })

/-! ### The matrix engine -/

/-- R296, R302 to R306, R308 to R310: MXPLAN writes a plan register; each other command that passes its checks with room in the engine's counter is issued and waits in the issue buffer of the wave's core. MXLOOP with a count of 0 issues nothing. -/
def Obligations.MatrixIssue : Prop :=
  ∀ (s : State) (p : HReg) (a l : KReg) (x y : Src) (tile : TileReg) (fill : TileFill) (mask : W8) (slot : Fin 8) (sig : Bool)
    (pas : List Nat),
    let r := s.wave.regs
    let room := flightCount s.wave .engine < 63
    let count := r.k[l].toNat % 2 ^ 16
    let ring := if r.k[l].toNat / 2 ^ 16 % 2 ^ 8 = 0 then 256 else r.k[l].toNat / 2 ^ 16 % 2 ^ 8
    let signal := fun (j : KReg) => if sig then some r.k[j] else none
    let lanes := laneList.filter fun i => laneOn r i
    let sel := srcLanes r s.wave.ids.wave.val x false
    let val := srcLanes r s.wave.ids.wave.val y false
    let checks := fun (cnt nst : Nat) =>
      ringChecks (planOf r.h[p]) r.k[a] r.k[(a + 1 : Fin 32)] (signal (a + 2)) (List.range (min cnt nst)) [] s
    let issues := fun (i : Instr) (cnt nst : Nat) => ∀ pages, planOk r.h[p] = true → (checks cnt nst).1 = .ok pages →
      ∃ u, exec i s = .next u ∧ MatrixIssued (checks cnt nst).2 u
        (.steps tile r.h[p] r.k[a] r.k[(a + 1 : Fin 32)] (signal (a + 2)) pages.eraseDups cnt nst 0)
    (planOk r.k[a] = true → ∃ u, exec (.mxplan p a) s = .next u ∧
      u = { s with wave := { s.wave with regs := { nextWord r with h := r.h.set p.val r.k[a] } } }) ∧
    (planOk r.k[a] = false → exec (.mxplan p a) s = .next (trapEntry s 0x38 r.pc [⟨0, 0, 0x38, 0⟩])) ∧
    (room → ∃ u, exec (.mxzero tile fill) s = .next u ∧ MatrixIssued s u (.zero tile fill)) ∧
    (room → ∃ u, exec (.monclr mask) s = .next u ∧ MatrixIssued s u (.monclr mask)) ∧
    (room → issues (.mxstep tile p a sig) 1 1) ∧ (room → count ≠ 0 → issues (.mxloop tile p a l sig) count ring) ∧
    (count = 0 → planOk r.h[p] = true →
      ∃ u, exec (.mxloop tile p a l sig) s = .next u ∧ u = { s with wave := { s.wave with regs := nextWord r } }) ∧
    (room → operandFault r [.src x false, .src y false] true = none →
      ∃ u, exec (.mxwr x y) s = .next u ∧ MatrixIssued (countBanks s [.src x false, .src y false]) u
        (.write (lanes.map fun i => (Fin.ofNat 4 (sel[i].toNat / 4096), sel[i].toNat % 4096, lo32 val[i])))) ∧
    (room → (monCheck s r.k[a].toNat).1 = .ok pas →
      (∀ c, signal (a + 1) = some c → completionCheck (monCheck s r.k[a].toNat).2 s.wave.ids.gang c.toNat = none) →
      ∃ u, exec (.mxmon slot a sig) s = .next u ∧ MatrixIssued (monCheck s r.k[a].toNat).2 u (.mon slot r.k[a] pas (signal (a + 1))))

/-- R307, R309: MXRD delivers elements of the group's tiles once no command on the named tiles is outstanding, MONRD the monitor counters once no command of the group is; neither changes memory, tiles or counters. -/
def Obligations.MatrixReads : Prop :=
  ∀ (s : State) (d : Dst) (a : Src) (h : Hold) (g : Group),
    let r := s.wave.regs
    let x := srcLanes r s.wave.ids.wave.val a false
    let mine := fun (e : MxEntry) => e.who.gang = some s.wave.ids.gang ∧ e.who.group = s.wave.ids.group
    let cmds := s.cores[s.wave.ids.core].mxQueue ++ s.cores[s.wave.ids.core].mxWait
    let does := fun (i : Instr) (v : Lanes W64) =>
      ∃ u, exec i s = .next u ∧ SameMemory s u ∧ u = { s with wave := { s.wave with regs := u.wave.regs }, cores := u.cores } ∧
        LaneDone r u.wave.regs 4 d false v (heldBy h (x, false) (v, false) (onActive r v, false))
    operandFault r [.src a false, .dst d false] true = none → findGroup s s.wave.ids.gang s.wave.ids.group.val = some g →
    ((∀ e ∈ cmds, mine e → ∀ t ∈ cmdTiles e.cmd, ∀ l : Fin 32, laneOn r l = true → t.val ≠ x[l].toNat / 4096 % 4) →
      does (.mxrd d a h) (Lanes.of fun l =>
        (cellGet (0 : W32) g.tiles[(Fin.ofNat 4 (x[l].toNat / 4096) : Fin 4)] (x[l].toNat % 4096)).setWidth 64)) ∧
    ((∀ e ∈ cmds, ¬ mine e) →
      does (.monrd d a h) (Lanes.of fun l =>
        let c := x[l].toNat / 8 % 8
        let slot := g.mons[(Fin.ofNat 8 x[l].toNat : Fin 8)]
        if c < 6 then (slot[(Fin.ofNat 6 c : Fin 6)]).setWidth 64 else 0))

/-- R268, R296: the first waiting command of a core enters its queue of 16 when it has room (and the table has room for its completions, and the engine is not stopped for the host), and the issuing wave's operation is over. That it is not over a second time where it was over before an eviction is the model's choice (log entry 31).

R285, R296, R304, R306: a step whose operands can be read folds the products of its two images into the tile and, where the plan says so, the counts into the monitor slot, is taken off its loop, and updates its completion object. -/
def Obligations.MatrixSteps : Prop :=
  (∀ (s : State) (c : Fin 192) (e : MxEntry) (rest : List MxEntry),
     s.cores[c].mxWait = e :: rest → s.cores[c].mxQueue.length < 16 →
     (let keys := (cmdCompls s e.cmd).flatMap (keysAt s e.who none)
      keys = [] ∨ hasRoom (engineRoom s e.who (coreDie c) keys) = true) → engineStopped s e.who.part (matrixAgent c) = false →
     ∃ u, exec (.matrixCommandAccept c) s = .next u ∧ SameMemory s u ∧
       u.cores[c] = { s.cores[c] with mxWait := rest, mxQueue := s.cores[c].mxQueue ++ [e] } ∧
       (∀ x : Fin 192, x ≠ c → u.cores[x] = s.cores[x]) ∧
       u = { s with wave := u.wave, waves := u.waves, cores := u.cores, objs := u.objs } ∧
       (∀ w, findWave s e.who.token = some w → ∃ v, findWave u e.who.token = some v ∧
         v = if e.again then w else { w with flights := dropFlight .engine w.flights })) ∧
  (∀ (s : State) (c : Fin 192) (t : TileReg) (plan a b : W64) (compl : Option W64) (pages : List (Nat × Nat)) (cnt nst done : Nat)
     (who : Issuer) (again : Bool) (rest : List MxEntry) (k : GangKey) (g : Group),
     let o := stepOps plan a b nst done
     let imgA := operandImage s who pages o.a o.na
     let imgB := operandImage s who pages o.b o.nb
     let out := kStepTile plan g.tiles[t] imgA imgB
     let p := planOf plan
     s.cores[c].mxQueue = ⟨.steps t plan a b compl pages cnt nst done, who, again⟩ :: rest → who.gang = some k →
     forkReady s who = true → operandBlocked s who pages o.a o.na = false → operandBlocked s who pages o.b o.nb = false →
     operandLost s who pages o.a o.na = false → operandLost s who pages o.b o.nb = false →
     findGroup s k who.group.val = some g →
     ∃ u, exec (.kStep c) s = .next u ∧
       u.cores[c].mxQueue = (if done + 1 < cnt then ⟨.steps t plan a b compl pages cnt nst (done + 1), who, again⟩ :: rest else rest) ∧
       (compl = none → SameMemory s u ∧ u = { s with groups := u.groups, cores := u.cores, dies := u.dies, tasks := u.tasks } ∧
         findGroup u k who.group.val = some { g with
           tiles := g.tiles.set t.val out.1
           mons := if p.men then g.mons.set p.mslot.val (addCounts g.mons[p.mslot] out.2) else g.mons }) ∧
       (∀ x slot off h, compl = some x → windowOf s x.toNat = .aperture slot off → windowOf s (ringCompl s x (done % nst)).toNat = .aperture slot (off + 16 * (done % nst)) →
         findGroup s k slot = some h → cellsWf (0 : W8) h.spad = true → h.index.val = slot →
         barAt u k h.index (off + 16 * (done % nst)) = arrive (barAt s k h.index (off + 16 * (done % nst))) 0 false))

/-- R303, R308 to R310: the other commands at the head of a queue run: MXZERO fills the tile, MXWR writes the named elements in order, MONCLR clears the masked slots, MXMON writes the slot's six counters, and its signal follows once its writes are applied.

R265, R276, R310: what the wave has issued behind its MXMON follows the MXMON's writes. -/
def Obligations.MatrixCommands : Prop :=
  ∀ (s : State) (c : Fin 192) (who : Issuer) (rest : List MxEntry) (k : GangKey) (g : Group) (t : TileReg) (fill : TileFill)
    (elems : List (TileReg × Nat × W32)) (mask : W8) (slot : Fin 8) (addr : W64) (compl : Option W64) (again : Bool),
    let runs := fun (x : MxCmd) (G : Group → Prop) =>
      s.cores[c].mxQueue = ⟨x, who, again⟩ :: rest →
        ∃ u h, exec (.matrixCommandRun c) s = .next u ∧ u.cores[c].mxQueue = rest ∧ SameMemory s u ∧
          u = { s with groups := u.groups, cores := u.cores } ∧ findGroup u k who.group.val = some h ∧ G h
    let bytes := g.mons[slot].toList.flatMap fun y => leBytes 4 y.toNat
    let unheld := ((s.parts[who.part]).parked.any fun i => some i.tid == who.tid) = false
    who.gang = some k → findGroup s k who.group.val = some g →
    runs (.zero t fill) (fun h => (∃ v, h = { g with tiles := g.tiles.set t.val v }) ∧
      ∀ i < 4096, cellGet (0 : W32) h.tiles[t] i =
        match fill with | .zero => 0 | .pinf => 0x7F800000 | .ninf => 0xFF800000) ∧
    ((∀ q : TileReg, cellsWf (0 : W32) g.tiles[q] = true) →
      runs (.write elems) (fun h => h = { g with tiles := h.tiles } ∧
        ∀ (q : TileReg) (i : Nat), cellGet (0 : W32) h.tiles[q] i =
          (((elems.reverse.find? fun e => e.1 == q && e.2.1 == i).map fun e => e.2.2).getD (cellGet 0 g.tiles[q] i)))) ∧
    runs (.monclr mask) (fun h => h = { g with mons := h.mons } ∧
      ∀ i : Fin 8, h.mons[i] = if mask.getLsbD i.val then Vector.replicate 6 0 else g.mons[i]) ∧
    (∀ off f, s.cores[c].mxQueue = ⟨.mon slot addr [] compl, who, again⟩ :: rest → unheld →
      windowOf s addr.toNat = .aperture f.index.val off → findGroup s k f.index.val = some f → overlapsBar f off 24 = false →
      cellsWf (0 : W8) f.spad = true →
      ∃ u h, exec (.matrixCommandRun c) s = .next u ∧ SameMemory s u ∧ findGroup u k f.index.val = some h ∧
        (∀ x, cellGet 0 h.spad x = written (keyed off bytes) x (cellGet 0 f.spad x)) ∧
        u.cores[c].mxQueue = (match compl with | some z => [⟨.signal z [] false, who, false⟩] | none => []) ++ rest) ∧
    (∀ va pas, s.cores[c].mxQueue = ⟨.mon slot addr pas compl, who, again⟩ :: rest → unheld → windowOf s addr.toNat = .global va →
      issuerVersioned s who = false → (∀ q ∈ pas, overlapsOwned s q 8 = false) → Memory.wf s.hbm = true →
      ∃ u w, exec (.matrixCommandRun c) s = .next u ∧ u.groups = s.groups ∧
        (∀ x, memByte u x = written (pas.mapIdx fun i q => keyed q ((bytes.drop (8 * i)).take 8)).flatten x (memByte s x)) ∧
        u.cores[c].mxQueue = ((match compl with | some z => [⟨.signal z w false, who, false⟩] | none => []) ++ rest).map fun e =>
          if who.core = c ∧ e.who.token = who.token then
            { e with who := { e.who with clk := coverWrites e.who.clk w, writes := e.who.writes ++ w } } else e) ∧
    (∀ x w err, s.cores[c].mxQueue = ⟨.signal x w err, who, again⟩ :: rest → appliedOn s (objectDie s who x) w = true →
      ∃ u, exec (.matrixCommandRun c) s = .next u ∧ u.cores[c].mxQueue = rest ∧
        ∀ off f, windowOf s x.toNat = .aperture f.index.val off → findGroup s k f.index.val = some f → cellsWf (0 : W8) f.spad = true →
          barAt u k f.index off = arrive (barAt s k f.index off) 0 err)

/-! ### Barriers and counters -/

/-- R328 to R331: on a barrier address in the gang's aperture, aligned to 16, BARINIT registers a barrier with an entry in the wait-for table and writes its object, BARARR makes one arrival, BARWAIT returns when the phase is not the one that it has seen, with ERR in p1 of all lanes, and BARFREE ends the registration of one that no operation in flight names and no wave waits on. -/
def Obligations.Barriers : Prop :=
  ∀ (s : State) (a b : KReg) (ob : Option KReg) (slot off : Nat) (g : Group),
    let w := s.wave
    let r := w.regs
    let k := w.ids.gang
    let x := r.k[b].toNat
    let n := (ob.map fun i => r.k[i].toNat).getD 0
    let old := barAt s k g.index off
    let key : ObjKey := .spad k g.index off
    let moved := fun (u : State) (v : Bar) (bars : List Nat) =>
      barAt u k g.index off = v ∧ SameMemory s u ∧
        (∀ o, o < off ∨ off + 16 ≤ o → byteAt u k (some g.index, o) = byteAt s k (some g.index, o)) ∧
        ((findGroup u k g.index.val).map fun y => y.bars) = some bars
    rangeWindow s r.k[a].toNat 16 = .ok (.aperture slot off) → apertureAt s k slot off 16 = some g → r.k[a].toNat % 16 = 0 →
    cellsWf (0 : W8) g.spad = true →
    (x / 2 ^ 16 % 2 ^ 16 = 0 → x % 2 ^ 16 ≠ 0 ∨ x / 2 ^ 32 ≠ 0 → overlapsBar g off 16 = false →
      (s.objs.any fun o => o.key == key) = true ∨ objsUsed s (tableDie s) < 8192 →
      ∃ u, exec (.barinit a b) s = .next u ∧ u.wave = { w with regs := nextWord r } ∧ (∃ o ∈ u.objs, o.key = key) ∧
        moved u ⟨x / 2 ^ 32, x % 2 ^ 16, 0, 0, 0, x / 2 ^ 32, x % 2 ^ 16, 0⟩ (g.bars ++ [off])) ∧
    (n < 2 ^ 32 → off ∈ g.bars → storesAcked s 2 = true → flightCount w .store < 63 →
      ∃ u, exec (.bararr a ob) s = .next u ∧
        u.wave = { w with regs := nextWord r, flights := w.flights ++ [⟨.store, false⟩] } ∧ moved u (arrive old n false) g.bars) ∧
    (off ∈ g.bars → old.phase ≠ x % 2 →
      ∃ u, exec (.barwait a b) s = .next u ∧ SameMemory s u ∧ u.groups = s.groups ∧
        u.wave.regs = { nextWord r with preds := r.preds.set 1 (if old.err = 1 then 0xFFFFFFFF else 0) }) ∧
    (off ∈ g.bars → engineHolders s key = [] → anyWait s key = false →
      ∃ u, exec (.barfree a) s = .next u ∧ u.wave.regs = nextWord r ∧ moved u old (g.bars.erase off))

/-- R319: of the arrivals that a phase expects, each but the last takes one off the count and leaves the phase; the last flips the phase, raises the generation and restores both expectations.

R319: an arrival reduces the bytes by at most what is expected, and says so in OVF where more arrive; an error is kept until the barrier is written again. A surplus arrival, with no arrival expected and no bytes, sets OVF, and ERR for an error, and is dropped. -/
def Obligations.BarrierArrivals : Prop :=
  (∀ (b : Bar) (n : Nat), b.pb = 0 → n < b.pa → b.phase ≤ 1 →
     ((fun x => arrive x 0 false)^[n] b) = { b with pa := b.pa - n } ∧
     ((fun x => arrive x 0 false)^[b.pa] b) =
       { b with phase := 1 - b.phase, gen := (b.gen + 1) % 2 ^ 16, pa := b.ea, pb := b.eb }) ∧
  (∀ (b : Bar) (n : Nat) (err : Bool), b.err ≤ 1 → b.ovf ≤ 1 → (b.pa ≠ 0 ∨ n ≠ 0) →
     let u := arrive b n err
     (b.pb < n → u.ovf = 1) ∧ (n ≤ b.pb → u.ovf = b.ovf) ∧ (u.err = 1 ↔ b.err = 1 ∨ err = true) ∧
     u.ea = b.ea ∧ u.eb = b.eb ∧
     (u.phase = b.phase → 2 ≤ b.pa ∨ n < b.pb → u.pb = b.pb - min n b.pb ∧ u.pa = b.pa - 1)) ∧
  (∀ (b : Bar) (err : Bool), b.pa = 0 → arrive b 0 err = { b with ovf := 1, err := if err then 1 else b.err })

/-- R321 to R323, R332 to R334: on a counter address that passes its checks, CNTADD adds in 63 bits up to the largest value or takes the maximum, ERR kept; its signal form raises the pending count of an unarmed counter, lowers an armed one, makes it fire at the last, and sets its overflow flag once it has fired; CNTWAIT returns when the count is reached, with ERR in p1; CNTARM arms a counter with the pending signals taken off. Every other byte of memory keeps its value. That CNTWAIT compares the gang's own version of the word is an inference (log entry 28). -/
def Obligations.Counters : Prop :=
  ∀ (s : State) (a b : KReg) (va pa n : Nat) (acc : Access),
    let t := (waveTranslate s va acc).2
    let w := s.wave
    let r := w.regs
    let k := w.ids.gang
    let add := r.k[b].toNat
    let x := memNat t pa 8
    let task := r.k[(a + 1 : Fin 32)]
    let others := fun (u : State) (len : Nat) => ∀ z, z < pa ∨ pa + len ≤ z → memByte u z = memByte t z
    let stored := fun (u : State) => u.wave.regs = nextWord r ∧ u.wave.flights = w.flights ++ [⟨.store, false⟩]
    let passes := rangeWindow s r.k[a].toNat n = .ok (.global va) ∧ r.k[a].toNat % n = 0 ∧ (waveTranslate s va acc).1 = .ok pa ∧
      lostRead t w.ids.part (some k) (bytesFrom pa n) = false ∧ (∃ t2, observe t [pa / 128] = .ok t2) ∧ Memory.wf t.hbm = true
    let mayWrite := acc = .write ∧ overlapsOwned t pa n = false ∧ storesAcked t 4 = true ∧ flightCount w .store < 63
    let signals := n = 16 ∧ passes ∧ mayWrite ∧ lostRead t w.ids.part none (bytesFrom pa 16) = false
    (n = 8 → passes → mayWrite → add < 2 ^ 63 →
      ∃ u, exec (.cntadd a b) s = .next u ∧ stored u ∧ others u 8 ∧
        memNat u pa 8 = x / 2 ^ 63 * 2 ^ 63 + min (x % 2 ^ 63 + add) (2 ^ 63 - 1)) ∧
    (n = 8 → passes → mayWrite → add < 2 ^ 63 →
      ∃ u, exec (.cntaddMax a b) s = .next u ∧ stored u ∧ others u 8 ∧
        memNat u pa 8 = x / 2 ^ 63 * 2 ^ 63 + max (x % 2 ^ 63) add) ∧
    (signals → x / 2 ^ 32 % 2 = 0 →
      ((t.dies[homeOf pa].pending.any fun e => e.1 == pa) = true ∨ t.dies[homeOf pa].pending.length < 1024) →
      ∃ u, exec (.cntaddSignal a) s = .next u ∧ stored u ∧ others u 0 ∧ pendCount u pa % 2 ^ 32 = (pendCount t pa + 1) % 2 ^ 32) ∧
    (signals → x / 2 ^ 32 % 4 = 1 → 2 ≤ x % 2 ^ 32 →
      ∃ u, exec (.cntaddSignal a) s = .next u ∧ stored u ∧ others u 8 ∧ memNat u pa 8 = x - 1) ∧
    (signals → x / 2 ^ 32 % 4 = 1 → x % 2 ^ 32 = 1 → memNat t (pa + 8) 8 = 0 →
      ∃ u, exec (.cntaddSignal a) s = .next u ∧ stored u ∧ others u 8 ∧ memNat u pa 8 = x - 1 + 2 ^ 33) ∧
    (signals → x / 2 ^ 32 % 4 = 3 →
      ∃ u, exec (.cntaddSignal a) s = .next u ∧ stored u ∧ others u 8 ∧ memNat u pa 8 = if x / 2 ^ 34 % 2 = 1 then x else x + 2 ^ 34) ∧
    (n = 8 → passes → acc = .read → add % 2 ^ 63 ≤ gangWord t k pa % 2 ^ 63 →
      ∃ u, exec (.cntwait a b) s = .next u ∧ SameMemory t u ∧
        u.wave.regs = { nextWord r with preds := r.preds.set 1 (if 2 ^ 63 ≤ gangWord t k pa then 0xFFFFFFFF else 0) }) ∧
    (n = 16 → passes → mayWrite → armBad t r.k[b] task pa = false →
      (pendCount t pa < (lo32 r.k[b]).toNat →
        ∃ u, exec (.cntarm a b) s = .next u ∧ u.wave.regs = nextWord r ∧ others u 16 ∧ pendCount u pa = 0 ∧
          memNat u pa 8 = 2 ^ 32 + ((lo32 r.k[b]).toNat - pendCount t pa) ∧ memNat u (pa + 8) 8 = task.toNat) ∧
      ((lo32 r.k[b]).toNat ≤ pendCount t pa → task = 0 →
        ∃ u, exec (.cntarm a b) s = .next u ∧ u.wave.regs = nextWord r ∧ others u 16 ∧ pendCount u pa = 0 ∧
          memNat u pa 8 = 2 ^ 32 + 2 ^ 33 + if (lo32 r.k[b]).toNat < pendCount t pa then 2 ^ 34 else 0))

/-- R324, R335 to R337: in a gang that measures, PMSEL selects an event and clears the counter, PMRD reads halves of the counters; PMREPLAY in a versioned task reads its descriptor, selects the first pass's events on every core of the gang, and at a later issue in the same pass only completes. -/
def Obligations.PerformanceCounters : Prop :=
  ∀ (s : State) (c : Fin 4) (a : KReg) (x : Src) (d : Dst) (h : Hold) (g : Gang) (va pa : Nat) (task : Task),
    let t := (waveTranslate s va .read).2
    let w := s.wave
    let r := w.regs
    let v := r.k[a]
    let core := w.ids.core
    let sel := srcLanes r w.ids.wave.val x false
    let words : Lanes W64 := Lanes.of fun l =>
      let y := ((s.cores[core]).pm[(Fin.ofNat 4 sel[l].toNat : Fin 4)]).value
      (if sel[l].toNat / 4 % 2 = 1 then hi32 y else lo32 y).setWidth 64
    let desc := leNat ((List.range 64).map fun i => gangByte t (some w.ids.gang) (coreDie core) w.ids.token (pa + i))
    findGang s w.ids.gang = some g → g.meas = true →
    (v.toNat % 256 ≤ 17 → v.toNat < 2 ^ 9 →
      ∃ u, exec (.pmsel c a) s = .next u ∧ SameMemory s u ∧ u.wave = { w with regs := nextWord r } ∧
        u.cores[core] = { s.cores[core] with pm := (s.cores[core]).pm.set c.val ⟨v.setWidth 8, decide (256 ≤ v.toNat), 0⟩ } ∧
        u = { s with wave := u.wave, cores := u.cores } ∧ ∀ z : Fin 192, z ≠ core → u.cores[z] = s.cores[z]) ∧
    (operandFault r [.src x false, .dst d false] true = none →
      ∃ u, exec (.pmrd d x h) s = .next u ∧ OnlyRegs s u ∧
        LaneDone r u.wave.regs 4 d false words (heldBy h (sel, false) (words, false) (onActive r words, false))) ∧
    (findTask s w.ids.tid w.ids.part = some task → task.versioned = true →
      (∀ q, task.replay = some q → q.started = true → exec (.pmreplay a) s = .next { s with wave := { w with regs := nextWord r } }) ∧
      (task.replay = none → rangeWindow s v.toNat 64 = .ok (.global va) → v.toNat % 64 = 0 → (waveTranslate s va .read).1 = .ok pa →
        lostRead t w.ids.part (some w.ids.gang) (bytesFrom pa 64) = false → unitBlocked t (.mem pa 0) 64 = false → replayBad t desc = false →
        ∃ u, exec (.pmreplay a) s = .next u ∧ SameMemory t u ∧ u.wave = { w with regs := nextWord r, clk := u.wave.clk } ∧
          ((findTask u w.ids.tid w.ids.part).bind fun y => y.replay) = some { replayOf desc with started := true } ∧
          ∀ y ∈ s.groups, y.gang = w.ids.gang → ∀ i : Fin 4,
            (u.cores[y.core]).pm[i] = ⟨BitVec.ofNat 8 (desc / 2 ^ (64 + 8 * i.val) % 256), true, 0⟩))

/-! ### The wait-for table, locks and semaphores -/

/-- R402, R403: on an object address that passes its checks, WREG registers a wait or a hold, WDEREG ends them, WPRIO sets the ceiling; none of them changes a byte of memory, and the registers otherwise advance to the next word.

R404: WQUERY delivers in each lane the item that the second source names: 2 says whether and how the wave itself waits, 3 what is in use on the die, 0, 1, 4 and 5 tell of the object, and items of an absent object are 0. The KEY of an object that is no word is a free value (log entry 21: the model's choice). -/
def Obligations.WaitTable : Prop :=
  (∀ (s : State) (a b : KReg) (far : Bool),
     let w := s.wave
     let r := w.regs
     let key := keyAt s w.ids.part (some w.ids.gang) r.k[a].toNat
     let n := r.k[b].toNat % 16
     let mine := fun (x : HolderLink) => x.key = key ∧ x.lkind = 0 ∧ x.agent = w.ids.token
     let room := (s.objs.any fun o => o.key == key) = true ∨ objsUsed s (tableDie s) < 8192
     let does := fun (i : Instr) (P : State → Prop) =>
       ∃ u, exec i s = .next u ∧ SameMemory s u ∧ u.wave.regs = nextWord r ∧ P u
     (objectCheck s r.k[a] = .ok far → w.run ≠ .ended → (∃ t, registerWait s key 0 .explicit true far = .ok t) →
       does (.wregWait a) fun u => ∃ l, u.wave.wait = some l ∧ l.explicit = true ∧ l.key = key ∧ ∃ o ∈ u.objs, o.key = key) ∧
     (objectCheck s r.k[a] = .ok far → room → linksUsed s (tableDie s) < 16384 →
       does (.wregHold a) fun u => (∃ x ∈ u.links, mine x) ∧ (∀ x ∈ s.links, x ∈ u.links) ∧ ∀ x ∈ u.links, ¬mine x → x ∈ s.links) ∧
     (does .wderegWait fun u => u.wave.wait = match w.wait with
       | some l => if l.explicit then none else some l
       | none => none) ∧
     (objectCheck s r.k[a] = .ok far →
       does (.wderegHold a) fun u => ∀ x, x ∈ u.links ↔ x ∈ s.links ∧ ¬mine x) ∧
     (objectCheck s r.k[a] = .ok far → room →
       does (.wprio a b) fun u => (∀ o ∈ u.objs, o.key = key → o.ceil.val = n) ∧ (n ≠ 0 → ∃ o ∈ u.objs, o.key = key) ∧ u.links = s.links)) ∧
  (∀ (s : State) (d : Dst) (a : Src) (b : Src2) (h : Hold),
     let r := s.wave.regs
     let x := srcLanes r s.wave.ids.wave.val a true
     let y := src2Lanes r s.wave.ids.wave.val b false
     let uses := [OpUse.src a true] ++ useSrc2 b false ++ [.dst d false]
     let v : Lanes W64 := Lanes.of fun l => (queryItem (countBanks s uses) x[l] (y[l].toNat % 8) (freeLanes s)[l]).setWidth 64
     (operandFault r uses true = none →
       ∃ u, exec (.wquery d a b h) s = .next u ∧ OnlyRegs { s with free := u.free } u ∧
         LaneDone r u.wave.regs 4 d false v (heldBy h (x, true) (y, false) (onActive r v, false))) ∧
     (∀ z f, s.wave.wait = none → queryItem s z 2 f = 0) ∧
     (∀ z f (l : WaitLink), (∀ o ∈ s.objs, o.kind < 8) → s.wave.wait = some l → l.granted = false →
       (queryItem s z 2 f).getLsbD 31 = true ∧ (queryItem s z 2 f).getLsbD 30 = l.explicit) ∧
     (∀ z f, (queryItem s z 3 f).toNat = min (objsUsed s (tableDie s)) 8192 + 2 ^ 16 * min (linksUsed s (tableDie s)) 16384) ∧
     (∀ z f n, (n < 2 ∨ n = 4 ∨ n = 5) → ((queryKey s z).bind fun k => kindOf s k) = none → queryItem s z n f = 0))

/-- R405 to R407: on a word that passes its checks, LOCK takes a lock without owner, UNLOCK hands it to the waiter first in order or frees it, SEMTAKE takes units where enough are left and none waits, SEMGIVE gives them back up to the largest count; no other byte of global memory changes. That SEMTAKE and SEMGIVE keep bit 32 of the word is an inference (log entry 39). -/
def Obligations.LocksAndSemaphores : Prop :=
  ∀ (s : State) (a b : KReg) (p : Place),
    let r := s.wave.regs
    let t := (checkWord s r.k[a] 8 lockUse).2
    let me := s.wave.ids.token
    let l := locOf t p
    let key := keyAt t s.wave.ids.part (some s.wave.ids.gang) r.k[a].toNat
    let old := wordRead t l
    let n := (lo32 r.k[b]).toNat
    let others := fun (u : State) => match l with
      | .mem pa => ∀ z, z < pa ∨ pa + 8 ≤ z → memByte u z = memByte t z
      | .spad _ _ _ => ∀ z, memByte u z = memByte t z
    let does := fun (i : Instr) (x : Nat) (P : State → Prop) =>
      ∃ u, exec i s = .next u ∧ u.wave.regs = nextWord r ∧ wordRead u l = x ∧ others u ∧ P u
    (checkWord s r.k[a] 8 lockUse).1 = .ok p → Memory.wf t.hbm = true → (∀ g ∈ t.groups, cellsWf (0 : W8) g.spad = true) →
    (match l with | .mem _ => True | .spad k i _ => (findGroup t k i.val).isSome = true) →
    (∃ t2, observe t (locLines l) = .ok t2) →
    (isGranted t key = false → waitsOn t key = false → old % 2 ^ 32 = 0 →
      does (.lock a) (old + me.toNat) fun u => (me, key) ∈ u.locks) ∧
    (isGranted t key = true → does (.lock a) old fun u => u.wave.wait = none ∨ ∃ z, u.wave.wait = some z ∧ z.explicit = true) ∧
    (old % 2 ^ 32 = me.toNat → storesAcked t (locScope l) = true → handWaiters t key isLockWait = [] →
      does (.unlock a) (old / 2 ^ 33 * 2 ^ 33) fun u => (me, key) ∉ u.locks) ∧
    (∀ w rest, old % 2 ^ 32 = me.toNat → storesAcked t (locScope l) = true → handWaiters t key isLockWait = w :: rest →
      does (.unlock a) (old / 2 ^ 33 * 2 ^ 33 + (if rest = [] then 0 else 2 ^ 32) + w.ids.token.toNat) fun u =>
        (w.ids.token, key) ∈ u.locks ∧ ∀ v, findWave u w.ids.token = some v → ∀ z, v.wait = some z → z.granted = true) ∧
    (n = 0 → does (.semtake a b) old fun _ => True) ∧
    (n ≠ 0 → isVersioned t = false → isGranted t key = false → waitsOn t key = false → n ≤ old % 2 ^ 32 → handWaiters t key isUnitsWait = [] →
      ((t.objs.any fun o => o.key == key) = true ∨ objsUsed t (tableDie t) < 8192) → linksUsed t (tableDie t) < 16384 →
      does (.semtake a b) (old - n) fun _ => True) ∧
    (storesAcked t (locScope l) = true → handWaiters t key isUnitsWait = [] →
      does (.semgive a b) (old / 2 ^ 32 * 2 ^ 32 + min (old % 2 ^ 32 + n) (2 ^ 32 - 1)) fun _ => True)

/-! ### Copies -/

/-- R343 to R345, R347 to R349, R451: SHAPE makes the record of fields that fit and raises SHAPE_FIELD otherwise; a copy, PUTS, GET or RADD that passes its checks with room in the engine's counter is issued with the block of registers from kA; one that does not traps with the check's cause and address. -/
def Obligations.CopyIssue : Prop :=
  ∀ (s : State) (d a b : KReg) (e : ElemSize) (c : Src) (m : W8) (sig : Bool),
    let r := s.wave.regs
    let code := match e with | .b1 => 0 | .b2 => 1 | .b4 => 2 | .b8 => 3 | .b16 => 4
    let n := 2 ^ code
    let row := r.k[a].toNat % 2 ^ 32
    let rows := r.k[a].toNat / 2 ^ 32
    let from1 := r.k[b].toNat % 2 ^ 32
    let into := r.k[b].toNat / 2 ^ 32
    let fits := row % n = 0 ∧ from1 % n = 0 ∧ into % n = 0 ∧ 0 < row ∧ row / n < 2 ^ 15 ∧ 0 < rows ∧ rows < 2 ^ 16 ∧
      from1 / n < 2 ^ 15 ∧ into / n < 2 ^ 15 ∧ (rows = 1 ∨ row ≤ into)
    let x : W64 := BitVec.ofNat 64 (code + row / n * 2 ^ 3 + rows * 2 ^ 18 + from1 / n * 2 ^ 34 + into / n * 2 ^ 49)
    let issues := fun (t : State) (i : Instr) (kind : CopyKind) => flightCount s.wave .engine < 63 →
      copyCheck t (copyBlock t kind a) = none → ∃ u, exec i s = .next u ∧ CopyIssued t u kind a
    let src := [OpUse.src c true]
    (fits → ∃ u, exec (.shape d a b e) s = .next u ∧ SameMemory s u ∧
      u = { s with wave := { s.wave with regs := { nextWord r with k := r.k.set d.val x } } }) ∧
    (¬ fits → exec (.shape d a b e) s = .next (trapEntry s 0x39 r.pc [⟨0, 0, 0x39, 0⟩])) ∧
    issues s (.cpy a none) .plain ∧ issues s (.cpym a m) (.multi m) ∧ issues s (.cpydq a) .dequant ∧
    issues s (.puts a sig) (.puts sig) ∧ issues s (.get a) .get ∧
    (tyIn r raddTy = true → issues s (.radd a sig) (.radd (modeType r.mode) (modeSat r.mode) sig)) ∧
    (operandFault r src true = none → issues (countBanks s src) (.cpy a (some c))
      (.gather (srcLanes r s.wave.ids.wave.val c true) (activeMask r))) ∧
    (∀ f, copyCheck s (copyBlock s .plain a) = some f →
      exec (.cpy a none) s = .next (trapEntry s f.cause r.pc [⟨0, f.addr, f.cause, BitVec.ofNat 8 f.sub⟩]))

/-- R268, R340, R346, R351, R352: the first waiting copy of a cluster is accepted while the direct queue, its destinations and the table have room, and its wave's operation is over; an accepted copy of one row between scratchpads moves its bytes; a copy whose moves are done, and whose engine records are there where rows failed, ends, with an arrival of its bytes on a barrier where it names one.

R346: a copy of any number of rows moves them in order, each read and written through the window of its address: bytes of a scratchpad, or of global memory as the issuer's engine reads them, go to a scratchpad or to global memory, and no other byte changes. That all moves of an operation are one step is the model's choice (log entry 5). -/
def Obligations.CopyEngine : Prop :=
  ∀ (s : State) (cl : Fin 24) (i : Nat) (o : CopyOp) (k : GangKey) (before after : List CopyOp),
    let d : Fin 2 := if cl.val < 12 then 0 else 1
    let x := shapeOf o.shape
    let n := x.esz * x.rowe
    (s.dies[d].copyWait = before ++ o :: after → onCluster cl o = true → (∀ y ∈ before, onCluster cl y = false) →
      ((s.dies[d].copyRun.filter (onCluster cl)).filter fun y => !inProgress s cl y).length < 32 → issuerAway s o.who = false →
      copyFits s o = true → (o.compl = 0 ∨ hasRoom (engineRoom s o.who d (completionKeys s o.who (copyMask o.kind) o.compl)) = true) →
      engineStopped s o.who.part (queueAgent cl) = false →
      ∃ u, exec (.copyAccept cl) s = .next u ∧ SameMemory s u ∧
        u = { s with wave := u.wave, waves := u.waves, dies := u.dies, objs := u.objs, nextKey := s.nextKey + 1 } ∧
        u.dies[d] = { s.dies[d] with
          copyWait := before ++ after, copyRun := s.dies[d].copyRun ++ [{ o with seq := s.nextKey + 1 }] } ∧
        (∀ w, findWave s o.who.token = some w →
          findWave u o.who.token = some { w with flights := dropFlight .engine w.flights })) ∧
    (∀ sa a sb b ga gb, copyAt s cl i = some o → o.kind = .plain → o.sent = false → o.moved = none → o.who.gang = some k → x.rows = 1 →
      ((s.parts[o.who.part]).parked.any fun y => some y.tid == o.who.tid) = false → copyReady s o = true → anyLost s = false →
      windowOf s o.src.toNat = .aperture sa a → apertureAt s k sa a n = some ga →
      windowOf s o.dst.toNat = .aperture sb b → apertureAt s k sb b n = some gb → overlapsBar gb b n = false →
      cellsWf (0 : W8) gb.spad = true →
      ∃ u v h, exec (.copyComplete cl i) s = .next u ∧ SameMemory s u ∧ u = { s with dies := u.dies, groups := u.groups } ∧
        { o with moved := some ⟨[], v, false⟩ } ∈ u.dies[d].copyRun ∧
        findGroup u k sb = some h ∧ h = { gb with spad := h.spad, spadClk := h.spadClk, spadJoin := h.spadJoin } ∧
        ∀ y, cellGet 0 h.spad y = written (keyed b (spadBytes ga a n)) y (cellGet 0 gb.spad y)) ∧
    (let m := (List.range x.rows).foldl (moveRow o x) ⟨s, [], o.who.clk, [], [], [], false⟩
     copyAt s cl i = some o → o.kind = .plain → o.sent = false → o.moved = none →
      ((s.parts[o.who.part]).parked.any fun y => some y.tid == o.who.tid) = false → copyReady s o = true → anyLost s = false →
      isRemote s o.src = false → isRemote s o.dst = false → m.full = false → m.recs = [] →
      ∃ u, exec (.copyComplete cl i) s = .next u ∧ u = { m.s with dies := u.dies } ∧ SameMemory m.s u ∧
        { o with moved := some ⟨m.writes, coverWrites m.clk m.writes, false⟩ } ∈ u.dies[d].copyRun) ∧
    (∀ (who : Issuer) (a : W64) (c : Nat) (v : Clk), 0 < c → who.gang = some k →
      (∀ slot off g, rangeWindow s a.toNat c = .ok (.aperture slot off) → apertureAt s k slot off c = some g →
        ∃ z, localRead s who a c v = (.ok (spadBytes g off c) z, s)) ∧
      (∀ va l t, rangeWindow s a.toNat c = .ok (.global va) → transPages who.core who.gang who.part va .read (pagesOf va c) s = (.ok l, t) →
        lostRead t who.part who.gang ((List.range c).map fun j => paThrough l (va + j)) = false →
        ∃ z u, localRead s who a c v = (.ok ((List.range c).map fun j => opByte t who (paThrough l (va + j))) z, u) ∧ SameMemory t u ∧
          u.groups = t.groups)) ∧
    (∀ (m : Moving) (r : Nat) (bytes : List W8) (v : Clk) (t : State),
      let a := o.src + BitVec.ofNat 64 (r * x.sstr * x.esz)
      let z := o.dst + BitVec.ofNat 64 (r * x.dstr * x.esz)
      let u := moveRow o x m r
      o.kind = .plain → o.who.gang = some k → m.full = false → isRemote m.s a = false →
      localRead m.s o.who a n m.clk = (.ok bytes v, t) →
      (∀ slot off g, windowOf t z.toNat = .aperture slot off → apertureAt t k slot off bytes.length = some g →
        overlapsBar g off bytes.length = false → cellsWf (0 : W8) g.spad = true →
        ∃ h, u.recs = m.recs ∧ u.full = false ∧ u.writes = m.writes ∧ u.s = { t with groups := u.s.groups } ∧ SameMemory t u.s ∧
          findGroup u.s k slot = some h ∧ h = { g with spad := h.spad, spadClk := h.spadClk, spadJoin := h.spadJoin } ∧
          ∀ y, cellGet 0 h.spad y = written (keyed off bytes) y (cellGet 0 g.spad y)) ∧
      (∀ va l t2, windowOf t z.toNat = .global va →
        transPages o.who.core o.who.gang o.who.part va .write (pagesOf va bytes.length) t = (.ok l, t2) →
        (∀ q ∈ unitsOfRow x.esz bytes, overlapsOwned t2 (paThrough l (va + q.1)) q.2.length = false) → Memory.wf t2.hbm = true →
        let cells := (unitsOfRow x.esz bytes).flatMap fun q => keyed (paThrough l (va + q.1)) q.2
        u.recs = m.recs ∧ u.s.groups = t2.groups ∧
        (issuerVersioned t2 o.who = false → u.full = false ∧ ∀ y, memByte u.s y = written cells y (memByte t2 y)) ∧
        (issuerVersioned t2 o.who = true → u.full = false → (∀ y, memByte u.s y = memByte t2 y) ∧
          ∀ y, gangVersion u.s k y = ((cells.reverse.find? fun e => e.1 == y).map fun e => e.2).or (gangVersion t2 k y)))) ∧
    (∀ m, copyAt s cl i = some o → o.kind = .plain → o.sent = false → o.moved = some m →
      (m.err = true → recordsDone s o.who (coreDie o.who.core) = true) →
      (o.compl = 0 → appliedOn s (coreDie o.who.core) m.writes = true →
        ∃ u, exec (.copyComplete cl i) s = .next u ∧ SameMemory s u ∧
          u = { s with dies := s.dies.set d.val { s.dies[d] with copyRun := s.dies[d].copyRun.erase o }, objs := u.objs }) ∧
      (∀ slot off g, o.compl ≠ 0 → windowOf s o.compl.toNat = .aperture slot off → o.who.gang = some k → findGroup s k slot = some g →
        cellsWf (0 : W8) g.spad = true → appliedOn s (coreDie o.who.core) m.writes = true →
        ∃ u, exec (.copyComplete cl i) s = .next u ∧ SameMemory s u ∧ u = { s with dies := u.dies, groups := u.groups, objs := u.objs } ∧
          u.dies[d].copyRun = s.dies[d].copyRun.erase o ∧
          barAt u k g.index off = arrive (barAt s k g.index off) (n * x.rows) m.err))

/-! ### Chains of records -/

/-- R353, R355, R357, R449: a kick of a chain counts as stale while a record is in service, starts 16 re-reads anew while the chain polls, and otherwise makes the engine look at the record at the head that the kick names. CHKICK waits for the wave's stores; in a versioned task it is deferred. A record for whose objects and links the table has no room waits, or is told to the host (R399). That a kick with a head that finds the chain polling sets LAST to the head too is the model's choice (log entry 30). -/
def Obligations.Kicks : Prop :=
  ∀ (s : State) (c : Fin 8) (a : KReg) (d : Fin 2) (ch : Fin 96) (p : Fin 24) (head : W64) (pa : Nat),
    let w := s.wave
    let mine : ChainRef := .chan (coreDie w.ids.core) (Fin.ofNat 96 (8 * (w.ids.core.val % 96 / 8) + c.val))
    let kicked := fun (u : State) (x : ChainRef) (p : Fin 24) (head : W64) (who : Issuer) =>
      let old := chainAt s x
      let own : Chan := { old with
        kicker := some who
        linked := if head = 0 then old.linked else []
        cur := if head = 0 then old.cur else head
        last := if head = 0 then old.last else head }
      (old.state = 1 → OnlyChains s u ∧ SameMemory s u ∧ chainAt u x = staleUp old) ∧
      (old.state = 2 → OnlyChains s u ∧ SameMemory s u ∧ chainAt u x = { own with
        polls := 16, since := s.dies[chainDie s x].clock, inService := none }) ∧
      (old.state = 0 ∨ old.state = 3 → own.cur = 0 →
        OnlyChains s u ∧ SameMemory s u ∧ chainAt u x = { staleUp old with kicker := some who }) ∧
      (old.state = 0 ∨ old.state = 3 → own.cur ≠ 0 → recordAddrOk own.cur = true → RecordAt s (chainCore s x) p own.cur.toNat pa →
        Memory.wf s.hbm = true →
        (memNat s pa 1 % 4 ≠ 1 ∨ roomAt s x own pa ≠ .host → OnlyChains s u ∧ Examined s u x own pa) ∧
        (memNat s pa 1 % 4 = 1 → roomAt s x own pa = .host → SameMemory s u ∧ engineStopped u (recordIssuer (onChain s x fun _ => own) x own.cur).part (chainAgent x) = true ∧
          chainAt u x = { own with state := 1, inService := none }))
    let ok := fun (h : W64) => h = 0 ∨ recordAddrOk h = true
    (chainPart s mine = some w.ids.part → ok w.regs.k[a] → storesAcked s 4 = true → isVersioned s = false →
      ∃ u who, exec (.chkick c a) s = .next u ∧ IssuedBy s who ∧ u.wave = { w with regs := nextWord w.regs } ∧
        kicked u mine w.ids.part w.regs.k[a] who) ∧
    (∀ t, chainPart s mine = some w.ids.part → ok w.regs.k[a] → storesAcked s 4 = true →
      findTask s w.ids.tid w.ids.part = some t → t.versioned = true →
      ∃ u who, exec (.chkick c a) s = .next u ∧ IssuedBy s who ∧ SameMemory s u ∧
        u = { s with wave := { w with regs := nextWord w.regs }, tasks := u.tasks } ∧
        findTask u w.ids.tid w.ids.part = some { t with deferred := t.deferred ++ [(who, .chkick c w.regs.k[a])] }) ∧
    (chainPart s mine ≠ some w.ids.part → exec (.chkick c a) s = .next (trapEntry s 0x3F w.regs.pc [⟨0, 0, 0x3F, 0⟩])) ∧
    (s.pkg.ready = true → ok head → chainPart s (.chan d ch) = some p →
      ∃ u who, exec (.hostChannelKick d ch head) s = .next u ∧ who.gang = none ∧ kicked u (.chan d ch) p head who) ∧
    (s.pkg.ready = true → ok head → ∃ u who, exec (.cmdkick p head) s = .next u ∧ who.gang = none ∧ kicked u (.cmd p) p head who)

/-- R353, R355, R358: CHTAIL links its record behind LAST of a chain at work, and gives one at rest the record to look at; a re-read that is due looks at the record at CUR, the last of 16 ending in sleep; a read of a register by the host gives its fields and clears STALE and DROPW. -/
def Obligations.Chains : Prop :=
  ∀ (s : State) (c : Fin 8) (a : KReg) (p : Fin 24) (x : ChainRef) (pa pb : Nat),
    let w := s.wave
    let mine : ChainRef := .chan (coreDie w.ids.core) (Fin.ofNat 96 (8 * (w.ids.core.val % 96 / 8) + c.val))
    let link := w.regs.k[a]
    let here := chainAt s mine
    let old := chainAt s x
    let poll : Instr := match x with | .chan d ch => .channelPoll d ch | .cmd p => .commandPoll p
    let sel : ChanSel := match x with | .chan d ch => .chan d ch | .cmd p => .cmdstat p
    let part := match x with | .chan _ _ => old.part.toNat | .cmd p => p.val
    Memory.wf s.hbm = true →
    (chainPart s mine = some w.ids.part → recordAddrOk link = true → storesAcked s 4 = true → isVersioned s = false →
      PageAt s w.ids.core w.ids.part link.toNat pa → lostRead s w.ids.part (some w.ids.gang) (bytesFrom (pa + 48) 8) = false →
      nextField s pa = 0 →
      (here.state = 1 ∨ here.state = 2 → PageAt s (chainCore s mine) w.ids.part here.last.toNat pb →
        ∃ u who, exec (.chtail c a) s = .next u ∧ IssuedBy s who ∧ OnlyChains s u ∧ u.wave = { w with regs := nextWord w.regs } ∧
          chainAt u mine = { here with last := link, linked := here.linked ++ [(link, who)] } ∧
          memNat u (pb + 48) 8 = link.toNat ∧ ∀ y, y < pb + 48 ∨ pb + 56 ≤ y → memByte u y = memByte s y) ∧
      (here.state = 0 ∨ here.state = 3 → RecordAt s (chainCore s mine) w.ids.part link.toNat pb →
        let own := fun (who : Issuer) => { here with kicker := some who, linked := [], cur := link, last := link }
        (∀ who, IssuedBy s who → memNat s pb 1 % 4 ≠ 1 ∨ roomAt s mine (own who) pb ≠ .host) →
        ∃ u who, exec (.chtail c a) s = .next u ∧ IssuedBy s who ∧ OnlyChains s u ∧ u.wave = { w with regs := nextWord w.regs } ∧
          Examined s u mine (own who) pb)) ∧
    (old.state = 2 → 256 ≤ (s.dies[chainDie s x].clock - old.since).toNat → chainPart s x = some p → recordAddrOk old.cur = true →
      RecordAt s (chainCore s x) p old.cur.toNat pa →
      (memNat s pa 1 % 4 = 0 → ∃ u, exec poll s = .next u ∧ OnlyChains s u ∧ SameMemory s u ∧
        chainAt u x = (if old.polls ≤ 1 then { staleUp old with state := 3, inService := none }
          else { old with polls := old.polls - 1, since := s.dies[chainDie s x].clock })) ∧
      (memNat s pa 1 % 4 = 1 → roomAt s x old pa ≠ .host → ∃ u, exec poll s = .next u ∧ OnlyChains s u ∧ Examined s u x old pa)) ∧
    (s.pkg.ready = true → ∃ u v, exec (.channelRegisterRead sel) s = .next u ∧ u.hostLog = s.hostLog ++ [.value v] ∧
      u = { s with dies := u.dies, parts := u.parts, hostLog := u.hostLog } ∧ SameMemory s u ∧
      chainAt u x = { old with stale := 0, dropw := 0 } ∧ v % 2 ^ 2 = old.state.val ∧ v / 2 ^ 8 % 2 ^ 8 = part ∧
      v / 2 ^ 16 % 2 ^ 16 = old.stale.toNat ∧ v / 2 ^ 32 % 2 ^ 16 = old.dropw.toNat ∧
      v / 2 ^ 64 % 2 ^ 64 = old.cur.toNat ∧ v / 2 ^ 128 = old.last.toNat)

/-- R356, R359: a transfer record that has ended is returned with STATUS and OWN, arrives on the barrier that it names, and the chain goes idle behind its last record; a stream tile that has moved arrives on its ring's barrier and the next tile follows. -/
def Obligations.ChannelRecords : Prop :=
  ∀ (s : State) (d : Fin 2) (ch : Fin 96) (r : RecRun) (o : CopyOp),
    let old := s.dies[d].chans[ch]
    let compl := snapField r.snap 319 256
    old.inService = some r → r.op = some o →
    (recordStage s d ch r = .finish → Memory.wf s.hbm = true → engineWaits s (engToken d 0 ch.val) = false → memNat s (r.pa + 48) 8 = 0 →
      (compl = 0 ∨ ∃ slot off, windowOf s compl.toNat = .aperture slot off) →
      ∃ u, exec (.recordReturn d ch) s = .next u ∧ Returned s u r.pa r.status ∧ u.owned = s.owned.erase (r.pa / 128) ∧
        u.wave = s.wave ∧ u.waves = s.waves ∧
        u.dies[d].chans[ch] = { old with state := 0, cur := 0, last := r.addr, inService := none } ∧
        (compl = 0 → u.groups = s.groups) ∧
        (∀ k slot off g, o.kind = .plain → isStream r.snap = false → o.who.gang = some k → windowOf s compl.toNat = .aperture slot off →
          apertureAt s k slot off 16 = some g → compl.toNat % 16 = 0 → cellsWf (0 : W8) g.spad = true →
          barAt u k g.index off = arrive (barAt s k g.index off) (copyBytes o)
            (r.status != 0 || r.err || (o.moved.any fun m => m.err)))) ∧
    (∀ m g off, r.finished = false → isStream r.snap = true → o.sent = false → o.kind = .plain → o.compl = 0 → o.moved = some m →
      engineStopped s o.who.part (engToken d 0 ch.val) = false → inProgress s (chanCluster d ch) o = true →
      appliedOn s (coreDie o.who.core) m.writes = true → (m.err = true → recordsDone s o.who (coreDie o.who.core) = true) →
      ringBar s o.who r.snap (tileBars r.snap r.tile).2 = some (g, off) →
      cellsWf (0 : W8) g.spad = true →
      ∃ u, exec (.streamTile d ch) s = .next u ∧ SameMemory s u ∧ u = { s with dies := u.dies, groups := u.groups } ∧
        barAt u g.gang g.index off = arrive (barAt s g.gang g.index off)
          (if (streamOf r.snap).drain then 0 else copyBytes o) m.err ∧
        u.dies[d].chans[ch] = { old with inService := some (
          if (streamOf r.snap).tiles ≤ r.tile + 1 then { r with err := r.err || m.err, finished := true }
          else { r with err := r.err || m.err, tile := r.tile + 1, op := some (tileOp r.snap o.who (r.tile + 1)) }) })

/-! ### Posts, tasks, gangs -/

/-- R4, R363, R367, R370, R448: TKPOST, LAUNCH and the commands that submit take a submitted record: OWN and GEN, the number of acceptance, an entry at the end of its queue; in a versioned task a post is deferred, and an address that is not aligned in local global memory traps. -/
def Obligations.Posts : Prop :=
  ∀ (s : State) (a : KReg) (q : Fin 8) (p : Fin 24) (c : RecRun) (addr : W64) (va pa : Nat),
    let w := s.wave
    let r := w.regs
    let task := memNat s pa 64
    let launch := memNat s pa 128
    let part := s.parts[p]
    let f := fun (hi lo : Nat) => (BitVec.ofNat 64 (bitsOf task hi lo) : W64)
    let tq : Fin 16 := Fin.ofNat 16 (bitsOf task 11 8)
    let gen : W32 := BitVec.ofNat 32 (memNat s (pa + 4) 4 + 1)
    let e : TaskEnt := ⟨taskId true part.accepted part.accepted, addr, gen, f 127 64, f 191 128, f 255 192, f 319 256,
      bitsOf task 2 2 == 1, bitsOf task 3 3 == 1, 0, 0, 0, none, [], false, false, latestClk s pa 8 {}⟩
    let serves := partServes s p = true ∧ partAlive s p = true ∧ Memory.wf s.hbm = true
    let whole := fun (n : Nat) => lostRead s p none (bytesFrom pa n) = false
    let taskOk := serves ∧ whole 64 ∧ task % 4 = 1 ∧ taskMalformed task = false ∧ (part.taskQ[tq]).length < 4096
    let launchOk := serves ∧ whole 128 ∧ launch % 4 = 1 ∧ (part.launchQ[q]).length < 256
    let rest := fun (t : State) => Taken s t pa ∧ (∀ x : Fin 24, x ≠ p → t.parts[x] = s.parts[x]) ∧
      t = { s with
        wave := t.wave, launches := t.launches, parts := t.parts, dies := t.dies, hbm := t.hbm, clks := t.clks, joins := t.joins
        lag := t.lag, lost := t.lost, nextKey := t.nextKey } ∧ DiesWrite s t
    let posted := fun (t : State) => rest t ∧ t.launches = s.launches ∧
      t.parts[p] = { part with accepted := part.accepted + 1, taskQ := part.taskQ.set tq.val ((part.taskQ[tq]) ++ [e]) }
    let launched := fun (t : State) => rest t ∧ t.nextKey = s.nextKey + 1 ∧
      t.parts[p] = { part with accepted := part.accepted + 1, launchQ := part.launchQ.set q.val ((part.launchQ[q]) ++ [s.nextKey]) } ∧
      ∃ l, t.launches = s.launches ++ [l] ∧ l.key = s.nextKey ∧ l.part = p ∧ l.queue = q ∧ l.addr = addr ∧ l.gen = gen ∧ l.acc = part.accepted ∧
        l.snap = launchOf launch ∧ l.nextGang = 0 ∧ l.variants = [] ∧ l.returned = [] ∧ l.pipe = none ∧ l.seen = latestClk s pa 8 {}
    let instr := w.ids.part = p ∧ r.k[a] = addr ∧ addr.toNat < 2 ^ 54 ∧ storesAcked s 4 = true
    let deferred := fun (i : Instr) (x : Deferred) => ∀ t, findTask s w.ids.tid w.ids.part = some t → t.versioned = true →
      ∃ u who, exec i s = .next u ∧ IssuedBy s who ∧ SameMemory s u ∧
        u = { s with wave := { w with regs := nextWord r }, tasks := u.tasks } ∧
        findTask u w.ids.tid w.ids.part = some { t with deferred := t.deferred ++ [(who, x)] }
    (instr → addr.toNat % 64 = 0 → isVersioned s = false → w.wait = none → PageAt s w.ids.core p addr.toNat pa → taskOk →
      ∃ u, exec (.tkpost a) s = .next u ∧ u.wave = { w with regs := nextWord r } ∧ posted u) ∧
    (instr → addr.toNat % 128 = 0 → isVersioned s = false → w.wait = none → PageAt s w.ids.core p addr.toNat pa → launchOk →
      ∃ u, exec (.launch q a) s = .next u ∧ u.wave = { w with regs := nextWord r } ∧ launched u) ∧
    (instr → addr.toNat % 64 = 0 → deferred (.tkpost a) (.tkpost addr)) ∧
    (instr → addr.toNat % 128 = 0 → deferred (.launch q a) (.launch q addr)) ∧
    (r.k[a] = addr → addr.toNat % 64 ≠ 0 ∨ 2 ^ 54 ≤ addr.toNat →
      exec (.tkpost a) s = .next (trapEntry s 0x2E r.pc [⟨0, 0, 0x2E, 0⟩])) ∧
    (r.k[a] = addr → addr.toNat % 128 ≠ 0 ∨ 2 ^ 54 ≤ addr.toNat →
      exec (.launch q a) s = .next (trapEntry s 0x2E r.pc [⟨0, 0, 0x2E, 0⟩])) ∧
    (CommandAt s p c 1 → cmdArg c 0 = addr → (cmdArg c 1).toNat = q.val → windowOf s addr.toNat = .global va → addr.toNat % 128 = 0 →
      PageAt s (partCore s p) p va pa → launchOk →
      CommandRuns (.submitLaunch p) s p c 0 fun t => launched t ∧ t.wave = w) ∧
    (CommandAt s p c 2 → cmdArg c 0 = addr → windowOf s addr.toNat = .global va → addr.toNat % 64 = 0 →
      PageAt s (partCore s p) p va pa → taskOk →
      CommandRuns (.submitTaskRecord p) s p c 0 fun t => posted t ∧ t.wave = w)

/-- R24, R208, R288, R365, R366, R368, R428: a gang for which a block has been found starts its groups and waves there; the group that has been idle longest takes the head record of its queue and its waves start on it, in free slots of its core; a gang task that has ended with nothing left to do first releases its cores and then commits: its versions become memory, and its launch counts it. That the gang leaves its cores in a turn of its own before the commit, in a queue without order too, is the model's choice (log entry 32). -/
def Obligations.GangsAndTasks : Prop :=
  ∀ (s : State) (p : Fin 24) (q : Fin 16) (l : Launch) (v : VariantEnt) (places : List (Fin 192 × Fin 4 × List (Fin 48)))
    (g : Group) (idle : List Group) (e : TaskEnt) (slots : List (Fin 48)) (t : Task) (others : List Task),
    let idx := nextGangOf l
    let k : GangKey := ⟨l.key, idx⟩
    let started := fun (u : State) (k : GangKey) (i : Fin 8) (core : Fin 192) (j : Nat) (slot : Fin 48) (entry k0 k1 k2 : W64) (tid : W64) =>
      ∃ w ∈ u.waves, w.ids.gang = k ∧ w.ids.group = i ∧ w.ids.core = core ∧ w.ids.wave = Fin.ofNat 16 j ∧ w.ids.slot = slot ∧
        w.ids.tid = tid ∧ w.regs.pc = entry ∧ w.regs.exec = 0xFFFFFFFF ∧ w.regs.mode = 0 ∧ w.regs.qvalid = 0 ∧ w.handler = false ∧
        w.regs.k[l.sizek] = l.snap.size ∧ (l.sizek ≠ 0 → w.regs.k[0] = k0) ∧ (l.sizek ≠ 1 → w.regs.k[1] = k1) ∧
        (l.sizek ≠ 2 → w.regs.k[2] = k2)
    (admitStage s p = .place l v places → ∃ u, exec (.admitGang p) s = .next u ∧ SameMemory s u ∧
      (∃ x ∈ u.gangs, x.key = k ∧ x.part = l.part ∧ x.groups = places.length ∧ x.waves = v.waves) ∧
      (∃ x, findTask u (taskId false idx.toNat l.acc) l.part = some x ∧ x.ended = false) ∧
      ∀ i y, places[i]? = some y →
        (∃ x ∈ u.groups, x.gang = k ∧ x.index = Fin.ofNat 8 i ∧ x.core = y.1 ∧ x.base = y.2.1 ∧ x.slots = y.2.2 ∧ x.spadSize = v.spad ∧
          x.spad = [] ∧ x.bars = [] ∧ (x.idleSince.isSome = l.snap.tserv)) ∧
        (l.snap.tserv = false → ∀ j slot, y.2.2[j]? = some slot →
          started u k (Fin.ofNat 8 i) y.1 j slot v.entry l.snap.arg 0 l.addr (taskId false idx.toNat l.acc))) ∧
    (idleGroups s p q = g :: idle → nextEntry s p q = some e → findLaunch s g.gang.launch = some l → e.entry ≠ 0 → e.after = [] →
      (∀ x ∈ s.tasks, x.tid ≠ e.tid) → variantAt l.variants l.chosen = some v →
      takeSlots g.base.val 0 v.waves (usedSlots s g.core) = some slots →
      mayStart s p e.tid (entVersioned l e) (decide (1 ≤ e.vfull)) false = true → clkLe e.seen s.dies[opDie s p (coreDie g.core)].applied = true →
      ∃ u, exec (.taskTake p q) s = .next u ∧ SameMemory s u ∧
        (∃ x, findTask u e.tid p = some x ∧ x.gang = g.gang ∧ x.group = some g.index ∧ x.versioned = entVersioned l e ∧ x.home = e.addr ∧
          x.succ = e.succ ∧ x.committed = false ∧ x.ended = false) ∧
        (∃ x ∈ u.groups, x.gang = g.gang ∧ x.index = g.index ∧ x.task = some e.tid ∧ x.slots = slots ∧ x.idleSince = none) ∧
        (∀ x ∈ (u.parts[p]).taskQ[q], x.tid = e.tid → x.taken = true) ∧
        ∀ j slot, slots[j]? = some slot → started u g.gang g.index g.core j slot e.entry e.arg e.tile e.addr e.tid) ∧
    (s.tasks = t :: others → (∀ x ∈ others, x.tid ≠ t.tid) → t.group = none → t.ended = true → t.committed = false → t.deferred = [] →
      t.acks = [] → t.replay = none → engineBusy s t = false → commitStopped s t = false → (∀ m ∈ s.farMembers, m.task ≠ taskKey t) →
      ((s.parts[t.part]).parked.any fun y => y.tid == t.tid) = false →
      (g ∈ s.groups → g.gang = t.gang → ∃ u, exec (.taskCommit t.tid) s = .next u ∧ SameMemory s u ∧ u.tasks = s.tasks ∧
        u.groups = s.groups.filter fun x => x.gang != t.gang) ∧
      ((∀ x ∈ s.groups, x.gang ≠ t.gang) → heldBack s [taskKey t] t = false → observedOf s = [] → (s.parts[t.part]).lockstep = false →
      (∀ d : Fin 2, ∀ o ∈ s.dies[d].copyRun, o.forTask = none) →
      findLaunch s t.gang.launch = some l → l.nextGang ≠ l.snap.gcount → Memory.wf s.hbm = true →
      ∃ u, exec (.taskCommit t.tid) s = .next u ∧ u.tasks = others ∧
        (∀ pa, memByte u pa = ((s.vbytes.find? fun y => y.task == taskKey t && y.pa == pa).map fun y => y.val).getD (memByte s pa)) ∧
        u.vbytes = s.vbytes.filter (fun y => y.task != taskKey t) ∧ u.wave = { s.wave with eprio := u.wave.eprio } ∧
        u.waves.map (fun w => { w with eprio := 0 }) = s.waves.map (fun w => { w with eprio := 0 }) ∧
        findLaunch u l.key = some { l with done := l.done + 1 } ∧
        (u.parts[t.part]).commits = (s.parts[t.part]).commits + 1))

/-! ### The prism router -/

/-- R375, R379, R380, R384, R385: RTTAKE gives the group the first record of the stage that it chooses and goes to the stage's entry, and answers 0 when the pipeline is closed; RTDONE passes the record on, to another member of its set, or ends it after the last stage; RTREJ discards it; RTSTAT reads the statistics.

R376, R384: a record passed on takes its slot, and before an ORDERED set the slot behind it too. That RTDONE without room leaves the wave waiting with the record held, its pass counted before the wait, is an inference (log entry 33). -/
def Obligations.RouterRecords : Prop :=
  ∀ (s : State) (x : Fin 40) (d : Dst) (a : Src) (h : Hold) (l : Launch) (p : Pipe) (g : Group) (y : PRec) (rest : List PRec)
    (n slot pa : Nat) (held : Held),
    let w := s.wave
    let r := w.regs
    let stage := g.stage.val
    let after := fun (u : State) (q : Pipe) (z : Group) => SameMemory s u ∧ u.wave.run = w.run ∧
      findLaunch u l.key = some { l with pipe := some q } ∧ findGroup u g.gang g.index.val = some z
    let next := fun (u : State) => u.wave = { w with regs := nextWord r, eprio := u.wave.eprio }
    let counted := if y.passed then p else countPass p stage
    let sel := srcLanes r w.ids.wave.val a false
    let stat : Lanes W64 := Lanes.of fun i => (statItem s l p (lo32 sel[i])).setWidth 64
    let pair := fun (u : State) (z : W64) => (∀ i : Fin 32, (srcLanes u.wave.regs w.ids.wave.val (.n x) true)[i] = z) ∧
      (∀ i : Fin 40, i ≠ x → i.val ≠ x.val + 1 → u.wave.regs.named[i] = r.named[i]) ∧
      ∃ e, u.wave.regs = { e with named := u.wave.regs.named, mirror := u.wave.regs.mirror } ∧
        (e = { r with pc := e.pc, qvalid := 0, latch := r.latch.map fun z => { z with life := 0 } } ∨ e = nextWord r)
    let sent := { y with clk := clkJoin y.clk w.clk }
    let onePage := (slotAddr l p y.pos y.slot + (leadOf p y.pos).slotBytes - 1) / 2 ^ 15 = slotAddr l p y.pos y.slot / 2 ^ 15 ∧
      16 ≤ (leadOf p y.pos).slotBytes ∧ slotAddr l p y.pos y.slot + (leadOf p y.pos).slotBytes ≤ 2 ^ 54 ∧
      PageAt s (routerCore p) l.part (slotAddr l p y.pos y.slot) pa ∧ Memory.wf s.hbm = true
    let header := fun (u : State) (z : PRec) (rej : Bool) => memBytes u pa 16 = leBytes 16 (headerBits z rej) ∧
      (∀ b, b < pa ∨ pa + 16 ≤ b → memByte u b = memByte s b) ∧ next u
    let bit : W8 := BitVec.ofNat 8 (2 ^ (stage - 1))
    let left := membersLeft p y.pos (y.done ||| bit)
    myLaunch s = some l → l.pipe = some p → myGroup s = some g →
    (operandFault r [.dst (.n x) true] true = none → g.held = none → (g.gang.index, g.index) ∈ p.took → w.wait = none →
      (p.closed = false → chooseStage p stage = some n → takeable p n = y :: rest →
        ∃ u, exec (.rttake x) s = .next u ∧ u.wave.regs.pc = (stageAt p n).entry ∧
          pair u (BitVec.ofNat 64 (slotAddr l p y.pos y.slot)) ∧ u.wave.clk = clkJoin w.clk y.clk ∧
          after u (skipVoided (countTake (setRec p y.pos y.slot fun z => { z with loc := .held, passed := false }) n))
            { g with taken := true, stage := Fin.ofNat 9 n, held := some ⟨y.pos, y.slot⟩ }) ∧
      (p.closed = true →
        ∃ u, exec (.rttake x) s = .next u ∧ u.wave.regs.pc = r.pc + 4 ∧ pair u 0 ∧ after u p { g with taken := true })) ∧
    (g.held = some held → findRec p held.pos held.slot = some y → storesAcked s 4 = true →
      (y.setid = 0 → stage = p.stages.length → ∃ u, exec .rtdone s = .next u ∧ next u ∧
        after u (dropRec counted y.pos y.slot) { g with held := none }) ∧
      (y.setid = 0 → stage < p.stages.length → canAccept p (y.pos + 1) = true → freeSlot p (y.pos + 1) = some slot → w.wait = none →
        let q := reserveSlot (setRec counted y.pos y.slot fun _ => { sent with loc := .moving, resv := some slot }) (y.pos + 1) slot
        ∃ u, exec .rtdone s = .next u ∧ next u ∧
          (orderedPos p (y.pos + 1) = false → after u q { g with held := none }) ∧
          (orderedPos p (y.pos + 1) = true → ∀ behind, freeSlot p (y.pos + 2) = some behind → after u
            (setRec (reserveSlot q (y.pos + 2) behind) (y.pos + 1) slot fun z => { z with resv := some behind }) { g with held := none })) ∧
      (y.setid = 0 → stage < p.stages.length → canAccept p (y.pos + 1) = false → w.wait = none →
        (∃ t, registerWait s (.roomPos l.key (y.pos + 1)) 5 .room false false = .ok t) →
        ∃ u, exec .rtdone s = .next u ∧ SameMemory s u ∧ u.wave.regs = r ∧ u.wave.run = .stalled ∧
          (∃ z, u.wave.wait = some z ∧ z.key = .roomPos l.key (y.pos + 1) ∧ z.explicit = false) ∧
          findLaunch u l.key = some { l with pipe := some (setRec counted y.pos y.slot fun _ => { sent with passed := true }) } ∧
          findGroup u g.gang g.index.val = some g) ∧
      (y.setid ≠ 0 → onePage → ∃ u q z, exec .rtdone s = .next u ∧ header u { y with done := y.done ||| bit } false ∧
        findLaunch u l.key = some { l with pipe := some q } ∧ findGroup u g.gang g.index.val = some { g with held := none } ∧
        findRec q y.pos y.slot = some z ∧ z.done = y.done ||| bit ∧
        z.loc = (if left = [] then .leaving else .queued (chooseMember counted y.setid left).1)) ∧
      (onePage → ∃ u, exec .rtrej s = .next u ∧ header u y true ∧
        findLaunch u l.key = some { l with pipe := some (discardRec (countReject p stage) y.pos y.slot) } ∧
        findGroup u g.gang g.index.val = some { g with held := none })) ∧
    (operandFault r [.src a false, .dst d false] true = none →
      ∃ u, exec (.rtstat d a h) s = .next u ∧ OnlyRegs s u ∧
        LaneDone r u.wave.regs 4 d false stat (heldBy h (sel, false) (stat, false) (onActive r stat, false)))

/-- R374, R376, R377, R381, R384: RTEMIT rec fills the next slot of its position with a header and the payload, RTEMIT box adds an outbox entry with the stage; the router moves a record that RTDONE has passed on into the slot taken for it, and a record that has visited every member of the last set, and whose outbox entries are applied, is gone; the next entry waits until the one before it is applied on its home die. -/
def Obligations.RouterMoves : Prop :=
  ∀ (s : State) (a : KReg) (l : Launch) (p p1 : Pipe) (g gs : Group) (y z : PRec) (held : Held) (sa off slot pa pb : Nat),
    let w := s.wave
    let r := w.regs
    let stage := g.stage.val
    let pos := if stage = 0 then 0 else posOf p stage + 1
    let room := fun (n : Nat) => payloadSize p n
    let place := fun (size n slot pa : Nat) => (slotAddr l p n slot + (leadOf p n).slotBytes - 1) / 2 ^ 15 = slotAddr l p n slot / 2 ^ 15 ∧
      size ≤ (leadOf p n).slotBytes ∧ slotAddr l p n slot + (leadOf p n).slotBytes ≤ 2 ^ 54 ∧ PageAt s (routerCore p) l.part (slotAddr l p n slot) pa
    let reads := fun (n align : Nat) => windowOf s r.k[a].toNat = .aperture sa off ∧ apertureAt s w.ids.gang sa off n = some gs ∧
      emitCheck s r.k[a] n align = none ∧ storesAcked s 4 = true ∧ clkLe w.clk s.dies[coreDie w.ids.core].applied = true
    let next := fun (u : State) => u.wave = { w with regs := nextWord r }
    let piped := fun (u : State) (q : Pipe) => findLaunch u l.key = some { l with pipe := some q }
    Memory.wf s.hbm = true →
    (myLaunch s = some l → l.pipe = some p → myGroup s = some g → stage = 0 ∨ (stageAt p stage).set = 0 ∧ stage ≠ p.stages.length →
      reads (room pos) 16 → canAccept p pos = true → freeSlot p pos = some slot → place 16 pos slot pa → w.wait = none →
      placeRec p pos slot ⟨pos, slot, .reserved, p.emitted, 0, 0, 0, 0, 0, none, false, 0, [], spadClkAt gs off (room pos) w.clk⟩ = some (p1, z) →
      ∃ u q t, exec (.rtemitRec a) s = .next u ∧ next u ∧ piped u q ∧ q.emitted = p.emitted + 1 ∧
        findRec q pos slot = some t ∧ t = { z with clk := t.clk } ∧ t.seq = p.emitted ∧
        memBytes u pa 16 = leBytes 16 (headerBits t false) ∧ memBytes u (pa + 16) (room pos) = spadBytes gs off (room pos)) ∧
    (myLaunch s = some l → l.pipe = some p → myGroup s = some g → g.held = some held → findRec p held.pos held.slot = some y →
      y.setid ≠ 0 → y.obcnt < 4 → reads 64 64 → boxBad (boxOf (spadBytes gs off 64)) = false → place 320 y.pos y.slot pa →
      ∃ u q t, exec (.rtemitBox a) s = .next u ∧ next u ∧ piped u q ∧ findRec q y.pos y.slot = some t ∧
        t = { y with obcnt := y.obcnt + 1, clk := t.clk } ∧ memBytes u pa 16 = leBytes 16 (headerBits t false) ∧
        memBytes u (pa + (leadOf p y.pos).slotBytes - 256 + 64 * y.obcnt) 64 =
          (spadBytes gs off 64).take 9 ++ BitVec.ofNat 8 stage :: (spadBytes gs off 64).drop 10) ∧
    (findLaunch s l.key = some l → l.pipe = some p → p.stopped = false → recsAt p .moving = [y] → y.resv = some slot →
      place 16 y.pos y.slot pa → place 16 (y.pos + 1) slot pb → anyLost s = false →
      (∀ i < room y.pos, floorBlocks s (coreDie (routerCore p)) y.clk (pa + 16 + i) = false) →
      placeRec (dropRec p y.pos y.slot) (y.pos + 1) slot y = some (p1, z) →
      let i : Instr := if setOf p (y.pos + 1) = 0 then .routerMove l.key else .routerSetEntry l.key
      ∃ u q t, exec i s = .next u ∧ u.wave = w ∧ piped u q ∧ findRec q y.pos y.slot = none ∧
        findRec q (y.pos + 1) slot = some t ∧ t = { z with clk := t.clk } ∧
        memBytes u pb 16 = leBytes 16 (headerBits t false) ∧
        memBytes u (pb + 16) (room (y.pos + 1)) = fitPayload (room (y.pos + 1))
          ((List.range (room y.pos)).map fun i => viewByte s (coreDie (routerCore p)) 0 (pa + 16 + i))) ∧
    (findLaunch s l.key = some l → l.pipe = some p → p.stopped = false → recsAt p .leaving = [y] → lastPos p y.pos = true →
      (orderedPos p y.pos = true → lowerEntry p y = false) → y.obcnt ≤ y.boxes → (∀ x ∈ y.boxWrites, appliedOn s x.1 [x] = true) →
      ∃ u, exec (.routerSetLeave l.key) s = .next u ∧ SameMemory s u ∧ u.wave = w ∧
        piped u { dropRec p y.pos y.slot with freed := false } ∧ u = { s with launches := u.launches }) ∧
    (findLaunch s l.key = some l → l.pipe = some p → recsAt p .leaving = [y] → (∃ x ∈ y.boxWrites, appliedOn s x.1 [x] = false) →
      exec (.routerSetLeave l.key) s = .next s)

/-! ### The fabric -/

/-- R443 to R445, R451, R452: RFENCE completes when every store is acknowledged and every remote write and PUTS has ended, and takes the trap of a recorded failure; a request that arrives is performed in the partition of its DPID and answered with the old value where it has one, and a duplicate of a write or an add is answered again and not performed; an answer is taken by the first request of the access that waits, a store being acknowledged with the last of its answers; requests without an answer for 33,000,000 cycles end with a timeout. That a DPID of no partition answers with sub-cause 0x20, and that a read is served from what the home die has applied, are the model's choices (log entry 14). -/
def Obligations.RemoteAccess : Prop :=
  ∀ (s : State) (p : Fin 24) (dp : W16) (addr v x y : W64) (n op type src tag : Nat) (sat ver : Bool) (ty : Ty) (bytes : List W8) (pa sb pb : Nat)
    (e : RemoteError) (token : W32) (w0 : Wave) (out : RemoteWait) (ans : RemoteAnswer) (done more : List (Option RemoteAnswer)) (vals : List W64)
    (g cs ix b rt : Nat),
    let w := s.wave
    let fence := storesAcked s 5 = true ∧ w.remoteOut = [] ∧ ownPuts s = false
    let a := addr.toNat
    let arrives := fun (r : RemoteReq) => exec (.remoteRequest ⟨src, tag, r⟩) s
    let fresh := ∀ e ∈ s.served, ¬(e.1 = src ∧ e.2.1 = tag)
    let answers := fun (u : State) (z : RemoteAnswer) => u.fabricOut = s.fabricOut ++ [.answer z] ∧
      u = { s with
        fabricOut := u.fabricOut, hbm := u.hbm, clks := u.clks, joins := u.joins, lag := u.lag, lost := u.lost, dies := u.dies
        arrived := u.arrived, served := u.served }
    let once := fun (u : State) (z : RemoteAnswer) => answers u z ∧ u.served = (src, tag, z) :: s.served
    let stores := fun (u : State) (l : List W8) => ∀ z, memByte u z = written (keyed pa l) z (memByte s z)
    let at1 := fun (n : Nat) => 0 < n ∧ targetPart s dp = some p ∧ a / 2 ^ 44 % 256 ≠ 255 ∧ (a + n - 1) / 2 ^ 15 = a / 2 ^ 15 ∧
      PageAt s (partCore s p) p a pa ∧ anyLost s = false ∧ Memory.wf s.hbm = true ∧ ∀ i < n, overlapsOwned s (pa + i) 1 = false
    let again := fun (r : RemoteReq) => ∀ z, (s.served.find? fun e => e.1 == src && e.2.1 == tag) = some (src, tag, z) →
      arrives r = .next { s with fabricOut := s.fabricOut ++ [.answer z] }
    let asked := ((out.addrs[done.length]?).map fun q => q.2).getD 0
    let failure : Option RemoteError := match ans with
      | .failed sub => some ⟨asked, 0x41, BitVec.ofNat 8 sub⟩
      | _ => none
    let waiting := findWave s token = some w0 ∧ token.getLsbD 31 = false ∧ w0.remoteOut = [out] ∧
      out.asks = done ++ none :: more ∧ ∀ z ∈ done, z.isSome = true
    let wave := fun (i : Instr) (w1 : Wave) =>
      ∃ u, exec i s = .next u ∧ u = { s with wave := u.wave, waves := u.waves } ∧ findWave u token = some w1
    let age := (s.dies[coreDie w0.ids.core].clock - out.since).toNat
    (fence → w.remoteErr = none → ∃ u, exec .rfence s = .next u ∧ SameMemory s u ∧
      u = { s with wave := { w with regs := nextWord w.regs } }) ∧
    (fence → w.remoteErr = some e → e.cause ≠ 0x4D → w.handler = false → SideBufferAt s sb pb → Memory.wf s.hbm = true →
      ∃ u, exec .rfence s = .next u ∧ Entered s u sb pb e.cause w.regs.pc [⟨0, e.addr, e.cause, e.sub⟩] ∧ u.wave.remoteErr = none) ∧
    (at1 n → ∃ u, arrives (.read dp addr n) = .next u ∧ SameMemory s u ∧ u.served = s.served ∧
      answers u (.data (wordsOf ((List.range n).map fun i => viewByte s (homeOf (pa + i)) 0 (pa + i))))) ∧
    (fresh → at1 bytes.length → ∃ u, arrives (.write dp addr bytes) = .next u ∧ once u .done ∧ stores u bytes) ∧
    (fresh → tyOf type = some ty → at1 (tyBits ty / 8) → a % (tyBits ty / 8) = 0 →
      ∃ u, arrives (.atom dp addr op type sat v) = .next u ∧
        once u (.data [BitVec.ofNat 64 (memNat s pa (tyBits ty / 8))]) ∧
        stores u (leBytes (tyBits ty / 8)
          (atomApply (atomOfCode op) ty sat (memNat s pa (tyBits ty / 8)) (v.toNat % 2 ^ tyBits ty)))) ∧
    (fresh → at1 n → a % n = 0 → ∃ u, arrives (.cas dp addr n x y) = .next u ∧ once u (.data [BitVec.ofNat 64 (memNat s pa n)]) ∧
      stores u (if memNat s pa n = x.toNat % 2 ^ (8 * n) then leBytes n y.toNat else [])) ∧
    (fresh → at1 8 → a % 8 = 0 → ∃ u, arrives (.counterAdd dp addr) = .next u ∧ once u .done ∧
      stores u (leBytes 8 (counterAdd (memNat s pa 8) 1))) ∧
    (fresh → targetPart s dp = none → ∃ u, arrives (.counterAdd dp addr) = .next u ∧ SameMemory s u ∧ once u (.failed 0x20)) ∧
    (fresh → ∃ u c, arrives (.contribute dp g cs ix op type sat b rt vals ver) = .next u ∧ SameMemory s u ∧
      u = { s with colls := u.colls, served := u.served, farMembers := u.farMembers } ∧ (ver = false → u.farMembers = s.farMembers) ∧
      (∃ z ∈ u.colls, z.dpid = dp.toNat ∧ z.group = g ∧ z.cseq = cs ∧ c ∈ z.parts) ∧ c.index = ix ∧ c.root = rt ∧ c.count = vals.length ∧
      c.ver = ver ∧ c.values = if vals = [] then none else some vals) ∧
    again (.write dp addr bytes) ∧ again (.atom dp addr op type sat v) ∧ again (.cas dp addr n x y) ∧ again (.counterAdd dp addr) ∧
    (¬fresh → arrives (.contribute dp g cs ix op type sat b rt vals ver) = .next s) ∧
    (waiting → ans ≠ .late → out.blocking = true →
      wave (.remoteResponse token ans) { w0 with remoteOut := [{ out with asks := done ++ some ans :: more }] }) ∧
    (waiting → (ans = .done ∨ ∃ sub, ans = .failed sub) → out.blocking = false → out.addrs ≠ [] →
      wave (.remoteResponse token ans)
        (if more.all Option.isSome then { w0 with remoteOut := [], flights := ackFlight w0.flights, remoteErr := w0.remoteErr.or failure }
        else { w0 with remoteOut := [{ out with asks := done ++ some ans :: more }], remoteErr := w0.remoteErr.or failure })) ∧
    (waiting → age < 33000000 → exec (.remoteTimeout token) s = .next s) ∧
    (waiting → 33000000 ≤ age → out.blocking = true →
      wave (.remoteTimeout token) { w0 with remoteOut := [{ out with asks := out.asks.map fun z => z.or (some .late) }] }) ∧
    (waiting → 33000000 ≤ age → out.blocking = false → out.addrs ≠ [] →
      wave (.remoteTimeout token)
        { w0 with remoteOut := [], flights := ackFlight w0.flights, remoteErr := w0.remoteErr.or (some ⟨asked, 0x42, 0⟩) })

/-- R285, R442, R453 to R456, R458: COLL joins its instance with its contribution and sends that to the other packages of the group; an instance with a contribution of every index writes its results for its member, and is gone with the member's completion, an add of 1 to COMPL, once the writes are applied; where a contributor's package fails, every instance of a group with that package that has not written its results has ended; a retransmission is never visible. That SRC is read at issue, that the results are written in one step, and that an instance with written results outlives the failure of a package, are the model's choices (log entry 34).

R457: the word of a member's package that it could commit marks it so here. -/
def Obligations.Collectives : Prop :=
  ∀ (s t : State) (a : KReg) (va pa pb : Nat) (d : CollDesc) (x : Coll) (c q m : Contribution) (others : List Contribution) (who : Issuer)
    (mv : Moved) (rank : Fin 1024) (port : Fin 128),
    let w := s.wave
    let s1 := { s with wave := { w with clk := unitClk s (.mem pa 0) 64 w.clk } }
    let room := engineRoom s1 { issuerOf s1 with spill := isReleased s1 } (coreDie w.ids.core) [keyAt s1 w.ids.part (some w.ids.gang) d.compl.toNat]
    let dp := (s.parts[w.ids.part]).dpid.setWidth 16
    let ranks := (rankList s d.group).getD []
    let vals := collResults q.par q.root q.count x.parts
    let n := resultBytesOf (parOp q.par) (parType q.par)
    (windowOf s (w.regs.k[a]).toNat = .global va → (w.regs.k[a]).toNat % 64 = 0 → PageAt s w.ids.core w.ids.part va pa →
      d = collOf (leNat ((List.range 64).map fun i => gangByte s (some w.ids.gang) (coreDie w.ids.core) w.ids.token (pa + i))) →
      unitBlocked s (.mem pa 0) 64 = false → lostRead s w.ids.part (some w.ids.gang) (bytesFrom pa 64) = false →
      collBad s d = false → collLimit s d = false → flightCount w .engine < 63 → forkReady s1 (issuerOf s1) = true →
      clkLe s1.wave.clk s.dies[coreDie w.ids.core].applied = true → isVersioned s = false → (d.compl = 0 ∨ room = .onDie ∨ room = .ext) →
      formContribution s1 (issuerOf s1) d = .ok c t →
      ∃ u, exec (.coll a) s = .next u ∧ SameMemory t u ∧
        u = { t with wave := u.wave, colls := u.colls, fabricOut := u.fabricOut, nextTag := u.nextTag, objs := u.objs } ∧
        u.wave = { s1.wave with regs := nextWord w.regs } ∧
        (∃ y ∈ u.colls, y.dpid = dp.toNat ∧ y.group = d.group ∧ y.cseq = d.cseq ∧ c ∈ y.parts) ∧
        c.index = d.index ∧ c.count = d.count ∧ c.root = d.root ∧ c.dst = d.dst ∧ c.compl = d.compl ∧
        u.fabricOut = s.fabricOut ++ ((ranks.map fun r => r.toNat).filter fun r => r != s.pkg.rank.toNat).eraseDups.mapIdx fun i r =>
          .request r (s.nextTag + i) (.contribute dp d.group d.cseq d.index d.op d.type d.sat d.b d.root (c.values.getD []) c.ver)) ∧
    (findColl s x.dpid x.group x.cseq = some x → collStage s x = .result → x.parts = q :: others →
      x.parts.filter (fun y => y.who.isSome) = [m] → m.who = some who → issuerVersioned s who = false → m.compl = 0 →
      windowOf s m.dst.toNat = .global va → 0 < n * vals.length → (va + n * vals.length - 1) / 2 ^ 15 = va / 2 ^ 15 →
      PageAt s who.core who.part va pb → (∀ i < n * vals.length, overlapsOwned s (pb + i) 1 = false) → Memory.wf s.hbm = true →
      ∃ u, exec (.collectiveComplete x.dpid x.group x.cseq) s = .next u ∧ u.wave = w ∧ u.waves = s.waves ∧
        (∃ z, u.colls = s.colls.erase x ++ [{ x with parts := [{ m with moved := some z }] }] ∧ z.err = false) ∧
        (∀ i z, vals[i]? = some z → memBytes u (pb + n * i) n = leBytes n z) ∧
        ∀ z, z < pb ∨ pb + n * vals.length ≤ z → memByte u z = memByte s z) ∧
    (findColl s x.dpid x.group x.cseq = some x → collStage s x = .signal m → x.ended = none → x.parts = [m] → m.who = some who → m.moved = some mv →
      let left := s.colls.filter fun y => !(x.dpid == y.dpid && x.group == y.group && x.cseq == y.cseq)
      (m.compl = 0 → ∃ u, exec (.collectiveComplete x.dpid x.group x.cseq) s = .next u ∧ SameMemory s u ∧ u.wave = w ∧
        u.colls = left) ∧
      (m.compl ≠ 0 → issuerVersioned s who = false → mv.err = false → windowOf s m.compl.toNat = .global va →
        PageAt s who.core who.part va pb → lostRead s who.part none (bytesFrom pb 8) = false → Memory.wf s.hbm = true →
        ∃ u, exec (.collectiveComplete x.dpid x.group x.cseq) s = .next u ∧ u.wave = w ∧ u.colls = left ∧
          memBytes u pb 8 = leBytes 8 (counterAdd (memNat s pb 8) 1) ∧ ∀ z, z < pb ∨ pb + 8 ≤ z → memByte u z = memByte s z)) ∧
    (∃ u, exec (.contributorPackageFailure rank) s = .next u ∧ u.collGroups = s.collGroups ∧
      ∀ y ∈ u.colls, ∃ z ∈ s.colls, y.dpid = z.dpid ∧ y.group = z.group ∧ y.cseq = z.cseq ∧
        (∀ e ∈ y.parts, ∃ f ∈ z.parts, e = { f with who := e.who, moved := e.moved }) ∧
        (y.ended.isSome = true ∨ (∃ e ∈ z.parts, e.moved.isSome = true) ∨
          ∀ l, rankList s z.group = some l → ∀ r ∈ l, r.toNat ≠ rank.val)) ∧
    (∀ src tag index, (∀ e ∈ s.served, ¬(e.1 = src ∧ e.2.1 = tag)) →
      ∃ u, exec (.remoteRequest ⟨src, tag, .memberReady dp d.group d.cseq index⟩) s = .next u ∧ SameMemory s u ∧
        u = { s with farMembers := u.farMembers, served := u.served } ∧
        ∀ f ∈ s.farMembers, (if f.dpid = dp.toNat ∧ f.group = d.group ∧ f.cseq = d.cseq ∧ f.index = index then { f with ready := true } else f)
          ∈ u.farMembers) ∧
    exec (.flitRetransmission port) s = .next s

/-! ### The memory system and the scheduler -/

/-- R234, R237, R268, R277: a walk that ends at a leaf fills the TLBs and sets A, and D for a write that the entry allows; demand-zero resolution maps a page of the pool that reads as zero; a die applies its next write of a home, and what was written last stays as it was; the oldest operation of a path returns. That each leaves the state as it is where there is nothing to do is the model's choice (log entry 1). -/
def Obligations.MemorySystem : Prop :=
  ∀ (s : State) (c : Fin 192) (p : Fin 24) (va lv addr pte : Nat) (acc : Access) (d h : Fin 2) (cores : List (Fin 96)) (r : WriteRec)
    (token : W32) (w : Wave) (path : FlightPath),
    let old := entryOf p va lv addr pte
    let entry : TlbEntry := { old with d := old.d || (acc == .write && old.w) }
    let marks := (if pte / 32 % 2 = 1 then 0 else 32) ||| (if acc == .write && old.w && !old.d then 64 else 0)
    let zero := demandZero s p lv addr
    let others := fun (u : State) => ∀ x, x < addr ∨ addr + 8 ≤ x → memByte u x = memByte s x
    (Memory.wf s.hbm = true → walkOn s (coreDie c) p va = .leaf lv addr pte →
      ∃ u, exec (.pageWalk c p va acc) s = .next u ∧ u.wave = s.wave ∧ u.waves = s.waves ∧
        tlbHit u.cores[c].tlb p va = some entry ∧ tlbHit u.dies[coreDie c].tlb p va = some entry ∧
        memNat u addr 8 = memNat s addr 8 ||| marks ∧ others u ∧ (marks = 0 → SameMemory s u)) ∧
    ((∀ x y z, walkOn s (coreDie c) p va ≠ .leaf x y z) → exec (.pageWalk c p va acc) s = .next s) ∧
    (Memory.wf s.hbm = true → walkOn s (coreDie c) p va = .demand lv addr → (s.parts[p]).pfmode.getLsbD 0 = false →
      mappedLeaf s lv addr = none → zero.1 = true →
      ∃ u page, exec (.demandZeroResolution c p va) s = .next u ∧ u.wave = s.wave ∧ u.waves = s.waves ∧
        tlbHit u.cores[c].tlb p va = some (entryOf p va lv addr (7 + page)) ∧
        memNat u addr 8 = 39 + page ∧ page % 2 ^ pageBits lv = 0 ∧ page < 2 ^ 39 ∧
        (addr + 8 ≤ page ∨ page + 2 ^ pageBits lv ≤ addr → ∀ x, page ≤ x → x < page + 2 ^ pageBits lv → memByte u x = 0)) ∧
    ((∀ x y, walkOn s (coreDie c) p va ≠ .demand x y) → exec (.demandZeroResolution c p va) s = .next s) ∧
    (nextApply s d h = some r →
      ∃ u, exec (.writeApply ⟨d, h⟩ cores) s = .next u ∧ u.hbm = s.hbm ∧ u.wave = s.wave ∧ u.waves = s.waves ∧ r.home = h ∧
        u.dies[d].applied = clkRaise s.dies[d].applied h r.stamp ∧
        (∀ x : Fin 2, x ≠ d → u.dies[x] = s.dies[x]) ∧
        (∀ y ∈ u.lag, y.home = h → y.stamp = r.stamp → recOn y d = true)) ∧
    (nextApply s d h = none → exec (.writeApply ⟨d, h⟩ cores) s = .next s) ∧
    (findWave s token = some w → canRespond w path = true →
      ∃ u, exec (.memoryResponse token path) s = .next u ∧ SameMemory s u ∧ u = { s with wave := u.wave, waves := u.waves } ∧
        findWave u token = some { w with flights := dropFlight path w.flights })

/-- R37 to R39, R206, R239, R278, R398, R409, R411, R412: the scheduler evicts the waves that clear a block, each with what its own memory holds, brings an evicted wave back, with an acquire at its core, gives a parked wave its place in the register file, stops and restarts the clocks of cores, closes a window that has run out, and ends a wait that has lasted too long with the trap of its cause. A wave that comes back checks its barrier again (R330). The model's choices: the instruction cache is emptied at a resumption (log entry 11), the mark of the owed fault (log entry 38), and the private bytes that move with a resumed wave (log entry 43). -/
def Obligations.Scheduling : Prop :=
  ∀ (s : State) (p : Fin 24) (l : Launch) (x : Need) (out : List W32) (token : W32) (w : Wave) (rest : List Evicted) (c : Fin 192) (sb pa : Nat),
    let only := fun (u : State) => SameMemory s u ∧ u = { s with wave := u.wave, waves := u.waves }
    let again := fun (v : Wave) => ({ v with
      wait := v.wait.filter fun y => !(y.granted && match y.what with | .phase _ => true | _ => false) } : Wave)
    (admitStage s p = .blocked l x → chooseClearing s p false l.snap.prio.val x (blocksOf s p x) = some (.waves out) →
      clearingReady s (.waves out) = true →
      contextRoom s l (((clearedWaves s (.waves out)).head?.map waveDie).getD 0) (clearedWaves s (.waves out)).length = .fits →
      ∃ u, exec (.preemptEvict p) s = .next u ∧ SameMemory s u ∧
        u = { s with wave := u.wave, waves := u.waves, cores := u.cores, nextKey := u.nextKey } ∧
        (∀ y : Fin 192, u.cores[y] = { s.cores[y] with l1p := u.cores[y].l1p }) ∧
        (∀ k ∈ out, ∀ v, findWave s k = some v → ∃ y, findWave u k = some y ∧
          y = { v with run := .evicted, readySince := y.readySince, priv := y.priv, backing := y.backing } ∧
          (OwnWf s v → ∀ key, ownCell y key = ownCell v key)) ∧
        ∀ k, k ∉ out → findWave u k = findWave s k) ∧
    (evictedList s p = .wave token :: rest → findWave s token = some w → w.ids.slot ∉ usedSlots s w.ids.core →
      coreUsable s p w.ids.core = true →
      ∃ u y, exec (.resumeEvicted p) s = .next u ∧ SameMemory s u ∧
        u = { s with wave := u.wave, waves := u.waves, cores := u.cores, engWaits := u.engWaits } ∧
        (∀ z : Fin 192, z ≠ w.ids.core → u.cores[z] = s.cores[z]) ∧ u.cores[w.ids.core].icache = [] ∧
        findWave u token = some y ∧ y.run = resumedRun s w ∧ y.floor = clkJoin w.floor w.clk ∧
        y = { again w with
          run := y.run, readySince := s.free, eprio := y.eprio, acqEpoch := y.acqEpoch, floor := y.floor, pbase := y.pbase
          backing := y.backing } ∧
        ((∀ b ∈ w.backing, w.pbase.toNat ≤ b.1) → ∀ key, ownCell y key = ownCell w key)) ∧
    (findWave s token = some w → wantsEntries s w = true → firstParked s w = true → parkFor s w = some out →
      ∃ u, exec (.unparkWave token) s = .next u ∧ only u ∧ findWave u token = some { again w with run := .running, readySince := s.free } ∧
        ∀ k ∈ out, k ≠ token → ∀ v, findWave s k = some v → findWave u k = some { v with run := .parked }) ∧
    (mayGate s c = true → exec (.clockGate c) s = .next (onCore s c fun y => { y with gated := true })) ∧
    (s.cores[c].gated = true → mayGate s c = false → exec (.clockRestart c) s = .next (onCore s c fun y => { y with gated := false })) ∧
    (findWave s token = some w → w.npOpen = true → w.npleft = 0 →
      ∃ u, exec (.nopreemptExpired token) s = .next u ∧ SameMemory s u ∧
        u = { s with wave := u.wave, waves := u.waves, cores := u.cores } ∧
        (∀ y : Fin 192, u.cores[y] = { s.cores[y] with testAfter := s.cores[y].testAfter.filter fun k => k != token }) ∧
        findWave u token = some { w with npOpen := false, npOwed := true }) ∧
    (s.wave = w → w.ids.token = token → token.getLsbD 31 = false → w.run = .running → w.handler = false → waveExpired s w = true →
      SideBufferAt s sb pa → Memory.wf s.hbm = true →
      ∃ t u, exec (.suspectedDeadlock token) s = .next u ∧ t.wave.wait = none ∧
        t = { s with wave := { w with wait := none, eprio := t.wave.eprio }, waves := t.waves, objs := t.objs, engWaits := t.engWaits } ∧
        Entered t u sb pa 0x53 w.regs.pc [⟨0, 0, 0x53, 0⟩])

/-! ### The host -/

/-- R235, R41, R43, R448, R449, R454, R460, R468, R480: a command of a partition's chain has its effect and ends with status 0: translations of a range go, a parked item goes on or is returned, a register is written, a collective group is given its ranks, a partition is created, reset or destroyed. One that names no parked item ends with 0x3B. What an invalidation waits for, the registers that a creation keeps and the items that a destruction returns are the model's choice (log entry 35). -/
def Obligations.HostCommands : Prop :=
  ∀ (s : State) (p q : Fin 24) (r : RecRun) (it : ParkedItem) (k : W32) (w0 : Wave) (tk : Task) (l : Launch) (t0 : State) (va pa : Nat)
    (e : TaskEnt),
    let a := (cmdArg r 0).toNat
    let b := (cmdArg r 1).toNat
    let ends := fun (op : Nat) (i : Instr) (status : Cause) (effect : State → Prop) =>
      CommandAt s p r op → CommandRuns i s p r status effect
    let meets := fun (x : TlbEntry) => x.part = p ∧ a < x.page * 2 ^ pageBits x.level + 2 ^ pageBits x.level ∧
      x.page * 2 ^ pageBits x.level < a + b
    let unparked := fun (t : State) => (t.parts[p]).parked = (s.parts[p]).parked.filter fun y => y.tid != it.tid
    let named := cmdArg r 0 = it.tid ∧ ((s.parts[p]).parked.filter fun y => y.tid == it.tid) = [it]
    let ranks := (List.range b).map fun i => (BitVec.ofNat 16 (memNat s (pa + 2 * i) 2) : W16)
    let mask := b
    let made := fun (lock : Bool) (t : State) => (∀ x : Fin 24, x ≠ q → t.parts[x] = s.parts[x]) ∧ t = { s with parts := t.parts } ∧
      t.parts[q] = { s.parts[q] with
        present := true, clusters := BitVec.ofNat 24 mask, lockstep := lock, launchQ := Vector.replicate 8 []
        taskQ := Vector.replicate 16 [], accepted := 0, commits := 0, parked := [] }
    let idle := (∀ g ∈ s.gangs, g.part ≠ q) ∧ (∀ x ∈ s.tasks, x.part ≠ q) ∧ (∀ x ∈ s.launches, x.part ≠ q)
    let emptied := fun (t : State) (y : Partition) => (∀ x : Fin 24, x ≠ q → t.parts[x] = s.parts[x]) ∧
      t.parts[q] = { y with parked := [], taskQ := Vector.replicate 16 [] } ∧ (∀ o ∈ t.objs, o.part ≠ q) ∧
      ((s.parts[q]).taskQ.toList.flatten = [e] → PageAt s (partCore s q) q e.addr.toNat pa → Memory.wf s.hbm = true → Returned s t pa 0x4F)
    ((∀ c : Fin 192, ∀ x ∈ s.cores[c].mxWait ++ s.cores[c].mxQueue, commandMeets p a b x = false) →
      (∀ g ∈ s.gangs, ∀ x ∈ g.saved, commandMeets p a b x = false) → (∀ v ∈ liveWaves s, waitMeets p a b v = false) →
      (∀ (d : Fin 2) (ch : Fin 96), recordMeets s p a b s.dies[d].chans[ch] = false) →
      ends 3 (.tlbInvalidate p) 0 fun t => SameMemory s t ∧
        t = { s with
          wave := t.wave, waves := t.waves, cores := t.cores, dies := t.dies, parts := t.parts, objs := t.objs, engWaits := t.engWaits
          hostLog := s.hostLog ++ [.tlbAck p] } ∧
        (∀ c : Fin 192, t.cores[c] = { s.cores[c] with tlb := t.cores[c].tlb } ∧
          ∀ x : TlbEntry, x ∈ t.cores[c].tlb ↔ x ∈ s.cores[c].tlb ∧ ¬ meets x) ∧
        (∀ d : Fin 2, t.dies[d] = { s.dies[d] with tlb := t.dies[d].tlb, chans := t.dies[d].chans } ∧
          (∀ x : TlbEntry, x ∈ t.dies[d].tlb ↔ x ∈ s.dies[d].tlb ∧ ¬ meets x) ∧
          ∀ ch : Fin 96, t.dies[d].chans[ch] = { s.dies[d].chans[ch] with inService := t.dies[d].chans[ch].inService }) ∧
        (∀ x : Fin 24, x ≠ p → t.parts[x] = s.parts[x]) ∧
        t.parts[p] = { s.parts[p] with cmd := { (s.parts[p]).cmd with inService := (t.parts[p]).cmd.inService } } ∧
        ∀ (n : W32) (v : Wave), findWave s n = some v → ∃ y, findWave t n = some y ∧ y = { v with wait := y.wait, eprio := y.eprio } ∧
          (y.wait = v.wait ∨ v.ids.part = p ∧ y.wait = none)) ∧
    (named → it.tokens = [k] → k.getLsbD 31 = false → it.cause ≠ 0x29 → routerLaunch s p it.tid = none → s.recWaits = [] →
      findWave s k = some w0 → w0.run = .held →
      ends 4 (.releaseParkedItem p) 0 fun t => unparked t ∧ SameMemory s t ∧
        t = { s with wave := t.wave, waves := t.waves, parts := t.parts, objs := t.objs, engWaits := t.engWaits } ∧
        ∃ y, findWave t k = some y ∧ y = { w0 with run := .parked, released := some w0.regs.pc, eprio := y.eprio }) ∧
    (named → heldLaunch s p it.tid = none → routerLaunch s p it.tid = none → findTask s it.tid p = some tk →
      tk.committed = false → tk.group = none → findGang s tk.gang = none →
      findLaunch s tk.gang.launch = some l → l.nextGang ≠ l.snap.gcount →
      ends 5 (.returnParkedItem p) 0 fun t => unparked t ∧ SameMemory s t ∧ findTask t it.tid p = none ∧
        findLaunch t l.key = some { l with
          again := l.again.filter fun i => i != tk.gang.index
          returned := l.returned ++ [(tk.gang.index, BitVec.ofNat 8 b)] }) ∧
    (((s.parts[p]).parked.filter fun y => y.tid == cmdArg r 0) = [] →
      ends 4 (.releaseParkedItem p) 0x3B (fun t => t = s) ∧ ends 5 (.returnParkedItem p) 0x3B fun t => t = s) ∧
    (absentPlace s a = false → writeWindow s a (cmdArg r 1) = some t0 → ends 6 (.writeRegister p) 0 fun t => t = t0) ∧
    (a < 256 → 0 < b → b < 2 ^ 16 → windowOf s (cmdArg r 2).toNat = .global va → (va + 2 * b - 1) / 2 ^ 15 = va / 2 ^ 15 →
      PageAt s (partCore s p) p va pa → anyLost s = false → (∀ x ∈ ranks, x.toNat < s.pkg.dsize.toNat) →
      ends 7 (.setCollectiveGroup p) 0 fun t => t = { s with collGroups := t.collGroups } ∧ SameMemory s t ∧
        rankList t a = some ranks ∧ ∀ g, g ≠ a → rankList t g = rankList s g) ∧
    (a = q.val →
      (cmdArg r 2 = 1 → mayCreate s q mask false = true → ends 8 (.createPartition p) 0 (made false)) ∧
      (cmdArg r 2 = 2 → mayCreate s q mask true = true → ends 8 (.createLockstepPartition p) 0 (made true)) ∧
      (cmdArg r 2 = 3 → (s.parts[q]).present = true → idle → ends 8 (.resetPartition p) 0 fun t => emptied t s.parts[q]) ∧
      (cmdArg r 2 = 0 → (s.parts[q]).present = true → idle → ends 8 (.destroyPartition p) 0 fun t =>
        emptied t { s.parts[q] with present := false, clusters := 0, lockstep := false }))

/-- R28, R232, R248, R353, R446, R447, R469, R480: a direct write of the host to a register of the window takes effect when the package is ready and the register accepts the value, and is dropped otherwise. A write of PTROOT drops the partition's TLB entries (R250), and one of CTXSIZE the lines of L2 that have lost their ways. The bound 2^39 on physical addresses, and that a write to a partition that is not present is accepted, are the model's choice (log entry 35). -/
def Obligations.RegisterWrites : Prop :=
  ∀ (s : State) (p : Fin 24) (d : Fin 2) (ch : Fin 96) (v : W64),
    let x := v.toNat
    let base := 0xFF * 2 ^ 44
    let phys := fun (n : Nat) => x < 2 ^ 39 ∧ x % n = 0
    let writes := fun (i : Instr) (ok : Prop) (P : State → Prop) =>
      ∃ u, exec i s = .next u ∧ (s.pkg.ready = true → ok → P u) ∧ (s.pkg.ready = false ∨ ¬ ok → u = s)
    let put := fun (i : Instr) (ok : Prop) (t : State) => writes i ok fun u => u = t
    let others := fun (l : List TlbEntry) => l.filter fun e => e.part != p
    let part := fun (off : Nat) (ok : Prop) (f : Partition → Partition) =>
      put (.registerWrite (base + 2 ^ 36 + 0x10000 * p.val + off) v) ok (onPart s p f)
    let die := fun (off : Nat) (ok : Prop) (f : Die → Die) => put (.registerWrite (base + 0x10000 + 0x1000 * d.val + off) v) ok (onDie s d f)
    let pkg := fun (off : Nat) (ok : Prop) (k : Pkg) => put (.registerWrite (base + off) v) ok { s with pkg := k }
    let work := ∃ g ∈ s.groups, coreDie g.core = d
    put (.pfmodeWrite p v) (x < 2 ^ 9) (onPart s p fun q => { q with pfmode := v }) ∧
    writes (.ptrootWrite p v) (phys 4096) (fun u =>
      u = { onPart s p (fun q => { q with ptroot := v }) with cores := u.cores, dies := u.dies } ∧
        (∀ c : Fin 192, u.cores[c] = { s.cores[c] with tlb := others s.cores[c].tlb }) ∧
        ∀ y : Fin 2, u.dies[y] = { s.dies[y] with tlb := others s.dies[y].tlb }) ∧
    writes (.ctxsizeWrite d v) (8 ≤ x ∧ x ≤ 64 ∧ ¬ work) (fun u =>
      u = onDie s d (fun y => { y with ctxsize := v, l2 := u.dies[d].l2 }) ∧ ∀ e ∈ u.dies[d].l2, e ∈ s.dies[d].l2) ∧
    put (.vsmaxWrite d v) (x ≤ 64) (onDie s d fun y => { y with vsmax := v }) ∧
    part 0x010 (x < 2 ^ 16) (fun q => { q with dpid := v }) ∧
    part 0x018 (x < 2 ^ 54 ∧ x % 2 ^ 20 = 0) (fun q => { q with sbbase := v }) ∧
    part 0x020 True (fun q => { q with ctxbase := v }) ∧ part 0x028 True (fun q => { q with vbase := v }) ∧
    part 0x030 True (fun q => { q with vsize := v }) ∧ part 0x038 (x < 2 ^ 32) (fun q => { q with pwto := v }) ∧
    part 0x040 (x < 2 ^ 24) (fun q => { q with qord := v }) ∧
    part 0x050 (x < 2 ^ 54 ∧ x % 8 = 0) (fun q => { q with cmdcompl := v }) ∧
    part 0x070 (phys 128) (fun q => { q with dzpool := v }) ∧
    die 0x010 (x % 2 ^ 26 = 0) (fun y => { y with wftxbase := v }) ∧
    pkg 0x08 (x < 1024) { s.pkg with rank := v } ∧ pkg 0x10 (1 ≤ x ∧ x ≤ 1024) { s.pkg with dsize := v } ∧
    pkg 0x18 True { s.pkg with rmapbase := v } ∧
    put (.registerWrite (base + 0x100000 + 0x20 * (96 * d.val + ch.val)) v) 
      (x / 2 ^ 2 % 2 ^ 6 = 0 ∧ x / 2 ^ 48 = 0 ∧ (x / 2 ^ 8 % 2 ^ 8 < 24 ∨ x / 2 ^ 8 % 2 ^ 8 = 0xFF))
      (onChan s d ch fun c => { c with part := BitVec.ofNat 8 (x / 2 ^ 8) })

/-! ### Resets, the sideband, integrity -/

/-- R10, R11, R463, R468 to R474: what the resets, the loss of power, firmware, attestation and the sideband do. A quote holds the nonce, the part number, the serial number, the image digest, FWSVN, SUMREV and the cores, stacks and ports out of service (R471). What the sensors read and whether signatures hold is left open (log entries 3 and 13). The model's choices: clocks and writes in flight at a die reset (log entry 24); what survives the loss of power, the shutdown and the resets, and the count of failed parts (log entry 36). -/
def Obligations.PackageEvents : Prop :=
  ∀ (s : State) (v bits : BitVec 3) (x : W32) (addr image svn build sig : Nat) (nonce : BitVec 256) (c : Fin 192) (d : Fin 2) (failed : List PartId),
    let k := s.pkg
    let set := fun (y : Pkg) => (.next { s with pkg := y } : Out)
    let check := if Config.firmwareCheck k.image % 8 ≠ 0 then Config.firmwareCheck k.image % 8 else if k.fwsvn < k.floor then 4 else 0
    let dark := fun (u : State) => u.hbm = [] ∧ u.wave = Wave.reset ∧ u.waves = [] ∧ u.gangs = [] ∧ u.tasks = [] ∧ u.launches = [] ∧
      u.parts = State.reset.parts ∧ u.dies = State.reset.dies ∧ u.lag = [] ∧ u.vbytes = [] ∧ u.pkg.floor = k.floor ∧ u.pkg.fwsvn = k.fwsvn
    exec (.alertWrite v) s = set { k with alert := k.alert &&& ~~~v } ∧
    exec (.sidebandRegisterWrite 0x18 x) s = set { k with alert := k.alert &&& ~~~(x.setWidth 3) } ∧
    exec (.sidebandRegisterWrite 0x10 x) s = (if 1 ≤ x.toNat ∧ x.toNat ≤ 168 then set { k with testiv := x } else .next s) ∧
    exec (.sidebandRegisterWrite 0x14 1) s = exec (.dieReset 0) s ∧ exec (.sidebandRegisterWrite 0x14 2) s = exec (.dieReset 1) s ∧
    exec (.sidebandRegisterWrite 0x14 3) s = exec .packageReset s ∧
    (addr ≠ 0x10 → addr ≠ 0x14 → addr ≠ 0x18 → exec (.sidebandRegisterWrite addr x) s = .next s) ∧
    (∃ u, exec (.temperatureAlert bits) s = .next u ∧ u.hostLog = s.hostLog ++ (if bits = 0 then [] else [.alert]) ∧
      u.pkg = { k with alert := k.alert ||| bits, power := u.pkg.power, tjmax := u.pkg.tjmax, tcool := u.pkg.tcool } ∧
      u = { s with pkg := u.pkg, free := u.free, hostLog := u.hostLog }) ∧
    (∃ u, exec .thermalShutdown s = .next u ∧ dark u ∧ u.powered = false ∧ u.pkg.alert = k.alert ∧ u.pkg.ready = k.ready ∧
      u.pkg.failedParts = k.failedParts ∧ u.pkg.standby = true) ∧
    (∃ u, exec .powerLoss s = .next u ∧ dark u ∧ u.powered = false ∧ u.pkg.ready = false ∧ u.pkg.alert = 0 ∧ u.pkg.staged = none) ∧
    (∃ u, exec (.powerOnReset failed) s = .next u ∧ dark u ∧ u.powered = true ∧ (u.pkg.ready = true ↔ check = 0) ∧
      (u.pkg.recovery = true ↔ check ≠ 0) ∧ u.pkg.failingCheck.val = check ∧
      (check = 0 → u.pkg.failedParts = min failed.length 255 ∧
        (u.cores[c].outOfService = true ↔ ∃ y ∈ failed, c ∈ partCores y) ∧
        ∀ n : Fin 8, u.pkg.stacksOut.getLsbD n.val = true ↔ .stack n ∈ failed)) ∧
    (∃ u, exec (.dieReset d) s = .next u ∧ u.dies[d].clock = 0 ∧ u.dies[d].wctr = 0 ∧ u.dies[d].tokens = 0 ∧ u.dies[d].pending = [] ∧
      u.dies[d].l2 = [] ∧ u.dies[d].tlb = [] ∧ (∀ o ∈ u.objs, o.die = d → ∃ l ∈ engineLinks u, l.key = o.key) ∧ (∀ l ∈ u.links, l.die ≠ d) ∧
      u.lag = [] ∧ (∀ y : Fin 2, u.dies[y].wctr = 0 ∧ u.dies[y].applied = {}) ∧ u.wave.clk = {} ∧ u.wave.floor = {} ∧
      u.pkg.stacksOut = k.stacksOut ∧ u.pkg.portsOut = k.portsOut ∧
      (coreDie c = d → u.cores[c].l1 = [] ∧ u.cores[c].tlb = [] ∧ u.cores[c].icache = [] ∧ u.cores[c].epoch = 0 ∧
        u.cores[c].mxQueue = [] ∧ u.cores[c].outOfService = false)) ∧
    (∃ u, exec .packageReset s = .next u ∧ (∀ y : Fin 2, u.dies[y].clock = 0 ∧ u.dies[y].tokens = 0) ∧ u.pkg.failedParts = 0 ∧ u.pkg.staged = none ∧
      (∀ i m b, k.staged = some (i, m, b) → u.pkg.image = i ∧ u.pkg.fwsvn = m ∧ u.pkg.fwbuild = b) ∧
      (k.staged = none → u.pkg.image = k.image ∧ u.pkg.fwsvn = k.fwsvn)) ∧
    exec (.firmwareStage image svn build) s = set { k with staged := some (image, BitVec.ofNat 16 svn, BitVec.ofNat 16 build) } ∧
    exec (.raiseRollbackFloor svn sig) s = (if Config.floorSignatureOk svn sig = true ∧ k.floor.toNat < svn ∧ svn < 2 ^ 16 then
      set { k with floor := BitVec.ofNat 16 svn } else .next s) ∧
    (∀ cores : Nat, (∀ y : Fin 192, cores.testBit y.val = s.cores[y].outOfService) → cores < 2 ^ 192 → k.ready = true →
      let l := [nonce.toNat, 0x07A2, Config.serialNumber, Config.imageDigest k.image, k.fwsvn.toNat, 1, cores, k.stacksOut.toNat, k.portsOut.toNat]
      exec (.attestationQuote nonce) s = .next { s with hostLog := s.hostLog ++ [.quote l (Config.attestationSignature l)] }) ∧
    exec .secondCopyRestored s = set { k with copiesLost := false }

/-- R361, R413, R422, R433, R435, R443, R464 to R467: a checker mismatch contains the gang that used the unit; the fault of a core, a stack or a port takes it out of service and is reported, and where the second copies of lost data are not restored, every queue that holds work is reported too; memory that cannot be corrected is lost and reported; a row is reported at its eighth correction in succession; a corrected error is counted, and a parity error empties the entry; an in-field test evicts the core's gangs and takes the core, which returns when it passes. The model's choices (log entry 36): group 5 for the fault of a link, with the port out of service; the count of failed parts; one report of a scrubbed row, at count 8 and with cause 0. -/
def Obligations.Integrity : Prop :=
  ∀ (s : State) (token : W32) (w : Wave) (c : Fin 192) (e : MxEntry) (rest : List MxEntry) (k : GangKey) (n : Fin 8) (port : Fin 128)
    (pa row : Nat) (stack : Fin 8) (d : Fin 2) (slice : Fin 64),
    let told := fun (u : State) (m : HostMsg) => m ∈ u.hostLog
    let rep := fun (group : Nat) (cause : Cause) (info : Nat) => HostMsg.report none (ddrOf group cause info)
    let lost := fun (u : State) (m : Nat) => (∀ y, y ∈ u.lost ↔ y ∈ s.lost ∨ y / m = pa % 2 ^ 39 / m) ∧
      u = { s with lost := u.lost, hostLog := s.hostLog ++ [rep 2 0x4D (pa % 2 ^ 39)] }
    let count := ((s.scrubs.find? fun y => y.1 == row).map fun y => y.2).getD 0 + 1
    let testable := s.cores[c].outOfService = false ∧ s.cores[c].testing = false
    (findWave s token = some w → (findGang s w.ids.gang).isSome = true →
      ∃ u, exec (.pipeCheck (.lanes token)) s = .next u ∧ findGang u w.ids.gang = none ∧
        told u (.report (some w.ids.part) (ddrOf 0 0x48 (waveInfo w))) ∧ ∀ v ∈ liveWaves u, v.ids.gang ≠ w.ids.gang) ∧
    (s.cores[c].mxQueue = e :: rest → e.who.gang = some k → (findGang s k).isSome = true →
      ∃ u, exec (.pipeCheck (.matrix c)) s = .next u ∧ findGang u k = none ∧ ∀ v ∈ liveWaves u, v.ids.gang ≠ k) ∧
    (∃ u, exec (.partFaultEvent (.core c)) s = .next u ∧ u.cores[c].outOfService = true ∧ told u (rep 3 0x4F (3 + 4 * c.val)) ∧
      u.pkg.failedParts = min (s.pkg.failedParts + 1) 255) ∧
    (∃ u, exec (.partFaultEvent (.stack n)) s = .next u ∧ u.pkg.stacksOut = s.pkg.stacksOut ||| BitVec.ofNat 8 (2 ^ n.val) ∧
      told u (rep 3 0x4F (1 + 4 * n.val))) ∧
    (∃ u, exec (.partFaultEvent (.port port)) s = .next u ∧ u.pkg.portsOut = s.pkg.portsOut ||| BitVec.ofNat 128 (2 ^ port.val) ∧
      told u (rep 3 0x4F (2 + 4 * port.val))) ∧
    (∃ u, exec (.linkFault port) s = .next u ∧ SameMemory s u ∧ u.wave = s.wave ∧ u.waves = s.waves ∧
      u.pkg = { s.pkg with
        portsOut := s.pkg.portsOut ||| BitVec.ofNat 128 (2 ^ port.val), failedParts := min (s.pkg.failedParts + 1) 255 } ∧
      told u (rep 5 0x40 (port.val % 64 * 2 ^ 10 + port.val / 64 * 2 ^ 16)) ∧
      (s.pkg.copiesLost = true → ∀ p : Fin 24, ∀ q ∈ busyQueues s p, told u (.unrecoverable p q))) ∧
    (∀ g x, (coreGroups s c)[n.val]? = some g → findGang s g.gang = some x →
      ∃ u, exec (.pipeCheck (.storage c n.val)) s = .next u ∧ findGang u g.gang = none ∧ ∀ v ∈ liveWaves u, v.ids.gang ≠ g.gang) ∧
    exec (.pipeCheck (.correctedCore c)) s = .next (onCore s c fun y => { y with corrected := y.corrected + 1 }) ∧
    exec (.pipeCheck (.correctedSlice d slice)) s =
      .next (onDie s d fun y => { y with corrected := y.corrected.set slice.val (y.corrected[slice] + 1) }) ∧
    exec (.pipeCheck (.parityL1 c pa)) s = .next (onCore s c fun y => { y with l1 := y.l1.filter fun z => z.line != pa }) ∧
    exec (.pipeCheck (.parityFetch c pa)) s = .next (onCore s c fun y => { y with icache := y.icache.filter fun z => z.1 != pa }) ∧
    exec (.pipeCheck (.parityTlb c pa row)) s =
      .next (onCore s c fun y => { y with tlb := y.tlb.filter fun z => !(z.page == pa && z.level == row) }) ∧
    exec (.pipeCheck (.parityL2Tlb d pa row)) s =
      .next (onDie s d fun y => { y with tlb := y.tlb.filter fun z => !(z.page == pa && z.level == row) }) ∧
    exec (.hbmUncorrectable .cleanLine pa) s = .next s ∧
    (∃ u, exec (.hbmUncorrectable .hbm pa) s = .next u ∧ lost u 64) ∧ (∃ u, exec (.hbmUncorrectable .dirtyLine pa) s = .next u ∧ lost u 128) ∧
    exec (.hbmScrub stack row false) s = .next { s with scrubs := s.scrubs.filter fun y => y.1 != row } ∧
    (∃ u, exec (.hbmScrub stack row true) s = .next u ∧ u.scrubs = (row, count) :: s.scrubs.filter (fun y => y.1 != row) ∧
      u.pkg = { s.pkg with corrected := s.pkg.corrected.set stack.val (s.pkg.corrected[stack] + 1) } ∧
      u.hostLog = s.hostLog ++ (if count = 8 then [rep 2 0 (row % 2 ^ 39)] else [])) ∧
    (testable → hostTests s c = false → s.cores[c].testDue = false → openWindows s c = [] → testClear s c = true →
      ∃ u, exec (.inFieldTest c) s = .next u ∧ SameMemory s u ∧ u.cores[c].testing = true ∧ u.cores[c].testDue = false ∧
        ∀ g ∈ coreGroups s (leadCore s c), ∀ y, findGang u g.gang = some y → y.evictedAt.isSome = true) ∧
    (testable → hostTests s c = true → s.cores[c].testDue = false →
      exec (.inFieldTest c) s = .next { (onCore s c fun y => { y with testDue := true, testHost := true, testGo := false, testAfter := openWindows s c }) with
        hostLog := s.hostLog ++ [.testDue c] }) ∧
    (testable → s.cores[c].testDue = true → s.cores[c].testHost = true → testDeferred s c = true →
      exec (.inFieldTest c) s = .next (onCore s c fun y => { y with testGo := true })) ∧
    (s.cores[c].testDue = true → s.cores[c].testHost = true → testClear s c = true →
      ∃ u, exec (.inFieldTestForced c) s = .next u ∧ SameMemory s u ∧ u.cores[c].testing = true ∧ u.cores[c].testDue = false) ∧
    (s.cores[c].testing = true → exec (.inFieldTestEnd c true) s = .next (onCore s c fun y => { y with testing := false })) ∧
    (s.cores[c].testing = true → ∃ u, exec (.inFieldTestEnd c false) s = .next u ∧ u.cores[c].outOfService = true ∧
      told u (rep 3 0x4F (3 + 4 * c.val)))

/-! ### The machine as a whole -/

/-- R28, R141, R353, R446: after reset the registers of the window have the values of the table, every channel is idle and owned by no partition, every barrier and counter is unmapped, nothing runs; and a wave starts with the registers of R141. -/
def Obligations.ResetValues : Prop :=
  let s := State.reset
  (s.pkg.rank = 0 ∧ s.pkg.dsize = 1 ∧ s.pkg.rmapbase = 0) ∧
  (∀ p : Fin 24, s.parts[p].pfmode = 0 ∧ s.parts[p].ptroot = 0 ∧ s.parts[p].dpid = 0 ∧ s.parts[p].sbbase = 0 ∧
    s.parts[p].ctxbase = 0 ∧ s.parts[p].vbase = 0 ∧ s.parts[p].vsize = 0 ∧ s.parts[p].pwto = 32227 ∧ s.parts[p].qord = 0 ∧
    s.parts[p].cmdcompl = 0 ∧ s.parts[p].dzpool = 0 ∧ s.parts[p].cmd.state = 0 ∧ s.parts[p].present = false) ∧
  (∀ d : Fin 2, s.dies[d].ctxsize = 24 ∧ s.dies[d].vsmax = 32 ∧ s.dies[d].wftxbase = 0 ∧
    ∀ c : Fin 96, s.dies[d].chans[c].state = 0 ∧ s.dies[d].chans[c].part = 0xFF ∧ s.dies[d].chans[c].stale = 0 ∧
      s.dies[d].chans[c].dropw = 0 ∧ s.dies[d].chans[c].cur = 0 ∧ s.dies[d].chans[c].last = 0) ∧
  (liveWaves s = [] ∧ s.groups = [] ∧ s.tasks = [] ∧ s.objs = []) ∧
  (∀ (l : Launch) (v : VariantEnt) (x : StartInfo),
    let r := startRegs l v x
    r.qvalid = 0 ∧ (∀ (n : Fin 40) (i : Fin 32), r.named[n][i] = 0) ∧ (∀ (n : Fin 16) (i : Fin 32), r.mirror[n][i] = 0) ∧ r.sel = 0 ∧
    (∀ j : Fin 3, r.latch[j].life = 0) ∧ (∀ p : Fin 8, r.preds[p] = 0) ∧ r.exec = 0xFFFFFFFF ∧ r.msdepth = 0 ∧ r.mode = 0 ∧
    (∀ j : Fin 8, r.h[j] = 0) ∧ r.k[l.sizek] = l.snap.size ∧
    (∀ j : Fin 32, 3 ≤ j.val → j.val ≠ l.sizek.val → r.k[j] = 0))

/-- The model's choice (log entry 2): no byte of memory is listed after reset, so that the memory's canonical form holds. -/
def Obligations.ResetMemory : Prop := Memory.wf State.reset.hbm = true

/-- The canonical form of global memory is kept by every step of the machine. -/
def Obligations.MemoryInvariant : Prop :=
  ∀ s t : State, Memory.wf s.hbm = true → step s = .next t → Memory.wf t.hbm = true

/-- R75, R90, R154, R421: when nothing of the device comes first, the step decodes the word at the program counter of the wave that the arbitration chooses and is the instruction's meaning, on the state in which that wave stands in the issuing place, time has passed and the issue is counted; the counts of the arbitration follow, which touch nothing but waves and performance counters. A word that is no instruction is the illegal instruction, before its literal is fetched. Event 2 counts the fetched word, one that traps too, and once where an instruction tries again (log entry 25). The word is that of memory where the instruction cache holds none; format F5 takes its literal word with it. -/
def Obligations.StepRuns : Prop :=
  ∀ (s : State) (k : W32) (x : Wave),
    let s0 := settle s
    let p := arrive0 (tick (switchTo s0 k))
    let pc := p.wave.regs.pc
    let counted := fun (u : State) => if triesAgain u then u else countEvent u u.wave.ids.core (some u.wave.ids.gang) 2 1
    let runs := fun (i : Instr) (u : State) => step s = issued u (exec i u)
    (∀ t u, SameMemory u (account t u) ∧ (account t u).wave.regs = u.wave.regs ∧
      account t u = { u with wave := (account t u).wave, waves := (account t u).waves, cores := (account t u).cores }) ∧
    (s.agenda = [] → s.powered = true → s.pkg.recovery = false → nextEvent s0 = none → chooseWave s0 = some k → findWave s0 k = some x → x.npOwed = false →
      windowSpent p.wave = false →
      (p.wave.regs = x.regs ∧ p.wave.ids = x.ids ∧ p.wave.run = x.run ∧ p.hbm = s.hbm ∧ SameMemory s p) ∧
      (∀ w u, fetchWord p pc.toNat = (.word w, u) →
        (∀ e, decode (bytesOfWord w ++ if wantsLiteral w then bytesOfWord 0 else []) = .error e → runs (.illegalInstr w) (counted u)) ∧
        (wantsLiteral w = false → ∀ i, decode (bytesOfWord w) = .ok (i, []) → runs i (counted u)) ∧
        (wantsLiteral w = true → ∀ y z i, fetchWord (counted u) (pc + 4).toNat = (.word y, z) →
          decode (bytesOfWord w ++ bytesOfWord y) = .ok (i, []) → runs i z)) ∧
      (∀ a pa t, windowOf p pc.toNat = .global a → waveTranslate p a .fetch = (.ok pa, t) →
        lostRead t t.wave.ids.part none (bytesFrom pa 4) = false → (∀ e ∈ t.cores[t.wave.ids.core].icache, e.1 ≠ pa) →
        ∃ u, fetchWord p pc.toNat = (.word (BitVec.ofNat 32 (memNat t pa 4)), u) ∧ u.wave = t.wave ∧ u.hbm = t.hbm))

/-- R90, R94 to R96: worked words of the manual decode to the instructions they stand for, and near-miss words to none. -/
def Obligations.SpecWordsDecode : Prop :=
  let is := fun (w : W32) (i : Instr) => decode (bytesOfWord w) = .ok (i, [])
  let isNone := fun (w : W32) => ∃ e, decode (bytesOfWord w) = .error e
  is 0x01000000 .nop ∧ is 0x040FFFFD (.jmp (-3)) ∧ is 0x0BA00005 (.ifp 0xA 5) ∧ is 0x0F025400 (.trap 2 (.n 5)) ∧
  is 0x120002EC (.setMode 0xBB) ∧ is 0x170F0C00 (.setsr .prio 3) ∧ is 0x1690000C (.getsr (.n 20) .gang .none) ∧
  is 0x2203BEC3 (.mul .queue .lane (.s .lane) .result) ∧ is 0x20540EC0 (.add (.n 5) (.q 0) (.s .lane) .none) ∧
  is 0x215B8003 (.sub (.n 6) (.l 0) (.s (.q 0)) .result) ∧ is 0x2C03D2A4 (.cmp .queue .zero (.k 10) .ne .none) ∧
  is 0x2AA001FC (.lea (.n 24) (.q 0) (.k 7) 7 .none) ∧ is 0x48000060 (.cvt .queue (.q 0) 1 .none) ∧ is 0x4F030480 (.por 3 1 8) ∧
  is 0x600A1465 (.kcmp 10 5 (.k 6) .ge) ∧ is 0x5E071F08 (.kshl 7 7 (.imm 48)) ∧ is 0x6108A001 (.kread 8 (.n 24) 0 true) ∧
  is 0x6C000C41 (.drawkey 3 (some 4)) ∧ is 0x885A8005 (.atomr .add (.n 6) (.n 24) (.q 0) 5) ∧ is 0x7A120000 (.fence .gang .rel) ∧
  is 0x93203140 (.mxloop 0 0 12 20 true) ∧ is 0xA4003C11 (.cntaddMax 15 1) ∧ is 0xB10152E0 (.cpy 20 (some (.n 30))) ∧
  is 0xB4035000 (.chkick 3 20) ∧ is 0xBA011800 (.rtemitBox 6) ∧ is 0xC35A8F40 (.wquery (.n 6) (.n 24) (.s .zero) .none) ∧
  is 0xD0015000 (.puts 20 true) ∧
  isNone 0x00000000 ∧ isNone 0x20540EC4 ∧ isNone 0x20540FC0 ∧ isNone 0x20140EC0 ∧ isNone 0x12008000 ∧ isNone 0x120003C0

/-- R76 to R82, R90: decoding and encoding agree, for every instruction that has an encoding and every operand: what the encoder writes decodes to the instruction, followed by whatever follows; and bytes that decode are what the encoder writes for the instruction they decode to. -/
def Obligations.RoundTrip : Prop :=
  (∀ (i : Instr) (rest : List W8), i.wf = true → i.isEvent = false → decode (encodeBytes i ++ rest) = .ok (i, rest)) ∧
  (∀ (bytes rest : List W8) (i : Instr), decode bytes = .ok (i, rest) → i.wf = true ∧ i.isEvent = false ∧ bytes = encodeBytes i ++ rest)

/-- R103, R104, R159, R160, R162, R165: what the element functions compute on integers, for every integer type: exact results brought into the type's n bits, or its range under SAT; quotients toward zero, with the type's limits for a divisor of 0; shifts and rotations. -/
def Obligations.IntegerArithmetic : Prop :=
  ∀ (t : Ty) (round : Nat) (sat : Bool) (x y z : BitVec (tyBits t)), tyInt t = true →
    let n := tyBits t
    let m : Arith := ⟨t, round, sat⟩
    let v := fun (u : BitVec (tyBits t)) => if tySigned t then u.toInt else (u.toNat : Int)
    let lo : Int := if tySigned t then -(2 ^ (n - 1)) else 0
    let hi : Int := if tySigned t then 2 ^ (n - 1) - 1 else 2 ^ n - 1
    let fit := fun (u : Int) => (BitVec.ofInt n (if sat then max lo (min hi u) else u)).toNat
    eAdd m x.toNat y.toNat = fit (v x + v y) ∧ eSub m x.toNat y.toNat = fit (v x - v y) ∧ eMul m x.toNat y.toNat = fit (v x * v y) ∧
    eMad m x.toNat y.toNat z.toNat = fit (v x * v y + v z) ∧ eNeg m x.toNat = fit (-v x) ∧ eAbs m x.toNat = fit |v x| ∧
    eMulhi m x.toNat y.toNat = (BitVec.ofInt n ((v x * v y).fdiv (2 ^ n))).toNat ∧
    eDiv m x.toNat y.toNat = fit (if y = 0 then (if v x < 0 then lo else hi) else (v x).tdiv (v y)) ∧
    eMin m x.toNat y.toNat = (if v x ≤ v y then x else y).toNat ∧ eMax m x.toNat y.toNat = (if v x ≤ v y then y else x).toNat ∧
    (∀ c : Nat, eShl m x.toNat c = (x <<< c).toNat ∧ eShr m x.toNat c = (x >>> c).toNat ∧
      eSar m x.toNat c = (x.sshiftRight c).toNat ∧ eRotl m x.toNat c = (x.rotateLeft c).toNat) ∧
    eNot m x.toNat = (~~~x).toNat ∧ eAndn m x.toNat y.toNat = (x &&& ~~~y).toNat ∧ eClz m x.toNat = x.clz.toNat ∧
    ePopc m x.toNat = x.cpop.toNat ∧ eBrev m x.toNat = x.reverse.toNat

/-- R115, R116, R118, R161: sums and products of finite values are exact, and rounding chooses by the mode: the nearest value of the format, with its last kept bit 0 or the larger magnitude at a tie, or the nearest in the mode's direction; it keeps the sign; a magnitude that rounds above the largest value overflows as the table says. -/
def Obligations.Rounding : Prop :=
  ∀ (t : Ty) (f : Fmt) (r : RMode) (sat : Bool), fmtOf t = some f →
    (∀ (neg : Bool) (m : Nat) (e : Int) (v top below : ℚ), m ≠ 0 → realOf (.fin neg m e false) = some v →
      realOf (decodeF f (fmtMax f)) = some top → realOf (decodeF f (fmtMax f - 1)) = some below →
      let ulp := top - below
      let w := roundVal f r sat (.fin neg m e false)
      (|v| ≤ top → ∃ u, realOf (decodeF f w) = some u ∧ w / 2 ^ (f.e + f.m) = neg.toNat ∧
        ∀ x y, x < 2 ^ (f.e + f.m + 1) → realOf (decodeF f x) = some y →
          match r with
          | .rne => |v - u| ≤ |v - y| ∧ (|v - u| = |v - y| → y ≠ u → w % 2 = 0)
          | .rna => |v - u| ≤ |v - y| ∧ (|v - u| = |v - y| → y ≠ u → |y| < |u|)
          | .rz => |u| ≤ |v| ∧ (|y| ≤ |v| → |y| ≤ |u|)
          | .rup => v ≤ u ∧ (v ≤ y → u ≤ y)
          | .rdn => u ≤ v ∧ (y ≤ v → y ≤ u)) ∧
      (top < |v| →
        let keeps := match r with
          | .rne => |v| < top + ulp / 2 ∨ (|v| = top + ulp / 2 ∧ fmtMax f % 2 = 0)
          | .rna => |v| < top + ulp / 2
          | .rz => True
          | .rup => neg = true
          | .rdn => neg = false
        (keeps → w = fmtMaxBits f neg) ∧ (¬keeps → w = fmtInf f sat neg))) ∧
    (∀ (neg : Bool) (e : Int), roundVal f r sat .nan = fmtNan f ∧ roundVal f r sat (.inf neg) = fmtInf f sat neg ∧
      roundVal f r sat (.fin neg 0 e false) = fmtSign f neg) ∧
    (fmtInf e4m3 false false = 0x7F ∧ fmtInf e4m3 false true = 0x7F ∧ fmtInf e2m1 false false = 0x7 ∧ fmtInf e2m1 false true = 0xF ∧
      fmtInf fp32 false false = 0x7F800000 ∧ fmtMaxBits fp32 true = 0xFF7FFFFF) ∧
    (∀ (a b : FVal) (x y : ℚ), realOf a = some x → realOf b = some y →
      realOf (fAdd r a b) = some (x + y) ∧ realOf (fMul a b) = some (x * y) ∧
      (x + y = 0 → x ≠ 0 → fAdd r a b = .fin (r == .rdn) 0 (match fAdd r a b with | .fin _ _ e _ => e | _ => 0) false))
end

