-- ==== Sys2Proof/Laws/State.lean ====
section
/-!
SUPPORT. What each update of a part of the state, of a wave and of the registers leaves as it was, and what it writes: one lemma for each field of each update, so that no proof unfolds a record update.
-/

namespace Sys2Proof.Machine

/-! ### Updates of the state -/

@[simp] theorem onDie_wave (s : State) (d : Fin 2) (f : Die → Die) : (onDie s d f).wave = s.wave := rfl
@[simp] theorem onDie_waves (s : State) (d : Fin 2) (f : Die → Die) : (onDie s d f).waves = s.waves := rfl
@[simp] theorem onDie_groups (s : State) (d : Fin 2) (f : Die → Die) : (onDie s d f).groups = s.groups := rfl
@[simp] theorem onDie_gangs (s : State) (d : Fin 2) (f : Die → Die) : (onDie s d f).gangs = s.gangs := rfl
@[simp] theorem onDie_tasks (s : State) (d : Fin 2) (f : Die → Die) : (onDie s d f).tasks = s.tasks := rfl
@[simp] theorem onDie_launches (s : State) (d : Fin 2) (f : Die → Die) : (onDie s d f).launches = s.launches := rfl
@[simp] theorem onDie_parts (s : State) (d : Fin 2) (f : Die → Die) : (onDie s d f).parts = s.parts := rfl
@[simp] theorem onDie_cores (s : State) (d : Fin 2) (f : Die → Die) : (onDie s d f).cores = s.cores := rfl
@[simp] theorem onDie_hbm (s : State) (d : Fin 2) (f : Die → Die) : (onDie s d f).hbm = s.hbm := rfl
@[simp] theorem onDie_clks (s : State) (d : Fin 2) (f : Die → Die) : (onDie s d f).clks = s.clks := rfl
@[simp] theorem onDie_joins (s : State) (d : Fin 2) (f : Die → Die) : (onDie s d f).joins = s.joins := rfl
@[simp] theorem onDie_lag (s : State) (d : Fin 2) (f : Die → Die) : (onDie s d f).lag = s.lag := rfl
@[simp] theorem onDie_vbytes (s : State) (d : Fin 2) (f : Die → Die) : (onDie s d f).vbytes = s.vbytes := rfl
@[simp] theorem onDie_vlines (s : State) (d : Fin 2) (f : Die → Die) : (onDie s d f).vlines = s.vlines := rfl
@[simp] theorem onDie_tags (s : State) (d : Fin 2) (f : Die → Die) : (onDie s d f).tags = s.tags := rfl
@[simp] theorem onDie_signals (s : State) (d : Fin 2) (f : Die → Die) : (onDie s d f).signals = s.signals := rfl
@[simp] theorem onDie_objs (s : State) (d : Fin 2) (f : Die → Die) : (onDie s d f).objs = s.objs := rfl
@[simp] theorem onDie_links (s : State) (d : Fin 2) (f : Die → Die) : (onDie s d f).links = s.links := rfl
@[simp] theorem onDie_engWaits (s : State) (d : Fin 2) (f : Die → Die) : (onDie s d f).engWaits = s.engWaits := rfl
@[simp] theorem onDie_recWaits (s : State) (d : Fin 2) (f : Die → Die) : (onDie s d f).recWaits = s.recWaits := rfl
@[simp] theorem onDie_locks (s : State) (d : Fin 2) (f : Die → Die) : (onDie s d f).locks = s.locks := rfl
@[simp] theorem onDie_owned (s : State) (d : Fin 2) (f : Die → Die) : (onDie s d f).owned = s.owned := rfl
@[simp] theorem onDie_arrived (s : State) (d : Fin 2) (f : Die → Die) : (onDie s d f).arrived = s.arrived := rfl
@[simp] theorem onDie_lost (s : State) (d : Fin 2) (f : Die → Die) : (onDie s d f).lost = s.lost := rfl
@[simp] theorem onDie_colls (s : State) (d : Fin 2) (f : Die → Die) : (onDie s d f).colls = s.colls := rfl
@[simp] theorem onDie_collGroups (s : State) (d : Fin 2) (f : Die → Die) : (onDie s d f).collGroups = s.collGroups := rfl
@[simp] theorem onDie_farMembers (s : State) (d : Fin 2) (f : Die → Die) : (onDie s d f).farMembers = s.farMembers := rfl
@[simp] theorem onDie_served (s : State) (d : Fin 2) (f : Die → Die) : (onDie s d f).served = s.served := rfl
@[simp] theorem onDie_nextTag (s : State) (d : Fin 2) (f : Die → Die) : (onDie s d f).nextTag = s.nextTag := rfl
@[simp] theorem onDie_scrubs (s : State) (d : Fin 2) (f : Die → Die) : (onDie s d f).scrubs = s.scrubs := rfl
@[simp] theorem onDie_pkg (s : State) (d : Fin 2) (f : Die → Die) : (onDie s d f).pkg = s.pkg := rfl
@[simp] theorem onDie_powered (s : State) (d : Fin 2) (f : Die → Die) : (onDie s d f).powered = s.powered := rfl
@[simp] theorem onDie_hostLog (s : State) (d : Fin 2) (f : Die → Die) : (onDie s d f).hostLog = s.hostLog := rfl
@[simp] theorem onDie_fabricOut (s : State) (d : Fin 2) (f : Die → Die) : (onDie s d f).fabricOut = s.fabricOut := rfl
@[simp] theorem onDie_agenda (s : State) (d : Fin 2) (f : Die → Die) : (onDie s d f).agenda = s.agenda := rfl
@[simp] theorem onDie_free (s : State) (d : Fin 2) (f : Die → Die) : (onDie s d f).free = s.free := rfl
@[simp] theorem onDie_nextKey (s : State) (d : Fin 2) (f : Die → Die) : (onDie s d f).nextKey = s.nextKey := rfl

@[simp] theorem onCore_wave (s : State) (c : Fin 192) (f : Core → Core) : (onCore s c f).wave = s.wave := rfl
@[simp] theorem onCore_waves (s : State) (c : Fin 192) (f : Core → Core) : (onCore s c f).waves = s.waves := rfl
@[simp] theorem onCore_groups (s : State) (c : Fin 192) (f : Core → Core) : (onCore s c f).groups = s.groups := rfl
@[simp] theorem onCore_gangs (s : State) (c : Fin 192) (f : Core → Core) : (onCore s c f).gangs = s.gangs := rfl
@[simp] theorem onCore_tasks (s : State) (c : Fin 192) (f : Core → Core) : (onCore s c f).tasks = s.tasks := rfl
@[simp] theorem onCore_launches (s : State) (c : Fin 192) (f : Core → Core) : (onCore s c f).launches = s.launches := rfl
@[simp] theorem onCore_parts (s : State) (c : Fin 192) (f : Core → Core) : (onCore s c f).parts = s.parts := rfl
@[simp] theorem onCore_dies (s : State) (c : Fin 192) (f : Core → Core) : (onCore s c f).dies = s.dies := rfl
@[simp] theorem onCore_hbm (s : State) (c : Fin 192) (f : Core → Core) : (onCore s c f).hbm = s.hbm := rfl
@[simp] theorem onCore_clks (s : State) (c : Fin 192) (f : Core → Core) : (onCore s c f).clks = s.clks := rfl
@[simp] theorem onCore_joins (s : State) (c : Fin 192) (f : Core → Core) : (onCore s c f).joins = s.joins := rfl
@[simp] theorem onCore_lag (s : State) (c : Fin 192) (f : Core → Core) : (onCore s c f).lag = s.lag := rfl
@[simp] theorem onCore_vbytes (s : State) (c : Fin 192) (f : Core → Core) : (onCore s c f).vbytes = s.vbytes := rfl
@[simp] theorem onCore_vlines (s : State) (c : Fin 192) (f : Core → Core) : (onCore s c f).vlines = s.vlines := rfl
@[simp] theorem onCore_tags (s : State) (c : Fin 192) (f : Core → Core) : (onCore s c f).tags = s.tags := rfl
@[simp] theorem onCore_signals (s : State) (c : Fin 192) (f : Core → Core) : (onCore s c f).signals = s.signals := rfl
@[simp] theorem onCore_objs (s : State) (c : Fin 192) (f : Core → Core) : (onCore s c f).objs = s.objs := rfl
@[simp] theorem onCore_links (s : State) (c : Fin 192) (f : Core → Core) : (onCore s c f).links = s.links := rfl
@[simp] theorem onCore_engWaits (s : State) (c : Fin 192) (f : Core → Core) : (onCore s c f).engWaits = s.engWaits := rfl
@[simp] theorem onCore_recWaits (s : State) (c : Fin 192) (f : Core → Core) : (onCore s c f).recWaits = s.recWaits := rfl
@[simp] theorem onCore_locks (s : State) (c : Fin 192) (f : Core → Core) : (onCore s c f).locks = s.locks := rfl
@[simp] theorem onCore_owned (s : State) (c : Fin 192) (f : Core → Core) : (onCore s c f).owned = s.owned := rfl
@[simp] theorem onCore_arrived (s : State) (c : Fin 192) (f : Core → Core) : (onCore s c f).arrived = s.arrived := rfl
@[simp] theorem onCore_lost (s : State) (c : Fin 192) (f : Core → Core) : (onCore s c f).lost = s.lost := rfl
@[simp] theorem onCore_colls (s : State) (c : Fin 192) (f : Core → Core) : (onCore s c f).colls = s.colls := rfl
@[simp] theorem onCore_collGroups (s : State) (c : Fin 192) (f : Core → Core) : (onCore s c f).collGroups = s.collGroups := rfl
@[simp] theorem onCore_farMembers (s : State) (c : Fin 192) (f : Core → Core) : (onCore s c f).farMembers = s.farMembers := rfl
@[simp] theorem onCore_served (s : State) (c : Fin 192) (f : Core → Core) : (onCore s c f).served = s.served := rfl
@[simp] theorem onCore_nextTag (s : State) (c : Fin 192) (f : Core → Core) : (onCore s c f).nextTag = s.nextTag := rfl
@[simp] theorem onCore_scrubs (s : State) (c : Fin 192) (f : Core → Core) : (onCore s c f).scrubs = s.scrubs := rfl
@[simp] theorem onCore_pkg (s : State) (c : Fin 192) (f : Core → Core) : (onCore s c f).pkg = s.pkg := rfl
@[simp] theorem onCore_powered (s : State) (c : Fin 192) (f : Core → Core) : (onCore s c f).powered = s.powered := rfl
@[simp] theorem onCore_hostLog (s : State) (c : Fin 192) (f : Core → Core) : (onCore s c f).hostLog = s.hostLog := rfl
@[simp] theorem onCore_fabricOut (s : State) (c : Fin 192) (f : Core → Core) : (onCore s c f).fabricOut = s.fabricOut := rfl
@[simp] theorem onCore_agenda (s : State) (c : Fin 192) (f : Core → Core) : (onCore s c f).agenda = s.agenda := rfl
@[simp] theorem onCore_free (s : State) (c : Fin 192) (f : Core → Core) : (onCore s c f).free = s.free := rfl
@[simp] theorem onCore_nextKey (s : State) (c : Fin 192) (f : Core → Core) : (onCore s c f).nextKey = s.nextKey := rfl

@[simp] theorem onPart_wave (s : State) (p : Fin 24) (f : Partition → Partition) : (onPart s p f).wave = s.wave := rfl
@[simp] theorem onPart_waves (s : State) (p : Fin 24) (f : Partition → Partition) : (onPart s p f).waves = s.waves := rfl
@[simp] theorem onPart_groups (s : State) (p : Fin 24) (f : Partition → Partition) : (onPart s p f).groups = s.groups := rfl
@[simp] theorem onPart_gangs (s : State) (p : Fin 24) (f : Partition → Partition) : (onPart s p f).gangs = s.gangs := rfl
@[simp] theorem onPart_tasks (s : State) (p : Fin 24) (f : Partition → Partition) : (onPart s p f).tasks = s.tasks := rfl
@[simp] theorem onPart_launches (s : State) (p : Fin 24) (f : Partition → Partition) : (onPart s p f).launches = s.launches := rfl
@[simp] theorem onPart_cores (s : State) (p : Fin 24) (f : Partition → Partition) : (onPart s p f).cores = s.cores := rfl
@[simp] theorem onPart_dies (s : State) (p : Fin 24) (f : Partition → Partition) : (onPart s p f).dies = s.dies := rfl
@[simp] theorem onPart_hbm (s : State) (p : Fin 24) (f : Partition → Partition) : (onPart s p f).hbm = s.hbm := rfl
@[simp] theorem onPart_clks (s : State) (p : Fin 24) (f : Partition → Partition) : (onPart s p f).clks = s.clks := rfl
@[simp] theorem onPart_joins (s : State) (p : Fin 24) (f : Partition → Partition) : (onPart s p f).joins = s.joins := rfl
@[simp] theorem onPart_lag (s : State) (p : Fin 24) (f : Partition → Partition) : (onPart s p f).lag = s.lag := rfl
@[simp] theorem onPart_vbytes (s : State) (p : Fin 24) (f : Partition → Partition) : (onPart s p f).vbytes = s.vbytes := rfl
@[simp] theorem onPart_vlines (s : State) (p : Fin 24) (f : Partition → Partition) : (onPart s p f).vlines = s.vlines := rfl
@[simp] theorem onPart_tags (s : State) (p : Fin 24) (f : Partition → Partition) : (onPart s p f).tags = s.tags := rfl
@[simp] theorem onPart_signals (s : State) (p : Fin 24) (f : Partition → Partition) : (onPart s p f).signals = s.signals := rfl
@[simp] theorem onPart_objs (s : State) (p : Fin 24) (f : Partition → Partition) : (onPart s p f).objs = s.objs := rfl
@[simp] theorem onPart_links (s : State) (p : Fin 24) (f : Partition → Partition) : (onPart s p f).links = s.links := rfl
@[simp] theorem onPart_engWaits (s : State) (p : Fin 24) (f : Partition → Partition) : (onPart s p f).engWaits = s.engWaits := rfl
@[simp] theorem onPart_recWaits (s : State) (p : Fin 24) (f : Partition → Partition) : (onPart s p f).recWaits = s.recWaits := rfl
@[simp] theorem onPart_locks (s : State) (p : Fin 24) (f : Partition → Partition) : (onPart s p f).locks = s.locks := rfl
@[simp] theorem onPart_owned (s : State) (p : Fin 24) (f : Partition → Partition) : (onPart s p f).owned = s.owned := rfl
@[simp] theorem onPart_arrived (s : State) (p : Fin 24) (f : Partition → Partition) : (onPart s p f).arrived = s.arrived := rfl
@[simp] theorem onPart_lost (s : State) (p : Fin 24) (f : Partition → Partition) : (onPart s p f).lost = s.lost := rfl
@[simp] theorem onPart_colls (s : State) (p : Fin 24) (f : Partition → Partition) : (onPart s p f).colls = s.colls := rfl
@[simp] theorem onPart_collGroups (s : State) (p : Fin 24) (f : Partition → Partition) : (onPart s p f).collGroups = s.collGroups := rfl
@[simp] theorem onPart_farMembers (s : State) (p : Fin 24) (f : Partition → Partition) : (onPart s p f).farMembers = s.farMembers := rfl
@[simp] theorem onPart_served (s : State) (p : Fin 24) (f : Partition → Partition) : (onPart s p f).served = s.served := rfl
@[simp] theorem onPart_nextTag (s : State) (p : Fin 24) (f : Partition → Partition) : (onPart s p f).nextTag = s.nextTag := rfl
@[simp] theorem onPart_scrubs (s : State) (p : Fin 24) (f : Partition → Partition) : (onPart s p f).scrubs = s.scrubs := rfl
@[simp] theorem onPart_pkg (s : State) (p : Fin 24) (f : Partition → Partition) : (onPart s p f).pkg = s.pkg := rfl
@[simp] theorem onPart_powered (s : State) (p : Fin 24) (f : Partition → Partition) : (onPart s p f).powered = s.powered := rfl
@[simp] theorem onPart_hostLog (s : State) (p : Fin 24) (f : Partition → Partition) : (onPart s p f).hostLog = s.hostLog := rfl
@[simp] theorem onPart_fabricOut (s : State) (p : Fin 24) (f : Partition → Partition) : (onPart s p f).fabricOut = s.fabricOut := rfl
@[simp] theorem onPart_agenda (s : State) (p : Fin 24) (f : Partition → Partition) : (onPart s p f).agenda = s.agenda := rfl
@[simp] theorem onPart_free (s : State) (p : Fin 24) (f : Partition → Partition) : (onPart s p f).free = s.free := rfl
@[simp] theorem onPart_nextKey (s : State) (p : Fin 24) (f : Partition → Partition) : (onPart s p f).nextKey = s.nextKey := rfl

@[simp] theorem onChan_wave (s : State) (d : Fin 2) (ch : Fin 96) (f : Chan → Chan) : (onChan s d ch f).wave = s.wave := rfl
@[simp] theorem onChan_waves (s : State) (d : Fin 2) (ch : Fin 96) (f : Chan → Chan) : (onChan s d ch f).waves = s.waves := rfl
@[simp] theorem onChan_groups (s : State) (d : Fin 2) (ch : Fin 96) (f : Chan → Chan) : (onChan s d ch f).groups = s.groups := rfl
@[simp] theorem onChan_gangs (s : State) (d : Fin 2) (ch : Fin 96) (f : Chan → Chan) : (onChan s d ch f).gangs = s.gangs := rfl
@[simp] theorem onChan_tasks (s : State) (d : Fin 2) (ch : Fin 96) (f : Chan → Chan) : (onChan s d ch f).tasks = s.tasks := rfl
@[simp] theorem onChan_launches (s : State) (d : Fin 2) (ch : Fin 96) (f : Chan → Chan) : (onChan s d ch f).launches = s.launches := rfl
@[simp] theorem onChan_parts (s : State) (d : Fin 2) (ch : Fin 96) (f : Chan → Chan) : (onChan s d ch f).parts = s.parts := rfl
@[simp] theorem onChan_cores (s : State) (d : Fin 2) (ch : Fin 96) (f : Chan → Chan) : (onChan s d ch f).cores = s.cores := rfl
@[simp] theorem onChan_hbm (s : State) (d : Fin 2) (ch : Fin 96) (f : Chan → Chan) : (onChan s d ch f).hbm = s.hbm := rfl
@[simp] theorem onChan_clks (s : State) (d : Fin 2) (ch : Fin 96) (f : Chan → Chan) : (onChan s d ch f).clks = s.clks := rfl
@[simp] theorem onChan_joins (s : State) (d : Fin 2) (ch : Fin 96) (f : Chan → Chan) : (onChan s d ch f).joins = s.joins := rfl
@[simp] theorem onChan_lag (s : State) (d : Fin 2) (ch : Fin 96) (f : Chan → Chan) : (onChan s d ch f).lag = s.lag := rfl
@[simp] theorem onChan_vbytes (s : State) (d : Fin 2) (ch : Fin 96) (f : Chan → Chan) : (onChan s d ch f).vbytes = s.vbytes := rfl
@[simp] theorem onChan_vlines (s : State) (d : Fin 2) (ch : Fin 96) (f : Chan → Chan) : (onChan s d ch f).vlines = s.vlines := rfl
@[simp] theorem onChan_tags (s : State) (d : Fin 2) (ch : Fin 96) (f : Chan → Chan) : (onChan s d ch f).tags = s.tags := rfl
@[simp] theorem onChan_signals (s : State) (d : Fin 2) (ch : Fin 96) (f : Chan → Chan) : (onChan s d ch f).signals = s.signals := rfl
@[simp] theorem onChan_objs (s : State) (d : Fin 2) (ch : Fin 96) (f : Chan → Chan) : (onChan s d ch f).objs = s.objs := rfl
@[simp] theorem onChan_links (s : State) (d : Fin 2) (ch : Fin 96) (f : Chan → Chan) : (onChan s d ch f).links = s.links := rfl
@[simp] theorem onChan_engWaits (s : State) (d : Fin 2) (ch : Fin 96) (f : Chan → Chan) : (onChan s d ch f).engWaits = s.engWaits := rfl
@[simp] theorem onChan_recWaits (s : State) (d : Fin 2) (ch : Fin 96) (f : Chan → Chan) : (onChan s d ch f).recWaits = s.recWaits := rfl
@[simp] theorem onChan_locks (s : State) (d : Fin 2) (ch : Fin 96) (f : Chan → Chan) : (onChan s d ch f).locks = s.locks := rfl
@[simp] theorem onChan_owned (s : State) (d : Fin 2) (ch : Fin 96) (f : Chan → Chan) : (onChan s d ch f).owned = s.owned := rfl
@[simp] theorem onChan_arrived (s : State) (d : Fin 2) (ch : Fin 96) (f : Chan → Chan) : (onChan s d ch f).arrived = s.arrived := rfl
@[simp] theorem onChan_lost (s : State) (d : Fin 2) (ch : Fin 96) (f : Chan → Chan) : (onChan s d ch f).lost = s.lost := rfl
@[simp] theorem onChan_colls (s : State) (d : Fin 2) (ch : Fin 96) (f : Chan → Chan) : (onChan s d ch f).colls = s.colls := rfl
@[simp] theorem onChan_collGroups (s : State) (d : Fin 2) (ch : Fin 96) (f : Chan → Chan) : (onChan s d ch f).collGroups = s.collGroups := rfl
@[simp] theorem onChan_farMembers (s : State) (d : Fin 2) (ch : Fin 96) (f : Chan → Chan) : (onChan s d ch f).farMembers = s.farMembers := rfl
@[simp] theorem onChan_served (s : State) (d : Fin 2) (ch : Fin 96) (f : Chan → Chan) : (onChan s d ch f).served = s.served := rfl
@[simp] theorem onChan_nextTag (s : State) (d : Fin 2) (ch : Fin 96) (f : Chan → Chan) : (onChan s d ch f).nextTag = s.nextTag := rfl
@[simp] theorem onChan_scrubs (s : State) (d : Fin 2) (ch : Fin 96) (f : Chan → Chan) : (onChan s d ch f).scrubs = s.scrubs := rfl
@[simp] theorem onChan_pkg (s : State) (d : Fin 2) (ch : Fin 96) (f : Chan → Chan) : (onChan s d ch f).pkg = s.pkg := rfl
@[simp] theorem onChan_powered (s : State) (d : Fin 2) (ch : Fin 96) (f : Chan → Chan) : (onChan s d ch f).powered = s.powered := rfl
@[simp] theorem onChan_hostLog (s : State) (d : Fin 2) (ch : Fin 96) (f : Chan → Chan) : (onChan s d ch f).hostLog = s.hostLog := rfl
@[simp] theorem onChan_fabricOut (s : State) (d : Fin 2) (ch : Fin 96) (f : Chan → Chan) : (onChan s d ch f).fabricOut = s.fabricOut := rfl
@[simp] theorem onChan_agenda (s : State) (d : Fin 2) (ch : Fin 96) (f : Chan → Chan) : (onChan s d ch f).agenda = s.agenda := rfl
@[simp] theorem onChan_free (s : State) (d : Fin 2) (ch : Fin 96) (f : Chan → Chan) : (onChan s d ch f).free = s.free := rfl
@[simp] theorem onChan_nextKey (s : State) (d : Fin 2) (ch : Fin 96) (f : Chan → Chan) : (onChan s d ch f).nextKey = s.nextKey := rfl

@[simp] theorem onWave_waves (s : State) (f : Wave → Wave) : (onWave s f).waves = s.waves := rfl
@[simp] theorem onWave_groups (s : State) (f : Wave → Wave) : (onWave s f).groups = s.groups := rfl
@[simp] theorem onWave_gangs (s : State) (f : Wave → Wave) : (onWave s f).gangs = s.gangs := rfl
@[simp] theorem onWave_tasks (s : State) (f : Wave → Wave) : (onWave s f).tasks = s.tasks := rfl
@[simp] theorem onWave_launches (s : State) (f : Wave → Wave) : (onWave s f).launches = s.launches := rfl
@[simp] theorem onWave_parts (s : State) (f : Wave → Wave) : (onWave s f).parts = s.parts := rfl
@[simp] theorem onWave_cores (s : State) (f : Wave → Wave) : (onWave s f).cores = s.cores := rfl
@[simp] theorem onWave_dies (s : State) (f : Wave → Wave) : (onWave s f).dies = s.dies := rfl
@[simp] theorem onWave_hbm (s : State) (f : Wave → Wave) : (onWave s f).hbm = s.hbm := rfl
@[simp] theorem onWave_clks (s : State) (f : Wave → Wave) : (onWave s f).clks = s.clks := rfl
@[simp] theorem onWave_joins (s : State) (f : Wave → Wave) : (onWave s f).joins = s.joins := rfl
@[simp] theorem onWave_lag (s : State) (f : Wave → Wave) : (onWave s f).lag = s.lag := rfl
@[simp] theorem onWave_vbytes (s : State) (f : Wave → Wave) : (onWave s f).vbytes = s.vbytes := rfl
@[simp] theorem onWave_vlines (s : State) (f : Wave → Wave) : (onWave s f).vlines = s.vlines := rfl
@[simp] theorem onWave_tags (s : State) (f : Wave → Wave) : (onWave s f).tags = s.tags := rfl
@[simp] theorem onWave_signals (s : State) (f : Wave → Wave) : (onWave s f).signals = s.signals := rfl
@[simp] theorem onWave_objs (s : State) (f : Wave → Wave) : (onWave s f).objs = s.objs := rfl
@[simp] theorem onWave_links (s : State) (f : Wave → Wave) : (onWave s f).links = s.links := rfl
@[simp] theorem onWave_engWaits (s : State) (f : Wave → Wave) : (onWave s f).engWaits = s.engWaits := rfl
@[simp] theorem onWave_recWaits (s : State) (f : Wave → Wave) : (onWave s f).recWaits = s.recWaits := rfl
@[simp] theorem onWave_locks (s : State) (f : Wave → Wave) : (onWave s f).locks = s.locks := rfl
@[simp] theorem onWave_owned (s : State) (f : Wave → Wave) : (onWave s f).owned = s.owned := rfl
@[simp] theorem onWave_arrived (s : State) (f : Wave → Wave) : (onWave s f).arrived = s.arrived := rfl
@[simp] theorem onWave_lost (s : State) (f : Wave → Wave) : (onWave s f).lost = s.lost := rfl
@[simp] theorem onWave_colls (s : State) (f : Wave → Wave) : (onWave s f).colls = s.colls := rfl
@[simp] theorem onWave_collGroups (s : State) (f : Wave → Wave) : (onWave s f).collGroups = s.collGroups := rfl
@[simp] theorem onWave_farMembers (s : State) (f : Wave → Wave) : (onWave s f).farMembers = s.farMembers := rfl
@[simp] theorem onWave_served (s : State) (f : Wave → Wave) : (onWave s f).served = s.served := rfl
@[simp] theorem onWave_nextTag (s : State) (f : Wave → Wave) : (onWave s f).nextTag = s.nextTag := rfl
@[simp] theorem onWave_scrubs (s : State) (f : Wave → Wave) : (onWave s f).scrubs = s.scrubs := rfl
@[simp] theorem onWave_pkg (s : State) (f : Wave → Wave) : (onWave s f).pkg = s.pkg := rfl
@[simp] theorem onWave_powered (s : State) (f : Wave → Wave) : (onWave s f).powered = s.powered := rfl
@[simp] theorem onWave_hostLog (s : State) (f : Wave → Wave) : (onWave s f).hostLog = s.hostLog := rfl
@[simp] theorem onWave_fabricOut (s : State) (f : Wave → Wave) : (onWave s f).fabricOut = s.fabricOut := rfl
@[simp] theorem onWave_agenda (s : State) (f : Wave → Wave) : (onWave s f).agenda = s.agenda := rfl
@[simp] theorem onWave_free (s : State) (f : Wave → Wave) : (onWave s f).free = s.free := rfl
@[simp] theorem onWave_nextKey (s : State) (f : Wave → Wave) : (onWave s f).nextKey = s.nextKey := rfl

@[simp] theorem onRegs_waves (s : State) (f : Regs → Regs) : (onRegs s f).waves = s.waves := rfl
@[simp] theorem onRegs_groups (s : State) (f : Regs → Regs) : (onRegs s f).groups = s.groups := rfl
@[simp] theorem onRegs_gangs (s : State) (f : Regs → Regs) : (onRegs s f).gangs = s.gangs := rfl
@[simp] theorem onRegs_tasks (s : State) (f : Regs → Regs) : (onRegs s f).tasks = s.tasks := rfl
@[simp] theorem onRegs_launches (s : State) (f : Regs → Regs) : (onRegs s f).launches = s.launches := rfl
@[simp] theorem onRegs_parts (s : State) (f : Regs → Regs) : (onRegs s f).parts = s.parts := rfl
@[simp] theorem onRegs_cores (s : State) (f : Regs → Regs) : (onRegs s f).cores = s.cores := rfl
@[simp] theorem onRegs_dies (s : State) (f : Regs → Regs) : (onRegs s f).dies = s.dies := rfl
@[simp] theorem onRegs_hbm (s : State) (f : Regs → Regs) : (onRegs s f).hbm = s.hbm := rfl
@[simp] theorem onRegs_clks (s : State) (f : Regs → Regs) : (onRegs s f).clks = s.clks := rfl
@[simp] theorem onRegs_joins (s : State) (f : Regs → Regs) : (onRegs s f).joins = s.joins := rfl
@[simp] theorem onRegs_lag (s : State) (f : Regs → Regs) : (onRegs s f).lag = s.lag := rfl
@[simp] theorem onRegs_vbytes (s : State) (f : Regs → Regs) : (onRegs s f).vbytes = s.vbytes := rfl
@[simp] theorem onRegs_vlines (s : State) (f : Regs → Regs) : (onRegs s f).vlines = s.vlines := rfl
@[simp] theorem onRegs_tags (s : State) (f : Regs → Regs) : (onRegs s f).tags = s.tags := rfl
@[simp] theorem onRegs_signals (s : State) (f : Regs → Regs) : (onRegs s f).signals = s.signals := rfl
@[simp] theorem onRegs_objs (s : State) (f : Regs → Regs) : (onRegs s f).objs = s.objs := rfl
@[simp] theorem onRegs_links (s : State) (f : Regs → Regs) : (onRegs s f).links = s.links := rfl
@[simp] theorem onRegs_engWaits (s : State) (f : Regs → Regs) : (onRegs s f).engWaits = s.engWaits := rfl
@[simp] theorem onRegs_recWaits (s : State) (f : Regs → Regs) : (onRegs s f).recWaits = s.recWaits := rfl
@[simp] theorem onRegs_locks (s : State) (f : Regs → Regs) : (onRegs s f).locks = s.locks := rfl
@[simp] theorem onRegs_owned (s : State) (f : Regs → Regs) : (onRegs s f).owned = s.owned := rfl
@[simp] theorem onRegs_arrived (s : State) (f : Regs → Regs) : (onRegs s f).arrived = s.arrived := rfl
@[simp] theorem onRegs_lost (s : State) (f : Regs → Regs) : (onRegs s f).lost = s.lost := rfl
@[simp] theorem onRegs_colls (s : State) (f : Regs → Regs) : (onRegs s f).colls = s.colls := rfl
@[simp] theorem onRegs_collGroups (s : State) (f : Regs → Regs) : (onRegs s f).collGroups = s.collGroups := rfl
@[simp] theorem onRegs_farMembers (s : State) (f : Regs → Regs) : (onRegs s f).farMembers = s.farMembers := rfl
@[simp] theorem onRegs_served (s : State) (f : Regs → Regs) : (onRegs s f).served = s.served := rfl
@[simp] theorem onRegs_nextTag (s : State) (f : Regs → Regs) : (onRegs s f).nextTag = s.nextTag := rfl
@[simp] theorem onRegs_scrubs (s : State) (f : Regs → Regs) : (onRegs s f).scrubs = s.scrubs := rfl
@[simp] theorem onRegs_pkg (s : State) (f : Regs → Regs) : (onRegs s f).pkg = s.pkg := rfl
@[simp] theorem onRegs_powered (s : State) (f : Regs → Regs) : (onRegs s f).powered = s.powered := rfl
@[simp] theorem onRegs_hostLog (s : State) (f : Regs → Regs) : (onRegs s f).hostLog = s.hostLog := rfl
@[simp] theorem onRegs_fabricOut (s : State) (f : Regs → Regs) : (onRegs s f).fabricOut = s.fabricOut := rfl
@[simp] theorem onRegs_agenda (s : State) (f : Regs → Regs) : (onRegs s f).agenda = s.agenda := rfl
@[simp] theorem onRegs_free (s : State) (f : Regs → Regs) : (onRegs s f).free = s.free := rfl
@[simp] theorem onRegs_nextKey (s : State) (f : Regs → Regs) : (onRegs s f).nextKey = s.nextKey := rfl

@[simp] theorem onWaves_groups (s : State) (f : Wave → Wave) : (onWaves s f).groups = s.groups := rfl
@[simp] theorem onWaves_gangs (s : State) (f : Wave → Wave) : (onWaves s f).gangs = s.gangs := rfl
@[simp] theorem onWaves_tasks (s : State) (f : Wave → Wave) : (onWaves s f).tasks = s.tasks := rfl
@[simp] theorem onWaves_launches (s : State) (f : Wave → Wave) : (onWaves s f).launches = s.launches := rfl
@[simp] theorem onWaves_parts (s : State) (f : Wave → Wave) : (onWaves s f).parts = s.parts := rfl
@[simp] theorem onWaves_cores (s : State) (f : Wave → Wave) : (onWaves s f).cores = s.cores := rfl
@[simp] theorem onWaves_dies (s : State) (f : Wave → Wave) : (onWaves s f).dies = s.dies := rfl
@[simp] theorem onWaves_hbm (s : State) (f : Wave → Wave) : (onWaves s f).hbm = s.hbm := rfl
@[simp] theorem onWaves_clks (s : State) (f : Wave → Wave) : (onWaves s f).clks = s.clks := rfl
@[simp] theorem onWaves_joins (s : State) (f : Wave → Wave) : (onWaves s f).joins = s.joins := rfl
@[simp] theorem onWaves_lag (s : State) (f : Wave → Wave) : (onWaves s f).lag = s.lag := rfl
@[simp] theorem onWaves_vbytes (s : State) (f : Wave → Wave) : (onWaves s f).vbytes = s.vbytes := rfl
@[simp] theorem onWaves_vlines (s : State) (f : Wave → Wave) : (onWaves s f).vlines = s.vlines := rfl
@[simp] theorem onWaves_tags (s : State) (f : Wave → Wave) : (onWaves s f).tags = s.tags := rfl
@[simp] theorem onWaves_signals (s : State) (f : Wave → Wave) : (onWaves s f).signals = s.signals := rfl
@[simp] theorem onWaves_objs (s : State) (f : Wave → Wave) : (onWaves s f).objs = s.objs := rfl
@[simp] theorem onWaves_links (s : State) (f : Wave → Wave) : (onWaves s f).links = s.links := rfl
@[simp] theorem onWaves_engWaits (s : State) (f : Wave → Wave) : (onWaves s f).engWaits = s.engWaits := rfl
@[simp] theorem onWaves_recWaits (s : State) (f : Wave → Wave) : (onWaves s f).recWaits = s.recWaits := rfl
@[simp] theorem onWaves_locks (s : State) (f : Wave → Wave) : (onWaves s f).locks = s.locks := rfl
@[simp] theorem onWaves_owned (s : State) (f : Wave → Wave) : (onWaves s f).owned = s.owned := rfl
@[simp] theorem onWaves_arrived (s : State) (f : Wave → Wave) : (onWaves s f).arrived = s.arrived := rfl
@[simp] theorem onWaves_lost (s : State) (f : Wave → Wave) : (onWaves s f).lost = s.lost := rfl
@[simp] theorem onWaves_colls (s : State) (f : Wave → Wave) : (onWaves s f).colls = s.colls := rfl
@[simp] theorem onWaves_collGroups (s : State) (f : Wave → Wave) : (onWaves s f).collGroups = s.collGroups := rfl
@[simp] theorem onWaves_farMembers (s : State) (f : Wave → Wave) : (onWaves s f).farMembers = s.farMembers := rfl
@[simp] theorem onWaves_served (s : State) (f : Wave → Wave) : (onWaves s f).served = s.served := rfl
@[simp] theorem onWaves_nextTag (s : State) (f : Wave → Wave) : (onWaves s f).nextTag = s.nextTag := rfl
@[simp] theorem onWaves_scrubs (s : State) (f : Wave → Wave) : (onWaves s f).scrubs = s.scrubs := rfl
@[simp] theorem onWaves_pkg (s : State) (f : Wave → Wave) : (onWaves s f).pkg = s.pkg := rfl
@[simp] theorem onWaves_powered (s : State) (f : Wave → Wave) : (onWaves s f).powered = s.powered := rfl
@[simp] theorem onWaves_hostLog (s : State) (f : Wave → Wave) : (onWaves s f).hostLog = s.hostLog := rfl
@[simp] theorem onWaves_fabricOut (s : State) (f : Wave → Wave) : (onWaves s f).fabricOut = s.fabricOut := rfl
@[simp] theorem onWaves_agenda (s : State) (f : Wave → Wave) : (onWaves s f).agenda = s.agenda := rfl
@[simp] theorem onWaves_free (s : State) (f : Wave → Wave) : (onWaves s f).free = s.free := rfl
@[simp] theorem onWaves_nextKey (s : State) (f : Wave → Wave) : (onWaves s f).nextKey = s.nextKey := rfl

@[simp] theorem onToken_groups (s : State) (t : W32) (f : Wave → Wave) : (onToken s t f).groups = s.groups := rfl
@[simp] theorem onToken_gangs (s : State) (t : W32) (f : Wave → Wave) : (onToken s t f).gangs = s.gangs := rfl
@[simp] theorem onToken_tasks (s : State) (t : W32) (f : Wave → Wave) : (onToken s t f).tasks = s.tasks := rfl
@[simp] theorem onToken_launches (s : State) (t : W32) (f : Wave → Wave) : (onToken s t f).launches = s.launches := rfl
@[simp] theorem onToken_parts (s : State) (t : W32) (f : Wave → Wave) : (onToken s t f).parts = s.parts := rfl
@[simp] theorem onToken_cores (s : State) (t : W32) (f : Wave → Wave) : (onToken s t f).cores = s.cores := rfl
@[simp] theorem onToken_dies (s : State) (t : W32) (f : Wave → Wave) : (onToken s t f).dies = s.dies := rfl
@[simp] theorem onToken_hbm (s : State) (t : W32) (f : Wave → Wave) : (onToken s t f).hbm = s.hbm := rfl
@[simp] theorem onToken_clks (s : State) (t : W32) (f : Wave → Wave) : (onToken s t f).clks = s.clks := rfl
@[simp] theorem onToken_joins (s : State) (t : W32) (f : Wave → Wave) : (onToken s t f).joins = s.joins := rfl
@[simp] theorem onToken_lag (s : State) (t : W32) (f : Wave → Wave) : (onToken s t f).lag = s.lag := rfl
@[simp] theorem onToken_vbytes (s : State) (t : W32) (f : Wave → Wave) : (onToken s t f).vbytes = s.vbytes := rfl
@[simp] theorem onToken_vlines (s : State) (t : W32) (f : Wave → Wave) : (onToken s t f).vlines = s.vlines := rfl
@[simp] theorem onToken_tags (s : State) (t : W32) (f : Wave → Wave) : (onToken s t f).tags = s.tags := rfl
@[simp] theorem onToken_signals (s : State) (t : W32) (f : Wave → Wave) : (onToken s t f).signals = s.signals := rfl
@[simp] theorem onToken_objs (s : State) (t : W32) (f : Wave → Wave) : (onToken s t f).objs = s.objs := rfl
@[simp] theorem onToken_links (s : State) (t : W32) (f : Wave → Wave) : (onToken s t f).links = s.links := rfl
@[simp] theorem onToken_engWaits (s : State) (t : W32) (f : Wave → Wave) : (onToken s t f).engWaits = s.engWaits := rfl
@[simp] theorem onToken_recWaits (s : State) (t : W32) (f : Wave → Wave) : (onToken s t f).recWaits = s.recWaits := rfl
@[simp] theorem onToken_locks (s : State) (t : W32) (f : Wave → Wave) : (onToken s t f).locks = s.locks := rfl
@[simp] theorem onToken_owned (s : State) (t : W32) (f : Wave → Wave) : (onToken s t f).owned = s.owned := rfl
@[simp] theorem onToken_arrived (s : State) (t : W32) (f : Wave → Wave) : (onToken s t f).arrived = s.arrived := rfl
@[simp] theorem onToken_lost (s : State) (t : W32) (f : Wave → Wave) : (onToken s t f).lost = s.lost := rfl
@[simp] theorem onToken_colls (s : State) (t : W32) (f : Wave → Wave) : (onToken s t f).colls = s.colls := rfl
@[simp] theorem onToken_collGroups (s : State) (t : W32) (f : Wave → Wave) : (onToken s t f).collGroups = s.collGroups := rfl
@[simp] theorem onToken_farMembers (s : State) (t : W32) (f : Wave → Wave) : (onToken s t f).farMembers = s.farMembers := rfl
@[simp] theorem onToken_served (s : State) (t : W32) (f : Wave → Wave) : (onToken s t f).served = s.served := rfl
@[simp] theorem onToken_nextTag (s : State) (t : W32) (f : Wave → Wave) : (onToken s t f).nextTag = s.nextTag := rfl
@[simp] theorem onToken_scrubs (s : State) (t : W32) (f : Wave → Wave) : (onToken s t f).scrubs = s.scrubs := rfl
@[simp] theorem onToken_pkg (s : State) (t : W32) (f : Wave → Wave) : (onToken s t f).pkg = s.pkg := rfl
@[simp] theorem onToken_powered (s : State) (t : W32) (f : Wave → Wave) : (onToken s t f).powered = s.powered := rfl
@[simp] theorem onToken_hostLog (s : State) (t : W32) (f : Wave → Wave) : (onToken s t f).hostLog = s.hostLog := rfl
@[simp] theorem onToken_fabricOut (s : State) (t : W32) (f : Wave → Wave) : (onToken s t f).fabricOut = s.fabricOut := rfl
@[simp] theorem onToken_agenda (s : State) (t : W32) (f : Wave → Wave) : (onToken s t f).agenda = s.agenda := rfl
@[simp] theorem onToken_free (s : State) (t : W32) (f : Wave → Wave) : (onToken s t f).free = s.free := rfl
@[simp] theorem onToken_nextKey (s : State) (t : W32) (f : Wave → Wave) : (onToken s t f).nextKey = s.nextKey := rfl

@[simp] theorem onGroup_wave (s : State) (k : GangKey) (i : Fin 8) (f : Group → Group) : (onGroup s k i f).wave = s.wave := rfl
@[simp] theorem onGroup_waves (s : State) (k : GangKey) (i : Fin 8) (f : Group → Group) : (onGroup s k i f).waves = s.waves := rfl
@[simp] theorem onGroup_gangs (s : State) (k : GangKey) (i : Fin 8) (f : Group → Group) : (onGroup s k i f).gangs = s.gangs := rfl
@[simp] theorem onGroup_tasks (s : State) (k : GangKey) (i : Fin 8) (f : Group → Group) : (onGroup s k i f).tasks = s.tasks := rfl
@[simp] theorem onGroup_launches (s : State) (k : GangKey) (i : Fin 8) (f : Group → Group) : (onGroup s k i f).launches = s.launches := rfl
@[simp] theorem onGroup_parts (s : State) (k : GangKey) (i : Fin 8) (f : Group → Group) : (onGroup s k i f).parts = s.parts := rfl
@[simp] theorem onGroup_cores (s : State) (k : GangKey) (i : Fin 8) (f : Group → Group) : (onGroup s k i f).cores = s.cores := rfl
@[simp] theorem onGroup_dies (s : State) (k : GangKey) (i : Fin 8) (f : Group → Group) : (onGroup s k i f).dies = s.dies := rfl
@[simp] theorem onGroup_hbm (s : State) (k : GangKey) (i : Fin 8) (f : Group → Group) : (onGroup s k i f).hbm = s.hbm := rfl
@[simp] theorem onGroup_clks (s : State) (k : GangKey) (i : Fin 8) (f : Group → Group) : (onGroup s k i f).clks = s.clks := rfl
@[simp] theorem onGroup_joins (s : State) (k : GangKey) (i : Fin 8) (f : Group → Group) : (onGroup s k i f).joins = s.joins := rfl
@[simp] theorem onGroup_lag (s : State) (k : GangKey) (i : Fin 8) (f : Group → Group) : (onGroup s k i f).lag = s.lag := rfl
@[simp] theorem onGroup_vbytes (s : State) (k : GangKey) (i : Fin 8) (f : Group → Group) : (onGroup s k i f).vbytes = s.vbytes := rfl
@[simp] theorem onGroup_vlines (s : State) (k : GangKey) (i : Fin 8) (f : Group → Group) : (onGroup s k i f).vlines = s.vlines := rfl
@[simp] theorem onGroup_tags (s : State) (k : GangKey) (i : Fin 8) (f : Group → Group) : (onGroup s k i f).tags = s.tags := rfl
@[simp] theorem onGroup_signals (s : State) (k : GangKey) (i : Fin 8) (f : Group → Group) : (onGroup s k i f).signals = s.signals := rfl
@[simp] theorem onGroup_objs (s : State) (k : GangKey) (i : Fin 8) (f : Group → Group) : (onGroup s k i f).objs = s.objs := rfl
@[simp] theorem onGroup_links (s : State) (k : GangKey) (i : Fin 8) (f : Group → Group) : (onGroup s k i f).links = s.links := rfl
@[simp] theorem onGroup_engWaits (s : State) (k : GangKey) (i : Fin 8) (f : Group → Group) : (onGroup s k i f).engWaits = s.engWaits := rfl
@[simp] theorem onGroup_recWaits (s : State) (k : GangKey) (i : Fin 8) (f : Group → Group) : (onGroup s k i f).recWaits = s.recWaits := rfl
@[simp] theorem onGroup_locks (s : State) (k : GangKey) (i : Fin 8) (f : Group → Group) : (onGroup s k i f).locks = s.locks := rfl
@[simp] theorem onGroup_owned (s : State) (k : GangKey) (i : Fin 8) (f : Group → Group) : (onGroup s k i f).owned = s.owned := rfl
@[simp] theorem onGroup_arrived (s : State) (k : GangKey) (i : Fin 8) (f : Group → Group) : (onGroup s k i f).arrived = s.arrived := rfl
@[simp] theorem onGroup_lost (s : State) (k : GangKey) (i : Fin 8) (f : Group → Group) : (onGroup s k i f).lost = s.lost := rfl
@[simp] theorem onGroup_colls (s : State) (k : GangKey) (i : Fin 8) (f : Group → Group) : (onGroup s k i f).colls = s.colls := rfl
@[simp] theorem onGroup_collGroups (s : State) (k : GangKey) (i : Fin 8) (f : Group → Group) : (onGroup s k i f).collGroups = s.collGroups := rfl
@[simp] theorem onGroup_farMembers (s : State) (k : GangKey) (i : Fin 8) (f : Group → Group) : (onGroup s k i f).farMembers = s.farMembers := rfl
@[simp] theorem onGroup_served (s : State) (k : GangKey) (i : Fin 8) (f : Group → Group) : (onGroup s k i f).served = s.served := rfl
@[simp] theorem onGroup_nextTag (s : State) (k : GangKey) (i : Fin 8) (f : Group → Group) : (onGroup s k i f).nextTag = s.nextTag := rfl
@[simp] theorem onGroup_scrubs (s : State) (k : GangKey) (i : Fin 8) (f : Group → Group) : (onGroup s k i f).scrubs = s.scrubs := rfl
@[simp] theorem onGroup_pkg (s : State) (k : GangKey) (i : Fin 8) (f : Group → Group) : (onGroup s k i f).pkg = s.pkg := rfl
@[simp] theorem onGroup_powered (s : State) (k : GangKey) (i : Fin 8) (f : Group → Group) : (onGroup s k i f).powered = s.powered := rfl
@[simp] theorem onGroup_hostLog (s : State) (k : GangKey) (i : Fin 8) (f : Group → Group) : (onGroup s k i f).hostLog = s.hostLog := rfl
@[simp] theorem onGroup_fabricOut (s : State) (k : GangKey) (i : Fin 8) (f : Group → Group) : (onGroup s k i f).fabricOut = s.fabricOut := rfl
@[simp] theorem onGroup_agenda (s : State) (k : GangKey) (i : Fin 8) (f : Group → Group) : (onGroup s k i f).agenda = s.agenda := rfl
@[simp] theorem onGroup_free (s : State) (k : GangKey) (i : Fin 8) (f : Group → Group) : (onGroup s k i f).free = s.free := rfl
@[simp] theorem onGroup_nextKey (s : State) (k : GangKey) (i : Fin 8) (f : Group → Group) : (onGroup s k i f).nextKey = s.nextKey := rfl

@[simp] theorem onGang_wave (s : State) (k : GangKey) (f : Gang → Gang) : (onGang s k f).wave = s.wave := rfl
@[simp] theorem onGang_waves (s : State) (k : GangKey) (f : Gang → Gang) : (onGang s k f).waves = s.waves := rfl
@[simp] theorem onGang_groups (s : State) (k : GangKey) (f : Gang → Gang) : (onGang s k f).groups = s.groups := rfl
@[simp] theorem onGang_tasks (s : State) (k : GangKey) (f : Gang → Gang) : (onGang s k f).tasks = s.tasks := rfl
@[simp] theorem onGang_launches (s : State) (k : GangKey) (f : Gang → Gang) : (onGang s k f).launches = s.launches := rfl
@[simp] theorem onGang_parts (s : State) (k : GangKey) (f : Gang → Gang) : (onGang s k f).parts = s.parts := rfl
@[simp] theorem onGang_cores (s : State) (k : GangKey) (f : Gang → Gang) : (onGang s k f).cores = s.cores := rfl
@[simp] theorem onGang_dies (s : State) (k : GangKey) (f : Gang → Gang) : (onGang s k f).dies = s.dies := rfl
@[simp] theorem onGang_hbm (s : State) (k : GangKey) (f : Gang → Gang) : (onGang s k f).hbm = s.hbm := rfl
@[simp] theorem onGang_clks (s : State) (k : GangKey) (f : Gang → Gang) : (onGang s k f).clks = s.clks := rfl
@[simp] theorem onGang_joins (s : State) (k : GangKey) (f : Gang → Gang) : (onGang s k f).joins = s.joins := rfl
@[simp] theorem onGang_lag (s : State) (k : GangKey) (f : Gang → Gang) : (onGang s k f).lag = s.lag := rfl
@[simp] theorem onGang_vbytes (s : State) (k : GangKey) (f : Gang → Gang) : (onGang s k f).vbytes = s.vbytes := rfl
@[simp] theorem onGang_vlines (s : State) (k : GangKey) (f : Gang → Gang) : (onGang s k f).vlines = s.vlines := rfl
@[simp] theorem onGang_tags (s : State) (k : GangKey) (f : Gang → Gang) : (onGang s k f).tags = s.tags := rfl
@[simp] theorem onGang_signals (s : State) (k : GangKey) (f : Gang → Gang) : (onGang s k f).signals = s.signals := rfl
@[simp] theorem onGang_objs (s : State) (k : GangKey) (f : Gang → Gang) : (onGang s k f).objs = s.objs := rfl
@[simp] theorem onGang_links (s : State) (k : GangKey) (f : Gang → Gang) : (onGang s k f).links = s.links := rfl
@[simp] theorem onGang_engWaits (s : State) (k : GangKey) (f : Gang → Gang) : (onGang s k f).engWaits = s.engWaits := rfl
@[simp] theorem onGang_recWaits (s : State) (k : GangKey) (f : Gang → Gang) : (onGang s k f).recWaits = s.recWaits := rfl
@[simp] theorem onGang_locks (s : State) (k : GangKey) (f : Gang → Gang) : (onGang s k f).locks = s.locks := rfl
@[simp] theorem onGang_owned (s : State) (k : GangKey) (f : Gang → Gang) : (onGang s k f).owned = s.owned := rfl
@[simp] theorem onGang_arrived (s : State) (k : GangKey) (f : Gang → Gang) : (onGang s k f).arrived = s.arrived := rfl
@[simp] theorem onGang_lost (s : State) (k : GangKey) (f : Gang → Gang) : (onGang s k f).lost = s.lost := rfl
@[simp] theorem onGang_colls (s : State) (k : GangKey) (f : Gang → Gang) : (onGang s k f).colls = s.colls := rfl
@[simp] theorem onGang_collGroups (s : State) (k : GangKey) (f : Gang → Gang) : (onGang s k f).collGroups = s.collGroups := rfl
@[simp] theorem onGang_farMembers (s : State) (k : GangKey) (f : Gang → Gang) : (onGang s k f).farMembers = s.farMembers := rfl
@[simp] theorem onGang_served (s : State) (k : GangKey) (f : Gang → Gang) : (onGang s k f).served = s.served := rfl
@[simp] theorem onGang_nextTag (s : State) (k : GangKey) (f : Gang → Gang) : (onGang s k f).nextTag = s.nextTag := rfl
@[simp] theorem onGang_scrubs (s : State) (k : GangKey) (f : Gang → Gang) : (onGang s k f).scrubs = s.scrubs := rfl
@[simp] theorem onGang_pkg (s : State) (k : GangKey) (f : Gang → Gang) : (onGang s k f).pkg = s.pkg := rfl
@[simp] theorem onGang_powered (s : State) (k : GangKey) (f : Gang → Gang) : (onGang s k f).powered = s.powered := rfl
@[simp] theorem onGang_hostLog (s : State) (k : GangKey) (f : Gang → Gang) : (onGang s k f).hostLog = s.hostLog := rfl
@[simp] theorem onGang_fabricOut (s : State) (k : GangKey) (f : Gang → Gang) : (onGang s k f).fabricOut = s.fabricOut := rfl
@[simp] theorem onGang_agenda (s : State) (k : GangKey) (f : Gang → Gang) : (onGang s k f).agenda = s.agenda := rfl
@[simp] theorem onGang_free (s : State) (k : GangKey) (f : Gang → Gang) : (onGang s k f).free = s.free := rfl
@[simp] theorem onGang_nextKey (s : State) (k : GangKey) (f : Gang → Gang) : (onGang s k f).nextKey = s.nextKey := rfl

@[simp] theorem onTask_wave (s : State) (t : W64) (p : Fin 24) (f : Task → Task) : (onTask s t p f).wave = s.wave := rfl
@[simp] theorem onTask_waves (s : State) (t : W64) (p : Fin 24) (f : Task → Task) : (onTask s t p f).waves = s.waves := rfl
@[simp] theorem onTask_groups (s : State) (t : W64) (p : Fin 24) (f : Task → Task) : (onTask s t p f).groups = s.groups := rfl
@[simp] theorem onTask_gangs (s : State) (t : W64) (p : Fin 24) (f : Task → Task) : (onTask s t p f).gangs = s.gangs := rfl
@[simp] theorem onTask_launches (s : State) (t : W64) (p : Fin 24) (f : Task → Task) : (onTask s t p f).launches = s.launches := rfl
@[simp] theorem onTask_parts (s : State) (t : W64) (p : Fin 24) (f : Task → Task) : (onTask s t p f).parts = s.parts := rfl
@[simp] theorem onTask_cores (s : State) (t : W64) (p : Fin 24) (f : Task → Task) : (onTask s t p f).cores = s.cores := rfl
@[simp] theorem onTask_dies (s : State) (t : W64) (p : Fin 24) (f : Task → Task) : (onTask s t p f).dies = s.dies := rfl
@[simp] theorem onTask_hbm (s : State) (t : W64) (p : Fin 24) (f : Task → Task) : (onTask s t p f).hbm = s.hbm := rfl
@[simp] theorem onTask_clks (s : State) (t : W64) (p : Fin 24) (f : Task → Task) : (onTask s t p f).clks = s.clks := rfl
@[simp] theorem onTask_joins (s : State) (t : W64) (p : Fin 24) (f : Task → Task) : (onTask s t p f).joins = s.joins := rfl
@[simp] theorem onTask_lag (s : State) (t : W64) (p : Fin 24) (f : Task → Task) : (onTask s t p f).lag = s.lag := rfl
@[simp] theorem onTask_vbytes (s : State) (t : W64) (p : Fin 24) (f : Task → Task) : (onTask s t p f).vbytes = s.vbytes := rfl
@[simp] theorem onTask_vlines (s : State) (t : W64) (p : Fin 24) (f : Task → Task) : (onTask s t p f).vlines = s.vlines := rfl
@[simp] theorem onTask_tags (s : State) (t : W64) (p : Fin 24) (f : Task → Task) : (onTask s t p f).tags = s.tags := rfl
@[simp] theorem onTask_signals (s : State) (t : W64) (p : Fin 24) (f : Task → Task) : (onTask s t p f).signals = s.signals := rfl
@[simp] theorem onTask_objs (s : State) (t : W64) (p : Fin 24) (f : Task → Task) : (onTask s t p f).objs = s.objs := rfl
@[simp] theorem onTask_links (s : State) (t : W64) (p : Fin 24) (f : Task → Task) : (onTask s t p f).links = s.links := rfl
@[simp] theorem onTask_engWaits (s : State) (t : W64) (p : Fin 24) (f : Task → Task) : (onTask s t p f).engWaits = s.engWaits := rfl
@[simp] theorem onTask_recWaits (s : State) (t : W64) (p : Fin 24) (f : Task → Task) : (onTask s t p f).recWaits = s.recWaits := rfl
@[simp] theorem onTask_locks (s : State) (t : W64) (p : Fin 24) (f : Task → Task) : (onTask s t p f).locks = s.locks := rfl
@[simp] theorem onTask_owned (s : State) (t : W64) (p : Fin 24) (f : Task → Task) : (onTask s t p f).owned = s.owned := rfl
@[simp] theorem onTask_arrived (s : State) (t : W64) (p : Fin 24) (f : Task → Task) : (onTask s t p f).arrived = s.arrived := rfl
@[simp] theorem onTask_lost (s : State) (t : W64) (p : Fin 24) (f : Task → Task) : (onTask s t p f).lost = s.lost := rfl
@[simp] theorem onTask_colls (s : State) (t : W64) (p : Fin 24) (f : Task → Task) : (onTask s t p f).colls = s.colls := rfl
@[simp] theorem onTask_collGroups (s : State) (t : W64) (p : Fin 24) (f : Task → Task) : (onTask s t p f).collGroups = s.collGroups := rfl
@[simp] theorem onTask_farMembers (s : State) (t : W64) (p : Fin 24) (f : Task → Task) : (onTask s t p f).farMembers = s.farMembers := rfl
@[simp] theorem onTask_served (s : State) (t : W64) (p : Fin 24) (f : Task → Task) : (onTask s t p f).served = s.served := rfl
@[simp] theorem onTask_nextTag (s : State) (t : W64) (p : Fin 24) (f : Task → Task) : (onTask s t p f).nextTag = s.nextTag := rfl
@[simp] theorem onTask_scrubs (s : State) (t : W64) (p : Fin 24) (f : Task → Task) : (onTask s t p f).scrubs = s.scrubs := rfl
@[simp] theorem onTask_pkg (s : State) (t : W64) (p : Fin 24) (f : Task → Task) : (onTask s t p f).pkg = s.pkg := rfl
@[simp] theorem onTask_powered (s : State) (t : W64) (p : Fin 24) (f : Task → Task) : (onTask s t p f).powered = s.powered := rfl
@[simp] theorem onTask_hostLog (s : State) (t : W64) (p : Fin 24) (f : Task → Task) : (onTask s t p f).hostLog = s.hostLog := rfl
@[simp] theorem onTask_fabricOut (s : State) (t : W64) (p : Fin 24) (f : Task → Task) : (onTask s t p f).fabricOut = s.fabricOut := rfl
@[simp] theorem onTask_agenda (s : State) (t : W64) (p : Fin 24) (f : Task → Task) : (onTask s t p f).agenda = s.agenda := rfl
@[simp] theorem onTask_free (s : State) (t : W64) (p : Fin 24) (f : Task → Task) : (onTask s t p f).free = s.free := rfl
@[simp] theorem onTask_nextKey (s : State) (t : W64) (p : Fin 24) (f : Task → Task) : (onTask s t p f).nextKey = s.nextKey := rfl

@[simp] theorem onLaunch_wave (s : State) (k : Nat) (f : Launch → Launch) : (onLaunch s k f).wave = s.wave := rfl
@[simp] theorem onLaunch_waves (s : State) (k : Nat) (f : Launch → Launch) : (onLaunch s k f).waves = s.waves := rfl
@[simp] theorem onLaunch_groups (s : State) (k : Nat) (f : Launch → Launch) : (onLaunch s k f).groups = s.groups := rfl
@[simp] theorem onLaunch_gangs (s : State) (k : Nat) (f : Launch → Launch) : (onLaunch s k f).gangs = s.gangs := rfl
@[simp] theorem onLaunch_tasks (s : State) (k : Nat) (f : Launch → Launch) : (onLaunch s k f).tasks = s.tasks := rfl
@[simp] theorem onLaunch_parts (s : State) (k : Nat) (f : Launch → Launch) : (onLaunch s k f).parts = s.parts := rfl
@[simp] theorem onLaunch_cores (s : State) (k : Nat) (f : Launch → Launch) : (onLaunch s k f).cores = s.cores := rfl
@[simp] theorem onLaunch_dies (s : State) (k : Nat) (f : Launch → Launch) : (onLaunch s k f).dies = s.dies := rfl
@[simp] theorem onLaunch_hbm (s : State) (k : Nat) (f : Launch → Launch) : (onLaunch s k f).hbm = s.hbm := rfl
@[simp] theorem onLaunch_clks (s : State) (k : Nat) (f : Launch → Launch) : (onLaunch s k f).clks = s.clks := rfl
@[simp] theorem onLaunch_joins (s : State) (k : Nat) (f : Launch → Launch) : (onLaunch s k f).joins = s.joins := rfl
@[simp] theorem onLaunch_lag (s : State) (k : Nat) (f : Launch → Launch) : (onLaunch s k f).lag = s.lag := rfl
@[simp] theorem onLaunch_vbytes (s : State) (k : Nat) (f : Launch → Launch) : (onLaunch s k f).vbytes = s.vbytes := rfl
@[simp] theorem onLaunch_vlines (s : State) (k : Nat) (f : Launch → Launch) : (onLaunch s k f).vlines = s.vlines := rfl
@[simp] theorem onLaunch_tags (s : State) (k : Nat) (f : Launch → Launch) : (onLaunch s k f).tags = s.tags := rfl
@[simp] theorem onLaunch_signals (s : State) (k : Nat) (f : Launch → Launch) : (onLaunch s k f).signals = s.signals := rfl
@[simp] theorem onLaunch_objs (s : State) (k : Nat) (f : Launch → Launch) : (onLaunch s k f).objs = s.objs := rfl
@[simp] theorem onLaunch_links (s : State) (k : Nat) (f : Launch → Launch) : (onLaunch s k f).links = s.links := rfl
@[simp] theorem onLaunch_engWaits (s : State) (k : Nat) (f : Launch → Launch) : (onLaunch s k f).engWaits = s.engWaits := rfl
@[simp] theorem onLaunch_recWaits (s : State) (k : Nat) (f : Launch → Launch) : (onLaunch s k f).recWaits = s.recWaits := rfl
@[simp] theorem onLaunch_locks (s : State) (k : Nat) (f : Launch → Launch) : (onLaunch s k f).locks = s.locks := rfl
@[simp] theorem onLaunch_owned (s : State) (k : Nat) (f : Launch → Launch) : (onLaunch s k f).owned = s.owned := rfl
@[simp] theorem onLaunch_arrived (s : State) (k : Nat) (f : Launch → Launch) : (onLaunch s k f).arrived = s.arrived := rfl
@[simp] theorem onLaunch_lost (s : State) (k : Nat) (f : Launch → Launch) : (onLaunch s k f).lost = s.lost := rfl
@[simp] theorem onLaunch_colls (s : State) (k : Nat) (f : Launch → Launch) : (onLaunch s k f).colls = s.colls := rfl
@[simp] theorem onLaunch_collGroups (s : State) (k : Nat) (f : Launch → Launch) : (onLaunch s k f).collGroups = s.collGroups := rfl
@[simp] theorem onLaunch_farMembers (s : State) (k : Nat) (f : Launch → Launch) : (onLaunch s k f).farMembers = s.farMembers := rfl
@[simp] theorem onLaunch_served (s : State) (k : Nat) (f : Launch → Launch) : (onLaunch s k f).served = s.served := rfl
@[simp] theorem onLaunch_nextTag (s : State) (k : Nat) (f : Launch → Launch) : (onLaunch s k f).nextTag = s.nextTag := rfl
@[simp] theorem onLaunch_scrubs (s : State) (k : Nat) (f : Launch → Launch) : (onLaunch s k f).scrubs = s.scrubs := rfl
@[simp] theorem onLaunch_pkg (s : State) (k : Nat) (f : Launch → Launch) : (onLaunch s k f).pkg = s.pkg := rfl
@[simp] theorem onLaunch_powered (s : State) (k : Nat) (f : Launch → Launch) : (onLaunch s k f).powered = s.powered := rfl
@[simp] theorem onLaunch_hostLog (s : State) (k : Nat) (f : Launch → Launch) : (onLaunch s k f).hostLog = s.hostLog := rfl
@[simp] theorem onLaunch_fabricOut (s : State) (k : Nat) (f : Launch → Launch) : (onLaunch s k f).fabricOut = s.fabricOut := rfl
@[simp] theorem onLaunch_agenda (s : State) (k : Nat) (f : Launch → Launch) : (onLaunch s k f).agenda = s.agenda := rfl
@[simp] theorem onLaunch_free (s : State) (k : Nat) (f : Launch → Launch) : (onLaunch s k f).free = s.free := rfl
@[simp] theorem onLaunch_nextKey (s : State) (k : Nat) (f : Launch → Launch) : (onLaunch s k f).nextKey = s.nextKey := rfl

@[simp] theorem tellHost_wave (s : State) (m : HostMsg) : (tellHost s m).wave = s.wave := rfl
@[simp] theorem tellHost_waves (s : State) (m : HostMsg) : (tellHost s m).waves = s.waves := rfl
@[simp] theorem tellHost_groups (s : State) (m : HostMsg) : (tellHost s m).groups = s.groups := rfl
@[simp] theorem tellHost_gangs (s : State) (m : HostMsg) : (tellHost s m).gangs = s.gangs := rfl
@[simp] theorem tellHost_tasks (s : State) (m : HostMsg) : (tellHost s m).tasks = s.tasks := rfl
@[simp] theorem tellHost_launches (s : State) (m : HostMsg) : (tellHost s m).launches = s.launches := rfl
@[simp] theorem tellHost_parts (s : State) (m : HostMsg) : (tellHost s m).parts = s.parts := rfl
@[simp] theorem tellHost_cores (s : State) (m : HostMsg) : (tellHost s m).cores = s.cores := rfl
@[simp] theorem tellHost_dies (s : State) (m : HostMsg) : (tellHost s m).dies = s.dies := rfl
@[simp] theorem tellHost_hbm (s : State) (m : HostMsg) : (tellHost s m).hbm = s.hbm := rfl
@[simp] theorem tellHost_clks (s : State) (m : HostMsg) : (tellHost s m).clks = s.clks := rfl
@[simp] theorem tellHost_joins (s : State) (m : HostMsg) : (tellHost s m).joins = s.joins := rfl
@[simp] theorem tellHost_lag (s : State) (m : HostMsg) : (tellHost s m).lag = s.lag := rfl
@[simp] theorem tellHost_vbytes (s : State) (m : HostMsg) : (tellHost s m).vbytes = s.vbytes := rfl
@[simp] theorem tellHost_vlines (s : State) (m : HostMsg) : (tellHost s m).vlines = s.vlines := rfl
@[simp] theorem tellHost_tags (s : State) (m : HostMsg) : (tellHost s m).tags = s.tags := rfl
@[simp] theorem tellHost_signals (s : State) (m : HostMsg) : (tellHost s m).signals = s.signals := rfl
@[simp] theorem tellHost_objs (s : State) (m : HostMsg) : (tellHost s m).objs = s.objs := rfl
@[simp] theorem tellHost_links (s : State) (m : HostMsg) : (tellHost s m).links = s.links := rfl
@[simp] theorem tellHost_engWaits (s : State) (m : HostMsg) : (tellHost s m).engWaits = s.engWaits := rfl
@[simp] theorem tellHost_recWaits (s : State) (m : HostMsg) : (tellHost s m).recWaits = s.recWaits := rfl
@[simp] theorem tellHost_locks (s : State) (m : HostMsg) : (tellHost s m).locks = s.locks := rfl
@[simp] theorem tellHost_owned (s : State) (m : HostMsg) : (tellHost s m).owned = s.owned := rfl
@[simp] theorem tellHost_arrived (s : State) (m : HostMsg) : (tellHost s m).arrived = s.arrived := rfl
@[simp] theorem tellHost_lost (s : State) (m : HostMsg) : (tellHost s m).lost = s.lost := rfl
@[simp] theorem tellHost_colls (s : State) (m : HostMsg) : (tellHost s m).colls = s.colls := rfl
@[simp] theorem tellHost_collGroups (s : State) (m : HostMsg) : (tellHost s m).collGroups = s.collGroups := rfl
@[simp] theorem tellHost_farMembers (s : State) (m : HostMsg) : (tellHost s m).farMembers = s.farMembers := rfl
@[simp] theorem tellHost_served (s : State) (m : HostMsg) : (tellHost s m).served = s.served := rfl
@[simp] theorem tellHost_nextTag (s : State) (m : HostMsg) : (tellHost s m).nextTag = s.nextTag := rfl
@[simp] theorem tellHost_scrubs (s : State) (m : HostMsg) : (tellHost s m).scrubs = s.scrubs := rfl
@[simp] theorem tellHost_pkg (s : State) (m : HostMsg) : (tellHost s m).pkg = s.pkg := rfl
@[simp] theorem tellHost_powered (s : State) (m : HostMsg) : (tellHost s m).powered = s.powered := rfl
@[simp] theorem tellHost_fabricOut (s : State) (m : HostMsg) : (tellHost s m).fabricOut = s.fabricOut := rfl
@[simp] theorem tellHost_agenda (s : State) (m : HostMsg) : (tellHost s m).agenda = s.agenda := rfl
@[simp] theorem tellHost_free (s : State) (m : HostMsg) : (tellHost s m).free = s.free := rfl
@[simp] theorem tellHost_nextKey (s : State) (m : HostMsg) : (tellHost s m).nextKey = s.nextKey := rfl

@[simp] theorem report_wave (s : State) (p : Option (Fin 24)) (g : Nat) (c : Cause) (x : Nat) : (report s p g c x).wave = s.wave := rfl
@[simp] theorem report_waves (s : State) (p : Option (Fin 24)) (g : Nat) (c : Cause) (x : Nat) : (report s p g c x).waves = s.waves := rfl
@[simp] theorem report_groups (s : State) (p : Option (Fin 24)) (g : Nat) (c : Cause) (x : Nat) : (report s p g c x).groups = s.groups := rfl
@[simp] theorem report_gangs (s : State) (p : Option (Fin 24)) (g : Nat) (c : Cause) (x : Nat) : (report s p g c x).gangs = s.gangs := rfl
@[simp] theorem report_tasks (s : State) (p : Option (Fin 24)) (g : Nat) (c : Cause) (x : Nat) : (report s p g c x).tasks = s.tasks := rfl
@[simp] theorem report_launches (s : State) (p : Option (Fin 24)) (g : Nat) (c : Cause) (x : Nat) : (report s p g c x).launches = s.launches := rfl
@[simp] theorem report_parts (s : State) (p : Option (Fin 24)) (g : Nat) (c : Cause) (x : Nat) : (report s p g c x).parts = s.parts := rfl
@[simp] theorem report_cores (s : State) (p : Option (Fin 24)) (g : Nat) (c : Cause) (x : Nat) : (report s p g c x).cores = s.cores := rfl
@[simp] theorem report_dies (s : State) (p : Option (Fin 24)) (g : Nat) (c : Cause) (x : Nat) : (report s p g c x).dies = s.dies := rfl
@[simp] theorem report_hbm (s : State) (p : Option (Fin 24)) (g : Nat) (c : Cause) (x : Nat) : (report s p g c x).hbm = s.hbm := rfl
@[simp] theorem report_clks (s : State) (p : Option (Fin 24)) (g : Nat) (c : Cause) (x : Nat) : (report s p g c x).clks = s.clks := rfl
@[simp] theorem report_joins (s : State) (p : Option (Fin 24)) (g : Nat) (c : Cause) (x : Nat) : (report s p g c x).joins = s.joins := rfl
@[simp] theorem report_lag (s : State) (p : Option (Fin 24)) (g : Nat) (c : Cause) (x : Nat) : (report s p g c x).lag = s.lag := rfl
@[simp] theorem report_vbytes (s : State) (p : Option (Fin 24)) (g : Nat) (c : Cause) (x : Nat) : (report s p g c x).vbytes = s.vbytes := rfl
@[simp] theorem report_vlines (s : State) (p : Option (Fin 24)) (g : Nat) (c : Cause) (x : Nat) : (report s p g c x).vlines = s.vlines := rfl
@[simp] theorem report_tags (s : State) (p : Option (Fin 24)) (g : Nat) (c : Cause) (x : Nat) : (report s p g c x).tags = s.tags := rfl
@[simp] theorem report_signals (s : State) (p : Option (Fin 24)) (g : Nat) (c : Cause) (x : Nat) : (report s p g c x).signals = s.signals := rfl
@[simp] theorem report_objs (s : State) (p : Option (Fin 24)) (g : Nat) (c : Cause) (x : Nat) : (report s p g c x).objs = s.objs := rfl
@[simp] theorem report_links (s : State) (p : Option (Fin 24)) (g : Nat) (c : Cause) (x : Nat) : (report s p g c x).links = s.links := rfl
@[simp] theorem report_engWaits (s : State) (p : Option (Fin 24)) (g : Nat) (c : Cause) (x : Nat) : (report s p g c x).engWaits = s.engWaits := rfl
@[simp] theorem report_recWaits (s : State) (p : Option (Fin 24)) (g : Nat) (c : Cause) (x : Nat) : (report s p g c x).recWaits = s.recWaits := rfl
@[simp] theorem report_locks (s : State) (p : Option (Fin 24)) (g : Nat) (c : Cause) (x : Nat) : (report s p g c x).locks = s.locks := rfl
@[simp] theorem report_owned (s : State) (p : Option (Fin 24)) (g : Nat) (c : Cause) (x : Nat) : (report s p g c x).owned = s.owned := rfl
@[simp] theorem report_arrived (s : State) (p : Option (Fin 24)) (g : Nat) (c : Cause) (x : Nat) : (report s p g c x).arrived = s.arrived := rfl
@[simp] theorem report_lost (s : State) (p : Option (Fin 24)) (g : Nat) (c : Cause) (x : Nat) : (report s p g c x).lost = s.lost := rfl
@[simp] theorem report_colls (s : State) (p : Option (Fin 24)) (g : Nat) (c : Cause) (x : Nat) : (report s p g c x).colls = s.colls := rfl
@[simp] theorem report_collGroups (s : State) (p : Option (Fin 24)) (g : Nat) (c : Cause) (x : Nat) : (report s p g c x).collGroups = s.collGroups := rfl
@[simp] theorem report_farMembers (s : State) (p : Option (Fin 24)) (g : Nat) (c : Cause) (x : Nat) : (report s p g c x).farMembers = s.farMembers := rfl
@[simp] theorem report_served (s : State) (p : Option (Fin 24)) (g : Nat) (c : Cause) (x : Nat) : (report s p g c x).served = s.served := rfl
@[simp] theorem report_nextTag (s : State) (p : Option (Fin 24)) (g : Nat) (c : Cause) (x : Nat) : (report s p g c x).nextTag = s.nextTag := rfl
@[simp] theorem report_scrubs (s : State) (p : Option (Fin 24)) (g : Nat) (c : Cause) (x : Nat) : (report s p g c x).scrubs = s.scrubs := rfl
@[simp] theorem report_pkg (s : State) (p : Option (Fin 24)) (g : Nat) (c : Cause) (x : Nat) : (report s p g c x).pkg = s.pkg := rfl
@[simp] theorem report_powered (s : State) (p : Option (Fin 24)) (g : Nat) (c : Cause) (x : Nat) : (report s p g c x).powered = s.powered := rfl
@[simp] theorem report_fabricOut (s : State) (p : Option (Fin 24)) (g : Nat) (c : Cause) (x : Nat) : (report s p g c x).fabricOut = s.fabricOut := rfl
@[simp] theorem report_agenda (s : State) (p : Option (Fin 24)) (g : Nat) (c : Cause) (x : Nat) : (report s p g c x).agenda = s.agenda := rfl
@[simp] theorem report_free (s : State) (p : Option (Fin 24)) (g : Nat) (c : Cause) (x : Nat) : (report s p g c x).free = s.free := rfl
@[simp] theorem report_nextKey (s : State) (p : Option (Fin 24)) (g : Nat) (c : Cause) (x : Nat) : (report s p g c x).nextKey = s.nextKey := rfl

@[simp] theorem stall_waves (s : State) : (stall s).waves = s.waves := rfl
@[simp] theorem stall_groups (s : State) : (stall s).groups = s.groups := rfl
@[simp] theorem stall_gangs (s : State) : (stall s).gangs = s.gangs := rfl
@[simp] theorem stall_tasks (s : State) : (stall s).tasks = s.tasks := rfl
@[simp] theorem stall_launches (s : State) : (stall s).launches = s.launches := rfl
@[simp] theorem stall_parts (s : State) : (stall s).parts = s.parts := rfl
@[simp] theorem stall_cores (s : State) : (stall s).cores = s.cores := rfl
@[simp] theorem stall_dies (s : State) : (stall s).dies = s.dies := rfl
@[simp] theorem stall_hbm (s : State) : (stall s).hbm = s.hbm := rfl
@[simp] theorem stall_clks (s : State) : (stall s).clks = s.clks := rfl
@[simp] theorem stall_joins (s : State) : (stall s).joins = s.joins := rfl
@[simp] theorem stall_lag (s : State) : (stall s).lag = s.lag := rfl
@[simp] theorem stall_vbytes (s : State) : (stall s).vbytes = s.vbytes := rfl
@[simp] theorem stall_vlines (s : State) : (stall s).vlines = s.vlines := rfl
@[simp] theorem stall_tags (s : State) : (stall s).tags = s.tags := rfl
@[simp] theorem stall_signals (s : State) : (stall s).signals = s.signals := rfl
@[simp] theorem stall_objs (s : State) : (stall s).objs = s.objs := rfl
@[simp] theorem stall_links (s : State) : (stall s).links = s.links := rfl
@[simp] theorem stall_engWaits (s : State) : (stall s).engWaits = s.engWaits := rfl
@[simp] theorem stall_recWaits (s : State) : (stall s).recWaits = s.recWaits := rfl
@[simp] theorem stall_locks (s : State) : (stall s).locks = s.locks := rfl
@[simp] theorem stall_owned (s : State) : (stall s).owned = s.owned := rfl
@[simp] theorem stall_arrived (s : State) : (stall s).arrived = s.arrived := rfl
@[simp] theorem stall_lost (s : State) : (stall s).lost = s.lost := rfl
@[simp] theorem stall_colls (s : State) : (stall s).colls = s.colls := rfl
@[simp] theorem stall_collGroups (s : State) : (stall s).collGroups = s.collGroups := rfl
@[simp] theorem stall_farMembers (s : State) : (stall s).farMembers = s.farMembers := rfl
@[simp] theorem stall_served (s : State) : (stall s).served = s.served := rfl
@[simp] theorem stall_nextTag (s : State) : (stall s).nextTag = s.nextTag := rfl
@[simp] theorem stall_scrubs (s : State) : (stall s).scrubs = s.scrubs := rfl
@[simp] theorem stall_pkg (s : State) : (stall s).pkg = s.pkg := rfl
@[simp] theorem stall_powered (s : State) : (stall s).powered = s.powered := rfl
@[simp] theorem stall_hostLog (s : State) : (stall s).hostLog = s.hostLog := rfl
@[simp] theorem stall_fabricOut (s : State) : (stall s).fabricOut = s.fabricOut := rfl
@[simp] theorem stall_agenda (s : State) : (stall s).agenda = s.agenda := rfl
@[simp] theorem stall_free (s : State) : (stall s).free = s.free := rfl
@[simp] theorem stall_nextKey (s : State) : (stall s).nextKey = s.nextKey := rfl

@[simp] theorem retireWave_waves (s : State) (n : Nat) : (retireWave s n).waves = s.waves := rfl
@[simp] theorem retireWave_groups (s : State) (n : Nat) : (retireWave s n).groups = s.groups := rfl
@[simp] theorem retireWave_gangs (s : State) (n : Nat) : (retireWave s n).gangs = s.gangs := rfl
@[simp] theorem retireWave_tasks (s : State) (n : Nat) : (retireWave s n).tasks = s.tasks := rfl
@[simp] theorem retireWave_launches (s : State) (n : Nat) : (retireWave s n).launches = s.launches := rfl
@[simp] theorem retireWave_parts (s : State) (n : Nat) : (retireWave s n).parts = s.parts := rfl
@[simp] theorem retireWave_cores (s : State) (n : Nat) : (retireWave s n).cores = s.cores := rfl
@[simp] theorem retireWave_dies (s : State) (n : Nat) : (retireWave s n).dies = s.dies := rfl
@[simp] theorem retireWave_hbm (s : State) (n : Nat) : (retireWave s n).hbm = s.hbm := rfl
@[simp] theorem retireWave_clks (s : State) (n : Nat) : (retireWave s n).clks = s.clks := rfl
@[simp] theorem retireWave_joins (s : State) (n : Nat) : (retireWave s n).joins = s.joins := rfl
@[simp] theorem retireWave_lag (s : State) (n : Nat) : (retireWave s n).lag = s.lag := rfl
@[simp] theorem retireWave_vbytes (s : State) (n : Nat) : (retireWave s n).vbytes = s.vbytes := rfl
@[simp] theorem retireWave_vlines (s : State) (n : Nat) : (retireWave s n).vlines = s.vlines := rfl
@[simp] theorem retireWave_tags (s : State) (n : Nat) : (retireWave s n).tags = s.tags := rfl
@[simp] theorem retireWave_signals (s : State) (n : Nat) : (retireWave s n).signals = s.signals := rfl
@[simp] theorem retireWave_objs (s : State) (n : Nat) : (retireWave s n).objs = s.objs := rfl
@[simp] theorem retireWave_links (s : State) (n : Nat) : (retireWave s n).links = s.links := rfl
@[simp] theorem retireWave_engWaits (s : State) (n : Nat) : (retireWave s n).engWaits = s.engWaits := rfl
@[simp] theorem retireWave_recWaits (s : State) (n : Nat) : (retireWave s n).recWaits = s.recWaits := rfl
@[simp] theorem retireWave_locks (s : State) (n : Nat) : (retireWave s n).locks = s.locks := rfl
@[simp] theorem retireWave_owned (s : State) (n : Nat) : (retireWave s n).owned = s.owned := rfl
@[simp] theorem retireWave_arrived (s : State) (n : Nat) : (retireWave s n).arrived = s.arrived := rfl
@[simp] theorem retireWave_lost (s : State) (n : Nat) : (retireWave s n).lost = s.lost := rfl
@[simp] theorem retireWave_colls (s : State) (n : Nat) : (retireWave s n).colls = s.colls := rfl
@[simp] theorem retireWave_collGroups (s : State) (n : Nat) : (retireWave s n).collGroups = s.collGroups := rfl
@[simp] theorem retireWave_farMembers (s : State) (n : Nat) : (retireWave s n).farMembers = s.farMembers := rfl
@[simp] theorem retireWave_served (s : State) (n : Nat) : (retireWave s n).served = s.served := rfl
@[simp] theorem retireWave_nextTag (s : State) (n : Nat) : (retireWave s n).nextTag = s.nextTag := rfl
@[simp] theorem retireWave_scrubs (s : State) (n : Nat) : (retireWave s n).scrubs = s.scrubs := rfl
@[simp] theorem retireWave_pkg (s : State) (n : Nat) : (retireWave s n).pkg = s.pkg := rfl
@[simp] theorem retireWave_powered (s : State) (n : Nat) : (retireWave s n).powered = s.powered := rfl
@[simp] theorem retireWave_hostLog (s : State) (n : Nat) : (retireWave s n).hostLog = s.hostLog := rfl
@[simp] theorem retireWave_fabricOut (s : State) (n : Nat) : (retireWave s n).fabricOut = s.fabricOut := rfl
@[simp] theorem retireWave_agenda (s : State) (n : Nat) : (retireWave s n).agenda = s.agenda := rfl
@[simp] theorem retireWave_free (s : State) (n : Nat) : (retireWave s n).free = s.free := rfl
@[simp] theorem retireWave_nextKey (s : State) (n : Nat) : (retireWave s n).nextKey = s.nextKey := rfl

@[simp] theorem touchL2_wave (s : State) (d : Fin 2) (line : Nat) (cls : Option (Fin 3)) : (touchL2 s d line cls).wave = s.wave := rfl
@[simp] theorem touchL2_waves (s : State) (d : Fin 2) (line : Nat) (cls : Option (Fin 3)) : (touchL2 s d line cls).waves = s.waves := rfl
@[simp] theorem touchL2_groups (s : State) (d : Fin 2) (line : Nat) (cls : Option (Fin 3)) : (touchL2 s d line cls).groups = s.groups := rfl
@[simp] theorem touchL2_gangs (s : State) (d : Fin 2) (line : Nat) (cls : Option (Fin 3)) : (touchL2 s d line cls).gangs = s.gangs := rfl
@[simp] theorem touchL2_tasks (s : State) (d : Fin 2) (line : Nat) (cls : Option (Fin 3)) : (touchL2 s d line cls).tasks = s.tasks := rfl
@[simp] theorem touchL2_launches (s : State) (d : Fin 2) (line : Nat) (cls : Option (Fin 3)) : (touchL2 s d line cls).launches = s.launches := rfl
@[simp] theorem touchL2_parts (s : State) (d : Fin 2) (line : Nat) (cls : Option (Fin 3)) : (touchL2 s d line cls).parts = s.parts := rfl
@[simp] theorem touchL2_cores (s : State) (d : Fin 2) (line : Nat) (cls : Option (Fin 3)) : (touchL2 s d line cls).cores = s.cores := rfl
@[simp] theorem touchL2_hbm (s : State) (d : Fin 2) (line : Nat) (cls : Option (Fin 3)) : (touchL2 s d line cls).hbm = s.hbm := rfl
@[simp] theorem touchL2_clks (s : State) (d : Fin 2) (line : Nat) (cls : Option (Fin 3)) : (touchL2 s d line cls).clks = s.clks := rfl
@[simp] theorem touchL2_joins (s : State) (d : Fin 2) (line : Nat) (cls : Option (Fin 3)) : (touchL2 s d line cls).joins = s.joins := rfl
@[simp] theorem touchL2_lag (s : State) (d : Fin 2) (line : Nat) (cls : Option (Fin 3)) : (touchL2 s d line cls).lag = s.lag := rfl
@[simp] theorem touchL2_vbytes (s : State) (d : Fin 2) (line : Nat) (cls : Option (Fin 3)) : (touchL2 s d line cls).vbytes = s.vbytes := rfl
@[simp] theorem touchL2_vlines (s : State) (d : Fin 2) (line : Nat) (cls : Option (Fin 3)) : (touchL2 s d line cls).vlines = s.vlines := rfl
@[simp] theorem touchL2_tags (s : State) (d : Fin 2) (line : Nat) (cls : Option (Fin 3)) : (touchL2 s d line cls).tags = s.tags := rfl
@[simp] theorem touchL2_signals (s : State) (d : Fin 2) (line : Nat) (cls : Option (Fin 3)) : (touchL2 s d line cls).signals = s.signals := rfl
@[simp] theorem touchL2_objs (s : State) (d : Fin 2) (line : Nat) (cls : Option (Fin 3)) : (touchL2 s d line cls).objs = s.objs := rfl
@[simp] theorem touchL2_links (s : State) (d : Fin 2) (line : Nat) (cls : Option (Fin 3)) : (touchL2 s d line cls).links = s.links := rfl
@[simp] theorem touchL2_engWaits (s : State) (d : Fin 2) (line : Nat) (cls : Option (Fin 3)) : (touchL2 s d line cls).engWaits = s.engWaits := rfl
@[simp] theorem touchL2_recWaits (s : State) (d : Fin 2) (line : Nat) (cls : Option (Fin 3)) : (touchL2 s d line cls).recWaits = s.recWaits := rfl
@[simp] theorem touchL2_locks (s : State) (d : Fin 2) (line : Nat) (cls : Option (Fin 3)) : (touchL2 s d line cls).locks = s.locks := rfl
@[simp] theorem touchL2_owned (s : State) (d : Fin 2) (line : Nat) (cls : Option (Fin 3)) : (touchL2 s d line cls).owned = s.owned := rfl
@[simp] theorem touchL2_arrived (s : State) (d : Fin 2) (line : Nat) (cls : Option (Fin 3)) : (touchL2 s d line cls).arrived = s.arrived := rfl
@[simp] theorem touchL2_lost (s : State) (d : Fin 2) (line : Nat) (cls : Option (Fin 3)) : (touchL2 s d line cls).lost = s.lost := rfl
@[simp] theorem touchL2_colls (s : State) (d : Fin 2) (line : Nat) (cls : Option (Fin 3)) : (touchL2 s d line cls).colls = s.colls := rfl
@[simp] theorem touchL2_collGroups (s : State) (d : Fin 2) (line : Nat) (cls : Option (Fin 3)) : (touchL2 s d line cls).collGroups = s.collGroups := rfl
@[simp] theorem touchL2_farMembers (s : State) (d : Fin 2) (line : Nat) (cls : Option (Fin 3)) : (touchL2 s d line cls).farMembers = s.farMembers := rfl
@[simp] theorem touchL2_served (s : State) (d : Fin 2) (line : Nat) (cls : Option (Fin 3)) : (touchL2 s d line cls).served = s.served := rfl
@[simp] theorem touchL2_nextTag (s : State) (d : Fin 2) (line : Nat) (cls : Option (Fin 3)) : (touchL2 s d line cls).nextTag = s.nextTag := rfl
@[simp] theorem touchL2_scrubs (s : State) (d : Fin 2) (line : Nat) (cls : Option (Fin 3)) : (touchL2 s d line cls).scrubs = s.scrubs := rfl
@[simp] theorem touchL2_pkg (s : State) (d : Fin 2) (line : Nat) (cls : Option (Fin 3)) : (touchL2 s d line cls).pkg = s.pkg := rfl
@[simp] theorem touchL2_powered (s : State) (d : Fin 2) (line : Nat) (cls : Option (Fin 3)) : (touchL2 s d line cls).powered = s.powered := rfl
@[simp] theorem touchL2_hostLog (s : State) (d : Fin 2) (line : Nat) (cls : Option (Fin 3)) : (touchL2 s d line cls).hostLog = s.hostLog := rfl
@[simp] theorem touchL2_fabricOut (s : State) (d : Fin 2) (line : Nat) (cls : Option (Fin 3)) : (touchL2 s d line cls).fabricOut = s.fabricOut := rfl
@[simp] theorem touchL2_agenda (s : State) (d : Fin 2) (line : Nat) (cls : Option (Fin 3)) : (touchL2 s d line cls).agenda = s.agenda := rfl
@[simp] theorem touchL2_free (s : State) (d : Fin 2) (line : Nat) (cls : Option (Fin 3)) : (touchL2 s d line cls).free = s.free := rfl
@[simp] theorem touchL2_nextKey (s : State) (d : Fin 2) (line : Nat) (cls : Option (Fin 3)) : (touchL2 s d line cls).nextKey = s.nextKey := rfl

@[simp] theorem noteLine_wave (s : State) (c : Fin 192) (k : Option GangKey) (x : Fin 2 × Nat) : (noteLine s c k x).wave = s.wave := rfl
@[simp] theorem noteLine_waves (s : State) (c : Fin 192) (k : Option GangKey) (x : Fin 2 × Nat) : (noteLine s c k x).waves = s.waves := rfl
@[simp] theorem noteLine_groups (s : State) (c : Fin 192) (k : Option GangKey) (x : Fin 2 × Nat) : (noteLine s c k x).groups = s.groups := rfl
@[simp] theorem noteLine_gangs (s : State) (c : Fin 192) (k : Option GangKey) (x : Fin 2 × Nat) : (noteLine s c k x).gangs = s.gangs := rfl
@[simp] theorem noteLine_launches (s : State) (c : Fin 192) (k : Option GangKey) (x : Fin 2 × Nat) : (noteLine s c k x).launches = s.launches := rfl
@[simp] theorem noteLine_parts (s : State) (c : Fin 192) (k : Option GangKey) (x : Fin 2 × Nat) : (noteLine s c k x).parts = s.parts := rfl
@[simp] theorem noteLine_cores (s : State) (c : Fin 192) (k : Option GangKey) (x : Fin 2 × Nat) : (noteLine s c k x).cores = s.cores := rfl
@[simp] theorem noteLine_dies (s : State) (c : Fin 192) (k : Option GangKey) (x : Fin 2 × Nat) : (noteLine s c k x).dies = s.dies := rfl
@[simp] theorem noteLine_hbm (s : State) (c : Fin 192) (k : Option GangKey) (x : Fin 2 × Nat) : (noteLine s c k x).hbm = s.hbm := rfl
@[simp] theorem noteLine_clks (s : State) (c : Fin 192) (k : Option GangKey) (x : Fin 2 × Nat) : (noteLine s c k x).clks = s.clks := rfl
@[simp] theorem noteLine_joins (s : State) (c : Fin 192) (k : Option GangKey) (x : Fin 2 × Nat) : (noteLine s c k x).joins = s.joins := rfl
@[simp] theorem noteLine_lag (s : State) (c : Fin 192) (k : Option GangKey) (x : Fin 2 × Nat) : (noteLine s c k x).lag = s.lag := rfl
@[simp] theorem noteLine_vbytes (s : State) (c : Fin 192) (k : Option GangKey) (x : Fin 2 × Nat) : (noteLine s c k x).vbytes = s.vbytes := rfl
@[simp] theorem noteLine_vlines (s : State) (c : Fin 192) (k : Option GangKey) (x : Fin 2 × Nat) : (noteLine s c k x).vlines = s.vlines := rfl
@[simp] theorem noteLine_tags (s : State) (c : Fin 192) (k : Option GangKey) (x : Fin 2 × Nat) : (noteLine s c k x).tags = s.tags := rfl
@[simp] theorem noteLine_signals (s : State) (c : Fin 192) (k : Option GangKey) (x : Fin 2 × Nat) : (noteLine s c k x).signals = s.signals := rfl
@[simp] theorem noteLine_objs (s : State) (c : Fin 192) (k : Option GangKey) (x : Fin 2 × Nat) : (noteLine s c k x).objs = s.objs := rfl
@[simp] theorem noteLine_links (s : State) (c : Fin 192) (k : Option GangKey) (x : Fin 2 × Nat) : (noteLine s c k x).links = s.links := rfl
@[simp] theorem noteLine_engWaits (s : State) (c : Fin 192) (k : Option GangKey) (x : Fin 2 × Nat) : (noteLine s c k x).engWaits = s.engWaits := rfl
@[simp] theorem noteLine_recWaits (s : State) (c : Fin 192) (k : Option GangKey) (x : Fin 2 × Nat) : (noteLine s c k x).recWaits = s.recWaits := rfl
@[simp] theorem noteLine_locks (s : State) (c : Fin 192) (k : Option GangKey) (x : Fin 2 × Nat) : (noteLine s c k x).locks = s.locks := rfl
@[simp] theorem noteLine_owned (s : State) (c : Fin 192) (k : Option GangKey) (x : Fin 2 × Nat) : (noteLine s c k x).owned = s.owned := rfl
@[simp] theorem noteLine_arrived (s : State) (c : Fin 192) (k : Option GangKey) (x : Fin 2 × Nat) : (noteLine s c k x).arrived = s.arrived := rfl
@[simp] theorem noteLine_lost (s : State) (c : Fin 192) (k : Option GangKey) (x : Fin 2 × Nat) : (noteLine s c k x).lost = s.lost := rfl
@[simp] theorem noteLine_colls (s : State) (c : Fin 192) (k : Option GangKey) (x : Fin 2 × Nat) : (noteLine s c k x).colls = s.colls := rfl
@[simp] theorem noteLine_collGroups (s : State) (c : Fin 192) (k : Option GangKey) (x : Fin 2 × Nat) : (noteLine s c k x).collGroups = s.collGroups := rfl
@[simp] theorem noteLine_farMembers (s : State) (c : Fin 192) (k : Option GangKey) (x : Fin 2 × Nat) : (noteLine s c k x).farMembers = s.farMembers := rfl
@[simp] theorem noteLine_served (s : State) (c : Fin 192) (k : Option GangKey) (x : Fin 2 × Nat) : (noteLine s c k x).served = s.served := rfl
@[simp] theorem noteLine_nextTag (s : State) (c : Fin 192) (k : Option GangKey) (x : Fin 2 × Nat) : (noteLine s c k x).nextTag = s.nextTag := rfl
@[simp] theorem noteLine_scrubs (s : State) (c : Fin 192) (k : Option GangKey) (x : Fin 2 × Nat) : (noteLine s c k x).scrubs = s.scrubs := rfl
@[simp] theorem noteLine_pkg (s : State) (c : Fin 192) (k : Option GangKey) (x : Fin 2 × Nat) : (noteLine s c k x).pkg = s.pkg := rfl
@[simp] theorem noteLine_powered (s : State) (c : Fin 192) (k : Option GangKey) (x : Fin 2 × Nat) : (noteLine s c k x).powered = s.powered := rfl
@[simp] theorem noteLine_hostLog (s : State) (c : Fin 192) (k : Option GangKey) (x : Fin 2 × Nat) : (noteLine s c k x).hostLog = s.hostLog := rfl
@[simp] theorem noteLine_fabricOut (s : State) (c : Fin 192) (k : Option GangKey) (x : Fin 2 × Nat) : (noteLine s c k x).fabricOut = s.fabricOut := rfl
@[simp] theorem noteLine_agenda (s : State) (c : Fin 192) (k : Option GangKey) (x : Fin 2 × Nat) : (noteLine s c k x).agenda = s.agenda := rfl
@[simp] theorem noteLine_free (s : State) (c : Fin 192) (k : Option GangKey) (x : Fin 2 × Nat) : (noteLine s c k x).free = s.free := rfl
@[simp] theorem noteLine_nextKey (s : State) (c : Fin 192) (k : Option GangKey) (x : Fin 2 × Nat) : (noteLine s c k x).nextKey = s.nextKey := rfl

@[simp] theorem onPipe_wave (s : State) (k : Nat) (f : Pipe → Pipe) : (onPipe s k f).wave = s.wave := rfl
@[simp] theorem onPipe_waves (s : State) (k : Nat) (f : Pipe → Pipe) : (onPipe s k f).waves = s.waves := rfl
@[simp] theorem onPipe_groups (s : State) (k : Nat) (f : Pipe → Pipe) : (onPipe s k f).groups = s.groups := rfl
@[simp] theorem onPipe_gangs (s : State) (k : Nat) (f : Pipe → Pipe) : (onPipe s k f).gangs = s.gangs := rfl
@[simp] theorem onPipe_tasks (s : State) (k : Nat) (f : Pipe → Pipe) : (onPipe s k f).tasks = s.tasks := rfl
@[simp] theorem onPipe_parts (s : State) (k : Nat) (f : Pipe → Pipe) : (onPipe s k f).parts = s.parts := rfl
@[simp] theorem onPipe_cores (s : State) (k : Nat) (f : Pipe → Pipe) : (onPipe s k f).cores = s.cores := rfl
@[simp] theorem onPipe_dies (s : State) (k : Nat) (f : Pipe → Pipe) : (onPipe s k f).dies = s.dies := rfl
@[simp] theorem onPipe_hbm (s : State) (k : Nat) (f : Pipe → Pipe) : (onPipe s k f).hbm = s.hbm := rfl
@[simp] theorem onPipe_clks (s : State) (k : Nat) (f : Pipe → Pipe) : (onPipe s k f).clks = s.clks := rfl
@[simp] theorem onPipe_joins (s : State) (k : Nat) (f : Pipe → Pipe) : (onPipe s k f).joins = s.joins := rfl
@[simp] theorem onPipe_lag (s : State) (k : Nat) (f : Pipe → Pipe) : (onPipe s k f).lag = s.lag := rfl
@[simp] theorem onPipe_vbytes (s : State) (k : Nat) (f : Pipe → Pipe) : (onPipe s k f).vbytes = s.vbytes := rfl
@[simp] theorem onPipe_vlines (s : State) (k : Nat) (f : Pipe → Pipe) : (onPipe s k f).vlines = s.vlines := rfl
@[simp] theorem onPipe_tags (s : State) (k : Nat) (f : Pipe → Pipe) : (onPipe s k f).tags = s.tags := rfl
@[simp] theorem onPipe_signals (s : State) (k : Nat) (f : Pipe → Pipe) : (onPipe s k f).signals = s.signals := rfl
@[simp] theorem onPipe_objs (s : State) (k : Nat) (f : Pipe → Pipe) : (onPipe s k f).objs = s.objs := rfl
@[simp] theorem onPipe_links (s : State) (k : Nat) (f : Pipe → Pipe) : (onPipe s k f).links = s.links := rfl
@[simp] theorem onPipe_engWaits (s : State) (k : Nat) (f : Pipe → Pipe) : (onPipe s k f).engWaits = s.engWaits := rfl
@[simp] theorem onPipe_recWaits (s : State) (k : Nat) (f : Pipe → Pipe) : (onPipe s k f).recWaits = s.recWaits := rfl
@[simp] theorem onPipe_locks (s : State) (k : Nat) (f : Pipe → Pipe) : (onPipe s k f).locks = s.locks := rfl
@[simp] theorem onPipe_owned (s : State) (k : Nat) (f : Pipe → Pipe) : (onPipe s k f).owned = s.owned := rfl
@[simp] theorem onPipe_arrived (s : State) (k : Nat) (f : Pipe → Pipe) : (onPipe s k f).arrived = s.arrived := rfl
@[simp] theorem onPipe_lost (s : State) (k : Nat) (f : Pipe → Pipe) : (onPipe s k f).lost = s.lost := rfl
@[simp] theorem onPipe_colls (s : State) (k : Nat) (f : Pipe → Pipe) : (onPipe s k f).colls = s.colls := rfl
@[simp] theorem onPipe_collGroups (s : State) (k : Nat) (f : Pipe → Pipe) : (onPipe s k f).collGroups = s.collGroups := rfl
@[simp] theorem onPipe_farMembers (s : State) (k : Nat) (f : Pipe → Pipe) : (onPipe s k f).farMembers = s.farMembers := rfl
@[simp] theorem onPipe_served (s : State) (k : Nat) (f : Pipe → Pipe) : (onPipe s k f).served = s.served := rfl
@[simp] theorem onPipe_nextTag (s : State) (k : Nat) (f : Pipe → Pipe) : (onPipe s k f).nextTag = s.nextTag := rfl
@[simp] theorem onPipe_scrubs (s : State) (k : Nat) (f : Pipe → Pipe) : (onPipe s k f).scrubs = s.scrubs := rfl
@[simp] theorem onPipe_pkg (s : State) (k : Nat) (f : Pipe → Pipe) : (onPipe s k f).pkg = s.pkg := rfl
@[simp] theorem onPipe_powered (s : State) (k : Nat) (f : Pipe → Pipe) : (onPipe s k f).powered = s.powered := rfl
@[simp] theorem onPipe_hostLog (s : State) (k : Nat) (f : Pipe → Pipe) : (onPipe s k f).hostLog = s.hostLog := rfl
@[simp] theorem onPipe_fabricOut (s : State) (k : Nat) (f : Pipe → Pipe) : (onPipe s k f).fabricOut = s.fabricOut := rfl
@[simp] theorem onPipe_agenda (s : State) (k : Nat) (f : Pipe → Pipe) : (onPipe s k f).agenda = s.agenda := rfl
@[simp] theorem onPipe_free (s : State) (k : Nat) (f : Pipe → Pipe) : (onPipe s k f).free = s.free := rfl
@[simp] theorem onPipe_nextKey (s : State) (k : Nat) (f : Pipe → Pipe) : (onPipe s k f).nextKey = s.nextKey := rfl

@[simp] theorem stampUnit_wave (s : State) (core : Option (Fin 192)) (t : W32) (v : Clk) (b : List (Nat × W8)) :
    (stampUnit s core t v b).1.wave = s.wave := by
  unfold stampUnit; split <;> rfl
@[simp] theorem stampUnit_waves (s : State) (core : Option (Fin 192)) (t : W32) (v : Clk) (b : List (Nat × W8)) :
    (stampUnit s core t v b).1.waves = s.waves := by
  unfold stampUnit; split <;> rfl
@[simp] theorem stampUnit_groups (s : State) (core : Option (Fin 192)) (t : W32) (v : Clk) (b : List (Nat × W8)) :
    (stampUnit s core t v b).1.groups = s.groups := by
  unfold stampUnit; split <;> rfl
@[simp] theorem stampUnit_gangs (s : State) (core : Option (Fin 192)) (t : W32) (v : Clk) (b : List (Nat × W8)) :
    (stampUnit s core t v b).1.gangs = s.gangs := by
  unfold stampUnit; split <;> rfl
@[simp] theorem stampUnit_tasks (s : State) (core : Option (Fin 192)) (t : W32) (v : Clk) (b : List (Nat × W8)) :
    (stampUnit s core t v b).1.tasks = s.tasks := by
  unfold stampUnit; split <;> rfl
@[simp] theorem stampUnit_launches (s : State) (core : Option (Fin 192)) (t : W32) (v : Clk) (b : List (Nat × W8)) :
    (stampUnit s core t v b).1.launches = s.launches := by
  unfold stampUnit; split <;> rfl
@[simp] theorem stampUnit_parts (s : State) (core : Option (Fin 192)) (t : W32) (v : Clk) (b : List (Nat × W8)) :
    (stampUnit s core t v b).1.parts = s.parts := by
  unfold stampUnit; split <;> rfl
@[simp] theorem stampUnit_cores (s : State) (core : Option (Fin 192)) (t : W32) (v : Clk) (b : List (Nat × W8)) :
    (stampUnit s core t v b).1.cores = s.cores := by
  unfold stampUnit; split <;> rfl
@[simp] theorem stampUnit_vbytes (s : State) (core : Option (Fin 192)) (t : W32) (v : Clk) (b : List (Nat × W8)) :
    (stampUnit s core t v b).1.vbytes = s.vbytes := by
  unfold stampUnit; split <;> rfl
@[simp] theorem stampUnit_vlines (s : State) (core : Option (Fin 192)) (t : W32) (v : Clk) (b : List (Nat × W8)) :
    (stampUnit s core t v b).1.vlines = s.vlines := by
  unfold stampUnit; split <;> rfl
@[simp] theorem stampUnit_tags (s : State) (core : Option (Fin 192)) (t : W32) (v : Clk) (b : List (Nat × W8)) :
    (stampUnit s core t v b).1.tags = s.tags := by
  unfold stampUnit; split <;> rfl
@[simp] theorem stampUnit_signals (s : State) (core : Option (Fin 192)) (t : W32) (v : Clk) (b : List (Nat × W8)) :
    (stampUnit s core t v b).1.signals = s.signals := by
  unfold stampUnit; split <;> rfl
@[simp] theorem stampUnit_objs (s : State) (core : Option (Fin 192)) (t : W32) (v : Clk) (b : List (Nat × W8)) :
    (stampUnit s core t v b).1.objs = s.objs := by
  unfold stampUnit; split <;> rfl
@[simp] theorem stampUnit_links (s : State) (core : Option (Fin 192)) (t : W32) (v : Clk) (b : List (Nat × W8)) :
    (stampUnit s core t v b).1.links = s.links := by
  unfold stampUnit; split <;> rfl
@[simp] theorem stampUnit_engWaits (s : State) (core : Option (Fin 192)) (t : W32) (v : Clk) (b : List (Nat × W8)) :
    (stampUnit s core t v b).1.engWaits = s.engWaits := by
  unfold stampUnit; split <;> rfl
@[simp] theorem stampUnit_recWaits (s : State) (core : Option (Fin 192)) (t : W32) (v : Clk) (b : List (Nat × W8)) :
    (stampUnit s core t v b).1.recWaits = s.recWaits := by
  unfold stampUnit; split <;> rfl
@[simp] theorem stampUnit_locks (s : State) (core : Option (Fin 192)) (t : W32) (v : Clk) (b : List (Nat × W8)) :
    (stampUnit s core t v b).1.locks = s.locks := by
  unfold stampUnit; split <;> rfl
@[simp] theorem stampUnit_owned (s : State) (core : Option (Fin 192)) (t : W32) (v : Clk) (b : List (Nat × W8)) :
    (stampUnit s core t v b).1.owned = s.owned := by
  unfold stampUnit; split <;> rfl
@[simp] theorem stampUnit_arrived (s : State) (core : Option (Fin 192)) (t : W32) (v : Clk) (b : List (Nat × W8)) :
    (stampUnit s core t v b).1.arrived = s.arrived := by
  unfold stampUnit; split <;> rfl
@[simp] theorem stampUnit_colls (s : State) (core : Option (Fin 192)) (t : W32) (v : Clk) (b : List (Nat × W8)) :
    (stampUnit s core t v b).1.colls = s.colls := by
  unfold stampUnit; split <;> rfl
@[simp] theorem stampUnit_collGroups (s : State) (core : Option (Fin 192)) (t : W32) (v : Clk) (b : List (Nat × W8)) :
    (stampUnit s core t v b).1.collGroups = s.collGroups := by
  unfold stampUnit; split <;> rfl
@[simp] theorem stampUnit_farMembers (s : State) (core : Option (Fin 192)) (t : W32) (v : Clk) (b : List (Nat × W8)) :
    (stampUnit s core t v b).1.farMembers = s.farMembers := by
  unfold stampUnit; split <;> rfl
@[simp] theorem stampUnit_served (s : State) (core : Option (Fin 192)) (t : W32) (v : Clk) (b : List (Nat × W8)) :
    (stampUnit s core t v b).1.served = s.served := by
  unfold stampUnit; split <;> rfl
@[simp] theorem stampUnit_nextTag (s : State) (core : Option (Fin 192)) (t : W32) (v : Clk) (b : List (Nat × W8)) :
    (stampUnit s core t v b).1.nextTag = s.nextTag := by
  unfold stampUnit; split <;> rfl
@[simp] theorem stampUnit_scrubs (s : State) (core : Option (Fin 192)) (t : W32) (v : Clk) (b : List (Nat × W8)) :
    (stampUnit s core t v b).1.scrubs = s.scrubs := by
  unfold stampUnit; split <;> rfl
@[simp] theorem stampUnit_pkg (s : State) (core : Option (Fin 192)) (t : W32) (v : Clk) (b : List (Nat × W8)) :
    (stampUnit s core t v b).1.pkg = s.pkg := by
  unfold stampUnit; split <;> rfl
@[simp] theorem stampUnit_powered (s : State) (core : Option (Fin 192)) (t : W32) (v : Clk) (b : List (Nat × W8)) :
    (stampUnit s core t v b).1.powered = s.powered := by
  unfold stampUnit; split <;> rfl
@[simp] theorem stampUnit_hostLog (s : State) (core : Option (Fin 192)) (t : W32) (v : Clk) (b : List (Nat × W8)) :
    (stampUnit s core t v b).1.hostLog = s.hostLog := by
  unfold stampUnit; split <;> rfl
@[simp] theorem stampUnit_fabricOut (s : State) (core : Option (Fin 192)) (t : W32) (v : Clk) (b : List (Nat × W8)) :
    (stampUnit s core t v b).1.fabricOut = s.fabricOut := by
  unfold stampUnit; split <;> rfl
@[simp] theorem stampUnit_agenda (s : State) (core : Option (Fin 192)) (t : W32) (v : Clk) (b : List (Nat × W8)) :
    (stampUnit s core t v b).1.agenda = s.agenda := by
  unfold stampUnit; split <;> rfl
@[simp] theorem stampUnit_free (s : State) (core : Option (Fin 192)) (t : W32) (v : Clk) (b : List (Nat × W8)) :
    (stampUnit s core t v b).1.free = s.free := by
  unfold stampUnit; split <;> rfl
@[simp] theorem stampUnit_nextKey (s : State) (core : Option (Fin 192)) (t : W32) (v : Clk) (b : List (Nat × W8)) :
    (stampUnit s core t v b).1.nextKey = s.nextKey := by
  unfold stampUnit; split <;> rfl

@[simp] theorem pokeBytes_wave (s : State) (b : List (Nat × W8)) : (pokeBytes s b).wave = s.wave := stampUnit_wave ..
@[simp] theorem pokeBytes_waves (s : State) (b : List (Nat × W8)) : (pokeBytes s b).waves = s.waves := stampUnit_waves ..
@[simp] theorem pokeBytes_groups (s : State) (b : List (Nat × W8)) : (pokeBytes s b).groups = s.groups := stampUnit_groups ..
@[simp] theorem pokeBytes_gangs (s : State) (b : List (Nat × W8)) : (pokeBytes s b).gangs = s.gangs := stampUnit_gangs ..
@[simp] theorem pokeBytes_tasks (s : State) (b : List (Nat × W8)) : (pokeBytes s b).tasks = s.tasks := stampUnit_tasks ..
@[simp] theorem pokeBytes_launches (s : State) (b : List (Nat × W8)) : (pokeBytes s b).launches = s.launches := stampUnit_launches ..
@[simp] theorem pokeBytes_parts (s : State) (b : List (Nat × W8)) : (pokeBytes s b).parts = s.parts := stampUnit_parts ..
@[simp] theorem pokeBytes_cores (s : State) (b : List (Nat × W8)) : (pokeBytes s b).cores = s.cores := stampUnit_cores ..
@[simp] theorem pokeBytes_vbytes (s : State) (b : List (Nat × W8)) : (pokeBytes s b).vbytes = s.vbytes := stampUnit_vbytes ..
@[simp] theorem pokeBytes_vlines (s : State) (b : List (Nat × W8)) : (pokeBytes s b).vlines = s.vlines := stampUnit_vlines ..
@[simp] theorem pokeBytes_tags (s : State) (b : List (Nat × W8)) : (pokeBytes s b).tags = s.tags := stampUnit_tags ..
@[simp] theorem pokeBytes_signals (s : State) (b : List (Nat × W8)) : (pokeBytes s b).signals = s.signals := stampUnit_signals ..
@[simp] theorem pokeBytes_objs (s : State) (b : List (Nat × W8)) : (pokeBytes s b).objs = s.objs := stampUnit_objs ..
@[simp] theorem pokeBytes_links (s : State) (b : List (Nat × W8)) : (pokeBytes s b).links = s.links := stampUnit_links ..
@[simp] theorem pokeBytes_engWaits (s : State) (b : List (Nat × W8)) : (pokeBytes s b).engWaits = s.engWaits := stampUnit_engWaits ..
@[simp] theorem pokeBytes_recWaits (s : State) (b : List (Nat × W8)) : (pokeBytes s b).recWaits = s.recWaits := stampUnit_recWaits ..
@[simp] theorem pokeBytes_locks (s : State) (b : List (Nat × W8)) : (pokeBytes s b).locks = s.locks := stampUnit_locks ..
@[simp] theorem pokeBytes_owned (s : State) (b : List (Nat × W8)) : (pokeBytes s b).owned = s.owned := stampUnit_owned ..
@[simp] theorem pokeBytes_arrived (s : State) (b : List (Nat × W8)) : (pokeBytes s b).arrived = s.arrived := stampUnit_arrived ..
@[simp] theorem pokeBytes_colls (s : State) (b : List (Nat × W8)) : (pokeBytes s b).colls = s.colls := stampUnit_colls ..
@[simp] theorem pokeBytes_collGroups (s : State) (b : List (Nat × W8)) : (pokeBytes s b).collGroups = s.collGroups := stampUnit_collGroups ..
@[simp] theorem pokeBytes_farMembers (s : State) (b : List (Nat × W8)) : (pokeBytes s b).farMembers = s.farMembers := stampUnit_farMembers ..
@[simp] theorem pokeBytes_served (s : State) (b : List (Nat × W8)) : (pokeBytes s b).served = s.served := stampUnit_served ..
@[simp] theorem pokeBytes_nextTag (s : State) (b : List (Nat × W8)) : (pokeBytes s b).nextTag = s.nextTag := stampUnit_nextTag ..
@[simp] theorem pokeBytes_scrubs (s : State) (b : List (Nat × W8)) : (pokeBytes s b).scrubs = s.scrubs := stampUnit_scrubs ..
@[simp] theorem pokeBytes_pkg (s : State) (b : List (Nat × W8)) : (pokeBytes s b).pkg = s.pkg := stampUnit_pkg ..
@[simp] theorem pokeBytes_powered (s : State) (b : List (Nat × W8)) : (pokeBytes s b).powered = s.powered := stampUnit_powered ..
@[simp] theorem pokeBytes_hostLog (s : State) (b : List (Nat × W8)) : (pokeBytes s b).hostLog = s.hostLog := stampUnit_hostLog ..
@[simp] theorem pokeBytes_fabricOut (s : State) (b : List (Nat × W8)) : (pokeBytes s b).fabricOut = s.fabricOut := stampUnit_fabricOut ..
@[simp] theorem pokeBytes_agenda (s : State) (b : List (Nat × W8)) : (pokeBytes s b).agenda = s.agenda := stampUnit_agenda ..
@[simp] theorem pokeBytes_free (s : State) (b : List (Nat × W8)) : (pokeBytes s b).free = s.free := stampUnit_free ..
@[simp] theorem pokeBytes_nextKey (s : State) (b : List (Nat × W8)) : (pokeBytes s b).nextKey = s.nextKey := stampUnit_nextKey ..

@[simp] theorem onWave_wave (s : State) (f : Wave → Wave) : (onWave s f).wave = f s.wave := rfl
@[simp] theorem onRegs_regs (s : State) (f : Regs → Regs) : (onRegs s f).wave.regs = f s.wave.regs := rfl
@[simp] theorem onWaves_wave (s : State) (f : Wave → Wave) : (onWaves s f).wave = f s.wave := rfl
@[simp] theorem onWaves_waves (s : State) (f : Wave → Wave) : (onWaves s f).waves = s.waves.map f := rfl
@[simp] theorem retireWave_regs (s : State) (n : Nat) : (retireWave s n).wave.regs = retire s.wave.regs n := rfl
@[simp] theorem tellHost_hostLog (s : State) (m : HostMsg) : (tellHost s m).hostLog = s.hostLog ++ [m] := rfl

@[simp] theorem onCore_at (s : State) (c : Fin 192) (f : Core → Core) : (onCore s c f).cores[c.val] = f s.cores[c.val] := by
  simp [onCore]

theorem onCore_other (s : State) (c u : Fin 192) (f : Core → Core) (h : u ≠ c) : (onCore s c f).cores[u] = s.cores[u] := by
  have : c.val ≠ u.val := fun e => h (Fin.ext e.symm)
  simp [onCore, this]

@[simp] theorem onDie_at (s : State) (d : Fin 2) (f : Die → Die) : (onDie s d f).dies[d.val] = f s.dies[d.val] := by simp [onDie]

theorem onDie_other (s : State) (d e : Fin 2) (f : Die → Die) (h : e ≠ d) : (onDie s d f).dies[e] = s.dies[e] := by
  have : d.val ≠ e.val := fun x => h (Fin.ext x.symm)
  simp [onDie, this]

@[simp] theorem onPart_at (s : State) (p : Fin 24) (f : Partition → Partition) : (onPart s p f).parts[p.val] = f s.parts[p.val] := by
  simp [onPart]

theorem onPart_other (s : State) (p q : Fin 24) (f : Partition → Partition) (h : q ≠ p) : (onPart s p f).parts[q] = s.parts[q] := by
  have : p.val ≠ q.val := fun x => h (Fin.ext x.symm)
  simp [onPart, this]

/-! ### Fields of the wave under an update of its registers -/

@[simp] theorem onRegs_wave_ids (s : State) (f : Regs → Regs) : (onRegs s f).wave.ids = s.wave.ids := rfl
@[simp] theorem onRegs_wave_run (s : State) (f : Regs → Regs) : (onRegs s f).wave.run = s.wave.run := rfl
@[simp] theorem onRegs_wave_handler (s : State) (f : Regs → Regs) : (onRegs s f).wave.handler = s.wave.handler := rfl
@[simp] theorem onRegs_wave_frame (s : State) (f : Regs → Regs) : (onRegs s f).wave.frame = s.wave.frame := rfl
@[simp] theorem onRegs_wave_npOpen (s : State) (f : Regs → Regs) : (onRegs s f).wave.npOpen = s.wave.npOpen := rfl
@[simp] theorem onRegs_wave_npleft (s : State) (f : Regs → Regs) : (onRegs s f).wave.npleft = s.wave.npleft := rfl
@[simp] theorem onRegs_wave_npOwed (s : State) (f : Regs → Regs) : (onRegs s f).wave.npOwed = s.wave.npOwed := rfl
@[simp] theorem onRegs_wave_psize (s : State) (f : Regs → Regs) : (onRegs s f).wave.psize = s.wave.psize := rfl
@[simp] theorem onRegs_wave_priv (s : State) (f : Regs → Regs) : (onRegs s f).wave.priv = s.wave.priv := rfl
@[simp] theorem onRegs_wave_pbase (s : State) (f : Regs → Regs) : (onRegs s f).wave.pbase = s.wave.pbase := rfl
@[simp] theorem onRegs_wave_backing (s : State) (f : Regs → Regs) : (onRegs s f).wave.backing = s.wave.backing := rfl
@[simp] theorem onRegs_wave_eprio (s : State) (f : Regs → Regs) : (onRegs s f).wave.eprio = s.wave.eprio := rfl
@[simp] theorem onRegs_wave_acqEpoch (s : State) (f : Regs → Regs) : (onRegs s f).wave.acqEpoch = s.wave.acqEpoch := rfl
@[simp] theorem onRegs_wave_clk (s : State) (f : Regs → Regs) : (onRegs s f).wave.clk = s.wave.clk := rfl
@[simp] theorem onRegs_wave_floor (s : State) (f : Regs → Regs) : (onRegs s f).wave.floor = s.wave.floor := rfl
@[simp] theorem onRegs_wave_covers (s : State) (f : Regs → Regs) : (onRegs s f).wave.covers = s.wave.covers := rfl
@[simp] theorem onRegs_wave_digest (s : State) (f : Regs → Regs) : (onRegs s f).wave.digest = s.wave.digest := rfl
@[simp] theorem onRegs_wave_flights (s : State) (f : Regs → Regs) : (onRegs s f).wave.flights = s.wave.flights := rfl
@[simp] theorem onRegs_wave_wait (s : State) (f : Regs → Regs) : (onRegs s f).wave.wait = s.wave.wait := rfl
@[simp] theorem onRegs_wave_remoteOut (s : State) (f : Regs → Regs) : (onRegs s f).wave.remoteOut = s.wave.remoteOut := rfl
@[simp] theorem onRegs_wave_remoteErr (s : State) (f : Regs → Regs) : (onRegs s f).wave.remoteErr = s.wave.remoteErr := rfl
@[simp] theorem onRegs_wave_waited (s : State) (f : Regs → Regs) : (onRegs s f).wave.waited = s.wave.waited := rfl
@[simp] theorem onRegs_wave_losses (s : State) (f : Regs → Regs) : (onRegs s f).wave.losses = s.wave.losses := rfl
@[simp] theorem onRegs_wave_readySince (s : State) (f : Regs → Regs) : (onRegs s f).wave.readySince = s.wave.readySince := rfl
@[simp] theorem onRegs_wave_released (s : State) (f : Regs → Regs) : (onRegs s f).wave.released = s.wave.released := rfl
@[simp] theorem onRegs_wave_tried (s : State) (f : Regs → Regs) : (onRegs s f).wave.tried = s.wave.tried := rfl

/-! ### Updates of the registers -/

@[simp] theorem lowerLives_pc (r : Regs) : (lowerLives r).pc = r.pc := rfl
@[simp] theorem lowerLives_q (r : Regs) : (lowerLives r).q = r.q := rfl
@[simp] theorem lowerLives_qvalid (r : Regs) : (lowerLives r).qvalid = r.qvalid := rfl
@[simp] theorem lowerLives_pushes (r : Regs) : (lowerLives r).pushes = r.pushes := rfl
@[simp] theorem lowerLives_named (r : Regs) : (lowerLives r).named = r.named := rfl
@[simp] theorem lowerLives_mirror (r : Regs) : (lowerLives r).mirror = r.mirror := rfl
@[simp] theorem lowerLives_sel (r : Regs) : (lowerLives r).sel = r.sel := rfl
@[simp] theorem lowerLives_pflag (r : Regs) : (lowerLives r).pflag = r.pflag := rfl
@[simp] theorem lowerLives_pcnt (r : Regs) : (lowerLives r).pcnt = r.pcnt := rfl
@[simp] theorem lowerLives_acnt (r : Regs) : (lowerLives r).acnt = r.acnt := rfl
@[simp] theorem lowerLives_didx (r : Regs) : (lowerLives r).didx = r.didx := rfl
@[simp] theorem lowerLives_dkey (r : Regs) : (lowerLives r).dkey = r.dkey := rfl
@[simp] theorem lowerLives_preds (r : Regs) : (lowerLives r).preds = r.preds := rfl
@[simp] theorem lowerLives_exec (r : Regs) : (lowerLives r).exec = r.exec := rfl
@[simp] theorem lowerLives_mstack (r : Regs) : (lowerLives r).mstack = r.mstack := rfl
@[simp] theorem lowerLives_msdepth (r : Regs) : (lowerLives r).msdepth = r.msdepth := rfl
@[simp] theorem lowerLives_msidx (r : Regs) : (lowerLives r).msidx = r.msidx := rfl
@[simp] theorem lowerLives_mode (r : Regs) : (lowerLives r).mode = r.mode := rfl
@[simp] theorem lowerLives_k (r : Regs) : (lowerLives r).k = r.k := rfl
@[simp] theorem lowerLives_h (r : Regs) : (lowerLives r).h = r.h := rfl
@[simp] theorem lowerLives_rs (r : Regs) : (lowerLives r).rs = r.rs := rfl
@[simp] theorem lowerLives_prio (r : Regs) : (lowerLives r).prio = r.prio := rfl
@[simp] theorem lowerLives_tbase (r : Regs) : (lowerLives r).tbase = r.tbase := rfl
@[simp] theorem lowerLives_variant (r : Regs) : (lowerLives r).variant = r.variant := rfl
@[simp] theorem lowerLives_nregs (r : Regs) : (lowerLives r).nregs = r.nregs := rfl
@[simp] theorem lowerLives_mirrorOn (r : Regs) : (lowerLives r).mirrorOn = r.mirrorOn := rfl
@[simp] theorem lowerLives_clockLatch (r : Regs) : (lowerLives r).clockLatch = r.clockLatch := rfl

@[simp] theorem retire_q (r : Regs) (n : Nat) : (retire r n).q = r.q := rfl
@[simp] theorem retire_qvalid (r : Regs) (n : Nat) : (retire r n).qvalid = r.qvalid := rfl
@[simp] theorem retire_pushes (r : Regs) (n : Nat) : (retire r n).pushes = r.pushes := rfl
@[simp] theorem retire_named (r : Regs) (n : Nat) : (retire r n).named = r.named := rfl
@[simp] theorem retire_mirror (r : Regs) (n : Nat) : (retire r n).mirror = r.mirror := rfl
@[simp] theorem retire_sel (r : Regs) (n : Nat) : (retire r n).sel = r.sel := rfl
@[simp] theorem retire_pflag (r : Regs) (n : Nat) : (retire r n).pflag = r.pflag := rfl
@[simp] theorem retire_pcnt (r : Regs) (n : Nat) : (retire r n).pcnt = r.pcnt := rfl
@[simp] theorem retire_acnt (r : Regs) (n : Nat) : (retire r n).acnt = r.acnt := rfl
@[simp] theorem retire_didx (r : Regs) (n : Nat) : (retire r n).didx = r.didx := rfl
@[simp] theorem retire_dkey (r : Regs) (n : Nat) : (retire r n).dkey = r.dkey := rfl
@[simp] theorem retire_preds (r : Regs) (n : Nat) : (retire r n).preds = r.preds := rfl
@[simp] theorem retire_exec (r : Regs) (n : Nat) : (retire r n).exec = r.exec := rfl
@[simp] theorem retire_mstack (r : Regs) (n : Nat) : (retire r n).mstack = r.mstack := rfl
@[simp] theorem retire_msdepth (r : Regs) (n : Nat) : (retire r n).msdepth = r.msdepth := rfl
@[simp] theorem retire_msidx (r : Regs) (n : Nat) : (retire r n).msidx = r.msidx := rfl
@[simp] theorem retire_mode (r : Regs) (n : Nat) : (retire r n).mode = r.mode := rfl
@[simp] theorem retire_k (r : Regs) (n : Nat) : (retire r n).k = r.k := rfl
@[simp] theorem retire_h (r : Regs) (n : Nat) : (retire r n).h = r.h := rfl
@[simp] theorem retire_rs (r : Regs) (n : Nat) : (retire r n).rs = r.rs := rfl
@[simp] theorem retire_prio (r : Regs) (n : Nat) : (retire r n).prio = r.prio := rfl
@[simp] theorem retire_tbase (r : Regs) (n : Nat) : (retire r n).tbase = r.tbase := rfl
@[simp] theorem retire_variant (r : Regs) (n : Nat) : (retire r n).variant = r.variant := rfl
@[simp] theorem retire_nregs (r : Regs) (n : Nat) : (retire r n).nregs = r.nregs := rfl
@[simp] theorem retire_mirrorOn (r : Regs) (n : Nat) : (retire r n).mirrorOn = r.mirrorOn := rfl
@[simp] theorem retire_clockLatch (r : Regs) (n : Nat) : (retire r n).clockLatch = r.clockLatch := rfl

@[simp] theorem pushOne_pc (r : Regs) (v : Lanes W32) : (pushOne r v).pc = r.pc := rfl
@[simp] theorem pushOne_named (r : Regs) (v : Lanes W32) : (pushOne r v).named = r.named := rfl
@[simp] theorem pushOne_mirror (r : Regs) (v : Lanes W32) : (pushOne r v).mirror = r.mirror := rfl
@[simp] theorem pushOne_sel (r : Regs) (v : Lanes W32) : (pushOne r v).sel = r.sel := rfl
@[simp] theorem pushOne_pflag (r : Regs) (v : Lanes W32) : (pushOne r v).pflag = r.pflag := rfl
@[simp] theorem pushOne_pcnt (r : Regs) (v : Lanes W32) : (pushOne r v).pcnt = r.pcnt := rfl
@[simp] theorem pushOne_acnt (r : Regs) (v : Lanes W32) : (pushOne r v).acnt = r.acnt := rfl
@[simp] theorem pushOne_didx (r : Regs) (v : Lanes W32) : (pushOne r v).didx = r.didx := rfl
@[simp] theorem pushOne_dkey (r : Regs) (v : Lanes W32) : (pushOne r v).dkey = r.dkey := rfl
@[simp] theorem pushOne_latch (r : Regs) (v : Lanes W32) : (pushOne r v).latch = r.latch := rfl
@[simp] theorem pushOne_preds (r : Regs) (v : Lanes W32) : (pushOne r v).preds = r.preds := rfl
@[simp] theorem pushOne_exec (r : Regs) (v : Lanes W32) : (pushOne r v).exec = r.exec := rfl
@[simp] theorem pushOne_mstack (r : Regs) (v : Lanes W32) : (pushOne r v).mstack = r.mstack := rfl
@[simp] theorem pushOne_msdepth (r : Regs) (v : Lanes W32) : (pushOne r v).msdepth = r.msdepth := rfl
@[simp] theorem pushOne_msidx (r : Regs) (v : Lanes W32) : (pushOne r v).msidx = r.msidx := rfl
@[simp] theorem pushOne_mode (r : Regs) (v : Lanes W32) : (pushOne r v).mode = r.mode := rfl
@[simp] theorem pushOne_k (r : Regs) (v : Lanes W32) : (pushOne r v).k = r.k := rfl
@[simp] theorem pushOne_h (r : Regs) (v : Lanes W32) : (pushOne r v).h = r.h := rfl
@[simp] theorem pushOne_rs (r : Regs) (v : Lanes W32) : (pushOne r v).rs = r.rs := rfl
@[simp] theorem pushOne_prio (r : Regs) (v : Lanes W32) : (pushOne r v).prio = r.prio := rfl
@[simp] theorem pushOne_tbase (r : Regs) (v : Lanes W32) : (pushOne r v).tbase = r.tbase := rfl
@[simp] theorem pushOne_variant (r : Regs) (v : Lanes W32) : (pushOne r v).variant = r.variant := rfl
@[simp] theorem pushOne_nregs (r : Regs) (v : Lanes W32) : (pushOne r v).nregs = r.nregs := rfl
@[simp] theorem pushOne_mirrorOn (r : Regs) (v : Lanes W32) : (pushOne r v).mirrorOn = r.mirrorOn := rfl
@[simp] theorem pushOne_clockLatch (r : Regs) (v : Lanes W32) : (pushOne r v).clockLatch = r.clockLatch := rfl

@[simp] theorem takeTransfer_q (r : Regs) (t : W64) : (takeTransfer r t).q = r.q := rfl
@[simp] theorem takeTransfer_pushes (r : Regs) (t : W64) : (takeTransfer r t).pushes = r.pushes := rfl
@[simp] theorem takeTransfer_named (r : Regs) (t : W64) : (takeTransfer r t).named = r.named := rfl
@[simp] theorem takeTransfer_mirror (r : Regs) (t : W64) : (takeTransfer r t).mirror = r.mirror := rfl
@[simp] theorem takeTransfer_sel (r : Regs) (t : W64) : (takeTransfer r t).sel = r.sel := rfl
@[simp] theorem takeTransfer_pflag (r : Regs) (t : W64) : (takeTransfer r t).pflag = r.pflag := rfl
@[simp] theorem takeTransfer_pcnt (r : Regs) (t : W64) : (takeTransfer r t).pcnt = r.pcnt := rfl
@[simp] theorem takeTransfer_acnt (r : Regs) (t : W64) : (takeTransfer r t).acnt = r.acnt := rfl
@[simp] theorem takeTransfer_didx (r : Regs) (t : W64) : (takeTransfer r t).didx = r.didx := rfl
@[simp] theorem takeTransfer_dkey (r : Regs) (t : W64) : (takeTransfer r t).dkey = r.dkey := rfl
@[simp] theorem takeTransfer_preds (r : Regs) (t : W64) : (takeTransfer r t).preds = r.preds := rfl
@[simp] theorem takeTransfer_exec (r : Regs) (t : W64) : (takeTransfer r t).exec = r.exec := rfl
@[simp] theorem takeTransfer_mstack (r : Regs) (t : W64) : (takeTransfer r t).mstack = r.mstack := rfl
@[simp] theorem takeTransfer_msdepth (r : Regs) (t : W64) : (takeTransfer r t).msdepth = r.msdepth := rfl
@[simp] theorem takeTransfer_msidx (r : Regs) (t : W64) : (takeTransfer r t).msidx = r.msidx := rfl
@[simp] theorem takeTransfer_mode (r : Regs) (t : W64) : (takeTransfer r t).mode = r.mode := rfl
@[simp] theorem takeTransfer_k (r : Regs) (t : W64) : (takeTransfer r t).k = r.k := rfl
@[simp] theorem takeTransfer_h (r : Regs) (t : W64) : (takeTransfer r t).h = r.h := rfl
@[simp] theorem takeTransfer_rs (r : Regs) (t : W64) : (takeTransfer r t).rs = r.rs := rfl
@[simp] theorem takeTransfer_prio (r : Regs) (t : W64) : (takeTransfer r t).prio = r.prio := rfl
@[simp] theorem takeTransfer_tbase (r : Regs) (t : W64) : (takeTransfer r t).tbase = r.tbase := rfl
@[simp] theorem takeTransfer_variant (r : Regs) (t : W64) : (takeTransfer r t).variant = r.variant := rfl
@[simp] theorem takeTransfer_nregs (r : Regs) (t : W64) : (takeTransfer r t).nregs = r.nregs := rfl
@[simp] theorem takeTransfer_mirrorOn (r : Regs) (t : W64) : (takeTransfer r t).mirrorOn = r.mirrorOn := rfl
@[simp] theorem takeTransfer_clockLatch (r : Regs) (t : W64) : (takeTransfer r t).clockLatch = r.clockLatch := rfl

@[simp] theorem retire_pc (r : Regs) (n : Nat) : (retire r n).pc = r.pc + BitVec.ofNat 64 n := rfl
@[simp] theorem takeTransfer_pc (r : Regs) (t : W64) : (takeTransfer r t).pc = t := rfl
@[simp] theorem takeTransfer_qvalid (r : Regs) (t : W64) : (takeTransfer r t).qvalid = 0 := rfl
@[simp] theorem pushOne_qvalid (r : Regs) (v : Lanes W32) : (pushOne r v).qvalid = (r.qvalid <<< 1) ||| 1 := rfl
@[simp] theorem pushOne_pushes (r : Regs) (v : Lanes W32) : (pushOne r v).pushes = r.pushes + 1 := rfl

@[simp] theorem namedWrite_pc (r : Regs) (x : Fin 40) (m : W32) (v : Lanes W32) : (namedWrite r x m v).pc = r.pc := by
  unfold namedWrite; split <;> rfl
@[simp] theorem namedWrite_q (r : Regs) (x : Fin 40) (m : W32) (v : Lanes W32) : (namedWrite r x m v).q = r.q := by
  unfold namedWrite; split <;> rfl
@[simp] theorem namedWrite_qvalid (r : Regs) (x : Fin 40) (m : W32) (v : Lanes W32) : (namedWrite r x m v).qvalid = r.qvalid := by
  unfold namedWrite; split <;> rfl
@[simp] theorem namedWrite_pushes (r : Regs) (x : Fin 40) (m : W32) (v : Lanes W32) : (namedWrite r x m v).pushes = r.pushes := by
  unfold namedWrite; split <;> rfl
@[simp] theorem namedWrite_sel (r : Regs) (x : Fin 40) (m : W32) (v : Lanes W32) : (namedWrite r x m v).sel = r.sel := by
  unfold namedWrite; split <;> rfl
@[simp] theorem namedWrite_pflag (r : Regs) (x : Fin 40) (m : W32) (v : Lanes W32) : (namedWrite r x m v).pflag = r.pflag := by
  unfold namedWrite; split <;> rfl
@[simp] theorem namedWrite_pcnt (r : Regs) (x : Fin 40) (m : W32) (v : Lanes W32) : (namedWrite r x m v).pcnt = r.pcnt := by
  unfold namedWrite; split <;> rfl
@[simp] theorem namedWrite_acnt (r : Regs) (x : Fin 40) (m : W32) (v : Lanes W32) : (namedWrite r x m v).acnt = r.acnt := by
  unfold namedWrite; split <;> rfl
@[simp] theorem namedWrite_didx (r : Regs) (x : Fin 40) (m : W32) (v : Lanes W32) : (namedWrite r x m v).didx = r.didx := by
  unfold namedWrite; split <;> rfl
@[simp] theorem namedWrite_dkey (r : Regs) (x : Fin 40) (m : W32) (v : Lanes W32) : (namedWrite r x m v).dkey = r.dkey := by
  unfold namedWrite; split <;> rfl
@[simp] theorem namedWrite_latch (r : Regs) (x : Fin 40) (m : W32) (v : Lanes W32) : (namedWrite r x m v).latch = r.latch := by
  unfold namedWrite; split <;> rfl
@[simp] theorem namedWrite_preds (r : Regs) (x : Fin 40) (m : W32) (v : Lanes W32) : (namedWrite r x m v).preds = r.preds := by
  unfold namedWrite; split <;> rfl
@[simp] theorem namedWrite_exec (r : Regs) (x : Fin 40) (m : W32) (v : Lanes W32) : (namedWrite r x m v).exec = r.exec := by
  unfold namedWrite; split <;> rfl
@[simp] theorem namedWrite_mstack (r : Regs) (x : Fin 40) (m : W32) (v : Lanes W32) : (namedWrite r x m v).mstack = r.mstack := by
  unfold namedWrite; split <;> rfl
@[simp] theorem namedWrite_msdepth (r : Regs) (x : Fin 40) (m : W32) (v : Lanes W32) : (namedWrite r x m v).msdepth = r.msdepth := by
  unfold namedWrite; split <;> rfl
@[simp] theorem namedWrite_msidx (r : Regs) (x : Fin 40) (m : W32) (v : Lanes W32) : (namedWrite r x m v).msidx = r.msidx := by
  unfold namedWrite; split <;> rfl
@[simp] theorem namedWrite_mode (r : Regs) (x : Fin 40) (m : W32) (v : Lanes W32) : (namedWrite r x m v).mode = r.mode := by
  unfold namedWrite; split <;> rfl
@[simp] theorem namedWrite_k (r : Regs) (x : Fin 40) (m : W32) (v : Lanes W32) : (namedWrite r x m v).k = r.k := by
  unfold namedWrite; split <;> rfl
@[simp] theorem namedWrite_h (r : Regs) (x : Fin 40) (m : W32) (v : Lanes W32) : (namedWrite r x m v).h = r.h := by
  unfold namedWrite; split <;> rfl
@[simp] theorem namedWrite_rs (r : Regs) (x : Fin 40) (m : W32) (v : Lanes W32) : (namedWrite r x m v).rs = r.rs := by
  unfold namedWrite; split <;> rfl
@[simp] theorem namedWrite_prio (r : Regs) (x : Fin 40) (m : W32) (v : Lanes W32) : (namedWrite r x m v).prio = r.prio := by
  unfold namedWrite; split <;> rfl
@[simp] theorem namedWrite_tbase (r : Regs) (x : Fin 40) (m : W32) (v : Lanes W32) : (namedWrite r x m v).tbase = r.tbase := by
  unfold namedWrite; split <;> rfl
@[simp] theorem namedWrite_variant (r : Regs) (x : Fin 40) (m : W32) (v : Lanes W32) : (namedWrite r x m v).variant = r.variant := by
  unfold namedWrite; split <;> rfl
@[simp] theorem namedWrite_nregs (r : Regs) (x : Fin 40) (m : W32) (v : Lanes W32) : (namedWrite r x m v).nregs = r.nregs := by
  unfold namedWrite; split <;> rfl
@[simp] theorem namedWrite_mirrorOn (r : Regs) (x : Fin 40) (m : W32) (v : Lanes W32) : (namedWrite r x m v).mirrorOn = r.mirrorOn := by
  unfold namedWrite; split <;> rfl
@[simp] theorem namedWrite_clockLatch (r : Regs) (x : Fin 40) (m : W32) (v : Lanes W32) : (namedWrite r x m v).clockLatch = r.clockLatch := by
  unfold namedWrite; split <;> rfl

@[simp] theorem writePred_pc (r : Regs) (p : PReg) (m v : W32) : (writePred r p m v).pc = r.pc := by
  unfold writePred; split <;> rfl
@[simp] theorem writePred_q (r : Regs) (p : PReg) (m v : W32) : (writePred r p m v).q = r.q := by
  unfold writePred; split <;> rfl
@[simp] theorem writePred_qvalid (r : Regs) (p : PReg) (m v : W32) : (writePred r p m v).qvalid = r.qvalid := by
  unfold writePred; split <;> rfl
@[simp] theorem writePred_pushes (r : Regs) (p : PReg) (m v : W32) : (writePred r p m v).pushes = r.pushes := by
  unfold writePred; split <;> rfl
@[simp] theorem writePred_named (r : Regs) (p : PReg) (m v : W32) : (writePred r p m v).named = r.named := by
  unfold writePred; split <;> rfl
@[simp] theorem writePred_mirror (r : Regs) (p : PReg) (m v : W32) : (writePred r p m v).mirror = r.mirror := by
  unfold writePred; split <;> rfl
@[simp] theorem writePred_sel (r : Regs) (p : PReg) (m v : W32) : (writePred r p m v).sel = r.sel := by
  unfold writePred; split <;> rfl
@[simp] theorem writePred_pflag (r : Regs) (p : PReg) (m v : W32) : (writePred r p m v).pflag = r.pflag := by
  unfold writePred; split <;> rfl
@[simp] theorem writePred_pcnt (r : Regs) (p : PReg) (m v : W32) : (writePred r p m v).pcnt = r.pcnt := by
  unfold writePred; split <;> rfl
@[simp] theorem writePred_acnt (r : Regs) (p : PReg) (m v : W32) : (writePred r p m v).acnt = r.acnt := by
  unfold writePred; split <;> rfl
@[simp] theorem writePred_didx (r : Regs) (p : PReg) (m v : W32) : (writePred r p m v).didx = r.didx := by
  unfold writePred; split <;> rfl
@[simp] theorem writePred_dkey (r : Regs) (p : PReg) (m v : W32) : (writePred r p m v).dkey = r.dkey := by
  unfold writePred; split <;> rfl
@[simp] theorem writePred_latch (r : Regs) (p : PReg) (m v : W32) : (writePred r p m v).latch = r.latch := by
  unfold writePred; split <;> rfl
@[simp] theorem writePred_exec (r : Regs) (p : PReg) (m v : W32) : (writePred r p m v).exec = r.exec := by
  unfold writePred; split <;> rfl
@[simp] theorem writePred_mstack (r : Regs) (p : PReg) (m v : W32) : (writePred r p m v).mstack = r.mstack := by
  unfold writePred; split <;> rfl
@[simp] theorem writePred_msdepth (r : Regs) (p : PReg) (m v : W32) : (writePred r p m v).msdepth = r.msdepth := by
  unfold writePred; split <;> rfl
@[simp] theorem writePred_msidx (r : Regs) (p : PReg) (m v : W32) : (writePred r p m v).msidx = r.msidx := by
  unfold writePred; split <;> rfl
@[simp] theorem writePred_mode (r : Regs) (p : PReg) (m v : W32) : (writePred r p m v).mode = r.mode := by
  unfold writePred; split <;> rfl
@[simp] theorem writePred_k (r : Regs) (p : PReg) (m v : W32) : (writePred r p m v).k = r.k := by
  unfold writePred; split <;> rfl
@[simp] theorem writePred_h (r : Regs) (p : PReg) (m v : W32) : (writePred r p m v).h = r.h := by
  unfold writePred; split <;> rfl
@[simp] theorem writePred_rs (r : Regs) (p : PReg) (m v : W32) : (writePred r p m v).rs = r.rs := by
  unfold writePred; split <;> rfl
@[simp] theorem writePred_prio (r : Regs) (p : PReg) (m v : W32) : (writePred r p m v).prio = r.prio := by
  unfold writePred; split <;> rfl
@[simp] theorem writePred_tbase (r : Regs) (p : PReg) (m v : W32) : (writePred r p m v).tbase = r.tbase := by
  unfold writePred; split <;> rfl
@[simp] theorem writePred_variant (r : Regs) (p : PReg) (m v : W32) : (writePred r p m v).variant = r.variant := by
  unfold writePred; split <;> rfl
@[simp] theorem writePred_nregs (r : Regs) (p : PReg) (m v : W32) : (writePred r p m v).nregs = r.nregs := by
  unfold writePred; split <;> rfl
@[simp] theorem writePred_mirrorOn (r : Regs) (p : PReg) (m v : W32) : (writePred r p m v).mirrorOn = r.mirrorOn := by
  unfold writePred; split <;> rfl
@[simp] theorem writePred_clockLatch (r : Regs) (p : PReg) (m v : W32) : (writePred r p m v).clockLatch = r.clockLatch := by
  unfold writePred; split <;> rfl

end Sys2Proof.Machine
end

