-- ==== Sys2Proof/Laws/Lanes.lean ====
section
/-!
SUPPORT. What the shared operations of the lane instructions do: active lanes, named writes, pushes, holds, and the whole effect of a lane result.
-/

namespace Sys2Proof.Machine

/-! ### Lanes and masks -/

@[simp] theorem lanes_of_get {α : Type} (f : Fin 32 → α) (l : Fin 32) : (Lanes.of f)[l] = f l := by
  simp [Lanes.of]

@[simp] theorem lanes_of_get_nat {α : Type} (f : Fin 32 → α) (i : Nat) (h : i < 32) : (Lanes.of f)[i] = f ⟨i, h⟩ := by
  simp [Lanes.of]

@[simp] theorem lanes_all_get {α : Type} (x : α) (l : Fin 32) : (Lanes.all x)[l] = x := by
  simp [Lanes.all]

theorem lanes_ext {α : Type} {x y : Lanes α} (h : ∀ l : Fin 32, x[l] = y[l]) : x = y := by
  apply Vector.ext
  intro i hi
  exact h ⟨i, hi⟩

/-- The number of the lanes below `n` in which a condition holds, as a mask. -/
def maskSum (g : Nat → Bool) : Nat → Nat
  | 0 => 0
  | n + 1 => if g n then maskSum g n + 2 ^ n else maskSum g n

theorem maskSum_lt (g : Nat → Bool) : ∀ n, maskSum g n < 2 ^ n
  | 0 => by simp [maskSum]
  | n + 1 => by
    have := maskSum_lt g n
    rw [maskSum, Nat.pow_succ]
    split <;> omega

theorem maskSum_bit (g : Nat → Bool) : ∀ n i, i < n → (maskSum g n).testBit i = g i
  | n + 1, i, h => by
    have hlt := maskSum_lt g n
    rw [maskSum]
    by_cases e : i = n
    · subst e
      cases hg : g i
      · simp only [Bool.false_eq_true, if_false]
        exact Nat.testBit_lt_two_pow hlt
      · simp only [if_true]
        rw [Nat.add_comm, Nat.testBit_two_pow_add_eq, Nat.testBit_lt_two_pow hlt]
        rfl
    · have ih := maskSum_bit g n i (by omega)
      split
      · rw [Nat.add_comm, Nat.testBit_two_pow_add_gt (by omega)]
        exact ih
      · exact ih

theorem foldl_maskSum (g : Nat → Bool) : ∀ n, (List.range n).foldl (fun acc i => if g i then acc + 2 ^ i else acc) 0 = maskSum g n
  | 0 => rfl
  | n + 1 => by rw [List.range_succ, List.foldl_append, foldl_maskSum g n]; rfl

/-- A mask has the bit of a lane exactly when the condition holds in the lane. -/
theorem maskOf_lsb (f : Fin 32 → Bool) (l : Fin 32) : (maskOf f).getLsbD l.val = f l := by
  let g : Nat → Bool := fun i => if h : i < 32 then f ⟨i, h⟩ else false
  have e : laneList.foldl (fun acc (l : Fin 32) => if f l then acc + 2 ^ l.val else acc) 0 = maskSum g 32 := by
    rw [← foldl_maskSum, ← List.map_coe_finRange_eq_range, List.foldl_map]
    have hg : ∀ l : Fin 32, g l.val = f l := fun l => by simp [g]
    simp only [hg, laneList]
  unfold maskOf
  rw [e, BitVec.getLsbD_ofNat, maskSum_bit g 32 l.val l.isLt]
  simp [g]

@[simp] theorem maskOf_bit (f : Fin 32 → Bool) (l : Fin 32) : (maskOf f)[l.val] = f l := by
  rw [← BitVec.getLsbD_eq_getElem l.isLt, maskOf_lsb]

theorem allLanes_bit (l : Fin 32) : (0xFFFFFFFF#32)[l.val] = true := by
  revert l; decide

theorem guard_index (g : Nat) (h : 8 ≤ g) : (Fin.ofNat 8 (g - 8) : Fin 8) = Fin.ofNat 8 g := by
  apply Fin.ext
  show (g - 8) % 8 = g % 8
  omega

/-- A guard holds in a lane (R87). -/
theorem guardMask_lsb (r : Regs) (g : Nat) (hg : g < 16) (l : Fin 32) :
    (guardMask r g).getLsbD l.val =
      if g < 8 then (g == 0 || (r.preds[Fin.ofNat 8 g]).getLsbD l.val)
      else !(g - 8 == 0 || (r.preds[Fin.ofNat 8 (g - 8)]).getLsbD l.val) := by
  unfold guardMask
  have hm : g % 16 = g := Nat.mod_eq_of_lt hg
  rw [hm]
  by_cases h0 : g = 0
  · subst h0
    simpa using allLanes_bit l
  · by_cases hlt : g < 8
    · have h8 : ¬g = 8 := by omega
      rw [if_neg (by simpa using h0), if_neg (by simpa using h8), if_pos hlt, if_pos hlt, beq_eq_false_iff_ne.mpr h0, Bool.false_or]
    · have e : r.preds[Fin.ofNat 8 (g - 8)] = r.preds[Fin.ofNat 8 g] :=
        congrArg (fun i : Fin 8 => r.preds[i]) (guard_index g (by omega))
      by_cases h8 : g = 8
      · subst h8
        simp
      · have h1 : g - 8 ≠ 0 := by omega
        rw [if_neg (by simpa using h0), if_neg (by simpa using h8), if_neg hlt, if_neg hlt, beq_eq_false_iff_ne.mpr h1,
          Bool.false_or, e, BitVec.getLsbD_not]
        simp [l.isLt]

/-- The mask of active lanes has the bit of a lane exactly when the lane is active (R87, R97). -/
theorem activeMask_lsb (r : Regs) (l : Fin 32) : (activeMask r).getLsbD l.val = laneOn r l := by
  have hg : r.mode.toNat % 16 < 16 := Nat.mod_lt _ (by decide)
  unfold activeMask laneOn modeGuard
  rw [BitVec.getLsbD_and, guardMask_lsb r _ hg l]

@[simp] theorem activeMask_bit (r : Regs) (l : Fin 32) : (activeMask r)[l.val] = laneOn r l := by
  rw [← BitVec.getLsbD_eq_getElem l.isLt, activeMask_lsb]

theorem maskLanes_eq (r : Regs) (v : Lanes W64) : maskLanes (activeMask r) v = onActive r v := by
  apply lanes_ext
  intro l
  simp [maskLanes, onActive]

theorem loLanes_get (v : Lanes W64) (l : Fin 32) : (loLanes v)[l] = lo32 v[l] := by simp [loLanes]
theorem hiLanes_get (v : Lanes W64) (l : Fin 32) : (hiLanes v)[l] = hi32 v[l] := by simp [hiLanes]

/-! ### Predicates -/

/-- A predicate after a write (R147). -/
theorem writePred_get (r : Regs) (p : PReg) (m v : W32) (q : PReg) :
    (writePred r p m v).preds[q] = if q = p ∧ p ≠ 0 then (r.preds[p] &&& ~~~ m) ||| (v &&& m) else r.preds[q] := by
  unfold writePred
  by_cases h : p.val = 0
  · have : p = 0 := Fin.ext h
    simp [this]
  · have h0 : p ≠ 0 := fun e => h (by rw [e]; rfl)
    by_cases hq : q = p
    · subst hq; simp [h, h0]
    · have : p.val ≠ q.val := fun e => hq (Fin.ext e.symm)
      simp [h, hq, this]

/-- A predicate write changes the predicates alone. -/
theorem writePred_form (r : Regs) (p : PReg) (m v : W32) : ∃ a, writePred r p m v = { r with preds := a } := by
  unfold writePred
  split
  · exact ⟨_, rfl⟩
  · exact ⟨_, rfl⟩

/-- A bit of a predicate after a write in the active lanes. -/
theorem writePred_lsb (r : Regs) (p : PReg) (m v : W32) (q : PReg) (l : Fin 32) :
    (writePred r p m v).preds[q].getLsbD l.val =
      if q = p ∧ p ≠ 0 ∧ m.getLsbD l.val = true then v.getLsbD l.val else r.preds[q].getLsbD l.val := by
  rw [writePred_get]
  by_cases h : q = p ∧ p ≠ 0
  · obtain ⟨h1, h2⟩ := h
    subst h1
    rw [if_pos ⟨rfl, h2⟩, BitVec.getLsbD_or, BitVec.getLsbD_and, BitVec.getLsbD_and, BitVec.getLsbD_not]
    cases hm : m.getLsbD l.val <;> simp [h2]
  · rw [if_neg h, if_neg (by tauto)]

/-! ### The queue -/

theorem pushOne_first (r : Regs) (v : Lanes W32) : (pushOne r v).q[0] = v := by simp [pushOne]

theorem pushOne_later (r : Regs) (v : Lanes W32) (i : Nat) (h : i + 1 < 16) : (pushOne r v).q[i + 1] = r.q[i] := by
  simp [pushOne]

/-! ### Named registers -/

/-- Copy 0 after a named write (R145, R212). -/
theorem namedWrite_named_get (r : Regs) (x : Fin 40) (m : W32) (v : Lanes W32) (y : Fin 40) (l : Fin 32) :
    (namedWrite r x m v).named[y][l] =
      if m.getLsbD l.val && (decide (y = x) && !(decide (y.val < 16) && copyOne r l)) then v[l] else r.named[y][l] := by
  unfold namedWrite
  by_cases hxy : y = x
  · subst hxy
    by_cases h : y.val < 16
    · simp [h]
    · simp [h]
  · have : x.val ≠ y.val := fun e => hxy (Fin.ext e.symm)
    by_cases h : x.val < 16
    · simp [h, hxy, Vector.getElem_set_ne _ _ this]
    · simp [h, hxy, Vector.getElem_set_ne _ _ this]

/-- Copy 1 after a named write (R145, R212). -/
theorem namedWrite_mirror_get (r : Regs) (x : Fin 40) (m : W32) (v : Lanes W32) (y : Fin 16) (l : Fin 32) :
    (namedWrite r x m v).mirror[y][l] =
      if m.getLsbD l.val && (decide (y.val = x.val) && copyOne r l) then v[l] else r.mirror[y][l] := by
  unfold namedWrite
  by_cases h : x.val < 16
  · simp only [h, dif_pos]
    by_cases hxy : y.val = x.val
    · have e : y = ⟨x.val, h⟩ := Fin.ext hxy
      subst e
      simp
    · have hne : x.val ≠ y.val := fun e => hxy e.symm
      simp [hxy, Vector.getElem_set_ne _ _ hne]
  · have hxy : ¬y.val = x.val := fun e => h (e ▸ y.isLt)
    simp [h, hxy]

theorem copyOne_namedWrite (r : Regs) (x : Fin 40) (m : W32) (v : Lanes W32) (l : Fin 32) :
    copyOne (namedWrite r x m v) l = copyOne r l := by
  simp [copyOne]

/-! ### Holds -/

theorem lowerLives_latch (r : Regs) : (lowerLives r).latch = latchAfter r none := by
  apply Vector.ext
  intro i hi
  have : i = 0 ∨ i = 1 ∨ i = 2 := by omega
  rcases this with rfl | rfl | rfl <;> simp [lowerLives, latchAfter, aged]

/-- The latch after the advance and the hold of a lane instruction (R57, R146). -/
theorem hold_latch (r : Regs) (n : Nat) (h : Hold) (x : HoldSet) (v : Lanes W64) (wide : Bool) :
    (hold (retire r n) h x v wide).latch = latchAfter r (heldBy h (x.a, x.aWide) (x.b, x.bWide) (v, wide)) := by
  have key : ∀ (y : Lanes W64) (b : Bool), (holdValue (retire r n) y b).latch = latchAfter r (some (y, b)) := by
    intro y b
    cases b <;> simp [holdValue, latchAfter, retire, lowerLives, aged]
  cases h
  · exact lowerLives_latch r
  · exact key _ _
  · exact key _ _
  · exact key _ _

/-- A hold changes the latch alone. -/
theorem hold_rest (r : Regs) (h : Hold) (x : HoldSet) (v : Lanes W64) (wide : Bool) :
    hold r h x v wide = { r with latch := (hold r h x v wide).latch } := by
  have key : ∀ (y : Lanes W64) (b : Bool), holdValue r y b = { r with latch := (holdValue r y b).latch } := by
    intro y b
    cases b <;> rfl
  cases h
  · rfl
  · exact key _ _
  · exact key _ _
  · exact key _ _

/-! ### Commits -/

/-- Writing a destination that passed the pair check. -/
def DstFits (d : Dst) (wide : Bool) : Prop := ∀ x, d = .n x → wide = true → x.val + 1 < 40

theorem writeDst_named_get (r : Regs) (d : Dst) (m : W32) (v : Lanes W64) (wide : Bool) (hd : DstFits d wide)
    (y : Fin 40) (l : Fin 32) :
    (writeDst r d m v wide).named[y][l] =
      if m.getLsbD l.val && !(decide (y.val < 16) && copyOne r l) then
        (match dstHalf d wide y.val with
          | some 0 => lo32 v[l]
          | some _ => hi32 v[l]
          | none => r.named[y][l])
      else r.named[y][l] := by
  cases d with
  | queue => simp [writeDst, dstHalf]
  | n x =>
    cases wide with
    | false =>
      simp only [writeDst, Bool.false_eq_true, if_false, namedWrite_named_get, loLanes_get, dstHalf, false_and]
      by_cases e : y = x
      · subst e; simp
      · have : ¬y.val = x.val := fun q => e (Fin.ext q)
        simp [e, this]
    | true =>
      have hx : x.val + 1 < 40 := hd x rfl rfl
      simp only [writeDst, if_true, hx, dif_pos, namedWrite_named_get, copyOne_namedWrite, loLanes_get, hiLanes_get, dstHalf,
        true_and]
      by_cases e : y = x
      · subst e
        have : ¬(y = ⟨y.val + 1, hx⟩) := fun q => by have := congrArg Fin.val q; simp at this
        simp [this]
      · have e1 : ¬y.val = x.val := fun q => e (Fin.ext q)
        by_cases e2 : y.val = x.val + 1
        · have : y = ⟨x.val + 1, hx⟩ := Fin.ext e2
          have e3 : ¬((⟨x.val + 1, hx⟩ : Fin 40) = x) := fun q => by have := congrArg Fin.val q; simp at this
          simp [this, e3]
        · have : ¬(y = ⟨x.val + 1, hx⟩) := fun q => e2 (congrArg Fin.val q)
          simp [e, e1, e2, this]

theorem writeDst_mirror_get (r : Regs) (d : Dst) (m : W32) (v : Lanes W64) (wide : Bool) (hd : DstFits d wide)
    (y : Fin 16) (l : Fin 32) :
    (writeDst r d m v wide).mirror[y][l] =
      if m.getLsbD l.val && copyOne r l then
        (match dstHalf d wide y.val with
          | some 0 => lo32 v[l]
          | some _ => hi32 v[l]
          | none => r.mirror[y][l])
      else r.mirror[y][l] := by
  cases d with
  | queue => simp [writeDst, dstHalf]
  | n x =>
    cases wide with
    | false =>
      simp only [writeDst, Bool.false_eq_true, if_false, namedWrite_mirror_get, loLanes_get, dstHalf, false_and]
      by_cases e : y.val = x.val <;> simp [e]
    | true =>
      have hx : x.val + 1 < 40 := hd x rfl rfl
      simp only [writeDst, if_true, hx, dif_pos, namedWrite_mirror_get, copyOne_namedWrite, loLanes_get, hiLanes_get, dstHalf,
        true_and]
      by_cases e1 : y.val = x.val
      · simp [e1]
      · by_cases e2 : y.val = x.val + 1 <;> simp [e1, e2]

/-- Both copies of the named registers replaced. -/
theorem namedWrite_form (r : Regs) (x : Fin 40) (m : W32) (v : Lanes W32) :
    ∃ a b, namedWrite r x m v = { r with named := a, mirror := b } := by
  unfold namedWrite
  split
  · exact ⟨_, _, rfl⟩
  · exact ⟨_, _, rfl⟩

/-- A destination write changes the named registers alone. -/
theorem writeDst_form (r : Regs) (d : Dst) (m : W32) (v : Lanes W64) (wide : Bool) :
    ∃ a b, writeDst r d m v wide = { r with named := a, mirror := b } := by
  cases d with
  | queue => exact ⟨_, _, rfl⟩
  | n x =>
    obtain ⟨a, b, e⟩ := namedWrite_form r x m (loLanes v)
    cases wide with
    | false => exact ⟨a, b, e⟩
    | true =>
      simp only [writeDst, if_true, e]
      split
      · obtain ⟨a2, b2, e2⟩ := namedWrite_form { r with named := a, mirror := b } ⟨x.val + 1, ‹_›⟩ m (hiLanes v)
        exact ⟨a2, b2, e2⟩
      · exact ⟨a, b, rfl⟩

/-- A push changes the queue, the valid bits and the push count. -/
theorem pushResult_form (r : Regs) (v : Lanes W64) (wide : Bool) :
    ∃ q, pushResult r v wide = { r with
      q := q
      qvalid := (if wide then (r.qvalid <<< 2) ||| 3 else (r.qvalid <<< 1) ||| 1)
      pushes := r.pushes + (if wide then 2 else 1) } := by
  cases wide with
  | false => exact ⟨_, rfl⟩
  | true =>
    refine ⟨(pushResult r v true).q, ?_⟩
    have hv : ((r.qvalid <<< 1 ||| 1) <<< 1 ||| 1 : W16) = r.qvalid <<< 2 ||| 3 := by
      rw [BitVec.shiftLeft_or_distrib, ← BitVec.shiftLeft_add, BitVec.or_assoc]
      rfl
    have hp : r.pushes + 1 + 1 = r.pushes + 2 := by
      generalize r.pushes = p
      revert p; decide
    simp only [pushResult, if_true]
    show ({ r with q := _, qvalid := _, pushes := _ } : Regs) = _
    rw [← hv, ← hp]
    rfl

/-! ### The whole effect -/

/-- The effect of a lane instruction: advance, hold, commit (R97, R143 to R146). -/
theorem laneFinish_done (r : Regs) (n : Nat) (d : Dst) (h : Hold) (x : HoldSet) (v : Lanes W64) (wide : Bool)
    (hd : DstFits d wide) :
    LaneDone r (laneFinish r n d h x v wide) n d wide v (heldBy h (x.a, x.aWide) (x.b, x.bWide) (onActive r v, wide)) := by
  have hm := maskLanes_eq r v
  simp only [laneFinish, hm, commit]
  generalize hu : hold (retire r n) h x (onActive r v) wide = u
  have hul : u.latch = latchAfter r (heldBy h (x.a, x.aWide) (x.b, x.bWide) (onActive r v, wide)) := by
    rw [← hu]; exact hold_latch _ _ _ _ _ _
  have hur : u = { r with pc := r.pc + BitVec.ofNat 64 n, latch := u.latch } := by
    rw [← hu, hold_rest]; rfl
  have hq : u.q = r.q := by rw [hur]
  have hn : u.named = r.named := by rw [hur]
  have hmi : u.mirror = r.mirror := by rw [hur]
  have hc : ∀ l, copyOne u l = copyOne r l := by intro l; rw [hur]; rfl
  obtain ⟨q, hp⟩ := pushResult_form u (onActive r v) wide
  obtain ⟨a, b, hw⟩ := writeDst_form (pushResult u (onActive r v) wide) d (activeMask r) (onActive r v) wide
  have hcp : ∀ l, copyOne (pushResult u (onActive r v) wide) l = copyOne r l := by
    intro l; rw [hp]; exact hc l
  refine ⟨?_, ?_, ?_, ?_, ?_, ?_, ?_, ?_⟩
  · intro l
    rw [hw]
    show (pushResult u (onActive r v) wide).q[0][l] = _
    cases wide <;> simp [pushResult, pushOne, loLanes]
  · intro hwd l
    subst hwd
    rw [hw]
    show (pushResult u (onActive r v) true).q[1][l] = _
    simp [pushResult, pushOne, hiLanes]
  · intro j i hji
    rw [hw]
    show (pushResult u (onActive r v) wide).q[i] = _
    cases wide with
    | false =>
      have : i.val = j.val + 1 := by simpa using hji.symm
      have h0 : ¬i.val = 0 := by omega
      have h1 : i.val - 1 = j.val := by omega
      have hf : ¬i = 0 := fun e => h0 (by rw [e]; rfl)
      simp [pushResult, pushOne, hf, h1, hq]
    | true =>
      have : i.val = j.val + 2 := by simpa using hji.symm
      have h0 : ¬i.val = 0 := by omega
      have h1 : ¬i.val - 1 = 0 := by omega
      have h2 : i.val - 1 - 1 = j.val := by omega
      have hf : ¬i = 0 := fun e => h0 (by rw [e]; rfl)
      simp [pushResult, pushOne, hf, h1, h2, hq]
  · rw [hw, hp, hur]
  · intro y l
    rw [writeDst_named_get _ _ _ _ _ hd, activeMask_lsb]
    unfold afterWrite
    rw [hcp]
    have e : (pushResult u (onActive r v) wide).named[y][l] = r.named[y][l] := by rw [hp]; simp [hn]
    rw [e]
    cases ho : laneOn r l
    · simp
    · have ev : (onActive r v)[l] = v[l] := by simp [onActive, ho]
      rw [ev]
      try rfl
  · intro y l
    rw [writeDst_mirror_get _ _ _ _ _ hd, activeMask_lsb]
    unfold afterWrite
    rw [hcp]
    have e : (pushResult u (onActive r v) wide).mirror[y][l] = r.mirror[y][l] := by rw [hp]; simp [hmi]
    rw [e]
    cases ho : laneOn r l
    · simp
    · have ev : (onActive r v)[l] = v[l] := by simp [onActive, ho]
      rw [ev]
      try rfl
  · rw [hw, hp]
    exact hul
  · rw [hw, hp, hur]

end Sys2Proof.Machine
end

