-- ==== Sys2Proof/Laws/Frames.lean ====
section
/-!
SUPPORT. Frames: what performance events and checked effects leave alone.
-/

namespace Sys2Proof

open Sys2Proof.Machine

theorem SameMemory.refl (s : State) : SameMemory s s := ⟨fun _ => rfl, fun _ _ _ => rfl, fun _ _ => rfl⟩

/-- Memory reads alike where its three lists are the same. -/
theorem sameMemory_of_eq {s t : State} (h1 : t.hbm = s.hbm) (h2 : t.lag = s.lag) (h3 : t.vbytes = s.vbytes) : SameMemory s t := by
  refine ⟨fun pa => ?_, fun d tok pa => ?_, fun k pa => ?_⟩
  · simp [memByte, h1]
  · simp [viewByte, visibleWrite, memByte, h1, h2]
  · simp [gangVersion, h3]

theorem OnlyWave.of_eq {s t : State} (h : t = { s with wave := t.wave, cores := t.cores })
    (hc : ∀ c : Fin 192, t.cores[c] = { s.cores[c] with pm := t.cores[c].pm }) : OnlyWave s t :=
  ⟨h, hc, sameMemory_of_eq (by rw [h]) (by rw [h]) (by rw [h])⟩

/-- A performance event changes the performance counters of one core at most. -/
theorem countEvent_form (s : State) (c : Fin 192) (k : Option GangKey) (ev n : Nat) :
    ∃ f : Core → Vector Pm 4, countEvent s c k ev n = onCore s c fun x => { x with pm := f x } := by
  unfold countEvent
  simp only
  split
  · refine ⟨fun x => x.pm, ?_⟩
    have : (onCore s c fun x => { x with pm := x.pm }) = s := by
      have e : s.cores.set c.val s.cores[c] = s.cores := by
        apply Vector.ext
        intro i hi
        by_cases hci : c.val = i
        · subst hci; simp
        · simp
      show { s with cores := s.cores.set c.val s.cores[c] } = s
      rw [e]
    rw [this]
  · exact ⟨fun x => x.pm.map _, rfl⟩

theorem onlyPm (s : State) (c : Fin 192) (f : Core → Vector Pm 4) : OnlyWave s (onCore s c fun x => { x with pm := f x }) := by
  apply OnlyWave.of_eq
  · rfl
  · intro u
    by_cases h : u = c
    · subst h; simp
    · rw [onCore_other _ _ _ _ h]

theorem OnlyWave.refl (s : State) : OnlyWave s s := OnlyWave.of_eq rfl fun _ => rfl

theorem OnlyWave.trans {s t u : State} (h : OnlyWave s t) (g : OnlyWave t u) : OnlyWave s u := by
  have e : u = { s with wave := u.wave, cores := u.cores } := by
    have a := h.rest
    have b := g.rest
    generalize hw : t.wave = w at a
    generalize hk : t.cores = k at a
    subst a
    exact b
  apply OnlyWave.of_eq e
  intro c
  rw [g.cores c, h.cores c]

theorem countEvent_only (s : State) (c : Fin 192) (k : Option GangKey) (ev n : Nat) : OnlyWave s (countEvent s c k ev n) := by
  obtain ⟨f, e⟩ := countEvent_form s c k ev n
  rw [e]
  exact onlyPm s c f

@[simp] theorem countEvent_wave (s : State) (c : Fin 192) (k : Option GangKey) (ev n : Nat) :
    (countEvent s c k ev n).wave = s.wave := by
  obtain ⟨f, e⟩ := countEvent_form s c k ev n
  rw [e]
  rfl

theorem onWave_only (s : State) (f : Wave → Wave) : OnlyWave s (onWave s f) := OnlyWave.of_eq rfl fun _ => rfl

theorem onRegs_only (s : State) (f : Regs → Regs) : OnlyRegs s (onRegs s f) := ⟨OnlyWave.of_eq rfl fun _ => rfl, rfl⟩

theorem countBanks_only (s : State) (uses : List OpUse) : OnlyWave s (countBanks s uses) := by
  unfold countBanks
  simp only
  split
  · exact OnlyWave.refl s
  · exact countEvent_only _ _ _ _ _

@[simp] theorem countBanks_wave (s : State) (uses : List OpUse) : (countBanks s uses).wave = s.wave := by
  unfold countBanks
  simp only
  split
  · rfl
  · exact countEvent_wave _ _ _ _ _

/-- An effect on the registers whose operands pass R91. -/
theorem checked_next (s : State) (uses : List OpUse) (ok : Bool) (f : Regs → Regs)
    (h : operandFault s.wave.regs uses ok = none) :
    ∃ u, checked s uses ok f = .next u ∧ OnlyRegs s u ∧ u.wave.regs = f s.wave.regs := by
  refine ⟨onRegs (countBanks s uses) f, by simp [checked, h], ⟨?_, ?_⟩, by simp⟩
  · exact (countBanks_only s uses).trans (onRegs_only _ _).out
  · have e := countBanks_wave s uses
    show ({ (countBanks s uses).wave with regs := f (countBanks s uses).wave.regs } : Wave) = { s.wave with regs := f (countBanks s uses).wave.regs }
    rw [e]

/-- What R91 leaves of a destination: its pair lies within the named registers. -/
theorem dstFits_of_passed (r : Regs) (uses : List OpUse) (ok : Bool) (d : Dst) (wide : Bool)
    (hu : OpUse.dst d wide ∈ uses) (h : operandFault r uses ok = none) : DstFits d wide := by
  intro x hd hw
  subst hd hw
  unfold operandFault at h
  split at h
  · cases h
  · rename_i hr
    simp only [List.any_eq_true, not_exists, not_and, Bool.not_eq_true] at hr
    have := hr _ hu
    simp only [rangeBad, Bool.true_and, Bool.or_eq_false_iff, decide_eq_false_iff_not] at this
    have hn := r.nregs.isLt
    omega

end Sys2Proof
end

