-- ==== Sys2Proof/Laws/Memory.lean ====
section
/-!
SUPPORT. The canonical lists of cells: every operation keeps the form, a read after a write gives the value written, and a write leaves every other key alone; and the same for the operations over global memory and scratchpads.
-/

namespace Sys2Proof

open Sys2Proof.Machine

/-! ### Lists of cells -/

theorem cellsFrom_weaken {α : Type} [DecidableEq α] {d : α} {lo : Nat} {l : List (Nat × α)}
    (h : cellsFrom d (some lo) l = true) : cellsFrom d none l = true := by
  cases l with
  | nil => rfl
  | cons c l => simp only [cellsFrom, Bool.and_eq_true] at h ⊢; exact ⟨⟨trivial, h.1.2⟩, h.2⟩

theorem cellsFrom_lower {α : Type} [DecidableEq α] {d : α} {lo k : Nat} {l : List (Nat × α)} (hk : k ≤ lo)
    (h : cellsFrom d (some lo) l = true) : cellsFrom d (some k) l = true := by
  cases l with
  | nil => rfl
  | cons c l =>
    simp only [cellsFrom, Bool.and_eq_true, decide_eq_true_eq] at h ⊢
    exact ⟨⟨by omega, h.1.2⟩, h.2⟩

/-- Writing a key above the bound keeps the form above the bound. -/
theorem cellSet_from {α : Type} [DecidableEq α] (d : α) (a : Nat) (v : α) :
    ∀ (l : List (Nat × α)) (lo : Option Nat), (∀ b, lo = some b → b < a) → cellsFrom d lo l = true →
      cellsFrom d lo (cellSet d l a v) = true
  | [], lo, hlo, _ => by
    unfold cellSet
    split
    · rfl
    · cases lo with
      | none => simp_all [cellsFrom]
      | some b => simp_all [cellsFrom]
  | (b, w) :: l, lo, hlo, h => by
    have h' := h
    simp only [cellsFrom, Bool.and_eq_true, decide_eq_true_eq] at h'
    obtain ⟨⟨h1, h2⟩, h3⟩ := h'
    unfold cellSet
    split
    · rename_i hab
      split
      · exact h
      · rename_i hv
        simp only [cellsFrom, Bool.and_eq_true, decide_eq_true_eq]
        refine ⟨⟨?_, hv⟩, ⟨hab, h2⟩, h3⟩
        cases lo with
        | none => rfl
        | some c => simpa using hlo c rfl
    · split
      · rename_i hab
        subst hab
        split
        · cases lo with
          | none => exact cellsFrom_weaken h3
          | some c => exact cellsFrom_lower (Nat.le_of_lt (hlo c rfl)) h3
        · rename_i hv
          simp only [cellsFrom, Bool.and_eq_true, decide_eq_true_eq]
          exact ⟨⟨h1, hv⟩, h3⟩
      · rename_i hlt hne
        simp only [cellsFrom, Bool.and_eq_true, decide_eq_true_eq]
        refine ⟨⟨h1, h2⟩, cellSet_from d a v l (some b) ?_ h3⟩
        intro c hc
        cases hc
        omega

theorem cellSet_wf {α : Type} [DecidableEq α] (d : α) (l : List (Nat × α)) (a : Nat) (v : α) (h : cellsWf d l = true) :
    cellsWf d (cellSet d l a v) = true :=
  cellSet_from d a v l none (by simp) h

/-- Below the first key every read gives the value of an unlisted key. -/
theorem cellGet_below {α : Type} [DecidableEq α] (d : α) (a : Nat) :
    ∀ (l : List (Nat × α)) (b : Nat), a ≤ b → cellsFrom d (some b) l = true → cellGet d l a = d
  | [], _, _, _ => rfl
  | (c, w) :: l, b, hab, h => by
    simp only [cellsFrom, Bool.and_eq_true, decide_eq_true_eq] at h
    have hc : b < c := h.1.1
    unfold cellGet
    rw [if_neg (by omega), if_pos (by omega)]

/-- A read after a write to the same key gives the value written. -/
theorem cellGet_set_same {α : Type} [DecidableEq α] (d : α) (a : Nat) (v : α) :
    ∀ (l : List (Nat × α)) (lo : Option Nat), cellsFrom d lo l = true → cellGet d (cellSet d l a v) a = v
  | [], _, _ => by
    unfold cellSet
    split
    · rename_i h; simp [cellGet, h]
    · simp [cellGet]
  | (b, w) :: l, lo, h => by
    simp only [cellsFrom, Bool.and_eq_true, decide_eq_true_eq] at h
    unfold cellSet
    split
    · rename_i hab
      split
      · rename_i hv
        simp [cellGet, hab, hv, Nat.ne_of_lt hab]
      · simp [cellGet]
    · split
      · rename_i hab
        subst hab
        split
        · rename_i hv
          rw [cellGet_below d a l a (Nat.le_refl _) h.2, hv]
        · simp [cellGet]
      · rename_i h1 h2
        simp only [cellGet, if_neg h2, if_neg h1]
        exact cellGet_set_same d a v l _ h.2

/-- A write leaves every other key alone. -/
theorem cellGet_set_other {α : Type} [DecidableEq α] (d : α) (a : Nat) (v : α) (b : Nat) (hb : b ≠ a) :
    ∀ (l : List (Nat × α)) (lo : Option Nat), cellsFrom d lo l = true → cellGet d (cellSet d l a v) b = cellGet d l b
  | [], _, _ => by
    unfold cellSet
    split
    · rfl
    · simp [cellGet, hb]
  | (c, w) :: l, lo, h => by
    simp only [cellsFrom, Bool.and_eq_true, decide_eq_true_eq] at h
    unfold cellSet
    split
    · rename_i hac
      split
      · rfl
      · by_cases hlt : b < a
        · simp [cellGet, hb, hlt, show b ≠ c by omega, show b < c by omega]
        · simp [cellGet, hb, hlt]
    · split
      · rename_i hac
        subst hac
        split
        · by_cases hlt : b < a
          · rw [cellGet_below d b l a (Nat.le_of_lt hlt) h.2]
            simp [cellGet, hb, hlt]
          · simp [cellGet, hb, hlt]
        · simp [cellGet, hb]
      · simp only [cellGet]
        rw [cellGet_set_other d a v b hb l _ h.2]

theorem cellGet_set {α : Type} [DecidableEq α] (d : α) (l : List (Nat × α)) (a : Nat) (v : α) (b : Nat) (h : cellsWf d l = true) :
    cellGet d (cellSet d l a v) b = if b = a then v else cellGet d l b := by
  by_cases hb : b = a
  · subst hb; rw [if_pos rfl]; exact cellGet_set_same d b v l none h
  · rw [if_neg hb]; exact cellGet_set_other d a v b hb l none h

/-! ### Several bytes -/

theorem cellsPut_wf (bytes : List (Nat × W8)) : ∀ l : List Host.Cell, cellsWf (0 : W8) l = true → cellsWf (0 : W8) (cellsPut l bytes) = true := by
  induction bytes with
  | nil => intro l h; exact h
  | cons b bs ih => intro l h; exact ih _ (cellSet_wf 0 l b.1 b.2 h)

/-- Bytes that are not written read as before. -/
theorem cellsPut_other (bytes : List (Nat × W8)) (a : Nat) (ha : ∀ b ∈ bytes, b.1 ≠ a) :
    ∀ l : List Host.Cell, cellsWf (0 : W8) l = true → cellGet 0 (cellsPut l bytes) a = cellGet 0 l a := by
  induction bytes with
  | nil => intro l _; rfl
  | cons b bs ih =>
    intro l h
    have h1 := ih (fun c hc => ha c (List.mem_cons_of_mem _ hc)) (cellSet 0 l b.1 b.2) (cellSet_wf 0 l b.1 b.2 h)
    have h2 := cellGet_set (0 : W8) l b.1 b.2 a h
    rw [if_neg (fun e => ha b (List.mem_cons_self ..) e.symm)] at h2
    exact h1.trans h2

/-- A byte that is written once reads as written. -/
theorem cellsPut_mem (bytes : List (Nat × W8)) (hn : (bytes.map Prod.fst).Nodup) (b : Nat × W8) (hb : b ∈ bytes) :
    ∀ l : List Host.Cell, cellsWf (0 : W8) l = true → cellGet 0 (cellsPut l bytes) b.1 = b.2 := by
  induction bytes with
  | nil => cases hb
  | cons c cs ih =>
    intro l h
    simp only [List.map_cons, List.nodup_cons, List.mem_map, not_exists, not_and] at hn
    have hw := cellSet_wf 0 l c.1 c.2 h
    rcases List.mem_cons.mp hb with e | e
    · subst e
      have h1 := cellsPut_other cs b.1 (fun x hx hxe => hn.1 x hx hxe) (cellSet 0 l b.1 b.2) hw
      have h2 := cellGet_set (0 : W8) l b.1 b.2 b.1 h
      rw [if_pos rfl] at h2
      exact h1.trans h2
    · exact ih hn.2 e (cellSet 0 l c.1 c.2) hw

theorem filter_from (p : Host.Cell → Bool) :
    ∀ (l : List Host.Cell) (lo : Option Nat), cellsFrom (0 : W8) lo l = true → cellsFrom (0 : W8) lo (l.filter p) = true
  | [], _, _ => rfl
  | (a, v) :: l, lo, h => by
    have h' := h
    simp only [cellsFrom, Bool.and_eq_true, decide_eq_true_eq] at h'
    have ih := filter_from p l (some a) h'.2
    by_cases hp : p (a, v) = true
    · rw [List.filter_cons_of_pos hp]
      simp only [cellsFrom, Bool.and_eq_true, decide_eq_true_eq]
      exact ⟨h'.1, ih⟩
    · rw [List.filter_cons_of_neg hp]
      cases lo with
      | none => exact cellsFrom_weaken ih
      | some b =>
        have : b < a := by simpa using h'.1.1
        exact cellsFrom_lower (Nat.le_of_lt this) ih

theorem dropRange_wf (l : List Host.Cell) (lo n : Nat) (h : cellsWf (0 : W8) l = true) : cellsWf (0 : W8) (dropRange l lo n) = true :=
  filter_from _ l none h

/-! ### Global memory and scratchpads -/

theorem stampUnit_wf (s : State) (core : Option (Fin 192)) (token : W32) (dep : Clk) (bytes : List (Nat × W8))
    (h : Memory.wf s.hbm = true) : Memory.wf (stampUnit s core token dep bytes).1.hbm = true := by
  cases bytes with
  | nil => exact h
  | cons b bs => exact cellsPut_wf (b :: bs) s.hbm h

theorem memByte_stamp_other (s : State) (core : Option (Fin 192)) (token : W32) (dep : Clk) (bytes : List (Nat × W8)) (pa : Nat)
    (hw : Memory.wf s.hbm = true) (h : ∀ b ∈ bytes, b.1 ≠ pa) :
    memByte (stampUnit s core token dep bytes).1 pa = memByte s pa := by
  cases bytes with
  | nil => rfl
  | cons b bs => exact cellsPut_other (b :: bs) pa h s.hbm hw

theorem memByte_stamp_mem (s : State) (core : Option (Fin 192)) (token : W32) (dep : Clk) (bytes : List (Nat × W8))
    (hw : Memory.wf s.hbm = true) (hn : (bytes.map Prod.fst).Nodup) (b : Nat × W8) (hb : b ∈ bytes) :
    memByte (stampUnit s core token dep bytes).1 b.1 = b.2 := by
  cases bytes with
  | nil => cases hb
  | cons c cs => exact cellsPut_mem (c :: cs) hn b hb s.hbm hw

theorem pokeBytes_wf (s : State) (bytes : List (Nat × W8)) (h : Memory.wf s.hbm = true) : Memory.wf (pokeBytes s bytes).hbm = true :=
  stampUnit_wf s none 0 {} bytes h

theorem pokeNat_wf (s : State) (pa n x : Nat) (h : Memory.wf s.hbm = true) : Memory.wf (pokeNat s pa n x).hbm = true :=
  pokeBytes_wf s _ h

theorem memByte_poke_other (s : State) (bytes : List (Nat × W8)) (pa : Nat) (hw : Memory.wf s.hbm = true)
    (h : ∀ b ∈ bytes, b.1 ≠ pa) : memByte (pokeBytes s bytes) pa = memByte s pa :=
  memByte_stamp_other s none 0 {} bytes pa hw h

theorem deviceWrite_wf (s : State) (pa n x : Nat) (h : Memory.wf s.hbm = true) : Memory.wf (deviceWrite s pa n x).hbm = true :=
  stampUnit_wf s none 0 _ _ h

theorem applyWrite_hbm (s : State) (d h : Fin 2) (cs : List (Fin 192)) : (applyWrite s d h cs).hbm = s.hbm := by
  have fold : ∀ (l : List (Fin 192)) (r : WriteRec) (t : State),
      (l.foldl (fun t c => onCore t c fun x => { x with l1 := x.l1.map fun l => linePatch l r }) t).hbm = t.hbm := by
    intro l r
    induction l with
    | nil => intro t; rfl
    | cons c l ih => intro t; rw [List.foldl_cons, ih]; rfl
  unfold applyWrite
  split
  · rfl
  · simp only
    rw [fold]
    rfl

theorem reset_memory_wf : Memory.wf State.reset.hbm = true := rfl

end Sys2Proof
end

