-- ==== Sys2Proof/Laws/Keeps.lean ====
section
/-!
SUPPORT. The shared operations keep the canonical form of global memory: translation, the checks of lanes, the lines a load fetches, the stores of units, trap entry.
-/

namespace Sys2Proof

open Sys2Proof.Machine

/-! ### Operations that leave global memory alone -/

@[simp] theorem countEvent_hbm (s : State) (c : Fin 192) (k : Option GangKey) (ev n : Nat) : (countEvent s c k ev n).hbm = s.hbm := by
  obtain ⟨f, e⟩ := countEvent_form s c k ev n
  rw [e]
  rfl

@[simp] theorem tlbFill_hbm (s : State) (c : Fin 192) (e : TlbEntry) : (tlbFill s c e).hbm = s.hbm := rfl

@[simp] theorem report_hbm (s : State) (p : Option (Fin 24)) (group : Nat) (cause : Cause) (info : Nat) :
    (report s p group cause info).hbm = s.hbm := rfl

@[simp] theorem useL2_hbm (s : State) (c : Fin 192) (k : Option GangKey) (d : Fin 2) (line : Nat) (cls : Option (Fin 3)) :
    (useL2 s c k d line cls).hbm = s.hbm := by simp [useL2]

@[simp] theorem spillLines_hbm (s : State) (c : Fin 192) (l : List (W32 × Nat)) : (spillLines s c l).hbm = s.hbm := by
  have fold : ∀ (l : List (W32 × Nat)) (t : State), (l.foldl (fun t x => onToken t x.1 fun w => writeBack w x.2) t).hbm = t.hbm := by
    intro l
    induction l with
    | nil => intro t; rfl
    | cons x xs ih => intro t; rw [List.foldl_cons, ih]; rfl
  unfold spillLines
  split
  · rfl
  · exact fold l s

@[simp] theorem privFill_hbm (s : State) (w : Wave) (line : Nat) : (privFill s w line).hbm = s.hbm := by
  unfold privFill
  simp only
  split <;> simp

@[simp] theorem l1Fill_hbm (s : State) (c : Fin 192) (line : Nat) : (l1Fill s c line).hbm = s.hbm := by simp [l1Fill]

@[simp] theorem nodeFill_hbm (s : State) (d : Fin 2) (p : Fin 24) (va : Nat) : (nodeFill s d p va).hbm = s.hbm := by
  unfold nodeFill
  generalize walkNodes s p va (walkStart s d p va).1 (walkStart s d p va).2 = l
  generalize s = t
  induction l generalizing t with
  | nil => rfl
  | cons x xs ih => rw [List.foldl_cons, ih]; simp

@[simp] theorem countBanks_hbm (s : State) (uses : List OpUse) : (countBanks s uses).hbm = s.hbm := by
  unfold countBanks
  simp only
  split
  · rfl
  · exact countEvent_hbm ..

@[simp] theorem acquire_hbm (s : State) : (acquire s).hbm = s.hbm := by
  unfold acquire acquireStep
  simp only
  split <;> rfl

@[simp] theorem spadWrite_hbm (s : State) (k : GangKey) (i : Fin 8) (off : Nat) (bytes : List W8) (v : Clk) :
    (spadWrite s k i off bytes v).hbm = s.hbm := rfl

theorem fetchLines_hbm (s : State) (pol : W64) (l : List (Fin 32 × Place)) : (fetchLines s pol l).hbm = s.hbm := by
  unfold fetchLines
  simp only
  generalize memLines l = ls
  suffices h : ∀ (t : State), (ls.foldl _ t).hbm = t.hbm from h s
  induction ls with
  | nil => intro t; rfl
  | cons x xs ih =>
    intro t
    rw [List.foldl_cons, ih]
    split
    · exact countEvent_hbm ..
    · split <;> simp

theorem versionUnit_hbm (s t : State) (p : Fin 24) (k : GangKey) (tid : W64) (bytes : List (Nat × W8))
    (h : versionUnit s p k tid bytes = some t) : t.hbm = s.hbm := by
  cases bytes with
  | nil => cases h; rfl
  | cons b bs =>
    unfold versionUnit at h
    simp only at h
    split at h
    · cases h; rfl
    · split at h
      · cases h
      · cases h; split <;> rfl

/-! ### Operations that keep its form -/

/-- Keeping of the canonical form from one state to another. -/
structure KeepsForm (s t : State) : Prop where
  wf : Memory.wf s.hbm = true → Memory.wf t.hbm = true

theorem KeepsForm.refl (s : State) : KeepsForm s s := ⟨fun w => w⟩

theorem KeepsForm.of_eq {s t : State} (h : t.hbm = s.hbm) : KeepsForm s t := ⟨fun w => by rw [h]; exact w⟩

theorem KeepsForm.trans {s t u : State} (h : KeepsForm s t) (g : KeepsForm t u) : KeepsForm s u := ⟨fun w => g.wf (h.wf w)⟩

theorem pokeNat_keeps (s : State) (pa n x : Nat) : KeepsForm s (pokeNat s pa n x) := ⟨pokeNat_wf s pa n x⟩

theorem poolTake_keeps (p : Fin 24) (pool c : Nat) : ∀ (n : Nat) (s : State), KeepsForm s (poolTake p pool c n s).2
  | 0, s => KeepsForm.refl s
  | n + 1, s => by
    unfold poolTake
    simp only
    split
    · exact KeepsForm.refl _
    · split
      · exact pokeNat_keeps ..
      · refine KeepsForm.trans ?_ (poolTake_keeps p pool c n _)
        exact (pokeNat_keeps ..).trans (KeepsForm.of_eq (report_hbm ..))

theorem mapZero_keeps (s : State) (lv addr pg : Nat) : KeepsForm s (mapZero s lv addr pg) :=
  ⟨fun w => pokeNat_wf _ _ _ _ (dropRange_wf _ _ _ w)⟩

theorem demandZero_keeps (s : State) (p : Fin 24) (lv addr : Nat) : KeepsForm s (demandZero s p lv addr).2 := by
  unfold demandZero
  simp only
  split
  · exact KeepsForm.refl _
  · have h := poolTake_keeps p s.parts[p].dzpool.toNat lv (poolCount s s.parts[p].dzpool.toNat lv) s
    split
    · rename_i heq; rw [heq] at h; exact h
    · rename_i heq; rw [heq] at h; exact h.trans (mapZero_keeps ..)

theorem useEntry_keeps (s : State) (c : Fin 192) (e : TlbEntry) (va : Nat) (acc : Sys2Proof.Access) : KeepsForm s (useEntry s c e va acc).2 := by
  unfold useEntry
  simp only
  split
  · exact KeepsForm.refl _
  · exact KeepsForm.refl _
  · split
    · exact KeepsForm.refl _
    · split
      · exact KeepsForm.refl _
      · exact (pokeNat_keeps s _ _ _).trans (KeepsForm.of_eq rfl)

theorem leafFill_keeps (s : State) (c : Fin 192) (p : Fin 24) (va lv addr pte : Nat) : KeepsForm s (leafFill s c p va lv addr pte).2 := by
  unfold leafFill
  simp only
  split
  · exact KeepsForm.of_eq (by simp)
  · refine KeepsForm.trans (KeepsForm.of_eq (nodeFill_hbm s (coreDie c) p va)) ?_
    refine (pokeNat_keeps (nodeFill s (coreDie c) p va) addr 8 (memNat (nodeFill s (coreDie c) p va) addr 8 ||| 32)).trans ?_
    exact KeepsForm.of_eq (by simp)

theorem useMapped_keeps (s : State) (c : Fin 192) (p : Fin 24) (va lv addr : Nat) (acc : Sys2Proof.Access) :
    KeepsForm s (useMapped s c p va lv addr acc).2 := by
  unfold useMapped
  split
  · exact (leafFill_keeps ..).trans (useEntry_keeps ..)
  · exact KeepsForm.refl _

theorem translate_keeps (s : State) (c : Fin 192) (p : Fin 24) (va : Nat) (acc : Sys2Proof.Access) : KeepsForm s (translate s c p va acc).2 := by
  unfold Machine.translate
  split
  · exact useEntry_keeps ..
  · split
    · exact (KeepsForm.of_eq (by rfl)).trans (useEntry_keeps ..)
    · split
      · exact KeepsForm.refl _
      · exact (leafFill_keeps ..).trans (useEntry_keeps ..)
      · rename_i lv addr _
        split
        · exact useMapped_keeps ..
        · split
          · exact KeepsForm.refl _
          · have h := demandZero_keeps s p lv addr
            split
            · rename_i heq; rw [heq] at h; exact h
            · rename_i heq; rw [heq] at h; exact h.trans (useMapped_keeps ..)

theorem coreTranslate_keeps (s : State) (c : Fin 192) (k : Option GangKey) (p : Fin 24) (va : Nat) (acc : Sys2Proof.Access) :
    KeepsForm s (coreTranslate s c k p va acc).2 := by
  unfold coreTranslate
  simp only
  refine KeepsForm.trans (KeepsForm.of_eq ?_) (translate_keeps ..)
  split <;> split <;> simp

theorem waveTranslate_keeps (s : State) (va : Nat) (acc : Sys2Proof.Access) : KeepsForm s (waveTranslate s va acc).2 := by
  have h := coreTranslate_keeps s s.wave.ids.core (some s.wave.ids.gang) s.wave.ids.part va acc
  unfold waveTranslate onRelease
  split
  · rename_i heq; rw [heq] at h; exact h
  · exact h

theorem checkUnit_keeps (s : State) (a n : Nat) (u : Use) : KeepsForm s (checkUnit s a n u).2 := by
  unfold checkUnit
  simp only
  split
  · exact KeepsForm.refl _
  · split
    · exact KeepsForm.refl _
    · split
      · exact KeepsForm.refl _
      · split <;> exact KeepsForm.refl _
  · split
    · exact KeepsForm.refl _
    · split
      · exact KeepsForm.refl _
      · split <;> exact KeepsForm.refl _
  · rename_i va _
    split
    · exact KeepsForm.refl _
    · have h := waveTranslate_keeps s va (if u == .load then .read else .write)
      split
      · rename_i heq; rw [heq] at h; exact h
      · rename_i heq; rw [heq] at h; exact h
      · rename_i heq
        rw [heq] at h
        split
        · exact h
        · split <;> exact h
  · split <;> exact KeepsForm.refl _
  · exact KeepsForm.refl _

theorem checkLanes_keeps (s : State) (act : W32) (ea : Lanes W64) (n : Nat) (u : Use) : KeepsForm s (checkLanes s act ea n u).2 := by
  unfold checkLanes
  generalize laneList.filter (fun l => act.getLsbD l.val) = ls
  suffices h : ∀ (acc : List LaneAt × State), KeepsForm acc.2
      (ls.foldl (fun (acc : List LaneAt × State) l =>
        let r := checkUnit acc.2 ea[l].toNat n u
        (acc.1 ++ [⟨l, ea[l], r.1⟩], r.2)) acc).2 from h ([], s)
  induction ls with
  | nil => exact fun acc => KeepsForm.refl _
  | cons x xs ih =>
    intro acc
    rw [List.foldl_cons]
    refine KeepsForm.trans ?_ (ih _)
    exact checkUnit_keeps acc.2 ea[x].toNat n u

theorem waveStamp_keeps (s : State) (bytes : List (Nat × W8)) : KeepsForm s (waveStamp s bytes) :=
  ⟨stampUnit_wf s (some s.wave.ids.core) s.wave.ids.token s.wave.clk bytes⟩

theorem storeUnit_keeps (s t : State) (versioned : Bool) (l : Fin 32) (p : Place) (bytes : List W8)
    (h : storeUnit s versioned l p bytes = some t) : KeepsForm s t := by
  cases p with
  | mem pa va =>
    cases versioned with
    | true => exact KeepsForm.of_eq (versionUnit_hbm _ _ _ _ _ _ h)
    | false => cases h; exact waveStamp_keeps ..
  | own off =>
    cases h
    refine KeepsForm.of_eq ?_
    rw [onWave_hbm]
    generalize ownLines off bytes.length = ls
    generalize s = t
    induction ls generalizing t with
    | nil => rfl
    | cons x xs ih => rw [List.foldl_cons, ih, privFill_hbm]
  | spad i off => cases h; exact KeepsForm.of_eq rfl
  | remote a => cases h; exact KeepsForm.refl _

/-- A scratchpad's list keeps its form under a write. -/
theorem spadWrite_spads (s : State) (k : GangKey) (i : Fin 8) (off : Nat) (bytes : List W8) (v : Clk)
    (h : ∀ g ∈ s.groups, cellsWf (0 : W8) g.spad = true) : ∀ g ∈ (spadWrite s k i off bytes v).groups, cellsWf (0 : W8) g.spad = true := by
  intro g hg
  unfold spadWrite onGroup at hg
  simp only [List.mem_map] at hg
  obtain ⟨x, hx, e⟩ := hg
  split at e
  · subst e; exact cellsPut_wf _ _ (h x hx)
  · subst e; exact h x hx

end Sys2Proof
end

