-- ==== Sys2Proof/Laws/PerInstr.lean ====
section
/-!
SUPPORT. What holds of every row of the table as syntax, one lemma per constructor.
-/

namespace Sys2Proof.Laws.Coding

open Sys2Proof

/-- An instruction's encoding has as many bytes as the instruction takes, whole words (R75, R76); a row without an encoding has none (log entry 1). -/
def Statement (i : Instr) : Prop :=
  (i.isEvent = true → encode i = []) ∧ (i.isEvent = false → (encodeBytes i).length = i.size ∧ (i.size = 4 ∨ i.size = 8))

theorem nop : Statement (.nop) := ⟨fun h => (nomatch h), fun _ => ⟨rfl, .inl rfl⟩⟩
theorem endW : Statement (.endW) := ⟨fun h => (nomatch h), fun _ => ⟨rfl, .inl rfl⟩⟩
theorem yieldW : Statement (.yieldW) := ⟨fun h => (nomatch h), fun _ => ⟨rfl, .inl rfl⟩⟩
theorem jmp (o : BitVec 20) : Statement (.jmp o) := ⟨fun h => (nomatch h), fun _ => ⟨rfl, .inl rfl⟩⟩
theorem jmpk (a : KReg) : Statement (.jmpk a) := ⟨fun h => (nomatch h), fun _ => ⟨rfl, .inl rfl⟩⟩
theorem call (o : BitVec 20) : Statement (.call o) := ⟨fun h => (nomatch h), fun _ => ⟨rfl, .inl rfl⟩⟩
theorem ret : Statement (.ret) := ⟨fun h => (nomatch h), fun _ => ⟨rfl, .inl rfl⟩⟩
theorem brany (c : Guard) (o : BitVec 20) : Statement (.brany c o) := ⟨fun h => (nomatch h), fun _ => ⟨rfl, .inl rfl⟩⟩
theorem brall (c : Guard) (o : BitVec 20) : Statement (.brall c o) := ⟨fun h => (nomatch h), fun _ => ⟨rfl, .inl rfl⟩⟩
theorem brnone (c : Guard) (o : BitVec 20) : Statement (.brnone c o) := ⟨fun h => (nomatch h), fun _ => ⟨rfl, .inl rfl⟩⟩
theorem ifp (c : Guard) (o : BitVec 20) : Statement (.ifp c o) := ⟨fun h => (nomatch h), fun _ => ⟨rfl, .inl rfl⟩⟩
theorem elsep (o : BitVec 20) : Statement (.elsep o) := ⟨fun h => (nomatch h), fun _ => ⟨rfl, .inl rfl⟩⟩
theorem endifp : Statement (.endifp) := ⟨fun h => (nomatch h), fun _ => ⟨rfl, .inl rfl⟩⟩
theorem breakp (c : Guard) (o : BitVec 20) : Statement (.breakp c o) := ⟨fun h => (nomatch h), fun _ => ⟨rfl, .inl rfl⟩⟩
theorem trap (n : Fin 8) (a : Src) : Statement (.trap n a) := ⟨fun h => (nomatch h), fun _ => ⟨rfl, .inl rfl⟩⟩
theorem execrd (d : Dst) (h : Hold) : Statement (.execrd d h) := ⟨fun h => (nomatch h), fun _ => ⟨rfl, .inl rfl⟩⟩
theorem execwr (a : Src) (h : Hold) : Statement (.execwr a h) := ⟨fun h => (nomatch h), fun _ => ⟨rfl, .inl rfl⟩⟩
theorem setMode (m : BitVec 13) : Statement (.setMode m) := ⟨fun h => (nomatch h), fun _ => ⟨rfl, .inl rfl⟩⟩
theorem modek (a : KReg) : Statement (.modek a) := ⟨fun h => (nomatch h), fun _ => ⟨rfl, .inl rfl⟩⟩
theorem lit (d : Dst) (w : W32) : Statement (.lit d w) := ⟨fun h => (nomatch h), fun _ => ⟨rfl, .inr rfl⟩⟩
theorem lith (d : Dst) (w : W32) : Statement (.lith d w) := ⟨fun h => (nomatch h), fun _ => ⟨rfl, .inr rfl⟩⟩
theorem getsr (d : Dst) (r : SpecialReg) (h : Hold) : Statement (.getsr d r h) := ⟨fun h => (nomatch h), fun _ => ⟨rfl, .inl rfl⟩⟩
theorem setsr (r : SpecialReg) (a : KReg) : Statement (.setsr r a) := ⟨fun h => (nomatch h), fun _ => ⟨rfl, .inl rfl⟩⟩
theorem eret : Statement (.eret) := ⟨fun h => (nomatch h), fun _ => ⟨rfl, .inl rfl⟩⟩
theorem nopreempt : Statement (.nopreempt) := ⟨fun h => (nomatch h), fun _ => ⟨rfl, .inl rfl⟩⟩
theorem preemptok : Statement (.preemptok) := ⟨fun h => (nomatch h), fun _ => ⟨rfl, .inl rfl⟩⟩
theorem phase : Statement (.phase) := ⟨fun h => (nomatch h), fun _ => ⟨rfl, .inl rfl⟩⟩
theorem add (d : Dst) (a : Src) (b : Src2) (h : Hold) : Statement (.add d a b h) := ⟨fun h => (nomatch h), fun _ => ⟨rfl, .inl rfl⟩⟩
theorem sub (d : Dst) (a : Src) (b : Src2) (h : Hold) : Statement (.sub d a b h) := ⟨fun h => (nomatch h), fun _ => ⟨rfl, .inl rfl⟩⟩
theorem mul (d : Dst) (a : Src) (b : Src2) (h : Hold) : Statement (.mul d a b h) := ⟨fun h => (nomatch h), fun _ => ⟨rfl, .inl rfl⟩⟩
theorem mulhi (d : Dst) (a : Src) (b : Src2) (h : Hold) : Statement (.mulhi d a b h) := ⟨fun h => (nomatch h), fun _ => ⟨rfl, .inl rfl⟩⟩
theorem mad (d : Dst) (a b c : Src) : Statement (.mad d a b c) := ⟨fun h => (nomatch h), fun _ => ⟨rfl, .inl rfl⟩⟩
theorem neg (d : Dst) (a : Src) (h : Hold) : Statement (.neg d a h) := ⟨fun h => (nomatch h), fun _ => ⟨rfl, .inl rfl⟩⟩
theorem abs (d : Dst) (a : Src) (h : Hold) : Statement (.abs d a h) := ⟨fun h => (nomatch h), fun _ => ⟨rfl, .inl rfl⟩⟩
theorem min (d : Dst) (a : Src) (b : Src2) (h : Hold) : Statement (.min d a b h) := ⟨fun h => (nomatch h), fun _ => ⟨rfl, .inl rfl⟩⟩
theorem max (d : Dst) (a : Src) (b : Src2) (h : Hold) : Statement (.max d a b h) := ⟨fun h => (nomatch h), fun _ => ⟨rfl, .inl rfl⟩⟩
theorem div (d : Dst) (a : Src) (b : Src2) (h : Hold) : Statement (.div d a b h) := ⟨fun h => (nomatch h), fun _ => ⟨rfl, .inl rfl⟩⟩
theorem lea (d : Dst) (a : Src) (b : Src2) (s : Fin 8) (h : Hold) : Statement (.lea d a b s h) := ⟨fun h => (nomatch h), fun _ => ⟨rfl, .inl rfl⟩⟩
theorem scaleb (d : Dst) (a : Src) (b : Src2) (h : Hold) : Statement (.scaleb d a b h) := ⟨fun h => (nomatch h), fun _ => ⟨rfl, .inl rfl⟩⟩
theorem cmp (d : Dst) (a : Src) (b : Src2) (c : CmpOp) (h : Hold) : Statement (.cmp d a b c h) := ⟨fun h => (nomatch h), fun _ => ⟨rfl, .inl rfl⟩⟩
theorem sel (d : Dst) (a : Src) (b : Src2) (p : PReg) (h : Hold) : Statement (.sel d a b p h) := ⟨fun h => (nomatch h), fun _ => ⟨rfl, .inl rfl⟩⟩
theorem classF (d : Dst) (a : Src) (h : Hold) : Statement (.classF d a h) := ⟨fun h => (nomatch h), fun _ => ⟨rfl, .inl rfl⟩⟩
theorem and (d : Dst) (a : Src) (b : Src2) (h : Hold) : Statement (.and d a b h) := ⟨fun h => (nomatch h), fun _ => ⟨rfl, .inl rfl⟩⟩
theorem or (d : Dst) (a : Src) (b : Src2) (h : Hold) : Statement (.or d a b h) := ⟨fun h => (nomatch h), fun _ => ⟨rfl, .inl rfl⟩⟩
theorem xor (d : Dst) (a : Src) (b : Src2) (h : Hold) : Statement (.xor d a b h) := ⟨fun h => (nomatch h), fun _ => ⟨rfl, .inl rfl⟩⟩
theorem not (d : Dst) (a : Src) (h : Hold) : Statement (.not d a h) := ⟨fun h => (nomatch h), fun _ => ⟨rfl, .inl rfl⟩⟩
theorem andn (d : Dst) (a : Src) (b : Src2) (h : Hold) : Statement (.andn d a b h) := ⟨fun h => (nomatch h), fun _ => ⟨rfl, .inl rfl⟩⟩
theorem shl (d : Dst) (a : Src) (b : Src2) (h : Hold) : Statement (.shl d a b h) := ⟨fun h => (nomatch h), fun _ => ⟨rfl, .inl rfl⟩⟩
theorem shr (d : Dst) (a : Src) (b : Src2) (h : Hold) : Statement (.shr d a b h) := ⟨fun h => (nomatch h), fun _ => ⟨rfl, .inl rfl⟩⟩
theorem sar (d : Dst) (a : Src) (b : Src2) (h : Hold) : Statement (.sar d a b h) := ⟨fun h => (nomatch h), fun _ => ⟨rfl, .inl rfl⟩⟩
theorem rotl (d : Dst) (a : Src) (b : Src2) (h : Hold) : Statement (.rotl d a b h) := ⟨fun h => (nomatch h), fun _ => ⟨rfl, .inl rfl⟩⟩
theorem clz (d : Dst) (a : Src) (h : Hold) : Statement (.clz d a h) := ⟨fun h => (nomatch h), fun _ => ⟨rfl, .inl rfl⟩⟩
theorem popc (d : Dst) (a : Src) (h : Hold) : Statement (.popc d a h) := ⟨fun h => (nomatch h), fun _ => ⟨rfl, .inl rfl⟩⟩
theorem brev (d : Dst) (a : Src) (h : Hold) : Statement (.brev d a h) := ⟨fun h => (nomatch h), fun _ => ⟨rfl, .inl rfl⟩⟩
theorem bfx (d : Dst) (a b c : Src) : Statement (.bfx d a b c) := ⟨fun h => (nomatch h), fun _ => ⟨rfl, .inl rfl⟩⟩
theorem bfi (d : Dst) (a b c : Src) : Statement (.bfi d a b c) := ⟨fun h => (nomatch h), fun _ => ⟨rfl, .inl rfl⟩⟩
theorem pnot (p : PReg) (g : Guard) : Statement (.pnot p g) := ⟨fun h => (nomatch h), fun _ => ⟨rfl, .inl rfl⟩⟩
theorem rcp (d : Dst) (a : Src) (h : Hold) : Statement (.rcp d a h) := ⟨fun h => (nomatch h), fun _ => ⟨rfl, .inl rfl⟩⟩
theorem rsq (d : Dst) (a : Src) (h : Hold) : Statement (.rsq d a h) := ⟨fun h => (nomatch h), fun _ => ⟨rfl, .inl rfl⟩⟩
theorem sqrt (d : Dst) (a : Src) (h : Hold) : Statement (.sqrt d a h) := ⟨fun h => (nomatch h), fun _ => ⟨rfl, .inl rfl⟩⟩
theorem exp2 (d : Dst) (a : Src) (h : Hold) : Statement (.exp2 d a h) := ⟨fun h => (nomatch h), fun _ => ⟨rfl, .inl rfl⟩⟩
theorem log2 (d : Dst) (a : Src) (h : Hold) : Statement (.log2 d a h) := ⟨fun h => (nomatch h), fun _ => ⟨rfl, .inl rfl⟩⟩
theorem ln (d : Dst) (a : Src) (h : Hold) : Statement (.ln d a h) := ⟨fun h => (nomatch h), fun _ => ⟨rfl, .inl rfl⟩⟩
theorem fract (d : Dst) (a : Src) (h : Hold) : Statement (.fract d a h) := ⟨fun h => (nomatch h), fun _ => ⟨rfl, .inl rfl⟩⟩
theorem roundi (d : Dst) (a : Src) (h : Hold) : Statement (.roundi d a h) := ⟨fun h => (nomatch h), fun _ => ⟨rfl, .inl rfl⟩⟩
theorem cvt (d : Dst) (a : Src) (k : KReg) (h : Hold) : Statement (.cvt d a k h) := ⟨fun h => (nomatch h), fun _ => ⟨rfl, .inl rfl⟩⟩
theorem pack (d : Dst) (a : Src) (b : Src2) (h : Hold) : Statement (.pack d a b h) := ⟨fun h => (nomatch h), fun _ => ⟨rfl, .inl rfl⟩⟩
theorem unpack (d : Dst) (a : Src) (h : Hold) : Statement (.unpack d a h) := ⟨fun h => (nomatch h), fun _ => ⟨rfl, .inl rfl⟩⟩
theorem mxq (d : Dst) (a : Src) (h : Hold) : Statement (.mxq d a h) := ⟨fun h => (nomatch h), fun _ => ⟨rfl, .inl rfl⟩⟩
theorem mxdq (d : Dst) (a : Src) (b : Src2) (h : Hold) : Statement (.mxdq d a b h) := ⟨fun h => (nomatch h), fun _ => ⟨rfl, .inl rfl⟩⟩
theorem pset (p : PReg) (a : Src) : Statement (.pset p a) := ⟨fun h => (nomatch h), fun _ => ⟨rfl, .inl rfl⟩⟩
theorem pand (p : PReg) (g1 g2 : Guard) : Statement (.pand p g1 g2) := ⟨fun h => (nomatch h), fun _ => ⟨rfl, .inl rfl⟩⟩
theorem por (p : PReg) (g1 g2 : Guard) : Statement (.por p g1 g2) := ⟨fun h => (nomatch h), fun _ => ⟨rfl, .inl rfl⟩⟩
theorem shfl (d : Dst) (a : Src) (b : Src2) (h : Hold) : Statement (.shfl d a b h) := ⟨fun h => (nomatch h), fun _ => ⟨rfl, .inl rfl⟩⟩
theorem bfly (d : Dst) (a : Src) (b : Src2) (h : Hold) : Statement (.bfly d a b h) := ⟨fun h => (nomatch h), fun _ => ⟨rfl, .inl rfl⟩⟩
theorem lrot (d : Dst) (a : Src) (b : Src2) (h : Hold) : Statement (.lrot d a b h) := ⟨fun h => (nomatch h), fun _ => ⟨rfl, .inl rfl⟩⟩
theorem bcast (d : Dst) (a : Src) (b : Src2) (h : Hold) : Statement (.bcast d a b h) := ⟨fun h => (nomatch h), fun _ => ⟨rfl, .inl rfl⟩⟩
theorem vote (d : Dst) (a : Src) (o : VoteOp) (h : Hold) : Statement (.vote d a o h) := ⟨fun h => (nomatch h), fun _ => ⟨rfl, .inl rfl⟩⟩
theorem lreduce (d : Dst) (a : Src) (o : RedOp) (h : Hold) : Statement (.lreduce d a o h) := ⟨fun h => (nomatch h), fun _ => ⟨rfl, .inl rfl⟩⟩
theorem lscan (d : Dst) (a : Src) (o : RedOp) (h : Hold) : Statement (.lscan d a o h) := ⟨fun h => (nomatch h), fun _ => ⟨rfl, .inl rfl⟩⟩
theorem kmov (d : KReg) (y : KOp) : Statement (.kmov d y) := by cases y <;> exact ⟨fun h => (nomatch h), fun _ => ⟨rfl, .inl rfl⟩⟩
theorem kadd (d a : KReg) (y : KOp) : Statement (.kadd d a y) := ⟨fun h => (nomatch h), fun _ => ⟨rfl, .inl rfl⟩⟩
theorem ksub (d a : KReg) (y : KOp) : Statement (.ksub d a y) := ⟨fun h => (nomatch h), fun _ => ⟨rfl, .inl rfl⟩⟩
theorem kmul (d a : KReg) (y : KOp) : Statement (.kmul d a y) := ⟨fun h => (nomatch h), fun _ => ⟨rfl, .inl rfl⟩⟩
theorem kand (d a : KReg) (y : KOp) : Statement (.kand d a y) := ⟨fun h => (nomatch h), fun _ => ⟨rfl, .inl rfl⟩⟩
theorem kor (d a : KReg) (y : KOp) : Statement (.kor d a y) := ⟨fun h => (nomatch h), fun _ => ⟨rfl, .inl rfl⟩⟩
theorem kxor (d a : KReg) (y : KOp) : Statement (.kxor d a y) := ⟨fun h => (nomatch h), fun _ => ⟨rfl, .inl rfl⟩⟩
theorem kshl (d a : KReg) (y : KOp) : Statement (.kshl d a y) := ⟨fun h => (nomatch h), fun _ => ⟨rfl, .inl rfl⟩⟩
theorem kshr (d a : KReg) (y : KOp) : Statement (.kshr d a y) := ⟨fun h => (nomatch h), fun _ => ⟨rfl, .inl rfl⟩⟩
theorem kcmp (d a : KReg) (y : KOp) (c : CmpOp) : Statement (.kcmp d a y c) := ⟨fun h => (nomatch h), fun _ => ⟨rfl, .inl rfl⟩⟩
theorem kread (d : KReg) (a : Src) (l : Fin 32) (w64 : Bool) : Statement (.kread d a l w64) := ⟨fun h => (nomatch h), fun _ => ⟨rfl, .inl rfl⟩⟩
theorem klit (d : KReg) (i : W16) : Statement (.klit d i) := ⟨fun h => (nomatch h), fun _ => ⟨rfl, .inl rfl⟩⟩
theorem propose : Statement (.propose) := ⟨fun h => (nomatch h), fun _ => ⟨rfl, .inl rfl⟩⟩
theorem accept (d : Dst) (a : Src) (h : Hold) : Statement (.accept d a h) := ⟨fun h => (nomatch h), fun _ => ⟨rfl, .inl rfl⟩⟩
theorem discard : Statement (.discard) := ⟨fun h => (nomatch h), fun _ => ⟨rfl, .inl rfl⟩⟩
theorem draw (d : Dst) (h : Hold) : Statement (.draw d h) := ⟨fun h => (nomatch h), fun _ => ⟨rfl, .inl rfl⟩⟩
theorem drawkey (a : KReg) (b : Option KReg) : Statement (.drawkey a b) := by cases b <;> exact ⟨fun h => (nomatch h), fun _ => ⟨rfl, .inl rfl⟩⟩
theorem mbstat (d : Dst) (a : Src) : Statement (.mbstat d a) := ⟨fun h => (nomatch h), fun _ => ⟨rfl, .inl rfl⟩⟩
theorem mbclr (pcnt acnt norm : Bool) : Statement (.mbclr pcnt acnt norm) := ⟨fun h => (nomatch h), fun _ => ⟨rfl, .inl rfl⟩⟩
theorem ld (d : Dst) (a b : Src) (c : KReg) : Statement (.ld d a b c) := ⟨fun h => (nomatch h), fun _ => ⟨rfl, .inl rfl⟩⟩
theorem st (a b : Src) (c : KReg) : Statement (.st a b c) := ⟨fun h => (nomatch h), fun _ => ⟨rfl, .inl rfl⟩⟩
theorem ldq (d : Dst) (a b : Src) (c : KReg) : Statement (.ldq d a b c) := ⟨fun h => (nomatch h), fun _ => ⟨rfl, .inl rfl⟩⟩
theorem stq (a b : Src) (c : KReg) : Statement (.stq a b c) := ⟨fun h => (nomatch h), fun _ => ⟨rfl, .inl rfl⟩⟩
theorem cas (d : Dst) (a b : Src) (c : KReg) : Statement (.cas d a b c) := ⟨fun h => (nomatch h), fun _ => ⟨rfl, .inl rfl⟩⟩
theorem pref (a : Src) (c : KReg) : Statement (.pref a c) := ⟨fun h => (nomatch h), fun _ => ⟨rfl, .inl rfl⟩⟩
theorem pin (a b : KReg) : Statement (.pin a b) := ⟨fun h => (nomatch h), fun _ => ⟨rfl, .inl rfl⟩⟩
theorem unpin (a b : KReg) : Statement (.unpin a b) := ⟨fun h => (nomatch h), fun _ => ⟨rfl, .inl rfl⟩⟩
theorem fence (s : Scope) (o : FenceOrder) : Statement (.fence s o) := ⟨fun h => (nomatch h), fun _ => ⟨rfl, .inl rfl⟩⟩
theorem waitp (p : FlightPath) (a : KReg) : Statement (.waitp p a) := ⟨fun h => (nomatch h), fun _ => ⟨rfl, .inl rfl⟩⟩
theorem atom (o : AtomOp) (a b : Src) (c : KReg) : Statement (.atom o a b c) := ⟨fun h => (nomatch h), fun _ => ⟨rfl, .inl rfl⟩⟩
theorem atomr (o : AtomOp) (d : Dst) (a b : Src) (c : KReg) : Statement (.atomr o d a b c) := ⟨fun h => (nomatch h), fun _ => ⟨rfl, .inl rfl⟩⟩
theorem mxplan (p : HReg) (a : KReg) : Statement (.mxplan p a) := ⟨fun h => (nomatch h), fun _ => ⟨rfl, .inl rfl⟩⟩
theorem mxzero (t : TileReg) (f : TileFill) : Statement (.mxzero t f) := ⟨fun h => (nomatch h), fun _ => ⟨rfl, .inl rfl⟩⟩
theorem mxstep (t : TileReg) (p : HReg) (a : KReg) (sig : Bool) : Statement (.mxstep t p a sig) := ⟨fun h => (nomatch h), fun _ => ⟨rfl, .inl rfl⟩⟩
theorem mxloop (t : TileReg) (p : HReg) (a l : KReg) (sig : Bool) : Statement (.mxloop t p a l sig) := ⟨fun h => (nomatch h), fun _ => ⟨rfl, .inl rfl⟩⟩
theorem mxrd (d : Dst) (a : Src) (h : Hold) : Statement (.mxrd d a h) := ⟨fun h => (nomatch h), fun _ => ⟨rfl, .inl rfl⟩⟩
theorem mxwr (a b : Src) : Statement (.mxwr a b) := ⟨fun h => (nomatch h), fun _ => ⟨rfl, .inl rfl⟩⟩
theorem mxmon (slot : Fin 8) (a : KReg) (sig : Bool) : Statement (.mxmon slot a sig) := ⟨fun h => (nomatch h), fun _ => ⟨rfl, .inl rfl⟩⟩
theorem monrd (d : Dst) (a : Src) (h : Hold) : Statement (.monrd d a h) := ⟨fun h => (nomatch h), fun _ => ⟨rfl, .inl rfl⟩⟩
theorem monclr (mask : W8) : Statement (.monclr mask) := ⟨fun h => (nomatch h), fun _ => ⟨rfl, .inl rfl⟩⟩
theorem barinit (a b : KReg) : Statement (.barinit a b) := ⟨fun h => (nomatch h), fun _ => ⟨rfl, .inl rfl⟩⟩
theorem bararr (a : KReg) (b : Option KReg) : Statement (.bararr a b) := by cases b <;> exact ⟨fun h => (nomatch h), fun _ => ⟨rfl, .inl rfl⟩⟩
theorem barwait (a b : KReg) : Statement (.barwait a b) := ⟨fun h => (nomatch h), fun _ => ⟨rfl, .inl rfl⟩⟩
theorem barfree (a : KReg) : Statement (.barfree a) := ⟨fun h => (nomatch h), fun _ => ⟨rfl, .inl rfl⟩⟩
theorem cntadd (a b : KReg) : Statement (.cntadd a b) := ⟨fun h => (nomatch h), fun _ => ⟨rfl, .inl rfl⟩⟩
theorem cntaddMax (a b : KReg) : Statement (.cntaddMax a b) := ⟨fun h => (nomatch h), fun _ => ⟨rfl, .inl rfl⟩⟩
theorem cntaddSignal (a : KReg) : Statement (.cntaddSignal a) := ⟨fun h => (nomatch h), fun _ => ⟨rfl, .inl rfl⟩⟩
theorem cntwait (a b : KReg) : Statement (.cntwait a b) := ⟨fun h => (nomatch h), fun _ => ⟨rfl, .inl rfl⟩⟩
theorem cntarm (a b : KReg) : Statement (.cntarm a b) := ⟨fun h => (nomatch h), fun _ => ⟨rfl, .inl rfl⟩⟩
theorem pmsel (c : Fin 4) (a : KReg) : Statement (.pmsel c a) := ⟨fun h => (nomatch h), fun _ => ⟨rfl, .inl rfl⟩⟩
theorem pmrd (d : Dst) (a : Src) (h : Hold) : Statement (.pmrd d a h) := ⟨fun h => (nomatch h), fun _ => ⟨rfl, .inl rfl⟩⟩
theorem pmreplay (a : KReg) : Statement (.pmreplay a) := ⟨fun h => (nomatch h), fun _ => ⟨rfl, .inl rfl⟩⟩
theorem shape (d a b : KReg) (e : ElemSize) : Statement (.shape d a b e) := ⟨fun h => (nomatch h), fun _ => ⟨rfl, .inl rfl⟩⟩
theorem cpy (a : KReg) (src : Option Src) : Statement (.cpy a src) := by cases src <;> exact ⟨fun h => (nomatch h), fun _ => ⟨rfl, .inl rfl⟩⟩
theorem cpym (a : KReg) (mask : W8) : Statement (.cpym a mask) := ⟨fun h => (nomatch h), fun _ => ⟨rfl, .inl rfl⟩⟩
theorem cpydq (a : KReg) : Statement (.cpydq a) := ⟨fun h => (nomatch h), fun _ => ⟨rfl, .inl rfl⟩⟩
theorem chkick (ch : Fin 8) (a : KReg) : Statement (.chkick ch a) := ⟨fun h => (nomatch h), fun _ => ⟨rfl, .inl rfl⟩⟩
theorem chtail (ch : Fin 8) (a : KReg) : Statement (.chtail ch a) := ⟨fun h => (nomatch h), fun _ => ⟨rfl, .inl rfl⟩⟩
theorem tkpost (a : KReg) : Statement (.tkpost a) := ⟨fun h => (nomatch h), fun _ => ⟨rfl, .inl rfl⟩⟩
theorem launch (q : Fin 8) (a : KReg) : Statement (.launch q a) := ⟨fun h => (nomatch h), fun _ => ⟨rfl, .inl rfl⟩⟩
theorem rtemitRec (a : KReg) : Statement (.rtemitRec a) := ⟨fun h => (nomatch h), fun _ => ⟨rfl, .inl rfl⟩⟩
theorem rtemitBox (a : KReg) : Statement (.rtemitBox a) := ⟨fun h => (nomatch h), fun _ => ⟨rfl, .inl rfl⟩⟩
theorem rttake (x : Fin 40) : Statement (.rttake x) := ⟨fun h => (nomatch h), fun _ => ⟨rfl, .inl rfl⟩⟩
theorem rtdone : Statement (.rtdone) := ⟨fun h => (nomatch h), fun _ => ⟨rfl, .inl rfl⟩⟩
theorem rtrej : Statement (.rtrej) := ⟨fun h => (nomatch h), fun _ => ⟨rfl, .inl rfl⟩⟩
theorem rtstat (d : Dst) (a : Src) (h : Hold) : Statement (.rtstat d a h) := ⟨fun h => (nomatch h), fun _ => ⟨rfl, .inl rfl⟩⟩
theorem wregWait (a : KReg) : Statement (.wregWait a) := ⟨fun h => (nomatch h), fun _ => ⟨rfl, .inl rfl⟩⟩
theorem wregHold (a : KReg) : Statement (.wregHold a) := ⟨fun h => (nomatch h), fun _ => ⟨rfl, .inl rfl⟩⟩
theorem wderegWait : Statement (.wderegWait) := ⟨fun h => (nomatch h), fun _ => ⟨rfl, .inl rfl⟩⟩
theorem wderegHold (a : KReg) : Statement (.wderegHold a) := ⟨fun h => (nomatch h), fun _ => ⟨rfl, .inl rfl⟩⟩
theorem wprio (a b : KReg) : Statement (.wprio a b) := ⟨fun h => (nomatch h), fun _ => ⟨rfl, .inl rfl⟩⟩
theorem wquery (d : Dst) (a : Src) (b : Src2) (h : Hold) : Statement (.wquery d a b h) := ⟨fun h => (nomatch h), fun _ => ⟨rfl, .inl rfl⟩⟩
theorem lock (a : KReg) : Statement (.lock a) := ⟨fun h => (nomatch h), fun _ => ⟨rfl, .inl rfl⟩⟩
theorem unlock (a : KReg) : Statement (.unlock a) := ⟨fun h => (nomatch h), fun _ => ⟨rfl, .inl rfl⟩⟩
theorem semtake (a b : KReg) : Statement (.semtake a b) := ⟨fun h => (nomatch h), fun _ => ⟨rfl, .inl rfl⟩⟩
theorem semgive (a b : KReg) : Statement (.semgive a b) := ⟨fun h => (nomatch h), fun _ => ⟨rfl, .inl rfl⟩⟩
theorem puts (a : KReg) (rsig : Bool) : Statement (.puts a rsig) := ⟨fun h => (nomatch h), fun _ => ⟨rfl, .inl rfl⟩⟩
theorem get (a : KReg) : Statement (.get a) := ⟨fun h => (nomatch h), fun _ => ⟨rfl, .inl rfl⟩⟩
theorem radd (a : KReg) (rsig : Bool) : Statement (.radd a rsig) := ⟨fun h => (nomatch h), fun _ => ⟨rfl, .inl rfl⟩⟩
theorem rfence : Statement (.rfence) := ⟨fun h => (nomatch h), fun _ => ⟨rfl, .inl rfl⟩⟩
theorem coll (a : KReg) : Statement (.coll a) := ⟨fun h => (nomatch h), fun _ => ⟨rfl, .inl rfl⟩⟩
theorem matrixCommandAccept (core : Fin 192) : Statement (.matrixCommandAccept core) := ⟨fun _ => rfl, fun h => (nomatch h)⟩
theorem kStep (core : Fin 192) : Statement (.kStep core) := ⟨fun _ => rfl, fun h => (nomatch h)⟩
theorem matrixCommandRun (core : Fin 192) : Statement (.matrixCommandRun core) := ⟨fun _ => rfl, fun h => (nomatch h)⟩
theorem copyAccept (cl : Fin 24) : Statement (.copyAccept cl) := ⟨fun _ => rfl, fun h => (nomatch h)⟩
theorem copyComplete (cl : Fin 24) (i : Nat) : Statement (.copyComplete cl i) := ⟨fun _ => rfl, fun h => (nomatch h)⟩
theorem channelPoll (d : Fin 2) (ch : Fin 96) : Statement (.channelPoll d ch) := ⟨fun _ => rfl, fun h => (nomatch h)⟩
theorem recordReturn (d : Fin 2) (ch : Fin 96) : Statement (.recordReturn d ch) := ⟨fun _ => rfl, fun h => (nomatch h)⟩
theorem streamTile (d : Fin 2) (ch : Fin 96) : Statement (.streamTile d ch) := ⟨fun _ => rfl, fun h => (nomatch h)⟩
theorem admitGang (p : Fin 24) : Statement (.admitGang p) := ⟨fun _ => rfl, fun h => (nomatch h)⟩
theorem preemptEvict (p : Fin 24) : Statement (.preemptEvict p) := ⟨fun _ => rfl, fun h => (nomatch h)⟩
theorem resumeEvicted (p : Fin 24) : Statement (.resumeEvicted p) := ⟨fun _ => rfl, fun h => (nomatch h)⟩
theorem unparkWave (token : W32) : Statement (.unparkWave token) := ⟨fun _ => rfl, fun h => (nomatch h)⟩
theorem clockGate (core : Fin 192) : Statement (.clockGate core) := ⟨fun _ => rfl, fun h => (nomatch h)⟩
theorem clockRestart (core : Fin 192) : Statement (.clockRestart core) := ⟨fun _ => rfl, fun h => (nomatch h)⟩
theorem nopreemptExpired (token : W32) : Statement (.nopreemptExpired token) := ⟨fun _ => rfl, fun h => (nomatch h)⟩
theorem suspectedDeadlock (token : W32) : Statement (.suspectedDeadlock token) := ⟨fun _ => rfl, fun h => (nomatch h)⟩
theorem pageWalk (core : Fin 192) (p : Fin 24) (va : Nat) (acc : Access) : Statement (.pageWalk core p va acc) := ⟨fun _ => rfl, fun h => (nomatch h)⟩
theorem demandZeroResolution (core : Fin 192) (p : Fin 24) (va : Nat) : Statement (.demandZeroResolution core p va) := ⟨fun _ => rfl, fun h => (nomatch h)⟩
theorem writeApply (d : ApplyTurn) (l1cores : List (Fin 96)) : Statement (.writeApply d l1cores) := ⟨fun _ => rfl, fun h => (nomatch h)⟩
theorem memoryResponse (token : W32) (path : FlightPath) : Statement (.memoryResponse token path) := ⟨fun _ => rfl, fun h => (nomatch h)⟩
theorem taskTake (p : Fin 24) (q : Fin 16) : Statement (.taskTake p q) := ⟨fun _ => rfl, fun h => (nomatch h)⟩
theorem taskCommit (tid : W64) : Statement (.taskCommit tid) := ⟨fun _ => rfl, fun h => (nomatch h)⟩
theorem routerSetEntry (launch : Nat) : Statement (.routerSetEntry launch) := ⟨fun _ => rfl, fun h => (nomatch h)⟩
theorem routerSetLeave (launch : Nat) : Statement (.routerSetLeave launch) := ⟨fun _ => rfl, fun h => (nomatch h)⟩
theorem routerMove (launch : Nat) : Statement (.routerMove launch) := ⟨fun _ => rfl, fun h => (nomatch h)⟩
theorem pipeCheck (site : CheckSite) : Statement (.pipeCheck site) := ⟨fun _ => rfl, fun h => (nomatch h)⟩
theorem partFaultEvent (part : PartId) : Statement (.partFaultEvent part) := ⟨fun _ => rfl, fun h => (nomatch h)⟩
theorem hbmUncorrectable (site : ErrorSite) (pa : Nat) : Statement (.hbmUncorrectable site pa) := ⟨fun _ => rfl, fun h => (nomatch h)⟩
theorem hbmScrub (stack : Fin 8) (row : Nat) (corrected : Bool) : Statement (.hbmScrub stack row corrected) := ⟨fun _ => rfl, fun h => (nomatch h)⟩
theorem inFieldTest (core : Fin 192) : Statement (.inFieldTest core) := ⟨fun _ => rfl, fun h => (nomatch h)⟩
theorem inFieldTestForced (core : Fin 192) : Statement (.inFieldTestForced core) := ⟨fun _ => rfl, fun h => (nomatch h)⟩
theorem linkFault (port : Fin 128) : Statement (.linkFault port) := ⟨fun _ => rfl, fun h => (nomatch h)⟩
theorem remoteRequest (r : TaggedReq) : Statement (.remoteRequest r) := ⟨fun _ => rfl, fun h => (nomatch h)⟩
theorem remoteResponse (token : W32) (x : RemoteAnswer) : Statement (.remoteResponse token x) := ⟨fun _ => rfl, fun h => (nomatch h)⟩
theorem remoteTimeout (token : W32) : Statement (.remoteTimeout token) := ⟨fun _ => rfl, fun h => (nomatch h)⟩
theorem collectiveComplete (dpid group cseq : Nat) : Statement (.collectiveComplete dpid group cseq) := ⟨fun _ => rfl, fun h => (nomatch h)⟩
theorem submitLaunch (p : Fin 24) : Statement (.submitLaunch p) := ⟨fun _ => rfl, fun h => (nomatch h)⟩
theorem submitTaskRecord (p : Fin 24) : Statement (.submitTaskRecord p) := ⟨fun _ => rfl, fun h => (nomatch h)⟩
theorem tlbInvalidate (p : Fin 24) : Statement (.tlbInvalidate p) := ⟨fun _ => rfl, fun h => (nomatch h)⟩
theorem releaseParkedItem (p : Fin 24) : Statement (.releaseParkedItem p) := ⟨fun _ => rfl, fun h => (nomatch h)⟩
theorem returnParkedItem (p : Fin 24) : Statement (.returnParkedItem p) := ⟨fun _ => rfl, fun h => (nomatch h)⟩
theorem writeRegister (p : Fin 24) : Statement (.writeRegister p) := ⟨fun _ => rfl, fun h => (nomatch h)⟩
theorem setCollectiveGroup (p : Fin 24) : Statement (.setCollectiveGroup p) := ⟨fun _ => rfl, fun h => (nomatch h)⟩
theorem destroyPartition (p : Fin 24) : Statement (.destroyPartition p) := ⟨fun _ => rfl, fun h => (nomatch h)⟩
theorem createPartition (p : Fin 24) : Statement (.createPartition p) := ⟨fun _ => rfl, fun h => (nomatch h)⟩
theorem createLockstepPartition (p : Fin 24) : Statement (.createLockstepPartition p) := ⟨fun _ => rfl, fun h => (nomatch h)⟩
theorem resetPartition (p : Fin 24) : Statement (.resetPartition p) := ⟨fun _ => rfl, fun h => (nomatch h)⟩
theorem cmdkick (p : Fin 24) (head : W64) : Statement (.cmdkick p head) := ⟨fun _ => rfl, fun h => (nomatch h)⟩
theorem commandPoll (p : Fin 24) : Statement (.commandPoll p) := ⟨fun _ => rfl, fun h => (nomatch h)⟩
theorem hostChannelKick (d : Fin 2) (ch : Fin 96) (head : W64) : Statement (.hostChannelKick d ch head) := ⟨fun _ => rfl, fun h => (nomatch h)⟩
theorem channelRegisterRead (r : ChanSel) : Statement (.channelRegisterRead r) := ⟨fun _ => rfl, fun h => (nomatch h)⟩
theorem pfmodeWrite (p : Fin 24) (v : W64) : Statement (.pfmodeWrite p v) := ⟨fun _ => rfl, fun h => (nomatch h)⟩
theorem ptrootWrite (p : Fin 24) (v : W64) : Statement (.ptrootWrite p v) := ⟨fun _ => rfl, fun h => (nomatch h)⟩
theorem ctxsizeWrite (d : Fin 2) (v : W64) : Statement (.ctxsizeWrite d v) := ⟨fun _ => rfl, fun h => (nomatch h)⟩
theorem vsmaxWrite (d : Fin 2) (v : W64) : Statement (.vsmaxWrite d v) := ⟨fun _ => rfl, fun h => (nomatch h)⟩
theorem registerWrite (off : Nat) (v : W64) : Statement (.registerWrite off v) := ⟨fun _ => rfl, fun h => (nomatch h)⟩
theorem powerOnReset (failed : List PartId) : Statement (.powerOnReset failed) := ⟨fun _ => rfl, fun h => (nomatch h)⟩
theorem dieReset (d : Fin 2) : Statement (.dieReset d) := ⟨fun _ => rfl, fun h => (nomatch h)⟩
theorem packageReset : Statement (.packageReset) := ⟨fun _ => rfl, fun h => (nomatch h)⟩
theorem alertWrite (v : BitVec 3) : Statement (.alertWrite v) := ⟨fun _ => rfl, fun h => (nomatch h)⟩
theorem sidebandRegisterWrite (addr : Nat) (v : W32) : Statement (.sidebandRegisterWrite addr v) := ⟨fun _ => rfl, fun h => (nomatch h)⟩
theorem temperatureAlert (bits : BitVec 3) : Statement (.temperatureAlert bits) := ⟨fun _ => rfl, fun h => (nomatch h)⟩
theorem thermalShutdown : Statement (.thermalShutdown) := ⟨fun _ => rfl, fun h => (nomatch h)⟩
theorem firmwareStage (image : Nat) (svn : Nat) (build : Nat) : Statement (.firmwareStage image svn build) := ⟨fun _ => rfl, fun h => (nomatch h)⟩
theorem raiseRollbackFloor (svn : Nat) (signature : Nat) : Statement (.raiseRollbackFloor svn signature) := ⟨fun _ => rfl, fun h => (nomatch h)⟩
theorem attestationQuote (nonce : BitVec 256) : Statement (.attestationQuote nonce) := ⟨fun _ => rfl, fun h => (nomatch h)⟩
theorem illegalInstr (word : W32) : Statement (.illegalInstr word) := ⟨fun _ => rfl, fun h => (nomatch h)⟩
theorem powerLoss : Statement (.powerLoss) := ⟨fun _ => rfl, fun h => (nomatch h)⟩
theorem inFieldTestEnd (core : Fin 192) (passed : Bool) : Statement (.inFieldTestEnd core passed) := ⟨fun _ => rfl, fun h => (nomatch h)⟩
theorem secondCopyRestored : Statement (.secondCopyRestored) := ⟨fun _ => rfl, fun h => (nomatch h)⟩
theorem contributorPackageFailure (rank : Fin 1024) : Statement (.contributorPackageFailure rank) := ⟨fun _ => rfl, fun h => (nomatch h)⟩
theorem flitRetransmission (port : Fin 128) : Statement (.flitRetransmission port) := ⟨fun _ => rfl, fun h => (nomatch h)⟩

end Sys2Proof.Laws.Coding
end

