-- ==== Sys2Proof/Tests/Slice0.lean ====
section
/-!
SUPPORT. Tests of the model: ill-formed terms that the checks refuse, worked words of the manual, single steps with the manual's own results, and for every statement with hypotheses a state and operands that meet them.
-/

namespace Sys2Proof

open Sys2Proof.Machine

/-! ### Ill-formed terms -/

theorem test_wf_cond_reserved : Instr.wf (.brany 8 0) = false ∧ Instr.wf (.brall 8 0) = false ∧ Instr.wf (.brnone 8 0) = false ∧
    Instr.wf (.ifp 8 0) = false ∧ Instr.wf (.breakp 8 0) = false := by decide
theorem test_wf_hold_result_only : Instr.wf (.execrd .queue .a) = false ∧ Instr.wf (.getsr .queue .gang .b) = false ∧
    Instr.wf (.draw .queue .a) = false ∧ Instr.wf (.wquery .queue .zero (.s .zero) .a) = false := by decide
theorem test_wf_hold_first_only : Instr.wf (.execwr .zero .result) = false ∧ Instr.wf (.execwr .zero .b) = false := by decide
theorem test_wf_hold_not_second : Instr.wf (.accept .queue .zero .b) = false ∧ Instr.wf (.mxrd .queue .zero .b) = false ∧
    Instr.wf (.monrd .queue .zero .b) = false ∧ Instr.wf (.pmrd .queue .zero .b) = false ∧ Instr.wf (.rtstat .queue .zero .b) = false := by decide
theorem test_wf_mode_type : Instr.wf (.setMode 0xF0) = false := by decide
theorem test_wf_mode_round : Instr.wf (.setMode 0xC00) = false := by decide
theorem test_wf_setsr_read_only : Instr.wf (.setsr .core 0) = false := by decide
theorem test_wf_kcmp_unordered : Instr.wf (.kcmp 0 0 (.k 0) .ord) = false := by decide
theorem test_wf_step_block : Instr.wf (.mxstep 0 0 30 false) = false ∧ Instr.wf (.mxloop 0 0 30 0 false) = false := by decide
theorem test_wf_mxmon_pair : Instr.wf (.mxmon 0 31 true) = false := by decide
theorem test_wf_cntarm_pair : Instr.wf (.cntarm 31 0) = false := by decide
theorem test_wf_copy_block : Instr.wf (.cpy 29 none) = false ∧ Instr.wf (.cpym 29 1) = false ∧ Instr.wf (.cpydq 28) = false := by decide
theorem test_wf_cpym_mask : Instr.wf (.cpym 0 0) = false := by decide
theorem test_wf_remote_block : Instr.wf (.puts 29 false) = false ∧ Instr.wf (.puts 28 true) = false ∧ Instr.wf (.radd 29 false) = false ∧
    Instr.wf (.radd 28 true) = false ∧ Instr.wf (.get 29) = false := by decide
theorem test_wf_walk_address : Instr.wf (.pageWalk 0 0 (2 ^ 54) .read) = false ∧ Instr.wf (.demandZeroResolution 0 0 (2 ^ 54)) = false := by decide
theorem test_wf_physical_address : Instr.wf (.hbmUncorrectable .hbm (2 ^ 39)) = false ∧ Instr.wf (.hbmScrub 0 (2 ^ 39) true) = false := by decide
theorem test_wf_answer_late : Instr.wf (.remoteResponse 1 .late) = false := by decide
theorem test_wf_collective_numbers : Instr.wf (.collectiveComplete (2 ^ 16) 0 0) = false ∧ Instr.wf (.collectiveComplete 0 256 0) = false ∧
    Instr.wf (.collectiveComplete 0 0 (2 ^ 32)) = false := by decide
theorem test_wf_register_offset : Instr.wf (.registerWrite (2 ^ 52) 0) = false := by decide
theorem test_wf_firmware_numbers : Instr.wf (.firmwareStage 0 (2 ^ 16) 0) = false ∧ Instr.wf (.firmwareStage 0 0 (2 ^ 16)) = false ∧
    Instr.wf (.raiseRollbackFloor (2 ^ 16) 0) = false := by decide

/-! ### Worked words of the manual -/

/-- The decoder reads an instruction from a first word and, where it is given, a literal word. -/
def reads (w : W32) (i : Instr) : Bool := decide (decode (bytesOfWord w) = .ok (i, [])) && decide (encode i = [w])

/-- R79, R89, R188, R193, R200, R202 and the worked words of 08. -/
theorem test_decode_control : reads 0x01000000 .nop ∧ reads 0x02000000 .endW ∧ reads 0x040FFFFD (.jmp (-3)) ∧ reads 0x05001000 (.jmpk 4) ∧
    reads 0x0BA00005 (.ifp 0xA 5) ∧ reads 0x0C000003 (.elsep 3) ∧ reads 0x0D000000 .endifp ∧ reads 0x0E100003 (.breakp 1 3) ∧
    reads 0x0F025400 (.trap 2 (.n 5)) ∧ reads 0x18000000 .eret := by decide +kernel
theorem test_decode_system : reads 0x12000A00 (.setMode 0x280) ∧ reads 0x12004B00 (.setMode 0x12C0) ∧ reads 0x120002EC (.setMode 0xBB) ∧
    reads 0x13000800 (.modek 2) ∧ reads 0x170F0C00 (.setsr .prio 3) ∧ reads 0x17156000 (.setsr .msidx 24) ∧ reads 0x17125400 (.setsr .tbaseh 21) ∧
    reads 0x1690000C (.getsr (.n 20) .gang .none) ∧ reads 0x16B80058 (.getsr (.n 30) .msval .none) ∧ reads 0x1680002C (.getsr (.n 16) .taskid .none) := by
  decide +kernel
theorem test_decode_literal : decode (bytesOfWord 0x14000000 ++ bytesOfWord 0x00000040 ++ [7]) = .ok (.lit .queue 64, [7]) ∧
    decode (bytesOfWord 0x15000000 ++ bytesOfWord 0x00040092) = .ok (.lith .queue 0x00040092, []) ∧
    decode (bytesOfWord 0x15880000 ++ bytesOfWord 0x00000001) = .ok (.lith (.n 18) 1, []) := by decide +kernel
theorem test_decode_arithmetic : reads 0x2203BEC3 (.mul .queue .lane (.s .lane) .result) ∧ reads 0x20540EC0 (.add (.n 5) (.q 0) (.s .lane) .none) ∧
    reads 0x215B8003 (.sub (.n 6) (.l 0) (.s (.q 0)) .result) ∧ reads 0x2AA001FC (.lea (.n 24) (.q 0) (.k 7) 7 .none) ∧
    reads 0x2A6BB228 (.lea (.n 10) .lane (.k 8) 2 .none) ∧ reads 0x2C03D2A4 (.cmp .queue .zero (.k 10) .ne .none) ∧
    reads 0x2C014F40 (.cmp .queue (.n 4) (.s .zero) .eq .none) := by decide +kernel
theorem test_decode_logic : reads 0x3003B060 (.and .queue .lane (.k 1) .none) ∧ reads 0x31580080 (.or (.n 6) (.q 0) (.s (.q 2)) .none) ∧
    reads 0x3503B0E0 (.shl .queue .lane (.k 3) .none) ∧ reads 0x36514060 (.shr (.n 4) (.n 4) (.k 1) .none) ∧
    reads 0x48000060 (.cvt .queue (.q 0) 1 .none) ∧ reads 0x4B500000 (.mxq (.n 4) (.q 0) .none) ∧
    reads 0x4C540000 (.mxdq (.n 5) (.q 0) (.s (.q 0)) .none) ∧ reads 0x4D020000 (.pset 2 (.q 0)) ∧ reads 0x4F030480 (.por 3 1 8) := by decide +kernel
theorem test_decode_uniform : reads 0x570C1C00 (.kmov 12 (.k 7)) ∧ reads 0x570F0018 (.kmov 15 (.imm 1)) ∧ reads 0x58071C80 (.kadd 7 7 (.k 8)) ∧
    reads 0x59092410 (.ksub 9 9 (.k 1)) ∧ reads 0x5C051460 (.kor 5 5 (.k 6)) ∧ reads 0x5E071F08 (.kshl 7 7 (.imm 48)) ∧
    reads 0x5F1B6608 (.kshr 27 25 (.imm 32)) ∧ reads 0x600A1465 (.kcmp 10 5 (.k 6) .ge) ∧ reads 0x6108A001 (.kread 8 (.n 24) 0 true) ∧
    reads 0x62190008 (.klit 6 0x4002) := by decide +kernel
theorem test_decode_mirror : reads 0x68000000 .propose ∧ reads 0x69597000 (.accept (.n 6) (.n 7) .none) ∧ reads 0x6A000000 .discard ∧
    reads 0x6B600000 (.draw (.n 8) .none) ∧ reads 0x6C000400 (.drawkey 1 none) ∧ reads 0x6C000C41 (.drawkey 3 (some 4)) ∧
    reads 0x6D63D000 (.mbstat (.n 8) .zero) ∧ reads 0x6E030000 (.mbclr true true false) := by decide +kernel
theorem test_decode_memory : reads 0x70528F45 (.ld (.n 4) (.n 24) .zero 5) ∧ reads 0x71028005 (.st (.n 24) (.q 0) 5) ∧
    reads 0x885A8005 (.atomr .add (.n 6) (.n 24) (.q 0) 5) ∧ reads 0x7A120000 (.fence .gang .rel) ∧ reads 0x7B020C00 (.waitp .store 3) ∧
    reads 0x78001C90 (.pin 7 9) := by decide +kernel
theorem test_decode_matrix : reads 0x91000000 (.mxzero 0 .zero) ∧ reads 0x91060000 (.mxzero 2 .pinf) ∧ reads 0x90002400 (.mxplan 0 9) ∧
    reads 0x922D3000 (.mxstep 1 3 12 true) ∧ reads 0x92053000 (.mxstep 1 1 12 false) ∧ reads 0x93203140 (.mxloop 0 0 12 20 true) ∧
    reads 0x94B00000 (.mxrd (.n 28) (.q 0) .none) ∧ reads 0x97B7D000 (.monrd (.n 29) .zero .none) ∧ reads 0x98010000 (.monclr 1) := by decide +kernel
theorem test_decode_counters : reads 0xA00038F0 (.barinit 14 15) ∧ reads 0xA1002800 (.bararr 10 none) ∧ reads 0xA2003900 (.barwait 14 16) ∧
    reads 0xA4003C11 (.cntaddMax 15 1) ∧ reads 0xA5003C10 (.cntwait 15 1) ∧ reads 0xA7004400 (.pmsel 0 17) ∧
    reads 0xA8BBD000 (.pmrd (.n 30) .zero .none) := by decide +kernel
theorem test_decode_copies : reads 0xB1005000 (.cpy 20 none) ∧ reads 0xB10152E0 (.cpy 20 (some (.n 30))) ∧ reads 0xB2032000 (.cpym 8 3) ∧
    reads 0xB3002000 (.cpydq 8) ∧ reads 0xB4035000 (.chkick 3 20) ∧ reads 0xB5035400 (.chtail 3 21) := by decide +kernel
theorem test_decode_tasks : reads 0xB8002800 (.tkpost 10) ∧ reads 0xB9022800 (.launch 2 10) ∧ reads 0xBA000C00 (.rtemitRec 3) ∧
    reads 0xBA011800 (.rtemitBox 6) ∧ reads 0xBB800000 (.rttake 16) ∧ reads 0xBC000000 .rtdone ∧ reads 0xBD000000 .rtrej ∧
    reads 0xBE540000 (.rtstat (.n 5) (.q 0) .none) := by decide +kernel
theorem test_decode_waits_and_fabric : reads 0xC35A8F40 (.wquery (.n 6) (.n 24) (.s .zero) .none) ∧ reads 0xD0015000 (.puts 20 true) ∧
    reads 0xD1005000 (.get 20) ∧ reads 0xD2005000 (.radd 20 false) ∧ reads 0xD4000800 (.coll 2) := by decide +kernel
/-- R96: near-miss words of the manual's table, and a source code 63 in format F1. -/
theorem test_decode_near_misses : [0x00000000, 0x20540EC4, 0x20540FC0, 0x20140EC0, 0x12008000, 0x120003C0, 0x2403FEC0].all
    (fun w => (decode (bytesOfWord (BitVec.ofNat 32 w))).toOption == none) = true := by decide +kernel
theorem test_table_word : decodeTableWord 32 0x20540EC0 = some (.add (.n 5) (.q 0) (.s .lane) .none) := by decide +kernel

/-! ### States for the tests -/

/-- The placed program's machine, its page held by the core's TLB. -/
def W0 : State := onCore (placeProgram State.reset) 0 fun c => { c with tlb := [⟨0, true, 2, 0, 0x20000000, true, true, true, 0x20000⟩] }

/-- The same under a MODE, with a full queue, live latch entries and chosen uniform registers. -/
def under (m : W32) : State := onRegs W0 fun r =>
  { r with mode := m, qvalid := 0xFFFF, latch := r.latch.map fun e => { e with life := 2 }, k := r.k.set 8 (8 : W64) }

def regsOf (s : State) : Regs := s.wave.regs

/-- Registers n24 and n25 name an address in every lane. -/
def atAddress (s : State) (hi lo : W32) : State := onRegs s fun r => { r with named := (r.named.set 24 (Lanes.all lo)).set 25 (Lanes.all hi) }

/-- An address in its own word for each lane. -/
def atLanes (s : State) (hi lo : W32) (stride : Nat) : State := onRegs s fun r =>
  { r with named := (r.named.set 24 (Lanes.of fun l => lo + BitVec.ofNat 32 (stride * l.val))).set 25 (Lanes.all hi) }

def kSet (s : State) (i : Fin 32) (v : W64) : State := onRegs s fun r => { r with k := r.k.set i.val v }

theorem test_page : PageAt W0 0 0 0x100000 0x20100000 :=
  ⟨⟨0, true, 2, 0, 0x20000000, true, true, true, 0x20000⟩, by decide +kernel, rfl, rfl, by decide +kernel⟩
theorem test_side_buffer : SideBufferAt W0 0x100000 0x20100000 := ⟨by decide +kernel, test_page⟩

/-! ### What the statements about registers assume -/

def twoUses (s : State) (ok : Ty → Bool) (d : Dst) (a : Src) (b : Src2) : Bool :=
  operandFault (regsOf s) ([.src a (regsWide (regsOf s))] ++ useSrc2 b (regsWide (regsOf s)) ++ [.dst d (regsWide (regsOf s))]) (tyIn (regsOf s) ok) == none

theorem test_meets_TwoSourceLanes : twoUses (under 0) okArith (.n 39) (.q 15) (.k 8) ∧ twoUses (under 0) tyInt .queue (.l 2) (.s (.n 0)) ∧
    twoUses (under 0x80) tyFp (.n 39) .lane (.s .ones) ∧ twoUses (under 0x90) okArith (.n 38) (.q 14) (.s (.l 1)) ∧
    twoUses (under 0xE0) okAny .queue (.q 15) (.k 31) := by decide +kernel

def oneUse (s : State) (ok : Ty → Bool) (d : Dst) (dw : Bool) (a : Src) : Bool :=
  operandFault (regsOf s) [.src a (regsWide (regsOf s)), .dst d dw] (tyIn (regsOf s) ok) == none

theorem test_meets_OneSourceLanes : oneUse (under 0) okArith (.n 39) false (.q 15) ∧ oneUse (under 0) tyInt .queue false (.l 2) ∧
    oneUse (under 0xE0) okAny .queue false .zero ∧ oneUse (under 0x90) tyFp (.n 38) true (.n 38) ∧ oneUse (under 0x80) tyFps (.n 0) false (.q 0) ∧
    oneUse (under 0x90) tyFp (.n 39) false (.q 14) ∧ fmtOf .f64 = some fp64 := by decide +kernel

theorem test_meets_ThreeSourceLanes :
    operandFault (regsOf (under 0)) [.src (.q 15) false, .src .lane false, .src (.n 39) false, .dst (.n 39) false] (tyIn (regsOf (under 0)) okArith) = none ∧
    operandFault (regsOf (under 0x20)) [.src (.q 14) true, .src .lane false, .src (.q 15) false, .dst (.n 38) true] (tyIn (regsOf (under 0x20)) tyScal) = none ∧
    operandFault (regsOf (under 0x20)) ([.src (.q 15) false] ++ useSrc2 (.k 7) true ++ [.dst (.n 24) true]) (tyIn (regsOf (under 0x20)) tyScal) = none := by
  decide +kernel

theorem test_meets_CompareSelect : twoUses (under 0) (cmpTyOk .lt) .queue .zero (.k 8) ∧ twoUses (under 0x80) (cmpTyOk .unord) .queue .zero (.k 8) ∧
    twoUses (under 0x90) okAny (.n 38) (.q 14) (.s .zero) := by decide +kernel

theorem test_meets_Conversions :
    ((regsOf (under 0)).k[8].toNat < 32 ∧ tyOf (regsOf (under 0)).k[8].toNat = some .f32 ∧
      operandFault (regsOf (under 0)) [.src (.q 0) false, .dst (.n 39) (tyWide .f32)] (regsTy (regsOf (under 0))).isSome = none) ∧
    twoUses (under 0xA0) (fun t => (partner t).isSome) (.n 39) (.q 0) (.s (.q 1)) ∧
    operandFault (regsOf (under 0xA0)) [.src (.q 0) false, .dst (.n 38) true] (tyIn (regsOf (under 0xA0)) fun t => (partner t).isSome) = none ∧
    operandFault (regsOf (under 0x80)) [.src (.q 0) false, .dst (.n 4) false] (tyIn (regsOf (under 0x80)) (· == .f32)) = none ∧
    operandFault (regsOf (under 0x80)) ([.src (.q 0) false] ++ useSrc2 (.s (.q 1)) false ++ [.dst (.n 5) false]) (tyIn (regsOf (under 0x80)) (· == .f32)) = none := by
  decide +kernel

theorem test_meets_Predicates : operandFault (regsOf W0) [.src .lane false] true = none := by decide +kernel

theorem test_meets_Permutations :
    (laneOn (regsOf (under 0)) 0 = true ∧ (∀ l : Fin 32, l < 0 → laneOn (regsOf (under 0)) l = false)) ∧
    (∀ l, laneOn (regsOf (under 8)) l = false) ∧
    operandFault (regsOf (under 0)) ([.src (.q 0) false] ++ useSrc2 (.s .lane) false ++ [.dst (.n 0) false]) (regsTy (regsOf (under 0))).isSome = none ∧
    operandFault (regsOf (under 8)) ([.src (.q 0) false] ++ useSrc2 (.k 8) false ++ [.dst .queue false]) (regsTy (regsOf (under 8))).isSome = none := by
  decide +kernel

theorem test_meets_VotesReductionsScans :
    (∀ l : Fin 32, (0xFFFFFFFF : W32).getLsbD l.val = (laneOn (regsOf (under 0)) l && decide ((srcLanes (regsOf (under 0)) 0 .ones false)[l] ≠ 0))) ∧
    oneUse (under 0) okAny .queue false .ones ∧ oneUse (under 0x90) okArith (.n 0) true (.q 0) := by decide +kernel

theorem test_meets_UniformInstructions : operandFault (regsOf W0) [.src (.n 24) true] true = none := by decide +kernel

theorem test_meets_MirrorBankSystem :
    let r := regsOf W0
    let o := onRegs W0 fun r => { r with pflag := true }
    let f := onWave W0 fun w => { w with handler := true, frame := { w.frame with pflag := true } }
    (r.mirrorOn = true ∧ r.pflag = false ∧ ¬(W0.wave.handler = true ∧ W0.wave.frame.pflag = true)) ∧
    (onRegs W0 fun r => { r with mirrorOn := false }).wave.regs.mirrorOn = false ∧ ((regsOf o).mirrorOn = true ∧ (regsOf o).pflag = true) ∧
    (f.wave.regs.pflag = false ∧ f.wave.handler = true ∧ f.wave.frame.pflag = true) := by decide +kernel

theorem test_meets_MirrorBankLanes :
    operandFault (regsOf W0) [.dst (.n 8) false] true = none ∧
    operandFault (regsOf (under 0x80)) [.src (.n 7) false, .dst .queue false] (tyIn (regsOf (under 0x80)) (· == .f32)) = none ∧
    (regsOf (onRegs (under 0x80) fun r => { r with pflag := true })).pflag = true ∧
    operandFault (regsOf W0) [.src .zero false, .dst (.n 8) true] true = none := by decide +kernel

theorem test_meets_SimpleControl : (regsOf (kSet W0 2 0x12FF)).k[2].toNat < 2 ^ 13 ∧ (0x12EF : Nat) / 16 % 32 < 15 ∧ (0x0AEF : Nat) / 512 % 8 < 6 ∧
    (regsOf (kSet W0 2 0x0AEF)).k[2].toNat = 0x0AEF := by decide +kernel

theorem test_meets_Transfers :
    (regsOf (kSet W0 4 0x2000)).k[4].toNat % 4 = 0 ∧ (regsOf (kSet W0 4 0x2000)).k[4].toNat < 2 ^ 56 ∧ (regsOf W0).rs.length < 16 ∧
    (∃ t rest, (regsOf (onRegs W0 fun r => { r with rs := [0x2000] })).rs = t :: rest) :=
  ⟨by decide +kernel, by decide +kernel, by decide +kernel, 0x2000, [], rfl⟩

theorem test_meets_DivergentRegions :
    let s := onRegs W0 fun r => { r with msdepth := 16 }
    (regsOf W0).msdepth.val < 16 ∧ 0 < (regsOf s).msdepth.val ∧ (regsOf s).exec &&& ~~~ (guardMask (regsOf s) 1) ≠ 0 ∧
    (regsOf s).exec &&& ~~~ (guardMask (regsOf s) 0) = 0 ∧
    -- A branch that is taken, and one to the next word.
    ((regsOf W0).exec &&& guardMask (regsOf W0) 1 = 0 ∧ (regsOf W0).pc + ((2 : BitVec 20).signExtend 64 <<< 2) ≠ (regsOf W0).pc + 4 ∧
      (regsOf W0).pc + ((1 : BitVec 20).signExtend 64 <<< 2) = (regsOf W0).pc + 4) := by decide +kernel

theorem test_meets_SpecialRegisters :
    operandFault (regsOf W0) [.dst (.n 39) false] true = none ∧
    operandFault (regsOf (under 0)) [.src (.q 0) false, .dst (.n 38) true] true = none ∧
    operandFault (regsOf W0) [.src .lane false] true = none ∧ (lo32 (0xFFFFF000 : W64)).toNat % 4096 = 0 ∧
    (lo32 (0xFFFFFF : W64)).toNat < 2 ^ 24 ∧ modeLegal (lo32 (0x0AEF : W64)).toNat = true ∧ (lo32 (16 : W64)).toNat ≤ 16 ∧ (lo32 (15 : W64)).toNat < 16 := by
  decide +kernel

theorem test_meets_TrapEntry : W0.wave.handler = false ∧ (0x20 : Cause) ≠ 0x4D ∧ SideBufferAt W0 0x100000 0x20100000 ∧ Memory.wf W0.hbm = true ∧
    (([⟨3, 0, 0x20, 0⟩, ⟨31, 8, 0x21, 0⟩] : List TrapRec).map fun x => x.lane).Nodup ∧ (0x1000 : W64).toNat % 4 = 0 ∧ (0x1000 : W64).toNat < 2 ^ 56 :=
  ⟨by decide +kernel, by decide, test_side_buffer, by decide +kernel, by decide, by decide, by decide⟩

theorem test_meets_TrapInstructions :
    let h := onWave W0 fun w => { w with handler := true }
    (W0.wave.handler = false ∧ W0.wave.run = .running ∧ SideBufferAt W0 0x100000 0x20100000 ∧ Memory.wf W0.hbm = true ∧
      operandFault (regsOf W0) [.src .lane false] true = none ∧ (regsOf W0).exec ≠ 0 ∧ (onRegs W0 fun r => { r with exec := 0 }).wave.regs.exec = 0) ∧
    (∀ i rest, decode (bytesOfWord 0 ++ [0, 0, 0, 0]) ≠ .ok (i, rest)) ∧
    (h.wave.handler = true ∧ (pair64 (regsOf h).mstack[10] (regsOf h).mstack[9]).toNat % 4 = 0 ∧
      (pair64 (regsOf h).mstack[10] (regsOf h).mstack[9]).toNat < 2 ^ 56) := by
  refine ⟨⟨by decide +kernel, by decide +kernel, test_side_buffer, by decide +kernel, by decide +kernel, by decide +kernel, rfl⟩, ?_, by decide +kernel⟩
  intro i rest h
  have e : decode (bytesOfWord 0 ++ [0, 0, 0, 0]) = .error .unassignedOpcode := by decide +kernel
  rw [e] at h
  cases h

/-- R91: one state for each of its five checks, in its order. -/
theorem test_meets_OperandTraps :
    let f := fun (s : State) (a : Src) (d : Dst) => operandFault (regsOf s) ([.src a (regsWide (regsOf s))] ++ useSrc2 (.s .zero) (regsWide (regsOf s)) ++ [.dst d (regsWide (regsOf s))])
      (tyIn (regsOf s) okArith)
    f (onRegs (under 0xE0) fun r => { r with nregs := 8 }) (.n 8) .queue = some 0x0C ∧ f (under 0x90) (.q 15) .queue = some 0x0D ∧
    f (under 0xE0) (.q 0) .queue = some 0x02 ∧ f W0 (.q 0) .queue = some 0x08 ∧ f W0 (.l 0) .queue = some 0x09 := by decide +kernel

theorem test_meets_EndAndPhase :
    W0.wave.flights = [] ∧ W0.wave.remoteErr = none ∧
    ∃ l v, findLaunch W0 W0.wave.ids.gang.launch = some l ∧ l.variants[W0.wave.regs.variant.val]? = some v ∧ l.variants.length ≤ 8 ∧
      l.variants[0]? = some v ∧ v.gshape = v.gshape ∧ W0.wave.regs.pflag = false ∧ W0.wave.regs.k[l.sizek].toNat ≤ v.bound ∧
      (∀ j x, l.variants[j]? = some x → x = v ∧ 0 ≤ j) := by
  refine ⟨rfl, rfl, _, _, rfl, rfl, by decide +kernel, rfl, rfl, by decide +kernel, by decide +kernel, ?_⟩
  intro j x h
  cases j with
  | zero => exact ⟨(Option.some.inj h).symm, Nat.le_refl _⟩
  | succ j => cases h

/-! ### What the statements about memory assume -/

theorem test_meets_AddressWindows :
    let a0 : Nat := 2 ^ 54 - 1
    let a1 : Nat := 2 ^ 54
    let a2 : Nat := 0xFE * 2 ^ 48 + 127
    let a3 : Nat := 0xFF * 2 ^ 48 + 7 * 2 ^ 19 + (2 ^ 19 - 1)
    let a4 : Nat := 2 ^ 63 + 1023 * 2 ^ 52 + (2 ^ 52 - 2 ^ 44 - 1)
    let a5 : Nat := 2 ^ 63 + 1023 * 2 ^ 52 + (2 ^ 52 - 1)
    let a6 : Nat := 2 ^ 55
    let a7 : Nat := 2 ^ 63 + 2 ^ 62
    (a0 < 2 ^ 54) ∧ (2 ^ 54 ≤ a1 ∧ a1 < 2 ^ 55) ∧ a2 / 2 ^ 48 = 0xFE ∧ a3 < 2 ^ 64 ∧ (a4 < 2 ^ 64 ∧ (2 ^ 52 - 2 ^ 44 - 1) / 2 ^ 44 ≠ 255) ∧
    (a5 < 2 ^ 64 ∧ (2 ^ 52 - 1) / 2 ^ 44 = 255) ∧ (2 ^ 55 ≤ a6 ∧ a6 < 2 ^ 63 ∧ a6 / 2 ^ 48 ≠ 0xFE ∧ a6 / 2 ^ 48 ≠ 0xFF) ∧ (2 ^ 63 + 2 ^ 62 ≤ a7 ∧ a7 < 2 ^ 64) ∧
    ((0xFF * 2 ^ 48 + 2 ^ 22) / 2 ^ 48 = 0xFF ∧ 2 ^ 22 ≤ (0xFF * 2 ^ 48 + 2 ^ 22) % 2 ^ 48 ∧ 8 * 2 ^ 19 = 2 ^ 22) := by
  decide

/-- A lane whose check gave a place on this package. -/
def isLocal (x : LaneAt) : Bool := match x.res with
  | .ok (.remote _) => false
  | .ok _ => true
  | _ => false

theorem local_place (x : LaneAt) (h : isLocal x = true) : ∃ p, x.res = .ok p ∧ ∀ z, p ≠ .remote z := by
  unfold isLocal at h
  split at h
  · cases h
  · rename_i p hp hx; exact ⟨p, hx, fun z e => hp z (e ▸ rfl)⟩
  · cases h

theorem all_local (l : List LaneAt) (h : l.all isLocal = true) : ∀ x ∈ l, ∃ p, x.res = .ok p ∧ ∀ z, p ≠ .remote z :=
  fun x hx => local_place x (List.all_eq_true.mp h x hx)

/-- A lane whose local place no covered write blocks. -/
def isOpen (t : State) (n : Nat) (x : LaneAt) : Bool := match x.res with
  | .ok (.remote _) => false
  | .ok p => !unitBlocked t p n
  | _ => false

theorem all_open (t : State) (n : Nat) (l : List LaneAt) (h : l.all (isOpen t n) = true) :
    ∀ x ∈ l, ∃ p, x.res = .ok p ∧ (∀ z, p ≠ .remote z) ∧ unitBlocked t p n = false := by
  intro x hx
  have hx' := List.all_eq_true.mp h x hx
  unfold isOpen at hx'
  split at hx'
  · cases hx'
  · rename_i p hp he; exact ⟨p, he, fun z e => hp z (e ▸ rfl), by simpa using hx'⟩
  · cases hx'

theorem test_meets_Loads_lanes :
    let s := atLanes (under 0) 0x00FF0000 0 16
    let uses := [OpUse.src (.n 24) true, .src .zero false, .dst (.n 39) false]
    let ea : Lanes W64 := Lanes.of fun l => srcAt (regsOf s) 0 (.n 24) true l + (lo32 (srcAt (regsOf s) 0 .zero false l)).signExtend 64
    let c := checkLanes (countBanks s uses) (activeMask (regsOf s)) ea 4 .load
    operandFault (regsOf s) uses (regsTy (regsOf s)).isSome = none ∧ policyBad (regsOf s).k[1] = false ∧ blockingWait s.wave = none ∧
      (∀ x ∈ c.1, ∃ p, x.res = .ok p ∧ (∀ z, p ≠ .remote z) ∧ unitBlocked c.2 p 4 = false) ∧
      (placesOf c.1 ≠ [] ∧ flightCount s.wave (loadPath (placesOf c.1)) < 63) ∧ isVersioned s = false :=
  ⟨by decide +kernel, by decide +kernel, by decide +kernel, all_open _ _ _ (by decide +kernel), ⟨by decide +kernel, by decide +kernel⟩, by decide +kernel⟩

theorem test_meets_Loads_quad :
    let s := under 0
    let uses := [OpUse.src .zero true, .src .zero false, .quadDst (.n 36)]
    let c := checkLanes (countBanks s uses) (activeMask (regsOf s)) (Lanes.of fun l => srcAt (regsOf s) 0 .zero true l + (lo32 (srcAt (regsOf s) 0 .zero false l)).signExtend 64) 16 .load
    operandFault (regsOf s) uses (regsTy (regsOf s)).isSome = none ∧
      (∀ x ∈ c.1, ∃ p, x.res = .ok p ∧ (∀ z, p ≠ .remote z) ∧ unitBlocked c.2 p 16 = false) ∧ flightCount s.wave (loadPath (placesOf c.1)) < 63 :=
  ⟨by decide +kernel, all_open _ _ _ (by decide +kernel), by decide +kernel⟩

/-- A write of the issuing wave to address 0 of its page that its die has not applied. -/
def pendingWrite : State := { W0 with lag := [⟨0, 1, [(0x20000000, 0, 5)], {}, {}, [], 1, some 0, false, false⟩] }

theorem test_meets_LoadedBytes :
    gangVersion { W0 with vbytes := [⟨⟨0, 0⟩, ⟨0, 0⟩, 0x20000000, 7, 0x20000000⟩] } ⟨0, 0⟩ 0x20000000 = some 7 ∧ gangVersion W0 ⟨0, 0⟩ 0x20000000 = none ∧
    (∃ x ∈ pendingWrite.lag, recHas x 0x20000000 = true ∧ x.token = pendingWrite.wave.ids.token ∧ recOn x (coreDie pendingWrite.wave.ids.core) = false) ∧
    (∀ l ∈ W0.cores[W0.wave.ids.core].l1, l.line ≠ 0x20000000 / 128) ∧
    (let x : WriteRec := ⟨0, 1, [(0x20000000, 0, 5)], {}, {}, [], 1, some 0, true, false⟩;
      ({ W0 with lag := [x] }).lag = [x] ∧ recNew x 0x20000000 = some 5 ∧ recOn x 0 = true) :=
  ⟨by decide +kernel, by decide +kernel, ⟨_, List.mem_singleton.mpr rfl, by decide +kernel, by decide +kernel, by decide +kernel⟩, by decide +kernel, by decide +kernel⟩

def storeLanes (s : State) (n : Nat) (b : OpUse) (u : Use) : List LaneAt × State :=
  checkLanes (countBanks s [OpUse.src (.n 24) true, b]) (activeMask (regsOf s)) (srcLanes (regsOf s) 0 (.n 24) true) n u

/-- What Stores assumes, in global memory, in a scratchpad and in own memory; a policy with a release; and four words at once. -/
def storesMeet (s : State) (n : Nat) (b : OpUse) : Bool :=
  let c := storeLanes s n b .store
  (operandFault (regsOf s) [OpUse.src (.n 24) true, b] (regsTy (regsOf s)).isSome == none) && !policyBad (regsOf s).k[1] && c.1.all isLocal &&
    (placesOf c.1 != []) && decide (flightCount s.wave .store < 63) && !releaseWaits c.2 (regsOf s).k[1] (placesOf c.1) &&
    !monWaits c.2 (placesOf c.1) && Memory.wf c.2.hbm && (s.wave.priv == []) && (s.wave.backing == []) && c.2.groups.all fun g => cellsWf (0 : W8) g.spad

theorem test_meets_Stores_global : storesMeet (kSet (atLanes (under 0) 0 4096 8) 1 0x14) 4 (.src .lane false) = true := by decide +kernel
theorem test_meets_Stores_scratchpad : storesMeet (atLanes (under 0) 0x00FF0000 0 16) 16 (.quad (.n 0)) = true := by decide +kernel
theorem test_meets_Stores_own : storesMeet (atLanes (under 0) 0x00FE0000 124 0) 4 (.src .lane false) = true := by decide +kernel
theorem test_meets_Stores_local (s : State) (n : Nat) (b : OpUse) (h : storesMeet s n b = true) :
    ∀ x ∈ (storeLanes s n b .store).1, ∃ p, x.res = .ok p ∧ ∀ z, p ≠ .remote z := by
  unfold storesMeet at h
  simp only [Bool.and_eq_true] at h
  exact all_local _ h.1.1.1.1.1.1.1.1.2

/-- A wave without a byte of its own memory. -/
theorem test_meets_own_memory (s : State) (h : s.wave.priv = []) (e : s.wave.backing = []) : OwnMemoryWf s := by
  refine ⟨by rw [h]; decide, by rw [e]; decide, fun key => ?_⟩
  split
  · rw [e]; rfl
  · rw [h]; rfl

/-- The machine with its gang as a versioned task, which has a version of the line at address 4096. -/
def versioned (s : State) : State := { s with tasks := s.tasks.map fun t => { t with versioned := true }
                                              vlines := [⟨⟨0, s.wave.ids.tid⟩, 0x20001000 / 128, true⟩] }

theorem test_meets_Stores_versioned :
    let s := versioned (atLanes (under 0) 0 4096 4)
    let c := storeLanes s 4 (.src .lane false) .store
    isVersioned s = true ∧ storesMeet s 4 (.src .lane false) = true ∧
      (performStores true (fun l => leBytes 4 (srcAt (regsOf s) 0 .lane false l).toNat) (placesOf c.1)
        (reachLines c.2 (regsOf s).k[1] (placesOf c.1))).isSome = true := by decide +kernel

/-- Lane 0 at address 0, the other lanes at addresses that are no multiple of 4. -/
theorem test_meets_FailingStores :
    let s := atLanes (under 0) 0 0 1
    let c := storeLanes s 4 (.src .lane false) .store
    (∀ x ∈ c.1, x.res ≠ .held ∧ ∀ z, x.res ≠ .ok (.remote z)) ∧
      operandFault (regsOf s) [OpUse.src (.n 24) true, .src .lane false] (regsTy (regsOf s)).isSome = none ∧ policyBad (regsOf s).k[1] = false ∧
      c.1.filterMap (fun x => match x.res with | .fail z => some (x, z) | _ => none) ≠ [] ∧ placesOf c.1 ≠ [] ∧
      flightCount s.wave .store < 63 ∧ releaseWaits c.2 (regsOf s).k[1] (placesOf c.1) = false ∧ monWaits c.2 (placesOf c.1) = false ∧
      (performStores (isVersioned s) (fun l => leBytes 4 (srcAt (regsOf s) 0 .lane false l).toNat) (placesOf c.1)
        (reachLines c.2 (regsOf s).k[1] (placesOf c.1))).isSome = true := by
  refine ⟨?_, by decide +kernel⟩
  have h : (storeLanes (atLanes (under 0) 0 0 1) 4 (.src .lane false) .store).1.all (fun x => match x.res with
      | .held => false | .ok (.remote _) => false | _ => true) = true := by decide +kernel
  intro x hx
  have hx' := List.all_eq_true.mp h x hx
  constructor
  · intro e; rw [e] at hx'; cases hx'
  · intro z e; rw [e] at hx'; cases hx'

theorem test_meets_Atomics :
    let s := atAddress (under 0) 0 4096
    let c := storeLanes s 4 (.src .lane false) .atomic
    let at0 := (placesOf c.1).filterMap (fun x => match x.2 with
        | .mem pa _ => some (x.1, ((none, pa) : UnitKey))
        | .spad i off => some (x.1, (some i, off))
        | _ => none)
    (∀ p, flightCount s.wave p < 63) ∧ operandFault (regsOf s) [.src (.n 24) true, .src .lane false] (tyIn (regsOf s) atomTy) = none ∧
      operandFault (regsOf s) [.src (.n 24) true, .src .lane false, .dst (.n 6) false] (tyIn (regsOf s) atomTy) = none ∧
      operandFault (regsOf s) [.src (.n 24) true, .src (.n 0) true, .dst (.n 6) false] (tyIn (regsOf s) atomTy) = none ∧
      policyBad (regsOf s).k[1] = false ∧ blockingWait s.wave = none ∧ c.1.all isLocal = true ∧ monWaits c.2 (placesOf c.1) = false ∧ at0.length = 32 ∧ (∀ x ∈ at0, x.2.1 = none) ∧
      releaseWaits c.2 (regsOf s).k[1] (placesOf c.1) = false ∧ isVersioned s = false ∧ Memory.wf c.2.hbm = true ∧
      (∀ g ∈ c.2.groups, cellsWf (0 : W8) g.spad = true) := by
  refine ⟨?_, by decide +kernel⟩
  intro p
  cases p <;> decide +kernel

theorem test_meets_CacheAndOrder :
    operandFault (regsOf W0) [.src (.n 24) true] true = none ∧ policyBad (regsOf W0).k[1] = false ∧ (regsOf W0).k[1].toNat = 0 ∧
    (∃ g l t, findGang W0 W0.wave.ids.gang = some g ∧ g.pins.length < 16 ∧ pinLines (rangeLines 0x100000 128) W0 = (.ok l, t) ∧ l.length ≤ 8 ∧
      pinnedOn t (coreDie W0.wave.ids.core) = []) ∧ pendingMons W0 = [] ∧
    W0.lag.all (fun y => y.token != W0.wave.ids.token || (if 4 ≤ scopeNum .domain then y.on0 && y.on1 else recOn y 0)) = true ∧
    (FenceOrder.acq ≠ .rel ∧ 2 ≤ scopeNum .gang ∧ scopeNum .group < 2) ∧ flightCount W0.wave .gload ≤ 0 := by
  refine ⟨by decide +kernel, by decide +kernel, by decide +kernel, ⟨_, _, _, rfl, by decide +kernel, rfl, by decide +kernel, by decide +kernel⟩,
    by decide +kernel, by decide +kernel, by decide, by decide +kernel⟩

/-- A set of an L2 slice takes up to eight pinned lines (R247). -/
theorem test_meets_pins (s : State) (d : Fin 2) (new : List Nat) (h : new.length ≤ 8)
    (e : pinnedOn s d = []) : pinOver s d new = false := by
  unfold pinOver
  simp only [e, List.nil_append, List.any_eq_false, decide_eq_true_eq, Nat.not_lt]
  intro x _
  refine Nat.le_trans (List.length_filter_le _ _) (Nat.le_trans ?_ h)
  have : ∀ l : List Nat, l.eraseDups.length ≤ l.length := by
    intro l
    induction hn : l.length using Nat.strong_induction_on generalizing l with
    | _ n ih =>
      cases l with
      | nil => simp
      | cons a l =>
        rw [List.eraseDups_cons, List.length_cons]
        have hl : (l.filter fun b => !b == a).length ≤ l.length := List.length_filter_le _ _
        have := ih _ (by simp only [List.length_cons] at hn; omega) (l.filter fun b => !b == a) rfl
        simp only [List.length_cons] at hn
        omega
  exact this new


/-! ### What the statements about the engines and objects assume -/

/-- The machine with its group's scratchpad at its largest. -/
def M0 : State := { W0 with groups := W0.groups.map fun g => { g with spadSize := 112 } }

def I0 : Issuer := ⟨0, some ⟨0, 0⟩, 0, 0, 0, 1, some W0.wave.ids.tid, {}, [], false⟩
def G0 : Group := M0.groups.head (by decide +kernel)

/-- A state with group 0 changed. -/
def withGroup (s : State) (f : Group → Group) : State := { s with groups := s.groups.map f }

def ap (off : Nat) : W64 := BitVec.ofNat 64 (0x00FF * 2 ^ 48 + off)

/-- Registers and a plan for the matrix instructions: the plan in h0, operands at k8 and k9, a completion in k10, a count of 3 for rings of 2 in k11. -/
def mx : State := onRegs M0 fun r => { r with
  h := r.h.set 0 0x0004009201041048
  k := (((r.k.set 8 (ap 0)).set 9 (ap 0x6000)).set 10 (ap 0x60000)).set 11 0x20003 }

def ringOk (s : State) (c : Option W64) (l : List Nat) : Bool :=
  match (ringChecks (planOf 0x0004009201041048) (ap 0) (ap 0x6000) c l [] s).1 with
  | .ok _ => true
  | _ => false

theorem test_ring (s : State) (c : Option W64) (l : List Nat) (h : ringOk s c l = true) :
    ∃ p t, ringChecks (planOf 0x0004009201041048) (ap 0) (ap 0x6000) c l [] s = (.ok p, t) := by
  unfold ringOk at h
  rcases hx : ringChecks (planOf 0x0004009201041048) (ap 0) (ap 0x6000) c l [] s with ⟨_ | _ | _, t⟩
  · exact ⟨_, t, rfl⟩
  · rw [hx] at h; cases h
  · rw [hx] at h; cases h

theorem test_meets_MatrixIssue :
    planOk (regsOf mx).h[0] = true ∧ planOk ((0x0004009201041048 : W64) + 7) = false ∧ flightCount mx.wave .engine < 63 ∧
    (∃ p t, ringChecks (planOf 0x0004009201041048) (ap 0) (ap 0x6000) none (List.range (min 1 1)) [] mx = (.ok p, t)) ∧
    (∃ p t, ringChecks (planOf 0x0004009201041048) (ap 0) (ap 0x6000) none (List.range (min 3 2)) [] mx = (.ok p, t)) ∧
    ((regsOf mx).k[11].toNat % 2 ^ 16 = 3 ∧ (regsOf mx).k[12].toNat % 2 ^ 16 = 0) ∧
    operandFault (regsOf mx) [.src .lane false, .src (.n 0) false] true = none ∧
    (∃ p t, monCheck mx (ap 8).toNat = (.ok p, t)) :=
  ⟨by decide +kernel, by decide +kernel, by decide +kernel, test_ring _ _ _ (by decide +kernel), test_ring _ _ _ (by decide +kernel), by decide +kernel,
    by decide +kernel, ⟨[], mx, by decide +kernel⟩⟩

theorem test_meets_MatrixReads :
    operandFault (regsOf M0) [.src .lane false, .dst (.n 39) false] true = none ∧ findGroup M0 M0.wave.ids.gang M0.wave.ids.group.val = some G0 ∧
      M0.cores[M0.wave.ids.core].mxQueue ++ M0.cores[M0.wave.ids.core].mxWait = [] := by decide +kernel

/-- One step of the plan, as a completion on the barrier at 0x60000. -/
def stepCmd (c : Option W64) : MxCmd := .steps 3 0x0004009201041048 (ap 0) (ap 0x6000) c [] 3 2 1

def barred : State := withGroup M0 fun g => { g with bars := [0x60000], spad := [(0x60000, 9), (0x60004, 1), (0x60008, 9), (0x6000C, 1)] }

theorem test_meets_MatrixSteps :
    (let s := onCore M0 0 fun c => { c with mxWait := [⟨stepCmd none, I0, false⟩] }
     s.cores[0].mxWait = [⟨stepCmd none, I0, false⟩] ∧ s.cores[0].mxQueue.length < 16 ∧ cmdCompls s (stepCmd none) = [] ∧
       engineStopped s I0.part (matrixAgent 0) = false) ∧
    hasRoom (engineRoom M0 I0 0 ((cmdCompls M0 (stepCmd (some (ap 0x60000)))).flatMap (keysAt M0 I0 none))) = true ∧
    (let s := onCore barred 0 fun c => { c with mxQueue := [⟨stepCmd (some (ap 0x60000)), I0, false⟩] }
     let o := stepOps 0x0004009201041048 (ap 0) (ap 0x6000) 2 1
     forkReady s I0 = true ∧ operandBlocked s I0 [] o.a o.na = false ∧ operandBlocked s I0 [] o.b o.nb = false ∧
       operandLost s I0 [] o.a o.na = false ∧ operandLost s I0 [] o.b o.nb = false ∧ (findGroup s ⟨0, 0⟩ 0).isSome = true ∧
       windowOf s (ap 0x60000).toNat = .aperture 0 0x60000 ∧
       windowOf s (ringCompl s (ap 0x60000) (1 % 2)).toNat = .aperture 0 (0x60000 + 16 * (1 % 2)) ∧
       (s.groups.all fun g => cellsWf (0 : W8) g.spad && g.index.val == 0) = true) := by decide +kernel

theorem test_meets_MatrixCommands :
    I0.gang = some ⟨0, 0⟩ ∧ findGroup M0 ⟨0, 0⟩ I0.group.val = some G0 ∧ (∀ q : TileReg, cellsWf (0 : W32) G0.tiles[q] = true) ∧
    (onCore M0 0 fun c => { c with mxQueue := [⟨.zero 3 .ninf, I0, false⟩] }).cores[0].mxQueue = [⟨.zero 3 .ninf, I0, false⟩] ∧
    ((match windowOf M0 4096 with | .global va => va == 4096 | _ => false) = true ∧ issuerVersioned M0 I0 = false ∧
      overlapsOwned M0 0x20001000 8 = false ∧ Memory.wf M0.hbm = true) ∧
    (((M0.parts[I0.part]).parked.any fun i => some i.tid == I0.tid) = false ∧ windowOf M0 (ap 8).toNat = .aperture G0.index.val 8 ∧
      overlapsBar G0 8 24 = false ∧ cellsWf (0 : W8) G0.spad = true) ∧
    appliedOn M0 (objectDie M0 I0 (ap 0x60000)) [] = true := by decide +kernel

/-- The barrier at 0x60000 with one arrival and nine bytes to come, addressed by k8; k9 names its phase 1, k10 nine bytes. -/
def bar0 : State := onRegs barred fun r => { r with k := ((r.k.set 8 (ap 0x60000)).set 9 1).set 10 9 }

theorem test_meets_Barriers :
    rangeWindow bar0 (regsOf bar0).k[8].toNat 16 = .ok (.aperture 0 0x60000) ∧ (apertureAt bar0 bar0.wave.ids.gang 0 0x60000 16).isSome = true ∧
    (regsOf bar0).k[8].toNat % 16 = 0 ∧ (bar0.groups.all fun g => cellsWf (0 : W8) g.spad) = true ∧
    -- BARINIT: one arrival and no bytes; nothing registered in the way.
    ((1 : Nat) / 2 ^ 16 % 2 ^ 16 = 0 ∧ (1 : Nat) % 2 ^ 16 ≠ 0 ∧ (M0.groups.all fun g => !overlapsBar g 0x60000 16) = true ∧
      objsUsed M0 (tableDie M0) < 8192) ∧
    -- BARARR
    ((2 ^ 32 - 1 < 2 ^ 32) ∧ (bar0.groups.all fun g => g.bars.contains 0x60000) = true ∧ storesAcked bar0 2 = true ∧ flightCount bar0.wave .store < 63) ∧
    -- BARWAIT and BARFREE
    (barAt bar0 bar0.wave.ids.gang 0 0x60000).phase ≠ (regsOf bar0).k[9].toNat % 2 ∧
    anyWait bar0 (.spad bar0.wave.ids.gang 0 0x60000) = false ∧ engineHolders bar0 (.spad bar0.wave.ids.gang 0 0x60000) = [] := by decide +kernel

theorem test_meets_BarrierArrivals :
    (let b : Bar := ⟨0, 4, 1, 0, 0xFFFF, 0, 4, 0⟩; b.pb = 0 ∧ 3 < b.pa ∧ b.phase ≤ 1) ∧
    (let b : Bar := ⟨9, 1, 1, 0, 0, 9, 1, 0⟩; b.err ≤ 1 ∧ b.ovf ≤ 1 ∧ b.pa ≠ 0 ∧ b.pb < 10 ∧ 8 < b.pb) ∧
    (let b : Bar := ⟨9, 0, 1, 0, 0, 9, 1, 0⟩; b.pa = 0) := by decide

/-- Counters at address 4096 of the page: k8 their address, k9 the other operand, k10 a task. -/
def counterAt (word add : Nat) : State :=
  onRegs { M0 with hbm := (keyed 0x20001000 (leBytes 8 word)).foldl (fun m x => cellSet 0 m x.1 x.2) M0.hbm } fun r =>
    { r with k := ((r.k.set 8 4096).set 9 (BitVec.ofNat 64 add)).set 10 0 }

/-- A read whose tags lead to no limit. -/
def observes (s : State) (lines : List Nat) : Bool := match observe s lines with
  | .ok _ => true
  | _ => false

/-- What Counters assumes of its address and access. -/
def counterMeets (s : State) (n : Nat) (acc : Access) : Bool :=
  let tr := waveTranslate s 4096 acc
  (match rangeWindow s (regsOf s).k[8].toNat n with | .ok (.global va) => va == 4096 | _ => false) && (regsOf s).k[8].toNat % n == 0 &&
    (match tr.1 with | .ok pa => pa == 0x20001000 | _ => false) && !lostRead tr.2 s.wave.ids.part (some s.wave.ids.gang) (bytesFrom 0x20001000 n) &&
    observes tr.2 [0x20001000 / 128] && Memory.wf tr.2.hbm &&
    (acc != .write || (!overlapsOwned tr.2 0x20001000 n && storesAcked tr.2 4 && decide (flightCount s.wave .store < 63)))

theorem test_meets_Counters :
    -- CNTADD and its maximum form: the largest value and the largest operand.
    (counterMeets (counterAt (2 ^ 63 - 1) (2 ^ 63 - 1)) 8 .write = true ∧ memNat (counterAt (2 ^ 63 - 1) 0) 0x20001000 8 = 2 ^ 63 - 1) ∧
    -- The signal form: not armed with room for a pending count; armed with two left, with one left, fired.
    (counterMeets (counterAt 0 0) 16 .write = true ∧ (M0.dies[homeOf 0x20001000]).pending.length < 1024) ∧
    (counterMeets (counterAt (2 ^ 32 + 2) 0) 16 .write = true ∧ counterMeets (counterAt (2 ^ 32 + 1) 0) 16 .write = true ∧
      memNat (counterAt (2 ^ 32 + 1) 0) (0x20001000 + 8) 8 = 0 ∧ counterMeets (counterAt (3 * 2 ^ 32) 0) 16 .write = true) ∧
    -- CNTWAIT at the count; CNTARM beyond the pending signals, and with none to come.
    (counterMeets (counterAt 5 5) 8 .read = true ∧ 5 % 2 ^ 63 ≤ gangWord (counterAt 5 5) ⟨0, 0⟩ 0x20001000 % 2 ^ 63) ∧
    (armBad (counterAt 0 5) (regsOf (counterAt 0 5)).k[9] 0 0x20001000 = false ∧ pendCount (counterAt 0 5) 0x20001000 < 5) ∧
    (let s := onDie (counterAt 0 1) 0 fun d => { d with pending := [(0x20001000, 2)] }
     armBad s (regsOf s).k[9] 0 0x20001000 = false ∧ 1 ≤ pendCount s 0x20001000) := by decide +kernel

/-- The gang measures; its task is versioned; a descriptor of one pass stands at address 0 of the page. -/
def measured : State :=
  let s := versioned { M0 with gangs := M0.gangs.map fun g => { g with meas := true } }
  let desc := keyed 0x20000000 (leBytes 64 (1 + 2 ^ 64 * 0x11030201))
  { s with hbm := desc.foldl (fun m x => cellSet 0 m x.1 x.2) s.hbm }

theorem test_meets_PerformanceCounters :
    ((findGang measured ⟨0, 0⟩).map fun g => g.meas) = some true ∧ ((17 : Nat) + 256) % 256 ≤ 17 ∧
    operandFault (regsOf measured) [.src .lane false, .dst (.n 39) false] true = none ∧
    (∃ t, findTask measured measured.wave.ids.tid measured.wave.ids.part = some t ∧ t.versioned = true ∧ t.replay = none) ∧
    (let tr := waveTranslate measured 0 .read
     let desc := leNat ((List.range 64).map fun i => gangByte tr.2 (some ⟨0, 0⟩) 0 1 (0x20000000 + i))
     (match rangeWindow measured 0 64 with | .ok (.global va) => va == 0 | _ => false) = true ∧
     (match tr.1 with | .ok pa => pa == 0x20000000 | _ => false) = true ∧ lostRead tr.2 0 (some ⟨0, 0⟩) (bytesFrom 0x20000000 64) = false ∧
       unitBlocked tr.2 (.mem 0x20000000 0) 64 = false ∧ replayBad tr.2 desc = false) :=
  ⟨by decide +kernel, by decide, by decide +kernel, ⟨_, rfl, by decide +kernel, by decide +kernel⟩, by decide +kernel⟩

/-- A state's wave with k8 and k9 set. -/
def asks (s : State) (x y : W64) : State := kSet (kSet s 8 x) 9 y

/-- A word of 8 bytes at address 4096 of the page. -/
def wordAt (v : Nat) : State := counterAt v 0

/-- Another wave of the gang waiting to lock or to take units of that word. -/
def waiting (s : State) (what : WaitFor) : State :=
  let v : Wave := { s.wave with ids := { s.wave.ids with token := 7, wave := 1 }, run := .stalled, wait := some ⟨false, false, .word 0 4096, 0, what, false, 0⟩ }
  { s with waves := [v] }

def registers (s : State) (k : ObjKey) : Bool := match registerWait s k 0 .explicit true false with
  | .ok _ => true
  | _ => false

theorem test_registers (s : State) (k : ObjKey) (h : registers s k = true) : ∃ t, registerWait s k 0 .explicit true false = .ok t := by
  unfold registers at h
  split at h
  · exact ⟨_, by assumption⟩
  · cases h

theorem test_meets_WaitTable :
    objectCheck M0 (2 ^ 54 - 8) = .ok false ∧ objectCheck M0 (ap (112 * 4096 - 8)) = .ok false ∧ M0.wave.run ≠ .ended ∧
    (∃ t, registerWait M0 (.word 0 4096) 0 .explicit true false = .ok t) ∧ objsUsed M0 (tableDie M0) < 8192 ∧
    linksUsed M0 (tableDie M0) < 16384 ∧ M0.wave.wait = none ∧ (waiting M0 .explicit).wave.wait = none ∧
    operandFault (regsOf M0) ([OpUse.src (.n 24) true] ++ useSrc2 (.s .lane) false ++ [.dst (.n 39) false]) true = none ∧
    (let l : WaitLink := ⟨true, false, .word 0 4096, 0, .explicit, false, 0⟩
     (onWave M0 fun w => { w with wait := some l }).wave.wait = some l ∧ (∀ o ∈ M0.objs, o.kind < 8)) ∧
    ((queryKey M0 0).bind fun k => kindOf M0 k) = none :=
  ⟨by decide +kernel, by decide +kernel, by decide +kernel, test_registers _ _ (by decide +kernel), by decide +kernel⟩

/-- What LocksAndSemaphores assumes of its word, at address 4096. -/
def wordMeets (s : State) : Bool :=
  let c := checkWord s (regsOf s).k[8] 8 lockUse
  (match c.1 with | .ok p => locOf c.2 p == .mem 0x20001000 && observes c.2 (locLines (locOf c.2 p)) | _ => false) &&
    Memory.wf c.2.hbm && (c.2.groups.all fun g => cellsWf (0 : W8) g.spad) && storesAcked c.2 4

theorem test_meets_LocksAndSemaphores :
    let k : ObjKey := .word 0 4096
    -- LOCK of a word without owner, another's count above; UNLOCK by the owner; with a waiter.
    (wordMeets (wordAt (2 ^ 63)) = true ∧ isGranted (wordAt (2 ^ 63)) k = false ∧ waitsOn (wordAt (2 ^ 63)) k = false ∧ keyAt (wordAt 0) 0 (some ⟨0, 0⟩) 4096 = k) ∧
    (wordMeets (wordAt (2 ^ 63 + 1)) = true ∧ wordRead (wordAt (2 ^ 63 + 1)) (.mem 0x20001000) % 2 ^ 32 = (wordAt 0).wave.ids.token.toNat ∧
      handWaiters (wordAt (2 ^ 63 + 1)) k isLockWait = []) ∧
    (let s := waiting (wordAt 1) .lockHand
     wordMeets s = true ∧ (handWaiters s k isLockWait).map (fun w => w.ids.token) = [7]) ∧
    (let s := onWave (wordAt 1) fun w => { w with wait := some ⟨false, false, k, 0, .lockHand, true, 0⟩ }
     isGranted s k = true) ∧
    -- SEMTAKE of all units, of none; SEMGIVE.
    (let s := asks (wordAt (2 ^ 32 - 1)) 4096 (2 ^ 32 - 1)
     wordMeets s = true ∧ (lo32 (regsOf s).k[9]).toNat ≤ wordRead s (.mem 0x20001000) % 2 ^ 32 ∧ handWaiters s k isUnitsWait = [] ∧ isVersioned s = false ∧
       objsUsed s (tableDie s) < 8192 ∧ linksUsed s (tableDie s) < 16384) := by decide +kernel

/-! ### What the statements about copies and records assume -/

/-- Bytes placed in memory. -/
def put (s : State) (pa : Nat) (bytes : List W8) : State := { s with hbm := (keyed pa bytes).foldl (fun m x => cellSet 0 m x.1 x.2) s.hbm }

/-- One row of 16 words, in code 2. -/
def row1 : W64 := BitVec.ofNat 64 (2 + 16 * 2 ^ 3 + 2 ^ 18 + 16 * 2 ^ 34 + 16 * 2 ^ 49)

/-- A machine of two packages whose wave asks for a copy: source, destination, shape, completion and scale in k20 to k24. -/
def copies (src dst shape compl scale : W64) : State :=
  let s := kSet (kSet (kSet (kSet (kSet barred 20 src) 21 dst) 22 shape) 23 compl) 24 scale
  { s with pkg := { s.pkg with dsize := 2 } }

def goes (s : State) (kind : CopyKind) : Bool := copyCheck s (copyBlock s kind 20) == none

def far : W64 := BitVec.ofNat 64 (2 ^ 63 + 2 ^ 52 + 4096)

theorem test_meets_CopyIssue :
    -- SHAPE: the largest fields, and a row of no elements.
    (let n := 16
     let row := (2 ^ 15 - 1) * n
     row % n = 0 ∧ row / n < 2 ^ 15 ∧ 0 < row ∧ (0 : Nat) < 2 ^ 16 - 1 ∧ row ≤ (2 ^ 15 - 1) * n) ∧ ¬ ((0 : Nat) < 0) ∧
    goes (copies (ap 0) (ap 4096) row1 (ap 0x60000) 0) .plain = true ∧ goes (copies (ap 0) (ap 4096) row1 (ap 0x60000) 0) (.multi 1) = true ∧
    goes (copies 4096 (ap 4096) (row1 + 2) 0 4096) .dequant = true ∧ goes (copies 4096 far row1 0 far) (.puts true) = true ∧
    goes (copies far (ap 4096) row1 0 0) .get = true ∧ goes (copies 4096 far row1 0 far) (.radd 8 false true) = true ∧
    goes (copies 0 (ap 4096) row1 0 0) (.gather (Lanes.all 4096) 0xFFFFFFFF) = true ∧
    ((copyCheck (copies (ap 0) (ap 4096) 0 0 0) (copyBlock (copies (ap 0) (ap 4096) 0 0 0) .plain 20)).map fun f => f.cause) = some 0x39 ∧
    tyIn (regsOf (onRegs M0 fun r => { r with mode := 0x80 })) raddTy = true ∧ flightCount M0.wave .engine < 63 ∧
    operandFault (regsOf M0) [.src (.n 24) true] true = none := by decide +kernel

/-- A copy of the wave's gang between offsets 0 and 4096 of its scratchpad. -/
def copyOp (compl : W64) (moved : Option Moved) : CopyOp := ⟨.plain, ap 0, ap 4096, row1, compl, 0, I0, false, none, moved, none, 1, 0⟩
def waitingCopy (o : CopyOp) : State := onDie barred 0 fun d => { d with copyWait := [o] }
def runningCopy (o : CopyOp) : State := onDie barred 0 fun d => { d with copyRun := [o] }

/-- Rows of a copy read and written by an engine, as the statement reads them: the moves of all rows, and the read of one row. -/
def movesAll (s : State) (o : CopyOp) : Moving := (List.range (shapeOf o.shape).rows).foldl (moveRow o (shapeOf o.shape)) ⟨s, [], o.who.clk, [], [], [], false⟩
def rowReads (s : State) (who : Issuer) (a : W64) (n : Nat) : Bool := match localRead s who a n {} with
  | (.ok b _, _) => b.length == n
  | _ => false
def pagesRead (s : State) (acc : Sys2Proof.Access) (va n : Nat) : Bool := match transPages I0.core I0.gang I0.part va acc (pagesOf va n) s with
  | (.ok l, t) => !lostRead t I0.part I0.gang ((List.range n).map fun j => paThrough l (va + j)) && !overlapsOwned t (paThrough l va) n && Memory.wf t.hbm
  | _ => false

theorem test_meets_CopyEngine :
    (let o := copyOp 0 none
     let s := waitingCopy o
     s.dies[0].copyWait = [] ++ o :: [] ∧ onCluster 0 o = true ∧ ((s.dies[0].copyRun.filter (onCluster 0)).filter fun y => !inProgress s 0 y).length < 32 ∧
       issuerAway s o.who = false ∧ copyFits s o = true ∧ engineStopped s o.who.part (queueAgent 0) = false) ∧
    hasRoom (engineRoom barred I0 0 (completionKeys barred I0 (copyMask .plain) (ap 0x60000))) = true ∧
    (let o := copyOp (ap 0x60000) none
     let s := runningCopy o
     copyAt s 0 0 = some o ∧ o.kind = .plain ∧ (shapeOf o.shape).rows = 1 ∧ ((s.parts[o.who.part]).parked.any fun y => some y.tid == o.who.tid) = false ∧
       copyReady s o = true ∧ anyLost s = false ∧ windowOf s o.src.toNat = .aperture 0 0 ∧ windowOf s o.dst.toNat = .aperture 0 4096 ∧
       (apertureAt s ⟨0, 0⟩ 0 0 64).isSome = true ∧ (apertureAt s ⟨0, 0⟩ 0 4096 64).isSome = true ∧
       (s.groups.all fun g => !overlapsBar g 4096 64 && cellsWf (0 : W8) g.spad) = true) ∧
    (let o := copyOp 0 (some ⟨[], {}, false⟩)
     let s := runningCopy o
     copyAt s 0 0 = some o ∧ appliedOn s (coreDie o.who.core) [] = true) ∧
    -- Two rows from global memory to a scratchpad; the reads and writes of a row; failed rows whose records are there.
    (let o := { copyOp 0 none with src := 4096, shape := row1 + BitVec.ofNat 64 (2 ^ 18) }
     let s := runningCopy o
     let m := movesAll s o
     (shapeOf o.shape).rows = 2 ∧ copyAt s 0 0 = some o ∧ copyReady s o = true ∧ anyLost s = false ∧ isRemote s o.src = false ∧ isRemote s o.dst = false ∧
       m.full = false ∧ m.recs = []) ∧
    ((match rangeWindow barred (ap 0).toNat 64 with | .ok (.aperture slot off) => slot == 0 && off == 0 | _ => false) = true ∧
      (match rangeWindow barred 4096 64 with | .ok (.global va) => va == 4096 | _ => false) = true ∧ pagesRead barred .read 4096 64 = true ∧
      pagesRead barred .write 4096 64 = true ∧ rowReads barred I0 4096 64 = true ∧ rowReads barred I0 (ap 0) 64 = true ∧ issuerVersioned barred I0 = false ∧
      issuerVersioned (versioned barred) I0 = true ∧ recordsDone barred I0 0 = true) ∧
    (let o := copyOp (ap 0x60000) (some ⟨[], {}, true⟩)
     let s := runningCopy o
     copyAt s 0 0 = some o ∧ windowOf s o.compl.toNat = .aperture 0 0x60000 ∧ (findGroup s ⟨0, 0⟩ 0).isSome = true ∧
       appliedOn s (coreDie o.who.core) [] = true) := by decide +kernel

/-- The page of the placed program, for any access of its partition through core 0. -/
def pageOk (s : State) (c : Fin 192) (p : Fin 24) (va pa : Nat) : Bool :=
  match tlbHit s.cores[c].tlb p va with
  | some e => e.w && e.d && pa == e.base + va % 2 ^ pageBits e.level
  | none => false

theorem test_pageAt (s : State) (c : Fin 192) (p : Fin 24) (va pa : Nat) (h : pageOk s c p va pa = true) : PageAt s c p va pa := by
  unfold pageOk at h
  split at h
  · rename_i e he
    simp only [Bool.and_eq_true, beq_iff_eq] at h
    exact ⟨e, he, h.1.1, h.1.2, h.2⟩
  · cases h

/-- Channel 0 of die 0 as the partition's own, in a state, with a record of its submitter's at address 8192 that says `own`. -/
def channel (state : Fin 4) (own : W8) : State :=
  let s := onChan M0 0 0 fun c => { c with state := state, part := 0, cur := 8192, last := 8192, polls := 1 }
  put (kSet s 8 8192) 0x20002000 [own]

/-- A record of 64 bytes that nothing keeps from being read. -/
def recordOk (s : State) (c : Fin 192) (p : Fin 24) (va pa : Nat) : Bool := pageOk s c p va pa && !lostRead s p none (bytesFrom pa 64)

theorem test_recordAt (s : State) (c : Fin 192) (p : Fin 24) (va pa : Nat) (h : recordOk s c p va pa = true) : RecordAt s c p va pa := by
  unfold recordOk at h
  simp only [Bool.and_eq_true, Bool.not_eq_true'] at h
  exact ⟨test_pageAt _ _ _ _ _ h.1, h.2⟩

/-- Channel 0 with a submitted record whose completion is a counter at address 4096, and the die's table full: without an extension, and with one in host-assisted mode. -/
def roomless (host : Bool) : State :=
  let s := put (channel 0 1) 0x20002000 (leBytes 64 (1 + 4096 * 2 ^ 256))
  let t := onPart { s with objs := List.replicate 8192 ⟨0, 0, false, .word 0 0, 2, 0, 0, none⟩ } 0 fun p => { p with pfmode := 2 }
  onDie t 0 fun d => { d with wftxbase := if host then 0x4000000 else 0 }

/-- Where its record finds room. -/
def roomIs (s : State) (r : Room) : Bool :=
  let c := { chainAt s (.chan 0 0) with kicker := some (issuerOf s), cur := 8192, last := 8192 }
  roomAt s (.chan 0 0) c 0x20002000 == r && memNat s 0x20002000 1 % 4 == 1

theorem test_table_room : roomIs (channel 0 1) .onDie = true ∧ roomIs (roomless false) .full = true ∧ roomIs (roomless true) .host = true := by
  decide +kernel

theorem test_meets_Kicks :
    (∀ st : Fin 4, let s := channel st 1
      chainPart s (.chan 0 0) = some s.wave.ids.part ∧ (chainAt s (.chan 0 0)).state = st ∧ recordAddrOk (regsOf s).k[8] = true ∧ storesAcked s 4 = true ∧
        isVersioned s = false) ∧
    RecordAt (channel 0 1) 0 0 8192 0x20002000 ∧ Memory.wf (channel 0 1).hbm = true ∧
    (recordAddrOk (2 ^ 54 - 64) = true ∧ recordAddrOk (2 ^ 54) = false) ∧
    (∃ t, findTask (versioned (channel 0 1)) (channel 0 1).wave.ids.tid 0 = some t ∧ t.versioned = true) ∧
    chainPart M0 (.chan 0 0) ≠ some M0.wave.ids.part ∧ ({ M0.pkg with ready := true } : Pkg).ready = true ∧ chainPart M0 (.cmd 23) = some 23 :=
  ⟨by decide +kernel, test_recordAt _ _ _ _ _ (by decide +kernel), by decide +kernel, by decide +kernel, ⟨_, rfl, by decide +kernel⟩, by decide +kernel,
    by decide +kernel, by decide +kernel⟩

theorem test_meets_Chains :
    let s := kSet (channel 2 0) 8 4096
    nextField s 0x20001000 = 0 ∧ PageAt s 0 0 4096 0x20001000 ∧ PageAt s 0 0 8192 0x20002000 ∧ (chainAt s (.chan 0 0)).last.toNat = 8192 ∧
      RecordAt (kSet (channel 3 0) 8 4096) 0 0 4096 0x20001000 ∧ RecordAt (channel 2 1) 0 0 8192 0x20002000 ∧ Memory.wf s.hbm = true ∧
    (let d := fun (own : W8) => onDie (channel 2 own) 0 fun d => { d with clock := 256 }
     (∀ own : Fin 2, (chainAt (d (if own = 0 then 0 else 1)) (.chan 0 0)).state = 2 ∧ 256 ≤ ((d (if own = 0 then 0 else 1)).dies[0].clock -
       (chainAt (d (if own = 0 then 0 else 1)) (.chan 0 0)).since).toNat) ∧ memNat (d 0) 0x20002000 1 % 4 = 0 ∧ memNat (d 1) 0x20002000 1 % 4 = 1) :=
  ⟨by decide +kernel, test_pageAt _ _ _ _ _ (by decide +kernel), test_pageAt _ _ _ _ _ (by decide +kernel), by decide +kernel,
    test_recordAt _ _ _ _ _ (by decide +kernel), test_recordAt _ _ _ _ _ (by decide +kernel), by decide +kernel, by decide +kernel⟩

/-- A record in service of channel 0. -/
def serving (snap : List W8) (o : CopyOp) (finished : Bool) : State :=
  onChan (put barred 0x20002000 [2]) 0 0 fun c =>
    { c with state := 1, part := 0, cur := 8192, last := 8192, inService := some ⟨8192, 0x20002000, snap, 0, some o, 0, false, finished⟩ }

/-- A transfer record with the completion at its third word, and a stream record of two tiles through a ring of one slot with its barriers at offset 0x60000. -/
def plainSnap (compl : Nat) : List W8 := leBytes 64 (1 + compl * 2 ^ 256)
def streamSnap : List W8 := leBytes 64 (13 + 2 ^ 128 * ((ap 0).toNat + 2 ^ 192 * (2 + 2 ^ 32 + 0x6000 * 2 ^ 44)))

theorem test_meets_ChannelRecords :
    (let o := copyOp (ap 0x60000) (some ⟨[], {}, false⟩)
     let s := serving (plainSnap (ap 0x60000).toNat) o true
     ((s.dies[0].chans[0]).inService.map fun r => recordStage s 0 0 r) = some .finish ∧ Memory.wf s.hbm = true ∧ engineWaits s (engToken 0 0 0) = false ∧
       memNat s (0x20002000 + 48) 8 = 0 ∧ windowOf s (snapField (plainSnap (ap 0x60000).toNat) 319 256).toNat = .aperture 0 0x60000 ∧
       isStream (plainSnap 0) = false ∧ (apertureAt s ⟨0, 0⟩ 0 0x60000 16).isSome = true ∧ snapField (plainSnap 0) 319 256 = 0) ∧
    (let o := copyOp 0 (some ⟨[], {}, false⟩)
     let s := serving streamSnap o false
     isStream streamSnap = true ∧ engineStopped s o.who.part (engToken 0 0 0) = false ∧ inProgress s (chanCluster 0 0) o = true ∧ appliedOn s 0 [] = true ∧
       ((ringBar s I0 streamSnap (tileBars streamSnap 0).2).map fun x => (x.1.index, x.2)) = some (0, 0x60000) ∧
       (s.groups.all fun g => cellsWf (0 : W8) g.spad) = true) := by decide +kernel

/-! ### What the statements about posts, gangs and the router assume -/

/-- A submitted record at address 8192, its address in k8, and an accepted command at address 4096 that names it. -/
def posts (n : Nat) (word op : Nat) : State :=
  let s := put (kSet M0 8 8192) 0x20002000 (leBytes n word)
  let cmd : RecRun := ⟨4096, 0x20001000, leBytes 64 (2 + op * 2 ^ 8 + 8192 * 2 ^ 64), 0, none, 0, false, false⟩
  onPart s 0 fun p => { p with cmd := { p.cmd with state := 1, cur := 4096, last := 4096, inService := some cmd } }

theorem test_meets_Posts :
    (partServes (posts 64 1 2) 0 = true ∧ partAlive (posts 64 1 2) 0 = true ∧ Memory.wf (posts 64 1 2).hbm = true ∧
      lostRead (posts 128 1 1) 0 none (bytesFrom 0x20002000 128) = false) ∧
    (memNat (posts 64 1 2) 0x20002000 64 % 4 = 1 ∧ taskMalformed (memNat (posts 64 1 2) 0x20002000 64) = false ∧
      (((posts 64 1 2).parts[0]).taskQ[0]).length < 4096) ∧
    (memNat (posts 128 1 1) 0x20002000 128 % 4 = 1 ∧ (((posts 128 1 1).parts[0]).launchQ[0]).length < 256) ∧
    ((posts 64 1 2).wave.ids.part = 0 ∧ (regsOf (posts 64 1 2)).k[8] = 8192 ∧ storesAcked (posts 64 1 2) 4 = true ∧
      isVersioned (posts 64 1 2) = false ∧ (posts 64 1 2).wave.wait = none) ∧
    PageAt (posts 64 1 2) 0 0 8192 0x20002000 ∧
    (∃ t, findTask (versioned M0) M0.wave.ids.tid 0 = some t ∧ t.versioned = true) ∧
    ((64 : Nat) % 128 ≠ 0 ∧ (32 : Nat) % 64 ≠ 0) ∧
    (∃ c, ((posts 64 1 2).parts[0]).cmd.inService = some c ∧ recField c.snap 15 8 = 2 ∧ cmdArg c 0 = 8192 ∧ (cmdArg c 1).toNat = 0) ∧
    (∃ c, ((posts 128 1 1).parts[0]).cmd.inService = some c ∧ recField c.snap 15 8 = 1 ∧ cmdArg c 0 = 8192 ∧ (cmdArg c 1).toNat = 0) ∧
    (match windowOf (posts 64 1 2) 8192 with | .global va => va == 8192 | _ => false) = true ∧ partCore (posts 64 1 2) 0 = 0 ∧
    (((posts 64 1 2).parts[0]).cmdcompl = 0 ∧ memNat (posts 64 1 2) (0x20001000 + 48) 8 = 0) :=
  ⟨by decide +kernel, by decide +kernel, by decide +kernel, by decide +kernel, test_pageAt _ _ _ _ _ (by decide +kernel), ⟨_, rfl, by decide +kernel⟩,
    by decide, ⟨_, rfl, by decide +kernel⟩, ⟨_, rfl, by decide +kernel⟩, by decide +kernel⟩

/-- A second launch at the head of queue 0, its table of one variant examined. -/
def admits : State :=
  let l : Launch := { M0.launches.head (by decide +kernel) with key := 77, nextGang := 0, addr := 0x6000, acc := 1, variants := [⟨0x2000, 1, 0, 2, 40, true, 0⟩] }
  onPart { M0 with launches := M0.launches ++ [l] } 0 fun p => { p with launchQ := p.launchQ.set 0 [77] }

/-- The group of the placed gang idle in a task-serving launch, and an entry that waits. -/
def serves : State :=
  let s := { M0 with launches := M0.launches.map fun l => { l with snap := { l.snap with tserv := true } }
                     groups := M0.groups.map fun g => { g with idleSince := some 0 } }
  onPart s 0 fun p => { p with taskQ := p.taskQ.set 0 [⟨taskId true 0 0, 8192, 1, 0x2000, 7, 8, 0, false, false, 0, 0, 0, none, [], false, false, {}⟩] }

/-- The placed task ended, two gangs of its launch still to come. -/
def ends : State := { M0 with tasks := M0.tasks.map fun t => { t with ended := true, versioned := true }
                              launches := M0.launches.map fun l => { l with snap := { l.snap with gcount := 3 } }
                              vbytes := [⟨⟨0, M0.wave.ids.tid⟩, ⟨0, 0⟩, 0x20000000, 7, 0x20000000⟩] }

def isPlace (x : Admit) : Bool := match x with
  | .place _ _ _ => true
  | _ => false

theorem test_place (x : Admit) (h : isPlace x = true) : ∃ l v places, x = .place l v places := by
  unfold isPlace at h
  split at h
  · exact ⟨_, _, _, rfl⟩
  · cases h

theorem test_admits : ∃ l v places, admitStage admits 0 = .place l v places := test_place _ (by decide +kernel)

/-- What TASK_TAKE assumes of queue 0: an idle group, an entry that may start, and slots for its waves. -/
def takeMeets (s : State) : Bool :=
  match idleGroups s 0 0, nextEntry s 0 0 with
  | g :: _, some e =>
    (findLaunch s g.gang.launch).any fun l => (variantAt l.variants l.chosen).any fun v =>
      e.entry != 0 && e.after == [] && (s.tasks.all fun x => x.tid != e.tid) && (takeSlots g.base.val 0 v.waves (usedSlots s g.core)).isSome &&
        mayStart s 0 e.tid (entVersioned l e) (decide (1 ≤ e.vfull)) false &&
        clkLe e.seen s.dies[opDie s 0 (coreDie g.core)].applied
  | _, _ => false

/-- What TASK_COMMIT assumes of the one task before its gang leaves its cores. -/
def commitMeets (s : State) : Bool :=
  match s.tasks with
  | [t] => t.group == none && t.ended && !t.committed && t.deferred == [] && t.acks == [] && t.replay == none && !engineBusy s t && !commitStopped s t && s.farMembers == [] &&
      !(s.parts[t.part]).parked.any fun y => y.tid == t.tid
  | _ => false

/-- What it assumes after, of a launch with gangs to come. -/
def homeMeets (s : State) : Bool :=
  match s.tasks with
  | [t] => s.groups == [] && !heldBack s [taskKey t] t && observedOf s == [] && !(s.parts[t.part]).lockstep && s.dies[0].copyRun == [] &&
      s.dies[1].copyRun == [] && ((findLaunch s t.gang.launch).any fun l => l.nextGang != l.snap.gcount) && Memory.wf s.hbm
  | _ => false

theorem test_meets_GangsAndTasks :
    (∃ l v places, admitStage admits 0 = .place l v places) ∧ takeMeets serves = true ∧ (commitMeets ends = true ∧ G0 ∈ ends.groups ∧
      ends.tasks.map (fun t => t.gang) = [G0.gang]) ∧
    (let s := { ends with groups := [] }
     commitMeets s = true ∧ homeMeets s = true) :=
  ⟨test_admits, by decide +kernel, by decide +kernel, by decide +kernel⟩

/-- A pipeline of three stages, the last two an unordered set, with records at their places. -/
def pipe0 (recs : List PRec) (closed : Bool) : Pipe where
  took := [(0, 0)]
  stages := [⟨0x2000, 2, 64, 0⟩, ⟨0x2400, 2, 512, 1⟩, ⟨0x2800, 2, 512, 1⟩]
  sets := [⟨6, false, 256, 1⟩]
  cluster := some 0
  recs := recs
  x := [1]
  stats := [⟨128, 0, 0, 0⟩, ⟨128, 0, 0, 0⟩, ⟨128, 0, 0, 0⟩]
  nextEnt := [0]
  emitted := 1
  arrivals := 1
  closed := closed
  stopped := false
  emitting := []
  freed := false

/-- A record in slot 0 of a position. -/
def record (pos setid : Nat) (done : W8) (x : RecAt) (resv : Option Nat) : PRec := ⟨pos, 0, x, 0, 0, setid, done, 0, 0, resv, false, 0, [], {}⟩

def routed (p : Pipe) (stage : Fin 9) (held : Option Held) : State :=
  let s := { M0 with launches := M0.launches.map fun l => { l with pipe := some p, snap := { l.snap with qbase := 0x10000 } } }
  kSet (withGroup s fun g => { g with stage := stage, held := held }) 8 (ap 0)

def L0 (p : Pipe) : Launch := let l := M0.launches.head (by decide +kernel); { l with pipe := some p, snap := { l.snap with qbase := 0x10000 } }

theorem test_meets_Router_launch (p : Pipe) (stage : Fin 9) (held : Option Held) : myLaunch (routed p stage held) = some (L0 p) ∧ (L0 p).pipe = some p ∧
    (∃ g, myGroup (routed p stage held) = some g ∧ g.stage = stage ∧ g.held = held ∧ g.gang.index = 0 ∧ g.index = 0) :=
  ⟨rfl, rfl, _, rfl, rfl, rfl, rfl, rfl⟩

theorem test_meets_RouterRecords :
    -- RTTAKE, with a record and at a closed pipeline.
    (let p := pipe0 [record 0 0 0 (.queued 1) none] false
     operandFault (regsOf (routed p 0 none)) [.dst (.n 38) true] true = none ∧ (0, 0) ∈ p.took ∧ (routed p 0 none).wave.wait = none ∧ p.closed = false ∧
       chooseStage p 0 = some 1 ∧ takeable p 1 = [record 0 0 0 (.queued 1) none]) ∧
    (pipe0 [] true).closed = true ∧
    -- RTDONE after a stage in no set, the last one and an inner one, and at a member of a set.
    (let p := pipe0 [record 0 0 0 .held none] false
     findRec p 0 0 = some (record 0 0 0 .held none) ∧ storesAcked (routed p 1 (some ⟨0, 0⟩)) 4 = true ∧ (1 : Nat) < p.stages.length ∧
       canAccept p 1 = true ∧ freeSlot p 1 = some 0 ∧ (routed p 1 (some ⟨0, 0⟩)).wave.wait = none) ∧
    -- RTDONE before an ordered set, with a slot behind it, and before a position without a free slot.
    (let p := { pipe0 [record 0 0 0 .held none] false with
       stages := [⟨0x2000, 2, 64, 0⟩, ⟨0x2400, 2, 512, 1⟩, ⟨0x2800, 2, 512, 1⟩, ⟨0x2C00, 2, 64, 0⟩], sets := [⟨6, true, 256, 1⟩] }
     canAccept p 1 = true ∧ freeSlot p 1 = some 0 ∧ orderedPos p 1 = true ∧ freeSlot p 2 = some 0) ∧
    (let p := pipe0 [record 0 0 0 .held none, record 1 1 0 (.queued 2) none, { record 1 1 0 (.queued 2) none with slot := 1 }] false
     let s := routed p 1 (some ⟨0, 0⟩)
     findRec p 0 0 = some (record 0 0 0 .held none) ∧ canAccept p 1 = false ∧ s.wave.wait = none ∧
       (match registerWait s (.roomPos (L0 p).key 1) 5 .room false false with | .ok _ => true | _ => false) = true) ∧
    (let p := { pipe0 [record 0 0 0 .held none] false with stages := [⟨0x2000, 2, 64, 0⟩] }
     findRec p 0 0 = some (record 0 0 0 .held none) ∧ p.stages.length = 1) ∧
    (let p := pipe0 [record 1 1 0 .held none] false
     findRec p 1 0 = some (record 1 1 0 .held none) ∧ (slotAddr (L0 p) p 1 0 + (leadOf p 1).slotBytes - 1) / 2 ^ 15 = slotAddr (L0 p) p 1 0 / 2 ^ 15 ∧
       16 ≤ (leadOf p 1).slotBytes ∧ pageOk (routed p 2 (some ⟨1, 0⟩)) (routerCore p) 0 (slotAddr (L0 p) p 1 0) 0x20010080 = true ∧
       Memory.wf (routed p 2 (some ⟨1, 0⟩)).hbm = true) ∧
    operandFault (regsOf M0) [.src .lane false, .dst (.n 39) false] true = none := by decide +kernel

theorem test_meets_RouterMoves :
    -- RTEMIT rec from stage 0, and RTEMIT box at a member of a set.
    (let p := pipe0 [] false
     let s := routed p 0 none
     windowOf s (regsOf s).k[8].toNat = .aperture 0 0 ∧ (apertureAt s s.wave.ids.gang 0 0 (payloadSize p 0)).isSome = true ∧
       emitCheck s (regsOf s).k[8] (payloadSize p 0) 16 = none ∧ storesAcked s 4 = true ∧ clkLe s.wave.clk s.dies[coreDie s.wave.ids.core].applied = true ∧
       canAccept p 0 = true ∧ freeSlot p 0 = some 0 ∧ pageOk s (routerCore p) 0 (slotAddr (L0 p) p 0 0) 0x20010000 = true ∧ 16 ≤ (leadOf p 0).slotBytes ∧
       s.wave.wait = none ∧ (placeRec p 0 0 { record 0 0 0 .reserved none with seq := p.emitted }).isSome = true) ∧
    (let p := pipe0 [record 1 1 0 .held none] false
     let s := withGroup (routed p 2 (some ⟨1, 0⟩)) fun g => { g with spad := (keyed 0 (leBytes 64 (2 ^ 54 - 8 + 2 ^ 70))).filter fun x => x.2 != 0 }
     emitCheck s (regsOf s).k[8] 64 64 = none ∧ (s.groups.all fun g => !boxBad (boxOf (spadBytes g 0 64))) = true ∧ 320 ≤ (leadOf p 1).slotBytes ∧
       (record 1 1 0 .held none).setid ≠ 0 ∧ (record 1 1 0 .held none).obcnt < 4) ∧
    -- A record that moves into a set, and one that leaves the last set.
    (let y := record 0 0 0 .moving (some 0)
     let p := reserveSlot (pipe0 [y] false) 1 0
     let s := routed p 0 none
     findLaunch s (L0 p).key = some (L0 p) ∧ recsAt p .moving = [y] ∧ (placeRec (dropRec p 0 0) 1 0 y).isSome = true ∧ anyLost s = false ∧
       pageOk s (routerCore p) 0 (slotAddr (L0 p) p 0 0) 0x20010000 = true ∧ pageOk s (routerCore p) 0 (slotAddr (L0 p) p 1 0) 0x20010080 = true ∧
       (∀ i < payloadSize p 0, floorBlocks s (coreDie (routerCore p)) y.clk (0x20010010 + i) = false) ∧ setOf p 1 ≠ 0 ∧ p.stopped = false) ∧
    (let y := record 1 1 6 .leaving none
     let p := pipe0 [y] false
     recsAt p .leaving = [y] ∧ lastPos p 1 = true ∧ orderedPos p 1 = false ∧ y.obcnt ≤ y.boxes ∧ y.boxWrites = []) ∧
    (let y := { record 1 1 6 .leaving none with obcnt := 2, boxes := 1, boxWrites := [(0, 5)] }
     let p := pipe0 [y] false
     recsAt p .leaving = [y] ∧ appliedOn pendingWrite 0 [(0, 1)] = false) := by decide +kernel

/-! ### What the statements about the fabric, the memory system and the scheduler assume -/

/-- A request for an address of the page reaches partition 0, whose DPID is 7. -/
def reached : State := onPart M0 0 fun p => { p with dpid := 7 }

def remoteWave (blocking : Bool) : Wave := { M0.wave with remoteOut := [⟨[(0, far)], [], blocking, 0x1000, false, 0, [none]⟩] }

theorem test_meets_RemoteAccess :
    SideBufferAt M0 0x100000 0x20100000 ∧
    (storesAcked M0 5 = true ∧ M0.wave.remoteOut = [] ∧ ownPuts M0 = false ∧ M0.wave.remoteErr = none ∧ M0.wave.handler = false) ∧
    ((onWave M0 fun w => { w with remoteErr := some ⟨far, 0x41, 0x20⟩ }).wave.remoteErr = some ⟨far, 0x41, 0x20⟩ ∧ (0x41 : Cause) ≠ 0x4D) ∧
    (targetPart reached 7 = some 0 ∧ 8192 / 2 ^ 44 % 256 ≠ 255 ∧ (8192 + 8 - 1) / 2 ^ 15 = 8192 / 2 ^ 15 ∧
      PageAt reached (partCore reached 0) 0 8192 0x20002000 ∧ anyLost reached = false ∧ Memory.wf reached.hbm = true ∧
      ∀ i < 8, overlapsOwned reached (0x20002000 + i) 1 = false) ∧
    (tyOf 8).isSome = true ∧ targetPart reached 8 = none ∧
    (findWave { M0 with wave := remoteWave true } 1 = some (remoteWave true) ∧ (1 : W32).getLsbD 31 = false ∧
      findWave { M0 with wave := remoteWave false } 1 = some (remoteWave false)) ∧
    (∀ b : Bool, (remoteWave b).remoteOut = [⟨[(0, far)], [], b, 0x1000, false, 0, [] ++ none :: []⟩]) ∧
    -- A fresh request, one that has been answered, and an age on either side of the limit.
    (reached.served = [] ∧ (({ reached with served := [(1, 5, .done)] }.served.find? fun e => e.1 == 1 && e.2.1 == 5) = some (1, 5, .done))) ∧
    ((M0.dies[0].clock - 0).toNat < 33000000 ∧ 33000000 ≤ ((33000000 : W64) - 0).toNat) :=
  ⟨⟨by decide +kernel, test_pageAt _ _ _ _ _ (by decide +kernel)⟩, by decide +kernel, by decide +kernel, ⟨by decide +kernel, by decide, by decide, test_pageAt _ _ _ _ _ (by decide +kernel), by decide +kernel, by decide +kernel, by decide +kernel⟩,
    by decide +kernel, by decide +kernel, by decide +kernel, fun _ => rfl, by decide +kernel, by decide +kernel⟩

/-- A collective of two members at this package: a sum of one 32-bit integer, with its descriptor at address 8192. -/
def collDesc : Nat := 7 * 2 ^ 16 + 2 ^ 64 + 0x3000 * 2 ^ 128 + 0x3010 * 2 ^ 192
def collective : State :=
  put { (kSet M0 8 8192) with collGroups := [(7, [0, 0])] } 0x20002000 (leBytes 64 collDesc)

def member (i : Nat) (v : W64) (who : Option Issuer) : Contribution := ⟨i, 0, 1, 0, some [v], 0, 0, who, 0x3010, 0, none, false⟩
def inst : Coll := ⟨0, 7, 0, 0, false, none, [], [member 0 5 (some I0), member 1 6 none]⟩

/-- The two members with a result written; one of them names a counter at address 4096. -/
def written0 (compl : W64) : Contribution := { member 0 5 (some I0) with compl := compl, moved := some ⟨[], {}, false⟩ }
def wroteInst (compl : W64) : Coll := ⟨0, 7, 0, 0, false, none, [], [written0 compl]⟩

def signals (s : State) (x : Coll) (m : Contribution) : Bool := match collStage s x with
  | .signal y => y == m
  | _ => false

def forms (s : State) (d : CollDesc) : Bool := match formContribution s (issuerOf s) d with
  | .ok _ _ => true
  | _ => false

theorem test_forms (s : State) (d : CollDesc) (h : forms s d = true) : ∃ c t, formContribution s (issuerOf s) d = .ok c t := by
  unfold forms at h
  split at h
  · exact ⟨_, _, by assumption⟩
  · cases h

/-- The issuing wave with the clock of its descriptor. -/
def afterRead (s : State) : State := { s with wave := { s.wave with clk := unitClk s (.mem 0x20002000 0) 64 s.wave.clk } }

theorem test_meets_Collectives :
    ((match windowOf collective 8192 with | .global va => va == 8192 | _ => false) = true ∧ PageAt collective 0 0 8192 0x20002000) ∧
    (let d := collOf (leNat ((List.range 64).map fun i => gangByte collective (some ⟨0, 0⟩) 0 1 (0x20002000 + i)))
     d.group = 7 ∧ d.count = 1 ∧ d.index = 0 ∧ d.compl = 0 ∧ collBad collective d = false ∧ collLimit collective d = false ∧
       unitBlocked collective (.mem 0x20002000 0) 64 = false ∧ lostRead collective 0 (some ⟨0, 0⟩) (bytesFrom 0x20002000 64) = false) ∧
    (flightCount collective.wave .engine < 63 ∧ forkReady (afterRead collective) (issuerOf (afterRead collective)) = true ∧
      clkLe (afterRead collective).wave.clk collective.dies[0].applied = true ∧ isVersioned collective = false) ∧
    (let s := { collective with colls := [inst] }
     findColl s 0 7 0 = some inst ∧ (match collStage s inst with | .result => true | _ => false) = true ∧
       inst.parts.filter (fun y => y.who.isSome) = [member 0 5 (some I0)] ∧ issuerVersioned s I0 = false ∧
       (collResults 0 0 1 inst.parts).length = 1 ∧ resultBytesOf (parOp 0) (parType 0) = 4 ∧
       (match windowOf s 0x3010 with | .global va => va == 0x3010 | _ => false) = true ∧ (0x3010 + 4 - 1) / 2 ^ 15 = 0x3010 / 2 ^ 15 ∧
       pageOk s 0 0 0x3010 0x20003010 = true ∧ (∀ i < 4, overlapsOwned s (0x20003010 + i) 1 = false) ∧ Memory.wf s.hbm = true) ∧
    (∃ c t, formContribution (afterRead collective) (issuerOf (afterRead collective)) (collOf collDesc) = .ok c t) ∧
    (∀ b : Bool, let x := wroteInst (if b then 4096 else 0)
     let m := written0 (if b then 4096 else 0)
     findColl { collective with colls := [x] } 0 7 0 = some x ∧ signals { collective with colls := [x] } x m = true ∧ x.parts = [m] ∧ x.ended = none ∧ issuerVersioned collective I0 = false) ∧
    ((match windowOf collective 4096 with | .global va => va == 4096 | _ => false) = true ∧ pageOk collective 0 0 4096 0x20001000 = true ∧
      lostRead collective 0 none (bytesFrom 0x20001000 8) = false ∧ collective.served = []) :=
  ⟨⟨by decide +kernel, test_pageAt _ _ _ _ _ (by decide +kernel)⟩, by decide +kernel, by decide +kernel, by decide +kernel, test_forms _ _ (by decide +kernel),
    by decide +kernel, by decide +kernel⟩

/-- The placed page's entry with A clear; a demand-zero entry for its page with a pool of one page; a write that die 0 may apply next. -/
def clearA : State := placeNat W0 0x20000 8 0x2000004F
def pooled : State :=
  let s := placeNat W0 0x20008 8 0x10
  placeNat (placeNat (placeNat (placeNat (onPart s 0 fun p => { p with dzpool := 0x40000 }) (0x40000 + 64) 8 0x41000) (0x40000 + 72) 8 1)
    (0x40000 + 80) 8 (2 ^ 32)) 0x41000 8 0x60000000

theorem test_meets_MemorySystem :
    Memory.wf clearA.hbm = true ∧ walkOn W0 0 0 4096 = .leaf 2 0x20000 0x2000006F ∧ walkOn clearA 0 0 4096 = .leaf 2 0x20000 0x2000004F ∧
    (0x2000006F / 32 % 2 = 1 ∧ 0x2000004F / 32 % 2 = 0) ∧
    (Memory.wf pooled.hbm = true ∧ walkOn pooled 0 0 (2 ^ 29) = .demand 2 0x20008 ∧ mappedLeaf pooled 2 0x20008 = none ∧ (pooled.parts[0]).pfmode.getLsbD 0 = false ∧
      (demandZero pooled 0 2 0x20008).1 = true) ∧
    ((nextApply pendingWrite 0 0).isSome = true ∧ nextApply pendingWrite 0 1 = none) ∧
    (canRespond { W0.wave with flights := [⟨.store, false⟩] } .store = true ∧
      (findWave { W0 with wave := { W0.wave with flights := [⟨.store, false⟩] } } 1).isSome = true) := by decide +kernel

/-- Waves of the placed gang in every slot of core 0, and a launch of the highest priority waits at the head of queue 0. -/
def crowded : State :=
  let s := admits
  { s with waves := ((List.finRange 48).drop 1).map fun i =>
             { s.wave with ids := { s.wave.ids with token := BitVec.ofNat 32 (100 + i.val), slot := i }, run := .parked }
           launches := s.launches.map fun l => if l.key = 77 then { l with snap := { l.snap with prio := 15 }, variants := [⟨0x2000, 1, 0, 1, 40, true, 0⟩] } else l
           parts := s.parts.set 0 { s.parts[0] with clusters := 1 }
           cores := Vector.ofFn fun c => { s.cores[c] with outOfService := c != 0 } }

def isBlockedBy (x : Admit) : Bool := match x with
  | .blocked l n =>
    (match chooseClearing crowded 0 false l.snap.prio.val n (blocksOf crowded 0 n) with
      | some (.waves out) =>
        let ws := clearedWaves crowded (.waves out)
        out.length == 1 && clearingReady crowded (.waves out) && (match contextRoom crowded l ((ws.head?.map waveDie).getD 0) ws.length with
          | .fits => true
          | _ => false)
      | _ => false)
  | _ => false

/-- The placed wave in another state, its token 1. -/
def inRun (r : Run) : State := onWave M0 fun w => { w with run := r }

theorem test_meets_Scheduling :
    isBlockedBy (admitStage crowded 0) = true ∧
    (evictedList (inRun .evicted) 0 = [.wave 1] ∧ (findWave (inRun .evicted) 1).isSome = true ∧ (inRun .evicted).wave.ids.slot ∉ usedSlots (inRun .evicted) 0 ∧
      coreUsable (inRun .evicted) 0 0 = true ∧ (inRun .evicted).wave.backing = []) ∧
    (let s := inRun .parked
     findWave s 1 = some s.wave ∧ wantsEntries s s.wave = true ∧ firstParked s s.wave = true ∧ parkFor s s.wave = some []) ∧
    (mayGate M0 191 = true ∧ mayGate M0 0 = false ∧ (onCore M0 0 fun c => { c with gated := true }).cores[0].gated = true) ∧
    (let s := onWave M0 fun w => { w with npOpen := true, npleft := 0 }
     findWave s 1 = some s.wave ∧ s.wave.npOpen = true ∧ s.wave.npleft = 0) ∧
    (let s := onDie (onWave M0 fun w => { w with wait := some ⟨false, true, .word 0 4096, 0, .explicit, false, 0⟩ }) 0 fun d => { d with clock := 32227 * 1024 + 1 }
     s.wave.ids.token = 1 ∧ s.wave.run = .running ∧ s.wave.handler = false ∧ waveExpired s s.wave = true ∧ pageOk s 0 0 0x100000 0x20100000 = true ∧
       Memory.wf s.hbm = true) := by decide +kernel

/-! ### What the statements about the host, integrity and the machine as a whole assume -/

/-- A command in service of partition 0's chain, the last of the chain, with its OP and arguments. -/
def command (s : State) (op a0 a1 a2 : Nat) : State :=
  let cmd : RecRun := ⟨4096, 0x20001000, leBytes 64 (2 + op * 2 ^ 8 + 2 ^ 64 * (a0 + 2 ^ 64 * (a1 + 2 ^ 64 * a2))), 0, none, 0, false, false⟩
  onPart s 0 fun p => { p with cmd := { p.cmd with state := 1, cur := 4096, last := 4096, inService := some cmd } }

/-- Its OP and arguments, as the statement reads them. -/
def commandIs (s : State) (op a0 a1 a2 : Nat) : Bool := match (s.parts[0]).cmd.inService with
  | some r => recField r.snap 15 8 == op && (cmdArg r 0).toNat == a0 && (cmdArg r 1).toNat == a1 && (cmdArg r 2).toNat == a2 && r.pa == 0x20001000
  | none => false

def parkItem (s : State) (x : ParkedItem) : State := onPart s 0 fun p => { p with parked := [x] }
def tid0 : W64 := M0.wave.ids.tid

theorem test_meets_HostCommands :
    -- OP 3, with no matrix command in the way; the end of the chain.
    (let s := command M0 3 0 (2 ^ 54) 0
     commandIs s 3 0 (2 ^ 54) 0 = true ∧ (s.cores.toList.all fun c => (c.mxWait ++ c.mxQueue).isEmpty) = true ∧ (s.gangs.all fun g => g.saved.isEmpty) = true ∧
       (liveWaves s).all (fun v => !waitMeets 0 0 (2 ^ 54) v) = true ∧ (s.dies.toList.all fun d => d.chans.toList.all fun c => !recordMeets s 0 0 (2 ^ 54) c) = true ∧
       Memory.wf s.hbm = true ∧ (s.parts[0]).cmdcompl = 0 ∧ memNat s (0x20001000 + 48) 8 = 0) ∧
    -- OP 4 of a held wave, OP 5 of a gang task at rest, and both where nothing is parked.
    (let it : ParkedItem := ⟨tid0, 0x4F, [1]⟩
     let s := command (parkItem (inRun .held) it) 4 tid0.toNat 0 0
     commandIs s 4 it.tid.toNat 0 0 = true ∧ ((s.parts[0]).parked.filter fun y => y.tid == it.tid) = [it] ∧ it.cause ≠ 0x29 ∧ routerLaunch s 0 it.tid = none ∧ s.recWaits = [] ∧
       (findWave s 1).map (fun w => w.run) = some .held) ∧
    (let it : ParkedItem := ⟨tid0, 0x4F, []⟩
     let s0 := command (parkItem M0 it) 5 tid0.toNat 0x4F 0
     let s := { s0 with gangs := [], launches := s0.launches.map fun l => { l with snap := { l.snap with gcount := 3 } } }
     commandIs s 5 it.tid.toNat 0x4F 0 = true ∧ ((s.parts[0]).parked.filter fun y => y.tid == it.tid) = [it] ∧ heldLaunch s 0 it.tid = none ∧
       routerLaunch s 0 it.tid = none ∧
       ((findTask s it.tid 0).map fun t => (t.committed, t.group, t.gang)) = some (false, none, ⟨0, 0⟩) ∧ findGang s ⟨0, 0⟩ = none ∧
       ((findLaunch s 0).map fun l => l.nextGang != l.snap.gcount) = some true) ∧
    (((command M0 4 5 0 0).parts[0]).parked.filter fun y => y.tid == (5 : W64)) = [] ∧
    -- OP 6 of a package register, OP 7 of two ranks, OP 8 in its four forms.
    (absentPlace M0 0x08 = false ∧ (writeWindow M0 (0xFF * 2 ^ 44 + 0x08) 1023).isSome = true ∧ absentPlace M0 (0xFF * 2 ^ 44 + 0x08) = false) ∧
    (let s := { put (command M0 7 255 2 8192) 0x20002000 [0, 0, 1, 0] with pkg := { M0.pkg with dsize := 2 } }
     commandIs s 7 255 2 8192 = true ∧ (match windowOf s 8192 with | .global va => va == 8192 | _ => false) = true ∧
       (8192 + 2 * 2 - 1) / 2 ^ 15 = 8192 / 2 ^ 15 ∧ pageOk s (partCore s 0) 0 8192 0x20002000 = true ∧ anyLost s = false ∧
       (((List.range 2).map fun i => (BitVec.ofNat 16 (memNat s (0x20002000 + 2 * i) 2) : W16)).all fun x => decide (x.toNat < s.pkg.dsize.toNat)) = true) ∧
    (mayCreate M0 23 (2 ^ 23) false = true ∧ mayCreate M0 23 (2 ^ 11 + 2 ^ 23) true = true ∧ commandIs (command M0 8 23 (2 ^ 23) 1) 8 23 (2 ^ 23) 1 = true) ∧
    (let s := onPart M0 23 fun p => { p with present := true, clusters := 0x800000 }
     (s.parts[23]).present = true ∧ (s.gangs.all fun g => g.part != 23) = true ∧ (s.tasks.all fun t => t.part != 23) = true ∧
       (s.launches.all fun l => l.part != 23) = true) := by decide +kernel

theorem test_meets_RegisterWrites :
    ({ M0.pkg with ready := true } : Pkg).ready = true ∧ M0.pkg.ready = false ∧ (∃ g ∈ M0.groups, coreDie g.core = 0) ∧
    (∀ g ∈ M0.groups, coreDie g.core ≠ 1) ∧ (0x1FF < 2 ^ 9 ∧ ¬ 0x200 < 2 ^ 9) ∧ (8 ≤ 64 ∧ ¬ 65 ≤ 64) ∧
    (0x17FF / 2 ^ 8 % 2 ^ 8 < 24 ∧ ¬ (0x18FF / 2 ^ 8 % 2 ^ 8 < 24 ∨ 0x18FF / 2 ^ 8 % 2 ^ 8 = 0xFF)) ∧
    (0xFFFFFFFF1703 / 2 ^ 2 % 2 ^ 6 = 0 ∧ 0xFFFFFFFF1703 / 2 ^ 48 = 0 ∧ 0xFFFFFFFF1703 / 2 ^ 8 % 2 ^ 8 < 24) ∧ (0x1704 / 2 ^ 2 % 2 ^ 6 ≠ 0) :=
  ⟨rfl, by decide +kernel, ⟨G0, by decide +kernel, by decide +kernel⟩, by decide +kernel, by decide, by decide, by decide, by decide, by decide⟩

theorem test_meets_PackageEvents :
    (1 ≤ 168 ∧ ¬ 169 ≤ 168) ∧ ((0x1C : Nat) ≠ 0x10 ∧ (0x1C : Nat) ≠ 0x14 ∧ (0x1C : Nat) ≠ 0x18) ∧
    ({ M0.pkg with staged := some (1, 2, 3) } : Pkg).staged = some (1, 2, 3) ∧ M0.pkg.staged = none ∧
    ((∀ y : Fin 192, (coresOut M0).testBit y.val = M0.cores[y].outOfService) ∧ coresOut M0 < 2 ^ 192 ∧ ({ M0.pkg with ready := true } : Pkg).ready = true) := by
  decide +kernel

theorem test_meets_Integrity :
    findWave M0 1 = some M0.wave ∧ (findGang M0 M0.wave.ids.gang).isSome = true ∧
    (onCore M0 0 fun c => { c with mxQueue := [⟨stepCmd none, I0, false⟩] }).cores[0].mxQueue = [⟨stepCmd none, I0, false⟩] ∧
    (M0.cores[0].outOfService = false ∧ M0.cores[0].testing = false ∧ hostTests M0 0 = false ∧ M0.cores[0].testDue = false ∧ openWindows M0 0 = [] ∧
      testClear M0 0 = true) ∧
    (let s := onPart M0 0 fun p => { p with pfmode := 0x20 }
     hostTests s 0 = true ∧ s.cores[0].testDue = false ∧ s.cores[0].outOfService = false ∧ s.cores[0].testing = false) ∧
    (let s := onCore (onPart M0 0 fun p => { p with pfmode := 0x20 }) 0 fun c => { c with testDue := true, testHost := true, testing := true }
     s.cores[0].testDue = true ∧ s.cores[0].testHost = true ∧ testClear s 0 = true ∧ s.cores[0].testing = true) ∧
    ((coreGroups M0 0)[0]? = some G0 ∧ (findGang M0 G0.gang).isSome = true) ∧
    (let s := onCore (onWave M0 fun w => { w with npOpen := true }) 0 fun c => { c with testDue := true, testHost := true, testAfter := [1] }
     s.cores[0].outOfService = false ∧ s.cores[0].testing = false ∧ testDeferred s 0 = true) ∧
    (let s := { admits with pkg := { admits.pkg with copiesLost := true } }
     s.pkg.copiesLost = true ∧ busyQueues s 0 ≠ []) := by decide +kernel

/-- The machine about to fetch a word, and about to fetch two. -/
def fetches (nbits w : Nat) : State := State.reset.withFetchWord nbits w

/-- The same where the machine chooses the wave itself. -/
def chooses (nbits w : Nat) : State := { fetches nbits w with agenda := [] }

/-- What StepRuns assumes of a machine. -/
def stepMeets (s : State) : Bool :=
  s.agenda.isEmpty && s.powered && !s.pkg.recovery && (nextEvent (settle s)).isNone && chooseWave (settle s) == some 1 &&
    ((findWave (settle s) 1).any fun x => !x.npOwed) && !windowSpent (arrive0 (tick (switchTo (settle s) 1))).wave

/-- What it assumes of the words that stand at the program counter. -/
def fetchMeets (s : State) (w : W32) (y : Option W32) : Bool :=
  let p := arrive0 (tick (switchTo (settle s) 1))
  match fetchWord p p.wave.regs.pc.toNat, y with
  | (.word x, _), none => x == w && !wantsLiteral w
  | (.word x, u), some z => x == w && wantsLiteral w &&
      (match fetchWord (if triesAgain u then u else countEvent u u.wave.ids.core (some u.wave.ids.gang) 2 1) (p.wave.regs.pc + 4).toNat with
        | (.word x, _) => x == z
        | _ => false)
  | _, _ => false

theorem test_meets_StepRuns :
    (stepMeets (chooses 32 0x01000000) = true ∧ fetchMeets (chooses 32 0x01000000) 0x01000000 none = true ∧
      decode (bytesOfWord 0x01000000) = .ok (.nop, [])) ∧
    (stepMeets (chooses 64 0x0000004014000000) = true ∧ fetchMeets (chooses 64 0x0000004014000000) 0x14000000 (some 0x40) = true ∧
      wantsLiteral 0x14000000 = true ∧ decode (bytesOfWord 0x14000000 ++ bytesOfWord 0x40) = .ok (.lit .queue 0x40, [])) ∧
    (stepMeets (chooses 32 0) = true ∧ fetchMeets (chooses 32 0) 0 none = true ∧ decode (bytesOfWord 0) = .error .unassignedOpcode) ∧
    (let s := chooses 32 0x01000000
     let p := arrive0 (tick (switchTo (settle s) 1))
     let f := waveTranslate p 0x1000 .fetch
     (match windowOf p p.wave.regs.pc.toNat with | .global a => a == 0x1000 | _ => false) = true ∧
       (match f.1 with | .ok pa => pa == 0x20001000 | _ => false) = true ∧ lostRead f.2 f.2.wave.ids.part none (bytesFrom 0x20001000 4) = false ∧
       (f.2.cores[0].icache.all fun e => e.1 != 0x20001000) = true) := by decide +kernel

theorem test_meets_Reset_memory : Memory.wf State.reset.hbm = true ∧ Memory.wf W0.hbm = true := by decide +kernel

/-- A well-formed instruction of each format, and bytes that decode. -/
theorem test_meets_RoundTrip :
    (Instr.add (.n 39) (.q 15) (.k 31) .result).wf = true ∧ (Instr.add (.n 39) (.q 15) (.k 31) .result).isEvent = false ∧
    (Instr.trap 255 (.n 39)).wf = true ∧ (Instr.jmp (-(2 ^ 17))).wf = true ∧
    decode (bytesOfWord 0x2203BEC3 ++ [9]) = .ok (.mul .queue .lane (.s .lane) .result, [9]) := by decide +kernel

theorem test_meets_IntegerArithmetic : [Ty.i8, .n8, .i16, .n16, .i32, .n32, .i64, .n64].all tyInt = true := by decide +kernel

/-- Values at, below and above the largest finite value of E4M3, 448, and between it and the first that overflows, 480. -/
theorem test_meets_Rounding : fmtOf .e4m3 = some e4m3 ∧ realOf (decodeF e4m3 (fmtMax e4m3)) = some 448 ∧ realOf (decodeF e4m3 (fmtMax e4m3 - 1)) = some 416 ∧
    realOf (.fin false 448 0 false) = some 448 ∧ realOf (.fin true 464 0 false) = some (-464) ∧ realOf (.fin false 465 0 false) = some 465 := by
  have a : decodeF e4m3 (fmtMax e4m3) = .fin false 14 5 false := by decide +kernel
  have b : decodeF e4m3 (fmtMax e4m3 - 1) = .fin false 13 5 false := by decide +kernel
  refine ⟨rfl, ?_, ?_, ?_, ?_, ?_⟩ <;> norm_num [realOf, a, b]

/-! ### Results that the manual works out -/

/-- The manual's table of conversions of 2.625 and -2.625: RNE, RNA, RZ, RUP, RDN in turn; DEST acts as RNA below 16 bits. -/
theorem test_convert_rounding :
    ([1, 2, 3, 4, 5].map fun r => convert .f32 .e4m3 r false 0x40280000) = [0x42, 0x43, 0x42, 0x43, 0x42] ∧
    ([1, 2, 3, 4, 5].map fun r => convert .f32 .e4m3 r false 0xC0280000) = [0xC2, 0xC3, 0xC2, 0xC2, 0xC3] ∧
    ([1, 2, 3, 4, 5].map fun r => convert .f32 .e5m2 r false 0x40280000) = [0x41, 0x41, 0x41, 0x42, 0x41] ∧
    ([1, 2, 3, 4, 5].map fun r => convert .f32 .e2m1 r false 0x40280000) = [5, 5, 4, 5, 4] ∧
    convert .f32 .e4m3 0 false 0x40280000 = 0x43 ∧ convert .f32 .f16 0 false 0x40280000 = 0x4140 ∧ convert .f32 .bf16 0 false 0x40280000 = 0x4028 := by
  decide +kernel

/-- The manual's table of overflow, infinity and underflow in E4M3, and its conversions to integers. -/
theorem test_convert_limits :
    convert .f32 .e4m3 1 false 0x43FA0000 = 0x7F ∧ convert .f32 .e4m3 1 true 0x43FA0000 = 0x7E ∧ convert .f32 .e4m3 3 false 0x43FA0000 = 0x7E ∧
    convert .f32 .e4m3 4 false 0xC3FA0000 = 0xFE ∧ convert .f32 .e4m3 1 false 0x7F800000 = 0x7F ∧ convert .f32 .e4m3 5 true 0x7F800000 = 0x7E ∧
    convert .f32 .e4m3 1 false 0x3A800000 = 0 ∧ convert .f32 .e4m3 2 false 0x3A800000 = 1 ∧ convert .f32 .e4m3 3 false 0xBA800000 = 0x80 ∧
    convert .f32 .e4m3 1 false 0xFFC12345 = 0x7F ∧ convert .f32 .e2m1 1 false 0xFFC12345 = 0 ∧ convert .f32 .i32 0 false 0xC0200000 = 0xFFFFFFFE ∧
    convert .f32 .i8 0 false 0xC0200000 = 0xFD ∧ convert .f32 .i8 0 false 0x43960000 = 0x7F ∧ convert .f32 .n8 0 false 0x43960000 = 0xFF ∧
    convert .f32 .n8 0 false 0xBECCCCCD = 0 := by decide +kernel

/-- Row 0 of A and column 0 of B of the summation contract's worked element. -/
def workedRow : List FVal := ([0x78, 0x46, 0xC0, 0x04, 0x3C, 0x34] ++ List.replicate 378 0).map (decodeF e4m3)
def workedColumn : List FVal := (List.replicate 384 0x38).map (decodeF e4m3)

/-- The worked element under its plan, with A0 at JAM, and with windows of 16 bits. -/
theorem test_worked_element :
    stepElem (planOf 0x0004009201041048) 0 workedRow workedColumn 0 0 = (0x43810000, [3, 1, 0, 0, 1, 0]) ∧
    stepElem (planOf 0x0004009209041048) 0 workedRow workedColumn 0 0 = (0x43820000, [3, 1, 7, 1, 1, 0]) := by decide +kernel

/-- The manual's scans and reductions: a saturating integer sum, and a floating-point sum whose tree order loses both ones. -/
theorem test_scan_and_reduction :
    (scanElem ⟨.i8, 0, true⟩ .add ([some 0x9C, some 100, some 100] ++ List.replicate 29 none)).take 3 = [0x9C, 0, 100] ∧
    reduceElem ⟨.f32, 1, false⟩ .add ([some 0x4B800000, some 0x3F800000, some 0x3F800000] ++ List.replicate 29 (some 0)) = 0x4B800000 := by decide +kernel

/-- A draw of lane 0 of gang 0 with key and counter zero, and its logarithm. -/
theorem test_draw : drawValue 0 0 0 = 0 ∧ drawLog 0 = 0xC1B6FDA9 := by decide +kernel

/-- The worked draws of the lottery between stages 2 and 3. -/
theorem test_lottery :
    let p : Pipe := { pipe0 [] false with stages := [⟨0, 3, 512, 1⟩, ⟨0, 3, 512, 1⟩, ⟨0, 7, 512, 1⟩], stats := [⟨128, 0, 0, 0⟩, ⟨64, 0, 0, 0⟩, ⟨200, 0, 0, 0⟩] }
    nextDraw 1 = 0x00042021 ∧ nextDraw 0x00042021 = 0x04080601 ∧ lotteryWeight p 2 = 772 ∧ lotteryWeight p 3 = 456 ∧
      (chooseMember p 1 [2, 3]).1 = 2 ∧ lotteryPick p 19 0 [2, 3] = 2 ∧ lotteryPick p 921 0 [2, 3] = 3 := by decide +kernel

/-- SHAPE's worked record. -/
theorem test_shape : (match exec (.shape 22 18 19 .b16) (kSet (kSet W0 18 0x0000002000000180) 19 0x0000018000000000) with
    | .next t => t.wave.regs.k[22] == 0x00300000008000C4 && t.wave.regs.pc == 0x1004
    | _ => false) = true := by decide +kernel

/-- The worked address of the eviction hash. -/
theorem test_evict_class : evictClass 0xC04000 0x12380 = 1 := by decide +kernel

/-! ### Steps -/

/-- The state after a step. -/
def stepped (s : State) : State := match step s with
  | .next t => t
  | _ => s

def named (s : State) (i : Fin 40) (l : Fin 32) : W32 := s.wave.regs.named[i][l]

/-- R75, R198: a step goes past an instruction's words. -/
theorem test_step_pc : (stepped (fetches 32 0x01000000)).wave.regs.pc = 0x1004 ∧ (stepped (fetches 64 0x0000004014000000)).wave.regs.pc = 0x1008 ∧
    (stepped (fetches 64 0x0000004014000000)).wave.regs.q[0][31] = 64 := by decide +kernel

/-- R80: a jump counts words beyond its own; the worked word goes back three. -/
theorem test_step_jump : (stepped (fetches 32 0x040FFFFD)).wave.regs.pc = 0x0FF4 := by decide +kernel

/-- R90, R421: a word that is no instruction traps with cause 0, whose handler stands at the trap base. -/
theorem test_step_illegal : (stepped (fetches 32 0)).wave.regs.pc = 0x8000 ∧ (stepped (fetches 32 0)).wave.handler = true ∧
    memByte (stepped (fetches 32 0)) 0x20100100 = 0 ∧ memByte (stepped (fetches 32 0)) 0x20100101 = 0xFF := by decide +kernel

/-- R97, R156: mul q, lane, lane pushes the squares of the lane numbers. -/
theorem test_step_mul : (stepped (fetches 32 0x2203BEC3)).wave.regs.q[0][31] = 961 ∧ (stepped (fetches 32 0x2203BEC3)).wave.regs.latch[0].life ≠ 0 := by
  decide +kernel

/-- A step keeps memory in its canonical form. -/
theorem test_step_memory : Memory.wf W0.hbm = true ∧ Memory.wf (stepped (fetches 32 0)).hbm = true := by decide +kernel
end Sys2Proof
end

section
/-!
SUPPORT. Words in global memory: little-endian numbers and their bytes, what a write of the device leaves (R275, R290, R366), the acceptance and the return of a record (R4, R355, R356), and translations that a core's TLB serves (R235).
-/

namespace Sys2Proof

open Sys2Proof.Machine

/-! ### Numbers and bytes (R103) -/

theorem leNat_lt (l : List W8) : leNat l < 256 ^ l.length := by
  induction l with
  | nil => decide
  | cons b l ih =>
    have hb : b.toNat < 256 := b.isLt
    rw [leNat, List.length_cons, Nat.pow_succ]
    omega

theorem leNat_append (l m : List W8) : leNat (l ++ m) = leNat l + 256 ^ l.length * leNat m := by
  induction l with
  | nil => simp [leNat]
  | cons b l ih => rw [List.cons_append, leNat, ih, leNat, List.length_cons, Nat.pow_succ]; ring

@[simp] theorem leBytes_length (n x : Nat) : (leBytes n x).length = n := by
  induction n generalizing x with
  | zero => rfl
  | succ n ih => simp [leBytes, ih]

theorem leNat_leBytes (n x : Nat) : leNat (leBytes n x) = x % 256 ^ n := by
  induction n generalizing x with
  | zero => simp [leBytes, leNat, Nat.mod_one]
  | succ n ih => rw [leBytes, leNat, ih, BitVec.toNat_ofNat, show 256 ^ (n + 1) = 256 * 256 ^ n from Nat.pow_succ', Nat.mod_mul]

theorem keyed_eq (a : Nat) (l : List W8) : keyed a l = l.mapIdx fun i b => (a + i, b) := by
  induction l generalizing a with
  | nil => rfl
  | cons b l ih => rw [keyed, ih, List.mapIdx_cons]; simp [Nat.add_assoc, Nat.add_comm 1]

/-- Consecutive bytes stand at consecutive keys. -/
theorem keyed_keys (a : Nat) (l : List W8) : (keyed a l).map Prod.fst = (List.range l.length).map (a + ·) := by
  rw [keyed_eq]
  apply List.ext_getElem <;> simp

theorem keyed_nodup (a : Nat) (l : List W8) : ((keyed a l).map Prod.fst).Nodup := by
  rw [keyed_keys]
  exact List.nodup_range.map fun i j h => Nat.add_left_cancel h

theorem keyed_outside (a : Nat) (l : List W8) (x : Nat) (h : x < a ∨ a + l.length ≤ x) : ∀ b ∈ keyed a l, b.1 ≠ x := by
  intro b hb e
  have hm : b.1 ∈ (keyed a l).map Prod.fst := List.mem_map_of_mem hb
  rw [keyed_keys, List.mem_map] at hm
  obtain ⟨i, hi, he⟩ := hm
  have := List.mem_range.mp hi
  omega

theorem keyed_mem (a : Nat) (l : List W8) (i : Nat) (h : i < l.length) : (a + i, l[i]) ∈ keyed a l := by
  rw [keyed_eq, List.mem_mapIdx]
  exact ⟨i, h, rfl⟩

/-! ### Words of global memory -/

@[simp] theorem memBytes_length (s : State) (pa n : Nat) : (memBytes s pa n).length = n := by simp [memBytes]

theorem memNat_lt (s : State) (pa n : Nat) : memNat s pa n < 256 ^ n := by
  have h := leNat_lt (memBytes s pa n)
  rwa [memBytes_length] at h

/-- A longer word is its lower part with the rest above it. -/
theorem memNat_add (s : State) (pa m n : Nat) : memNat s pa (m + n) = memNat s pa m + 256 ^ m * memNat s (pa + m) n := by
  have h : memBytes s pa (m + n) = memBytes s pa m ++ memBytes s (pa + m) n := by
    simp [memBytes, List.range_add, Nat.add_assoc]
  rw [memNat, h, leNat_append, memBytes_length]
  rfl

theorem memNat_congr {s t : State} {pa n : Nat} (h : ∀ i < n, memByte t (pa + i) = memByte s (pa + i)) : memNat t pa n = memNat s pa n := by
  unfold memNat memBytes
  exact congrArg leNat (List.map_congr_left fun i hi => h i (List.mem_range.mp hi))

/-! ### Writes of the device -/

/-- A stamped write touches memory, its write order and the L2s alone. -/
theorem stampUnit_form (s : State) (core : Option (Fin 192)) (t : W32) (v : Clk) (b : List (Nat × W8)) :
    ∃ dies hbm clks joins lag lost, (stampUnit s core t v b).1 =
      { s with dies := dies, hbm := hbm, clks := clks, joins := joins, lag := lag, lost := lost } := by
  cases b with
  | nil => exact ⟨s.dies, s.hbm, s.clks, s.joins, s.lag, s.lost, rfl⟩
  | cons x xs => exact ⟨_, _, _, _, _, _, rfl⟩

theorem DiesWrite.trans {s t u : State} (h : DiesWrite s t) (g : DiesWrite t u) : DiesWrite s u := fun d =>
  (g d).trans (by rw [h d])

theorem onDie_diesWrite (s : State) (d : Fin 2) (f : Die → Die) (h : ∀ x, f x = { x with wctr := (f x).wctr, l2 := (f x).l2 }) :
    DiesWrite s (onDie s d f) := by
  intro e
  by_cases he : e = d
  · subst he
    have at_e : (onDie s e f).dies[e] = f s.dies[e] := onDie_at ..
    rw [at_e]
    exact h _
  · rw [onDie_other _ _ _ _ he]

theorem stampUnit_dies (s : State) (core : Option (Fin 192)) (t : W32) (v : Clk) (b : List (Nat × W8)) :
    DiesWrite s (stampUnit s core t v b).1 := by
  cases b with
  | nil => exact fun _ => rfl
  | cons x xs =>
    exact DiesWrite.trans (onDie_diesWrite s (homeOf x.1) (fun d => { d with wctr := s.dies[homeOf x.1].wctr + 1 }) fun _ => rfl)
      (onDie_diesWrite _ _ _ fun _ => rfl)

theorem deviceWrite_form (s : State) (pa n x : Nat) : ∃ dies hbm clks joins lag lost, deviceWrite s pa n x =
    { s with dies := dies, hbm := hbm, clks := clks, joins := joins, lag := lag, lost := lost } := stampUnit_form ..

theorem statusAt_form (s : State) (pa own : Nat) (c : Cause) : ∃ dies hbm clks joins lag lost, statusAt s pa own c =
    { s with dies := dies, hbm := hbm, clks := clks, joins := joins, lag := lag, lost := lost } := deviceWrite_form ..

theorem deviceWrite_dies (s : State) (pa n x : Nat) : DiesWrite s (deviceWrite s pa n x) := stampUnit_dies s none 0 _ _

@[simp] theorem deviceWrite_parts (s : State) (pa n x : Nat) : (deviceWrite s pa n x).parts = s.parts := stampUnit_parts ..

theorem memByte_deviceWrite_other (s : State) (pa n x a : Nat) (hw : Memory.wf s.hbm = true) (h : a < pa ∨ pa + n ≤ a) :
    memByte (deviceWrite s pa n x) a = memByte s a :=
  memByte_stamp_other s none 0 (clkNow s) _ a hw (keyed_outside pa _ a (by rwa [leBytes_length]))

/-- The word that the device has written reads as written. -/
theorem memNat_deviceWrite_same (s : State) (pa n x : Nat) (hw : Memory.wf s.hbm = true) :
    memNat (deviceWrite s pa n x) pa n = x % 256 ^ n := by
  have h : memBytes (deviceWrite s pa n x) pa n = leBytes n x := by
    apply List.ext_getElem
    · simp
    · intro i hi hj
      simp only [memBytes, List.getElem_map, List.getElem_range]
      exact memByte_stamp_mem s none 0 (clkNow s) _ hw (keyed_nodup ..) _ (keyed_mem pa (leBytes n x) i hj)
  rw [memNat, h, leNat_leBytes]

/-! ### Records -/

/-- Acceptance writes OWN and GEN (R4). -/
theorem acceptWord_taken (s : State) (pa : Nat) (hw : Memory.wf s.hbm = true) : Taken s (acceptWord s pa) pa := by
  refine ⟨?_, fun x hx => memByte_deviceWrite_other s pa 8 _ x hw hx⟩
  rw [acceptWord, memNat_deviceWrite_same _ _ _ _ hw]
  omega

/-- GEN after acceptance is one more. -/
theorem acceptWord_gen (s : State) (pa : Nat) (hw : Memory.wf s.hbm = true) :
    memNat (acceptWord s pa) (pa + 4) 4 = (memNat s (pa + 4) 4 + 1) % 2 ^ 32 := by
  obtain ⟨h, -⟩ := acceptWord_taken s pa hw
  have hs := memNat_add s pa 4 4
  have hu := memNat_add (acceptWord s pa) pa 4 4
  have ls := memNat_lt s pa 4
  have lu := memNat_lt (acceptWord s pa) pa 4
  rw [show 4 + 4 = 8 from rfl] at hs hu
  rw [hs, hu] at h
  omega

/-- STATUS and OWN of a returned record (R356, R366). -/
theorem statusAt_returned (s : State) (pa : Nat) (c : Cause) (hw : Memory.wf s.hbm = true) : Returned s (statusAt s pa 3 c) pa c := by
  refine ⟨?_, fun x hx => memByte_deviceWrite_other s pa 4 _ x hw hx⟩
  rw [statusAt, memNat_deviceWrite_same _ _ _ _ hw]
  have hm := memNat_lt s pa 4
  have hc : c.toNat < 256 := c.isLt
  omega

/-! ### Translations that a core's TLB serves -/

/-- An access through a page that the core's TLB holds changes nothing. -/
theorem translate_pageAt {s : State} {c : Fin 192} {p : Fin 24} {va pa : Nat} (h : PageAt s c p va pa) :
    Machine.translate s c p va .write = (.ok pa, s) := by
  obtain ⟨e, hit, hwr, hd, rfl⟩ := h
  unfold Machine.translate
  rw [hit]
  simp [useEntry, hwr, hd]

theorem devTranslate_pageAt {s : State} {p : Fin 24} {va pa : Nat} (h : PageAt s (partCore s p) p va pa) :
    devTranslate s p va .write = (.ok pa, s) := by
  rw [devTranslate, translate_pageAt h]

theorem waveTranslate_pageAt {s : State} {va pa : Nat} (h : PageAt s s.wave.ids.core s.wave.ids.part va pa) :
    waveTranslate s va .write = (.ok pa, s) := by
  have hit : (tlbHit s.cores[s.wave.ids.core].tlb s.wave.ids.part va).isNone = false := by
    obtain ⟨e, hit, -⟩ := h
    rw [hit]; rfl
  simp only [waveTranslate, coreTranslate, hit, Bool.false_and, Bool.false_eq_true, if_false, translate_pageAt h, onRelease]

end Sys2Proof
end

section
/-!
SUPPORT. The package's registers (R446, R469) are written by no work of a die: translation, the wait-for table, containment, the end of records and steps leave State.pkg as it is.
-/

namespace Sys2Proof

open Sys2Proof.Machine

/-- What every step of a fold leaves alone, the fold leaves alone. -/
theorem foldl_field {σ α β : Type} (φ : σ → β) (f : σ → α → σ) (h : ∀ t x, φ (f t x) = φ t) (l : List α) (s : σ) :
    φ (l.foldl f s) = φ s := by
  induction l generalizing s with
  | nil => rfl
  | cons x xs ih => rw [List.foldl_cons, ih, h]

/-! ### Writes of memory and translation -/

@[simp] theorem countEvent_pkg (s : State) (c : Fin 192) (k : Option GangKey) (ev n : Nat) : (countEvent s c k ev n).pkg = s.pkg := by
  rw [(countEvent_only s c k ev n).rest]

@[simp] theorem useL2_pkg (s : State) (c : Fin 192) (k : Option GangKey) (d : Fin 2) (line : Nat) (cls : Option (Fin 3)) :
    (useL2 s c k d line cls).pkg = s.pkg := by simp [useL2]

@[simp] theorem writerLine_pkg (s : State) (o : Writer) (pa : Nat) : (writerLine s o pa).pkg = s.pkg := by
  unfold writerLine
  split <;> simp

@[simp] theorem pokeNat_pkg (s : State) (pa n x : Nat) : (pokeNat s pa n x).pkg = s.pkg := pokeBytes_pkg ..

@[simp] theorem deviceWrite_pkg (s : State) (pa n x : Nat) : (deviceWrite s pa n x).pkg = s.pkg := stampUnit_pkg ..

@[simp] theorem statusAt_pkg (s : State) (pa own : Nat) (c : Cause) : (statusAt s pa own c).pkg = s.pkg := deviceWrite_pkg ..

@[simp] theorem tlbFill_pkg (s : State) (c : Fin 192) (e : TlbEntry) : (tlbFill s c e).pkg = s.pkg := rfl

@[simp] theorem nodeFill_pkg (s : State) (d : Fin 2) (p : Fin 24) (va : Nat) : (nodeFill s d p va).pkg = s.pkg :=
  foldl_field State.pkg _ (fun _ _ => by simp) _ _

@[simp] theorem useEntry_pkg (s : State) (c : Fin 192) (e : TlbEntry) (va : Nat) (acc : Sys2Proof.Access) :
    (useEntry s c e va acc).2.pkg = s.pkg := by
  cases acc with
  | read => rfl
  | fetch => rfl
  | write =>
    simp only [useEntry]
    split
    · rfl
    · split <;> simp

@[simp] theorem leafFill_pkg (s : State) (c : Fin 192) (p : Fin 24) (va lv addr pte : Nat) :
    (leafFill s c p va lv addr pte).2.pkg = s.pkg := by
  simp only [leafFill, tlbFill_pkg, touchL2_pkg]
  split <;> simp

@[simp] theorem useMapped_pkg (s : State) (c : Fin 192) (p : Fin 24) (va lv addr : Nat) (acc : Sys2Proof.Access) :
    (useMapped s c p va lv addr acc).2.pkg = s.pkg := by
  unfold useMapped
  split <;> simp

@[simp] theorem poolTake_pkg (p : Fin 24) (pool c n : Nat) (s : State) : (poolTake p pool c n s).2.pkg = s.pkg := by
  induction n generalizing s with
  | zero => rfl
  | succ n ih =>
    simp only [poolTake]
    split
    · rfl
    · split
      · simp
      · simp [ih]

@[simp] theorem mapZero_pkg (s : State) (lv addr pg : Nat) : (mapZero s lv addr pg).pkg = s.pkg := by simp [mapZero, zeroRange]

@[simp] theorem demandZero_pkg (s : State) (p : Fin 24) (lv addr : Nat) : (demandZero s p lv addr).2.pkg = s.pkg := by
  have h := poolTake_pkg p s.parts[p].dzpool.toNat lv (poolCount s s.parts[p].dzpool.toNat lv) s
  simp only [demandZero]
  split
  · rfl
  · split
    · rename_i e; rw [e] at h; exact h
    · rename_i e; rw [e] at h; simpa using h

@[simp] theorem translate_pkg (s : State) (c : Fin 192) (p : Fin 24) (va : Nat) (acc : Sys2Proof.Access) :
    (Machine.translate s c p va acc).2.pkg = s.pkg := by
  unfold Machine.translate
  split
  · simp
  · split
    · simp
    · split
      · rfl
      · simp
      · rename_i lv addr _
        have h := demandZero_pkg s p lv addr
        split
        · simp
        · split
          · rfl
          · split
            · rename_i e; rw [e] at h; exact h
            · rename_i e; rw [e] at h; simpa using h

@[simp] theorem devTranslate_pkg (s : State) (p : Fin 24) (va : Nat) (acc : Sys2Proof.Access) :
    (devTranslate s p va acc).2.pkg = s.pkg := by
  have h := translate_pkg s (partCore s p) p va acc
  unfold devTranslate
  split <;> (rename_i e; rw [e] at h; exact h)

@[simp] theorem slotTranslate_pkg (s : State) (l : Launch) (p : Pipe) (pos slot : Nat) :
    (slotTranslate s l p pos slot).2.pkg = s.pkg := by
  unfold slotTranslate
  split <;> simp

/-! ### Counters, locks and the wait-for table -/

@[simp] theorem counterWrite_pkg (s : State) (o : Writer) (pa x : Nat) (v : Clk) : (counterWrite s o pa x v).pkg = s.pkg := by
  simp [counterWrite]

@[simp] theorem counterBump_pkg (s : State) (pa n : Nat) (err : Bool) (v : Clk) : (counterBump s pa n err v).pkg = s.pkg := by
  simp [counterBump]

@[simp] theorem wordWrite_pkg (s : State) (o : Writer) (l : WordLoc) (x : Nat) (v : Clk) : (wordWrite s o l x v).pkg = s.pkg := by
  cases l with
  | mem pa => simp [wordWrite]
  | spad k i off => rfl

@[simp] theorem settlePrio_pkg (s : State) : (settlePrio s).pkg = s.pkg := by
  simp only [settlePrio]
  split <;> rfl

@[simp] theorem sweepObjs_pkg (s : State) : (sweepObjs s).pkg = s.pkg := rfl

@[simp] theorem dropLink_pkg (s : State) (key : ObjKey) (n : Nat) (t : W32) : (dropLink s key n t).pkg = s.pkg := rfl

@[simp] theorem grantWait_pkg (s : State) (t : W32) : (grantWait s t).pkg = s.pkg := rfl

@[simp] theorem ensureObjBy_pkg (s : State) (hw : Bool) (d : Fin 2) (p : Fin 24) (key : ObjKey) (kind : Nat) :
    (ensureObjBy s hw d p key kind).2.pkg = s.pkg := by
  simp only [ensureObjBy]
  split
  · rfl
  · split <;> rfl

@[simp] theorem putLink_pkg (s : State) (d : Fin 2) (p : Fin 24) (kind : Nat) (l : HolderLink) :
    (putLink s d p kind l).2.pkg = s.pkg := by
  have h : (ensureObj s d p l.key kind).2.pkg = s.pkg := ensureObjBy_pkg ..
  simp only [putLink]
  split
  · rfl
  · split
    · rename_i e; rw [e] at h; split; exacts [h, h, rfl]
    · rename_i e; rw [e] at h; split; exacts [h, h, rfl]
    · rfl

@[simp] theorem settleObjs_pkg (s : State) : (settleObjs s).pkg = s.pkg :=
  foldl_field State.pkg _ (fun _ _ => ensureObjBy_pkg ..) _ _

@[simp] theorem semGrant_pkg (o : Writer) (p : Fin 24) (d : Fin 2) (l : WordLoc) (key : ObjKey) (v : Clk) (ws : List Wave) (s : State) :
    (semGrant o p d l key v ws s).pkg = s.pkg := by
  induction ws generalizing s with
  | nil => rfl
  | cons w ws ih =>
    unfold semGrant
    split
    · rename_i n _ _ _
      have h := putLink_pkg s d p 4 ⟨d, false, key, 2, w.ids.token, n, none⟩
      simp only [addLink]
      split
      · split
        · rename_i e; rw [e] at h; simpa [ih] using h
        · rename_i e; rw [e] at h; simpa [ih] using h
        · simp [ih]
      · rfl
    · rfl

@[simp] theorem lockRelease_pkg (s : State) (o : Writer) (l : WordLoc) (key : ObjKey) (t : W32) (v : Clk) :
    (lockRelease s o l key t v).pkg = s.pkg := by
  simp only [lockRelease]
  split <;> simp

@[simp] theorem semRelease_pkg (s : State) (o : Writer) (p : Fin 24) (d : Fin 2) (l : WordLoc) (key : ObjKey) (t : W32) (n : Nat) (v : Clk) :
    (semRelease s o p d l key t n v).pkg = s.pkg := by
  simp only [semRelease]
  split <;> simp

@[simp] theorem releaseHolds_pkg (s : State) (p : Fin 24) (d : Fin 2) (l : List W32) : (releaseHolds s p d l).pkg = s.pkg := by
  simp only [releaseHolds, sweepObjs_pkg]
  rw [foldl_field State.pkg _ fun t x => ?_, foldl_field State.pkg _ fun t x => ?_]
  · split <;> simp
  · split <;> simp

/-! ### Launches, tasks and records -/

@[simp] theorem recordStatus_pkg (s : State) (p : Fin 24) (va own : Nat) (c : Cause) (tid : W64) :
    (recordStatus s p va own c tid).pkg = s.pkg := by
  have h := devTranslate_pkg s p va .write
  unfold recordStatus
  split <;> (rename_i e; rw [e] at h; simpa using h)

@[simp] theorem bumpCompl_pkg (s : State) (p : Fin 24) (acc : Nat) (compl : W64) (err : Bool) :
    (bumpCompl s p acc compl err).pkg = s.pkg := by
  have h := devTranslate_pkg s p compl.toNat .write
  unfold bumpCompl
  split
  · rfl
  · split
    · rename_i e; rw [e] at h; split <;> simpa using h
    · rename_i e; rw [e] at h; simpa using h

@[simp] theorem finishLaunch_pkg (s : State) (key : Nat) (c : Option Cause) : (finishLaunch s key c).pkg = s.pkg := by
  simp only [finishLaunch]
  split
  · rfl
  · simp only [onPart_pkg]
    split <;> simp

@[simp] theorem checkLaunch_pkg (s : State) (key : Nat) : (checkLaunch s key).pkg = s.pkg := by
  unfold checkLaunch
  split
  · rfl
  · split <;> simp

@[simp] theorem markErr_pkg (s : State) (key : Nat) : (markErr s key).pkg = s.pkg := rfl

@[simp] theorem rejectHeld_pkg (s : State) (launch : Nat) (h : Held) : (rejectHeld s launch h).pkg = s.pkg := by
  simp only [rejectHeld]
  split
  · rfl
  · rename_i l _
    split
    · rfl
    · rename_i p _
      have e := slotTranslate_pkg s l p h.pos h.slot
      split
      · simp
      · split
        · simp
        · split <;> (rename_i q; rw [q] at e; simpa using e)

@[simp] theorem returnTask_pkg (s : State) (t : Task) (c : Cause) : (returnTask s t c).pkg = s.pkg := by
  simp only [returnTask]
  split <;> simp

@[simp] theorem relaunchTask_pkg (s : State) (t : Task) (c : Cause) : (relaunchTask s t c).pkg = s.pkg := by
  simp only [relaunchTask]
  split <;> simp

@[simp] theorem settleTask_pkg (s : State) (t : Task) (c : Cause) (replay : Bool) : (settleTask s t c replay).pkg = s.pkg := by
  simp only [settleTask]
  split
  · simp
  · split
    · simp
    · split <;> simp

@[simp] theorem returnEntries_pkg (s : State) (p : Fin 24) (c : Cause) : (returnEntries s p c).pkg = s.pkg := by
  simp only [returnEntries, onPart_pkg]
  exact foldl_field State.pkg _ (fun _ _ => recordStatus_pkg ..) _ _

/-! ### Containment (R429 to R431) -/

@[simp] theorem withdrawSignals_pkg (s : State) (k : GangKey) : (withdrawSignals s k).pkg = s.pkg := by
  simp only [withdrawSignals]
  refine foldl_field State.pkg _ (fun t x => ?_) _ _
  split
  · rfl
  · split <;> simp

@[simp] theorem endRecords_pkg (s : State) (k : GangKey) : (endRecords s k).pkg = s.pkg := rfl

@[simp] theorem unpinTiles_pkg (s : State) (c : Fin 192) : (unpinTiles s c).pkg = s.pkg := rfl

@[simp] theorem abandonFar_pkg (s : State) (k : GangKey) : (abandonFar s k).pkg = s.pkg := rfl

@[simp] theorem dropObserved_pkg (s : State) (l : List TaskKey) : (dropObserved s l).pkg = s.pkg := rfl

@[simp] theorem killGang_pkg (s : State) (k : GangKey) : (killGang s k).pkg = s.pkg := by
  simp only [killGang]
  split
  · rfl
  · simp only [withdrawSignals_pkg, endRecords_pkg, onDie_pkg, apply_ite State.pkg]
    rw [foldl_field State.pkg _ fun _ _ => onCore_pkg .., ite_self, foldl_field State.pkg _ unpinTiles_pkg]
    simp only [dropObserved_pkg, abandonFar_pkg]
    rw [foldl_field State.pkg _ fun t x => ?_, releaseHolds_pkg]
    split <;> simp

@[simp] theorem contain_pkg (s : State) (seeds : List GangKey) (c : Cause) (replay : Bool) : (contain s seeds c replay).pkg = s.pkg := by
  simp only [contain, settlePrio_pkg, settleObjs_pkg]
  rw [foldl_field State.pkg _ fun t x => ?_, foldl_field State.pkg _ killGang_pkg]
  split <;> simp

@[simp] theorem returnWork_pkg (s : State) (p : Fin 24) (c : Cause) : (returnWork s p c).pkg = s.pkg := by
  simp only [returnWork, returnEntries_pkg]
  rw [foldl_field State.pkg _ fun _ _ => by simp, onPart_pkg, foldl_field State.pkg _ fun _ _ => returnTask_pkg .., contain_pkg]

/-! ### Engines and the work of a part -/

@[simp] theorem onRecord_pkg (s : State) (d : Fin 2) (ch : Fin 96) (f : RecRun → RecRun) : (onRecord s d ch f).pkg = s.pkg := rfl

@[simp] theorem dropEngineWait_pkg (s : State) (t : W32) : (dropEngineWait s t).pkg = s.pkg := by
  unfold dropEngineWait
  split <;> simp

@[simp] theorem stopChannel_pkg (c : Cause) (s : State) (x : Fin 2 × Fin 96) : (stopChannel c s x).pkg = s.pkg := by
  unfold stopChannel
  split
  · rfl
  · split
    · rfl
    · split
      · split <;> simp
      · simp [stopRecord]

@[simp] theorem parkColls_pkg (s : State) (c : Cause) : (parkColls s c).pkg = s.pkg := by
  simp only [parkColls]
  rw [foldl_field State.pkg _ fun t x => ?_]
  refine foldl_field State.pkg _ (fun u p => ?_) _ _
  split <;> simp

@[simp] theorem settleParts_pkg (s : State) (die : Bool) : (settleParts s die).pkg = s.pkg :=
  foldl_field State.pkg _ (fun _ _ => returnWork_pkg ..) _ _

@[simp] theorem settleWork_pkg (s : State) (part : PartId) : (settleWork s part).pkg = s.pkg := by
  simp only [settleWork, settleParts_pkg]
  rw [foldl_field State.pkg _ (stopChannel_pkg _), parkColls_pkg, contain_pkg]

@[simp] theorem settleFlight_pkg (s : State) : (settleFlight s).pkg = s.pkg := by
  simp only [settleFlight]
  rw [foldl_field State.pkg _ (stopChannel_pkg _), parkColls_pkg, contain_pkg]

@[simp] theorem takeCores_pkg (s : State) (l : List (Fin 192)) : (takeCores s l).pkg = s.pkg :=
  foldl_field State.pkg _ (fun _ _ => onCore_pkg ..) _ _

@[simp] theorem warnQueues_pkg (s : State) : (warnQueues s).pkg = s.pkg := by
  unfold warnQueues
  split
  · exact foldl_field State.pkg _ (fun _ _ => foldl_field State.pkg _ (fun _ _ => tellHost_pkg ..) _ _) _ _
  · rfl

end Sys2Proof
end

section
/-!
SUPPORT. Resets, start-up and attestation (R468 to R474): what a start without work leaves, which parts stay out of service, what the reset of a die does to its clocks, caches, cores and wait-for table, and the mask of the cores out of service.
-/

namespace Sys2Proof

open Sys2Proof.Machine

/-! ### A machine without work -/

/-- No work and no memory, registers at reset; the fused floor and the running image's security version stay (R468, R470). -/
def WithoutWork (s u : State) : Prop :=
  u.hbm = [] ∧ u.wave = Wave.reset ∧ u.waves = [] ∧ u.gangs = [] ∧ u.tasks = [] ∧ u.launches = [] ∧
    u.parts = State.reset.parts ∧ u.dies = State.reset.dies ∧ u.lag = [] ∧ u.vbytes = [] ∧ u.pkg.floor = s.pkg.floor ∧ u.pkg.fwsvn = s.pkg.fwsvn

/-- A blank machine with other package registers and other cores has no work either. -/
theorem withoutWork_of_blank {s u : State} {k : Pkg} {cores : Vector Core 192} {on : Bool}
    (h : u = { blank s with pkg := k, cores := cores, powered := on }) (hf : k.floor = s.pkg.floor) (hn : k.fwsvn = s.pkg.fwsvn) :
    WithoutWork s u := by
  subst h
  exact ⟨rfl, rfl, rfl, rfl, rfl, rfl, rfl, rfl, rfl, rfl, hf, hn⟩

/-! ### Parts out of service at the start (R469) -/

/-- Cores taken out of service are those, and those that were out before. -/
theorem takeCores_outOfService (l : List (Fin 192)) (s : State) (c : Fin 192) :
    ((takeCores s l).cores[c]).outOfService = true ↔ s.cores[c].outOfService = true ∨ c ∈ l := by
  induction l generalizing s with
  | nil => simp [takeCores]
  | cons x xs ih =>
    have e : takeCores s (x :: xs) = takeCores (onCore s x fun y => { y with outOfService := true }) xs := rfl
    rw [e, ih, List.mem_cons]
    by_cases h : c = x
    · subst h; simp
    · rw [onCore_other _ _ _ _ h]; simp [h]

theorem takeCores_form (l : List (Fin 192)) (s : State) : ∃ cores, takeCores s l = { s with cores := cores } := by
  induction l generalizing s with
  | nil => exact ⟨s.cores, rfl⟩
  | cons x xs ih =>
    obtain ⟨cores, e⟩ := ih (onCore s x fun y => { y with outOfService := true })
    exact ⟨cores, e⟩

/-- A part that fails its start-up test leaves its mark in the masks of the package and in the cores alone. -/
theorem startWithout_form (s : State) (y : PartId) : ∃ onS onP cores,
    startWithout s y = { s with pkg := { s.pkg with stacksOut := onS, portsOut := onP }, cores := cores } := by
  have cores : ∀ l, ∃ onS onP cores,
      takeCores s l = { s with pkg := { s.pkg with stacksOut := onS, portsOut := onP }, cores := cores } := fun l =>
    let ⟨c, e⟩ := takeCores_form l s
    ⟨s.pkg.stacksOut, s.pkg.portsOut, c, e⟩
  cases y with
  | stack n => exact ⟨_, s.pkg.portsOut, s.cores, rfl⟩
  | port n => exact ⟨s.pkg.stacksOut, _, s.cores, rfl⟩
  | die d => exact cores _
  | core c => exact cores _
  | cluster c => exact cores _

theorem startWithout_outOfService (s : State) (y : PartId) (c : Fin 192) :
    ((startWithout s y).cores[c]).outOfService = true ↔ s.cores[c].outOfService = true ∨ c ∈ partCores y := by
  cases y with
  | stack n => simp [startWithout, partCores]
  | port n => simp [startWithout, partCores]
  | die d => exact takeCores_outOfService ..
  | core c => exact takeCores_outOfService ..
  | cluster c => exact takeCores_outOfService ..

theorem startWithout_stacksOut (s : State) (y : PartId) (n : Fin 8) :
    (startWithout s y).pkg.stacksOut.getLsbD n.val = true ↔ s.pkg.stacksOut.getLsbD n.val = true ∨ .stack n = y := by
  cases y with
  | stack m =>
    have hm : (BitVec.ofNat 8 (2 ^ m.val)).getLsbD n.val = true ↔ n = m := by
      rw [BitVec.getLsbD_ofNat, Nat.testBit_two_pow, Fin.ext_iff]
      simp [n.isLt, eq_comm]
    simp [startWithout, ← hm]
  | port m => simp [startWithout]
  | die d => simp [startWithout]
  | core c => simp [startWithout]
  | cluster c => simp [startWithout]

theorem startWithoutAll_form (l : List PartId) (s : State) : ∃ onS onP cores,
    l.foldl startWithout s = { s with pkg := { s.pkg with stacksOut := onS, portsOut := onP }, cores := cores } := by
  induction l generalizing s with
  | nil => exact ⟨s.pkg.stacksOut, s.pkg.portsOut, s.cores, rfl⟩
  | cons y ys ih =>
    obtain ⟨_, _, _, e⟩ := startWithout_form s y
    obtain ⟨onS, onP, cores, h⟩ := ih (startWithout s y)
    exact ⟨onS, onP, cores, by rw [List.foldl_cons, h, e]⟩

theorem startWithoutAll_outOfService (l : List PartId) (s : State) (c : Fin 192) :
    ((l.foldl startWithout s).cores[c]).outOfService = true ↔ s.cores[c].outOfService = true ∨ ∃ y ∈ l, c ∈ partCores y := by
  induction l generalizing s with
  | nil => simp
  | cons y ys ih => rw [List.foldl_cons, ih, startWithout_outOfService]; simp [or_assoc]

theorem startWithoutAll_stacksOut (l : List PartId) (s : State) (n : Fin 8) :
    (l.foldl startWithout s).pkg.stacksOut.getLsbD n.val = true ↔ s.pkg.stacksOut.getLsbD n.val = true ∨ .stack n ∈ l := by
  induction l generalizing s with
  | nil => simp
  | cons y ys ih => rw [List.foldl_cons, ih, startWithout_stacksOut]; simp [or_assoc]

/-! ### Firmware (R470) -/

theorem imageCheck_lt (k : Pkg) : imageCheck k < 8 := by
  simp only [imageCheck]
  split
  · exact Nat.mod_lt _ (by decide)
  · split <;> decide

/-- The firmware starts exactly when its image passes every check; else the module stays in recovery with the check that fails. -/
theorem startFirmware_checks (k : Pkg) : ((startFirmware k).ready = true ↔ imageCheck k = 0) ∧
    ((startFirmware k).recovery = true ↔ imageCheck k ≠ 0) ∧ (startFirmware k).failingCheck.val = imageCheck k := by
  refine ⟨?_, ?_, Nat.mod_eq_of_lt (imageCheck_lt k)⟩ <;> simp [startFirmware]

/-! ### The wait-for table after its operations have settled (R388, R392) -/

theorem ensureObjBy_form (s : State) (hw : Bool) (d : Fin 2) (p : Fin 24) (key : ObjKey) (kind : Nat) :
    ∃ os, (ensureObjBy s hw d p key kind).2 = { s with objs := os } := by
  simp only [ensureObjBy]
  split
  · exact ⟨s.objs, rfl⟩
  · split
    · exact ⟨_, rfl⟩
    · exact ⟨_, rfl⟩
    · exact ⟨s.objs, rfl⟩

/-- An object that a new entry brings has the key that was asked for. -/
theorem ensureObjBy_objs (s : State) (hw : Bool) (d : Fin 2) (p : Fin 24) (key : ObjKey) (kind : Nat) :
    ∀ o ∈ (ensureObjBy s hw d p key kind).2.objs, o ∈ s.objs ∨ o.key = key := by
  simp only [ensureObjBy]
  split
  · exact fun o h => .inl h
  · have added : ∀ (x : ObjEntry), x.key = key → ∀ o ∈ s.objs ++ [x], o ∈ s.objs ∨ o.key = key := by
      intro x hx o h
      rcases List.mem_append.mp h with h | h
      · exact .inl h
      · rw [List.mem_singleton.mp h]; exact .inr hx
    split
    · exact added _ rfl
    · exact added _ rfl
    · exact fun o h => .inl h

/-- The entries for the links of engines' operations. -/
def withEntries (l : List EngLink) (s : State) : State :=
  l.foldl (fun t l => (ensureObjBy t true l.die l.part l.key (engineKind l.key)).2) s

theorem withEntries_form (l : List EngLink) (s : State) : ∃ os, withEntries l s = { s with objs := os } := by
  induction l generalizing s with
  | nil => exact ⟨s.objs, rfl⟩
  | cons x xs ih =>
    obtain ⟨_, e⟩ := ensureObjBy_form s true x.die x.part x.key (engineKind x.key)
    obtain ⟨os, h⟩ := ih (ensureObjBy s true x.die x.part x.key (engineKind x.key)).2
    exact ⟨os, h.trans (by rw [e])⟩

theorem withEntries_objs (l : List EngLink) (s : State) : ∀ o ∈ (withEntries l s).objs, o ∈ s.objs ∨ ∃ x ∈ l, x.key = o.key := by
  induction l generalizing s with
  | nil => exact fun o h => .inl h
  | cons x xs ih =>
    intro o h
    rcases ih _ o h with h | ⟨y, hy, e⟩
    · rcases ensureObjBy_objs _ _ _ _ _ _ o h with h | h
      · exact .inl h
      · exact .inr ⟨x, List.mem_cons_self .., h.symm⟩
    · exact .inr ⟨y, List.mem_cons_of_mem _ hy, e⟩

theorem settleObjs_eq (s : State) : settleObjs s = sweepObjs (withEntries (engineLinks s) s) := rfl

/-- Settling touches the table's objects alone. -/
theorem settleObjs_form (s : State) : ∃ os, settleObjs s = { s with objs := os } := by
  obtain ⟨os, e⟩ := withEntries_form (engineLinks s) s
  rw [settleObjs_eq, e]
  exact ⟨_, rfl⟩

@[simp] theorem settleObjs_wave (s : State) : (settleObjs s).wave = s.wave := by
  obtain ⟨_, e⟩ := settleObjs_form s
  rw [e]
@[simp] theorem settleObjs_dies (s : State) : (settleObjs s).dies = s.dies := by
  obtain ⟨_, e⟩ := settleObjs_form s
  rw [e]
@[simp] theorem settleObjs_cores (s : State) : (settleObjs s).cores = s.cores := by
  obtain ⟨_, e⟩ := settleObjs_form s
  rw [e]
@[simp] theorem settleObjs_links (s : State) : (settleObjs s).links = s.links := by
  obtain ⟨_, e⟩ := settleObjs_form s
  rw [e]
@[simp] theorem settleObjs_lag (s : State) : (settleObjs s).lag = s.lag := by
  obtain ⟨_, e⟩ := settleObjs_form s
  rw [e]

section EngineNames
variable (s : State) (os : List ObjEntry)

theorem keyAt_objs (p : Fin 24) (k : Option GangKey) (a : Nat) : keyAt { s with objs := os } p k a = keyAt s p k a := rfl

theorem keysAt_objs (who : Issuer) (mask : Option W8) (a : W64) : keysAt { s with objs := os } who mask a = keysAt s who mask a := rfl

theorem completionKeys_objs (who : Issuer) (mask : Option W8) (a : W64) :
    completionKeys { s with objs := os } who mask a = completionKeys s who mask a := by
  unfold completionKeys; rw [keysAt_objs]

theorem recordKeys_objs (who : Issuer) (snap : List W8) : recordKeys { s with objs := os } who snap = recordKeys s who snap := by
  simp only [recordKeys, completionKeys_objs]

theorem cmdCompls_objs (x : MxCmd) : cmdCompls { s with objs := os } x = cmdCompls s x := rfl

theorem opLinks_objs (d : Fin 2) (t : W32) (who : Issuer) (keys : List ObjKey) :
    opLinks { s with objs := os } d t who keys = opLinks s d t who keys := rfl

/-- What the engines' operations name does not depend on the table's objects. -/
theorem engineLinks_objs : engineLinks { s with objs := os } = engineLinks s := by
  simp only [engineLinks, opLinks_objs, completionKeys_objs, recordKeys_objs, cmdCompls_objs, keysAt_objs, keyAt_objs]

end EngineNames
@[simp] theorem settleObjs_engineLinks (s : State) : engineLinks (settleObjs s) = engineLinks s := by
  obtain ⟨os, e⟩ := settleObjs_form s
  rw [e, engineLinks_objs]

/-- Every object of a settled table was there before, or an engine's operation names it. -/
theorem settleObjs_objs (s : State) : ∀ o ∈ (settleObjs s).objs, o ∈ s.objs ∨ ∃ x ∈ engineLinks s, x.key = o.key := by
  intro o h
  rw [settleObjs_eq] at h
  exact withEntries_objs _ _ o (List.mem_filter.mp h).1

/-! ### The reset of a die (R468) -/

/-- A die before its objects settle. -/
def clearedDie (s : State) (d : Fin 2) : State :=
  let s1 := clearTimes (clearClocks (dropTable d s)) d
  onDie { s1 with cores := s1.cores.mapIdx fun i x => if (if i < 96 then (0 : Fin 2) else 1) = d then coreAfter x else x } d dieAfter

theorem clearDie_eq (s : State) (d : Fin 2) : clearDie s d = settleObjs (clearedDie s d) := rfl

@[simp] theorem clearDie_pkg (s : State) (d : Fin 2) : (clearDie s d).pkg = s.pkg := by rw [clearDie_eq, settleObjs_pkg]; rfl

theorem clearDie_die (s : State) (d : Fin 2) : let x := (clearDie s d).dies[d]
    x.clock = 0 ∧ x.tokens = 0 ∧ x.pending = [] ∧ x.l2 = [] ∧ x.tlb = [] := by
  simp [clearDie_eq, clearedDie, onDie, dieAfter]

/-- The counts of stamps start again on both dies (R275, R276). -/
theorem clearDie_clocks (s : State) (d y : Fin 2) : ((clearDie s d).dies[y]).wctr = 0 ∧ ((clearDie s d).dies[y]).applied = {} := by
  rw [clearDie_eq, settleObjs_dies]
  by_cases h : y = d
  · subst h; simp [clearedDie, clearTimes, clearClocks, onDie, dieAfter]
  · rw [clearedDie, onDie_other _ _ _ _ h]; simp [clearTimes, clearClocks]

/-- The other die's cycle count and tokens go on. -/
theorem clearDie_other (s : State) (d y : Fin 2) (h : y ≠ d) :
    ((clearDie s d).dies[y]).clock = s.dies[y].clock ∧ ((clearDie s d).dies[y]).tokens = s.dies[y].tokens := by
  rw [clearDie_eq, settleObjs_dies, clearedDie, onDie_other _ _ _ _ h]
  simp [clearTimes, clearClocks, dropTable, onWaves]

theorem clearDie_lag (s : State) (d : Fin 2) : (clearDie s d).lag = [] := by rw [clearDie_eq, settleObjs_lag]; rfl

theorem clearDie_wave (s : State) (d : Fin 2) : (clearDie s d).wave.clk = {} ∧ (clearDie s d).wave.floor = {} := by
  rw [clearDie_eq, settleObjs_wave]
  exact ⟨rfl, rfl⟩

theorem clearDie_core (s : State) (d : Fin 2) (c : Fin 192) (h : coreDie c = d) : ∃ x, (clearDie s d).cores[c] = coreAfter x := by
  have hc : (if c.val < 96 then (0 : Fin 2) else 1) = d := h
  rw [clearDie_eq, settleObjs_cores]
  simp [clearedDie, hc]

/-- The table of the die holds what its engines' operations name, and no link (R388). -/
theorem clearDie_table (s : State) (d : Fin 2) :
    (∀ o ∈ (clearDie s d).objs, o.die = d → ∃ l ∈ engineLinks (clearDie s d), l.key = o.key) ∧ ∀ l ∈ (clearDie s d).links, l.die ≠ d := by
  rw [clearDie_eq, settleObjs_engineLinks, settleObjs_links]
  constructor
  · intro o ho hd
    rcases settleObjs_objs _ o ho with h | h
    · have h' : o ∈ s.objs.filter fun o => o.die != d := h
      exact absurd hd (by simpa using (List.mem_filter.mp h').2)
    · exact h
  · intro l hl
    have h' : l ∈ s.links.filter fun l => l.die != d := hl
    simpa using (List.mem_filter.mp h').2

/-! ### Attestation (R471) -/

/-- The mask of the cores out of service, from its bits. -/
theorem coresOut_of_bits (s : State) (n : Nat) (hb : ∀ c : Fin 192, n.testBit c.val = s.cores[c].outOfService) (hn : n < 2 ^ 192) :
    coresOut s = n := by
  have e : coresOut s = maskSum n.testBit 192 := by
    rw [← foldl_maskSum, ← List.map_coe_finRange_eq_range, List.foldl_map]
    simp only [hb]
    rfl
  rw [e]
  apply Nat.eq_of_testBit_eq
  intro i
  by_cases hi : i < 192
  · exact maskSum_bit _ _ _ hi
  · have hp : 2 ^ 192 ≤ 2 ^ i := Nat.pow_le_pow_right (by decide) (by omega)
    rw [Nat.testBit_lt_two_pow (Nat.lt_of_lt_of_le (maskSum_lt _ _) hp), Nat.testBit_lt_two_pow (Nat.lt_of_lt_of_le hn hp)]

/-! ### The package's events, one lemma for each -/


theorem temperatureAlert_next (s : State) (bits : BitVec 3) : ∃ u, exec (.temperatureAlert bits) s = .next u ∧
    u.hostLog = s.hostLog ++ (if bits = 0 then [] else [.alert]) ∧
    u.pkg = { s.pkg with alert := s.pkg.alert ||| bits, power := u.pkg.power, tjmax := u.pkg.tjmax, tcool := u.pkg.tcool } ∧
    u = { s with pkg := u.pkg, free := u.free, hostLog := u.hostLog } := by
  refine ⟨_, rfl, ?_⟩
  by_cases h : bits = 0
  · rw [if_pos h, if_pos h, List.append_nil]; exact ⟨rfl, rfl, rfl⟩
  · rw [if_neg h, if_neg h]; exact ⟨rfl, rfl, rfl⟩

theorem thermalShutdown_next (s : State) : ∃ u, exec .thermalShutdown s = .next u ∧ WithoutWork s u ∧ u.powered = false ∧
    u.pkg.alert = s.pkg.alert ∧ u.pkg.ready = s.pkg.ready ∧ u.pkg.failedParts = s.pkg.failedParts ∧ u.pkg.standby = true :=
  ⟨_, rfl, withoutWork_of_blank rfl rfl rfl, rfl, rfl, rfl, rfl, rfl⟩

theorem powerLoss_next (s : State) : ∃ u, exec .powerLoss s = .next u ∧ WithoutWork s u ∧ u.powered = false ∧ u.pkg.ready = false ∧
    u.pkg.alert = 0 ∧ u.pkg.staged = none :=
  ⟨_, rfl, withoutWork_of_blank rfl rfl rfl, rfl, rfl, rfl, rfl⟩

/-- The blank machine whose firmware has started, with a count of failed parts. -/
def startedBlank (s : State) (n : Nat) : State := { blank s with pkg := { startFirmware (keptPkg s.pkg) with failedParts := n } }

theorem powerOnReset_started (s : State) (failed : List PartId) (h : imageCheck s.pkg = 0) :
    exec (.powerOnReset failed) s = .next (failed.foldl startWithout (startedBlank s (min failed.length 255))) := by
  have hr : ¬(startFirmware (blank s).pkg).recovery = true := fun x => (startFirmware_checks (keptPkg s.pkg)).2.1.mp x h
  exact if_neg hr

theorem powerOnReset_recovery (s : State) (failed : List PartId) (h : imageCheck s.pkg ≠ 0) :
    exec (.powerOnReset failed) s = .next { blank s with pkg := startFirmware (keptPkg s.pkg) } :=
  if_pos ((startFirmware_checks (keptPkg s.pkg)).2.1.mpr h)

/-- Power-on reset: the firmware starts when its image passes, and then without the parts that fail (R469, R470). -/
theorem powerOnReset_next (s : State) (failed : List PartId) (c : Fin 192) : ∃ u, exec (.powerOnReset failed) s = .next u ∧
    WithoutWork s u ∧ u.powered = true ∧ (u.pkg.ready = true ↔ imageCheck s.pkg = 0) ∧ (u.pkg.recovery = true ↔ imageCheck s.pkg ≠ 0) ∧
    u.pkg.failingCheck.val = imageCheck s.pkg ∧
    (imageCheck s.pkg = 0 → u.pkg.failedParts = min failed.length 255 ∧
      (u.cores[c].outOfService = true ↔ ∃ y ∈ failed, c ∈ partCores y) ∧
      ∀ n : Fin 8, u.pkg.stacksOut.getLsbD n.val = true ↔ .stack n ∈ failed) := by
  obtain ⟨hready, hrec, hfail⟩ := startFirmware_checks (keptPkg s.pkg)
  by_cases h : imageCheck s.pkg = 0
  · refine ⟨_, powerOnReset_started s failed h, ?_⟩
    have hcore := startWithoutAll_outOfService failed (startedBlank s (min failed.length 255)) c
    have hstack := startWithoutAll_stacksOut failed (startedBlank s (min failed.length 255))
    obtain ⟨_, _, _, e⟩ := startWithoutAll_form failed (startedBlank s (min failed.length 255))
    rw [e] at hcore hstack ⊢
    refine ⟨withoutWork_of_blank rfl rfl rfl, rfl, hready, hrec, hfail, fun _ => ⟨rfl, ?_, fun n => ?_⟩⟩
    · rw [hcore]; simp [startedBlank, blank, State.reset, Core.reset]
    · rw [hstack]; simp [startedBlank, startFirmware, keptPkg, Pkg.reset]
  · exact ⟨_, powerOnReset_recovery s failed h, withoutWork_of_blank rfl rfl rfl, rfl, hready, hrec, hfail, fun x => absurd x h⟩

/-- The state in which a die reset finds the die: its work settled, its cores out of service meanwhile (R435). -/
def settledDie (s : State) (d : Fin 2) : State := settleWork (takeCores (warnQueues s) (partCores (.die d))) (.die d)

theorem dieReset_eq (s : State) (d : Fin 2) : exec (.dieReset d) s = .next (clearDie (settledDie s d) d) := rfl

@[simp] theorem settledDie_pkg (s : State) (d : Fin 2) : (settledDie s d).pkg = s.pkg := by simp [settledDie]

/-- The reset of a die leaves its caches, counts and table empty; failed stacks and ports stay out (R463, R468). -/
theorem dieReset_next (s : State) (c : Fin 192) (d : Fin 2) : ∃ u, exec (.dieReset d) s = .next u ∧
    u.dies[d].clock = 0 ∧ u.dies[d].wctr = 0 ∧ u.dies[d].tokens = 0 ∧ u.dies[d].pending = [] ∧
    u.dies[d].l2 = [] ∧ u.dies[d].tlb = [] ∧ (∀ o ∈ u.objs, o.die = d → ∃ l ∈ engineLinks u, l.key = o.key) ∧ (∀ l ∈ u.links, l.die ≠ d) ∧
    u.lag = [] ∧ (∀ y : Fin 2, u.dies[y].wctr = 0 ∧ u.dies[y].applied = {}) ∧ u.wave.clk = {} ∧ u.wave.floor = {} ∧
    u.pkg.stacksOut = s.pkg.stacksOut ∧ u.pkg.portsOut = s.pkg.portsOut ∧
    (coreDie c = d → u.cores[c].l1 = [] ∧ u.cores[c].tlb = [] ∧ u.cores[c].icache = [] ∧ u.cores[c].epoch = 0 ∧
      u.cores[c].mxQueue = [] ∧ u.cores[c].outOfService = false) := by
  refine ⟨_, dieReset_eq s d, ?_⟩
  obtain ⟨hclock, htokens, hpending, hl2, htlb⟩ := clearDie_die (settledDie s d) d
  obtain ⟨hobjs, hlinks⟩ := clearDie_table (settledDie s d) d
  obtain ⟨hclk, hfloor⟩ := clearDie_wave (settledDie s d) d
  have hpkg : (clearDie (settledDie s d) d).pkg = s.pkg := by simp
  refine ⟨hclock, (clearDie_clocks _ d d).1, htokens, hpending, hl2, htlb, hobjs, hlinks, clearDie_lag _ d, clearDie_clocks _ d, hclk,
    hfloor, by rw [hpkg], by rw [hpkg], fun hc => ?_⟩
  obtain ⟨x, e⟩ := clearDie_core (settledDie s d) d c hc
  rw [e]
  exact ⟨rfl, rfl, rfl, rfl, rfl, rfl⟩

/-- When both dies have been reset, both count from 0 again. -/
theorem clearDies_times (s : State) (y : Fin 2) :
    ((clearDie (clearDie s 0) 1).dies[y]).clock = 0 ∧ ((clearDie (clearDie s 0) 1).dies[y]).tokens = 0 := by
  by_cases h : y = 1
  · subst h
    obtain ⟨hclock, htokens, -⟩ := clearDie_die (clearDie s 0) 1
    exact ⟨hclock, htokens⟩
  · obtain rfl : y = 0 := by omega
    obtain ⟨hclock, htokens, -⟩ := clearDie_die s 0
    obtain ⟨ec, et⟩ := clearDie_other (clearDie s 0) 1 0 h
    exact ⟨ec.trans hclock, et.trans htokens⟩

/-- The package's registers after a package reset: the firmware starts with the staged image, if there is one (R468). -/
theorem packageReset_eq (s : State) : exec .packageReset s = .next { clearDie (clearDie (settleFlight s) 0) 1 with
    pkg := { startFirmware (takeStaged s.pkg) with failedParts := 0 } } := by
  have h : (clearDie (clearDie (settleFlight s) 0) 1).pkg = s.pkg := by simp
  rw [← h]
  rfl

theorem packageReset_next (s : State) : ∃ u, exec .packageReset s = .next u ∧
    (∀ y : Fin 2, u.dies[y].clock = 0 ∧ u.dies[y].tokens = 0) ∧ u.pkg.failedParts = 0 ∧ u.pkg.staged = none ∧
    (∀ i m b, s.pkg.staged = some (i, m, b) → u.pkg.image = i ∧ u.pkg.fwsvn = m ∧ u.pkg.fwbuild = b) ∧
    (s.pkg.staged = none → u.pkg.image = s.pkg.image ∧ u.pkg.fwsvn = s.pkg.fwsvn) := by
  have htimes := clearDies_times (settleFlight s)
  rw [packageReset_eq]
  generalize clearDie (clearDie (settleFlight s) 0) 1 = t at htimes ⊢
  refine ⟨_, rfl, htimes, rfl, ?_, ?_, ?_⟩
  · show (takeStaged s.pkg).staged = none
    unfold takeStaged
    split
    · assumption
    · rfl
  · intro i m b h
    simp [startFirmware, takeStaged, h]
  · intro h
    simp [startFirmware, takeStaged, h]

theorem sidebandWrite_readOnly (s : State) (addr : Nat) (x : W32) (h1 : addr ≠ 0x10) (h2 : addr ≠ 0x14) (h3 : addr ≠ 0x18) :
    exec (.sidebandRegisterWrite addr x) s = .next s := by
  show execSidebandRegisterWrite addr x s = .next s
  unfold execSidebandRegisterWrite
  split
  · exact absurd rfl h1
  · exact absurd rfl h2
  · exact absurd rfl h3
  · rfl

theorem raiseRollbackFloor_eq (s : State) (svn sig : Nat) : exec (.raiseRollbackFloor svn sig) s =
    (if Config.floorSignatureOk svn sig = true ∧ s.pkg.floor.toNat < svn ∧ svn < 2 ^ 16 then
      .next { s with pkg := { s.pkg with floor := BitVec.ofNat 16 svn } } else .next s) := by
  show execRaiseRollbackFloor svn sig s = _
  unfold execRaiseRollbackFloor
  rw [← apply_ite Host.Outcome.next]
  simp only [Bool.and_eq_true, decide_eq_true_eq, and_assoc]

theorem attestationQuote_eq (s : State) (nonce : BitVec 256) (hr : s.pkg.ready = true) : exec (.attestationQuote nonce) s =
    .next { s with hostLog := s.hostLog ++ [.quote (quoteFields nonce s) (Config.attestationSignature (quoteFields nonce s))] } :=
  congrArg Host.Outcome.next (if_pos hr)


/-- Settles O54: memory lists no byte after reset, and the empty list is in canonical form. -/
theorem Settled.resetMemory : Obligations.ResetMemory := reset_memory_wf

/-- Settles O51: clause by clause, from what each event of the package leaves; the frames of the settled work keep the masks of failed parts and the staged image through a reset. -/
theorem Settled.packageEvents : Obligations.PackageEvents := by
  unfold Obligations.PackageEvents
  intro s v bits x addr image svn build sig nonce c d failed
  refine ⟨rfl, rfl, rfl, rfl, rfl, rfl, sidebandWrite_readOnly s addr x, temperatureAlert_next s bits, thermalShutdown_next s, powerLoss_next s,
    powerOnReset_next s failed c, dieReset_next s c d, packageReset_next s, rfl, raiseRollbackFloor_eq s svn sig, ?_, rfl⟩
  intro cores hbits hlt hr
  have e := attestationQuote_eq s nonce hr
  rwa [quoteFields, coresOut_of_bits s cores hbits hlt] at e

end Sys2Proof
end

section
/-!
SUPPORT. Posts of records (R363 to R370, R448): the end of a command of the host, the acceptance of task and launch records, the outcomes of TKPOST and LAUNCH.
-/

namespace Sys2Proof

open Sys2Proof.Machine

/-! ### Commands of the host (R448, R449) -/

/-- The entry of a command that is the last of its chain is returned, and the chain becomes idle. -/
theorem finishCommand_ends (t : State) (p : Fin 24) (r : RecRun) (status : Cause) (h : LastCommand t p r) :
    CommandEnds t (finishCommand t p r status) p r status := by
  obtain ⟨hw, hcompl, hnext⟩ := h
  obtain ⟨hstatus, hother⟩ := statusAt_returned t r.pa status hw
  have hparts : (returnRecord t r status).parts = t.parts := deviceWrite_parts ..
  have hbump : bumpCommand (returnRecord t r status) p = returnRecord t r status := by
    unfold bumpCommand
    rw [hparts]
    exact if_pos hcompl
  have hlast : memNat (returnRecord t r status) (r.pa + 48) 8 = 0 := by
    rw [← hnext]
    exact memNat_congr fun i _ => hother _ (.inr (by omega))
  have e : finishCommand t p r status = onPart (returnRecord t r status) p fun q =>
      { q with cmd := { q.cmd with state := 0, cur := 0, last := r.addr, inService := none } } := by
    rw [finishCommand, hbump, nextRecord, hlast]
    rfl
  rw [e]
  refine ⟨⟨hstatus, hother⟩, rfl, ?_, fun q hq => ?_, ?_, deviceWrite_dies t r.pa 4 _⟩
  · exact (onPart_at ..).trans (by rw [hparts]; rfl)
  · rw [onPart_other _ _ _ _ hq, hparts]
  · obtain ⟨_, _, _, _, _, _, form⟩ := statusAt_form t r.pa 3 status
    rw [returnRecord, form]
    rfl

/-- A command of one of the first seven operations that is done ends with its status. -/
theorem runCommand_done {s t : State} {p : Fin 24} {r : RecRun} {op : Nat} {f : CmdRun} {status : Cause} (h : CommandAt s p r op)
    (h0 : op ≠ 0) (h8 : op < 8) (hf : f s p r = some (t, status)) : runCommand op f p s = finishCommand t p r status := by
  obtain ⟨hin, hop⟩ := h
  have hcode : cmdCode r = op := by
    simp only [cmdCode, hop]
    rw [if_neg (by omega), if_pos h8]
  unfold runCommand
  rw [hin]
  simp only [hcode, if_neg h0, ne_eq, not_true_eq_false, if_false, hf]

theorem submitPlace_pageAt {s : State} {p : Fin 24} {a : W64} {align va pa : Nat} (hw : windowOf s a.toNat = .global va)
    (ha : a.toNat % align = 0) (hp : PageAt s (partCore s p) p va pa) : submitPlace s p a align = (.ok pa, s) := by
  unfold submitPlace
  rw [hw]
  simp only [ha, ne_eq, not_true_eq_false, if_false, devTranslate_pageAt hp]

/-! ### Acceptance of records (R363, R367, R370) -/

/-- A partition that takes work, on memory in canonical form. -/
def TakesWork (s : State) (p : Fin 24) : Prop := partServes s p = true ∧ partAlive s p = true ∧ Memory.wf s.hbm = true

/-- A record at `pa` is taken for a partition: OWN and GEN, and nothing changes but this partition, the launches and what a write of memory changes. -/
def Accepted (s t : State) (p : Fin 24) (pa : Nat) : Prop := Taken s t pa ∧ (∀ x : Fin 24, x ≠ p → t.parts[x] = s.parts[x]) ∧
  t = { s with
    wave := t.wave, launches := t.launches, parts := t.parts, dies := t.dies, hbm := t.hbm, clks := t.clks, joins := t.joins
    lag := t.lag, lost := t.lost, nextKey := t.nextKey } ∧ DiesWrite s t

/-- GEN of the record once it has been taken (R4). -/
def nextGen (s : State) (pa : Nat) : W32 := BitVec.ofNat 32 (memNat s (pa + 4) 4 + 1)

/-- The entry of a task record at `pa` (R363, R367). -/
def taskEntry (s : State) (p : Fin 24) (addr : W64) (pa : Nat) : TaskEnt :=
  let task := memNat s pa 64
  let f := fun (hi lo : Nat) => (BitVec.ofNat 64 (bitsOf task hi lo) : W64)
  ⟨taskId true s.parts[p].accepted s.parts[p].accepted, addr, nextGen s pa, f 127 64, f 191 128, f 255 192, f 319 256,
    bitsOf task 2 2 == 1, bitsOf task 3 3 == 1, 0, 0, 0, none, [], false, false, latestClk s pa 8 {}⟩

/-- The queue that a task record at `pa` names. -/
def taskQueueAt (s : State) (pa : Nat) : Fin 16 := Fin.ofNat 16 (bitsOf (memNat s pa 64) 11 8)

/-- A partition that has accepted a task record, with its entry at the end of its queue. -/
def withTask (s : State) (p : Fin 24) (addr : W64) (pa : Nat) (x : Partition) : Partition :=
  { x with
    accepted := x.accepted + 1
    taskQ := x.taskQ.set (taskQueueAt s pa).val (x.taskQ[taskQueueAt s pa] ++ [taskEntry s p addr pa]) }

/-- A partition that has accepted a launch record, with its key at the end of its queue. -/
def withLaunch (q : Fin 8) (key : Nat) (x : Partition) : Partition :=
  { x with
    accepted := x.accepted + 1
    launchQ := x.launchQ.set q.val (x.launchQ[q] ++ [key]) }

/-- The launch of a record at `pa` when it has been accepted (R363, R370). -/
def acceptedLaunch (s : State) (p : Fin 24) (q : Fin 8) (addr : W64) (pa : Nat) : Launch :=
  ⟨s.nextKey, p, q, addr, nextGen s pa, s.parts[p].accepted, launchOf (memNat s pa 128), [], 0, 0, 0, [], 0, [], false, none, false, false,
    latestClk s pa 8 {}⟩

/-- A task record stands at the end of its queue. -/
def Posted (s : State) (p : Fin 24) (addr : W64) (pa : Nat) (t : State) : Prop :=
  Accepted s t p pa ∧ t.launches = s.launches ∧ t.parts[p] = withTask s p addr pa s.parts[p]

/-- A launch record stands at the end of its queue. -/
def Launched (s : State) (p : Fin 24) (q : Fin 8) (addr : W64) (pa : Nat) (t : State) : Prop :=
  Accepted s t p pa ∧ t.nextKey = s.nextKey + 1 ∧ t.parts[p] = withLaunch q s.nextKey s.parts[p] ∧
    t.launches = s.launches ++ [acceptedLaunch s p q addr pa]

/-- A submitted task record that its partition takes, with room in its queue (R364, R367). -/
def TaskReady (s : State) (p : Fin 24) (pa : Nat) : Prop := TakesWork s p ∧ lostRead s p none (bytesFrom pa 64) = false ∧
  memNat s pa 64 % 4 = 1 ∧ taskMalformed (memNat s pa 64) = false ∧ (s.parts[p].taskQ[taskQueueAt s pa]).length < 4096

/-- A submitted launch record that its partition takes, with room in the queue. -/
def LaunchReady (s : State) (p : Fin 24) (q : Fin 8) (pa : Nat) : Prop := TakesWork s p ∧ lostRead s p none (bytesFrom pa 128) = false ∧
  memNat s pa 128 % 4 = 1 ∧ (s.parts[p].launchQ[q]).length < 256

@[simp] theorem acceptWord_parts (s : State) (pa : Nat) : (acceptWord s pa).parts = s.parts := deviceWrite_parts ..

theorem acceptWord_form (s : State) (pa : Nat) : ∃ dies hbm clks joins lag lost,
    acceptWord s pa = { s with dies := dies, hbm := hbm, clks := clks, joins := joins, lag := lag, lost := lost } := deviceWrite_form ..

/-- What acceptance does beside the word: its partition, the launches and their key, the wave that posted. -/
theorem accepted_of_acceptWord (s : State) (p : Fin 24) (pa : Nat) (hw : Memory.wf s.hbm = true) (f : Partition → Partition) (w : Wave)
    (ls : List Launch) (k : Nat) : Accepted s { onPart (acceptWord s pa) p f with wave := w, launches := ls, nextKey := k } p pa := by
  refine ⟨acceptWord_taken s pa hw, fun x hx => ?_, ?_, deviceWrite_dies s pa 8 _⟩
  · exact (onPart_other _ _ _ _ hx).trans (by rw [acceptWord_parts])
  · obtain ⟨_, _, _, _, _, _, e⟩ := acceptWord_form s pa
    rw [e]
    rfl

theorem acceptWord_onPart (s : State) (p : Fin 24) (pa : Nat) (f : Partition → Partition) :
    (onPart (acceptWord s pa) p f).parts[p] = f s.parts[p] :=
  (onPart_at (acceptWord s pa) p f).trans (by rw [acceptWord_parts]; rfl)

theorem onPart_onPart (s : State) (p : Fin 24) (f g : Partition → Partition) : onPart (onPart s p f) p g = onPart s p fun x => g (f x) := by
  simp [onPart]

theorem acceptWord_nextGen (s : State) (pa : Nat) (hw : Memory.wf s.hbm = true) :
    BitVec.ofNat 32 (memNat (acceptWord s pa) (pa + 4) 4) = nextGen s pa := by
  rw [acceptWord_gen s pa hw, nextGen]
  apply BitVec.eq_of_toNat_eq
  simp

/-- A task record that is ready is accepted; the posting wave goes on to `w`. -/
theorem acceptTask_posted (s : State) (p : Fin 24) (addr : W64) (pa : Nat) (h : TaskReady s p pa) :
    ∃ t, acceptTask s p addr pa [] = .ok t ∧ t.wave = s.wave ∧ ∀ w, Posted s p addr pa { t with wave := w } := by
  obtain ⟨⟨hserves, halive, hw⟩, hlost, hown, hform, -⟩ := h
  have e : acceptTask s p addr pa [] = .ok (onPart (acceptWord s pa) p (withTask s p addr pa)) := by
    simp only [acceptTask, hlost, hown, hform, hserves, halive, onPart_onPart, acceptWord_nextGen s pa hw]
    rfl
  have hpart := acceptWord_onPart s p pa (withTask s p addr pa)
  have hacc := fun w => accepted_of_acceptWord s p pa hw (withTask s p addr pa) w s.launches s.nextKey
  obtain ⟨_, _, _, _, _, _, form⟩ := acceptWord_form s pa
  rw [form] at e hpart hacc
  exact ⟨_, e, rfl, fun w => ⟨hacc w, rfl, hpart⟩⟩

/-- A launch record that is ready is accepted. -/
theorem acceptLaunch_launched (s : State) (p : Fin 24) (q : Fin 8) (addr : W64) (pa : Nat) (h : LaunchReady s p q pa) :
    ∃ t, acceptLaunch s p q addr pa = .ok t ∧ t.wave = s.wave ∧ ∀ w, Launched s p q addr pa { t with wave := w } := by
  obtain ⟨⟨hserves, halive, hw⟩, hlost, hown, -⟩ := h
  have e : acceptLaunch s p q addr pa = .ok { onPart (acceptWord s pa) p (withLaunch q (acceptWord s pa).nextKey) with
      launches := (acceptWord s pa).launches ++ [{ acceptedLaunch s p q addr pa with key := (acceptWord s pa).nextKey }]
      nextKey := (acceptWord s pa).nextKey + 1 } := by
    simp only [acceptLaunch, hlost, hown, hserves, halive, acceptWord_nextGen s pa hw]
    exact congrArg (fun t : State => Except.ok { t with
      launches := (acceptWord s pa).launches ++ [{ acceptedLaunch s p q addr pa with key := (acceptWord s pa).nextKey }]
      nextKey := (acceptWord s pa).nextKey + 1 }) (onPart_onPart (acceptWord s pa) p
        (fun x => { x with accepted := x.accepted + 1 })
        fun x => { x with launchQ := x.launchQ.set q.val (x.launchQ[q] ++ [(acceptWord s pa).nextKey]) })
  have hpart := acceptWord_onPart s p pa (withLaunch q s.nextKey)
  have hacc := fun w => accepted_of_acceptWord s p pa hw (withLaunch q s.nextKey) w
    (s.launches ++ [acceptedLaunch s p q addr pa]) (s.nextKey + 1)
  obtain ⟨_, _, _, _, _, _, form⟩ := acceptWord_form s pa
  rw [form] at e hpart hacc
  exact ⟨_, e, rfl, fun w => ⟨hacc w, rfl, hpart, rfl⟩⟩

/-! ### Room in a queue (R364) -/

/-- The queue field of a task record lies in its first 8 bytes. -/
theorem taskQueueAt_low (s : State) (pa : Nat) : (Fin.ofNat 16 (bitsOf (memNat s pa 8) 11 8) : Fin 16) = taskQueueAt s pa := by
  have h : memNat s pa 64 = memNat s pa 8 + 256 ^ 8 * memNat s (pa + 8) 56 := memNat_add s pa 8 56
  have e : bitsOf (memNat s pa 8) 11 8 = bitsOf (memNat s pa 64) 11 8 := by
    simp only [h, bitsOf]
    omega
  rw [e, taskQueueAt]

theorem TaskReady.room {s : State} {p : Fin 24} {pa : Nat} (h : TaskReady s p pa) : taskRoom s p pa = true := by
  obtain ⟨-, -, -, -, hroom⟩ := h
  simp only [taskRoom, taskQueueAt_low, hroom, decide_true]

theorem LaunchReady.room {s : State} {p : Fin 24} {q : Fin 8} {pa : Nat} (h : LaunchReady s p q pa) : launchRoom s p q = true := by
  obtain ⟨-, -, -, hroom⟩ := h
  exact decide_eq_true hroom

/-! ### Outcomes of a post (R370) -/

theorem leaveWait_of_none {s : State} (h : s.wave.wait = none) : leaveWait s = s := by simp [leaveWait, inWait, h]

theorem retire_next (r : Regs) : retire r 4 = nextWord r := by
  rw [nextWord, ← lowerLives_latch]
  rfl

/-- A post whose address is not aligned or not in local global memory traps. -/
theorem postRecord_malformed (s : State) (x : Posting) (h : x.addr.toNat % x.align ≠ 0 ∨ 2 ^ 54 ≤ x.addr.toNat) :
    postRecord s x = trapEntry s 0x2E s.wave.regs.pc [⟨0, 0, 0x2E, 0⟩] := by
  refine if_pos (h.imp_right fun hl => ?_)
  simpa [isLocalGlobal] using hl

section WellFormed

variable {s : State} {x : Posting} (ha : x.addr.toNat % x.align = 0) (hl : x.addr.toNat < 2 ^ 54) (hs : storesAcked s 4 = true)
include ha hl hs

/-- A versioned task defers its post (R6, R370). -/
theorem postRecord_deferred (hv : isVersioned s = true) : postRecord s x = retireWave (defer s x.deferred) 4 := by
  have hloc : isLocalGlobal x.addr.toNat = true := decide_eq_true hl
  simp [postRecord, ha, hloc, hs, hv]

/-- A post that finds room is accepted in one step. -/
theorem postRecord_accepted {u : State} {pa : Nat} (hv : isVersioned s = false) (hw : s.wave.wait = none)
    (hp : PageAt s s.wave.ids.core s.wave.ids.part x.addr.toNat pa) (hr : x.room s pa = true) (hu : x.accept s pa = .ok u) :
    postRecord s x = retireWave u 4 := by
  have hloc : isLocalGlobal x.addr.toNat = true := decide_eq_true hl
  simp [postRecord, ha, hloc, hs, hv, waveTranslate_pageAt hp, hr, leaveWait_of_none hw, hu]

end WellFormed

/-! ### Deferred operations of a task -/

/-- An update of a task that keeps its name is found under it. -/
theorem findTask_onTask (s : State) (tid : W64) (p : Fin 24) (f : Task → Task) (hf : ∀ x, (f x).tid = x.tid ∧ (f x).part = x.part) :
    findTask (onTask s tid p f) tid p = (findTask s tid p).map f := by
  unfold findTask onTask
  rw [List.find?_map]
  have hkeep : ((fun x : Task => x.tid == tid && x.part == p) ∘ fun x => if x.tid = tid ∧ x.part = p then f x else x) =
      fun x => x.tid == tid && x.part == p := by
    funext x
    obtain ⟨ht, hp⟩ := hf x
    simp only [Function.comp]
    split
    · rw [ht, hp]
    · rfl
  rw [hkeep]
  cases e : s.tasks.find? fun x => x.tid == tid && x.part == p with
  | none => rfl
  | some x =>
    have hx : x.tid = tid ∧ x.part = p := by simpa using List.find?_some e
    simp [hx]

theorem issuerOf_issuedBy (s : State) : IssuedBy s (issuerOf s) := ⟨rfl, rfl, rfl, rfl, rfl, rfl, rfl, rfl, rfl⟩

/-- A deferred operation stands last in its task, with its issuer. -/
theorem findTask_defer {s : State} {t : Task} (x : Deferred) (h : findTask s s.wave.ids.tid s.wave.ids.part = some t) :
    findTask (defer s x) s.wave.ids.tid s.wave.ids.part = some { t with deferred := t.deferred ++ [(issuerOf s, x)] } := by
  have e := findTask_onTask s s.wave.ids.tid s.wave.ids.part (fun t => { t with deferred := t.deferred ++ [(issuerOf s, x)] })
    fun _ => ⟨rfl, rfl⟩
  rw [h] at e
  exact e

theorem isVersioned_of_task {s : State} {t : Task} (h : findTask s s.wave.ids.tid s.wave.ids.part = some t) (hv : t.versioned = true) :
    isVersioned s = true := by
  simp [isVersioned, myTask, h, hv]

/-- A deferral retires the instruction and changes its task alone. -/
theorem retire_defer (s : State) (x : Deferred) (t : Task) (h : findTask s s.wave.ids.tid s.wave.ids.part = some t) :
    ∃ who, IssuedBy s who ∧ SameMemory s (retireWave (defer s x) 4) ∧
      retireWave (defer s x) 4 = { s with
        wave := { s.wave with regs := nextWord s.wave.regs }, tasks := (retireWave (defer s x) 4).tasks } ∧
      findTask (retireWave (defer s x) 4) s.wave.ids.tid s.wave.ids.part = some { t with deferred := t.deferred ++ [(who, x)] } := by
  refine ⟨issuerOf s, issuerOf_issuedBy s, sameMemory_of_eq rfl rfl rfl, ?_, findTask_defer x h⟩
  rw [← retire_next]
  rfl

/-- A well-formed post of a versioned task is deferred: its instruction retires, and its task alone changes. -/
theorem post_defers {s : State} {i : Instr} {x : Posting} (hi : exec i s = .next (postRecord s x)) (ha : x.addr.toNat % x.align = 0)
    (hl : x.addr.toNat < 2 ^ 54) (hs : storesAcked s 4 = true) :
    ∀ t, findTask s s.wave.ids.tid s.wave.ids.part = some t → t.versioned = true → ∃ u who, exec i s = .next u ∧ IssuedBy s who ∧
      SameMemory s u ∧ u = { s with wave := { s.wave with regs := nextWord s.wave.regs }, tasks := u.tasks } ∧
      findTask u s.wave.ids.tid s.wave.ids.part = some { t with deferred := t.deferred ++ [(who, x.deferred)] } := by
  intro t ht hv
  obtain ⟨who, hwho, hmem, hrest, htask⟩ := retire_defer s x.deferred t ht
  rw [hi, postRecord_deferred ha hl hs (isVersioned_of_task ht hv)]
  exact ⟨_, who, rfl, hwho, hmem, hrest, htask⟩

/-! ### Posts that find room -/

/-- A post of TKPOST that is ready. -/
theorem tkpost_posted {s : State} {a : KReg} {addr : W64} {pa : Nat} (hk : s.wave.regs.k[a] = addr) (ha : addr.toNat % 64 = 0)
    (hl : addr.toNat < 2 ^ 54) (hs : storesAcked s 4 = true) (hv : isVersioned s = false) (hw : s.wave.wait = none)
    (hp : PageAt s s.wave.ids.core s.wave.ids.part addr.toNat pa) (hr : TaskReady s s.wave.ids.part pa) :
    ∃ u, exec (.tkpost a) s = .next u ∧ u.wave = { s.wave with regs := nextWord s.wave.regs } ∧ Posted s s.wave.ids.part addr pa u := by
  subst hk
  obtain ⟨t, ht, hwave, hpost⟩ := acceptTask_posted s s.wave.ids.part s.wave.regs.k[a] pa hr
  refine ⟨retireWave t 4, congrArg Host.Outcome.next (postRecord_accepted ha hl hs hv hw hp hr.room ht), ?_, hpost _⟩
  rw [← retire_next, ← hwave]
  rfl

/-- A post of LAUNCH that is ready. -/
theorem launch_launched {s : State} {a : KReg} {q : Fin 8} {addr : W64} {pa : Nat} (hk : s.wave.regs.k[a] = addr)
    (ha : addr.toNat % 128 = 0) (hl : addr.toNat < 2 ^ 54) (hs : storesAcked s 4 = true) (hv : isVersioned s = false)
    (hw : s.wave.wait = none) (hp : PageAt s s.wave.ids.core s.wave.ids.part addr.toNat pa) (hr : LaunchReady s s.wave.ids.part q pa) :
    ∃ u, exec (.launch q a) s = .next u ∧ u.wave = { s.wave with regs := nextWord s.wave.regs } ∧
      Launched s s.wave.ids.part q addr pa u := by
  subst hk
  obtain ⟨t, ht, hwave, hpost⟩ := acceptLaunch_launched s s.wave.ids.part q s.wave.regs.k[a] pa hr
  refine ⟨retireWave t 4, congrArg Host.Outcome.next (postRecord_accepted ha hl hs hv hw hp hr.room ht), ?_, hpost _⟩
  rw [← retire_next, ← hwave]
  rfl

/-- SUBMIT_LAUNCH of a record that is ready (R448). -/
theorem submitLaunch_runs {s : State} {p : Fin 24} {q : Fin 8} {c : RecRun} {addr : W64} {va pa : Nat} (hc : CommandAt s p c 1)
    (ha : cmdArg c 0 = addr) (hq : (cmdArg c 1).toNat = q.val) (hwin : windowOf s addr.toNat = .global va) (hal : addr.toNat % 128 = 0)
    (hp : PageAt s (partCore s p) p va pa) (hr : LaunchReady s p q pa) :
    CommandRuns (.submitLaunch p) s p c 0 fun t => Launched s p q addr pa t ∧ t.wave = s.wave := by
  obtain ⟨t, ht, hwave, hpost⟩ := acceptLaunch_launched s p q addr pa hr
  have hrun : submitLaunch s p c = some (t, 0) := by
    have hle : ¬7 < q.val := by omega
    simp [submitLaunch, ha, hq, hle, submitPlace_pageAt hwin hal hp, hr.room, ht]
  exact ⟨t, congrArg Host.Outcome.next (runCommand_done hc (by decide) (by decide) hrun), ⟨hpost t.wave, hwave⟩, finishCommand_ends t p c 0⟩

/-- SUBMIT_TASK_RECORD of a record that is ready (R448). -/
theorem submitTaskRecord_runs {s : State} {p : Fin 24} {c : RecRun} {addr : W64} {va pa : Nat} (hc : CommandAt s p c 2)
    (ha : cmdArg c 0 = addr) (hwin : windowOf s addr.toNat = .global va) (hal : addr.toNat % 64 = 0)
    (hp : PageAt s (partCore s p) p va pa) (hr : TaskReady s p pa) :
    CommandRuns (.submitTaskRecord p) s p c 0 fun t => Posted s p addr pa t ∧ t.wave = s.wave := by
  obtain ⟨t, ht, hwave, hpost⟩ := acceptTask_posted s p addr pa hr
  have hrun : submitTask s p c = some (t, 0) := by
    simp [submitTask, ha, submitPlace_pageAt hwin hal hp, hr.room, ht]
  exact ⟨t, congrArg Host.Outcome.next (runCommand_done hc (by decide) (by decide) hrun), ⟨hpost t.wave, hwave⟩, finishCommand_ends t p c 0⟩

/-- What a launched record leaves, its launch taken apart. -/
theorem Launched.fields {s t : State} {p : Fin 24} {q : Fin 8} {addr : W64} {pa : Nat} (h : Launched s p q addr pa t) :
    Accepted s t p pa ∧ t.nextKey = s.nextKey + 1 ∧ t.parts[p] = withLaunch q s.nextKey s.parts[p] ∧
      ∃ l : Launch, t.launches = s.launches ++ [l] ∧ l.key = s.nextKey ∧ l.part = p ∧ l.queue = q ∧ l.addr = addr ∧ l.gen = nextGen s pa ∧
        l.acc = s.parts[p].accepted ∧ l.snap = launchOf (memNat s pa 128) ∧ l.nextGang = 0 ∧ l.variants = [] ∧ l.returned = [] ∧
        l.pipe = none ∧ l.seen = latestClk s pa 8 {} := by
  obtain ⟨hacc, hkey, hpart, hl⟩ := h
  exact ⟨hacc, hkey, hpart, acceptedLaunch s p q addr pa, hl, rfl, rfl, rfl, rfl, rfl, rfl, rfl, rfl, rfl, rfl, rfl, rfl⟩

/-- Settles O41: the instructions and the commands share the acceptance of a record; a post is deferred or traps before it. -/
theorem Settled.posts : Obligations.Posts := by
  unfold Obligations.Posts
  intro s a q p c addr va pa w r task launch part f tq gen e serves whole taskOk launchOk rest posted launched instr deferred
  refine ⟨?_, ?_, ?_, ?_, ?_, ?_, ?_, ?_⟩
  · rintro ⟨hpart, hk, hl, hs⟩ ha hv hw hp hr
    subst hpart
    exact tkpost_posted hk ha hl hs hv hw hp hr
  · rintro ⟨hpart, hk, hl, hs⟩ ha hv hw hp hr
    subst hpart
    obtain ⟨u, hu, hwave, h⟩ := launch_launched hk ha hl hs hv hw hp hr
    exact ⟨u, hu, hwave, h.fields⟩
  · rintro ⟨-, hk, hl, hs⟩ ha
    subst hk
    exact post_defers (i := .tkpost a) rfl ha hl hs
  · rintro ⟨-, hk, hl, hs⟩ ha
    subst hk
    exact post_defers (i := .launch q a) rfl ha hl hs
  · intro hk h
    subst hk
    exact congrArg Host.Outcome.next (postRecord_malformed s _ h)
  · intro hk h
    subst hk
    exact congrArg Host.Outcome.next (postRecord_malformed s _ h)
  · intro hc ha hq hwin hal hp hr
    obtain ⟨t, ht, ⟨h, hwave⟩, hends⟩ := submitLaunch_runs hc ha hq hwin hal hp hr
    exact ⟨t, ht, ⟨h.fields, hwave⟩, hends⟩
  · intro hc ha hwin hal hp hr
    exact submitTaskRecord_runs hc ha hwin hal hp hr

end Sys2Proof
end

section
/-!
SUPPORT. Direct writes of the host (R446, R469, R480): where an offset of the window leads, what each register accepts, what a write of PTROOT or CTXSIZE drops (R248, R250).
-/

namespace Sys2Proof

open Sys2Proof.Machine

/-! ### Where an offset of the window leads (R446) -/

theorem regPlace_partition (p : Fin 24) (o : Nat) (ho : o < 0x10000) : regPlace (windowBase + 2 ^ 36 + 0x10000 * p.val + o) = .partition p o := by
  have hp := p.isLt
  have e : windowBase + 2 ^ 36 + 0x10000 * p.val + o - windowBase = 2 ^ 36 + 0x10000 * p.val + o := by omega
  unfold regPlace
  simp only [e]
  rw [if_neg (by omega), if_neg (by omega), if_neg (by omega), if_neg (by omega), if_pos (by omega)]
  have hd : (2 ^ 36 + 0x10000 * p.val + o - 2 ^ 36) / 0x10000 = p.val := by omega
  have hm : (2 ^ 36 + 0x10000 * p.val + o) % 0x10000 = o := by omega
  rw [hd, hm, Fin.ofNat_val_eq_self]

theorem regPlace_die (d : Fin 2) (o : Nat) (ho : o < 0x1000) : regPlace (windowBase + 0x10000 + 0x1000 * d.val + o) = .die d o := by
  have hd := d.isLt
  have e : windowBase + 0x10000 + 0x1000 * d.val + o - windowBase = 0x10000 + 0x1000 * d.val + o := by omega
  unfold regPlace
  simp only [e]
  rw [if_neg (by omega), if_neg (by omega), if_pos (by omega)]
  have hq : (0x10000 + 0x1000 * d.val + o - 0x10000) / 0x1000 = d.val := by omega
  have hm : (0x10000 + 0x1000 * d.val + o) % 0x1000 = o := by omega
  rw [hq, hm, Fin.ofNat_val_eq_self]

theorem regPlace_package (o : Nat) (ho : o < 0x28) : regPlace (windowBase + o) = .package o := by
  unfold regPlace
  simp only [Nat.add_sub_cancel_left]
  rw [if_neg (by omega), if_pos (by omega)]

theorem regPlace_channel (d : Fin 2) (ch : Fin 96) : regPlace (windowBase + 0x100000 + 0x20 * (96 * d.val + ch.val)) = .channel d ch 0 := by
  have hd := d.isLt
  have hc := ch.isLt
  have e : windowBase + 0x100000 + 0x20 * (96 * d.val + ch.val) - windowBase = 0x100000 + 0x20 * (96 * d.val + ch.val) := by omega
  unfold regPlace
  simp only [e]
  rw [if_neg (by omega), if_neg (by omega), if_neg (by omega), if_pos (by omega)]
  have hq : (0x100000 + 0x20 * (96 * d.val + ch.val) - 0x100000) / 0x20 = 96 * d.val + ch.val := by omega
  have hm : (0x100000 + 0x20 * (96 * d.val + ch.val)) % 0x20 = 0 := by omega
  have hdq : (96 * d.val + ch.val) / 96 = d.val := by omega
  have hcm : (96 * d.val + ch.val) % 96 = ch.val := by omega
  rw [hq, hm, hdq, hcm, Fin.ofNat_val_eq_self, Fin.ofNat_val_eq_self]


/-! ### What a register accepts (R480) -/

/-- A direct write before READY is dropped, and one after it takes effect exactly when the register accepts the value (R469, R480). -/
def WritesWhen (s : State) (off : Nat) (v : W64) (ok : Prop) (P : State → Prop) : Prop :=
  ∃ u, directWrite s off v = .next u ∧ (s.pkg.ready = true → ok → P u) ∧ (s.pkg.ready = false ∨ ¬ok → u = s)

theorem writesWhen_of_window {s t : State} {off : Nat} {v : W64} {ok : Prop} [Decidable ok] {P : State → Prop}
    (hw : writeWindow s off v = if ok then some t else none) (hr : refusedWrite s off v = s) (hP : P t) : WritesWhen s off v ok P := by
  refine ⟨_, rfl, fun h hok => ?_, ?_⟩
  · simpa [h, hw, hok] using hP
  · rintro (h | hok)
    · simp [h]
    · simp [hw, hok, hr]

/-- The same of a partition's register; no refused write but that of a kick leaves a trace (R449). -/
theorem writesWhen_part {s t : State} {p : Fin 24} {o : Nat} {v : W64} {ok : Prop} [Decidable ok] {P : State → Prop} (ho : o < 0x10000)
    (hkick : o ≠ 0x048) (hw : writePartReg s p o v = if ok then some t else none) (hP : P t) :
    WritesWhen s (windowBase + 2 ^ 36 + 0x10000 * p.val + o) v ok P := by
  have hplace := regPlace_partition p o ho
  refine writesWhen_of_window (t := t) ?_ ?_ hP
  · rw [writeWindow, hplace, ← hw]
  · rw [refusedWrite, hplace]
    split
    · rename_i h
      cases h
      exact absurd rfl hkick
    · rfl

theorem writesWhen_die {s t : State} {d : Fin 2} {o : Nat} {v : W64} {ok : Prop} [Decidable ok] {P : State → Prop} (ho : o < 0x1000)
    (hw : writeDieReg s d o v = if ok then some t else none) (hP : P t) :
    WritesWhen s (windowBase + 0x10000 + 0x1000 * d.val + o) v ok P := by
  have hplace := regPlace_die d o ho
  exact writesWhen_of_window (t := t) (by rw [writeWindow, hplace, ← hw]) (by rw [refusedWrite, hplace]) hP

theorem writesWhen_pkg {s t : State} {o : Nat} {v : W64} {ok : Prop} [Decidable ok] {P : State → Prop} (ho : o < 0x28)
    (hw : writePkgReg s o v = if ok then some t else none) (hP : P t) : WritesWhen s (windowBase + o) v ok P := by
  have hplace := regPlace_package o ho
  exact writesWhen_of_window (t := t) (by rw [writeWindow, hplace, ← hw]) (by rw [refusedWrite, hplace]) hP

theorem writesWhen_chan {s t : State} {d : Fin 2} {ch : Fin 96} {v : W64} {ok : Prop} [Decidable ok] {P : State → Prop}
    (hw : writeChanReg s d ch 0 v = if ok then some t else none) (hP : P t) :
    WritesWhen s (windowBase + 0x100000 + 0x20 * (96 * d.val + ch.val)) v ok P := by
  have hplace := regPlace_channel d ch
  exact writesWhen_of_window (t := t) (by rw [writeWindow, hplace, ← hw]) (by rw [refusedWrite, hplace]) hP

theorem partOffset_eq (p : Fin 24) (o : Nat) : partOffset p o = windowBase + 2 ^ 36 + 0x10000 * p.val + o := by
  rw [partOffset, Nat.mul_comm]

theorem dieOffset_eq (d : Fin 2) (o : Nat) : dieOffset d o = windowBase + 0x10000 + 0x1000 * d.val + o := by
  rw [dieOffset, Nat.mul_comm]

/-! ### Lines and translations that a write drops -/

theorem dropOver_sublist (pinned : List Nat) (here : L2Line → Bool) (room n : Nat) (l : List L2Line) :
    (dropOver pinned here room n l).Sublist l := by
  induction n generalizing l with
  | zero => exact List.Sublist.refl l
  | succ n ih =>
    rw [dropOver]
    split
    · exact List.Sublist.refl l
    · split
      · exact (ih _).trans List.filter_sublist
      · exact List.Sublist.refl l

/-- Lines leave the L2 of a die, and nothing else changes (R248). -/
def LinesLeave (s t : State) (d : Fin 2) : Prop := ∃ l, t = onDie s d (fun y => { y with l2 := l }) ∧ l.Sublist s.dies[d].l2

theorem onDie_onDie (s : State) (d : Fin 2) (f g : Die → Die) : onDie (onDie s d f) d g = onDie s d fun x => g (f x) := by simp [onDie]

theorem onDie_l2_same (s : State) (d : Fin 2) : onDie s d (fun y => { y with l2 := s.dies[d].l2 }) = s := by
  have e : s.dies.set d.val s.dies[d] = s.dies := by
    apply Vector.ext
    intro i hi
    by_cases h : d.val = i
    · subst h; simp
    · simp
  show { s with dies := s.dies.set d.val s.dies[d] } = s
  rw [e]

theorem LinesLeave.refl (s : State) (d : Fin 2) : LinesLeave s s d := ⟨_, (onDie_l2_same s d).symm, List.Sublist.refl _⟩

theorem LinesLeave.trans {s t u : State} {d : Fin 2} (h : LinesLeave s t d) (g : LinesLeave t u d) : LinesLeave s u d := by
  obtain ⟨l, rfl, hl⟩ := h
  obtain ⟨m, rfl, hm⟩ := g
  exact ⟨m, onDie_onDie .., hm.trans (by simpa using hl)⟩

theorem trimSet_leaves (s : State) (d : Fin 2) (line : Nat) : LinesLeave s (trimSet s d line) d := ⟨_, rfl, dropOver_sublist ..⟩

theorem trimDie_leaves (s : State) (d : Fin 2) : LinesLeave s (trimDie s d) d := by
  have fold : ∀ (l : List L2Line) (t : State), LinesLeave t (l.foldl (fun t l => trimSet t d l.line) t) d := by
    intro l
    induction l with
    | nil => exact fun t => LinesLeave.refl t d
    | cons x xs ih => exact fun t => (trimSet_leaves t d x.line).trans (ih _)
  exact fold _ s

/-- What a write of PTROOT leaves: the partition has no translation any longer (R250). -/
theorem dropPartTlb_form (s : State) (p : Fin 24) : dropPartTlb s p =
    { s with
      cores := s.cores.map fun c => { c with tlb := c.tlb.filter fun e => e.part != p }
      dies := s.dies.map fun d => { d with tlb := d.tlb.filter fun e => e.part != p } } := rfl

theorem dieBusy_iff (s : State) (d : Fin 2) : dieBusy s d = true ↔ ∃ g ∈ s.groups, coreDie g.core = d := by
  simp [dieBusy]

theorem physOk_iff (v : W64) (n : Nat) : physOk v n = true ↔ v.toNat < 2 ^ 39 ∧ v.toNat % n = 0 := by
  simp [physOk]

/-! ### The registers that check their value -/

theorem ptrootWrite_writes (s : State) (p : Fin 24) (v : W64) :
    WritesWhen s (partOffset p 8) v (v.toNat < 2 ^ 39 ∧ v.toNat % 4096 = 0) fun u =>
      u = { onPart s p (fun q => { q with ptroot := v }) with cores := u.cores, dies := u.dies } ∧
        (∀ c : Fin 192, u.cores[c] = { s.cores[c] with tlb := s.cores[c].tlb.filter fun e => e.part != p }) ∧
        ∀ y : Fin 2, u.dies[y] = { s.dies[y] with tlb := s.dies[y].tlb.filter fun e => e.part != p } := by
  rw [partOffset_eq]
  refine writesWhen_part (t := dropPartTlb (onPart s p fun q => { q with ptroot := v }) p) (by decide) (by decide) ?_ ?_
  · simp only [writePartReg, physOk_iff]
  · rw [dropPartTlb_form]
    exact ⟨rfl, fun c => by simp, fun y => by simp⟩

theorem ctxsizeWrite_writes (s : State) (d : Fin 2) (v : W64) :
    WritesWhen s (dieOffset d 0) v (8 ≤ v.toNat ∧ v.toNat ≤ 64 ∧ ¬∃ g ∈ s.groups, coreDie g.core = d) fun u =>
      u = onDie s d (fun y => { y with ctxsize := v, l2 := u.dies[d].l2 }) ∧ ∀ e ∈ u.dies[d].l2, e ∈ s.dies[d].l2 := by
  classical
  rw [dieOffset_eq]
  obtain ⟨l, e, hl⟩ := trimDie_leaves (onDie s d fun x => { x with ctxsize := v }) d
  refine writesWhen_die (t := trimDie (onDie s d fun x => { x with ctxsize := v }) d) (by decide) ?_ ?_
  · simp only [writeDieReg, Bool.and_eq_true, decide_eq_true_eq, Bool.not_eq_true', ← dieBusy_iff, Bool.not_eq_true, and_assoc]
    split <;> rfl
  · have hsub : l.Sublist s.dies[d].l2 := by simpa using hl
    rw [e, onDie_onDie]
    simpa using fun e he => hsub.subset he

/-- PART of a channel register is written where no reserved bit is set and PART names a partition or none (R353). -/
theorem chanWrite_writes (s : State) (d : Fin 2) (ch : Fin 96) (v : W64) :
    WritesWhen s (windowBase + 0x100000 + 0x20 * (96 * d.val + ch.val)) v
      (v.toNat / 2 ^ 2 % 2 ^ 6 = 0 ∧ v.toNat / 2 ^ 48 = 0 ∧ (v.toNat / 2 ^ 8 % 2 ^ 8 < 24 ∨ v.toNat / 2 ^ 8 % 2 ^ 8 = 0xFF)) fun u =>
      u = onChan s d ch fun c => { c with part := BitVec.ofNat 8 (v.toNat / 2 ^ 8) } := by
  have hpart : (BitVec.ofNat 8 (bitsOf v.toNat 15 8) : W8) = BitVec.ofNat 8 (v.toNat / 2 ^ 8) :=
    BitVec.eq_of_toNat_eq (by simp [bitsOf])
  have hff : (BitVec.ofNat 8 (v.toNat / 2 ^ 8) : W8) = 0xFF ↔ v.toNat / 2 ^ 8 % 2 ^ 8 = 0xFF := by
    rw [← BitVec.toNat_inj]; simp
  have hlow : bitsOf v.toNat 7 2 = v.toNat / 2 ^ 2 % 2 ^ 6 := rfl
  have hhigh : bitsOf v.toNat 63 48 = v.toNat / 2 ^ 48 := Nat.mod_eq_of_lt (by have := v.isLt; omega)
  refine writesWhen_chan (t := onChan s d ch fun c => { c with part := BitVec.ofNat 8 (v.toNat / 2 ^ 8) }) ?_ rfl
  simp only [writeChanReg, hpart, hff, hlow, hhigh, true_and, BitVec.toNat_ofNat]

/-- Settles O50: each register's place in the window and the values that it accepts. -/
theorem Settled.registerWrites : Obligations.RegisterWrites := by
  unfold Obligations.RegisterWrites
  intro s p d ch v x base phys writes put others part die pkg work
  have isLocal : ∀ n : Nat, isLocalGlobal n = true ↔ n < 2 ^ 54 := fun n => decide_eq_true_iff
  refine ⟨?_, ptrootWrite_writes s p v, ctxsizeWrite_writes s d v, ?_, ?_, ?_, ?_, ?_, ?_, ?_, ?_, ?_, ?_, ?_, ?_, ?_, ?_, chanWrite_writes s d ch v⟩
  · show WritesWhen s (partOffset p 0) v (v.toNat < 2 ^ 9) _
    rw [partOffset_eq]
    exact writesWhen_part (by decide) (by decide) (by simp [writePartReg]) rfl
  · show WritesWhen s (dieOffset d 8) v (v.toNat ≤ 64) _
    rw [dieOffset_eq]
    exact writesWhen_die (by decide) (by simp [writeDieReg]) rfl
  · exact writesWhen_part (by decide) (by decide) (by simp [writePartReg, x]) rfl
  · exact writesWhen_part (by decide) (by decide) (by simp [writePartReg, isLocal, x]) rfl
  · exact writesWhen_part (by decide) (by decide) (by simp [writePartReg]) rfl
  · exact writesWhen_part (by decide) (by decide) (by simp [writePartReg]) rfl
  · exact writesWhen_part (by decide) (by decide) (by simp [writePartReg]) rfl
  · exact writesWhen_part (by decide) (by decide) (by simp [writePartReg, x]) rfl
  · exact writesWhen_part (by decide) (by decide) (by simp [writePartReg, x]) rfl
  · exact writesWhen_part (by decide) (by decide) (by simp [writePartReg, isLocal, x]) rfl
  · exact writesWhen_part (by decide) (by decide) (by simp [writePartReg, physOk_iff, phys, x]) rfl
  · exact writesWhen_die (by decide) (by simp [writeDieReg, x]) rfl
  · exact writesWhen_pkg (by decide) (by simp [writePkgReg, x]) rfl
  · exact writesWhen_pkg (by decide) (by simp [writePkgReg, x]) rfl
  · exact writesWhen_pkg (by decide) (by simp [writePkgReg]) rfl

end Sys2Proof
end

section
/-!
SUPPORT. The end of a wave (R208) and the choice of a variant (R33, R34, R209).
-/

namespace Sys2Proof

open Sys2Proof.Machine

/-! ### The wait-for table's priorities and objects -/

theorem onWaves_eprio (s : State) (es : List EngineWait) (skip : Wave → Bool) (e : Wave → Fin 16) :
    onWaves { s with engWaits := es } (fun w => if skip w then w else { w with eprio := e w }) =
      { onWaves s (fun w => { w with eprio := if skip w then w.eprio else e w }) with engWaits := es } := by
  have h : (fun w : Wave => if skip w then w else { w with eprio := e w }) = fun w => { w with eprio := if skip w then w.eprio else e w } := by
    funext w
    split <;> rfl
  rw [h]
  rfl

/-- Settling the priorities changes EPRIO of waves and of engines' waits alone (R394). -/
theorem settlePrio_form (s : State) : ∃ (f : Wave → Fin 16) (es : List EngineWait),
    settlePrio s = { onWaves s (fun w => { w with eprio := f w }) with engWaits := es } := by
  simp only [settlePrio]
  split
  · exact ⟨fun w => w.regs.prio, s.engWaits, rfl⟩
  · exact ⟨_, _, onWaves_eprio s _ (fun w => w.run == .ended) _⟩

/-! ### END (R208) -/

theorem afterEnd_form (s : State) (w : Wave) : ∃ ts, afterEnd s w = { s with tasks := ts } := by
  unfold afterEnd
  split
  · exact ⟨s.tasks, rfl⟩
  · split
    · exact ⟨_, rfl⟩
    · exact ⟨s.tasks, rfl⟩

/-- A wave that has ended: its window, own memory, frame and wait are gone (R208, R239). -/
def endedWave (w : Wave) : Wave :=
  { w with
    run := .ended
    handler := false
    npOpen := false
    npleft := 0
    npOwed := false
    priv := []
    backing := []
    wait := none
    regs := { w.regs with pflag := false } }

/-- The end of the issuing wave before objects and priorities settle. -/
def leftWave (s : State) : State :=
  let w := s.wave
  let s0 := onGroup s w.ids.gang w.ids.group fun g => { g with endedWaves := w.ids.token :: g.endedWaves }
  let s1 := onTask s0 w.ids.tid w.ids.part fun t => { t with digest := t.digest ^^^ w.digest, clk := clkJoin t.clk w.clk, waves := w.ids.token :: t.waves }
  onCore (windowClosed (onWave s1 endedWave) w) w.ids.core fun c => { c with l1p := c.l1p.filter fun x => x.1 != w.ids.token }

theorem endWave_eq (s : State) : endWave s = settlePrio (sweepObjs (afterEnd (leftWave s) s.wave)) := rfl

/-- END touches its wave, priorities, its group and task, the lines of its own memory and windows that cores name, and the wait-for table. -/
theorem endWave_form (s : State) : ∃ e ws gs ts cs os es, endWave s =
    { s with
      wave := { endedWave s.wave with eprio := e }, waves := ws, groups := gs, tasks := ts, cores := cs, objs := os, engWaits := es } := by
  obtain ⟨_, h⟩ := afterEnd_form (leftWave s) s.wave
  obtain ⟨_, _, g⟩ := settlePrio_form (sweepObjs (afterEnd (leftWave s) s.wave))
  exact ⟨_, _, _, _, _, _, _, (endWave_eq s).trans (g.trans (by rw [h]; rfl))⟩

theorem endW_ends (s : State) (hf : s.wave.flights = []) (he : s.wave.remoteErr = none) : exec .endW s = .next (endWave s) := by
  show execEndW s = _
  simp [execEndW, hf, he]

/-! ### The selector (R33, R34) -/

/-- One step of the selector: a later variant is taken only where its bound is smaller. -/
def betterVariant (a b : Nat × VariantEnt) : Nat × VariantEnt := if b.2.bound < a.2.bound then b else a

/-- Of variants in ascending order, the one of the smallest bound, the first of equals. -/
theorem foldl_betterVariant (t : Nat × VariantEnt) (xs : List (Nat × VariantEnt)) : ∀ a : Nat × VariantEnt, t ∈ a :: xs →
    (a :: xs).Pairwise (fun x y => x.1 < y.1) →
    (∀ y ∈ a :: xs, t.2.bound < y.2.bound ∨ (t.2.bound = y.2.bound ∧ t.1 ≤ y.1)) → xs.foldl betterVariant a = t := by
  induction xs with
  | nil => exact fun a ht _ _ => (List.mem_singleton.mp ht).symm
  | cons b xs ih =>
    intro a ht hp hmin
    have ha := hmin a (by simp)
    have hb := hmin b (by simp)
    have hab : a.1 < b.1 := List.rel_of_pairwise_cons hp (by simp)
    rw [List.foldl_cons, betterVariant]
    split
    · rename_i hlt
      have hne : t ≠ a := by rintro rfl; omega
      exact ih b ((List.mem_cons.mp ht).resolve_left hne) hp.of_cons fun y hy => hmin y (List.mem_cons_of_mem _ hy)
    · rename_i hge
      have hne : t ≠ b := by rintro rfl; omega
      refine ih a ?_ (hp.sublist (by simp)) fun y hy => hmin y ?_
      · simp only [List.mem_cons] at ht ⊢; tauto
      · simp only [List.mem_cons] at hy ⊢; tauto

theorem selectVariant_eq {l : List VariantEnt} {size i : Nat} {v : VariantEnt} {ok : VariantEnt → Bool} (hv : l[i]? = some v)
    (hok : ok v = true) (hs : size ≤ v.bound)
    (hmin : ∀ j x, l[j]? = some x → ok x = true → size ≤ x.bound → v.bound < x.bound ∨ (v.bound = x.bound ∧ i ≤ j)) :
    selectVariant l size ok = some (i, v) := by
  have mem : ∀ y : Nat × VariantEnt, y ∈ (l.mapIdx fun i v => (i, v)).filter (fun x => ok x.2 && decide (size ≤ x.2.bound)) ↔
      l[y.1]? = some y.2 ∧ ok y.2 = true ∧ size ≤ y.2.bound := by
    intro y
    simp only [List.mem_filter, List.mem_mapIdx, Bool.and_eq_true, decide_eq_true_eq, List.getElem?_eq_some_iff]
    constructor
    · rintro ⟨⟨j, hj, rfl⟩, h⟩; exact ⟨⟨hj, rfl⟩, h⟩
    · rintro ⟨⟨hj, e⟩, h⟩; exact ⟨⟨y.1, hj, by rw [e]⟩, h⟩
  have sorted : ((l.mapIdx fun i v => (i, v)).filter fun x => ok x.2 && decide (size ≤ x.2.bound)).Pairwise fun x y => x.1 < y.1 := by
    refine List.Pairwise.filter _ (List.pairwise_iff_getElem.mpr fun a b ha hb hab => ?_)
    simpa using hab
  have ht := (mem (i, v)).mpr ⟨hv, hok, hs⟩
  unfold selectVariant
  simp only
  split
  · rename_i e; rw [e] at ht; cases ht
  · rename_i x xs e
    rw [e] at ht sorted mem
    refine congrArg some (foldl_betterVariant (i, v) xs x ht sorted fun y hy => ?_)
    obtain ⟨hy, hyok, hys⟩ := (mem y).mp hy
    exact hmin y.1 y.2 hy hyok hys

/-! ### PHASE (R209) -/

theorem phaseEligible_iff (cur x : VariantEnt) (pf : Bool) : phaseEligible cur pf x = true ↔
    x.gshape = cur.gshape ∧ x.waves = cur.waves ∧ x.nregs ≤ cur.nregs ∧ x.spad ≤ cur.spad ∧ (x.mirror = true → cur.mirror = true) ∧
      (pf = true → x.mirror = true) := by
  have hm : (cur.mirror || !x.mirror) = true ↔ (x.mirror = true → cur.mirror = true) := by cases cur.mirror <;> cases x.mirror <;> decide
  have hp : (!pf || x.mirror) = true ↔ (pf = true → x.mirror = true) := by cases pf <;> cases x.mirror <;> decide
  simp only [phaseEligible, Bool.and_eq_true, beq_iff_eq, decide_eq_true_eq, hm, hp, and_assoc]

theorem phase_jumps {s : State} {l : Launch} {cur v : VariantEnt} {i : Nat} (hl : findLaunch s s.wave.ids.gang.launch = some l)
    (hc : l.variants[s.wave.regs.variant.val]? = some cur)
    (hsel : selectVariant l.variants s.wave.regs.k[l.sizek].toNat (phaseEligible cur s.wave.regs.pflag) = some (i, v)) :
    exec .phase s = .next (jumpTo (onRegs s (phaseRegs i v)) v.entry) := by
  show execPhase s = _
  simp only [execPhase, myLaunch, hl, variantAt, hc, hsel]

/-- Settles O19: END by the form of the state it leaves, PHASE by what its selector chooses. -/
theorem Settled.endAndPhase : Obligations.EndAndPhase := by
  unfold Obligations.EndAndPhase
  intro s l cur v i w r size may
  constructor
  · intro hf he
    refine ⟨endWave s, endW_ends s hf he, ?_⟩
    obtain ⟨_, _, _, _, _, _, _, h⟩ := endWave_form s
    rw [h]
    exact ⟨sameMemory_of_eq rfl rfl rfl, rfl, rfl, rfl, rfl, rfl, rfl, rfl, rfl⟩
  · intro hl hc _ hv hmay hmin
    have can : ∀ x : VariantEnt, may x ↔ phaseEligible cur r.pflag x = true ∧ size ≤ x.bound := fun x => by
      rw [phaseEligible_iff]; simp only [may, and_assoc]
    have hsel : selectVariant l.variants size (phaseEligible cur r.pflag) = some (i, v) :=
      selectVariant_eq hv ((can v).mp hmay).1 ((can v).mp hmay).2 fun j x hx hok hs => hmin j x hx ((can x).mpr ⟨hok, hs⟩)
    exact ⟨_, phase_jumps hl hc hsel, rfl, sameMemory_of_eq rfl rfl rfl, rfl⟩

end Sys2Proof
end

section
/-!
SUPPORT. Values at reset and the registers of a wave at its start (R141, R353, R446).
-/

namespace Sys2Proof

open Sys2Proof.Machine

/-! ### The registers of a wave at its start (R141) -/

theorem startRegs_k (l : Launch) (v : VariantEnt) (x : StartInfo) : let k := (startRegs l v x).k
    k[l.sizek] = l.snap.size ∧ (l.sizek ≠ 0 → k[0] = x.k0) ∧ (l.sizek ≠ 1 → k[1] = x.k1) ∧ (l.sizek ≠ 2 → k[2] = x.k2) ∧
      ∀ j : Fin 32, 3 ≤ j.val → j.val ≠ l.sizek.val → k[j] = 0 := by
  have apart : ∀ n : Nat, n < 32 → l.sizek ≠ Fin.ofNat 32 n → l.sizek.val ≠ n := fun n hn h e => h (Fin.ext (by simp [e, Nat.mod_eq_of_lt hn]))
  refine ⟨by simp [startRegs], fun h => ?_, fun h => ?_, fun h => ?_, fun j hj h => ?_⟩
  · simp [startRegs, apart 0 (by decide) h]
  · simp [startRegs, apart 1 (by decide) h]
  · simp [startRegs, apart 2 (by decide) h]
  · have h0 : 0 ≠ j.val := by omega
    have h1 : 1 ≠ j.val := by omega
    have h2 : 2 ≠ j.val := by omega
    simp [startRegs, Ne.symm h, h0, h1, h2, Regs.reset]

/-- Settles O53: every vector of the reset state holds one value throughout. -/
theorem Settled.resetValues : Obligations.ResetValues := by
  unfold Obligations.ResetValues
  intro s
  refine ⟨⟨rfl, rfl, rfl⟩, fun p => ?_, fun d => ?_, ⟨rfl, rfl, rfl, rfl⟩, fun l v x => ?_⟩
  · have hp : s.parts[p] = Partition.reset := by simp [s, State.reset]
    rw [hp]
    exact ⟨rfl, rfl, rfl, rfl, rfl, rfl, rfl, rfl, rfl, rfl, rfl, rfl, rfl⟩
  · have hd : s.dies[d] = Die.reset := by simp [s, State.reset]
    rw [hd]
    refine ⟨rfl, rfl, rfl, fun c => ?_⟩
    have hc : Die.reset.chans[c] = Chan.reset := by simp [Die.reset]
    rw [hc]
    exact ⟨rfl, rfl, rfl, rfl, rfl, rfl⟩
  · obtain ⟨hsize, -, -, -, hrest⟩ := startRegs_k l v x
    exact ⟨rfl, fun n i => by simp [startRegs, Regs.reset, Lanes.all], fun n i => by simp [startRegs, Regs.reset, Lanes.all], rfl,
      fun j => by simp [startRegs, Regs.reset], fun p => by simp [startRegs, Regs.reset], rfl, rfl, rfl,
      fun j => by simp [startRegs, Regs.reset], hsize, hrest⟩

end Sys2Proof
end

section
/-!
SUPPORT. UNPARK_WAVE where two waves share a token (R37, R38, R387).
-/

namespace Sys2Proof

open Sys2Proof.Machine

/-! ### Two waves of one token (R387)

A die gives its tokens out again after 2^30 - 1 waves, and a wave that has ended stays in the issuing place until another one is switched to. -/

/-- A wave of token 1 that is parked in its handler. -/
def parkedWave : Wave := { Wave.reset with ids := { Wave.reset.ids with token := 1 }, run := .parked, handler := true }

/-- The parked wave, and in the issuing place a wave of the same token that has ended outside any handler. -/
def sharedToken : State := { State.reset with wave := { Wave.reset with ids := parkedWave.ids }, waves := [parkedWave] }

theorem sharedToken_find : findWave sharedToken 1 = some parkedWave := rfl

/-- The parked wave is the first of its sub-core, and its footprint fits with nothing parked for it (R37, R38). -/
theorem sharedToken_unparks : wantsEntries sharedToken parkedWave = true ∧ firstParked sharedToken parkedWave = true ∧
    parkFor sharedToken parkedWave = some [] := ⟨rfl, by decide, by decide⟩

/-- UNPARK_WAVE sets every wave of the token running, so that the ended one is found: it is in no handler. -/
theorem sharedToken_unparked : ∃ u w, exec (.unparkWave 1) sharedToken = .next u ∧ findWave u 1 = some w ∧ w.handler = false :=
  ⟨_, _, rfl, rfl, rfl⟩

/-- A launch for the clauses that the counterexample does not use. -/
def idleLaunch : Launch := ⟨0, 0, 0, 0, 0, 0, launchOf 0, [], 0, 0, 0, [], 0, [], false, none, false, false, {}⟩

/-- Refutes O48: where a wave that has ended has the token of the parked one, UNPARK_WAVE of the token gives the ended wave a place in the register file too, and the token no longer finds the parked wave, which is in its handler. -/
theorem Settled.not_scheduling : ¬ Obligations.Scheduling := by
  unfold Obligations.Scheduling
  intro h
  obtain ⟨-, -, hunpark, -⟩ := h sharedToken 0 idleLaunch ⟨0, 0, 0, 0, false, none⟩ [] 1 parkedWave [] 0 0 0
  obtain ⟨hwants, hfirst, hroom⟩ := sharedToken_unparks
  obtain ⟨u, hu, -, hclaimed, -⟩ := hunpark sharedToken_find hwants hfirst hroom
  obtain ⟨t, w, ht, hfound, houtside⟩ := sharedToken_unparked
  rw [ht] at hu
  cases hu
  rw [hclaimed] at hfound
  cases hfound
  exact absurd houtside (by decide)

end Sys2Proof
end

section
/-!
SUPPORT. Gangs and tasks (R365, R366, R368, R428): what the start of waves leaves alone, the admission of a gang, the taking of a task, the commit of a task with its version.
-/

namespace Sys2Proof

open Sys2Proof.Machine

/-! ### Starting waves (R365) -/

/-- Waves start: nothing changes but waves, caches and token counts, priorities and the wait-for table, and the waves that stand already keep names, registers and mode. -/
structure Starts (s t : State) : Prop where
  rest : t = { s with
    wave := t.wave, waves := t.waves, cores := t.cores, dies := t.dies, engWaits := t.engWaits }
  kept : ∀ w ∈ s.waves, ∃ y ∈ t.waves, y.ids = w.ids ∧ y.regs = w.regs ∧ y.handler = w.handler

theorem Starts.refl (s : State) : Starts s s := ⟨rfl, fun w hw => ⟨w, hw, rfl, rfl, rfl⟩⟩

theorem Starts.trans {s t u : State} (h : Starts s t) (g : Starts t u) : Starts s u := by
  refine ⟨?_, fun w hw => ?_⟩
  · have e := g.rest
    rw [h.rest] at e
    exact e
  · obtain ⟨y, hy, hids, hregs, hmode⟩ := h.kept w hw
    obtain ⟨z, hz, zids, zregs, zmode⟩ := g.kept y hy
    exact ⟨z, hz, zids.trans hids, zregs.trans hregs, zmode.trans hmode⟩

/-- A wave as it starts in a slot: its names, and the registers of R141. -/
def StartsAs (l : Launch) (x : StartInfo) (g : Group) (j : Nat) (slot : Fin 48) (w : Wave) : Prop :=
  w.ids.gang = g.gang ∧ w.ids.group = g.index ∧ w.ids.core = g.core ∧ w.ids.wave = Fin.ofNat 16 j ∧ w.ids.slot = slot ∧
    w.ids.tid = x.tid ∧ w.regs.pc = x.entry ∧ w.regs.exec = 0xFFFFFFFF ∧ w.regs.mode = 0 ∧ w.regs.qvalid = 0 ∧ w.handler = false ∧
    w.regs.k[l.sizek] = l.snap.size ∧ (l.sizek ≠ 0 → w.regs.k[0] = x.k0) ∧ (l.sizek ≠ 1 → w.regs.k[1] = x.k1) ∧
    (l.sizek ≠ 2 → w.regs.k[2] = x.k2)

/-- A wave of the state stands as it starts. -/
def HasStarted (s : State) (l : Launch) (x : StartInfo) (g : Group) (j : Nat) (slot : Fin 48) : Prop :=
  ∃ w ∈ s.waves, StartsAs l x g j slot w

theorem HasStarted.mono {s t : State} {l : Launch} {x : StartInfo} {g : Group} {j : Nat} {slot : Fin 48} (h : HasStarted s l x g j slot)
    (hst : Starts s t) : HasStarted t l x g j slot := by
  obtain ⟨w, hw, h⟩ := h
  obtain ⟨y, hy, hids, hregs, hmode⟩ := hst.kept w hw
  refine ⟨y, hy, ?_⟩
  unfold StartsAs
  rw [hids, hregs, hmode]
  exact h

/-- An acquire renews epochs: those of the core, and of waves (R243). -/
theorem acquireStep_form (s : State) (w : Wave) : ∃ (cs : Vector Core 192) (f : Wave → W16) (e : W16), acquireStep s w =
    ({ onWaves s (fun x => { x with acqEpoch := f x }) with cores := cs }, { w with acqEpoch := e, floor := clkJoin w.floor w.clk }) := by
  have keep : onWaves s (fun x => { x with acqEpoch := x.acqEpoch }) = s := by
    simp [onWaves]
  have renew : (fun x : Wave => if x.ids.core = w.ids.core then { x with acqEpoch := 0 } else x) =
      fun x => { x with acqEpoch := if x.ids.core = w.ids.core then 0 else x.acqEpoch } := by
    funext x
    split <;> rfl
  simp only [acquireStep]
  split
  · rw [renew]
    exact ⟨_, _, _, rfl⟩
  · refine ⟨(onCore s w.ids.core fun x => { x with epoch := s.cores[w.ids.core].epoch + 1 }).cores, fun x => x.acqEpoch, s.cores[w.ids.core].epoch, ?_⟩
    rw [keep]
    rfl

theorem startWave_starts (s : State) (l : Launch) (v : VariantEnt) (x : StartInfo) (g : Group) (i : Nat) (slot : Fin 48) :
    Starts s (startWave s l v x g i slot) ∧ HasStarted (startWave s l v x g i slot) l x g i slot := by
  obtain ⟨hsize, h0, h1, h2, -⟩ := startRegs_k l v x
  simp only [startWave]
  generalize hw : ({ Wave.reset with ids := _, regs := _, run := _, psize := _, pbase := _, eprio := _, clk := _, floor := _, digest := _, readySince := _ } : Wave) = w
  obtain ⟨cs, f, e, h⟩ := acquireStep_form (onCore s g.core fun c => { c with icache := [] }) w
  rw [h]
  subst hw
  refine ⟨⟨rfl, fun y hy => ⟨{ y with acqEpoch := f y }, ?_, rfl, rfl, rfl⟩⟩, ⟨_, List.mem_append_right _ (List.mem_singleton_self _), ?_⟩⟩
  · exact List.mem_append_left _ (List.mem_map_of_mem hy)
  · exact ⟨rfl, rfl, rfl, rfl, rfl, rfl, rfl, rfl, rfl, rfl, rfl, hsize, h0, h1, h2⟩

theorem startWaves_starts (l : Launch) (v : VariantEnt) (x : StartInfo) (g : Group) (slots : List (Fin 48)) : ∀ (i : Nat) (s : State),
    Starts s (startWaves l v x g i slots s) ∧
      ∀ j slot, slots[j]? = some slot → HasStarted (startWaves l v x g i slots s) l x g (i + j) slot := by
  induction slots with
  | nil => exact fun i s => ⟨Starts.refl s, fun j slot h => by simp at h⟩
  | cons a slots ih =>
    intro i s
    obtain ⟨hfirst, hwave⟩ := startWave_starts s l v x g i a
    obtain ⟨hrest, hwaves⟩ := ih (i + 1) (startWave s l v x g i a)
    refine ⟨hfirst.trans hrest, fun j slot h => ?_⟩
    cases j with
    | zero =>
      cases h
      exact hwave.mono hrest
    | succ j =>
      have hj := hwaves j slot h
      rwa [Nat.add_right_comm, Nat.add_assoc] at hj

theorem settlePrio_starts (s : State) : Starts s (settlePrio s) := by
  obtain ⟨f, es, h⟩ := settlePrio_form s
  rw [h]
  exact ⟨rfl, fun w hw => ⟨{ w with eprio := f w }, List.mem_map_of_mem hw, rfl, rfl, rfl⟩⟩

/-- The waves of several groups, one group after another. -/
theorem startGroups_starts (l : Launch) (v : VariantEnt) (x : StartInfo) (gs : List Group) : ∀ s : State,
    Starts s (gs.foldl (fun t y => startWaves l v x y 0 y.slots t) s) ∧
      ∀ y ∈ gs, ∀ j slot, y.slots[j]? = some slot → HasStarted (gs.foldl (fun t y => startWaves l v x y 0 y.slots t) s) l x y j slot := by
  induction gs with
  | nil => exact fun s => ⟨Starts.refl s, fun y hy => nomatch hy⟩
  | cons g gs ih =>
    intro s
    obtain ⟨hfirst, hwaves⟩ := startWaves_starts l v x g g.slots 0 s
    obtain ⟨hrest, hothers⟩ := ih (startWaves l v x g 0 g.slots s)
    refine ⟨hfirst.trans hrest, fun y hy j slot h => ?_⟩
    rcases List.mem_cons.mp hy with rfl | hy
    · have hj := (hwaves j slot h).mono hrest
      rwa [Nat.zero_add] at hj
    · exact hothers y hy j slot h


/-! ### Updates found again under their keys -/

/-- An update of a launch that keeps its key is found under it. -/
theorem findLaunch_onLaunch (s : State) (k : Nat) (f : Launch → Launch) (hf : ∀ x, (f x).key = x.key) :
    findLaunch (onLaunch s k f) k = (findLaunch s k).map f := by
  unfold findLaunch onLaunch
  rw [List.find?_map]
  have hkeep : ((fun x : Launch => x.key == k) ∘ fun x => if x.key = k then f x else x) = fun x => x.key == k := by
    funext x
    simp only [Function.comp]
    split
    · rw [hf]
    · rfl
  rw [hkeep]
  cases e : s.launches.find? fun x => x.key == k with
  | none => rfl
  | some x =>
    have hx : x.key = k := by simpa using List.find?_some e
    simp [hx]

theorem findLaunch_key {s : State} {k : Nat} {l : Launch} (h : findLaunch s k = some l) : l.key = k := by
  simpa using List.find?_some h

/-! ### The head launch (R364, R408) -/

/-- A choice between the values of a list gives one of them. -/
theorem foldl_choice_mem {α : Type} (f : α → α → α) (h : ∀ a b, f a b = a ∨ f a b = b) (xs : List α) : ∀ x, xs.foldl f x ∈ x :: xs := by
  induction xs with
  | nil => exact fun x => List.mem_singleton_self x
  | cons y ys ih =>
    intro x
    rw [List.foldl_cons]
    have hm := ih (f x y)
    rcases h x y with e | e <;> rw [e] at hm ⊢ <;> simp only [List.mem_cons] at hm ⊢ <;> tauto

theorem queueHead_found {s : State} {p : Fin 24} {q : Fin 8} {l : Launch} (h : queueHead s p q = some l) : findLaunch s l.key = some l := by
  obtain ⟨k, -, hk⟩ := List.exists_of_findSome?_eq_some h
  obtain ⟨x, hx, hl⟩ := Option.bind_eq_some_iff.mp hk
  split at hl
  · cases hl
    rwa [findLaunch_key hx]
  · cases hl

theorem headLaunch_found {s : State} {p : Fin 24} {l : Launch} (h : headLaunch s p = some l) : findLaunch s l.key = some l := by
  simp only [headLaunch] at h
  split at h
  · cases h
  · rename_i x xs e
    have hm := foldl_choice_mem (fun a b : Launch => if a.snap.prio < b.snap.prio then b else a) (fun a b => by
      split
      · exact .inr rfl
      · exact .inl rfl) xs x
    rw [Option.some.inj h, ← e] at hm
    obtain ⟨q, -, hq⟩ := List.mem_filterMap.mp (List.mem_filter.mp hm).1
    exact queueHead_found hq

/-- What the admitter places is the gang of a launch of the state. -/
theorem admitStage_place {s : State} {p : Fin 24} {l : Launch} {v : VariantEnt} {places : List (Fin 192 × Fin 4 × List (Fin 48))}
    (h : admitStage s p = .place l v places) : findLaunch s l.key = some l := by
  unfold admitStage at h
  split at h
  · cases h
  · split at h
    · cases h
    · rename_i hl
      split at h
      · cases h
      · split at h
        · cases h
        · split at h
          · cases h
          · split at h
            · split at h
              · cases h; exact headLaunch_found hl
              · cases h
            · cases h

/-! ### Idle groups (R368) -/

theorem ensureObj_form (s : State) (d : Fin 2) (p : Fin 24) (key : ObjKey) (kind : Nat) : ∃ os, (ensureObj s d p key kind).2 = { s with objs := os } :=
  ensureObjBy_form ..

/-- Groups become idle: every group keeps all but its task and the time since when it is idle, and those of gang `k` whose index is among `done` are idle. -/
structure BecomeIdle (k : GangKey) (done : Fin 8 → Prop) (s t : State) : Prop where
  rest : t = { s with groups := t.groups, objs := t.objs, engWaits := t.engWaits, nextKey := t.nextKey }
  groups : ∃ f : Group → Group, t.groups = s.groups.map f ∧ ∀ x, (∃ a b, f x = { x with task := a, idleSince := b }) ∧
    (x.idleSince.isSome = true ∨ (x.gang = k ∧ done x.index) → (f x).idleSince.isSome = true)

theorem BecomeIdle.trans {k : GangKey} {a b : Fin 8 → Prop} {s t u : State} (h : BecomeIdle k a s t) (g : BecomeIdle k b t u) :
    BecomeIdle k (fun i => a i ∨ b i) s u := by
  obtain ⟨f, hf, hidle⟩ := h.groups
  obtain ⟨f', hf', hidle'⟩ := g.groups
  refine ⟨?_, fun x => f' (f x), ?_, fun x => ⟨?_, ?_⟩⟩
  · have e := g.rest
    rw [h.rest] at e
    exact e
  · rw [hf', hf, List.map_map]; rfl
  · obtain ⟨_, _, e⟩ := (hidle x).1
    obtain ⟨a, b, e'⟩ := (hidle' (f x)).1
    exact ⟨a, b, e'.trans (by rw [e])⟩
  · have hsame : (f x).gang = x.gang ∧ (f x).index = x.index := by
      obtain ⟨_, _, e⟩ := (hidle x).1
      rw [e]
      exact ⟨rfl, rfl⟩
    obtain ⟨hgang, hindex⟩ := hsame
    rintro (hx | ⟨hk, ha | hb⟩)
    · exact (hidle' (f x)).2 (.inl ((hidle x).2 (.inl hx)))
    · exact (hidle' (f x)).2 (.inl ((hidle x).2 (.inr ⟨hk, ha⟩)))
    · exact (hidle' (f x)).2 (.inr ⟨hgang.trans hk, by rwa [hindex]⟩)

theorem BecomeIdle.nothing (k : GangKey) (s : State) : BecomeIdle k (fun _ => False) s s :=
  ⟨rfl, id, (List.map_id _).symm, fun x => ⟨⟨x.task, x.idleSince, rfl⟩, by simp⟩⟩

theorem BecomeIdle.weaken {k : GangKey} {a b : Fin 8 → Prop} {s t : State} (h : BecomeIdle k a s t) (hab : ∀ i, b i → a i) : BecomeIdle k b s t := by
  obtain ⟨f, hf, hidle⟩ := h.groups
  exact ⟨h.rest, f, hf, fun x => ⟨(hidle x).1, fun hx => (hidle x).2 (hx.imp_right (And.imp_right (hab _)))⟩⟩

theorem findGroup_isSome {s : State} {k : GangKey} {i : Fin 8} (h : ∃ x ∈ s.groups, x.gang = k ∧ x.index = i) : ∃ g, findGroup s k i.val = some g := by
  obtain ⟨x, hx, hk, hi⟩ := h
  exact Option.isSome_iff_exists.mp (List.find?_isSome.mpr ⟨x, hx, by simp [hk, hi]⟩)

theorem idleGroup_idle {s : State} {k : GangKey} {i : Fin 8} {l : Launch} (hg : ∃ x ∈ s.groups, x.gang = k ∧ x.index = i)
    (hl : findLaunch s k.launch = some l) : BecomeIdle k (fun j => j = i) s (idleGroup s k i) := by
  obtain ⟨g, hg⟩ := findGroup_isSome hg
  obtain ⟨os, h⟩ := ensureObj_form (onGroup s k i fun g => { g with task := none, idleSince := some s.nextKey })
    (opDie s l.part (coreDie g.core)) l.part (.recTask l.part l.snap.tq) 5
  simp only [idleGroup, hg, hl, h]
  refine ⟨rfl, fun g => if g.gang = k ∧ g.index = i then { g with task := none, idleSince := some s.nextKey } else g, rfl, fun x => ?_⟩
  dsimp only
  split
  · exact ⟨⟨_, _, rfl⟩, fun _ => rfl⟩
  · rename_i hne
    exact ⟨⟨x.task, x.idleSince, rfl⟩, fun hx => hx.resolve_right hne⟩

/-- All of a gang's groups become idle, one after another. -/
theorem idleGroups_idle (k : GangKey) (l : Launch) (gs : List Group) : ∀ s : State,
    (∀ y ∈ gs, ∃ x ∈ s.groups, x.gang = k ∧ x.index = y.index) → findLaunch s k.launch = some l →
      BecomeIdle k (fun i => ∃ y ∈ gs, y.index = i) s (gs.foldl (fun t y => idleGroup t k y.index) s) := by
  induction gs with
  | nil => exact fun s _ _ => (BecomeIdle.nothing k s).weaken fun i h => by simp at h
  | cons g gs ih =>
    intro s hgs hl
    have hfirst := idleGroup_idle (hgs g (List.mem_cons_self ..)) hl
    obtain ⟨f, hf, hidle⟩ := hfirst.groups
    have hl' : findLaunch (idleGroup s k g.index) k.launch = some l := by rw [hfirst.rest]; exact hl
    have hgs' : ∀ y ∈ gs, ∃ x ∈ (idleGroup s k g.index).groups, x.gang = k ∧ x.index = y.index := by
      intro y hy
      obtain ⟨x, hx, hk, hi⟩ := hgs y (List.mem_cons_of_mem _ hy)
      refine ⟨f x, by rw [hf]; exact List.mem_map_of_mem hx, ?_⟩
      obtain ⟨_, _, e⟩ := (hidle x).1
      rw [e]
      exact ⟨hk, hi⟩
    refine (hfirst.trans (ih _ hgs' hl')).weaken fun i hi => ?_
    simpa [eq_comm] using hi

/-! ### ADMIT_GANG (R365, R368, R408) -/

/-- The task identifier of the next gang of a launch. -/
def nextTask (l : Launch) : W64 := taskId false (nextGangOf l).toNat l.acc

/-- A relaunched gang finds its task again, and any other gang gets one: it has not ended. -/
theorem gangTask_task (s : State) (l : Launch) (idx : W32) : (∃ ts, gangTask s l idx = { s with tasks := ts }) ∧
    ∃ x, findTask (gangTask s l idx) (taskId false idx.toNat l.acc) l.part = some x ∧ x.ended = false := by
  simp only [gangTask]
  split
  · rename_i h
    obtain ⟨x, hx⟩ := Option.isSome_iff_exists.mp h
    refine ⟨⟨_, rfl⟩, { x with ended := false, waves := [], deferred := [], digest := 0 }, ?_, rfl⟩
    have hf := findTask_onTask s (taskId false idx.toNat l.acc) l.part (fun t => { t with ended := false, waves := [], deferred := [], digest := 0 })
      fun _ => ⟨rfl, rfl⟩
    rw [hx] at hf
    exact hf
  · rename_i h
    have hnone : (s.tasks.find? fun x => x.tid == taskId false idx.toNat l.acc && x.part == l.part) = none :=
      Option.not_isSome_iff_eq_none.mp h
    simp [findTask, List.find?_append, hnone]

/-- The gang's entry, its groups placed and its launch counted, before any wave starts or group becomes idle. -/
def placedGang (s : State) (l : Launch) (v : VariantEnt) (places : List (Fin 192 × Fin 4 × List (Fin 48))) : State :=
  let k : GangKey := ⟨l.key, nextGangOf l⟩
  let block := (places.head?.map fun x => x.1).getD 0
  let s1 := gangTask s l (nextGangOf l)
  let s2 := { s1 with
    gangs := s1.gangs ++ [⟨k, l.part, block, places.length, v.waves, [], none, l.snap.meas, []⟩]
    groups := s1.groups ++ places.mapIdx fun i x => freshGroup k i v.spad x }
  let wipe := fun (t : State) (x : Fin 192 × Fin 4 × List (Fin 48)) =>
    if l.snap.meas then onCore t x.1 fun u => { u with pm := Vector.replicate 4 ⟨0, false, 0⟩ } else t
  onLaunch (places.foldl wipe s2) l.key (afterAdmit (clusterOf block))

theorem startGang_eq (s : State) (l : Launch) (v : VariantEnt) (places : List (Fin 192 × Fin 4 × List (Fin 48))) : startGang s l v places =
    (let k : GangKey := ⟨l.key, nextGangOf l⟩
     let groups := places.mapIdx fun i x => freshGroup k i v.spad x
     if l.snap.tserv then groups.foldl (fun t y => idleGroup t k y.index) (placedGang s l v places)
     else settlePrio (groups.foldl (fun t y => startWaves l v ⟨v.entry, l.snap.arg, 0, l.addr, Fin.ofNat 8 l.chosen, nextTask l⟩ y 0 y.slots t)
      (placedGang s l v places))) := rfl

theorem foldl_cores_form {α : Type} (f : State → α → State) (h : ∀ t x, ∃ cs, f t x = { t with cores := cs }) (l : List α) : ∀ s : State,
    ∃ cs, l.foldl f s = { s with cores := cs } := by
  induction l with
  | nil => exact fun s => ⟨s.cores, rfl⟩
  | cons x xs ih =>
    intro s
    obtain ⟨_, e⟩ := h s x
    obtain ⟨cs, e'⟩ := ih (f s x)
    exact ⟨cs, by rw [List.foldl_cons, e', e]⟩

theorem placedGang_form (s : State) (l : Launch) (v : VariantEnt) (places : List (Fin 192 × Fin 4 × List (Fin 48))) : ∃ cs block,
    placedGang s l v places =
      { onLaunch s l.key (afterAdmit (clusterOf block)) with
        cores := cs
        tasks := (gangTask s l (nextGangOf l)).tasks
        gangs := s.gangs ++ [⟨⟨l.key, nextGangOf l⟩, l.part, block, places.length, v.waves, [], none, l.snap.meas, []⟩]
        groups := s.groups ++ places.mapIdx fun i x => freshGroup ⟨l.key, nextGangOf l⟩ i v.spad x } := by
  obtain ⟨⟨_, e⟩, -⟩ := gangTask_task s l (nextGangOf l)
  simp only [placedGang]
  obtain ⟨cs, h⟩ := foldl_cores_form (fun (t : State) (x : Fin 192 × Fin 4 × List (Fin 48)) =>
    if l.snap.meas then onCore t x.1 fun u => { u with pm := Vector.replicate 4 ⟨0, false, 0⟩ } else t) (fun t x => by
      split
      · exact ⟨_, rfl⟩
      · exact ⟨t.cores, rfl⟩) places
    { gangTask s l (nextGangOf l) with
      gangs := (gangTask s l (nextGangOf l)).gangs ++
        [⟨⟨l.key, nextGangOf l⟩, l.part, (places.head?.map fun x => x.1).getD 0, places.length, v.waves, [], none, l.snap.meas, []⟩]
      groups := (gangTask s l (nextGangOf l)).groups ++ places.mapIdx fun i x => freshGroup ⟨l.key, nextGangOf l⟩ i v.spad x }
  refine ⟨cs, (places.head?.map fun x => x.1).getD 0, ?_⟩
  rw [h, e]
  rfl

theorem afterAdmit_keeps (cl : Fin 24) (l : Launch) : (afterAdmit cl l).key = l.key := by
  simp only [afterAdmit]
  split <;> rfl

/-- The groups of a gang as they are placed. -/
def placedGroups (l : Launch) (v : VariantEnt) (places : List (Fin 192 × Fin 4 × List (Fin 48))) : List Group :=
  places.mapIdx fun i x => freshGroup ⟨l.key, nextGangOf l⟩ i v.spad x

theorem freshGroup_mem {l : Launch} {v : VariantEnt} {places : List (Fin 192 × Fin 4 × List (Fin 48))} {i : Nat} {y : Fin 192 × Fin 4 × List (Fin 48)}
    (hy : places[i]? = some y) : freshGroup ⟨l.key, nextGangOf l⟩ i v.spad y ∈ placedGroups l v places := by
  obtain ⟨hi, rfl⟩ := List.getElem?_eq_some_iff.mp hy
  exact List.mem_mapIdx.mpr ⟨i, hi, rfl⟩

theorem placedGroups_gang {l : Launch} {v : VariantEnt} {places : List (Fin 192 × Fin 4 × List (Fin 48))} {x : Group} (hx : x ∈ placedGroups l v places) :
    x.gang = ⟨l.key, nextGangOf l⟩ := by
  obtain ⟨i, hi, rfl⟩ := List.mem_mapIdx.mp hx
  rfl

/-- In a gang that serves a queue all groups become idle. -/
theorem startGang_idle {s : State} {l : Launch} (v : VariantEnt) (places : List (Fin 192 × Fin 4 × List (Fin 48)))
    (hl : findLaunch s l.key = some l) (hserv : l.snap.tserv = true) :
    BecomeIdle ⟨l.key, nextGangOf l⟩ (fun i => ∃ y ∈ placedGroups l v places, y.index = i) (placedGang s l v places) (startGang s l v places) := by
  obtain ⟨cs, block, hform⟩ := placedGang_form s l v places
  have hfound : findLaunch (placedGang s l v places) l.key = some (afterAdmit (clusterOf block) l) := by
    rw [hform]
    have h := findLaunch_onLaunch s l.key (afterAdmit (clusterOf block)) (afterAdmit_keeps _)
    rw [hl] at h
    exact h
  have hgroups : ∀ y ∈ placedGroups l v places, ∃ x ∈ (placedGang s l v places).groups, x.gang = ⟨l.key, nextGangOf l⟩ ∧ x.index = y.index := by
    intro y hy
    refine ⟨y, ?_, placedGroups_gang hy, rfl⟩
    rw [hform]
    exact List.mem_append_right _ hy
  simp only [startGang_eq, hserv, if_true]
  exact idleGroups_idle _ _ _ _ hgroups hfound

/-- In any other gang the waves of all groups start. -/
theorem startGang_starts (s : State) {l : Launch} (v : VariantEnt) (places : List (Fin 192 × Fin 4 × List (Fin 48))) (hserv : l.snap.tserv = false) :
    Starts (placedGang s l v places) (startGang s l v places) ∧ ∀ y ∈ placedGroups l v places, ∀ j slot, y.slots[j]? = some slot →
      HasStarted (startGang s l v places) l ⟨v.entry, l.snap.arg, 0, l.addr, Fin.ofNat 8 l.chosen, nextTask l⟩ y j slot := by
  simp only [startGang_eq, hserv, Bool.false_eq_true, if_false]
  obtain ⟨hstart, hwaves⟩ := startGroups_starts l v ⟨v.entry, l.snap.arg, 0, l.addr, Fin.ofNat 8 l.chosen, nextTask l⟩ (placedGroups l v places)
    (placedGang s l v places)
  have hprio := settlePrio_starts ((placedGroups l v places).foldl
    (fun t y => startWaves l v ⟨v.entry, l.snap.arg, 0, l.addr, Fin.ofNat 8 l.chosen, nextTask l⟩ y 0 y.slots t) (placedGang s l v places))
  exact ⟨hstart.trans hprio, fun y hy j slot h => (hwaves y hy j slot h).mono hprio⟩

/-- Whether its waves start or its groups become idle, a gang's entry and task are those of `placedGang`, and memory keeps its bytes. -/
theorem startGang_rest {s : State} {l : Launch} (v : VariantEnt) (places : List (Fin 192 × Fin 4 × List (Fin 48)))
    (hl : findLaunch s l.key = some l) : SameMemory s (startGang s l v places) ∧
      (startGang s l v places).gangs = (placedGang s l v places).gangs ∧ (startGang s l v places).tasks = (gangTask s l (nextGangOf l)).tasks := by
  obtain ⟨cs, block, hform⟩ := placedGang_form s l v places
  have htasks : (placedGang s l v places).tasks = (gangTask s l (nextGangOf l)).tasks := by rw [hform]
  rw [← htasks]
  cases hserv : l.snap.tserv with
  | true =>
    have hrest := (startGang_idle v places hl hserv).rest
    rw [hrest, hform]
    exact ⟨sameMemory_of_eq rfl rfl rfl, rfl, rfl⟩
  | false =>
    have hrest := (startGang_starts s v places hserv).1.rest
    rw [hrest, hform]
    exact ⟨sameMemory_of_eq rfl rfl rfl, rfl, rfl⟩

/-- The groups of a gang after its start: as placed, and idle in a gang that serves a queue. -/
theorem startGang_groups {s : State} {l : Launch} (v : VariantEnt) (places : List (Fin 192 × Fin 4 × List (Fin 48)))
    (hl : findLaunch s l.key = some l) {x : Group} (hx : x ∈ placedGroups l v places) (hfresh : x.idleSince = none) :
    ∃ a b, { x with task := a, idleSince := b } ∈ (startGang s l v places).groups ∧ b.isSome = l.snap.tserv := by
  obtain ⟨cs, block, hform⟩ := placedGang_form s l v places
  have hplaced : x ∈ (placedGang s l v places).groups := by
    rw [hform]
    exact List.mem_append_right _ hx
  cases hserv : l.snap.tserv with
  | true =>
    obtain ⟨f, hf, hidle⟩ := (startGang_idle v places hl hserv).groups
    obtain ⟨⟨a, b, e⟩, hsome⟩ := hidle x
    have hb := hsome (.inr ⟨placedGroups_gang hx, x, hx, rfl⟩)
    rw [e] at hb
    exact ⟨a, b, by rw [hf, ← e]; exact List.mem_map_of_mem hplaced, hb⟩
  | false =>
    refine ⟨x.task, none, ?_, rfl⟩
    rw [← hfresh, (startGang_starts s v places hserv).1.rest]
    exact hplaced

theorem admitGang_place {s : State} {p : Fin 24} {l : Launch} {v : VariantEnt} {places : List (Fin 192 × Fin 4 × List (Fin 48))}
    (h : admitStage s p = .place l v places) : exec (.admitGang p) s = .next (startGang s l v places) := by
  show execAdmitGang p s = _
  simp only [execAdmitGang, h]

/-- A gang for which a block has been found starts there (R365, R368). -/
theorem admitGang_starts {s : State} {p : Fin 24} {l : Launch} {v : VariantEnt} {places : List (Fin 192 × Fin 4 × List (Fin 48))}
    (h : admitStage s p = .place l v places) : SameMemory s (startGang s l v places) ∧
      (∃ x ∈ (startGang s l v places).gangs, x.key = ⟨l.key, nextGangOf l⟩ ∧ x.part = l.part ∧ x.groups = places.length ∧ x.waves = v.waves) ∧
      ∃ x, findTask (startGang s l v places) (nextTask l) l.part = some x ∧ x.ended = false := by
  obtain ⟨hmem, hgangs, htasks⟩ := startGang_rest v places (admitStage_place h)
  obtain ⟨cs, block, hform⟩ := placedGang_form s l v places
  obtain ⟨-, x, hx, hend⟩ := gangTask_task s l (nextGangOf l)
  refine ⟨hmem, ?_, x, ?_, hend⟩
  · rw [hgangs, hform]
    exact ⟨_, List.mem_append_right _ (List.mem_singleton_self _), rfl, rfl, rfl, rfl⟩
  · unfold findTask at hx ⊢
    rwa [htasks]

/-! ### TASK_TAKE (R368) -/

/-- Insertion before the first place where a test fails keeps to the members of the list. -/
theorem mem_of_mem_insertions {α : Type} (r : α → α → Bool) (l : List α) {x : α}
    (h : x ∈ l.foldr (fun g acc => (acc.takeWhile fun y => r y g) ++ g :: acc.dropWhile fun y => r y g) []) : x ∈ l := by
  induction l with
  | nil => exact h
  | cons y ys ih =>
    rw [List.foldr_cons, List.mem_append, List.mem_cons] at h
    rcases h with h | rfl | h
    · exact List.mem_cons_of_mem _ (ih ((List.takeWhile_sublist _).mem h))
    · exact List.mem_cons_self ..
    · exact List.mem_cons_of_mem _ (ih ((List.dropWhile_sublist _).mem h))

theorem idleGroups_mem {s : State} {p : Fin 24} {q : Fin 16} {g : Group} {idle : List Group} (h : idleGroups s p q = g :: idle) : g ∈ s.groups := by
  have hg : g ∈ idleGroups s p q := h ▸ List.mem_cons_self ..
  simp only [idleGroups] at hg
  exact List.mem_of_mem_filter (mem_of_mem_insertions (fun y g => decide (y.idleSince.getD 0 < g.idleSince.getD 0)) _ hg)

/-- The state in which the waves of a taken task start: its entry marked, its task entered, its group on it. -/
def takenState (s : State) (p : Fin 24) (q : Fin 16) (l : Launch) (g : Group) (e : TaskEnt) (slots : List (Fin 48)) : State :=
  let mark := fun (x : TaskEnt) => if x.tid = e.tid then { x with taken := true } else x
  let s1 := onPart { s with tasks := s.tasks ++ [takenTask p q l g e] } p fun x => { x with taskQ := x.taskQ.set q.val ((x.taskQ[q]).map mark) }
  onGroup (wakeGroup s1 g) g.gang g.index fun y => { y with task := some e.tid, slots := slots }

/-- What the waves of a taken task start with. -/
def takenInfo (l : Launch) (e : TaskEnt) : StartInfo := ⟨e.entry, e.arg, e.tile, e.addr, Fin.ofNat 8 l.chosen, e.tid⟩

theorem takenTask_versioned (p : Fin 24) (q : Fin 16) (l : Launch) (g : Group) {e : TaskEnt} (h : e.entry ≠ 0) :
    (takenTask p q l g e).versioned = entVersioned l e := by
  show (entVersioned l e && e.entry != 0) = _
  rw [bne_iff_ne.mpr h, Bool.and_true]

theorem observeStart_nothing (s : State) (t : Task) {e : TaskEnt} (h : e.after = []) : observeStart s t e = .ok s := by
  simp [observeStart, h, linkTasks]

theorem taskTake_starts {s : State} {p : Fin 24} {q : Fin 16} {l : Launch} {v : VariantEnt} {g : Group} {idle : List Group} {e : TaskEnt} {slots : List (Fin 48)}
    (hidle : idleGroups s p q = g :: idle) (hhead : nextEntry s p q = some e) (hl : findLaunch s g.gang.launch = some l) (hentry : e.entry ≠ 0)
    (hafter : e.after = []) (hv : variantAt l.variants l.chosen = some v) (hslots : takeSlots g.base.val 0 v.waves (usedSlots s g.core) = some slots)
    (hmay : mayStart s p e.tid (entVersioned l e) (decide (1 ≤ e.vfull)) false = true)
    (hseen : clkLe e.seen s.dies[opDie s p (coreDie g.core)].applied = true) :
    exec (.taskTake p q) s = .next (settlePrio (startWaves l v (takenInfo l e) g 0 slots (takenState s p q l g e slots))) := by
  have hversioned := takenTask_versioned p q l g hentry
  show execTaskTake p q s = _
  simp only [execTaskTake, takeStep, hidle, hhead, hl, hversioned, hv, Option.getD_some, hslots, hentry, if_false,
    observeStart_nothing _ (takenTask p q l g e) hafter]
  rw [if_neg]
  · rfl
  · show ¬ ((!mayStart s p e.tid (entVersioned l e) (decide (1 ≤ e.vfull)) false || !clkLe e.seen s.dies[opDie s p (coreDie g.core)].applied) = true)
    rw [hmay, hseen]
    decide

theorem takenState_form (s : State) (p : Fin 24) (q : Fin 16) (l : Launch) (g : Group) (e : TaskEnt) (slots : List (Fin 48)) : ∃ os es,
    takenState s p q l g e slots =
      { onGroup (onGroup (onPart s p fun x => { x with
          taskQ := x.taskQ.set q.val ((x.taskQ[q]).map fun x => if x.tid = e.tid then { x with taken := true } else x) })
          g.gang g.index fun y => { y with idleSince := none }) g.gang g.index fun y => { y with task := some e.tid, slots := slots } with
        tasks := s.tasks ++ [takenTask p q l g e], objs := os, engWaits := es } := ⟨_, _, rfl⟩

/-- After the taking of a task: its entry is marked, it is there, and its group is on it. -/
theorem takenState_taken {s : State} {p : Fin 24} {q : Fin 16} {l : Launch} {g : Group} {e : TaskEnt} {slots : List (Fin 48)} (hg : g ∈ s.groups)
    (hnew : ∀ x ∈ s.tasks, x.tid ≠ e.tid) : findTask (takenState s p q l g e slots) e.tid p = some (takenTask p q l g e) ∧
      { g with idleSince := none, task := some e.tid, slots := slots } ∈ (takenState s p q l g e slots).groups ∧
      ∀ x ∈ ((takenState s p q l g e slots).parts[p]).taskQ[q], x.tid = e.tid → x.taken = true := by
  obtain ⟨os, es, hform⟩ := takenState_form s p q l g e slots
  refine ⟨?_, ?_, ?_⟩
  · have hnone : (s.tasks.find? fun x => x.tid == e.tid && x.part == p) = none :=
      List.find?_eq_none.mpr fun x hx => by simp [hnew x hx]
    rw [hform]
    simp only [findTask, List.find?_append, hnone, Option.none_or]
    simp [takenTask]
  · rw [hform]
    refine List.mem_map.mpr ⟨{ g with idleSince := none }, List.mem_map.mpr ⟨g, hg, ?_⟩, ?_⟩
    · exact if_pos ⟨rfl, rfl⟩
    · exact if_pos ⟨rfl, rfl⟩
  · rw [hform]
    intro x hx htid
    have hx' : x ∈ ((s.parts[p]).taskQ[q]).map fun x => if x.tid = e.tid then { x with taken := true } else x := by
      simpa [onGroup, onPart] using hx
    obtain ⟨y, -, rfl⟩ := List.mem_map.mp hx'
    by_cases h : y.tid = e.tid
    · simp [h]
    · simp [h] at htid

/-! ### TASK_COMMIT of one gang task (R366, R428) -/

/-- A gang task at the head of the tasks, under an identifier of its own, that has ended with nothing of its own left to do. -/
structure Finished (s : State) (t : Task) (others : List Task) : Prop where
  tasks : s.tasks = t :: others
  alone : ∀ x ∈ others, x.tid ≠ t.tid
  gang : t.group = none
  ended : t.ended = true
  uncommitted : t.committed = false
  replay : t.replay = none
  idle : engineBusy s t = false
  free : commitStopped s t = false
  unparked : ((s.parts[t.part]).parked.any fun y => y.tid == t.tid) = false

theorem Finished.taskDone {s : State} {t : Task} {others : List Task} (h : Finished s t others) : taskDone s t = true := by
  simp only [Machine.taskDone, h.ended, h.uncommitted, h.idle, h.free, h.unparked]
  rfl

theorem Finished.commits {s : State} {t : Task} {others : List Task} (h : Finished s t others) (hon : commitEnabled s t = true) :
    exec (.taskCommit t.tid) s = .next (commitStep s t) := by
  show execTaskCommit t.tid s = _
  have hfind : s.tasks.find? (fun x => x.tid == t.tid && (x.ended || x.committed) && commitEnabled s x) = some t := by
    rw [h.tasks]
    exact List.find?_cons_of_pos (by simp [h.ended, hon])
  simp only [execTaskCommit, hfind]

/-! ### The gang leaves its cores (R366) -/

theorem Finished.leaves_of_standing {s : State} {t : Task} {others : List Task} (h : Finished s t others) (hgang : standing s t = true) :
    leaves s t = true := by
  simp [leaves, h.taskDone, hgang]

theorem standing_of_group {s : State} {t : Task} {g : Group} (ht : t.group = none) (hg : g ∈ s.groups) (hk : g.gang = t.gang) : standing s t = true := by
  simp only [standing, ht, Option.isNone_none, Bool.true_and, List.any_eq_true]
  exact ⟨g, hg, by simp [hk]⟩

theorem Finished.releases {s : State} {t : Task} {others : List Task} (h : Finished s t others) (hgang : standing s t = true) :
    exec (.taskCommit t.tid) s = .next (releaseCores s t.gang) := by
  have hleaves := h.leaves_of_standing hgang
  have hon : commitEnabled s t = true := by simp [commitEnabled, h.free, h.uncommitted, h.ended, hleaves]
  have hclose : closePass s t = s := by simp [closePass, h.replay]
  rw [h.commits hon]
  simp [commitStep, h.uncommitted, hleaves, leaveStep, hclose, h.gang]

theorem releaseCores_form (s : State) (k : GangKey) : ∃ cs gs os,
    releaseCores s k = { s with cores := cs, gangs := gs, objs := os, groups := s.groups.filter fun g => g.gang != k } := by
  simp only [releaseCores]
  obtain ⟨cs, h⟩ := foldl_cores_form (fun (t : State) (c : Fin 192) => onCore t c fun c =>
    { c with
      bound := c.bound.filter fun b => b.1 != k
      pm := if (findGang s k).any fun g => g.meas then Vector.replicate 4 ⟨0, false, 0⟩ else c.pm }) (fun t c => ⟨_, rfl⟩)
    ((s.groups.filter fun g => g.gang == k).map fun g => g.core) s
  rw [h]
  exact ⟨_, _, _, rfl⟩

/-! ### The commit of a task that no other observes -/

theorem not_standing {s : State} {t : Task} (h : ∀ x ∈ s.groups, x.gang ≠ t.gang) : standing s t = false := by
  have : (s.groups.any fun g => g.gang == t.gang) = false := List.any_eq_false.mpr fun x hx => by simp [h x hx]
  simp [standing, this]

/-- A finished task that no gang stands with, no order holds back, and none observes. -/
structure Commits (s : State) (t : Task) (others : List Task) : Prop extends Finished s t others where
  left : standing s t = false
  turn : heldBack s [taskKey t] t = false
  observed : observedOf s = []
  far : ∀ m ∈ s.farMembers, m.task ≠ taskKey t

theorem Commits.groupOf_eq {s : State} {t : Task} {others : List Task} (h : Commits s t others) : groupOf s t = [taskKey t] := by
  simp [groupOf, h.observed]

theorem taskKey_inj_tid {x t : Task} (h : taskKey x = taskKey t) : x.tid = t.tid := congrArg TaskKey.tid h

theorem Finished.own {s : State} {t : Task} {others : List Task} (h : Finished s t others) :
    (s.tasks.filter fun x => [taskKey t].contains (taskKey x)) = [t] := by
  have hnone : (others.filter fun x => [taskKey t].contains (taskKey x)) = [] :=
    List.filter_eq_nil_iff.mpr fun x hx hc => h.alone x hx (taskKey_inj_tid (by simpa using hc))
  rw [h.tasks, List.filter_cons_of_pos (by simp), hnone]

theorem Commits.localGroup_eq {s : State} {t : Task} {others : List Task} (h : Commits s t others) : localGroup s t = some [t] := by
  simp only [localGroup, h.groupOf_eq, h.own]
  simp [taskReady, h.taskDone, h.left, h.turn, producersOut, h.observed]

theorem Commits.farOf_eq {s : State} {t : Task} {others : List Task} (h : Commits s t others) : farOf s [t] = [] :=
  List.filter_eq_nil_iff.mpr fun m hm hc => h.far m hm (by simpa using hc)

theorem Commits.tellFar_eq {s : State} {t : Task} {others : List Task} (h : Commits s t others) : tellFar s t = none := by
  simp [tellFar, h.localGroup_eq, h.farOf_eq]

theorem Commits.readyGroup_eq {s : State} {t : Task} {others : List Task} (h : Commits s t others) : readyGroup s t = some [t] := by
  simp [readyGroup, h.localGroup_eq, h.farOf_eq]

theorem Commits.stays {s : State} {t : Task} {others : List Task} (h : Commits s t others) : leaves s t = false := by
  simp [leaves, h.left, onItsGroup, h.gang]

theorem commitReady_single {s : State} {t : Task} (hown : (s.tasks.filter fun x => [taskKey t].contains (taskKey x)) = [t]) (hreplay : t.replay = none)
    (hstep : lockstepDiffers s t = false) : commitReady s [t] = commitTasks s [t] := by
  have hclose : closePass s t = s := by simp [closePass, hreplay]
  simp only [commitReady, List.find?_cons, hstep, List.find?_nil, List.foldl_cons, List.foldl_nil, hclose, List.map_cons, List.map_nil, hown]
  simp [morePasses, hreplay]

theorem Commits.commits {s : State} {t : Task} {others : List Task} (h : Commits s t others) (hstep : (s.parts[t.part]).lockstep = false) :
    exec (.taskCommit t.tid) s = .next (commitTasks s [t]) := by
  have hdiffers : lockstepDiffers s t = false := by simp only [lockstepDiffers, hstep, Bool.false_and]
  have hon : commitEnabled s t = true := by simp [commitEnabled, h.free, h.uncommitted, h.ended, h.readyGroup_eq]
  rw [h.toFinished.commits hon]
  simp [commitStep, h.uncommitted, h.stays, h.tellFar_eq, h.readyGroup_eq, commitReady_single h.own h.replay hdiffers]

/-! ### The version of a task becomes memory (R288) -/

/-- The bytes of one unit of a commit. -/
def unitBytes (bytes : List (Nat × Nat × W8)) (u : Nat) : List (Nat × W8) := (bytes.filter fun b => b.1 == u).map fun b => b.2

/-- One unit of a commit written. -/
def commitUnit (dep : Clk) (bytes : List (Nat × Nat × W8)) (x : State × Clk) (u : Nat) : State × Clk :=
  let q := stampUnit x.1 none 0 dep (unitBytes bytes u)
  (q.1, clkRaise x.2 q.2.1 q.2.2)

/-- A commit writes its units, and then settles write order and clocks, which hold no bytes. -/
theorem commitBytes_units (s : State) (dep : Clk) (bytes : List (Nat × Nat × W8)) : ∃ lag clks, commitBytes s dep bytes =
    { (((bytes.map fun b => b.1).eraseDups).foldl (commitUnit dep bytes) (s, dep)).1 with lag := lag, clks := clks } := ⟨_, _, rfl⟩

theorem mem_unitBytes {bytes : List (Nat × Nat × W8)} {u : Nat} {b : Nat × W8} : b ∈ unitBytes bytes u ↔ (u, b) ∈ bytes := by
  simp only [unitBytes, List.mem_map, List.mem_filter, beq_iff_eq]
  constructor
  · rintro ⟨⟨v, c⟩, ⟨hc, rfl⟩, rfl⟩
    exact hc
  · exact fun h => ⟨(u, b), ⟨h, rfl⟩, rfl⟩

theorem unitBytes_nodup {bytes : List (Nat × Nat × W8)} (h : (bytes.map fun b => b.2.1).Nodup) (u : Nat) : ((unitBytes bytes u).map Prod.fst).Nodup := by
  rw [unitBytes, List.map_map]
  exact h.sublist (List.filter_sublist.map _)

/-- Bytes outside the units written keep their values. -/
theorem memByte_units_other (dep : Clk) (bytes : List (Nat × Nat × W8)) (pa : Nat) (us : List Nat) : ∀ x : State × Clk,
    Memory.wf x.1.hbm = true → (∀ b ∈ bytes, b.1 ∈ us → b.2.1 ≠ pa) → memByte (us.foldl (commitUnit dep bytes) x).1 pa = memByte x.1 pa := by
  induction us with
  | nil => exact fun x _ _ => rfl
  | cons u us ih =>
    intro x hw hother
    have hrest := ih (commitUnit dep bytes x u) (stampUnit_wf x.1 none 0 dep _ hw) fun b hb hu => hother b hb (List.mem_cons_of_mem _ hu)
    exact hrest.trans (memByte_stamp_other x.1 none 0 dep _ pa hw fun b hb => hother (u, b) (mem_unitBytes.mp hb) (List.mem_cons_self ..))

/-- A byte of a unit written has its value, where no two bytes are written at one address. -/
theorem memByte_units_mem (dep : Clk) {bytes : List (Nat × Nat × W8)} (hn : (bytes.map fun b => b.2.1).Nodup) {b : Nat × Nat × W8} (hb : b ∈ bytes)
    (us : List Nat) : ∀ x : State × Clk, Memory.wf x.1.hbm = true → b.1 ∈ us → memByte (us.foldl (commitUnit dep bytes) x).1 b.2.1 = b.2.2 := by
  induction us with
  | nil => exact fun x _ h => nomatch h
  | cons u us ih =>
    intro x hw hu
    have hw' := stampUnit_wf x.1 none 0 dep (unitBytes bytes u) hw
    by_cases hlater : b.1 ∈ us
    · exact ih (commitUnit dep bytes x u) hw' hlater
    · obtain rfl : b.1 = u := (List.mem_cons.mp hu).resolve_right hlater
      have hkept := memByte_units_other dep bytes b.2.1 us (commitUnit dep bytes x b.1) hw' fun c hc hcu hpa =>
        hlater (List.inj_on_of_nodup_map hn hc hb hpa ▸ hcu)
      exact hkept.trans (memByte_stamp_mem x.1 none 0 dep _ hw (unitBytes_nodup hn b.1) b.2 (mem_unitBytes.mpr hb))

theorem commitBytes_form (s : State) (dep : Clk) (bytes : List (Nat × Nat × W8)) : ∃ dies hbm clks joins lag lost, commitBytes s dep bytes =
    { s with dies := dies, hbm := hbm, clks := clks, joins := joins, lag := lag, lost := lost } := by
  have fold : ∀ (us : List Nat) (x : State × Clk), ∃ dies hbm clks joins lag lost, (us.foldl (commitUnit dep bytes) x).1 =
      { x.1 with dies := dies, hbm := hbm, clks := clks, joins := joins, lag := lag, lost := lost } := by
    intro us
    induction us with
    | nil => exact fun x => ⟨x.1.dies, x.1.hbm, x.1.clks, x.1.joins, x.1.lag, x.1.lost, rfl⟩
    | cons u us ih =>
      intro x
      obtain ⟨_, _, _, _, _, _, h⟩ := stampUnit_form x.1 none 0 dep (unitBytes bytes u)
      obtain ⟨d, m, c, j, g, o, h'⟩ := ih (commitUnit dep bytes x u)
      refine ⟨d, m, c, j, g, o, h'.trans ?_⟩
      rw [show (commitUnit dep bytes x u).1 = _ from h]
  obtain ⟨lag, clks, h⟩ := commitBytes_units s dep bytes
  obtain ⟨d, m, _, j, _, o, h'⟩ := fold ((bytes.map fun b => b.1).eraseDups) (s, dep)
  exact ⟨d, m, clks, j, lag, o, by rw [h, h']⟩

theorem commitBytes_dies (s : State) (dep : Clk) (bytes : List (Nat × Nat × W8)) : DiesWrite s (commitBytes s dep bytes) := by
  have fold : ∀ (us : List Nat) (x : State × Clk), DiesWrite x.1 (us.foldl (commitUnit dep bytes) x).1 := by
    intro us
    induction us with
    | nil => exact fun x _ => rfl
    | cons u us ih => exact fun x => (stampUnit_dies x.1 none 0 dep (unitBytes bytes u)).trans (ih (commitUnit dep bytes x u))
  exact fold _ (s, dep)

/-- Each byte of a commit has its value, where no two bytes are at one address. -/
theorem memByte_commit (s : State) (dep : Clk) {bytes : List (Nat × Nat × W8)} (hw : Memory.wf s.hbm = true) (hn : (bytes.map fun b => b.2.1).Nodup)
    (pa : Nat) : memByte (commitBytes s dep bytes) pa = ((bytes.find? fun b => b.2.1 == pa).map fun b => b.2.2).getD (memByte s pa) := by
  obtain ⟨lag, clks, h⟩ := commitBytes_units s dep bytes
  rw [h]
  show memByte (((bytes.map fun b => b.1).eraseDups).foldl (commitUnit dep bytes) (s, dep)).1 pa = _
  cases hfind : bytes.find? fun b => b.2.1 == pa with
  | none => exact memByte_units_other dep bytes pa _ (s, dep) hw fun b hb _ hpa => List.find?_eq_none.mp hfind b hb (by simp [hpa])
  | some b =>
    obtain rfl : b.2.1 = pa := by simpa using List.find?_some hfind
    have hb := List.mem_of_find?_eq_some hfind
    exact memByte_units_mem dep hn hb _ (s, dep) hw (List.mem_eraseDups.mpr (List.mem_map_of_mem hb))

/-! ### The latest value of each byte (R288) -/

/-- The first of the values at each address. -/
def latest (vs : List VByte) : List VByte := vs.foldr (fun v l => v :: l.filter fun b => b.pa != v.pa) []

theorem latest_cons (v : VByte) (vs : List VByte) : latest (v :: vs) = v :: (latest vs).filter fun b => b.pa != v.pa := rfl

theorem latest_nodup (vs : List VByte) : ((latest vs).map fun v => v.pa).Nodup := by
  induction vs with
  | nil => exact List.nodup_nil
  | cons v vs ih =>
    rw [latest_cons, List.map_cons, List.nodup_cons]
    refine ⟨?_, ih.sublist (List.filter_sublist.map _)⟩
    rintro hv
    obtain ⟨b, hb, hpa⟩ := List.mem_map.mp hv
    exact absurd hpa (by simpa using (List.mem_filter.mp hb).2)

theorem latest_find (vs : List VByte) (pa : Nat) : ((latest vs).find? fun v => v.pa == pa) = vs.find? fun v => v.pa == pa := by
  induction vs with
  | nil => rfl
  | cons v vs ih =>
    rw [latest_cons]
    by_cases hv : v.pa = pa
    · rw [List.find?_cons_of_pos (by simp [hv]), List.find?_cons_of_pos (by simp [hv])]
    · rw [List.find?_cons_of_neg (by simp [hv]), List.find?_cons_of_neg (by simp [hv]), List.find?_filter, ← ih]
      congr 1
      funext b
      by_cases hb : b.pa = pa
      · simp [hb, Ne.symm hv]
      · simp [hb]

/-- The bytes that a task's commit writes, each with its unit. -/
def versionUnits (s : State) (k : TaskKey) : List (Nat × Nat × W8) := (versionCells s [k]).map fun v => (v.unit, v.pa, v.val)

theorem versionUnits_nodup (s : State) (k : TaskKey) : ((versionUnits s k).map fun b => b.2.1).Nodup := by
  rw [versionUnits, List.map_map]
  exact latest_nodup _

theorem versionUnits_find (s : State) (k : TaskKey) (pa : Nat) : (((versionUnits s k).find? fun b => b.2.1 == pa).map fun b => b.2.2) =
    (s.vbytes.find? fun y => y.task == k && y.pa == pa).map fun y => y.val := by
  have hfind := latest_find (s.vbytes.filter fun v => [k].contains v.task) pa
  rw [List.find?_filter] at hfind
  have hkeep : (fun v : VByte => decide ([k].contains v.task = true ∧ (v.pa == pa) = true)) = fun v => v.task == k && v.pa == pa := by
    funext v
    rw [Bool.eq_iff_iff]
    simp
  rw [hkeep] at hfind
  rw [versionUnits, List.find?_map, Option.map_map]
  exact congrArg (Option.map fun v => v.val) hfind

/-! ### After the commit: the gang's task ends (R366) -/

theorem dropEngineWait_form (s : State) (agent : W32) : ∃ (f : Wave → Fin 16) (es : List EngineWait) (os : List ObjEntry),
    dropEngineWait s agent = { onWaves s (fun w => { w with eprio := f w }) with engWaits := es, objs := os } := by
  simp only [dropEngineWait]
  split
  · obtain ⟨f, es, h⟩ := settlePrio_form (sweepObjs { s with engWaits := s.engWaits.filter fun e => e.agent != agent })
    rw [h]
    exact ⟨f, es, _, rfl⟩
  · exact ⟨fun w => w.eprio, s.engWaits, s.objs, by simp [onWaves]⟩

theorem checkLaunch_more {s : State} {k : Nat} {l : Launch} (hl : findLaunch s k = some l) (h : l.nextGang ≠ l.snap.gcount) : checkLaunch s k = s := by
  simp [checkLaunch, hl, h]

theorem dropGang_form (s : State) (k : GangKey) : ∃ gs, dropGang s k = { s with gangs := gs } := by
  simp only [dropGang]
  split
  · exact ⟨s.gangs, rfl⟩
  · exact ⟨_, rfl⟩

theorem filter_others {t x : Task} {others : List Task} (hid : x.tid = t.tid ∧ x.part = t.part) (halone : ∀ y ∈ others, y.tid ≠ t.tid) :
    ((x :: others).filter fun y => !(y.tid == t.tid && y.part == t.part)) = others := by
  rw [List.filter_cons_of_neg (by simp [hid])]
  exact List.filter_eq_self.mpr fun y hy => by simp [halone y hy]

/-- A gang task that has committed, of a launch with more gangs to start: its launch counts it. -/
theorem finishGang_form {s : State} {t : Task} {others : List Task} {l : Launch} (htasks : s.tasks = t :: others) (halone : ∀ x ∈ others, x.tid ≠ t.tid)
    (hl : findLaunch s t.gang.launch = some l) (hmore : l.nextGang ≠ l.snap.gcount) : ∃ gs, finishGang s t =
      { onLaunch s t.gang.launch (fun l => { l with done := l.done + 1 }) with tasks := others, gangs := gs } := by
  have hothers := filter_others (t := t) ⟨rfl, rfl⟩ halone
  rw [← htasks] at hothers
  simp only [finishGang, hothers]
  obtain ⟨gs, h⟩ := dropGang_form (onLaunch { s with tasks := others } t.gang.launch fun l => { l with done := l.done + 1 }) t.gang
  rw [h]
  have hcount := findLaunch_onLaunch s t.gang.launch (fun l => { l with done := l.done + 1 }) fun _ => rfl
  rw [hl] at hcount
  exact ⟨gs, checkLaunch_more (l := { l with done := l.done + 1 }) hcount hmore⟩

/-- An update of the head task under its own identifier leaves the others. -/
theorem onTask_head {s : State} {t x : Task} {others : List Task} (htasks : s.tasks = x :: others) (hid : x.tid = t.tid ∧ x.part = t.part)
    (halone : ∀ y ∈ others, y.tid ≠ t.tid) (f : Task → Task) : onTask s t.tid t.part f = { s with tasks := f x :: others } := by
  have hothers : (others.map fun y => if y.tid = t.tid ∧ y.part = t.part then f y else y) = others :=
    (List.map_congr_left fun y hy => if_neg fun h => halone y hy h.1).trans (List.map_id _)
  simp only [onTask, htasks, List.map_cons, hothers, hid, and_self, if_true]

theorem findTask_head {s : State} {t : Task} {others : List Task} (htasks : s.tasks = t :: others) : findTask s t.tid t.part = some t := by
  simp [findTask, htasks]

/-- Nothing that a committed task has sent is still out. -/
theorem awaitsAnswers_nothing {s : State} {t : Task} (hacks : t.acks = []) (hcopy : ∀ d : Fin 2, ∀ o ∈ s.dies[d].copyRun, o.forTask = none) :
    awaitsAnswers s t = false := by
  have hnone : ∀ d : Fin 2, (s.dies[d].copyRun.any fun o => o.forTask == some t.tid && o.who.part == t.part) = false :=
    fun d => List.any_eq_false.mpr fun o ho => by simp [hcopy d o ho]
  simp only [awaitsAnswers, hacks, List.any_cons, List.any_nil, hnone]
  rfl

/-- A committed gang task with nothing deferred and nothing out ends at once. -/
theorem settleCommitted_ends {s : State} {t : Task} {others : List Task} {l : Launch} (htasks : s.tasks = t :: others)
    (halone : ∀ x ∈ others, x.tid ≠ t.tid) (hdeferred : t.deferred = []) (hacks : t.acks = []) (hgroup : t.group = none)
    (hcopy : ∀ d : Fin 2, ∀ o ∈ s.dies[d].copyRun, o.forTask = none) (hl : findLaunch s t.gang.launch = some l) (hmore : l.nextGang ≠ l.snap.gcount) :
    ∃ (f : Wave → Fin 16) (es : List EngineWait) (os : List ObjEntry) (gs : List Gang), settleCommitted s t =
      { onLaunch (onWaves s fun w => { w with eprio := f w }) t.gang.launch (fun l => { l with done := l.done + 1 }) with
        engWaits := es, objs := os, gangs := gs, tasks := others } := by
  obtain ⟨f, es, os, hdrop⟩ := dropEngineWait_form s (commitAgent s t)
  have hsame : ({ t with deferred := [] } : Task) = t := by rw [← hdeferred]
  have hstay : ∀ u : State, u.tasks = t :: others → onTask u t.tid t.part (fun x => { x with deferred := [] }) = u := by
    intro u hu
    rw [onTask_head hu ⟨rfl, rfl⟩ halone, hsame, ← hu]
  have hu : (dropEngineWait s (commitAgent s t)).tasks = t :: others := by rw [hdrop]; exact htasks
  have hawaits : awaitsAnswers (dropEngineWait s (commitAgent s t)) t = false := awaitsAnswers_nothing hacks (by rw [hdrop]; exact hcopy)
  obtain ⟨gs, hfinish⟩ := finishGang_form (s := dropEngineWait s (commitAgent s t)) hu halone (by rw [hdrop]; exact hl) hmore
  refine ⟨f, es, os, gs, ?_⟩
  have hsettle : settleCommitted s t = finishGang (dropEngineWait s (commitAgent s t)) t := by
    simp [settleCommitted, hdeferred, sendDeferred, hstay _ hu, findTask_head hu, hawaits, hgroup]
  rw [hsettle, hfinish, hdrop]
  rfl

/-- The state in which a task has just committed: its version in memory, its versions freed, the commit counted. -/
def committedState (s : State) (t : Task) : State :=
  let s1 := commitBytes s (commitDep s [t]) (versionUnits s (taskKey t))
  onPart (onTask (freeVersions s1 [taskKey t]) t.tid t.part fun x => { x with committed := true, writes := newStamps s s1 }) t.part
    fun p => { p with commits := p.commits + 1 }

theorem commitTasks_single {s : State} {t : Task} (hreplay : t.replay = none) :
    commitTasks s [t] = ((findTask (committedState s t) t.tid t.part).map (settleCommitted (committedState s t))).getD (committedState s t) := by
  have hall : allResults [t] s = ([], s) := by simp [allResults, resultWrites, hreplay]
  simp only [commitTasks, hall, List.map_cons, List.map_nil, List.any_nil, Bool.not_false, List.filter_true, List.nil_append, List.foldl_cons, List.foldl_nil]
  rfl

/-- The versions of one task freed. -/
theorem freeVersions_form (s : State) (k : TaskKey) : ∃ lk ob vl tg sg ew fm, freeVersions s [k] =
    { s with
      links := lk, objs := ob, vlines := vl, tags := tg, signals := sg, engWaits := ew, farMembers := fm
      vbytes := s.vbytes.filter fun v => v.task != k } := by
  have hkeep : (fun v : VByte => !([k].contains v.task)) = fun v => v.task != k := by
    funext v
    rw [Bool.eq_iff_iff]
    simp
  rw [← hkeep]
  exact ⟨_, _, _, _, _, _, _, rfl⟩

/-- What the commit of a task leaves of the rest of the state. -/
theorem committedState_form {s : State} {t : Task} {others : List Task} (h : Finished s t others) : ∃ lk ob vl tg sg ew fm ws,
    committedState s t =
      { onPart (commitBytes s (commitDep s [t]) (versionUnits s (taskKey t))) t.part (fun p => { p with commits := p.commits + 1 }) with
        links := lk, objs := ob, vlines := vl, tags := tg, signals := sg, engWaits := ew, farMembers := fm
        vbytes := s.vbytes.filter fun v => v.task != taskKey t
        tasks := { t with committed := true, writes := ws } :: others } := by
  obtain ⟨_, _, _, _, _, _, hform⟩ := commitBytes_form s (commitDep s [t]) (versionUnits s (taskKey t))
  simp only [committedState]
  generalize commitBytes s (commitDep s [t]) (versionUnits s (taskKey t)) = s1 at hform ⊢
  obtain ⟨lk, ob, vl, tg, sg, ew, fm, hfree⟩ := freeVersions_form s1 (taskKey t)
  have hvbytes : s1.vbytes = s.vbytes := by rw [hform]
  have htasks : (freeVersions s1 [taskKey t]).tasks = t :: others := by
    rw [hfree, ← h.tasks, hform]
  rw [onTask_head htasks ⟨rfl, rfl⟩ h.alone, hfree, hvbytes]
  exact ⟨lk, ob, vl, tg, sg, ew, fm, newStamps s s1, rfl⟩

/-- The commit of a finished task, of a launch with more gangs to start, ends it at once. -/
theorem commitTasks_ends {s : State} {t : Task} {others : List Task} {l : Launch} (h : Finished s t others) (hdeferred : t.deferred = [])
    (hacks : t.acks = []) (hcopy : ∀ d : Fin 2, ∀ o ∈ s.dies[d].copyRun, o.forTask = none) (hl : findLaunch s t.gang.launch = some l)
    (hmore : l.nextGang ≠ l.snap.gcount) : ∃ (f : Wave → Fin 16) (es : List EngineWait) (os : List ObjEntry) (gs : List Gang), commitTasks s [t] =
      { onLaunch (onWaves (committedState s t) fun w => { w with eprio := f w }) t.gang.launch (fun l => { l with done := l.done + 1 }) with
        engWaits := es, objs := os, gangs := gs, tasks := others } := by
  obtain ⟨_, _, _, _, _, _, _, ws, hstate⟩ := committedState_form h
  obtain ⟨_, _, _, _, _, _, hform⟩ := commitBytes_form s (commitDep s [t]) (versionUnits s (taskKey t))
  have hdies := commitBytes_dies s (commitDep s [t]) (versionUnits s (taskKey t))
  have htasks : (committedState s t).tasks = { t with committed := true, writes := ws } :: others := by rw [hstate]
  have hfind : findTask (committedState s t) t.tid t.part = some { t with committed := true, writes := ws } :=
    findTask_head htasks
  have hlaunch : findLaunch (committedState s t) t.gang.launch = some l := by
    rw [hstate, hform]
    exact hl
  have hcopied : ∀ d : Fin 2, ∀ o ∈ (committedState s t).dies[d].copyRun, o.forTask = none := by
    intro d
    rw [hstate]
    show ∀ o ∈ (commitBytes s (commitDep s [t]) (versionUnits s (taskKey t))).dies[d].copyRun, o.forTask = none
    rw [hdies d]
    exact hcopy d
  rw [commitTasks_single h.replay, hfind]
  exact settleCommitted_ends htasks h.alone hdeferred hacks h.gang hcopied hlaunch hmore

/-- What the commit of a finished task leaves, memory apart. -/
theorem commitTasks_form {s : State} {t : Task} {others : List Task} {l : Launch} (h : Finished s t others) (hdeferred : t.deferred = [])
    (hacks : t.acks = []) (hcopy : ∀ d : Fin 2, ∀ o ∈ s.dies[d].copyRun, o.forTask = none) (hl : findLaunch s t.gang.launch = some l)
    (hmore : l.nextGang ≠ l.snap.gcount) : (commitTasks s [t]).tasks = others ∧
      (commitTasks s [t]).vbytes = s.vbytes.filter (fun y => y.task != taskKey t) ∧
      (∃ f : Wave → Fin 16, (commitTasks s [t]).wave = { s.wave with eprio := f s.wave } ∧
        (commitTasks s [t]).waves = s.waves.map fun w => { w with eprio := f w }) ∧
      findLaunch (commitTasks s [t]) t.gang.launch = some { l with done := l.done + 1 } ∧
      ((commitTasks s [t]).parts[t.part]).commits = (s.parts[t.part]).commits + 1 := by
  obtain ⟨f, _, _, _, hend⟩ := commitTasks_ends h hdeferred hacks hcopy hl hmore
  obtain ⟨_, _, _, _, _, _, _, _, hstate⟩ := committedState_form h
  obtain ⟨_, _, _, _, _, _, hform⟩ := commitBytes_form s (commitDep s [t]) (versionUnits s (taskKey t))
  rw [hend, hstate, hform]
  refine ⟨rfl, rfl, ⟨f, rfl, rfl⟩, ?_, ?_⟩
  · have hcount := findLaunch_onLaunch s t.gang.launch (fun l => { l with done := l.done + 1 }) fun _ => rfl
    rw [hl] at hcount
    exact hcount
  · exact congrArg Partition.commits (onPart_at s t.part fun p => { p with commits := p.commits + 1 })

/-- The version of a task becomes memory at its commit. -/
theorem memByte_commitTasks {s : State} {t : Task} {others : List Task} {l : Launch} (h : Finished s t others) (hdeferred : t.deferred = [])
    (hacks : t.acks = []) (hcopy : ∀ d : Fin 2, ∀ o ∈ s.dies[d].copyRun, o.forTask = none) (hl : findLaunch s t.gang.launch = some l)
    (hmore : l.nextGang ≠ l.snap.gcount) (hw : Memory.wf s.hbm = true) (pa : Nat) : memByte (commitTasks s [t]) pa =
      ((s.vbytes.find? fun y => y.task == taskKey t && y.pa == pa).map fun y => y.val).getD (memByte s pa) := by
  obtain ⟨f, _, _, _, hend⟩ := commitTasks_ends h hdeferred hacks hcopy hl hmore
  obtain ⟨_, _, _, _, _, _, _, _, hstate⟩ := committedState_form h
  rw [hend, hstate, ← versionUnits_find, ← memByte_commit s (commitDep s [t]) hw (versionUnits_nodup s (taskKey t))]
  rfl

/-- Settles O42: a gang is placed and then its waves start or its groups become idle; a taken task's waves start behind its marked entry; and the commit of one task writes its units, frees its version and ends it. -/
theorem Settled.gangsAndTasks : Obligations.GangsAndTasks := by
  unfold Obligations.GangsAndTasks
  intro s p q l v places g idle e slots t others
  refine ⟨fun hplace => ?_, fun hidle hhead hl hentry hafter hnew hv hslots hmay hseen => ?_,
    fun htasks halone hgroup hended huncommitted hdeferred hacks hreplay hbusy hstopped hfar hparked => ?_⟩
  · obtain ⟨hmem, hgang, htask⟩ := admitGang_starts hplace
    have hl := admitStage_place hplace
    refine ⟨_, admitGang_place hplace, hmem, hgang, htask, fun i y hy => ⟨?_, fun hserv j slot hslot => ?_⟩⟩
    · obtain ⟨a, b, hx, hb⟩ := startGang_groups v places hl (freshGroup_mem hy) rfl
      exact ⟨_, hx, rfl, rfl, rfl, rfl, rfl, rfl, rfl, rfl, hb⟩
    · exact (startGang_starts s v places hserv).2 _ (freshGroup_mem hy) j slot hslot
  · obtain ⟨hstart, hwaves⟩ := startWaves_starts l v (takenInfo l e) g slots 0 (takenState s p q l g e slots)
    have hprio := settlePrio_starts (startWaves l v (takenInfo l e) g 0 slots (takenState s p q l g e slots))
    have hrest := (hstart.trans hprio).rest
    obtain ⟨hfind, hon, hmarked⟩ := takenState_taken (l := l) (slots := slots) (p := p) (q := q) (idleGroups_mem hidle) hnew
    obtain ⟨_, _, hform⟩ := takenState_form s p q l g e slots
    refine ⟨_, taskTake_starts hidle hhead hl hentry hafter hv hslots hmay hseen, ?_, ?_, ?_, ?_, fun j slot hslot => ?_⟩
    · rw [hrest, hform]
      exact sameMemory_of_eq rfl rfl rfl
    · rw [hrest]
      exact ⟨_, hfind, rfl, rfl, takenTask_versioned p q l g hentry, rfl, rfl, rfl, beq_eq_false_iff_ne.mpr hentry⟩
    · rw [hrest]
      exact ⟨_, hon, rfl, rfl, rfl, rfl, rfl⟩
    · rw [hrest]
      exact hmarked
    · have hj := (hwaves j slot hslot).mono hprio
      rw [Nat.zero_add] at hj
      exact hj
  · have hfinished : Finished s t others := ⟨htasks, halone, hgroup, hended, huncommitted, hreplay, hbusy, hstopped, hparked⟩
    refine ⟨fun hg hk => ?_, fun hgroups hturn hobserved hlockstep hcopy hl hmore hw => ?_⟩
    · obtain ⟨_, _, _, hform⟩ := releaseCores_form s t.gang
      refine ⟨_, hfinished.releases (standing_of_group hgroup hg hk), ?_, ?_, ?_⟩
      · rw [hform]
        exact sameMemory_of_eq rfl rfl rfl
      · rw [hform]
      · rw [hform]
    · have hcommits : Commits s t others := ⟨hfinished, not_standing hgroups, hturn, hobserved, hfar⟩
      obtain ⟨hleft, hfreed, ⟨f, hwave, hwaves⟩, hcount, hparts⟩ := commitTasks_form hfinished hdeferred hacks hcopy hl hmore
      rw [← findLaunch_key hl] at hcount
      refine ⟨_, hcommits.commits hlockstep, hleft, memByte_commitTasks hfinished hdeferred hacks hcopy hl hmore hw, hfreed, ?_, ?_, hcount, hparts⟩
      · rw [hwave]
      · rw [hwaves, List.map_map]
        rfl

end Sys2Proof
end

section
/-!
SUPPORT. The fields of instruction words: what the decoder reads from a field is what the encoder writes there (R51, R52, R57, R83, R96, R150, R180, R245, R251, R301, R344).
-/

namespace Sys2Proof

/-! ### Sequences of checks -/

theorem dec_bind_ok {α β : Type} {x : Dec α} {f : α → Dec β} {b : β} : (x >>= f) = .ok b ↔ ∃ a, x = .ok a ∧ f a = .ok b := by
  cases x with
  | error e => exact ⟨fun h => (nomatch h), fun ⟨_, h, _⟩ => nomatch h⟩
  | ok a => exact ⟨fun h => ⟨a, rfl, h⟩, fun ⟨_, h, g⟩ => by cases h; exact g⟩

theorem dec_map_ok {α β : Type} {x : Dec α} {f : α → β} {b : β} : x.map f = .ok b ↔ ∃ a, x = .ok a ∧ f a = b := by
  cases x with
  | error e => exact ⟨fun h => (nomatch h), fun ⟨_, h, _⟩ => nomatch h⟩
  | ok a => exact ⟨fun h => ⟨a, rfl, Except.ok.inj h⟩, fun ⟨_, h, g⟩ => by cases h; exact congrArg _ g⟩

theorem zeroField_ok {x : Nat} {u : Unit} : zeroField x = .ok u ↔ x = 0 := by
  unfold zeroField
  split <;> simp_all

/-! ### Operands -/

theorem Src.code_lt (a : Src) : a.code < 63 := by
  cases a <;> simp only [Src.code] <;> omega

theorem Dst.code_lt (d : Dst) : d.code < 56 := by
  cases d <;> simp only [Dst.code] <;> omega

theorem Src.code_lt64 (a : Src) : a.code < 64 := Nat.lt_succ_of_lt a.code_lt

theorem Dst.code_lt64 (d : Dst) : d.code < 64 := Nat.lt_of_lt_of_le d.code_lt (by decide)

theorem Hold.code_lt (h : Hold) : h.code < 4 := by
  cases h <;> decide

theorem Src2.field_lt (b : Src2) : b.field < 4096 := by
  cases b with
  | s x => have := x.code_lt; simp only [Src2.field]; omega
  | k i => simp only [Src2.field]; omega

theorem KOp.field_lt (y : KOp) : y.field < 1024 := by
  cases y with
  | k i => simp only [KOp.field]; omega
  | imm v => have := v.isLt; simp only [KOp.field]; omega

theorem Src2.field_mod (b : Src2) : b.field % 32 = 0 := by
  cases b <;> simp only [Src2.field] <;> omega

theorem KOp.field_mod (y : KOp) : y.field % 8 = 0 := by
  cases y <;> simp only [KOp.field] <;> omega

theorem srcOf_ok {c : Nat} {a : Src} : srcOf c = .ok a ↔ c = a.code := by
  unfold srcOf
  constructor
  · intro h
    split at h
    · cases h; rfl
    split at h
    · cases h; simp only [Src.code]; omega
    split at h
    · cases h; simp only [Src.code]; omega
    repeat' split at h
    all_goals cases h
    all_goals simpa only [Src.code]
  · rintro rfl
    cases a with
    | q j => simp [Src.code]
    | n x => simp [Src.code]
    | l j => fin_cases j <;> rfl
    | lane => rfl
    | wave => rfl
    | zero => rfl
    | ones => rfl

theorem dstOf_ok {c : Nat} {d : Dst} : dstOf c = .ok d ↔ c = d.code := by
  unfold dstOf
  constructor
  · intro h
    repeat' split at h
    all_goals cases h
    all_goals simp only [Dst.code]; omega
  · rintro rfl
    cases d with
    | queue => rfl
    | n x => simp [Dst.code]

theorem kOf_ok {c : Nat} {k : KReg} : kOf c = .ok k ↔ c = k.val := by
  unfold kOf
  constructor
  · intro h
    split at h <;> cases h
    rfl
  · rintro rfl
    simp

theorem holdOf_code (h : Hold) : holdOf h.code = h := by
  cases h <;> rfl

theorem holdOf_bits_code (w : Nat) : (holdOf (bitsOf w 1 0)).code = bitsOf w 1 0 := by
  have : bitsOf w 1 0 < 4 := Nat.mod_lt _ (by decide)
  generalize bitsOf w 1 0 = c at this
  interval_cases c <;> rfl

theorem holdOf_eq {c : Nat} {h : Hold} (e : c = h.code) : holdOf c = h := by
  rw [e, holdOf_code]

/-- `f[3]` and the code beside it (R77). -/
theorem src2Of_ok {w : Nat} {y : Src2} : src2Of (bitsOf w 5 5) (bitsOf w 11 6) = .ok y ↔ w / 32 % 128 * 32 = y.field := by
  have hw : w / 32 % 128 * 32 = bitsOf w 11 6 * 64 + bitsOf w 5 5 * 32 := by simp only [bitsOf]; omega
  have hf : bitsOf w 5 5 < 2 := Nat.mod_lt _ (by decide)
  rw [hw]
  generalize bitsOf w 5 5 = f at hf
  generalize bitsOf w 11 6 = b
  unfold src2Of
  split <;> rw [dec_map_ok]
  · simp only [srcOf_ok]
    cases y with
    | s x => simp only [Src2.s.injEq, exists_eq_right, Src2.field]; omega
    | k i => simp only [reduceCtorEq, and_false, exists_false, false_iff, Src2.field]; omega
  · simp only [kOf_ok]
    cases y with
    | s x => simp only [reduceCtorEq, and_false, exists_false, false_iff, Src2.field]; omega
    | k i => simp only [Src2.k.injEq, exists_eq_right, Src2.field]; omega

theorem kopOf_ok {w : Nat} {y : KOp} : kopOf (bitsOf w 3 3) (bitsOf w 9 4) = .ok y ↔ w / 8 % 128 * 8 = y.field := by
  have hw : w / 8 % 128 * 8 = bitsOf w 9 4 * 16 + bitsOf w 3 3 * 8 := by simp only [bitsOf]; omega
  have hf : bitsOf w 3 3 < 2 := Nat.mod_lt _ (by decide)
  have hb : bitsOf w 9 4 < 64 := Nat.mod_lt _ (by decide)
  rw [hw]
  generalize bitsOf w 3 3 = f at hf
  generalize bitsOf w 9 4 = b at hb
  unfold kopOf
  split
  · rw [dec_map_ok]
    simp only [kOf_ok]
    cases y with
    | k i => simp only [KOp.k.injEq, exists_eq_right, KOp.field]; omega
    | imm v => simp only [reduceCtorEq, and_false, exists_false, false_iff, KOp.field]; omega
  · cases y with
    | k i => simp only [Except.ok.injEq, reduceCtorEq, false_iff, KOp.field]; omega
    | imm v =>
      simp only [Except.ok.injEq, KOp.imm.injEq, KOp.field, ← BitVec.toNat_inj, BitVec.toNat_ofNat]
      omega

/-! ### Codes -/

theorem CmpOp.code_lt (c : CmpOp) : c.code < 8 := by cases c <;> decide
theorem VoteOp.code_lt (o : VoteOp) : o.code < 8 := by cases o <;> decide
theorem RedOp.code_lt (o : RedOp) : o.code < 8 := by cases o <;> decide
theorem AtomOp.code_lt (o : AtomOp) : o.code < 8 := by cases o <;> decide
theorem Scope.code_lt (s : Scope) : s.code < 8 := by cases s <;> decide
theorem FenceOrder.code_lt (o : FenceOrder) : o.code < 4 := by cases o <;> decide
theorem FlightPath.code_lt (p : FlightPath) : p.code < 4 := by cases p <;> decide
theorem TileFill.code_lt (f : TileFill) : f.code < 4 := by cases f <;> decide
theorem ElemSize.code_lt (e : ElemSize) : e.code < 8 := by cases e <;> decide
theorem SpecialReg.code_lt (r : SpecialReg) : r.code < 25 := by cases r <;> decide
theorem bit_lt (b : Bool) : bit b < 2 := by cases b <;> decide

theorem bit_decide {n : Nat} (h : n < 2) : bit (decide (n = 1)) = n := by
  interval_cases n <;> rfl

theorem decide_bit (b : Bool) : decide (bit b = 1) = b := by
  cases b <;> rfl

theorem cmpOf_code (c : CmpOp) : cmpOf c.code = c := by
  cases c <;> rfl

theorem code_cmpOf {n : Nat} (h : n < 8) : (cmpOf n).code = n := by
  interval_cases n <;> rfl

theorem pathOf_code (p : FlightPath) : pathOf p.code = p := by
  cases p <;> rfl

theorem code_pathOf {n : Nat} (h : n < 4) : (pathOf n).code = n := by
  interval_cases n <;> rfl

theorem voteOf_ok {n : Nat} {o : VoteOp} : voteOf n = .ok o ↔ n = o.code := by
  refine ⟨fun h => ?_, fun h => by subst h; cases o <;> rfl⟩
  unfold voteOf at h
  split at h <;> cases h <;> rfl

theorem redOf_ok {n : Nat} {o : RedOp} : redOf n = .ok o ↔ n = o.code := by
  refine ⟨fun h => ?_, fun h => by subst h; cases o <;> rfl⟩
  unfold redOf at h
  split at h <;> cases h <;> rfl

theorem atomOf_ok {n : Nat} {o : AtomOp} : atomOf n = .ok o ↔ n = o.code := by
  refine ⟨fun h => ?_, fun h => by subst h; cases o <;> rfl⟩
  unfold atomOf at h
  split at h <;> cases h <;> rfl

theorem scopeOf_ok {n : Nat} {x : Scope} : scopeOf n = .ok x ↔ n = x.code := by
  refine ⟨fun h => ?_, fun h => by subst h; cases x <;> rfl⟩
  unfold scopeOf at h
  split at h <;> cases h <;> rfl

theorem fenceOrderOf_ok {n : Nat} {o : FenceOrder} : fenceOrderOf n = .ok o ↔ n = o.code := by
  refine ⟨fun h => ?_, fun h => by subst h; cases o <;> rfl⟩
  unfold fenceOrderOf at h
  split at h <;> cases h <;> rfl

theorem fillOf_ok {n : Nat} {f : TileFill} : fillOf n = .ok f ↔ n = f.code := by
  refine ⟨fun h => ?_, fun h => by subst h; cases f <;> rfl⟩
  unfold fillOf at h
  split at h <;> cases h <;> rfl

theorem esizeOf_ok {n : Nat} {e : ElemSize} : esizeOf n = .ok e ↔ n = e.code := by
  refine ⟨fun h => ?_, fun h => by subst h; cases e <;> rfl⟩
  unfold esizeOf at h
  split at h <;> cases h <;> rfl

theorem srOf_ok {n : Nat} {r : SpecialReg} : srOf n = .ok r ↔ n = r.code := by
  refine ⟨fun h => ?_, fun h => by subst h; cases r <;> rfl⟩
  unfold srOf at h
  split at h <;> cases h <;> rfl

end Sys2Proof
end

section
/-!
SUPPORT. Formats of instruction words (R76 to R82): what each format's decoder accepts is what its encoder writes.
-/

namespace Sys2Proof

/-! ### The fields of an encoded word -/

theorem encTwo_fields {w n f : Nat} {d : Dst} {a : Src} {b : Src2} {h : Hold} (hf : f < 8) :
    w = encTwo n d a b f h ↔ w / 16777216 = n ∧ bitsOf w 23 18 = d.code ∧ bitsOf w 17 12 = a.code ∧ w / 32 % 128 * 32 = b.field ∧
      bitsOf w 4 2 = f ∧ bitsOf w 1 0 = h.code := by
  have := d.code_lt; have := a.code_lt; have := b.field_lt; have := b.field_mod; have := h.code_lt
  simp only [encTwo, bitsOf]
  omega

theorem encOne_fields {w n f : Nat} {d : Dst} {a : Src} {h : Hold} (hf : f < 8) :
    w = encOne n d a f h ↔ w / 16777216 = n ∧ bitsOf w 23 18 = d.code ∧ bitsOf w 17 12 = a.code ∧ bitsOf w 11 5 = 0 ∧
      bitsOf w 4 2 = f ∧ bitsOf w 1 0 = h.code := by
  have := d.code_lt; have := a.code_lt; have := h.code_lt
  simp only [encOne, bitsOf]
  omega

theorem encFour_fields {w n d a b c : Nat} (hd : d < 64) (ha : a < 64) (hb : b < 64) (hc : c < 64) :
    w = encFour n d a b c ↔ w / 16777216 = n ∧ bitsOf w 23 18 = d ∧ bitsOf w 17 12 = a ∧ bitsOf w 11 6 = b ∧ bitsOf w 5 0 = c := by
  simp only [encFour, bitsOf]
  omega

theorem encBranch_fields {w n c : Nat} {o : BitVec 20} (hc : c < 16) :
    w = encBranch n c o ↔ w / 16777216 = n ∧ bitsOf w 23 20 = c ∧ bitsOf w 19 0 = o.toNat := by
  have := o.isLt
  simp only [encBranch, bitsOf]
  omega

theorem encSys_fields {w n code a b f : Nat} (hcode : code < 256) (ha : a < 64) (hb : b < 64) (hf : f < 16) :
    w = encSys n code a b f ↔
      w / 16777216 = n ∧ bitsOf w 23 16 = code ∧ bitsOf w 15 10 = a ∧ bitsOf w 9 4 = b ∧ bitsOf w 3 0 = f := by
  simp only [encSys, bitsOf]
  omega

theorem encUni_fields {w n f : Nat} {d a : KReg} {y : KOp} (hf : f < 8) :
    w = encUni n d a y f ↔
      w / 16777216 = n ∧ bitsOf w 23 16 = d.val ∧ bitsOf w 15 10 = a.val ∧ w / 8 % 128 * 8 = y.field ∧ bitsOf w 2 0 = f := by
  have := y.field_lt; have := y.field_mod
  simp only [encUni, bitsOf]
  omega

/-! ### Formats -/

/-- A format: its decoder accepts the words that its encoder writes for an opcode and operands `x`, and no other. -/
structure Reads {α : Type} (dec : Nat → Dec Instr) (mk : α → Instr) (enc : Nat → α → Nat) : Prop where
  accepts : ∀ n x, dec (enc n x) = .ok (mk x)
  only : ∀ w i, dec w = .ok i → ∃ x, i = mk x ∧ w = enc (w / 16777216) x
  opcode : ∀ n x, enc n x / 16777216 = n

/-- F0 with two sources and a function value (R77). -/
theorem decTwoF_reads (mk : Dst → Src → Src2 → Nat → Hold → Instr) :
    Reads (decTwoF mk) (fun x : Dst × Src × Src2 × Fin 8 × Hold => mk x.1 x.2.1 x.2.2.1 x.2.2.2.1 x.2.2.2.2)
      (fun n x => encTwo n x.1 x.2.1 x.2.2.1 x.2.2.2.1 x.2.2.2.2) where
  accepts n := fun ⟨d, a, b, f, h⟩ => by
    obtain ⟨_, hd, ha, hb, hf, hh⟩ := (encTwo_fields f.isLt).1 (Eq.refl (encTwo n d a b f h))
    simp only [decTwoF, dec_bind_ok, dstOf_ok, srcOf_ok, src2Of_ok]
    exact ⟨d, hd, a, ha, b, hb, by rw [hf, hh, holdOf_code]⟩
  only w i e := by
    simp only [decTwoF, dec_bind_ok, dstOf_ok, srcOf_ok, src2Of_ok, Except.ok.injEq] at e
    obtain ⟨d, hd, a, ha, b, hb, rfl⟩ := e
    have hf : bitsOf w 4 2 < 8 := Nat.mod_lt _ (by decide)
    exact ⟨⟨d, a, b, ⟨_, hf⟩, holdOf (bitsOf w 1 0)⟩, rfl, (encTwo_fields hf).2 ⟨rfl, hd, ha, hb, rfl, (holdOf_bits_code w).symm⟩⟩
  opcode n x := ((encTwo_fields x.2.2.2.1.isLt).1 rfl).1

/-- F0 with two sources (R77). -/
theorem decTwo_reads (mk : Dst → Src → Src2 → Hold → Instr) :
    Reads (decTwo mk) (fun x : Dst × Src × Src2 × Hold => mk x.1 x.2.1 x.2.2.1 x.2.2.2)
      (fun n x => encTwo n x.1 x.2.1 x.2.2.1 0 x.2.2.2) where
  accepts n := fun ⟨d, a, b, h⟩ => by
    obtain ⟨_, hd, ha, hb, hf, hh⟩ := (encTwo_fields (by decide)).1 (Eq.refl (encTwo n d a b 0 h))
    simp only [decTwo, dec_bind_ok, dstOf_ok, srcOf_ok, src2Of_ok, zeroField_ok]
    exact ⟨d, hd, a, ha, (), hf, b, hb, by rw [hh, holdOf_code]⟩
  only w i e := by
    simp only [decTwo, dec_bind_ok, dstOf_ok, srcOf_ok, src2Of_ok, zeroField_ok, Except.ok.injEq] at e
    obtain ⟨d, hd, a, ha, _, hf, b, hb, rfl⟩ := e
    exact ⟨⟨d, a, b, holdOf (bitsOf w 1 0)⟩, rfl, (encTwo_fields (by decide)).2 ⟨rfl, hd, ha, hb, hf, (holdOf_bits_code w).symm⟩⟩
  opcode n x := ((encTwo_fields (by decide)).1 rfl).1

/-- F0 with one source and a code in its function value (R77, R96). -/
theorem decOneF_reads {β : Type} {of : Nat → Dec β} {code : β → Nat} (hof : ∀ {n o}, of n = .ok o ↔ n = code o) (hlt : ∀ o, code o < 8)
    (mk : Dst → Src → β → Hold → Instr) :
    Reads (fun w => decOneF (fun d a h => (of (bitsOf w 4 2)).map fun o => mk d a o h) w)
      (fun x : Dst × Src × β × Hold => mk x.1 x.2.1 x.2.2.1 x.2.2.2) (fun n x => encOne n x.1 x.2.1 (code x.2.2.1) x.2.2.2) where
  accepts n := fun ⟨d, a, o, h⟩ => by
    obtain ⟨_, hd, ha, hz, hf, hh⟩ := (encOne_fields (hlt o)).1 (Eq.refl (encOne n d a (code o) h))
    simp only [decOneF, dec_bind_ok, dec_map_ok, dstOf_ok, srcOf_ok, zeroField_ok, hof]
    exact ⟨d, hd, a, ha, (), hz, o, hf, by rw [hh, holdOf_code]⟩
  only w i e := by
    simp only [decOneF, dec_bind_ok, dec_map_ok, dstOf_ok, srcOf_ok, zeroField_ok, hof] at e
    obtain ⟨d, hd, a, ha, _, hz, o, hf, rfl⟩ := e
    exact ⟨⟨d, a, o, holdOf (bitsOf w 1 0)⟩, rfl, (encOne_fields (hlt o)).2 ⟨rfl, hd, ha, hz, hf, (holdOf_bits_code w).symm⟩⟩
  opcode n x := ((encOne_fields (hlt _)).1 rfl).1

/-- F0 with one source (R77). -/
theorem decOne_reads (mk : Dst → Src → Hold → Instr) :
    Reads (decOne mk) (fun x : Dst × Src × Hold => mk x.1 x.2.1 x.2.2) (fun n x => encOne n x.1 x.2.1 0 x.2.2) where
  accepts n := fun ⟨d, a, h⟩ => by
    obtain ⟨_, hd, ha, hz, hf, hh⟩ := (encOne_fields (by decide)).1 (Eq.refl (encOne n d a 0 h))
    simp only [decOne, dec_bind_ok, dstOf_ok, srcOf_ok, zeroField_ok]
    exact ⟨d, hd, a, ha, (), by simp only [bitsOf] at *; omega, by rw [hh, holdOf_code]⟩
  only w i e := by
    simp only [decOne, dec_bind_ok, dstOf_ok, srcOf_ok, zeroField_ok, Except.ok.injEq] at e
    obtain ⟨d, hd, a, ha, _, hz, rfl⟩ := e
    refine ⟨⟨d, a, holdOf (bitsOf w 1 0)⟩, rfl, (encOne_fields (by decide)).2 ⟨rfl, hd, ha, ?_, ?_, (holdOf_bits_code w).symm⟩⟩ <;>
      (simp only [bitsOf] at *; omega)
  opcode n x := ((encOne_fields (by decide)).1 rfl).1

/-- F0 that names a destination alone (R77). -/
def decDst (mk : Dst → Hold → Instr) (w : Nat) : Dec Instr := do
  let d ← dstOf (bitsOf w 23 18)
  zeroField (bitsOf w 17 2)
  .ok (mk d (holdOf (bitsOf w 1 0)))

theorem decDst_reads (mk : Dst → Hold → Instr) :
    Reads (decDst mk) (fun x : Dst × Hold => mk x.1 x.2) (fun n x => encFour n x.1.code 0 0 x.2.code) where
  accepts n := fun ⟨d, h⟩ => by
    have hh := h.code_lt
    obtain ⟨_, hd, ha, hb, hc⟩ := (encFour_fields d.code_lt64 (by decide) (by decide) (by omega)).1 (Eq.refl (encFour n d.code 0 0 h.code))
    simp only [decDst, dec_bind_ok, dstOf_ok, zeroField_ok]
    exact ⟨d, hd, (), by simp only [bitsOf] at *; omega, by rw [holdOf_eq (h := h) (by simp only [bitsOf] at *; omega)]⟩
  only w i e := by
    simp only [decDst, dec_bind_ok, dstOf_ok, zeroField_ok, Except.ok.injEq] at e
    obtain ⟨d, hd, _, hz, rfl⟩ := e
    have hh := (holdOf (bitsOf w 1 0)).code_lt
    refine ⟨⟨d, holdOf (bitsOf w 1 0)⟩, rfl, ?_⟩
    show w = encFour _ d.code 0 0 (holdOf (bitsOf w 1 0)).code
    refine (encFour_fields d.code_lt64 (by decide) (by decide) (by omega)).2 ⟨rfl, hd, ?_⟩
    simp only [holdOf_bits_code]
    simp only [bitsOf] at *
    omega
  opcode n x := by
    have := x.2.code_lt
    exact ((encFour_fields x.1.code_lt64 (by decide) (by decide) (by omega)).1 rfl).1

/-- F1 with three sources (R78). -/
theorem decThree_reads (mk : Dst → Src → Src → Src → Instr) :
    Reads (decThree mk) (fun x : Dst × Src × Src × Src => mk x.1 x.2.1 x.2.2.1 x.2.2.2)
      (fun n x => encFour n x.1.code x.2.1.code x.2.2.1.code x.2.2.2.code) where
  accepts n := fun ⟨d, a, b, c⟩ => by
    obtain ⟨_, hd, ha, hb, hc⟩ := (encFour_fields d.code_lt64 a.code_lt64 b.code_lt64 c.code_lt64).1
      (Eq.refl (encFour n d.code a.code b.code c.code))
    simp only [decThree, dec_bind_ok, dstOf_ok, srcOf_ok]
    exact ⟨d, hd, a, ha, b, hb, c, hc, rfl⟩
  only w i e := by
    simp only [decThree, dec_bind_ok, dstOf_ok, srcOf_ok, Except.ok.injEq] at e
    obtain ⟨d, hd, a, ha, b, hb, c, hc, rfl⟩ := e
    exact ⟨⟨d, a, b, c⟩, rfl, (encFour_fields d.code_lt64 a.code_lt64 b.code_lt64 c.code_lt64).2 ⟨rfl, hd, ha, hb, hc⟩⟩
  opcode n x := ((encFour_fields x.1.code_lt64 x.2.1.code_lt64 x.2.2.1.code_lt64 x.2.2.2.code_lt64).1 rfl).1

/-- F1 of the memory instructions with a destination (R251). -/
theorem decMemD_reads (mk : Dst → Src → Src → KReg → Instr) :
    Reads (decMemD mk) (fun x : Dst × Src × Src × KReg => mk x.1 x.2.1 x.2.2.1 x.2.2.2)
      (fun n x => encFour n x.1.code x.2.1.code x.2.2.1.code x.2.2.2.val) where
  accepts n := fun ⟨d, a, b, c⟩ => by
    obtain ⟨_, hd, ha, hb, hc⟩ := (encFour_fields d.code_lt64 a.code_lt64 b.code_lt64 (by omega)).1
      (Eq.refl (encFour n d.code a.code b.code c.val))
    simp only [decMemD, dec_bind_ok, dstOf_ok, srcOf_ok, kOf_ok]
    exact ⟨d, hd, a, ha, b, hb, c, hc, rfl⟩
  only w i e := by
    simp only [decMemD, dec_bind_ok, dstOf_ok, srcOf_ok, kOf_ok, Except.ok.injEq] at e
    obtain ⟨d, hd, a, ha, b, hb, c, hc, rfl⟩ := e
    exact ⟨⟨d, a, b, c⟩, rfl, (encFour_fields d.code_lt64 a.code_lt64 b.code_lt64 (by omega)).2 ⟨rfl, hd, ha, hb, hc⟩⟩
  opcode n x := ((encFour_fields x.1.code_lt64 x.2.1.code_lt64 x.2.2.1.code_lt64 (by omega)).1 rfl).1

/-- F1 of the memory instructions without a destination (R251). -/
theorem decMem_reads (mk : Src → Src → KReg → Instr) :
    Reads (decMem mk) (fun x : Src × Src × KReg => mk x.1 x.2.1 x.2.2) (fun n x => encFour n 0 x.1.code x.2.1.code x.2.2.val) where
  accepts n := fun ⟨a, b, c⟩ => by
    obtain ⟨_, hd, ha, hb, hc⟩ := (encFour_fields (by decide) a.code_lt64 b.code_lt64 (by omega)).1
      (Eq.refl (encFour n 0 a.code b.code c.val))
    simp only [decMem, dec_bind_ok, zeroField_ok, srcOf_ok, kOf_ok]
    exact ⟨(), hd, a, ha, b, hb, c, hc, rfl⟩
  only w i e := by
    simp only [decMem, dec_bind_ok, zeroField_ok, srcOf_ok, kOf_ok, Except.ok.injEq] at e
    obtain ⟨_, hd, a, ha, b, hb, c, hc, rfl⟩ := e
    exact ⟨⟨a, b, c⟩, rfl, (encFour_fields (by decide) a.code_lt64 b.code_lt64 (by omega)).2 ⟨rfl, hd, ha, hb, hc⟩⟩
  opcode n x := ((encFour_fields (by decide) x.1.code_lt64 x.2.1.code_lt64 (by omega)).1 rfl).1

theorem guardOf_eq {n : Nat} {c : Guard} (h : n = c.toNat) : guardOf n = c := by
  rw [h, guardOf, BitVec.ofNat_toNat, BitVec.setWidth_eq]

theorem guardOf_toNat {n : Nat} (h : n < 16) : (guardOf n).toNat = n := by
  rw [guardOf, BitVec.toNat_ofNat, Nat.mod_eq_of_lt h]

/-- F3 with a condition (R80). -/
theorem decCond_reads (mk : Guard → BitVec 20 → Instr) :
    Reads (decCond mk) (fun x : Guard × BitVec 20 => mk x.1 x.2) (fun n x => encBranch n x.1.toNat x.2) where
  accepts n := fun ⟨c, o⟩ => by
    obtain ⟨_, hc, ho⟩ := (encBranch_fields c.isLt).1 (Eq.refl (encBranch n c.toNat o))
    simp only [decCond]
    rw [guardOf_eq hc, ho, BitVec.ofNat_toNat, BitVec.setWidth_eq]
  only w i e := by
    simp only [decCond, Except.ok.injEq] at e
    subst e
    refine ⟨⟨guardOf (bitsOf w 23 20), BitVec.ofNat 20 (bitsOf w 19 0)⟩, rfl, (encBranch_fields (BitVec.isLt _)).2 ⟨rfl, ?_, ?_⟩⟩
    · exact (guardOf_toNat (Nat.mod_lt _ (by decide))).symm
    · rw [BitVec.toNat_ofNat]
      exact (Nat.mod_eq_of_lt (Nat.mod_lt _ (by decide))).symm
  opcode n x := ((encBranch_fields x.1.isLt).1 rfl).1

/-- F3 without a condition (R80). -/
theorem decJump_reads (mk : BitVec 20 → Instr) : Reads (decJump mk) mk (fun n o => encBranch n 0 o) where
  accepts n o := by
    obtain ⟨_, hc, ho⟩ := (encBranch_fields (by decide)).1 (Eq.refl (encBranch n 0 o))
    simp only [decJump, dec_bind_ok, zeroField_ok]
    exact ⟨(), hc, by rw [ho, BitVec.ofNat_toNat, BitVec.setWidth_eq]⟩
  only w i e := by
    simp only [decJump, dec_bind_ok, zeroField_ok, Except.ok.injEq] at e
    obtain ⟨_, hc, rfl⟩ := e
    refine ⟨BitVec.ofNat 20 (bitsOf w 19 0), rfl, (encBranch_fields (by decide)).2 ⟨rfl, hc, ?_⟩⟩
    rw [BitVec.toNat_ofNat]
    exact (Nat.mod_eq_of_lt (Nat.mod_lt _ (by decide))).symm
  opcode n x := ((encBranch_fields (by decide)).1 rfl).1

/-- F4 without operands (R81). -/
theorem decBare_reads (i : Instr) : Reads (decBare i) (fun _ : Unit => i) (fun n _ => encSys n 0 0 0 0) where
  accepts n _ := by
    simp only [decBare, dec_bind_ok, zeroField_ok, encSys]
    exact ⟨(), by simp only [bitsOf]; omega, trivial⟩
  only w j e := by
    simp only [decBare, dec_bind_ok, zeroField_ok, Except.ok.injEq] at e
    obtain ⟨_, hz, rfl⟩ := e
    refine ⟨(), rfl, (encSys_fields (by decide) (by decide) (by decide) (by decide)).2 ⟨rfl, ?_⟩⟩
    simp only [bitsOf] at *
    omega
  opcode n x := by simp only [encSys]; omega

/-- F4 with uniform registers in a and b (R81). -/
theorem decKK_reads (mk : KReg → KReg → Instr) :
    Reads (decKK mk) (fun x : KReg × KReg => mk x.1 x.2) (fun n x => encSys n 0 x.1.val x.2.val 0) where
  accepts n := fun ⟨a, b⟩ => by
    obtain ⟨_, hz, ha, hb, hf⟩ := (encSys_fields (by decide) (by omega) (by omega) (by decide)).1 (Eq.refl (encSys n 0 a.val b.val 0))
    simp only [decKK, dec_bind_ok, zeroField_ok, kOf_ok]
    exact ⟨(), hz, a, ha, b, hb, (), hf, rfl⟩
  only w i e := by
    simp only [decKK, dec_bind_ok, zeroField_ok, kOf_ok, Except.ok.injEq] at e
    obtain ⟨_, hz, a, ha, b, hb, _, hf, rfl⟩ := e
    exact ⟨⟨a, b⟩, rfl, (encSys_fields (by decide) (by omega) (by omega) (by decide)).2 ⟨rfl, hz, ha, hb, hf⟩⟩
  opcode n x := ((encSys_fields (by decide) (by omega) (by omega) (by decide)).1 rfl).1

/-- F4 with a code of some bits and a uniform register in a (R81). -/
theorem decCodeK_reads (bits : Nat) (hbits : 0 < bits ∧ bits ≤ 8) (mk : Nat → KReg → Instr) :
    Reads (decCodeK bits mk) (fun x : Fin (2 ^ bits) × KReg => mk x.1 x.2) (fun n x => encSys n x.1.val x.2.val 0 0) where
  accepts n := fun ⟨c, a⟩ => by
    have hc : c.val < 2 ^ bits := c.isLt
    have hle : 2 ^ bits ≤ 2 ^ 8 := Nat.pow_le_pow_right (by decide) hbits.2
    obtain ⟨_, hcode, ha, hb, hf⟩ := (encSys_fields (by omega) (by omega) (by decide) (by decide)).1 (Eq.refl (encSys n c.val a.val 0 0))
    simp only [decCodeK, dec_bind_ok, zeroField_ok, kOf_ok, Except.ok.injEq]
    generalize encSys n c.val a.val 0 0 = w at *
    obtain ⟨h0, h8⟩ := hbits
    refine ⟨(), ?_, a, ha, (), ?_, ?_⟩
    · interval_cases bits <;> (simp only [bitsOf] at *; omega)
    · simp only [bitsOf] at *; omega
    · congr 1
      interval_cases bits <;> (simp only [bitsOf] at *; omega)
  only w i e := by
    simp only [decCodeK, dec_bind_ok, zeroField_ok, kOf_ok, Except.ok.injEq] at e
    obtain ⟨_, hz, a, ha, _, hb, rfl⟩ := e
    have hc : bitsOf w (15 + bits) 16 < 2 ^ bits := by
      have : 15 + bits + 1 - 16 = bits := by omega
      simpa only [bitsOf, this] using Nat.mod_lt (w / 2 ^ 16) (Nat.two_pow_pos bits)
    have hle : 2 ^ bits ≤ 2 ^ 8 := Nat.pow_le_pow_right (by decide) hbits.2
    refine ⟨⟨⟨_, hc⟩, a⟩, rfl, (encSys_fields (by simp only; omega) (by omega) (by decide) (by decide)).2 ⟨rfl, ?_, ha, ?_⟩⟩
    · show bitsOf w 23 16 = bitsOf w (15 + bits) 16
      obtain ⟨h0, h8⟩ := hbits
      clear hc hle
      interval_cases bits <;> simp only [bitsOf] at * <;> omega
    · simp only [bitsOf] at *; omega
  opcode n x := by
    have hle : 2 ^ bits ≤ 2 ^ 8 := Nat.pow_le_pow_right (by decide) hbits.2
    exact ((encSys_fields (by omega) (by omega) (by decide) (by decide)).1 rfl).1

/-- F4 with one uniform register in a (R81). -/
theorem decK_reads (mk : KReg → Instr) : Reads (decK mk) mk (fun n a => encSys n 0 a.val 0 0) where
  accepts n a := by
    obtain ⟨_, hz, ha, hb, hf⟩ := (encSys_fields (by decide) (by omega) (by decide) (by decide)).1 (Eq.refl (encSys n 0 a.val 0 0))
    simp only [decK, dec_bind_ok, zeroField_ok, kOf_ok]
    exact ⟨(), hz, a, ha, (), by simp only [bitsOf] at *; omega, rfl⟩
  only w i e := by
    simp only [decK, dec_bind_ok, zeroField_ok, kOf_ok, Except.ok.injEq] at e
    obtain ⟨_, hz, a, ha, _, hb, rfl⟩ := e
    refine ⟨a, rfl, (encSys_fields (by decide) (by omega) (by decide) (by decide)).2 ⟨rfl, hz, ha, ?_⟩⟩
    simp only [bitsOf] at *
    omega
  opcode n x := ((encSys_fields (by decide) (by omega) (by decide) (by decide)).1 rfl).1

/-- F4 of the two-operand uniform instructions without a function value (R180). -/
theorem decUni_reads (mk : KReg → KReg → KOp → Instr) :
    Reads (decUni (fun d a y _ => mk d a y) false) (fun x : KReg × KReg × KOp => mk x.1 x.2.1 x.2.2)
      (fun n x => encUni n x.1 x.2.1 x.2.2 0) where
  accepts n := fun ⟨d, a, y⟩ => by
    obtain ⟨_, hd, ha, hy, hf⟩ := (encUni_fields (by decide)).1 (Eq.refl (encUni n d a y 0))
    simp only [decUni, dec_bind_ok, zeroField_ok, kOf_ok, kopOf_ok, Bool.false_eq_true, if_false]
    exact ⟨d, hd, a, ha, y, hy, (), hf, rfl⟩
  only w i e := by
    simp only [decUni, dec_bind_ok, zeroField_ok, kOf_ok, kopOf_ok, Bool.false_eq_true, if_false, Except.ok.injEq] at e
    obtain ⟨d, hd, a, ha, y, hy, _, hf, rfl⟩ := e
    exact ⟨⟨d, a, y⟩, rfl, (encUni_fields (by decide)).2 ⟨rfl, hd, ha, hy, hf⟩⟩
  opcode n x := ((encUni_fields (by decide)).1 rfl).1

/-- F4 of the two-operand uniform instructions with a function value (R180, R181). -/
theorem decUniF_reads (mk : KReg → KReg → KOp → Nat → Instr) :
    Reads (decUni mk true) (fun x : KReg × KReg × KOp × Fin 8 => mk x.1 x.2.1 x.2.2.1 x.2.2.2)
      (fun n x => encUni n x.1 x.2.1 x.2.2.1 x.2.2.2) where
  accepts n := fun ⟨d, a, y, f⟩ => by
    obtain ⟨_, hd, ha, hy, hf⟩ := (encUni_fields f.isLt).1 (Eq.refl (encUni n d a y f))
    simp only [decUni, dec_bind_ok, zeroField_ok, kOf_ok, kopOf_ok]
    exact ⟨d, hd, a, ha, y, hy, (), rfl, by rw [hf]⟩
  only w i e := by
    simp only [decUni, dec_bind_ok, zeroField_ok, kOf_ok, kopOf_ok, Except.ok.injEq] at e
    obtain ⟨d, hd, a, ha, y, hy, _, _, rfl⟩ := e
    have hf : bitsOf w 2 0 < 8 := Nat.mod_lt _ (by decide)
    exact ⟨⟨d, a, y, ⟨_, hf⟩⟩, rfl, (encUni_fields hf).2 ⟨rfl, hd, ha, hy, rfl⟩⟩
  opcode n x := ((encUni_fields x.2.2.2.isLt).1 rfl).1

theorem preg_eq {n : Nat} {p : PReg} (h : n = p.val) : preg n = p := by
  rw [h, preg, Fin.ofNat_val_eq_self]

theorem preg_val {n : Nat} (h : n < 8) : (preg n).val = n := Nat.mod_eq_of_lt h

/-- F4 of PAND and POR (R169). -/
theorem decPred2_reads (mk : PReg → Guard → Guard → Instr) :
    Reads (decPred2 mk) (fun x : PReg × Guard × Guard => mk x.1 x.2.1 x.2.2)
      (fun n x => encSys n x.1.val x.2.1.toNat x.2.2.toNat 0) where
  accepts n := fun ⟨p, g1, g2⟩ => by
    have h1 := g1.isLt; have h2 := g2.isLt
    obtain ⟨_, hp, hg1, hg2, hf⟩ := (encSys_fields (by omega) (by omega) (by omega) (by decide)).1
      (Eq.refl (encSys n p.val g1.toNat g2.toNat 0))
    simp only [decPred2, dec_bind_ok, zeroField_ok]
    generalize encSys n p.val g1.toNat g2.toNat 0 = w at *
    refine ⟨(), ?_, (), ?_, (), ?_, (), hf, ?_⟩
    · simp only [bitsOf] at *; omega
    · simp only [bitsOf] at *; omega
    · simp only [bitsOf] at *; omega
    · rw [preg_eq (p := p), guardOf_eq (c := g1), guardOf_eq (c := g2)] <;> (simp only [bitsOf] at *; omega)
  only w i e := by
    simp only [decPred2, dec_bind_ok, zeroField_ok, Except.ok.injEq] at e
    obtain ⟨_, h1, _, h2, _, h3, _, hf, rfl⟩ := e
    refine ⟨⟨preg (bitsOf w 18 16), guardOf (bitsOf w 13 10), guardOf (bitsOf w 7 4)⟩, rfl, ?_⟩
    show w = encSys _ (preg _).val (guardOf _).toNat (guardOf _).toNat 0
    rw [preg_val (n := bitsOf w 18 16) (Nat.mod_lt _ (by decide)), guardOf_toNat (n := bitsOf w 13 10) (Nat.mod_lt _ (by decide)),
      guardOf_toNat (n := bitsOf w 7 4) (Nat.mod_lt _ (by decide))]
    simp only [encSys, bitsOf] at *
    omega
  opcode n x := by
    have h1 := x.2.1.isLt; have h2 := x.2.2.isLt
    exact ((encSys_fields (by omega) (by omega) (by omega) (by decide)).1 rfl).1

end Sys2Proof
end

section
/-!
SUPPORT. The rows of the opcode map whose fields no other row shares (R94): what each decodes is what the encoder writes for it.
-/

namespace Sys2Proof

/-! ### Control, mode and literals -/

/-- TRAP (R202). -/
theorem trap_reads : Reads (dec0 15) (fun x : Fin 8 × Src => .trap x.1 x.2) (fun n x => encSys n x.1.val x.2.code 0 0) where
  accepts n := fun ⟨p, a⟩ => by
    obtain ⟨_, hp, ha, hb, hf⟩ := (encSys_fields (by omega) a.code_lt64 (by decide) (by decide)).1 (Eq.refl (encSys n p.val a.code 0 0))
    simp only [dec0, dec_bind_ok, zeroField_ok, srcOf_ok, Except.ok.injEq, Instr.trap.injEq]
    refine ⟨(), ?_, a, ha, (), ?_, ?_, rfl⟩
    · simp only [bitsOf] at *; omega
    · simp only [bitsOf] at *; omega
    · exact preg_eq (by simp only [bitsOf] at *; omega)
  only w i e := by
    simp only [dec0, dec_bind_ok, zeroField_ok, srcOf_ok, Except.ok.injEq] at e
    obtain ⟨_, hp, a, ha, _, hb, rfl⟩ := e
    refine ⟨⟨preg (bitsOf w 18 16), a⟩, rfl, ?_⟩
    show w = encSys _ (preg _).val a.code 0 0
    rw [preg_val (n := bitsOf w 18 16) (Nat.mod_lt _ (by decide))]
    simp only [encSys, bitsOf] at *
    omega
  opcode n x := ((encSys_fields (by omega) x.2.code_lt64 (by decide) (by decide)).1 (Eq.refl (encSys n x.1.val x.2.code 0 0))).1

/-- EXECWR (R196). -/
theorem execwr_reads (lit : Dec W32) :
    Reads (fun w => dec1 1 w lit) (fun x : Src × Hold => .execwr x.1 x.2) (fun n x => encFour n 0 x.1.code 0 x.2.code) where
  accepts n := fun ⟨a, h⟩ => by
    have hh := h.code_lt
    obtain ⟨_, hd, ha, hb, hc⟩ := (encFour_fields (by decide) a.code_lt64 (by decide) (by omega)).1 (Eq.refl (encFour n 0 a.code 0 h.code))
    simp only [dec1, dec_bind_ok, srcOf_ok, zeroField_ok]
    exact ⟨(), hd, a, ha, (), by simp only [bitsOf] at *; omega, by rw [holdOf_eq (h := h) (by simp only [bitsOf] at *; omega)]⟩
  only w i e := by
    simp only [dec1, dec_bind_ok, srcOf_ok, zeroField_ok, Except.ok.injEq] at e
    obtain ⟨_, hd, a, ha, _, hz, rfl⟩ := e
    refine ⟨⟨a, holdOf (bitsOf w 1 0)⟩, rfl, ?_⟩
    simp only [encFour, holdOf_bits_code]
    simp only [bitsOf] at *
    omega
  opcode n x := by
    have := x.1.code_lt; have := x.2.code_lt
    simp only [encFour]
    omega

/-- MODE (R197). -/
theorem setMode_reads (lit : Dec W32) :
    Reads (fun w => dec1 2 w lit) (fun m => .setMode m) (fun n (m : BitVec 13) => n * 16777216 + m.toNat * 4) where
  accepts n m := by
    have := m.isLt
    simp only [dec1, dec_bind_ok, zeroField_ok, Except.ok.injEq, Instr.setMode.injEq, ← BitVec.toNat_inj, BitVec.toNat_ofNat]
    simp only [bitsOf]
    exact ⟨(), by omega, (), by omega, by omega⟩
  only w i e := by
    simp only [dec1, dec_bind_ok, zeroField_ok, Except.ok.injEq] at e
    obtain ⟨_, h1, _, h2, rfl⟩ := e
    refine ⟨_, rfl, ?_⟩
    simp only [BitVec.toNat_ofNat, bitsOf] at *
    omega
  opcode n m := by
    have := m.isLt
    omega

/-- LIT: its literal word follows (R82, R198). -/
theorem lit_reads (x : W32) :
    Reads (fun w => dec1 4 w (.ok x)) (fun d => .lit d x) (fun n (d : Dst) => n * 16777216 + d.code * 262144) where
  accepts n d := by
    have := d.code_lt
    simp only [dec1, dec_bind_ok, zeroField_ok, dstOf_ok]
    simp only [bitsOf]
    exact ⟨d, by omega, (), by omega, x, rfl, rfl⟩
  only w i e := by
    simp only [dec1, dec_bind_ok, zeroField_ok, dstOf_ok, Except.ok.injEq] at e
    obtain ⟨d, hd, _, hz, _, rfl, rfl⟩ := e
    refine ⟨d, rfl, ?_⟩
    simp only [bitsOf] at *
    omega
  opcode n d := by
    have := d.code_lt
    omega

/-- LITH (R82, R199). -/
theorem lith_reads (x : W32) :
    Reads (fun w => dec1 5 w (.ok x)) (fun d => .lith d x) (fun n (d : Dst) => n * 16777216 + d.code * 262144) where
  accepts n d := by
    have := d.code_lt
    simp only [dec1, dec_bind_ok, zeroField_ok, dstOf_ok]
    simp only [bitsOf]
    exact ⟨d, by omega, (), by omega, x, rfl, rfl⟩
  only w i e := by
    simp only [dec1, dec_bind_ok, zeroField_ok, dstOf_ok, Except.ok.injEq] at e
    obtain ⟨d, hd, _, hz, _, rfl, rfl⟩ := e
    refine ⟨d, rfl, ?_⟩
    simp only [bitsOf] at *
    omega
  opcode n d := by
    have := d.code_lt
    omega

/-- GETSR (R200). -/
theorem getsr_reads (lit : Dec W32) :
    Reads (fun w => dec1 6 w lit) (fun x : Dst × SpecialReg × Hold => .getsr x.1 x.2.1 x.2.2)
      (fun n x => n * 16777216 + x.1.code * 262144 + x.2.1.code * 4 + x.2.2.code) where
  accepts n := fun ⟨d, r, h⟩ => by
    have := d.code_lt; have := r.code_lt; have := h.code_lt
    simp only [dec1, dec_bind_ok, dstOf_ok, srOf_ok, Except.ok.injEq, Instr.getsr.injEq]
    refine ⟨d, ?_, r, ?_, rfl, rfl, holdOf_eq ?_⟩ <;> (simp only [bitsOf]; omega)
  only w i e := by
    simp only [dec1, dec_bind_ok, dstOf_ok, srOf_ok, Except.ok.injEq] at e
    obtain ⟨d, hd, r, hr, rfl⟩ := e
    refine ⟨⟨d, r, holdOf (bitsOf w 1 0)⟩, rfl, ?_⟩
    simp only [holdOf_bits_code]
    simp only [bitsOf] at *
    omega
  opcode n x := by
    have := x.1.code_lt; have := x.2.1.code_lt; have := x.2.2.code_lt
    omega

/-- SETSR (R201). -/
theorem setsr_reads (lit : Dec W32) :
    Reads (fun w => dec1 7 w lit) (fun x : SpecialReg × KReg => .setsr x.1 x.2) (fun n x => encSys n x.1.code x.2.val 0 0) where
  accepts n := fun ⟨r, a⟩ => by
    have := r.code_lt
    obtain ⟨_, hr, ha, hb, hf⟩ := (encSys_fields (by omega) (by omega) (by decide) (by decide)).1 (Eq.refl (encSys n r.code a.val 0 0))
    simp only [dec1, dec_bind_ok, zeroField_ok, srOf_ok, kOf_ok]
    exact ⟨r, hr, a, ha, (), by simp only [bitsOf] at *; omega, rfl⟩
  only w i e := by
    simp only [dec1, dec_bind_ok, zeroField_ok, srOf_ok, kOf_ok, Except.ok.injEq] at e
    obtain ⟨r, hr, a, ha, _, hz, rfl⟩ := e
    refine ⟨⟨r, a⟩, rfl, ?_⟩
    simp only [encSys, bitsOf] at *
    omega
  opcode n x := by
    have := x.1.code_lt
    exact ((encSys_fields (by omega) (by omega) (by decide) (by decide)).1 (Eq.refl (encSys n x.1.code x.2.val 0 0))).1

/-! ### Lane instructions and predicates -/

/-- PNOT (R169). -/
theorem pnot_reads : Reads (dec3 14) (fun x : PReg × Guard => .pnot x.1 x.2) (fun n x => encSys n x.1.val x.2.toNat 0 0) where
  accepts n := fun ⟨p, g⟩ => by
    have := g.isLt
    obtain ⟨_, hp, hg, hb, hf⟩ := (encSys_fields (by omega) (by omega) (by decide) (by decide)).1 (Eq.refl (encSys n p.val g.toNat 0 0))
    simp only [dec3, dec_bind_ok, zeroField_ok, Except.ok.injEq, Instr.pnot.injEq]
    refine ⟨(), ?_, (), ?_, (), ?_, preg_eq ?_, guardOf_eq ?_⟩ <;> (simp only [bitsOf] at *; omega)
  only w i e := by
    simp only [dec3, dec_bind_ok, zeroField_ok, Except.ok.injEq] at e
    obtain ⟨_, h1, _, h2, _, h3, rfl⟩ := e
    refine ⟨⟨preg (bitsOf w 18 16), guardOf (bitsOf w 13 10)⟩, rfl, ?_⟩
    show w = encSys _ (preg _).val (guardOf _).toNat 0 0
    rw [preg_val (n := bitsOf w 18 16) (Nat.mod_lt _ (by decide)), guardOf_toNat (n := bitsOf w 13 10) (Nat.mod_lt _ (by decide))]
    simp only [encSys, bitsOf] at *
    omega
  opcode n x := by
    have := x.2.isLt
    exact ((encSys_fields (by omega) (by omega) (by decide) (by decide)).1 (Eq.refl (encSys n x.1.val x.2.toNat 0 0))).1

/-- CVT: its target stands in a uniform register (R170). -/
theorem cvt_reads : Reads (dec4 8) (fun x : Dst × Src × KReg × Hold => .cvt x.1 x.2.1 x.2.2.1 x.2.2.2)
    (fun n x => encTwo n x.1 x.2.1 (.k x.2.2.1) 0 x.2.2.2) where
  accepts n := fun ⟨d, a, k, h⟩ => by
    obtain ⟨_, hd, ha, hb, hf, hh⟩ := (encTwo_fields (by decide)).1 (Eq.refl (encTwo n d a (.k k) 0 h))
    simp only [dec4, dec_bind_ok, dstOf_ok, srcOf_ok, kOf_ok]
    refine ⟨d, hd, a, ha, k, ?_, ?_⟩
    · simp only [bitsOf, Src2.field] at *; omega
    · rw [if_pos (by simp only [bitsOf, Src2.field] at *; omega), hh, holdOf_code]
  only w i e := by
    simp only [dec4, dec_bind_ok, dstOf_ok, srcOf_ok, kOf_ok] at e
    obtain ⟨d, hd, a, ha, k, hk, e⟩ := e
    split at e
    · cases e
      refine ⟨⟨d, a, k, holdOf (bitsOf w 1 0)⟩, rfl, (encTwo_fields (by decide)).2 ⟨rfl, hd, ha, ?_, ?_, (holdOf_bits_code w).symm⟩⟩ <;>
        (simp only [bitsOf, Src2.field] at *; omega)
    · cases e
  opcode n x := ((encTwo_fields (by decide)).1 rfl).1

/-- PSET (R169). -/
theorem pset_reads : Reads (dec4 13) (fun x : PReg × Src => .pset x.1 x.2) (fun n x => encSys n x.1.val x.2.code 0 0) where
  accepts n := fun ⟨p, a⟩ => by
    obtain ⟨_, hp, ha, hb, hf⟩ := (encSys_fields (by omega) a.code_lt64 (by decide) (by decide)).1 (Eq.refl (encSys n p.val a.code 0 0))
    simp only [dec4, dec_bind_ok, zeroField_ok, srcOf_ok, Except.ok.injEq, Instr.pset.injEq]
    refine ⟨(), ?_, a, ha, (), ?_, preg_eq ?_, rfl⟩ <;> (simp only [bitsOf] at *; omega)
  only w i e := by
    simp only [dec4, dec_bind_ok, zeroField_ok, srcOf_ok, Except.ok.injEq] at e
    obtain ⟨_, hp, a, ha, _, hb, rfl⟩ := e
    refine ⟨⟨preg (bitsOf w 18 16), a⟩, rfl, ?_⟩
    show w = encSys _ (preg _).val a.code 0 0
    rw [preg_val (n := bitsOf w 18 16) (Nat.mod_lt _ (by decide))]
    simp only [encSys, bitsOf] at *
    omega
  opcode n x := ((encSys_fields (by omega) x.2.code_lt64 (by decide) (by decide)).1 (Eq.refl (encSys n x.1.val x.2.code 0 0))).1

/-! ### Uniform instructions and the mirror bank -/

/-- KMOV's word: a register in a, or an immediate in b (R180). -/
def encMov (n : Nat) (d : KReg) (y : KOp) : Nat :=
  match y with
  | .k a => encSys n d.val a.val 0 0
  | .imm v => encSys n d.val 0 v.toNat 8

/-- KMOV (R180). -/
theorem kmov_reads : Reads (dec5 7) (fun x : KReg × KOp => .kmov x.1 x.2) (fun n x => encMov n x.1 x.2) where
  accepts n := fun ⟨d, y⟩ => by
    cases y with
    | k a =>
      obtain ⟨_, hd, ha, hb, hf⟩ := (encSys_fields (by omega) (by omega) (by decide) (by decide)).1 (Eq.refl (encSys n d.val a.val 0 0))
      show dec5 7 (encSys n d.val a.val 0 0) = .ok (.kmov d (.k a))
      simp only [dec5, dec_bind_ok, zeroField_ok, kOf_ok]
      refine ⟨d, hd, (), ?_, ?_⟩
      · simp only [bitsOf] at *; omega
      · rw [if_pos (by simp only [bitsOf] at *; omega)]
        simp only [dec_bind_ok, zeroField_ok, kOf_ok]
        exact ⟨a, ha, (), hb, rfl⟩
    | imm v =>
      have := v.isLt
      obtain ⟨_, hd, ha, hb, hf⟩ := (encSys_fields (by omega) (by decide) (by omega) (by decide)).1 (Eq.refl (encSys n d.val 0 v.toNat 8))
      show dec5 7 (encSys n d.val 0 v.toNat 8) = .ok (.kmov d (.imm v))
      simp only [dec5, dec_bind_ok, zeroField_ok, kOf_ok]
      refine ⟨d, hd, (), ?_, ?_⟩
      · simp only [bitsOf] at *; omega
      · rw [if_neg (by simp only [bitsOf] at *; omega)]
        simp only [dec_bind_ok, zeroField_ok]
        exact ⟨(), ha, by rw [hb, BitVec.ofNat_toNat, BitVec.setWidth_eq]⟩
  only w i e := by
    simp only [dec5, dec_bind_ok, zeroField_ok, kOf_ok] at e
    obtain ⟨d, hd, _, hf, e⟩ := e
    split at e
    · simp only [dec_bind_ok, zeroField_ok, kOf_ok, Except.ok.injEq] at e
      obtain ⟨a, ha, _, hb, rfl⟩ := e
      refine ⟨⟨d, .k a⟩, rfl, ?_⟩
      simp only [encMov, encSys, bitsOf] at *
      omega
    · simp only [dec_bind_ok, zeroField_ok, Except.ok.injEq] at e
      obtain ⟨_, ha, rfl⟩ := e
      refine ⟨⟨d, .imm (BitVec.ofNat 6 (bitsOf w 9 4))⟩, rfl, ?_⟩
      simp only [encMov, encSys, BitVec.toNat_ofNat, bitsOf] at *
      omega
  opcode n := fun ⟨d, y⟩ => by
    cases y with
    | k a => simp only [encMov, encSys]; omega
    | imm v =>
      have := v.isLt
      simp only [encMov, encSys]
      omega

/-- KREAD (R183). -/
theorem kread_reads : Reads (dec6 1) (fun x : KReg × Src × Fin 32 × Bool => .kread x.1 x.2.1 x.2.2.1 x.2.2.2)
    (fun n x => encSys n x.1.val x.2.1.code x.2.2.1.val (bit x.2.2.2)) where
  accepts n := fun ⟨d, a, l, b⟩ => by
    have := bit_lt b
    obtain ⟨_, hd, ha, hl, hf⟩ := (encSys_fields (by omega) a.code_lt64 (by omega) (by omega)).1
      (Eq.refl (encSys n d.val a.code l.val (bit b)))
    simp only [dec6, dec_bind_ok, zeroField_ok, kOf_ok, srcOf_ok]
    refine ⟨d, hd, a, ha, l, hl, (), ?_, ?_⟩
    · simp only [bitsOf] at *; omega
    · rw [show bitsOf _ 0 0 = bit b by simp only [bitsOf] at *; omega, decide_bit]
  only w i e := by
    simp only [dec6, dec_bind_ok, zeroField_ok, kOf_ok, srcOf_ok, Except.ok.injEq] at e
    obtain ⟨d, hd, a, ha, l, hl, _, hz, rfl⟩ := e
    refine ⟨⟨d, a, l, decide (bitsOf w 0 0 = 1)⟩, rfl, ?_⟩
    show w = encSys _ d.val a.code l.val (bit (decide (bitsOf w 0 0 = 1)))
    rw [bit_decide (n := bitsOf w 0 0) (Nat.mod_lt _ (by decide))]
    simp only [encSys, bitsOf] at *
    omega
  opcode n x := by
    have := bit_lt x.2.2.2; have := x.2.1.code_lt
    simp only [encSys]
    omega

/-- KLIT (R182). -/
theorem klit_reads : Reads (dec6 2) (fun x : KReg × W16 => .klit x.1 x.2) (fun n x => n * 16777216 + x.1.val * 262144 + x.2.toNat * 4) where
  accepts n := fun ⟨d, i⟩ => by
    have := i.isLt
    simp only [dec6, dec_bind_ok, zeroField_ok, kOf_ok, Except.ok.injEq, Instr.klit.injEq, ← BitVec.toNat_inj, BitVec.toNat_ofNat]
    refine ⟨d, ?_, (), ?_, rfl, ?_⟩ <;> (simp only [bitsOf]; omega)
  only w i e := by
    simp only [dec6, dec_bind_ok, zeroField_ok, kOf_ok, Except.ok.injEq] at e
    obtain ⟨d, hd, _, hz, rfl⟩ := e
    refine ⟨⟨d, BitVec.ofNat 16 (bitsOf w 17 2)⟩, rfl, ?_⟩
    simp only [BitVec.toNat_ofNat, bitsOf] at *
    omega
  opcode n x := by
    have := x.2.isLt
    omega

/-- F4 with a uniform register in a, and one in b where `f[0]` says so (R223, R329). -/
def decOpt (mk : KReg → Option KReg → Instr) (w : Nat) : Dec Instr := do
  zeroField (bitsOf w 23 16)
  let a ← kOf (bitsOf w 15 10)
  zeroField (bitsOf w 3 1)
  if bitsOf w 0 0 = 0 then do
    zeroField (bitsOf w 9 4)
    .ok (mk a none)
  else do
    let b ← kOf (bitsOf w 9 4)
    .ok (mk a (some b))

/-- Its word. -/
def encOpt (n : Nat) (a : KReg) (b : Option KReg) : Nat :=
  match b with
  | none => encSys n 0 a.val 0 0
  | some b => encSys n 0 a.val b.val 1

theorem decOpt_reads (mk : KReg → Option KReg → Instr) :
    Reads (decOpt mk) (fun x : KReg × Option KReg => mk x.1 x.2) (fun n x => encOpt n x.1 x.2) where
  accepts n := fun ⟨a, b⟩ => by
    cases b with
    | none =>
      obtain ⟨_, hz, ha, hb, hf⟩ := (encSys_fields (by decide) (by omega) (by decide) (by decide)).1 (Eq.refl (encSys n 0 a.val 0 0))
      show decOpt mk (encSys n 0 a.val 0 0) = .ok (mk a none)
      simp only [decOpt, dec_bind_ok, zeroField_ok, kOf_ok]
      refine ⟨(), hz, a, ha, (), ?_, ?_⟩
      · simp only [bitsOf] at *; omega
      · rw [if_pos (by simp only [bitsOf] at *; omega)]
        simp only [dec_bind_ok, zeroField_ok]
        exact ⟨(), hb, trivial⟩
    | some b =>
      obtain ⟨_, hz, ha, hb, hf⟩ := (encSys_fields (by decide) (by omega) (by omega) (by decide)).1 (Eq.refl (encSys n 0 a.val b.val 1))
      show decOpt mk (encSys n 0 a.val b.val 1) = .ok (mk a (some b))
      simp only [decOpt, dec_bind_ok, zeroField_ok, kOf_ok]
      refine ⟨(), hz, a, ha, (), ?_, ?_⟩
      · simp only [bitsOf] at *; omega
      · rw [if_neg (by simp only [bitsOf] at *; omega)]
        simp only [dec_bind_ok, kOf_ok]
        exact ⟨b, hb, rfl⟩
  only w i e := by
    simp only [decOpt, dec_bind_ok, zeroField_ok, kOf_ok] at e
    obtain ⟨_, hz, a, ha, _, hf, e⟩ := e
    split at e
    · simp only [dec_bind_ok, zeroField_ok, Except.ok.injEq] at e
      obtain ⟨_, hb, rfl⟩ := e
      refine ⟨⟨a, none⟩, rfl, ?_⟩
      simp only [encOpt, encSys, bitsOf] at *
      omega
    · simp only [dec_bind_ok, kOf_ok, Except.ok.injEq] at e
      obtain ⟨b, hb, rfl⟩ := e
      refine ⟨⟨a, some b⟩, rfl, ?_⟩
      simp only [encOpt, encSys, bitsOf] at *
      omega
  opcode n := fun ⟨a, b⟩ => by
    cases b <;> simp only [encOpt, encSys] <;> omega

/-- MBSTAT (R222). -/
theorem mbstat_reads : Reads (dec6 13) (fun x : Dst × Src => .mbstat x.1 x.2) (fun n x => encOne n x.1 x.2 0 .none) where
  accepts n := fun ⟨d, a⟩ => by
    obtain ⟨_, hd, ha, hz, hf, hh⟩ := (encOne_fields (by decide)).1 (Eq.refl (encOne n d a 0 .none))
    simp only [dec6, dec_bind_ok, dstOf_ok, srcOf_ok, zeroField_ok]
    exact ⟨d, hd, a, ha, (), by simp only [bitsOf, Hold.code] at *; omega, rfl⟩
  only w i e := by
    simp only [dec6, dec_bind_ok, dstOf_ok, srcOf_ok, zeroField_ok, Except.ok.injEq] at e
    obtain ⟨d, hd, a, ha, _, hz, rfl⟩ := e
    refine ⟨⟨d, a⟩, rfl, (encOne_fields (by decide)).2 ⟨rfl, hd, ha, ?_⟩⟩
    simp only [bitsOf, Hold.code] at *
    omega
  opcode n x := ((encOne_fields (by decide)).1 rfl).1

/-- MBCLR (R221). -/
theorem mbclr_reads : Reads (dec6 14) (fun x : Bool × Bool × Bool => .mbclr x.1 x.2.1 x.2.2)
    (fun n x => encSys n (bit x.1 + 2 * bit x.2.1 + 4 * bit x.2.2) 0 0 0) where
  accepts n := fun ⟨p, a, m⟩ => by
    have := bit_lt p; have := bit_lt a; have := bit_lt m
    obtain ⟨_, hc, ha, hb, hf⟩ := (encSys_fields (by omega) (by decide) (by decide) (by decide)).1
      (Eq.refl (encSys n (bit p + 2 * bit a + 4 * bit m) 0 0 0))
    simp only [dec6, dec_bind_ok, zeroField_ok]
    refine ⟨(), ?_, (), ?_, ?_⟩
    · simp only [bitsOf] at *; omega
    · simp only [bitsOf] at *; omega
    · rw [show bitsOf _ 16 16 = bit p by simp only [bitsOf] at *; omega, show bitsOf _ 17 17 = bit a by simp only [bitsOf] at *; omega,
        show bitsOf _ 18 18 = bit m by simp only [bitsOf] at *; omega, decide_bit, decide_bit, decide_bit]
  only w i e := by
    simp only [dec6, dec_bind_ok, zeroField_ok, Except.ok.injEq] at e
    obtain ⟨_, hz, _, hb, rfl⟩ := e
    refine ⟨⟨decide (bitsOf w 16 16 = 1), decide (bitsOf w 17 17 = 1), decide (bitsOf w 18 18 = 1)⟩, rfl, ?_⟩
    show w = encSys _ (bit (decide _) + 2 * bit (decide _) + 4 * bit (decide _)) 0 0 0
    rw [bit_decide (n := bitsOf w 16 16) (Nat.mod_lt _ (by decide)), bit_decide (n := bitsOf w 17 17) (Nat.mod_lt _ (by decide)),
      bit_decide (n := bitsOf w 18 18) (Nat.mod_lt _ (by decide))]
    simp only [encSys, bitsOf] at *
    omega
  opcode n x := by
    have := bit_lt x.1; have := bit_lt x.2.1; have := bit_lt x.2.2
    simp only [encSys]
    omega

/-! ### Memory -/

/-- PREF (R262). -/
theorem pref_reads : Reads (dec7 7) (fun x : Src × KReg => .pref x.1 x.2) (fun n x => encFour n 0 x.1.code 0 x.2.val) where
  accepts n := fun ⟨a, c⟩ => by
    obtain ⟨_, hd, ha, hb, hc⟩ := (encFour_fields (by decide) a.code_lt64 (by decide) (by omega)).1 (Eq.refl (encFour n 0 a.code 0 c.val))
    simp only [dec7, dec_bind_ok, zeroField_ok, srcOf_ok, kOf_ok]
    exact ⟨(), hd, a, ha, (), hb, c, hc, rfl⟩
  only w i e := by
    simp only [dec7, dec_bind_ok, zeroField_ok, srcOf_ok, kOf_ok, Except.ok.injEq] at e
    obtain ⟨_, hd, a, ha, _, hb, c, hc, rfl⟩ := e
    exact ⟨⟨a, c⟩, rfl, (encFour_fields (by decide) a.code_lt64 (by decide) (by omega)).2 ⟨rfl, hd, ha, hb, hc⟩⟩
  opcode n x := ((encFour_fields (by decide) x.1.code_lt64 (by decide) (by omega)).1 (Eq.refl (encFour n 0 x.1.code 0 x.2.val))).1

/-- FENCE (R251). -/
theorem fence_reads : Reads (dec7 10) (fun x : Scope × FenceOrder => .fence x.1 x.2)
    (fun n x => encSys n (x.1.code + 8 * x.2.code) 0 0 0) where
  accepts n := fun ⟨s, o⟩ => by
    have := s.code_lt; have := o.code_lt
    obtain ⟨_, hc, ha, hb, hf⟩ := (encSys_fields (by omega) (by decide) (by decide) (by decide)).1
      (Eq.refl (encSys n (s.code + 8 * o.code) 0 0 0))
    simp only [dec7, dec_bind_ok, zeroField_ok, scopeOf_ok, fenceOrderOf_ok]
    refine ⟨(), ?_, s, ?_, o, ?_, (), ?_, rfl⟩ <;> (simp only [bitsOf] at *; omega)
  only w i e := by
    simp only [dec7, dec_bind_ok, zeroField_ok, scopeOf_ok, fenceOrderOf_ok, Except.ok.injEq] at e
    obtain ⟨_, hz, s, hs, o, ho, _, hb, rfl⟩ := e
    refine ⟨⟨s, o⟩, rfl, ?_⟩
    simp only [encSys, bitsOf] at *
    omega
  opcode n x := by
    have := x.1.code_lt; have := x.2.code_lt
    simp only [encSys]
    omega

/-! ### The matrix engine -/

theorem ofNat_eq {n m : Nat} [NeZero m] {x : Fin m} (h : n = x.val) : Fin.ofNat m n = x := by
  rw [h, Fin.ofNat_val_eq_self]

/-- MXZERO (R301). -/
theorem mxzero_reads : Reads (dec9 1) (fun x : TileReg × TileFill => .mxzero x.1 x.2) (fun n x => encSys n (x.1.val + 4 * x.2.code) 0 0 0) where
  accepts n := fun ⟨t, f⟩ => by
    have := f.code_lt
    obtain ⟨_, hc, ha, hb, hf⟩ := (encSys_fields (by omega) (by decide) (by decide) (by decide)).1
      (Eq.refl (encSys n (t.val + 4 * f.code) 0 0 0))
    simp only [dec9, dec_bind_ok, zeroField_ok, fillOf_ok, Except.ok.injEq, Instr.mxzero.injEq]
    refine ⟨(), ?_, (), ?_, f, ?_, ofNat_eq ?_, rfl⟩ <;> (simp only [bitsOf] at *; omega)
  only w i e := by
    simp only [dec9, dec_bind_ok, zeroField_ok, fillOf_ok, Except.ok.injEq] at e
    obtain ⟨_, hz, _, hb, f, hf, rfl⟩ := e
    refine ⟨⟨Fin.ofNat 4 (bitsOf w 17 16), f⟩, rfl, ?_⟩
    simp only [encSys, Fin.val_ofNat, bitsOf] at *
    omega
  opcode n x := by
    have := x.2.code_lt
    simp only [encSys]
    omega

/-- MXSTEP (R304). -/
theorem mxstep_reads : Reads (dec9 2) (fun x : TileReg × HReg × KReg × Bool => .mxstep x.1 x.2.1 x.2.2.1 x.2.2.2)
    (fun n x => encSys n (x.1.val + 4 * x.2.1.val + 32 * bit x.2.2.2) x.2.2.1.val 0 0) where
  accepts n := fun ⟨t, p, a, s⟩ => by
    have := bit_lt s
    have h := (decCodeK_reads 6 (by decide) fun c a =>
      .mxstep (Fin.ofNat 4 (bitsOf c 1 0)) (Fin.ofNat 8 (bitsOf c 4 2)) a (bitsOf c 5 5 = 1)).accepts n
        (⟨t.val + 4 * p.val + 32 * bit s, by omega⟩, a)
    refine h.trans ?_
    rw [ofNat_eq (x := t), ofNat_eq (x := p), show bitsOf _ 5 5 = bit s by simp only [bitsOf]; omega, decide_bit] <;>
      (simp only [bitsOf]; omega)
  only w i e := by
    obtain ⟨⟨⟨c, hc⟩, a⟩, rfl, hw⟩ := (decCodeK_reads 6 (by decide) fun c a =>
      .mxstep (Fin.ofNat 4 (bitsOf c 1 0)) (Fin.ofNat 8 (bitsOf c 4 2)) a (bitsOf c 5 5 = 1)).only w i e
    refine ⟨⟨Fin.ofNat 4 (bitsOf c 1 0), Fin.ofNat 8 (bitsOf c 4 2), a, decide (bitsOf c 5 5 = 1)⟩, rfl, hw.trans ?_⟩
    have hcode : c = bitsOf c 1 0 % 4 + 4 * (bitsOf c 4 2 % 8) + 32 * bitsOf c 5 5 := by simp only [bitsOf]; omega
    simp only [Fin.val_ofNat, bit_decide (n := bitsOf c 5 5) (Nat.mod_lt _ (by decide)), ← hcode]
  opcode n x := by
    have := bit_lt x.2.2.2
    simp only [encSys]
    omega

/-- MXLOOP (R306). -/
theorem mxloop_reads : Reads (dec9 3) (fun x : TileReg × HReg × KReg × KReg × Bool => .mxloop x.1 x.2.1 x.2.2.1 x.2.2.2.1 x.2.2.2.2)
    (fun n x => encSys n (x.1.val + 4 * x.2.1.val + 32 * bit x.2.2.2.2) x.2.2.1.val x.2.2.2.1.val 0) where
  accepts n := fun ⟨t, p, a, l, s⟩ => by
    have := bit_lt s
    obtain ⟨_, hc, ha, hl, hf⟩ := (encSys_fields (by omega) (by omega) (by omega) (by decide)).1
      (Eq.refl (encSys n (t.val + 4 * p.val + 32 * bit s) a.val l.val 0))
    simp only [dec9, dec_bind_ok, zeroField_ok, kOf_ok, Except.ok.injEq, Instr.mxloop.injEq]
    refine ⟨(), ?_, a, ha, l, hl, (), hf, ofNat_eq ?_, ofNat_eq ?_, rfl, rfl, ?_⟩
    · simp only [bitsOf] at *; omega
    · simp only [bitsOf] at *; omega
    · simp only [bitsOf] at *; omega
    · rw [show bitsOf _ 21 21 = bit s by simp only [bitsOf] at *; omega, decide_bit]
  only w i e := by
    simp only [dec9, dec_bind_ok, zeroField_ok, kOf_ok, Except.ok.injEq] at e
    obtain ⟨_, hz, a, ha, l, hl, _, hf, rfl⟩ := e
    refine ⟨⟨Fin.ofNat 4 (bitsOf w 17 16), Fin.ofNat 8 (bitsOf w 20 18), a, l, decide (bitsOf w 21 21 = 1)⟩, rfl, ?_⟩
    simp only [encSys, Fin.val_ofNat, bit_decide (n := bitsOf w 21 21) (Nat.mod_lt _ (by decide))]
    simp only [bitsOf] at *
    omega
  opcode n x := by
    have := bit_lt x.2.2.2.2
    simp only [encSys]
    omega

/-- MXWR (R308). -/
theorem mxwr_reads : Reads (dec9 5) (fun x : Src × Src => .mxwr x.1 x.2) (fun n x => encSys n 0 x.1.code x.2.code 0) where
  accepts n := fun ⟨a, b⟩ => by
    obtain ⟨_, hz, ha, hb, hf⟩ := (encSys_fields (by decide) a.code_lt64 b.code_lt64 (by decide)).1 (Eq.refl (encSys n 0 a.code b.code 0))
    simp only [dec9, dec_bind_ok, zeroField_ok, srcOf_ok]
    exact ⟨(), hz, a, ha, b, hb, (), hf, rfl⟩
  only w i e := by
    simp only [dec9, dec_bind_ok, zeroField_ok, srcOf_ok, Except.ok.injEq] at e
    obtain ⟨_, hz, a, ha, b, hb, _, hf, rfl⟩ := e
    exact ⟨⟨a, b⟩, rfl, (encSys_fields (by decide) a.code_lt64 b.code_lt64 (by decide)).2 ⟨rfl, hz, ha, hb, hf⟩⟩
  opcode n x := ((encSys_fields (by decide) x.1.code_lt64 x.2.code_lt64 (by decide)).1 (Eq.refl (encSys n 0 x.1.code x.2.code 0))).1

/-- MXMON (R310). -/
theorem mxmon_reads : Reads (dec9 6) (fun x : Fin 8 × KReg × Bool => .mxmon x.1 x.2.1 x.2.2)
    (fun n x => encSys n x.1.val x.2.1.val 0 (bit x.2.2)) where
  accepts n := fun ⟨s, a, g⟩ => by
    have := bit_lt g
    obtain ⟨_, hc, ha, hb, hf⟩ := (encSys_fields (by omega) (by omega) (by decide) (by omega)).1 (Eq.refl (encSys n s.val a.val 0 (bit g)))
    simp only [dec9, dec_bind_ok, zeroField_ok, kOf_ok, Except.ok.injEq, Instr.mxmon.injEq]
    refine ⟨(), ?_, a, ha, (), ?_, ofNat_eq ?_, rfl, ?_⟩
    · simp only [bitsOf] at *; omega
    · simp only [bitsOf] at *; omega
    · simp only [bitsOf] at *; omega
    · rw [show bitsOf _ 0 0 = bit g by simp only [bitsOf] at *; omega, decide_bit]
  only w i e := by
    simp only [dec9, dec_bind_ok, zeroField_ok, kOf_ok, Except.ok.injEq] at e
    obtain ⟨_, hz, a, ha, _, hf, rfl⟩ := e
    refine ⟨⟨Fin.ofNat 8 (bitsOf w 18 16), a, decide (bitsOf w 0 0 = 1)⟩, rfl, ?_⟩
    simp only [encSys, Fin.val_ofNat, bit_decide (n := bitsOf w 0 0) (Nat.mod_lt _ (by decide))]
    simp only [bitsOf] at *
    omega
  opcode n x := by
    have := bit_lt x.2.2
    simp only [encSys]
    omega

/-- MONCLR (R309). -/
theorem monclr_reads : Reads (dec9 8) (fun m => .monclr m) (fun n (m : W8) => encSys n m.toNat 0 0 0) where
  accepts n m := by
    obtain ⟨_, hc, ha, hb, hf⟩ := (encSys_fields m.isLt (by decide) (by decide) (by decide)).1 (Eq.refl (encSys n m.toNat 0 0 0))
    simp only [dec9, dec_bind_ok, zeroField_ok]
    exact ⟨(), by simp only [bitsOf] at *; omega, by rw [hc, BitVec.ofNat_toNat, BitVec.setWidth_eq]⟩
  only w i e := by
    simp only [dec9, dec_bind_ok, zeroField_ok, Except.ok.injEq] at e
    obtain ⟨_, hz, rfl⟩ := e
    refine ⟨_, rfl, ?_⟩
    simp only [encSys, BitVec.toNat_ofNat, bitsOf] at *
    omega
  opcode n m := ((encSys_fields m.isLt (by decide) (by decide) (by decide)).1 (Eq.refl (encSys n m.toNat 0 0 0))).1

/-! ### Counters, copies, the router, the wait-for table -/

/-- The forms of CNTADD: an amount and whether it is a maximum, or a signal (R332, R334). -/
def cntForm (a : KReg) (b : Option (KReg × Bool)) : Instr :=
  match b with
  | some (b, false) => .cntadd a b
  | some (b, true) => .cntaddMax a b
  | none => .cntaddSignal a

/-- Their words. -/
def encCnt (n : Nat) (a : KReg) (b : Option (KReg × Bool)) : Nat :=
  match b with
  | some (b, m) => encSys n 0 a.val b.val (bit m)
  | none => encSys n 0 a.val 0 2

theorem cnt_reads : Reads (decA 4) (fun x : KReg × Option (KReg × Bool) => cntForm x.1 x.2) (fun n x => encCnt n x.1 x.2) where
  accepts n := fun ⟨a, b⟩ => by
    simp only [decA, dec_bind_ok, zeroField_ok, kOf_ok]
    match b with
    | none =>
      obtain ⟨_, hz, ha, hb, hf⟩ := (encSys_fields (by decide) (by omega) (by decide) (by decide)).1 (Eq.refl (encSys n 0 a.val 0 2))
      refine ⟨(), hz, a, ha, (), by simp only [encCnt, bitsOf] at *; omega, ?_⟩
      rw [show bitsOf _ 1 0 = 2 by simp only [encCnt, bitsOf] at *; omega]
      exact (dec_bind_ok.2 ⟨(), zeroField_ok.2 hb, rfl⟩)
    | some (b, m) =>
      have := bit_lt m
      obtain ⟨_, hz, ha, hb, hf⟩ := (encSys_fields (by decide) (by omega) (by omega) (by omega)).1 (Eq.refl (encSys n 0 a.val b.val (bit m)))
      refine ⟨(), hz, a, ha, (), by simp only [encCnt, bitsOf] at *; omega, ?_⟩
      rw [show bitsOf _ 1 0 = bit m by simp only [encCnt, bitsOf] at *; omega]
      cases m <;> exact dec_bind_ok.2 ⟨b, kOf_ok.2 hb, rfl⟩
  only w i e := by
    simp only [decA, dec_bind_ok, zeroField_ok, kOf_ok] at e
    obtain ⟨_, hz, a, ha, _, hf, e⟩ := e
    split at e
    · simp only [dec_bind_ok, kOf_ok, Except.ok.injEq] at e
      obtain ⟨b, hb, rfl⟩ := e
      refine ⟨⟨a, some (b, false)⟩, rfl, ?_⟩
      simp only [encCnt, encSys, bit, bitsOf, Bool.false_eq_true, if_false] at *
      omega
    split at e
    · simp only [dec_bind_ok, kOf_ok, Except.ok.injEq] at e
      obtain ⟨b, hb, rfl⟩ := e
      refine ⟨⟨a, some (b, true)⟩, rfl, ?_⟩
      simp only [encCnt, encSys, bit, bitsOf, if_true] at *
      omega
    split at e
    · simp only [dec_bind_ok, zeroField_ok, Except.ok.injEq] at e
      obtain ⟨_, hb, rfl⟩ := e
      refine ⟨⟨a, none⟩, rfl, ?_⟩
      simp only [encCnt, encSys, bitsOf] at *
      omega
    · cases e
  opcode n := fun ⟨a, b⟩ => by
    match b with
    | none => simp only [encCnt, encSys]; omega
    | some (b, m) =>
      have := bit_lt m
      simp only [encCnt, encSys]
      omega

/-- SHAPE (R343). -/
theorem shape_reads : Reads (decB 0) (fun x : KReg × KReg × KReg × ElemSize => .shape x.1 x.2.1 x.2.2.1 x.2.2.2)
    (fun n x => encSys n (x.1.val + 32 * x.2.2.2.code) x.2.1.val x.2.2.1.val 0) where
  accepts n := fun ⟨d, a, b, z⟩ => by
    have := z.code_lt
    obtain ⟨_, hc, ha, hb, hf⟩ := (encSys_fields (by omega) (by omega) (by omega) (by decide)).1
      (Eq.refl (encSys n (d.val + 32 * z.code) a.val b.val 0))
    simp only [decB, dec_bind_ok, zeroField_ok, kOf_ok, esizeOf_ok, Except.ok.injEq, Instr.shape.injEq]
    refine ⟨z, ?_, a, ha, b, hb, (), hf, ofNat_eq ?_, rfl, rfl, rfl⟩ <;> (simp only [bitsOf] at *; omega)
  only w i e := by
    simp only [decB, dec_bind_ok, zeroField_ok, kOf_ok, esizeOf_ok, Except.ok.injEq] at e
    obtain ⟨z, hz, a, ha, b, hb, _, hf, rfl⟩ := e
    refine ⟨⟨Fin.ofNat 32 (bitsOf w 20 16), a, b, z⟩, rfl, ?_⟩
    simp only [encSys, Fin.val_ofNat, bitsOf] at *
    omega
  opcode n x := by
    have := x.2.2.2.code_lt
    simp only [encSys]
    omega

/-- CPY's word (R344). -/
def encCpy (n : Nat) (a : KReg) (b : Option Src) : Nat :=
  match b with
  | none => encSys n 0 a.val 0 0
  | some b => encSys n 1 a.val b.code 0

theorem cpy_reads : Reads (decB 1) (fun x : KReg × Option Src => .cpy x.1 x.2) (fun n x => encCpy n x.1 x.2) where
  accepts n := fun ⟨a, b⟩ => by
    simp only [decB, dec_bind_ok, zeroField_ok, kOf_ok]
    cases b with
    | none =>
      obtain ⟨_, hz, ha, hb, hf⟩ := (encSys_fields (by decide) (by omega) (by decide) (by decide)).1 (Eq.refl (encSys n 0 a.val 0 0))
      refine ⟨(), by simp only [encCpy, bitsOf] at *; omega, a, ha, (), hf, ?_⟩
      rw [if_pos (by simp only [encCpy, bitsOf] at *; omega)]
      exact dec_bind_ok.2 ⟨(), zeroField_ok.2 hb, rfl⟩
    | some b =>
      obtain ⟨_, hz, ha, hb, hf⟩ := (encSys_fields (by decide) (by omega) b.code_lt64 (by decide)).1 (Eq.refl (encSys n 1 a.val b.code 0))
      refine ⟨(), by simp only [encCpy, bitsOf] at *; omega, a, ha, (), hf, ?_⟩
      rw [if_neg (by simp only [encCpy, bitsOf] at *; omega)]
      exact dec_bind_ok.2 ⟨b, srcOf_ok.2 hb, rfl⟩
  only w i e := by
    simp only [decB, dec_bind_ok, zeroField_ok, kOf_ok] at e
    obtain ⟨_, hz, a, ha, _, hf, e⟩ := e
    split at e
    · simp only [dec_bind_ok, zeroField_ok, Except.ok.injEq] at e
      obtain ⟨_, hb, rfl⟩ := e
      refine ⟨⟨a, none⟩, rfl, ?_⟩
      simp only [encCpy, encSys, bitsOf] at *
      omega
    · simp only [dec_bind_ok, srcOf_ok, Except.ok.injEq] at e
      obtain ⟨b, hb, rfl⟩ := e
      refine ⟨⟨a, some b⟩, rfl, ?_⟩
      simp only [encCpy, encSys, bitsOf] at *
      omega
  opcode n := fun ⟨a, b⟩ => by
    cases b with
    | none => simp only [encCpy, encSys]; omega
    | some b =>
      have := b.code_lt
      simp only [encCpy, encSys]
      omega

/-- RTTAKE (R384). -/
theorem rttake_reads : Reads (decB 11) (fun x => .rttake x) (fun n (x : Fin 40) => encFour n (16 + x.val) 0 0 0) where
  accepts n x := by
    obtain ⟨_, hd, ha, hb, hc⟩ := (encFour_fields (by omega) (by decide) (by decide) (by decide)).1 (Eq.refl (encFour n (16 + x.val) 0 0 0))
    simp only [decB, dec_bind_ok, zeroField_ok, dstOf_ok]
    exact ⟨.n x, hd, (), by simp only [bitsOf] at *; omega, rfl⟩
  only w i e := by
    simp only [decB, dec_bind_ok, zeroField_ok, dstOf_ok] at e
    obtain ⟨d, hd, _, hz, e⟩ := e
    cases d with
    | queue => cases e
    | n x =>
      cases e
      refine ⟨x, rfl, ?_⟩
      simp only [encFour, Dst.code, bitsOf] at *
      omega
  opcode n x := ((encFour_fields (by omega) (by decide) (by decide) (by decide)).1 (Eq.refl (encFour n (16 + x.val) 0 0 0))).1

/-- The forms of WDEREG: the wave's wait, or a hold on the object that a register names (R403). -/
def deregForm (a : Option KReg) : Instr :=
  match a with
  | none => .wderegWait
  | some a => .wderegHold a

/-- Their words. -/
def encDereg (n : Nat) (a : Option KReg) : Nat :=
  match a with
  | none => encSys n 0 0 0 0
  | some a => encSys n 1 a.val 0 0

theorem decC_dereg (w : Nat) :
    decC 1 w = if bitsOf w 16 16 = 0 then decBare .wderegWait w else decCodeK 1 (fun _ a => .wderegHold a) w := rfl

theorem dereg_reads : Reads (decC 1) deregForm encDereg where
  accepts n a := by
    cases a with
    | none =>
      have : bitsOf (encSys n 0 0 0 0) 16 16 = 0 := by simp only [encSys, bitsOf]; omega
      show decC 1 (encSys n 0 0 0 0) = .ok .wderegWait
      rw [decC_dereg, if_pos this, (decBare_reads .wderegWait).accepts n ()]
    | some a =>
      have : ¬bitsOf (encSys n 1 a.val 0 0) 16 16 = 0 := by simp only [encSys, bitsOf]; omega
      show decC 1 (encSys n 1 a.val 0 0) = .ok (.wderegHold a)
      rw [decC_dereg, if_neg this]
      exact (decCodeK_reads 1 (by decide) fun _ a => .wderegHold a).accepts n (1, a)
  only w i e := by
    rw [decC_dereg] at e
    split at e
    · obtain ⟨_, rfl, hw⟩ := (decBare_reads .wderegWait).only w i e
      exact ⟨none, rfl, hw⟩
    · rename_i hbit
      obtain ⟨⟨c, a⟩, rfl, hw⟩ := (decCodeK_reads 1 (by decide) fun _ a => .wderegHold a).only w i e
      have hlt : c.val < 2 := c.isLt
      have hcode := ((encSys_fields (by omega) (by omega) (by decide) (by decide)).1 hw).2.1
      have hc : c.val = 1 := by simp only [bitsOf] at hbit hcode; omega
      have hone : w = encSys (w / 16777216) 1 a.val 0 0 := by simpa only [hc] using hw
      exact ⟨some a, rfl, hone⟩
  opcode n a := by
    cases a <;> simp only [encDereg, encSys] <;> omega

end Sys2Proof
end

section
/-!
SUPPORT. The opcode map read both ways (R94): a word that decodes is the word that the encoder writes, and the encoder's words decode.
-/

namespace Sys2Proof

/-! ### Words that decode -/

/-- What a row of the opcode map accepts, the encoder writes. -/
theorem Reads.encodes {α : Type} {dec : Nat → Dec Instr} {mk : α → Instr} {enc : Nat → α → Nat} (h : Reads dec mk enc) {op w : Nat}
    {i : Instr} (hop : w / 16777216 = op) (he : ∀ x, encodeFirst (mk x) = some (enc op x)) (hd : dec w = .ok i) :
    encodeFirst i = some w := by
  obtain ⟨x, rfl, hw⟩ := h.only w i hd
  subst hop
  exact (he x).trans (congrArg some hw.symm)

section
variable {lo w : Nat} {i : Instr}

theorem dec0_encodes (hop : w / 16777216 = lo) (h : dec0 lo w = .ok i) : encodeFirst i = some w := by
  unfold dec0 at h
  split at h
  · exact (decBare_reads .nop).encodes hop (fun _ => rfl) h
  · exact (decBare_reads .endW).encodes hop (fun _ => rfl) h
  · exact (decBare_reads .yieldW).encodes hop (fun _ => rfl) h
  · exact (decJump_reads .jmp).encodes hop (fun _ => rfl) h
  · exact (decK_reads .jmpk).encodes hop (fun _ => rfl) h
  · exact (decJump_reads .call).encodes hop (fun _ => rfl) h
  · exact (decBare_reads .ret).encodes hop (fun _ => rfl) h
  · exact (decCond_reads .brany).encodes hop (fun _ => rfl) h
  · exact (decCond_reads .brall).encodes hop (fun _ => rfl) h
  · exact (decCond_reads .brnone).encodes hop (fun _ => rfl) h
  · exact (decCond_reads .ifp).encodes hop (fun _ => rfl) h
  · exact (decJump_reads .elsep).encodes hop (fun _ => rfl) h
  · exact (decBare_reads .endifp).encodes hop (fun _ => rfl) h
  · exact (decCond_reads .breakp).encodes hop (fun _ => rfl) h
  · exact trap_reads.encodes hop (fun _ => rfl) h
  · cases h

/-- The words of opcodes 0x10 to 0x1B; those of format F5 take a literal. -/
theorem dec1_encodes {lit : Dec W32} (hop : w / 16777216 = 16 + lo) (h : dec1 lo w lit = .ok i) : encodeFirst i = some w := by
  unfold dec1 at h
  split at h
  · exact (decDst_reads .execrd).encodes hop (fun _ => rfl) h
  · exact (execwr_reads lit).encodes hop (fun _ => rfl) h
  · exact (setMode_reads lit).encodes hop (fun _ => rfl) h
  · exact (decK_reads .modek).encodes hop (fun _ => rfl) h
  · cases lit with
    | error e => simp only [dec_bind_ok, reduceCtorEq, false_and, and_false, exists_false] at h
    | ok x => exact (lit_reads x).encodes hop (fun _ => rfl) h
  · cases lit with
    | error e => simp only [dec_bind_ok, reduceCtorEq, false_and, and_false, exists_false] at h
    | ok x => exact (lith_reads x).encodes hop (fun _ => rfl) h
  · exact (getsr_reads lit).encodes hop (fun _ => rfl) h
  · exact (setsr_reads lit).encodes hop (fun _ => rfl) h
  · exact (decBare_reads .eret).encodes hop (fun _ => rfl) h
  · exact (decBare_reads .nopreempt).encodes hop (fun _ => rfl) h
  · exact (decBare_reads .preemptok).encodes hop (fun _ => rfl) h
  · exact (decBare_reads .phase).encodes hop (fun _ => rfl) h
  · cases h

theorem dec2_encodes (hop : w / 16777216 = 32 + lo) (h : dec2 lo w = .ok i) : encodeFirst i = some w := by
  unfold dec2 at h
  split at h
  · exact (decTwo_reads .add).encodes hop (fun _ => rfl) h
  · exact (decTwo_reads .sub).encodes hop (fun _ => rfl) h
  · exact (decTwo_reads .mul).encodes hop (fun _ => rfl) h
  · exact (decTwo_reads .mulhi).encodes hop (fun _ => rfl) h
  · exact (decThree_reads .mad).encodes hop (fun _ => rfl) h
  · exact (decOne_reads .neg).encodes hop (fun _ => rfl) h
  · exact (decOne_reads .abs).encodes hop (fun _ => rfl) h
  · exact (decTwo_reads .min).encodes hop (fun _ => rfl) h
  · exact (decTwo_reads .max).encodes hop (fun _ => rfl) h
  · exact (decTwo_reads .div).encodes hop (fun _ => rfl) h
  · exact (decTwoF_reads fun d a b f h => .lea d a b (Fin.ofNat 8 f) h).encodes hop
      (fun ⟨d, a, b, f, h⟩ => congrArg (fun f => some (encTwo 0x2A d a b f h)) (Nat.mod_eq_of_lt f.isLt)) h
  · exact (decTwo_reads .scaleb).encodes hop (fun _ => rfl) h
  · exact (decTwoF_reads fun d a b f h => .cmp d a b (cmpOf f) h).encodes hop
      (fun ⟨d, a, b, f, h⟩ => congrArg (fun f => some (encTwo 0x2C d a b f h)) (code_cmpOf f.isLt)) h
  · exact (decTwoF_reads fun d a b f h => .sel d a b (preg f) h).encodes hop
      (fun ⟨d, a, b, f, h⟩ => congrArg (fun f => some (encTwo 0x2D d a b f h)) (preg_val f.isLt)) h
  · exact (decOne_reads .classF).encodes hop (fun _ => rfl) h
  · cases h

theorem dec3_encodes (hop : w / 16777216 = 48 + lo) (h : dec3 lo w = .ok i) : encodeFirst i = some w := by
  unfold dec3 at h
  split at h
  · exact (decTwo_reads .and).encodes hop (fun _ => rfl) h
  · exact (decTwo_reads .or).encodes hop (fun _ => rfl) h
  · exact (decTwo_reads .xor).encodes hop (fun _ => rfl) h
  · exact (decOne_reads .not).encodes hop (fun _ => rfl) h
  · exact (decTwo_reads .andn).encodes hop (fun _ => rfl) h
  · exact (decTwo_reads .shl).encodes hop (fun _ => rfl) h
  · exact (decTwo_reads .shr).encodes hop (fun _ => rfl) h
  · exact (decTwo_reads .sar).encodes hop (fun _ => rfl) h
  · exact (decTwo_reads .rotl).encodes hop (fun _ => rfl) h
  · exact (decOne_reads .clz).encodes hop (fun _ => rfl) h
  · exact (decOne_reads .popc).encodes hop (fun _ => rfl) h
  · exact (decOne_reads .brev).encodes hop (fun _ => rfl) h
  · exact (decThree_reads .bfx).encodes hop (fun _ => rfl) h
  · exact (decThree_reads .bfi).encodes hop (fun _ => rfl) h
  · exact pnot_reads.encodes hop (fun _ => rfl) h
  · cases h

theorem dec4_encodes (hop : w / 16777216 = 64 + lo) (h : dec4 lo w = .ok i) : encodeFirst i = some w := by
  unfold dec4 at h
  split at h
  · exact (decOne_reads .rcp).encodes hop (fun _ => rfl) h
  · exact (decOne_reads .rsq).encodes hop (fun _ => rfl) h
  · exact (decOne_reads .sqrt).encodes hop (fun _ => rfl) h
  · exact (decOne_reads .exp2).encodes hop (fun _ => rfl) h
  · exact (decOne_reads .log2).encodes hop (fun _ => rfl) h
  · exact (decOne_reads .ln).encodes hop (fun _ => rfl) h
  · exact (decOne_reads .fract).encodes hop (fun _ => rfl) h
  · exact (decOne_reads .roundi).encodes hop (fun _ => rfl) h
  · exact cvt_reads.encodes hop (fun _ => rfl) h
  · exact (decTwo_reads .pack).encodes hop (fun _ => rfl) h
  · exact (decOne_reads .unpack).encodes hop (fun _ => rfl) h
  · exact (decOne_reads .mxq).encodes hop (fun _ => rfl) h
  · exact (decTwo_reads .mxdq).encodes hop (fun _ => rfl) h
  · exact pset_reads.encodes hop (fun _ => rfl) h
  · exact (decPred2_reads .pand).encodes hop (fun _ => rfl) h
  · exact (decPred2_reads .por).encodes hop (fun _ => rfl) h
  · cases h

theorem dec5_encodes (hop : w / 16777216 = 80 + lo) (h : dec5 lo w = .ok i) : encodeFirst i = some w := by
  unfold dec5 at h
  split at h
  · exact (decTwo_reads .shfl).encodes hop (fun _ => rfl) h
  · exact (decTwo_reads .bfly).encodes hop (fun _ => rfl) h
  · exact (decTwo_reads .lrot).encodes hop (fun _ => rfl) h
  · exact (decTwo_reads .bcast).encodes hop (fun _ => rfl) h
  · exact (decOneF_reads voteOf_ok VoteOp.code_lt .vote).encodes hop (fun _ => rfl) h
  · exact (decOneF_reads redOf_ok RedOp.code_lt .lreduce).encodes hop (fun _ => rfl) h
  · exact (decOneF_reads redOf_ok RedOp.code_lt .lscan).encodes hop (fun _ => rfl) h
  · exact kmov_reads.encodes hop (fun ⟨_, y⟩ => by cases y <;> rfl) h
  · exact (decUni_reads .kadd).encodes hop (fun _ => rfl) h
  · exact (decUni_reads .ksub).encodes hop (fun _ => rfl) h
  · exact (decUni_reads .kmul).encodes hop (fun _ => rfl) h
  · exact (decUni_reads .kand).encodes hop (fun _ => rfl) h
  · exact (decUni_reads .kor).encodes hop (fun _ => rfl) h
  · exact (decUni_reads .kxor).encodes hop (fun _ => rfl) h
  · exact (decUni_reads .kshl).encodes hop (fun _ => rfl) h
  · exact (decUni_reads .kshr).encodes hop (fun _ => rfl) h
  · cases h

theorem dec6_encodes (hop : w / 16777216 = 96 + lo) (h : dec6 lo w = .ok i) : encodeFirst i = some w := by
  unfold dec6 at h
  split at h
  · exact (decUniF_reads fun d a y f => .kcmp d a y (cmpOf f)).encodes hop
      (fun ⟨d, a, y, f⟩ => congrArg (fun f => some (encUni 0x60 d a y f)) (code_cmpOf f.isLt)) h
  · exact kread_reads.encodes hop (fun _ => rfl) h
  · exact klit_reads.encodes hop (fun _ => rfl) h
  · exact (decBare_reads .propose).encodes hop (fun _ => rfl) h
  · exact (decOne_reads .accept).encodes hop (fun _ => rfl) h
  · exact (decBare_reads .discard).encodes hop (fun _ => rfl) h
  · exact (decDst_reads .draw).encodes hop (fun _ => rfl) h
  · exact (decOpt_reads .drawkey).encodes hop (fun ⟨_, b⟩ => by cases b <;> rfl) h
  · exact mbstat_reads.encodes hop (fun _ => rfl) h
  · exact mbclr_reads.encodes hop (fun _ => rfl) h
  · cases h

theorem dec7_encodes (hop : w / 16777216 = 112 + lo) (h : dec7 lo w = .ok i) : encodeFirst i = some w := by
  unfold dec7 at h
  split at h
  · exact (decMemD_reads .ld).encodes hop (fun _ => rfl) h
  · exact (decMem_reads .st).encodes hop (fun _ => rfl) h
  · exact (decMemD_reads .ldq).encodes hop (fun _ => rfl) h
  · exact (decMem_reads .stq).encodes hop (fun _ => rfl) h
  · exact (decMemD_reads .cas).encodes hop (fun _ => rfl) h
  · exact pref_reads.encodes hop (fun _ => rfl) h
  · exact (decKK_reads .pin).encodes hop (fun _ => rfl) h
  · exact (decKK_reads .unpin).encodes hop (fun _ => rfl) h
  · exact fence_reads.encodes hop (fun _ => rfl) h
  · exact (decCodeK_reads 2 (by decide) fun c a => .waitp (pathOf c) a).encodes hop
      (fun ⟨c, a⟩ => congrArg (fun c => some (encSys 0x7B c a.val 0 0)) (code_pathOf c.isLt)) h
  · cases h

theorem dec8_encodes (hop : w / 16777216 = 128 + lo) (hlo : lo < 16) (h : dec8 lo w = .ok i) : encodeFirst i = some w := by
  obtain ⟨o, ho, h⟩ := dec_bind_ok.1 h
  have hcode := atomOf_ok.1 ho
  split at h
  · exact (decMem_reads (.atom o)).encodes (op := 0x80 + o.code) (by omega) (fun _ => rfl) h
  · exact (decMemD_reads (.atomr o)).encodes (op := 0x88 + o.code) (by omega) (fun _ => rfl) h

theorem dec9_encodes (hop : w / 16777216 = 144 + lo) (h : dec9 lo w = .ok i) : encodeFirst i = some w := by
  unfold dec9 at h
  split at h
  · exact (decCodeK_reads 3 (by decide) fun c a => .mxplan (Fin.ofNat 8 c) a).encodes hop
      (fun ⟨c, a⟩ => congrArg (fun c => some (encSys 0x90 c a.val 0 0)) (Nat.mod_eq_of_lt c.isLt)) h
  · exact mxzero_reads.encodes hop (fun _ => rfl) h
  · exact mxstep_reads.encodes hop (fun _ => rfl) h
  · exact mxloop_reads.encodes hop (fun _ => rfl) h
  · exact (decOne_reads .mxrd).encodes hop (fun _ => rfl) h
  · exact mxwr_reads.encodes hop (fun _ => rfl) h
  · exact mxmon_reads.encodes hop (fun _ => rfl) h
  · exact (decOne_reads .monrd).encodes hop (fun _ => rfl) h
  · exact monclr_reads.encodes hop (fun _ => rfl) h
  · cases h

theorem decA_encodes (hop : w / 16777216 = 160 + lo) (h : decA lo w = .ok i) : encodeFirst i = some w := by
  unfold decA at h
  split at h
  · exact (decKK_reads .barinit).encodes hop (fun _ => rfl) h
  · exact (decOpt_reads .bararr).encodes hop (fun ⟨_, b⟩ => by cases b <;> rfl) h
  · exact (decKK_reads .barwait).encodes hop (fun _ => rfl) h
  · exact (decK_reads .barfree).encodes hop (fun _ => rfl) h
  · exact cnt_reads.encodes hop (fun | ⟨_, none⟩ | ⟨_, some (_, false)⟩ | ⟨_, some (_, true)⟩ => rfl) h
  · exact (decKK_reads .cntwait).encodes hop (fun _ => rfl) h
  · exact (decKK_reads .cntarm).encodes hop (fun _ => rfl) h
  · exact (decCodeK_reads 2 (by decide) fun c a => .pmsel (Fin.ofNat 4 c) a).encodes hop
      (fun ⟨c, a⟩ => congrArg (fun c => some (encSys 0xA7 c a.val 0 0)) (Nat.mod_eq_of_lt c.isLt)) h
  · exact (decOne_reads .pmrd).encodes hop (fun _ => rfl) h
  · exact (decK_reads .pmreplay).encodes hop (fun _ => rfl) h
  · cases h

theorem decB_encodes (hop : w / 16777216 = 176 + lo) (h : decB lo w = .ok i) : encodeFirst i = some w := by
  unfold decB at h
  split at h
  · exact shape_reads.encodes hop (fun _ => rfl) h
  · exact cpy_reads.encodes hop (fun ⟨_, b⟩ => by cases b <;> rfl) h
  · exact (decCodeK_reads 8 (by decide) fun c a => .cpym a (BitVec.ofNat 8 c)).encodes hop
      (fun ⟨c, a⟩ => congrArg (fun c => some (encSys 0xB2 c a.val 0 0)) (Nat.mod_eq_of_lt c.isLt)) h
  · exact (decK_reads .cpydq).encodes hop (fun _ => rfl) h
  · exact (decCodeK_reads 3 (by decide) fun c a => .chkick (Fin.ofNat 8 c) a).encodes hop
      (fun ⟨c, a⟩ => congrArg (fun c => some (encSys 0xB4 c a.val 0 0)) (Nat.mod_eq_of_lt c.isLt)) h
  · exact (decCodeK_reads 3 (by decide) fun c a => .chtail (Fin.ofNat 8 c) a).encodes hop
      (fun ⟨c, a⟩ => congrArg (fun c => some (encSys 0xB5 c a.val 0 0)) (Nat.mod_eq_of_lt c.isLt)) h
  · exact (decK_reads .tkpost).encodes hop (fun _ => rfl) h
  · exact (decCodeK_reads 3 (by decide) fun c a => .launch (Fin.ofNat 8 c) a).encodes hop
      (fun ⟨c, a⟩ => congrArg (fun c => some (encSys 0xB9 c a.val 0 0)) (Nat.mod_eq_of_lt c.isLt)) h
  · exact (decCodeK_reads 1 (by decide) fun c a => if c = 0 then .rtemitRec a else .rtemitBox a).encodes hop
      (fun ⟨c, _⟩ => by fin_cases c <;> rfl) h
  · exact rttake_reads.encodes hop (fun _ => rfl) h
  · exact (decBare_reads .rtdone).encodes hop (fun _ => rfl) h
  · exact (decBare_reads .rtrej).encodes hop (fun _ => rfl) h
  · exact (decOne_reads .rtstat).encodes hop (fun _ => rfl) h
  · cases h

theorem decC_encodes (hop : w / 16777216 = 192 + lo) (h : decC lo w = .ok i) : encodeFirst i = some w := by
  unfold decC at h
  split at h
  · exact (decCodeK_reads 1 (by decide) fun c a => if c = 0 then .wregWait a else .wregHold a).encodes hop
      (fun ⟨c, _⟩ => by fin_cases c <;> rfl) h
  · exact dereg_reads.encodes hop (fun a => by cases a <;> rfl) h
  · exact (decKK_reads .wprio).encodes hop (fun _ => rfl) h
  · exact (decTwo_reads .wquery).encodes hop (fun _ => rfl) h
  · exact (decK_reads .lock).encodes hop (fun _ => rfl) h
  · exact (decK_reads .unlock).encodes hop (fun _ => rfl) h
  · exact (decKK_reads .semtake).encodes hop (fun _ => rfl) h
  · exact (decKK_reads .semgive).encodes hop (fun _ => rfl) h
  · cases h

theorem decD_encodes (hop : w / 16777216 = 208 + lo) (h : decD lo w = .ok i) : encodeFirst i = some w := by
  unfold decD at h
  split at h
  · exact (decCodeK_reads 1 (by decide) fun c a => .puts a (c = 1)).encodes hop
      (fun ⟨c, a⟩ => congrArg (fun c => some (encSys 0xD0 c a.val 0 0)) (bit_decide c.isLt)) h
  · exact (decK_reads .get).encodes hop (fun _ => rfl) h
  · exact (decCodeK_reads 1 (by decide) fun c a => .radd a (c = 1)).encodes hop
      (fun ⟨c, a⟩ => congrArg (fun c => some (encSys 0xD2 c a.val 0 0)) (bit_decide c.isLt)) h
  · exact (decBare_reads .rfence).encodes hop (fun _ => rfl) h
  · exact (decK_reads .coll).encodes hop (fun _ => rfl) h
  · cases h
end

/-- The row of an opcode, by its halves (R94). -/
def opRow (hi lo w : Nat) (literal : Dec W32) : Dec Instr :=
  match hi with
  | 0 => dec0 lo w
  | 1 => dec1 lo w literal
  | 2 => dec2 lo w
  | 3 => dec3 lo w
  | 4 => dec4 lo w
  | 5 => dec5 lo w
  | 6 => dec6 lo w
  | 7 => dec7 lo w
  | 8 => dec8 lo w
  | 9 => dec9 lo w
  | 10 => decA lo w
  | 11 => decB lo w
  | 12 => decC lo w
  | 13 => decD lo w
  | _ => .error .unassignedOpcode

theorem decodeFields_opRow (w : Nat) (literal : Dec W32) :
    decodeFields w literal = opRow (bitsOf w 31 28) (bitsOf w 27 24) w literal := rfl

/-- A word that decodes is the first word that the encoder writes. -/
theorem decodeFields_encodes {w : Nat} {literal : Dec W32} {i : Instr} (hw : w < 2 ^ 32) (h : decodeFields w literal = .ok i) :
    encodeFirst i = some w := by
  have hop : w / 16777216 = 16 * bitsOf w 31 28 + bitsOf w 27 24 := by simp only [bitsOf]; omega
  have hlo : bitsOf w 27 24 < 16 := Nat.mod_lt _ (by decide)
  rw [decodeFields_opRow] at h
  generalize bitsOf w 31 28 = hi at hop h
  generalize bitsOf w 27 24 = lo at hop h hlo
  unfold opRow at h
  split at h
  · exact dec0_encodes (by omega) h
  · exact dec1_encodes (by omega) h
  · exact dec2_encodes (by omega) h
  · exact dec3_encodes (by omega) h
  · exact dec4_encodes (by omega) h
  · exact dec5_encodes (by omega) h
  · exact dec6_encodes (by omega) h
  · exact dec7_encodes (by omega) h
  · exact dec8_encodes (by omega) hlo h
  · exact dec9_encodes (by omega) h
  · exact decA_encodes (by omega) h
  · exact decB_encodes (by omega) h
  · exact decC_encodes (by omega) h
  · exact decD_encodes (by omega) h
  · cases h

/-! ### Words that the encoder writes -/

/-- The literal word of an instruction of format F5 (R82). -/
def Instr.literal : Instr → Option W32
  | .lit _ x | .lith _ x => some x
  | _ => none

/-- The first word of an instruction decodes to it, with a literal word beside it. -/
def Decodes (literal : Dec W32) (i : Instr) : Prop :=
  ∃ w, encodeFirst i = some w ∧ w < 2 ^ 32 ∧ decodeFields w literal = .ok i

/-- What the encoder writes for a row of the opcode map, the decoder accepts. -/
theorem Reads.decodes {α : Type} {dec : Nat → Dec Instr} {mk : α → Instr} {enc : Nat → α → Nat} (h : Reads dec mk enc) {op : Nat}
    {literal : Dec W32} {i : Instr} (x : α) (hi : mk x = i) (he : encodeFirst i = some (enc op x))
    (row : ∀ w, opRow (op / 16) (op % 16) w literal = dec w := by exact fun _ => rfl) (hop : op < 256 := by decide) : Decodes literal i := by
  have hw := h.opcode op x
  refine ⟨enc op x, he, by omega, ?_⟩
  have h1 : bitsOf (enc op x) 31 28 = op / 16 := by simp only [bitsOf]; omega
  have h2 : bitsOf (enc op x) 27 24 = op % 16 := by simp only [bitsOf]; omega
  rw [decodeFields_opRow, h1, h2, row, h.accepts op x, hi]

/-- The encoder's words decode. -/
theorem decodes_of_encoding (i : Instr) {literal : Dec W32} (hi : i.isEvent = false) (hl : ∀ x, i.literal = some x → literal = .ok x) :
    Decodes literal i := by
  cases i
  case add d a b h | sub d a b h | mul d a b h | mulhi d a b h | min d a b h | max d a b h | div d a b h | scaleb d a b h |
      and d a b h | or d a b h | xor d a b h | andn d a b h | shl d a b h | shr d a b h | sar d a b h | rotl d a b h |
      pack d a b h | mxdq d a b h | shfl d a b h | bfly d a b h | lrot d a b h | bcast d a b h | wquery d a b h =>
    exact (decTwo_reads _).decodes (d, a, b, h) rfl rfl
  case neg d a h | abs d a h | classF d a h | not d a h | clz d a h | popc d a h | brev d a h | rcp d a h | rsq d a h |
      sqrt d a h | exp2 d a h | log2 d a h | ln d a h | fract d a h | roundi d a h | unpack d a h | mxq d a h | accept d a h |
      mxrd d a h | monrd d a h | pmrd d a h | rtstat d a h =>
    exact (decOne_reads _).decodes (d, a, h) rfl rfl
  case mad d a b c | bfx d a b c | bfi d a b c =>
    exact (decThree_reads _).decodes (d, a, b, c) rfl rfl
  case ld d a b c | ldq d a b c | cas d a b c =>
    exact (decMemD_reads _).decodes (d, a, b, c) rfl rfl
  case st a b c | stq a b c =>
    exact (decMem_reads _).decodes (a, b, c) rfl rfl
  case jmp o | call o | elsep o =>
    exact (decJump_reads _).decodes o rfl rfl
  case brany c o | brall c o | brnone c o | ifp c o | breakp c o =>
    exact (decCond_reads _).decodes (c, o) rfl rfl
  case nop | endW | yieldW | ret | endifp | eret | nopreempt | preemptok | phase | propose | discard | rtdone | rtrej | rfence =>
    exact (decBare_reads _).decodes () rfl rfl
  case jmpk a | modek a | barfree a | pmreplay a | cpydq a | tkpost a | lock a | unlock a | get a | coll a =>
    exact (decK_reads _).decodes a rfl rfl
  case pin a b | unpin a b | barinit a b | barwait a b | cntwait a b | cntarm a b | wprio a b | semtake a b | semgive a b =>
    exact (decKK_reads _).decodes (a, b) rfl rfl
  case kadd d a y | ksub d a y | kmul d a y | kand d a y | kor d a y | kxor d a y | kshl d a y | kshr d a y =>
    exact (decUni_reads _).decodes (d, a, y) rfl rfl
  case pand p g1 g2 | por p g1 g2 =>
    exact (decPred2_reads _).decodes (p, g1, g2) rfl rfl
  case execrd d h | draw d h =>
    exact (decDst_reads _).decodes (d, h) rfl rfl
  case trap n a => exact trap_reads.decodes (n, a) rfl rfl
  case execwr a h => exact (execwr_reads literal).decodes (a, h) rfl rfl
  case setMode m => exact (setMode_reads literal).decodes m rfl rfl
  case lit d x => rw [hl x rfl]; exact (lit_reads x).decodes d rfl rfl
  case lith d x => rw [hl x rfl]; exact (lith_reads x).decodes d rfl rfl
  case getsr d r h => exact (getsr_reads literal).decodes (d, r, h) rfl rfl
  case setsr r a => exact (setsr_reads literal).decodes (r, a) rfl rfl
  case lea d a b s h =>
    exact (decTwoF_reads fun d a b f h => .lea d a b (Fin.ofNat 8 f) h).decodes (d, a, b, s, h)
      (congrArg (fun s => Instr.lea d a b s h) (ofNat_eq rfl)) rfl
  case cmp d a b c h =>
    exact (decTwoF_reads fun d a b f h => .cmp d a b (cmpOf f) h).decodes (d, a, b, ⟨c.code, c.code_lt⟩, h)
      (congrArg (fun c => Instr.cmp d a b c h) (cmpOf_code c)) rfl
  case sel d a b p h =>
    exact (decTwoF_reads fun d a b f h => .sel d a b (preg f) h).decodes (d, a, b, p, h)
      (congrArg (fun p => Instr.sel d a b p h) (preg_eq rfl)) rfl
  case pnot p g => exact pnot_reads.decodes (p, g) rfl rfl
  case cvt d a k h => exact cvt_reads.decodes (d, a, k, h) rfl rfl
  case pset p a => exact pset_reads.decodes (p, a) rfl rfl
  case vote d a o h => exact (decOneF_reads voteOf_ok VoteOp.code_lt .vote).decodes (d, a, o, h) rfl rfl
  case lreduce d a o h => exact (decOneF_reads redOf_ok RedOp.code_lt .lreduce).decodes (d, a, o, h) rfl rfl
  case lscan d a o h => exact (decOneF_reads redOf_ok RedOp.code_lt .lscan).decodes (d, a, o, h) rfl rfl
  case kmov d y => exact kmov_reads.decodes (d, y) rfl (by cases y <;> rfl)
  case kcmp d a y c =>
    exact (decUniF_reads fun d a y f => .kcmp d a y (cmpOf f)).decodes (d, a, y, ⟨c.code, c.code_lt⟩)
      (congrArg (Instr.kcmp d a y) (cmpOf_code c)) rfl
  case kread d a l w64 => exact kread_reads.decodes (d, a, l, w64) rfl rfl
  case klit d i => exact klit_reads.decodes (d, i) rfl rfl
  case drawkey a b => exact (decOpt_reads .drawkey).decodes (a, b) rfl (by cases b <;> rfl)
  case mbstat d a => exact mbstat_reads.decodes (d, a) rfl rfl
  case mbclr p a m => exact mbclr_reads.decodes (p, a, m) rfl rfl
  case pref a c => exact pref_reads.decodes (a, c) rfl rfl
  case fence s o => exact fence_reads.decodes (s, o) rfl rfl
  case waitp p a =>
    exact (decCodeK_reads 2 (by decide) fun c a => .waitp (pathOf c) a).decodes (⟨p.code, p.code_lt⟩, a)
      (congrArg (fun p => Instr.waitp p a) (pathOf_code p)) rfl
  case atom o a b c => cases o <;> exact (decMem_reads _).decodes (a, b, c) rfl rfl
  case atomr o d a b c => cases o <;> exact (decMemD_reads _).decodes (d, a, b, c) rfl rfl
  case mxplan p a =>
    exact (decCodeK_reads 3 (by decide) fun c a => .mxplan (Fin.ofNat 8 c) a).decodes (p, a)
      (congrArg (fun p => Instr.mxplan p a) (ofNat_eq rfl)) rfl
  case mxzero t f => exact mxzero_reads.decodes (t, f) rfl rfl
  case mxstep t p a s => exact mxstep_reads.decodes (t, p, a, s) rfl rfl
  case mxloop t p a l s => exact mxloop_reads.decodes (t, p, a, l, s) rfl rfl
  case mxwr a b => exact mxwr_reads.decodes (a, b) rfl rfl
  case mxmon n a s => exact mxmon_reads.decodes (n, a, s) rfl rfl
  case monclr m => exact monclr_reads.decodes m rfl rfl
  case bararr a b => exact (decOpt_reads .bararr).decodes (a, b) rfl (by cases b <;> rfl)
  case cntadd a b => exact cnt_reads.decodes (a, some (b, false)) rfl rfl
  case cntaddMax a b => exact cnt_reads.decodes (a, some (b, true)) rfl rfl
  case cntaddSignal a => exact cnt_reads.decodes (a, none) rfl rfl
  case pmsel c a =>
    exact (decCodeK_reads 2 (by decide) fun c a => .pmsel (Fin.ofNat 4 c) a).decodes (c, a)
      (congrArg (fun c => Instr.pmsel c a) (ofNat_eq rfl)) rfl
  case shape d a b z => exact shape_reads.decodes (d, a, b, z) rfl rfl
  case cpy a b => exact cpy_reads.decodes (a, b) rfl (by cases b <;> rfl)
  case cpym a m =>
    exact (decCodeK_reads 8 (by decide) fun c a => .cpym a (BitVec.ofNat 8 c)).decodes (m.toFin, a)
      (congrArg (Instr.cpym a) ((BitVec.ofNat_toNat 8 m).trans (BitVec.setWidth_eq m))) rfl
  case chkick ch a =>
    exact (decCodeK_reads 3 (by decide) fun c a => .chkick (Fin.ofNat 8 c) a).decodes (ch, a)
      (congrArg (fun c => Instr.chkick c a) (ofNat_eq rfl)) rfl
  case chtail ch a =>
    exact (decCodeK_reads 3 (by decide) fun c a => .chtail (Fin.ofNat 8 c) a).decodes (ch, a)
      (congrArg (fun c => Instr.chtail c a) (ofNat_eq rfl)) rfl
  case launch q a =>
    exact (decCodeK_reads 3 (by decide) fun c a => .launch (Fin.ofNat 8 c) a).decodes (q, a)
      (congrArg (fun c => Instr.launch c a) (ofNat_eq rfl)) rfl
  case rtemitRec a => exact (decCodeK_reads 1 (by decide) fun c a => if c = 0 then .rtemitRec a else .rtemitBox a).decodes (0, a) rfl rfl
  case rtemitBox a => exact (decCodeK_reads 1 (by decide) fun c a => if c = 0 then .rtemitRec a else .rtemitBox a).decodes (1, a) rfl rfl
  case wregWait a => exact (decCodeK_reads 1 (by decide) fun c a => if c = 0 then .wregWait a else .wregHold a).decodes (0, a) rfl rfl
  case wregHold a => exact (decCodeK_reads 1 (by decide) fun c a => if c = 0 then .wregWait a else .wregHold a).decodes (1, a) rfl rfl
  case rttake x => exact rttake_reads.decodes x rfl rfl
  case wderegWait => exact dereg_reads.decodes none rfl rfl
  case wderegHold a => exact dereg_reads.decodes (some a) rfl rfl
  case puts a r =>
    exact (decCodeK_reads 1 (by decide) fun c a => .puts a (c = 1)).decodes (⟨bit r, bit_lt r⟩, a)
      (congrArg (Instr.puts a) (decide_bit r)) rfl
  case radd a r =>
    exact (decCodeK_reads 1 (by decide) fun c a => .radd a (c = 1)).decodes (⟨bit r, bit_lt r⟩, a)
      (congrArg (Instr.radd a) (decide_bit r)) rfl
  all_goals cases hi

end Sys2Proof
end

section
/-!
SUPPORT. Decoding and encoding agree (R76 to R82, R90): bytes of words, literal words, and both directions of the round trip.
-/

namespace Sys2Proof

/-! ### Bytes of a word (R75) -/

theorem append_byte_toNat {n : Nat} (x : BitVec n) (y : W8) : (x ++ y).toNat = x.toNat * 256 + y.toNat := by
  rw [BitVec.toNat_append, ← Nat.shiftLeft_add_eq_or_of_lt y.isLt, Nat.shiftLeft_eq]

theorem wordOfBytes_toNat (b0 b1 b2 b3 : W8) :
    (wordOfBytes b0 b1 b2 b3).toNat = ((b3.toNat * 256 + b2.toNat) * 256 + b1.toNat) * 256 + b0.toNat := by
  rw [← append_byte_toNat b3 b2, ← append_byte_toNat (b3 ++ b2) b1, ← append_byte_toNat (b3 ++ b2 ++ b1) b0]
  rfl

theorem wordOfBytes_bytesOfWord (w : W32) :
    wordOfBytes (w.extractLsb' 0 8) (w.extractLsb' 8 8) (w.extractLsb' 16 8) (w.extractLsb' 24 8) = w := by
  apply BitVec.eq_of_toNat_eq
  have := w.isLt
  simp only [wordOfBytes_toNat, BitVec.extractLsb'_toNat, Nat.shiftRight_eq_div_pow]
  omega

theorem bytesOfWord_wordOfBytes (b0 b1 b2 b3 : W8) : bytesOfWord (wordOfBytes b0 b1 b2 b3) = [b0, b1, b2, b3] := by
  have := b0.isLt; have := b1.isLt; have := b2.isLt; have := b3.isLt
  simp only [bytesOfWord, List.cons.injEq, and_true, ← BitVec.toNat_inj, BitVec.extractLsb'_toNat, wordOfBytes_toNat,
    Nat.shiftRight_eq_div_pow]
  omega

/-- A word at the front of a list of bytes decodes with what follows it. -/
theorem decode_word (w : W32) (rest : List W8) : decode (bytesOfWord w ++ rest) =
    (decodeWord w (literalOf rest)).map fun i => (i, if wantsLiteral w then rest.drop 4 else rest) := by
  show (decodeWord (wordOfBytes _ _ _ _) (literalOf rest) >>= fun i => .ok (i, if wantsLiteral (wordOfBytes _ _ _ _) then rest.drop 4 else rest)) = _
  rw [wordOfBytes_bytesOfWord]
  cases decodeWord w (literalOf rest) <;> rfl

/-! ### Literal words (R82) -/

theorem encode_eq {i : Instr} {w : Nat} (h : encodeFirst i = some w) : encode i = BitVec.ofNat 32 w :: i.literal.toList := by
  unfold encode Instr.literal
  rw [h]
  cases i <;> rfl

theorem isEvent_of_encodeFirst {i : Instr} {w : Nat} (h : encodeFirst i = some w) : i.isEvent = false := by
  rw [← Bool.not_eq_true]
  intro hi
  cases i <;> cases hi <;> cases h

/-- The first word of an instruction with a literal asks for it. -/
theorem wantsLiteral_of_literal {i : Instr} {w : W32} {x : W32} (h : encodeFirst i = some w.toNat) (hi : i.literal = some x) :
    wantsLiteral w = true := by
  unfold Instr.literal at hi
  split at hi
  · rename_i d y
    have := d.code_lt
    have h : 0x14 * 16777216 + d.code * 262144 = w.toNat := Option.some.inj h
    have : bitsOf w.toNat 31 24 = 0x14 := by simp only [bitsOf]; omega
    simp [wantsLiteral, this]
  · rename_i d y
    have := d.code_lt
    have h : 0x15 * 16777216 + d.code * 262144 = w.toNat := Option.some.inj h
    have : bitsOf w.toNat 31 24 = 0x15 := by simp only [bitsOf]; omega
    simp [wantsLiteral, this]
  · cases hi

/-- A word that asks for a literal decodes with it alone, to an instruction that has it. -/
theorem literal_of_wantsLiteral {i : Instr} {w : W32} {literal : Dec W32} (hw : wantsLiteral w = true)
    (h : decodeFields w.toNat literal = .ok i) : ∃ x, literal = .ok x ∧ i.literal = some x := by
  have hop : bitsOf w.toNat 31 24 = 0x14 ∨ bitsOf w.toNat 31 24 = 0x15 := by simpa [wantsLiteral] using hw
  have hhi : bitsOf w.toNat 31 28 = 1 := by simp only [bitsOf] at *; omega
  have hlo : bitsOf w.toNat 27 24 = 4 ∨ bitsOf w.toNat 27 24 = 5 := by simp only [bitsOf] at *; omega
  rw [decodeFields_opRow, hhi] at h
  rcases hlo with hlo | hlo <;> rw [hlo] at h <;> simp only [opRow, dec1, dec_bind_ok, Except.ok.injEq] at h
  · obtain ⟨d, _, _, _, x, hx, rfl⟩ := h
    exact ⟨x, hx, rfl⟩
  · obtain ⟨d, _, _, _, x, hx, rfl⟩ := h
    exact ⟨x, hx, rfl⟩

/-- An instruction without a literal decodes from its first word alone, whatever follows it. -/
theorem decodeFields_literal {i : Instr} {w : W32} {literal : Dec W32} (h : decodeFields w.toNat literal = .ok i)
    (hi : i.literal = none) (other : Dec W32) : decodeFields w.toNat other = .ok i := by
  have he := decodeFields_encodes w.isLt h
  obtain ⟨v, hv, _, hd⟩ := decodes_of_encoding i (literal := other) (isEvent_of_encodeFirst he) (by simp [hi])
  rw [he] at hv
  rwa [Option.some.inj hv]

/-! ### Round trip -/

theorem decodeWord_ok {w : W32} {literal : Dec W32} {i : Instr} :
    decodeWord w literal = .ok i ↔ decodeFields w.toNat literal = .ok i ∧ i.wf = true := by
  unfold decodeWord
  rw [dec_bind_ok]
  constructor
  · rintro ⟨j, hj, e⟩
    split at e <;> cases e
    exact ⟨hj, ‹_›⟩
  · rintro ⟨hj, hw⟩
    exact ⟨i, hj, if_pos hw⟩

theorem literalOf_word (x : W32) (rest : List W8) : literalOf (bytesOfWord x ++ rest) = .ok x :=
  congrArg Except.ok (wordOfBytes_bytesOfWord x)

theorem literalOf_ok {bytes : List W8} {x : W32} (h : literalOf bytes = .ok x) : bytes = bytesOfWord x ++ bytes.drop 4 := by
  unfold literalOf at h
  split at h
  · cases h
    rw [bytesOfWord_wordOfBytes]
    rfl
  · cases h

/-- What the encoder writes decodes to the instruction, followed by what follows it. -/
theorem decode_encodeBytes (i : Instr) (rest : List W8) (hwf : i.wf = true) (hi : i.isEvent = false) :
    decode (encodeBytes i ++ rest) = .ok (i, rest) := by
  cases hl : i.literal with
  | none =>
    obtain ⟨w, he, hw, hd⟩ := decodes_of_encoding i (literal := literalOf rest) hi (by simp [hl])
    have hto : (BitVec.ofNat 32 w).toNat = w := by rw [BitVec.toNat_ofNat, Nat.mod_eq_of_lt hw]
    have hwants : wantsLiteral (BitVec.ofNat 32 w) = false := by
      rw [← Bool.not_eq_true]
      intro hwants
      obtain ⟨x, _, hx⟩ := literal_of_wantsLiteral hwants (hto.symm ▸ hd)
      rw [hl] at hx
      cases hx
    rw [encodeBytes, encode_eq he, hl, Option.toList_none, List.flatMap_singleton, decode_word,
      decodeWord_ok.2 ⟨hto.symm ▸ hd, hwf⟩, hwants]
    rfl
  | some x =>
    obtain ⟨w, he, hw, hd⟩ := decodes_of_encoding i (literal := literalOf (bytesOfWord x ++ rest)) hi
      (fun y hy => by rw [hl] at hy; cases hy; exact literalOf_word x rest)
    have hto : (BitVec.ofNat 32 w).toNat = w := by rw [BitVec.toNat_ofNat, Nat.mod_eq_of_lt hw]
    have hbytes : encodeBytes i ++ rest = bytesOfWord (BitVec.ofNat 32 w) ++ (bytesOfWord x ++ rest) := by
      rw [encodeBytes, encode_eq he, hl, Option.toList_some, List.flatMap_cons, List.flatMap_singleton, List.append_assoc]
    rw [hbytes, decode_word, decodeWord_ok.2 ⟨hto.symm ▸ hd, hwf⟩, wantsLiteral_of_literal (hto.symm ▸ he) hl]
    rfl

/-- Bytes that decode are those that the encoder writes for the instruction. -/
theorem decode_ok {bytes rest : List W8} {i : Instr} (h : decode bytes = .ok (i, rest)) :
    i.wf = true ∧ i.isEvent = false ∧ bytes = encodeBytes i ++ rest := by
  match bytes, h with
  | b0 :: b1 :: b2 :: b3 :: tail, h =>
    obtain ⟨w, hw⟩ : ∃ w, bytesOfWord w = [b0, b1, b2, b3] := ⟨_, bytesOfWord_wordOfBytes b0 b1 b2 b3⟩
    have hbytes : b0 :: b1 :: b2 :: b3 :: tail = bytesOfWord w ++ tail := by rw [hw]; rfl
    rw [hbytes, decode_word, dec_map_ok] at h
    obtain ⟨j, hj, e⟩ := h
    obtain ⟨hd, hwf⟩ := decodeWord_ok.1 hj
    obtain ⟨rfl, rfl⟩ := Prod.mk.inj e
    have he := decodeFields_encodes w.isLt hd
    refine ⟨hwf, isEvent_of_encodeFirst he, ?_⟩
    rw [hbytes, encodeBytes, encode_eq he, BitVec.ofNat_toNat, BitVec.setWidth_eq, List.flatMap_cons, List.append_assoc]
    cases hwants : wantsLiteral w with
    | true =>
      obtain ⟨x, hx, hl⟩ := literal_of_wantsLiteral hwants hd
      rw [hl, if_pos rfl, Option.toList_some, List.flatMap_singleton, ← literalOf_ok hx]
    | false =>
      cases hl : j.literal with
      | none => rfl
      | some x =>
        rw [wantsLiteral_of_literal he hl] at hwants
        cases hwants

/-- Settles O58: every row of the opcode map reads what the encoder writes there, and nothing else. -/
theorem Settled.roundTrip : Obligations.RoundTrip :=
  ⟨decode_encodeBytes, fun _ _ _ => decode_ok⟩

end Sys2Proof
end

section
/-!
SUPPORT. Lane instructions behind their operand checks (R91, R97, R157): what the shared forms of one and of two sources leave; predicates, control, the traps of the operand checks, worked words.
-/

namespace Sys2Proof

open Sys2Proof.Machine

/-! ### Two sources -/

/-- A two-source element instruction whose operands pass R91. -/
theorem laneTwo_done (s : State) (d : Dst) (a : Src) (b : Src2) (h : Hold) (ok : Ty → Bool) (f : Arith → Nat → Nat → Nat) :
    let r := s.wave.regs
    let w := regsWide r
    let t := curTy r
    let x := srcLanes r s.wave.ids.wave.val a w
    let y := src2Lanes r s.wave.ids.wave.val b w
    let v : Lanes W64 := Lanes.of fun l => map2 t (f (arithOf r t)) x[l] y[l]
    operandFault r ([.src a w] ++ useSrc2 b w ++ [.dst d w]) (tyIn r ok) = none →
      ∃ u, laneTwo s d a b h ok f = .next u ∧ OnlyRegs s u ∧ LaneDone r u.wave.regs 4 d w v (heldBy h (x, w) (y, w) (onActive r v, w)) := by
  intro r w t x y v hpass
  obtain ⟨u, hu, hregs, he⟩ := checked_next s _ _ _ hpass
  refine ⟨u, hu, hregs, ?_⟩
  rw [he]
  exact laneFinish_done r 4 d h ⟨x, w, y, w⟩ v w (dstFits_of_passed r _ _ d w (by simp) hpass)

/-- Settles O1: every two-source lane instruction is the shared form with its own function. -/
theorem Settled.twoSourceLanes : Obligations.TwoSourceLanes := by
  unfold Obligations.TwoSourceLanes
  intro s d a b h
  exact ⟨laneTwo_done s d a b h okArith eAdd, laneTwo_done s d a b h okArith eSub, laneTwo_done s d a b h okArith eMul,
    laneTwo_done s d a b h tyInt eMulhi, laneTwo_done s d a b h okArith eMin, laneTwo_done s d a b h okArith eMax,
    laneTwo_done s d a b h okArith eDiv, laneTwo_done s d a b h tyFp eScaleb, laneTwo_done s d a b h okAny fun _ => eAnd,
    laneTwo_done s d a b h okAny fun _ => eOr, laneTwo_done s d a b h okAny fun _ => eXor, laneTwo_done s d a b h okAny eAndn,
    laneTwo_done s d a b h tyInt eShl, laneTwo_done s d a b h tyInt eShr, laneTwo_done s d a b h tyInt eSar,
    laneTwo_done s d a b h tyInt eRotl⟩

/-! ### One source -/

/-- An effect on the wave and the counters stays one where free values have been taken as well. -/
theorem OnlyWave.withFree {s t : State} (h : OnlyWave s t) (n : Nat) : OnlyWave { s with free := n } { t with free := n } :=
  OnlyWave.of_eq (by rw [h.rest]) h.cores

/-- Only a hold of `.hb` takes free values (log entry 17). -/
theorem useFree_form (s : State) (h : Hold) : ∃ n, useFree s h = { s with free := n } ∧ (h ≠ .b → n = s.free) := by
  unfold useFree
  split
  · exact ⟨_, rfl, fun hb => absurd ‹_› hb⟩
  · exact ⟨_, rfl, fun _ => rfl⟩

/-- A one-source lane instruction whose operands pass R91. -/
theorem laneOneBy_done (s : State) (d : Dst) (a : Src) (h : Hold) (ok : Ty → Bool) (sw dw : Bool) (f : Regs → Lanes W64 → Lanes W64)
    (hpass : operandFault s.wave.regs [.src a sw, .dst d dw] (tyIn s.wave.regs ok) = none) :
    let r := s.wave.regs
    let x := srcLanes r s.wave.ids.wave.val a sw
    ∃ u, laneOneBy s d a h ok sw dw f = .next u ∧ OnlyRegs { s with free := u.free } u ∧ (h ≠ .b → u.free = s.free) ∧
      LaneDone r u.wave.regs 4 d dw (f r x) (heldBy h (x, sw) (freeLanes s, dw) (onActive r (f r x), dw)) := by
  intro r x
  have hbanks := countBanks_only s [.src a sw, .dst d dw]
  have hwave := countBanks_wave s [.src a sw, .dst d dw]
  simp only [laneOneBy, checkedState, hpass]
  generalize countBanks s [.src a sw, .dst d dw] = t at hbanks hwave
  have hfree : t.free = s.free := by rw [hbanks.rest]
  have hlanes : freeLanes t = freeLanes s := by rw [freeLanes, hfree, freeLanes]
  obtain ⟨n, hn, hkept⟩ := useFree_form t h
  refine ⟨_, rfl, ⟨?_, ?_⟩, fun hb => ?_, ?_⟩ <;> rw [hn]
  · exact (hbanks.withFree n).trans (onRegs_only _ _).out
  · simp only [onRegs, hwave]
  · exact (hkept hb).trans hfree
  · simp only [onRegs, hwave, hlanes]
    exact laneFinish_done r 4 d h ⟨x, sw, freeLanes s, dw⟩ (f r x) dw (dstFits_of_passed r _ _ d dw (by simp) hpass)

/-- What CLASS delivers (R164). -/
def classLanes (r : Regs) (x : Lanes W64) : Lanes W64 := Lanes.of fun l =>
  match fmtOf (curTy r) with
  | some f => map1 (curTy r) (classMask f) x[l]
  | none => 0

theorem classLanes_of_fmt {r : Regs} {f : Fmt} (hf : fmtOf (curTy r) = some f) (x : Lanes W64) :
    classLanes r x = Lanes.of fun l => map1 (curTy r) (classMask f) x[l] := by
  simp only [classLanes, hf]

/-- Settles O2: every one-source lane instruction is the shared form with its own function. -/
theorem Settled.oneSourceLanes : Obligations.OneSourceLanes := by
  unfold Obligations.OneSourceLanes
  intro s d a h r w t x does each m
  have element : ∀ (ok : Ty → Bool) (f : Arith → Nat → Nat) (hpass : operandFault r [.src a w, .dst d w] (tyIn r ok) = none),
      ∃ u, laneOne s d a h ok f = .next u ∧ OnlyRegs { s with free := u.free } u ∧ (h ≠ .b → u.free = s.free) ∧
        LaneDone r u.wave.regs 4 d w (each (f m)) (heldBy h (x, w) (freeLanes s, w) (onActive r (each (f m)), w)) :=
    fun ok f => laneOneBy_done s d a h ok w w fun r x => Lanes.of fun l => map1 (curTy r) (f (arithOf r (curTy r))) x[l]
  refine ⟨element okArith eNeg, element okArith eAbs, element okAny eNot, element tyInt eClz, element tyInt ePopc, element tyInt eBrev,
    element tyFp eRcp, element tyFps eRsq, element tyFp eSqrt, element tyFps eExp2, element tyFps eLog2, element tyFps eLn,
    element tyFp eFract, element tyFp eRoundi, fun f hf hpass => ?_⟩
  obtain ⟨u, hu, hregs, hfree, hdone⟩ := laneOneBy_done s d a h tyFp w false classLanes hpass
  rw [classLanes_of_fmt hf] at hdone
  exact ⟨u, hu, hregs, hfree, hdone⟩

/-! ### Predicates -/

/-- The registers after an instruction of `n` bytes that delivers nothing (R75, R146). -/
theorem retire_eq (r : Regs) (n : Nat) : retire r n = { r with pc := r.pc + BitVec.ofNat 64 n, latch := latchAfter r none } := by
  rw [← lowerLives_latch]
  rfl

/-- A predicate instruction writes the active lanes of its predicate, and nothing where it is p0 (R147, R169). -/
theorem predWrite_done (r : Regs) (p : PReg) (m : W32) :
    predWrite r p m = { r with pc := r.pc + 4, latch := latchAfter r none, preds := (predWrite r p m).preds } ∧
      ∀ (q : PReg) (l : Fin 32), (predWrite r p m).preds[q].getLsbD l.val =
        if q = p ∧ p ≠ 0 ∧ laneOn r l = true then m.getLsbD l.val else r.preds[q].getLsbD l.val := by
  unfold predWrite
  refine ⟨?_, fun q l => ?_⟩
  · obtain ⟨a, e⟩ := writePred_form (retire r 4) p (activeMask r) m
    rw [e, retire_eq]
    rfl
  · rw [writePred_lsb, activeMask_lsb, retire_preds]

/-- A predicate instruction without operands to check. -/
theorem predWrite_next (s : State) (p : PReg) (f : Regs → W32) {v : Fin 32 → Bool} (hv : ∀ l : Fin 32, (f s.wave.regs).getLsbD l.val = v l) :
    let r := s.wave.regs
    ∃ u, Host.Outcome.next (onRegs s fun r => predWrite r p (f r)) = (.next u : Out) ∧ OnlyRegs s u ∧
      u.wave.regs = { r with pc := r.pc + 4, latch := latchAfter r none, preds := u.wave.regs.preds } ∧
      ∀ (q : PReg) (l : Fin 32), u.wave.regs.preds[q].getLsbD l.val =
        if q = p ∧ p ≠ 0 ∧ laneOn r l = true then v l else r.preds[q].getLsbD l.val := by
  obtain ⟨hform, hbits⟩ := predWrite_done s.wave.regs p (f s.wave.regs)
  refine ⟨_, rfl, onRegs_only _ _, hform, fun q l => ?_⟩
  rw [← hv l]
  exact hbits q l

/-- Settles O6: the bit that each instruction computes in a lane, written by the shared predicate write. -/
theorem Settled.predicates : Obligations.Predicates := by
  unfold Obligations.Predicates
  intro s p g1 g2 a r holds does
  have hguard : ∀ (g : Guard) (l : Fin 32), (guardMask r g.toNat).getLsbD l.val = holds g l := fun g l => guardMask_lsb r g.toNat g.isLt l
  refine ⟨fun hpass => ?_, predWrite_next s p _ fun l => ?_, predWrite_next s p _ fun l => ?_, predWrite_next s p _ fun l => ?_⟩
  · obtain ⟨u, hu, hregs, he⟩ := checked_next s _ _ (fun r =>
      predWrite r p (maskOf fun l => (srcLanes r s.wave.ids.wave.val a false)[l] != 0)) hpass
    obtain ⟨hform, hbits⟩ := predWrite_done r p (maskOf fun l => (srcLanes r s.wave.ids.wave.val a false)[l] != 0)
    refine ⟨u, hu, hregs, ?_, fun q l => ?_⟩ <;> rw [he]
    · exact hform
    · rw [hbits, maskOf_lsb]
      simp only [bne, beq_eq_decide, ne_eq, decide_not]
  · rw [BitVec.getLsbD_and, hguard, hguard]
  · rw [BitVec.getLsbD_or, hguard, hguard]
  · rw [BitVec.getLsbD_not, hguard, decide_eq_true l.isLt, Bool.true_and]

/-! ### Control -/

/-- The windows that the wave's window deferred in-field tests of (R205, R413). -/
theorem windowClosed_cores (s : State) (w : Wave) (c : Fin 192) :
    (windowClosed s w).cores[c] = { s.cores[c] with testAfter := s.cores[c].testAfter.filter fun t => t != w.ids.token } := by
  simp [windowClosed]

theorem modeLegal_iff (n : Nat) : modeLegal n = true ↔ n < 2 ^ 13 ∧ n / 16 % 32 < 15 ∧ n / 512 % 8 < 6 := by
  simp [modeLegal, and_assoc]

/-- Settles O12: each of them leaves the registers as an instruction of one word does, and its own field. -/
theorem Settled.simpleControl : Obligations.SimpleControl := by
  unfold Obligations.SimpleControl
  intro s m a w r v
  have hr : retire s.wave.regs 4 = r := retire_eq s.wave.regs 4
  have hretire : ∀ t : State, t.wave = w → retireWave t 4 = { t with wave := { w with regs := r } } := fun t ht => by
    rw [retireWave, onRegs, ht, hr]
  refine ⟨congrArg _ (hretire s rfl), ?_, ?_, fun h1 h2 h3 => ?_, ?_, ?_⟩
  · exact congrArg (fun t => Host.Outcome.next (onWave t fun w => { w with waited := 0, losses := 0, readySince := s.free + 1 })) (hretire s rfl)
  · show Host.Outcome.next (onRegs s _) = _
    simp only [onRegs, hr]
    rfl
  · show Host.Outcome.next (if modeLegal v then _ else _) = _
    rw [if_pos ((modeLegal_iff v).2 ⟨h1, h2, h3⟩)]
    simp only [onRegs, hr, lo32, v, BitVec.ofNat_toNat]
    rfl
  · show Host.Outcome.next (onWave (retireWave s 4) _) = _
    rw [hretire s rfl, onWave]
    cases hopen : w.npOpen
    · rfl
    · simp
  · refine ⟨_, rfl, ?_, windowClosed_cores s w⟩
    refine (congrArg (fun t => onWave t _) (hretire (windowClosed s w) rfl)).trans rfl

/-! ### Operand traps -/

/-- The checks of R91 in their order: each cause is taken where its check fails and none before it does. -/
theorem operandFault_order (r : Regs) (uses : List OpUse) (ok : Bool) :
    let range := uses.any (rangeBad r)
    let pair := uses.any pairBad
    let queue := uses.any (queueBad r)
    let latch := uses.any (latchBad r)
    let fault := operandFault r uses ok
    (fault = some 0x0C ↔ range = true) ∧ (fault = some 0x0D ↔ range = false ∧ pair = true) ∧
    (fault = some 0x02 ↔ (range = false ∧ pair = false) ∧ ok = false) ∧
    (fault = some 0x08 ↔ (range = false ∧ pair = false) ∧ ok = true ∧ queue = true) ∧
    (fault = some 0x09 ↔ (range = false ∧ pair = false ∧ queue = false) ∧ ok = true ∧ latch = true) := by
  intro range pair queue latch fault
  rw [show fault = if range then some 0x0C else if pair then some 0x0D else if !ok then some 0x02
    else if queue then some 0x08 else if latch then some 0x09 else none from rfl]
  clear_value range pair queue latch
  revert range pair ok queue latch
  decide

/-- Instructions behind operand checks trap where one fails (R91). -/
theorem checked_trap {s : State} {uses : List OpUse} {ok : Bool} {c : Cause} (f : Regs → Regs) (h : operandFault s.wave.regs uses ok = some c) :
    checked s uses ok f = .next (trapWave s c) := by
  simp only [checked, h]

/-- Settles O18: the order of the checks, and what the two checks that read the wave's registers say. -/
theorem Settled.operandTraps : Obligations.OperandTraps := by
  unfold Obligations.OperandTraps
  intro s d a b h c r w uses ok
  obtain ⟨hrange, hpair, htype, hqueue, hlatch⟩ := operandFault_order r uses ok
  simp only [List.any_eq_true, List.any_eq_false, Bool.not_eq_true] at hrange hpair htype hqueue hlatch
  simp only [forall₂_and]
  refine ⟨fun hfault => checked_trap _ hfault, hrange, hpair, htype, hqueue, hlatch, fun x => ?_, fun j => ?_⟩
  · simp only [rangeBad, Bool.or_eq_true, Bool.and_eq_true, decide_eq_true_eq, ge_iff_le]
  · simp only [queueBad, Bool.or_eq_false_iff, Bool.and_eq_false_imp, Bool.not_eq_false']

/-! ### Worked words -/

/-- Settles O57: the decoder evaluates on each of the 27 words, format by format, and ends in an error on each of the six near misses. -/
theorem Settled.specWordsDecode : Obligations.SpecWordsDecode := by
  unfold Obligations.SpecWordsDecode
  intro is isNone
  have hnone : ∀ w, (decode (bytesOfWord w)).toOption = none → isNone w := fun w h => by
    cases hw : decode (bytesOfWord w) with
    | ok x => rw [hw] at h; cases h
    | error e => exact ⟨e, hw⟩
  exact ⟨rfl, rfl, rfl, rfl, rfl, rfl, rfl, rfl, rfl, rfl, rfl, rfl, rfl, rfl, rfl, rfl, rfl, rfl, rfl, rfl, rfl, rfl, rfl, rfl, rfl, rfl, rfl,
    hnone _ rfl, hnone _ rfl, hnone _ rfl, hnone _ rfl, hnone _ rfl, hnone _ rfl⟩

end Sys2Proof
end

section
/-!
SUPPORT. The step that issues (R75, R90, R93, R154, R421): what a translation, the settling of a state, time and the issuing place change; the fetched word and its decoding; the counts of the arbitration.
-/

namespace Sys2Proof

open Sys2Proof.Machine

/-! ### What a translation changes (R234 to R237) -/

/-- Nothing changes but memory, what the cores and the dies hold of it, and the messages to the host. -/
def MemorySide (s t : State) : Prop := ∃ cores dies hbm clks joins lag lost log,
  t = { s with cores := cores, dies := dies, hbm := hbm, clks := clks, joins := joins, lag := lag, lost := lost, hostLog := log }

theorem MemorySide.refl (s : State) : MemorySide s s := ⟨_, _, _, _, _, _, _, _, rfl⟩

theorem MemorySide.trans {s t u : State} (h : MemorySide s t) (g : MemorySide t u) : MemorySide s u := by
  obtain ⟨_, _, _, _, _, _, _, _, rfl⟩ := h
  obtain ⟨_, _, _, _, _, _, _, _, rfl⟩ := g
  exact ⟨_, _, _, _, _, _, _, _, rfl⟩

theorem MemorySide.wave_eq {s t : State} (h : MemorySide s t) : t.wave = s.wave := by
  obtain ⟨_, _, _, _, _, _, _, _, rfl⟩ := h
  rfl

theorem onCore_memorySide (s : State) (c : Fin 192) (f : Core → Core) : MemorySide s (onCore s c f) := ⟨_, _, _, _, _, _, _, _, rfl⟩

theorem onDie_memorySide (s : State) (d : Fin 2) (f : Die → Die) : MemorySide s (onDie s d f) := ⟨_, _, _, _, _, _, _, _, rfl⟩

theorem touchL2_memorySide (s : State) (d : Fin 2) (line : Nat) (cls : Option (Fin 3)) : MemorySide s (touchL2 s d line cls) :=
  ⟨_, _, _, _, _, _, _, _, rfl⟩

theorem countEvent_memorySide (s : State) (c : Fin 192) (k : Option GangKey) (ev n : Nat) : MemorySide s (countEvent s c k ev n) := by
  obtain ⟨f, e⟩ := countEvent_form s c k ev n
  exact e ▸ onCore_memorySide ..

theorem pokeNat_memorySide (s : State) (pa n x : Nat) : MemorySide s (pokeNat s pa n x) := by
  obtain ⟨_, _, _, _, _, _, e⟩ := stampUnit_form s none 0 {} (keyed pa (leBytes n x))
  exact ⟨_, _, _, _, _, _, _, _, e⟩

theorem tlbFill_memorySide (s : State) (c : Fin 192) (e : TlbEntry) : MemorySide s (tlbFill s c e) := ⟨_, _, _, _, _, _, _, _, rfl⟩

theorem report_memorySide (s : State) (p : Option (Fin 24)) (group : Nat) (cause : Cause) (info : Nat) :
    MemorySide s (report s p group cause info) := ⟨_, _, _, _, _, _, _, _, rfl⟩

theorem nodeFill_memorySide (s : State) (d : Fin 2) (p : Fin 24) (va : Nat) : MemorySide s (nodeFill s d p va) := by
  unfold nodeFill
  generalize walkNodes s p va (walkStart s d p va).1 (walkStart s d p va).2 = nodes
  induction nodes generalizing s with
  | nil => exact MemorySide.refl s
  | cons x xs ih => exact ((onDie_memorySide ..).trans (touchL2_memorySide ..)).trans (ih _)

theorem useEntry_memorySide (s : State) (c : Fin 192) (e : TlbEntry) (va : Nat) (acc : Sys2Proof.Access) :
    MemorySide s (useEntry s c e va acc).2 := by
  cases acc with
  | read => exact MemorySide.refl s
  | fetch => exact MemorySide.refl s
  | write =>
    simp only [useEntry]
    split
    · exact MemorySide.refl s
    · split
      · exact MemorySide.refl s
      · exact (pokeNat_memorySide ..).trans (tlbFill_memorySide ..)

theorem leafFill_memorySide (s : State) (c : Fin 192) (p : Fin 24) (va lv addr pte : Nat) : MemorySide s (leafFill s c p va lv addr pte).2 := by
  unfold leafFill
  refine (nodeFill_memorySide s (coreDie c) p va).trans (MemorySide.trans ?_ ((touchL2_memorySide ..).trans (tlbFill_memorySide ..)))
  split
  · exact MemorySide.refl _
  · exact pokeNat_memorySide ..

theorem useMapped_memorySide (s : State) (c : Fin 192) (p : Fin 24) (va lv addr : Nat) (acc : Sys2Proof.Access) :
    MemorySide s (useMapped s c p va lv addr acc).2 := by
  unfold useMapped
  split
  · exact (leafFill_memorySide ..).trans (useEntry_memorySide ..)
  · exact MemorySide.refl s

theorem poolTake_memorySide (p : Fin 24) (pool c : Nat) : ∀ (n : Nat) (s : State), MemorySide s (poolTake p pool c n s).2
  | 0, s => MemorySide.refl s
  | n + 1, s => by
    simp only [poolTake]
    split
    · exact MemorySide.refl s
    · split
      · exact pokeNat_memorySide ..
      · exact ((pokeNat_memorySide ..).trans (report_memorySide ..)).trans (poolTake_memorySide p pool c n _)

theorem mapZero_memorySide (s : State) (lv addr pg : Nat) : MemorySide s (mapZero s lv addr pg) :=
  MemorySide.trans ⟨_, _, _, _, _, _, _, _, rfl⟩ (pokeNat_memorySide (zeroRange s pg (2 ^ pageBits lv)) addr 8 (7 + pg))

theorem demandZero_memorySide (s : State) (p : Fin 24) (lv addr : Nat) : MemorySide s (demandZero s p lv addr).2 := by
  have taken := poolTake_memorySide p s.parts[p].dzpool.toNat lv (poolCount s s.parts[p].dzpool.toNat lv) s
  simp only [demandZero]
  split
  · exact MemorySide.refl s
  · split
    next e =>
      rw [e] at taken
      exact taken
    next e =>
      rw [e] at taken
      exact taken.trans (mapZero_memorySide ..)

theorem translate_memorySide (s : State) (c : Fin 192) (p : Fin 24) (va : Nat) (acc : Sys2Proof.Access) :
    MemorySide s (Machine.translate s c p va acc).2 := by
  unfold Machine.translate
  split
  · exact useEntry_memorySide ..
  · split
    · exact (tlbFill_memorySide ..).trans (useEntry_memorySide ..)
    · split
      · exact MemorySide.refl s
      · exact (leafFill_memorySide ..).trans (useEntry_memorySide ..)
      next lv addr _ =>
        have zeroed := demandZero_memorySide s p lv addr
        split
        · exact useMapped_memorySide ..
        · split
          · exact MemorySide.refl s
          · split
            next e =>
              rw [e] at zeroed
              exact zeroed
            next e =>
              rw [e] at zeroed
              exact zeroed.trans (useMapped_memorySide ..)

theorem coreTranslate_memorySide (s : State) (c : Fin 192) (k : Option GangKey) (p : Fin 24) (va : Nat) (acc : Sys2Proof.Access) :
    MemorySide s (coreTranslate s c k p va acc).2 := by
  have counted : ∀ (t : State) (b : Bool) (ev : Nat), MemorySide t (if b then countEvent t c k ev 1 else t) := fun t b ev => by
    split
    · exact countEvent_memorySide ..
    · exact MemorySide.refl t
  exact ((counted ..).trans (counted ..)).trans (translate_memorySide ..)

theorem waveTranslate_memorySide (s : State) (va : Nat) (acc : Sys2Proof.Access) : MemorySide s (waveTranslate s va acc).2 := by
  have h := coreTranslate_memorySide s s.wave.ids.core (some s.wave.ids.gang) s.wave.ids.part va acc
  unfold waveTranslate onRelease
  split
  next e =>
    rw [e] at h
    exact h
  · exact h

/-! ### What comes before an issue -/

/-- What follows from a state at once changes waves, the dies' pins, pipelines and the wait-for table (R300, R375, R393). -/
def SettledSide (s t : State) : Prop := ∃ wave waves dies launches objs engWaits,
  t = { s with wave := wave, waves := waves, dies := dies, launches := launches, objs := objs, engWaits := engWaits }

theorem SettledSide.refl (s : State) : SettledSide s s := ⟨_, _, _, _, _, _, rfl⟩

theorem SettledSide.trans {s t u : State} (h : SettledSide s t) (g : SettledSide t u) : SettledSide s u := by
  obtain ⟨_, _, _, _, _, _, rfl⟩ := h
  obtain ⟨_, _, _, _, _, _, rfl⟩ := g
  exact ⟨_, _, _, _, _, _, rfl⟩

theorem foldl_settledSide {α : Type} (f : State → α → State) (h : ∀ t x, SettledSide t (f t x)) (l : List α) : ∀ s : State,
    SettledSide s (l.foldl f s) := by
  induction l with
  | nil => exact SettledSide.refl
  | cons x xs ih => exact fun s => (h s x).trans (ih _)

theorem pinTile_settledSide (core : Fin 192) (s : State) (line : Nat) : SettledSide s (pinTile core s line) := by
  unfold pinTile
  simp only
  split
  · exact SettledSide.refl s
  · exact ⟨_, _, _, _, _, _, rfl⟩

theorem fetchAll_settledSide (s : State) : SettledSide s (fetchAll s) := by
  unfold fetchAll
  split
  · exact SettledSide.refl s
  · exact foldl_settledSide _ (fun t c => foldl_settledSide _ (pinTile_settledSide c) _ t) _ s

theorem closePipes_settledSide (s : State) : SettledSide s (closePipes s) := by
  simp only [closePipes]
  split
  · exact ⟨_, _, _, _, _, _, rfl⟩
  · exact SettledSide.refl s

theorem settlePrio_settledSide (s : State) : SettledSide s (settlePrio s) := by
  obtain ⟨_, _, e⟩ := settlePrio_form s
  exact ⟨_, _, _, _, _, _, e⟩

theorem endWaits_settledSide (s : State) : SettledSide s (endWaits s) := by
  simp only [endWaits]
  split
  · exact SettledSide.trans ⟨_, _, _, _, _, _, rfl⟩ (settlePrio_settledSide _)
  · exact SettledSide.refl s

theorem markReady_settledSide (s : State) : SettledSide s (markReady s) := by
  simp only [markReady]
  split
  · exact SettledSide.refl s
  · exact ⟨_, _, _, _, _, _, rfl⟩

theorem settle_settledSide (s : State) : SettledSide s (settle s) :=
  (fetchAll_settledSide s).trans ((closePipes_settledSide _).trans ((endWaits_settledSide _).trans (markReady_settledSide _)))

/-! ### Time and the issuing place -/

/-- Nothing changes but cores. -/
def CoresOnly (s t : State) : Prop := ∃ cores, t = { s with cores := cores }

theorem CoresOnly.refl (s : State) : CoresOnly s s := ⟨_, rfl⟩

theorem CoresOnly.trans {s t u : State} (h : CoresOnly s t) (g : CoresOnly t u) : CoresOnly s u := by
  obtain ⟨_, rfl⟩ := h
  obtain ⟨_, rfl⟩ := g
  exact ⟨_, rfl⟩

theorem foldl_coresOnly {α : Type} (f : State → α → State) (h : ∀ t x, CoresOnly t (f t x)) (l : List α) (s : State) : CoresOnly s (l.foldl f s) :=
  foldl_cores_form f h l s

theorem countEvent_coresOnly (s : State) (c : Fin 192) (k : Option GangKey) (ev n : Nat) : CoresOnly s (countEvent s c k ev n) := by
  obtain ⟨_, e⟩ := countEvent_form s c k ev n
  exact ⟨_, e⟩

theorem countWave_coresOnly (n : Nat) (s : State) (w : Wave) : CoresOnly s (countWave n s w) := by
  have waits : CoresOnly s (if inCountedWait w then countEvent s w.ids.core (some w.ids.gang) 13 n else s) := by
    split
    · exact countEvent_coresOnly ..
    · exact CoresOnly.refl s
  simp only [countWave]
  split
  · exact waits.trans (countEvent_coresOnly ..)
  · exact waits

theorem countOperands_coresOnly (n : Nat) (s : State) (u : Fin 192) : CoresOnly s (countOperands n s u) := by
  unfold countOperands
  split
  · split
    · exact CoresOnly.refl s
    · exact countEvent_coresOnly ..
  · exact CoresOnly.refl s

theorem countCycles_coresOnly (s : State) (n : Nat) : CoresOnly s (countCycles s n) := by
  simp only [countCycles]
  split
  · exact (foldl_coresOnly _ (fun t g => countEvent_coresOnly t ..) _ s).trans
      ((foldl_coresOnly _ (countWave_coresOnly n) _ _).trans (foldl_coresOnly _ (countOperands_coresOnly n) _ _))
  · exact CoresOnly.refl s

/-- Time changes the waves' counts, the clocks and the performance counters (R102, R154, R205, R325). -/
theorem tick_form (s : State) : ∃ dies cores,
    tick s = { onWaves s (passWave (stepCycles s)) with dies := dies, free := s.free + 1, cores := cores } := by
  obtain ⟨_, e⟩ := countCycles_coresOnly (onWaves { s with
    dies := s.dies.map fun d => { d with clock := d.clock + BitVec.ofNat 64 (stepCycles s) }, free := s.free + 1 } (passWave (stepCycles s)))
    (stepCycles s)
  exact ⟨_, _, e⟩

theorem switchTo_form (s : State) (k : W32) : ∃ wave waves, switchTo s k = { s with wave := wave, waves := waves } := by
  unfold switchTo
  split
  · exact ⟨_, _, rfl⟩
  · split
    · exact ⟨_, _, rfl⟩
    · exact ⟨_, _, rfl⟩

/-- The live wave of the token stands in the issuing place. -/
theorem switchTo_wave {s : State} {k : W32} {x : Wave} (h : findWave s k = some x) : (switchTo s k).wave = x := by
  rw [findWave, liveWaves, List.find?_filter, List.find?_cons] at h
  unfold switchTo
  split
  next here => simpa [here] using h
  next away =>
    have hnot : decide ((s.wave.run != .ended) = true ∧ (s.wave.ids.token == k) = true) = false :=
      decide_eq_false fun hw => away ⟨beq_iff_eq.1 hw.2, bne_iff_ne.1 hw.1⟩
    rw [hnot] at h
    have hwaves : (s.waves.find? fun w => w.ids.token == k && w.run != .ended) = some x := by
      simpa only [Bool.decide_and, Bool.decide_eq_true, Bool.and_comm] using h
    rw [hwaves]

theorem forgetLeft_keeps (w : Wave) :
    (forgetLeft w).ids = w.ids ∧ (forgetLeft w).regs = w.regs ∧ (forgetLeft w).run = w.run ∧ (forgetLeft w).npOwed = w.npOwed := by
  have kept : (fun w : Wave => (w.ids, w.regs, w.run, w.npOwed)) (forgetLeft w) = (w.ids, w.regs, w.run, w.npOwed) :=
    foldl_field (fun w : Wave => (w.ids, w.regs, w.run, w.npOwed)) forget (fun _ _ => rfl) _ w
  simpa only [Prod.mk.injEq] using kept

theorem arrive0_wave (s : State) : (arrive0 s).wave.ids = s.wave.ids ∧ (arrive0 s).wave.regs = s.wave.regs ∧
    (arrive0 s).wave.run = s.wave.run ∧ (arrive0 s).wave.npOwed = s.wave.npOwed :=
  forgetLeft_keeps _

theorem tick_wave (s : State) : (tick s).wave = passWave (stepCycles s) s.wave := by
  obtain ⟨_, _, e⟩ := tick_form s
  rw [e]
  rfl

/-- The state in which the wave that the arbitration chose stands at its next instruction, time having passed. -/
def issuing (s : State) (k : W32) : State := arrive0 (tick (switchTo s k))

theorem issuing_form (s : State) (k : W32) : ∃ wave waves dies cores free,
    issuing s k = { s with wave := wave, waves := waves, dies := dies, cores := cores, free := free } := by
  obtain ⟨_, _, hswitch⟩ := switchTo_form s k
  obtain ⟨_, _, htick⟩ := tick_form (switchTo s k)
  rw [issuing, htick, hswitch]
  exact ⟨_, _, _, _, _, rfl⟩

theorem issuing_wave {s : State} {k : W32} {x : Wave} (h : findWave s k = some x) : (issuing s k).wave.ids = x.ids ∧
    (issuing s k).wave.regs = x.regs ∧ (issuing s k).wave.run = x.run ∧ (issuing s k).wave.npOwed = x.npOwed := by
  have kept := arrive0_wave (tick (switchTo s k))
  rwa [tick_wave, switchTo_wave h] at kept

/-- Memory is at the issue as it was before the step. -/
theorem issuing_settle_memory (s : State) (k : W32) : (issuing (settle s) k).hbm = s.hbm ∧ SameMemory s (issuing (settle s) k) := by
  obtain ⟨_, _, _, _, _, hissue⟩ := issuing_form (settle s) k
  obtain ⟨_, _, _, _, _, _, hsettle⟩ := settle_settledSide s
  rw [hissue, hsettle]
  exact ⟨rfl, sameMemory_of_eq rfl rfl rfl⟩

/-! ### The counts of the arbitration (R154) -/

theorem retry_regs (n : Nat) (w : Wave) : (retry n w).regs = w.regs := by
  unfold retry
  split <;> rfl

/-- The counts change waves but for their registers, and performance counters. -/
theorem account_form (t u : State) : ∃ f : Wave → Wave, (∀ w, (f w).regs = w.regs) ∧ CoresOnly (onWaves u f) (account t u) := by
  simp only [account]
  split
  · refine ⟨id, fun _ => rfl, ?_⟩
    rw [onWaves, List.map_id]
    exact CoresOnly.refl u
  · refine ⟨_, fun w => ?_, countEvent_coresOnly ..⟩
    split
    · rfl
    · split
      · exact retry_regs ..
      · exact retry_regs ..

theorem account_keeps (t u : State) : SameMemory u (account t u) ∧ (account t u).wave.regs = u.wave.regs ∧
    account t u = { u with wave := (account t u).wave, waves := (account t u).waves, cores := (account t u).cores } := by
  obtain ⟨f, hf, _, e⟩ := account_form t u
  rw [e]
  exact ⟨sameMemory_of_eq rfl rfl rfl, hf _, rfl⟩

/-! ### The fetched word (R75, R93) -/

/-- A cache without the word takes it from memory. -/
theorem cachedWord_miss {s : State} {c : Fin 192} {pa : Nat} (h : ∀ e ∈ s.cores[c].icache, e.1 ≠ pa) :
    ∃ u, cachedWord s c pa = (BitVec.ofNat 32 (memNat s pa 4), u) ∧ u.wave = s.wave ∧ u.hbm = s.hbm := by
  have hnone : (s.cores[c].icache.find? fun e => e.1 == pa) = none := List.find?_eq_none.2 fun e he => by simpa using h e he
  simp only [cachedWord, hnone]
  refine ⟨_, rfl, ?_, ?_⟩ <;> simp [useL2]

/-- The word that a fetch gives where no cache holds it. -/
theorem fetchWord_memory {s t : State} {va a pa : Nat} (hwin : windowOf s va = .global a) (htr : waveTranslate s a .fetch = (.ok pa, t))
    (hlost : lostRead t t.wave.ids.part none (bytesFrom pa 4) = false) (hmiss : ∀ e ∈ t.cores[t.wave.ids.core].icache, e.1 ≠ pa) :
    ∃ u, fetchWord s va = (.word (BitVec.ofNat 32 (memNat t pa 4)), u) ∧ u.wave = t.wave ∧ u.hbm = t.hbm := by
  have hwave : t.wave = s.wave := by
    have side := waveTranslate_memorySide s a .fetch
    rw [htr] at side
    exact side.wave_eq
  obtain ⟨u, hu, hkept⟩ := cachedWord_miss hmiss
  rw [hwave] at hu
  refine ⟨u, ?_, hkept⟩
  simp only [fetchWord, fetchWindow, hwin, htr, hlost, hu]
  rfl

/-! ### The decoded instruction (R90, R421) -/

theorem decoded_ok {w : W32} {literal : Option W32} {i : Instr} {rest : List W8}
    (h : decode (bytesOfWord w ++ (literal.map bytesOfWord).getD []) = .ok (i, rest)) : decoded w literal = i := by
  simp only [decoded, h]

theorem decoded_error {w : W32} {literal : Option W32} {e : DecodeError}
    (h : decode (bytesOfWord w ++ (literal.map bytesOfWord).getD []) = .error e) : decoded w literal = .illegalInstr w := by
  simp only [decoded, h]

/-- The literal of the check of R90. -/
theorem isIllegal_literal (w : W32) : (((if wantsLiteral w then some 0 else none : Option W32).map bytesOfWord).getD []) =
    if wantsLiteral w then bytesOfWord 0 else [] := by
  split <;> rfl

theorem isIllegal_of_error {w : W32} {e : DecodeError}
    (h : decode (bytesOfWord w ++ if wantsLiteral w then bytesOfWord 0 else []) = .error e) : isIllegal w = true := by
  rw [← isIllegal_literal] at h
  rw [isIllegal, decoded_error h, beq_self_eq_true]

theorem not_isIllegal_of_ok {w : W32} {i : Instr} {rest : List W8}
    (h : decode (bytesOfWord w ++ if wantsLiteral w then bytesOfWord 0 else []) = .ok (i, rest)) : isIllegal w = false := by
  have hi := (decode_ok h).2.1
  rw [← isIllegal_literal] at h
  rw [isIllegal, decoded_ok h, beq_eq_false_iff_ne]
  rintro rfl
  cases hi

theorem decode_literal {i : Instr} {w x : W32} (h : encodeFirst i = some w.toNat) (hx : i.literal = some x) (hwf : i.wf = true) :
    decode (bytesOfWord w ++ bytesOfWord x) = .ok (i, []) := by
  have hi := decode_encodeBytes i [] hwf (isEvent_of_encodeFirst h)
  rwa [encodeBytes, encode_eq h, hx, BitVec.ofNat_toNat, BitVec.setWidth_eq, Option.toList_some, List.flatMap_cons, List.flatMap_singleton,
    List.append_nil] at hi

/-- Which literal follows does not decide whether a word is an instruction. -/
theorem decode_zero_literal {w y : W32} {i : Instr} (hw : wantsLiteral w = true) (h : decode (bytesOfWord w ++ bytesOfWord y) = .ok (i, [])) :
    ∃ j, decode (bytesOfWord w ++ bytesOfWord 0) = .ok (j, []) := by
  rw [decode_word, dec_map_ok] at h
  obtain ⟨j, hword, e⟩ := h
  obtain ⟨rfl, _⟩ := Prod.mk.inj e
  obtain ⟨hfields, _⟩ := decodeWord_ok.1 hword
  have henc := decodeFields_encodes w.isLt hfields
  obtain ⟨x, _, hlit⟩ := literal_of_wantsLiteral hw hfields
  unfold Instr.literal at hlit
  split at hlit
  · rename_i d _ _
    exact ⟨.lit d 0, decode_literal henc rfl rfl⟩
  · rename_i d _ _
    exact ⟨.lith d 0, decode_literal henc rfl rfl⟩
  · cases hlit

/-! ### The issue -/

/-- The fetch counted as event 2, once where the wave tries again (log entry 25). -/
def fetchCounted (s : State) : State := if triesAgain s then s else countEvent s s.wave.ids.core (some s.wave.ids.gang) 2 1

section
variable {s t : State} {w : W32} (hword : fetchWord s s.wave.regs.pc.toNat = (.word w, t))
include hword

theorem fetchPick_illegal (hw : isIllegal w = true) : fetchPick s = .issue (.illegalInstr w) (fetchCounted t) := by
  simp only [fetchPick, hword, hw, if_pos, fetchCounted]

theorem fetchPick_plain (hw : isIllegal w = false) (hl : wantsLiteral w = false) : fetchPick s = .issue (decoded w none) (fetchCounted t) := by
  simp only [fetchPick, hword, hw, hl, Bool.false_eq_true, if_false, fetchCounted]

theorem fetchPick_literal {x : W32} {u : State} (hw : isIllegal w = false) (hl : wantsLiteral w = true)
    (hx : fetchWord (fetchCounted t) (s.wave.regs.pc + 4).toNat = (.word x, u)) : fetchPick s = .issue (decoded w (some x)) u := by
  unfold fetchCounted at hx
  simp only [fetchPick, hword, hw, hl, hx, Bool.false_eq_true, if_false, if_true]

end

theorem step_issue {s t : State} {i : Instr} (h : pick s = .issue i t) : step s = issued t (exec i t) := by
  simp only [step, h]

/-- Where nothing of the device comes first, the wave that the arbitration chooses fetches. -/
theorem pick_fetches {s : State} {k : W32} (hagenda : s.agenda = []) (hpower : s.powered = true) (hrecovery : s.pkg.recovery = false)
    (hevent : nextEvent (settle s) = none) (hchosen : chooseWave (settle s) = some k) (howed : (issuing (settle s) k).wave.npOwed = false)
    (hspent : windowSpent (issuing (settle s) k).wave = false) : pick s = fetchPick (issuing (settle s) k) := by
  have hissue : issuePick (switchTo (settle s) k) = fetchPick (issuing (settle s) k) := by
    unfold issuing at *
    simp only [issuePick, hspent, howed, Bool.false_and, Bool.false_eq_true, if_false]
  simp only [pick, hagenda, hpower, hrecovery, ownPick, hevent, hchosen, Bool.not_true, Bool.false_eq_true, if_false, hissue]

/-- Settles O56: the step is the fetch of the chosen wave, then the decoded instruction with the counts of the arbitration. -/
theorem Settled.stepRuns : Obligations.StepRuns := by
  unfold Obligations.StepRuns
  intro s k x s0 p
  have hsettled : s0 = settle s := rfl
  have hissuing : p = issuing s0 k := rfl
  clear_value p s0
  subst hissuing hsettled
  intro pc counted runs
  refine ⟨account_keeps, fun hagenda hpower hrecovery hevent hchosen hfound howed hspent => ?_⟩
  obtain ⟨hids, hregs, hrun, hnpOwed⟩ := issuing_wave hfound
  obtain ⟨hhbm, hmemory⟩ := issuing_settle_memory s k
  have hpick := pick_fetches hagenda hpower hrecovery hevent hchosen (hnpOwed.trans howed) hspent
  have run : ∀ {i : Instr} {u : State}, fetchPick (issuing (settle s) k) = .issue i u → runs i u := fun h => step_issue (hpick.trans h)
  refine ⟨⟨hregs, hids, hrun, hhbm, hmemory⟩, fun w u hword => ⟨fun e he => ?_, fun hl i hi => ?_, fun hl y z i hy hi => ?_⟩,
    fun a pa t => fetchWord_memory⟩
  · exact run (fetchPick_illegal hword (isIllegal_of_error he))
  · have hlegal : isIllegal w = false := not_isIllegal_of_ok (by rwa [hl, if_neg Bool.false_ne_true, List.append_nil])
    have hdecoded : decoded w none = i := decoded_ok (by rwa [Option.map_none, Option.getD_none, List.append_nil])
    exact hdecoded ▸ run (fetchPick_plain hword hlegal hl)
  · obtain ⟨j, hj⟩ := decode_zero_literal hl hi
    have hlegal : isIllegal w = false := not_isIllegal_of_ok (by rwa [hl, if_pos rfl])
    have hdecoded : decoded w (some y) = i := decoded_ok hi
    exact hdecoded ▸ run (fetchPick_literal hword hlegal hl hy)

end Sys2Proof
end

section
/-!
SUPPORT. Integer elements (R103, R104): the integer that an element stands for, and what each element function computes on it or on its bits (R159, R160, R162, R165).
-/

namespace Sys2Proof

open Sys2Proof.Machine

/-! ### Integer types and their elements (R103, R104) -/

theorem tyBits_pos (t : Ty) : 0 < tyBits t := by cases t <;> decide

theorem fmtOf_of_tyInt {t : Ty} (ht : tyInt t = true) : fmtOf t = none := Option.isNone_iff_eq_none.mp ht

/-- The integer that an element stands for. -/
def elemVal (t : Ty) (u : BitVec (tyBits t)) : Int := if tySigned t then u.toInt else u.toNat

theorem signedElem_toNat {n : Nat} (hn : 0 < n) (u : BitVec n) : signedElem n u.toNat = u.toInt := by
  have hpow : 2 ^ n = 2 * 2 ^ (n - 1) := by rw [← Nat.pow_succ', Nat.succ_eq_add_one, Nat.sub_add_cancel hn]
  have hcast : ((2 ^ n : Nat) : Int) = 2 ^ n := Nat.cast_pow 2 n
  rw [signedElem, BitVec.toInt_eq_toNat_cond, hcast, hpow]
  split <;> split <;> omega

theorem intOf_toNat (t : Ty) (u : BitVec (tyBits t)) : intOf t u.toNat = elemVal t u := by
  unfold intOf elemVal
  cases tySigned t
  · simp
  · simpa [signedElem] using signedElem_toNat (tyBits_pos t) u

theorem intBits_eq_ofInt (t : Ty) (z : Int) : intBits t z = (BitVec.ofInt (tyBits t) z).toNat := by
  rw [intBits, BitVec.toNat_ofInt, Nat.cast_pow, Nat.cast_ofNat]

theorem elemVal_eq_zero (t : Ty) (u : BitVec (tyBits t)) : elemVal t u = 0 ↔ u = 0 := by
  unfold elemVal
  split
  · rw [← BitVec.toInt_inj, BitVec.ofNat_eq_ofNat, BitVec.toInt_zero]
  · rw [← BitVec.toNat_inj, BitVec.ofNat_eq_ofNat, BitVec.toNat_zero, Int.natCast_eq_zero]

/-! ### Element functions on integer types (R159, R160, R162, R165) -/

section
variable {a : Arith} (hint : tyInt a.ty = true) (x y z : BitVec (tyBits a.ty))
include hint

theorem arith2_int (ff : RMode → FVal → FVal → FVal) (fi : Int → Int → Int) :
    arith2 a ff fi x.toNat y.toNat = intRes a.ty a.sat (fi (elemVal a.ty x) (elemVal a.ty y)) := by
  simp only [arith2, fmtOf_of_tyInt hint, intOf_toNat]

theorem eMad_int : eMad a x.toNat y.toNat z.toNat = intRes a.ty a.sat (elemVal a.ty x * elemVal a.ty y + elemVal a.ty z) := by
  simp only [eMad, fmtOf_of_tyInt hint, intOf_toNat]

theorem eNeg_int : eNeg a x.toNat = intRes a.ty a.sat (-elemVal a.ty x) := by
  simp only [eNeg, fmtOf_of_tyInt hint, intOf_toNat]

theorem eAbs_int : eAbs a x.toNat = intRes a.ty a.sat |elemVal a.ty x| := by
  simp only [eAbs, fmtOf_of_tyInt hint, intOf_toNat, Int.natCast_natAbs]

theorem eDiv_int : eDiv a x.toNat y.toNat = intRes a.ty a.sat
    (if y = 0 then (if elemVal a.ty x < 0 then intMin a.ty else intMax a.ty) else (elemVal a.ty x).tdiv (elemVal a.ty y)) := by
  simp only [eDiv, arith2_int hint, divInt, beq_iff_eq, elemVal_eq_zero]

theorem eMin_int : eMin a x.toNat y.toNat = (if elemVal a.ty x ≤ elemVal a.ty y then x else y).toNat := by
  simp only [eMin, eMinMax, fmtOf_of_tyInt hint, intOf_toNat]
  by_cases h : elemVal a.ty x ≤ elemVal a.ty y <;> simp [h]

theorem eMax_int : eMax a x.toNat y.toNat = (if elemVal a.ty x ≤ elemVal a.ty y then y else x).toNat := by
  simp only [eMax, eMinMax, fmtOf_of_tyInt hint, intOf_toNat]
  by_cases h : elemVal a.ty x ≤ elemVal a.ty y <;> simp [h]

end

section
variable (a : Arith) (x y : BitVec (tyBits a.ty)) (c : Nat)

theorem eMulhi_toNat : eMulhi a x.toNat y.toNat =
    (BitVec.ofInt (tyBits a.ty) ((elemVal a.ty x * elemVal a.ty y).fdiv (2 ^ tyBits a.ty))).toNat := by
  rw [eMulhi, intOf_toNat, intOf_toNat, intBits_eq_ofInt]

theorem eNot_toNat : eNot a x.toNat = (~~~x).toNat := by rw [eNot, BitVec.toNat_not]

theorem eAndn_toNat : eAndn a x.toNat y.toNat = (x &&& ~~~y).toNat := by rw [eAndn, eNot_toNat, BitVec.toNat_and]

theorem eShl_toNat : eShl a x.toNat c = (x <<< c).toNat := by
  rw [eShl, BitVec.toNat_shiftLeft, Nat.shiftLeft_eq]
  split
  case isTrue h => exact (Nat.mod_eq_zero_of_dvd (Dvd.dvd.mul_left (Nat.pow_dvd_pow 2 h) _)).symm
  case isFalse => rfl

theorem eShr_toNat : eShr a x.toNat c = (x >>> c).toNat := by
  rw [eShr, BitVec.toNat_ushiftRight, Nat.shiftRight_eq_div_pow]
  split
  case isTrue h => exact (Nat.div_eq_of_lt (x.isLt.trans_le (Nat.pow_le_pow_right two_pos h))).symm
  case isFalse => rfl

/-- Past the width an arithmetic shift leaves copies of the sign, as a shift by the width does. -/
theorem toInt_shiftRight_min {n : Nat} (u : BitVec n) : u.toInt >>> min c n = u.toInt >>> c := by
  rcases le_total c n with h | h
  · rw [min_eq_left h]
  · have hpow : ((2 ^ n : Nat) : Int) ≤ (2 ^ c : Nat) := by exact_mod_cast Nat.pow_le_pow_right two_pos h
    have hhi := BitVec.toInt_lt (x := u)
    have hlo := BitVec.le_toInt u
    have hhalf : (2 : Int) ^ (n - 1) ≤ (2 ^ n : Nat) := by exact_mod_cast Nat.pow_le_pow_right two_pos (Nat.sub_le n 1)
    rw [min_eq_right h, Int.shiftRight_eq_div_pow, Int.shiftRight_eq_div_pow]
    rcases le_or_gt 0 u.toInt with hs | hs
    · rw [Int.ediv_eq_zero_of_lt hs (by omega), Int.ediv_eq_zero_of_lt hs (by omega)]
    · rw [Int.ediv_eq_neg_one_of_neg_of_le hs (by omega), Int.ediv_eq_neg_one_of_neg_of_le hs (by omega)]

theorem eSar_toNat : eSar a x.toNat c = (x.sshiftRight c).toNat := by
  have hpow : ((2 : Int) ^ min c (tyBits a.ty)) = ((2 ^ min c (tyBits a.ty) : Nat) : Int) := by push_cast; rfl
  rw [eSar, signedElem_toNat (tyBits_pos _), BitVec.sshiftRight_eq, BitVec.toNat_ofInt, Int.fdiv_eq_ediv_of_nonneg _ (by positivity), hpow,
    ← Int.shiftRight_eq_div_pow, toInt_shiftRight_min, Nat.cast_pow, Nat.cast_ofNat]

/-- The two parts of a rotation share no bit, so that their sum is their union. -/
theorem eRotl_toNat : eRotl a x.toNat c = (x.rotateLeft c).toNat := by
  have hn := tyBits_pos a.ty
  have hx := x.isLt
  rw [eRotl, BitVec.toNat_rotateLeft]
  generalize tyBits a.ty = n at *
  have hr : c % n < n := Nat.mod_lt _ hn
  generalize c % n = r at *
  have hpow : 2 ^ n = 2 ^ r * 2 ^ (n - r) := by rw [← Nat.pow_add, Nat.add_sub_cancel' hr.le]
  have hhigh : x.toNat * 2 ^ r % 2 ^ n = 2 ^ r * (x.toNat % 2 ^ (n - r)) := by rw [hpow, Nat.mul_comm, Nat.mul_mod_mul_left]
  have hlow : x.toNat / 2 ^ (n - r) < 2 ^ r := Nat.div_lt_of_lt_mul (by rwa [Nat.mul_comm, ← hpow])
  rw [Nat.shiftLeft_eq, Nat.shiftRight_eq_div_pow, hhigh, Nat.two_pow_add_eq_or_of_lt hlow]

theorem eClz_toNat : eClz a x.toNat = x.clz.toNat := by
  have hn := tyBits_pos a.ty
  by_cases hx : x = 0
  · have hclz : x.clz = (tyBits a.ty : BitVec (tyBits a.ty)) := BitVec.clz_eq_iff_eq_zero.mpr hx
    rw [hclz, hx]
    simp [eClz, Nat.mod_eq_of_lt Nat.lt_two_pow_self]
  · have hne : x.toNat ≠ 0 := fun h => hx (BitVec.eq_of_toNat_eq (by simpa using h))
    have hlo := BitVec.two_pow_sub_clz_le_toNat_of_ne_zero hn hx
    have hhi := BitVec.toNat_lt_two_pow_sub_clz (x := x)
    have hclz : x.clz.toNat < tyBits a.ty := by
      by_contra h
      rw [Nat.sub_eq_zero_of_le (not_lt.mp h)] at hhi
      omega
    have hlog : x.toNat.log2 = tyBits a.ty - 1 - x.clz.toNat :=
      (Nat.log2_eq_iff hne).mpr ⟨hlo, by rwa [show tyBits a.ty - 1 - x.clz.toNat + 1 = tyBits a.ty - x.clz.toNat by omega]⟩
    rw [eClz, if_neg (by simpa using hne), hlog]
    omega

theorem foldl_bits_eq_cpopNatRec {n : Nat} (u : BitVec n) (k : Nat) :
    (List.range k).foldl (fun acc i => acc + u.toNat / 2 ^ i % 2) 0 = u.cpopNatRec k 0 := by
  induction k with
  | zero => rfl
  | succ k ih =>
    rw [List.range_succ, List.foldl_append, ih, BitVec.cpopNatRec_succ, BitVec.cpopNatRec_eq (0 + _), Nat.zero_add, BitVec.getLsbD,
      Nat.toNat_testBit]
    rfl

theorem ePopc_toNat : ePopc a x.toNat = x.cpop.toNat := by rw [ePopc, foldl_bits_eq_cpopNatRec, BitVec.toNat_cpop]

/-- The low k bits, taken from bit 0 up, are the reverse of those bits. -/
theorem foldl_bits_eq_reverse {n : Nat} (u : BitVec n) (k : Nat) :
    (List.range k).foldl (fun acc i => acc * 2 + u.toNat / 2 ^ i % 2) 0 = (u.setWidth k).reverse.toNat := by
  induction k with
  | zero => rw [Nat.lt_one_iff.mp (u.setWidth 0).reverse.isLt]; rfl
  | succ k ih =>
    have hlow : BitVec.truncate k (u.setWidth (k + 1)) = u.setWidth k := BitVec.setWidth_setWidth_of_le u (Nat.le_succ k)
    have hmsb : (u.setWidth (k + 1)).msb = u.toNat.testBit k := by simp [BitVec.msb_setWidth, BitVec.getLsbD]
    rw [List.range_succ, List.foldl_append, ih, BitVec.reverse, BitVec.toNat_concat, hlow, hmsb, Nat.toNat_testBit]
    rfl

theorem eBrev_toNat : eBrev a x.toNat = x.reverse.toNat := by rw [eBrev, foldl_bits_eq_reverse, BitVec.setWidth_eq]

end

/-- Settles O59: every function acts on the integers that its elements stand for, or on their bits. -/
theorem Settled.integerArithmetic : Obligations.IntegerArithmetic := by
  unfold Obligations.IntegerArithmetic
  intro t round sat x y z ht n m v lo hi fit
  have hfit (u : Int) : intRes t sat u = fit u := intBits_eq_ofInt t _
  refine ⟨(arith2_int (a := m) ht x y _ _).trans (hfit _), (arith2_int (a := m) ht x y _ _).trans (hfit _),
    (arith2_int (a := m) ht x y _ _).trans (hfit _), (eMad_int (a := m) ht x y z).trans (hfit _), (eNeg_int (a := m) ht x).trans (hfit _),
    (eAbs_int (a := m) ht x).trans (hfit _), eMulhi_toNat m x y, (eDiv_int (a := m) ht x y).trans (hfit _), eMin_int (a := m) ht x y,
    eMax_int (a := m) ht x y, fun c => ⟨eShl_toNat m x c, eShr_toNat m x c, eSar_toNat m x c, eRotl_toNat m x c⟩, eNot_toNat m x,
    eAndn_toNat m x y, eClz_toNat m x, ePopc_toNat m x, eBrev_toNat m x⟩

end Sys2Proof
end

section
/-!
SUPPORT. Rounding to a format (R115, R116): exact sums and products (R118, R161); the encodings of a format in the order of their magnitudes (R105 to R109); the neighbour that the mode takes and that it is the best value; the overflow result.
-/

namespace Sys2Proof

open Sys2Proof.Machine

/-! ### Values and signs -/

/-- The factor that a sign bit stands for. -/
def sgn (neg : Bool) : ℚ := if neg then -1 else 1

@[simp] theorem sgn_true : sgn true = -1 := rfl
@[simp] theorem sgn_false : sgn false = 1 := rfl

theorem abs_sgn_mul (neg : Bool) (a : ℚ) : |sgn neg * a| = |a| := by cases neg <;> simp

theorem sgn_mul_self (neg : Bool) : sgn neg * sgn neg = 1 := by cases neg <;> norm_num

theorem realOf_fin (neg : Bool) (m : Nat) (e : Int) (more : Bool) : realOf (.fin neg m e more) = some (sgn neg * (m * 2 ^ e)) := by
  rw [realOf, sgn, mul_assoc]

theorem realOf_eq_some {v : FVal} {x : ℚ} (h : realOf v = some x) : ∃ neg m e more, v = .fin neg m e more ∧ x = sgn neg * (m * 2 ^ e) := by
  cases v with
  | nan => cases h
  | inf neg => cases h
  | fin neg m e more => exact ⟨neg, m, e, more, rfl, by rw [realOf_fin] at h; exact (Option.some.inj h).symm⟩

theorem signed_cast (neg : Bool) (m : Nat) : ((signed neg m : Int) : ℚ) = sgn neg * m := by cases neg <;> simp [signed]

/-! ### Exact sums and products (R118, R161) -/

theorem signed_natAbs (s : Int) : signed (s < 0) s.natAbs = s := by
  rcases lt_or_ge s 0 with h | h
  · simp [signed, h, abs_of_neg]
  · simp [signed, not_lt.mpr h, abs_of_nonneg h]

/-- A value with its exponent signed_lowered to q. -/
theorem signed_lowered (neg : Bool) (m : Nat) {e q : Int} (h : q ≤ e) :
    ((signed neg (m * 2 ^ (e - q).toNat) : Int) : ℚ) * 2 ^ q = sgn neg * (m * 2 ^ e) := by
  have hexp : ((e - q).toNat : Int) + q = e := by omega
  rw [signed_cast, mul_assoc, Nat.cast_mul, Nat.cast_pow, Nat.cast_ofNat, mul_assoc, ← zpow_natCast, ← zpow_add₀ two_ne_zero, hexp]

theorem fMul_real {a b : FVal} {x y : ℚ} (ha : realOf a = some x) (hb : realOf b = some y) : realOf (fMul a b) = some (x * y) := by
  obtain ⟨na, ma, ea, _, rfl, rfl⟩ := realOf_eq_some ha
  obtain ⟨nb, mb, eb, _, rfl, rfl⟩ := realOf_eq_some hb
  have hsign : sgn (na != nb) = sgn na * sgn nb := by cases na <;> cases nb <;> simp
  rw [fMul, realOf_fin, hsign, zpow_add₀ two_ne_zero, Nat.cast_mul]
  congr 1
  ring

section
variable (r : RMode) (na nb ta tb : Bool) (ma mb : Nat) (ea eb : Int)

/-- The integer that a sum holds at the lower of the two exponents. -/
def sumAt : Int := signed na (ma * 2 ^ (ea - min ea eb).toNat) + signed nb (mb * 2 ^ (eb - min ea eb).toNat)

theorem sumAt_real : (sumAt na nb ma mb ea eb : ℚ) * 2 ^ min ea eb = sgn na * (ma * 2 ^ ea) + sgn nb * (mb * 2 ^ eb) := by
  rw [sumAt, Int.cast_add, add_mul, signed_lowered na ma (min_le_left ea eb), signed_lowered nb mb (min_le_right ea eb)]

theorem sumAt_eq_zero : sumAt na nb ma mb ea eb = 0 ↔ sgn na * (ma * 2 ^ ea) + sgn nb * (mb * 2 ^ eb) = 0 := by
  have hpow : (2 : ℚ) ^ min ea eb ≠ 0 := zpow_ne_zero _ two_ne_zero
  rw [← sumAt_real, mul_eq_zero, or_iff_left hpow, Int.cast_eq_zero]

theorem fAdd_fin : fAdd r (.fin na ma ea ta) (.fin nb mb eb tb) =
    if sumAt na nb ma mb ea eb = 0 then .fin (if ma = 0 ∧ mb = 0 ∧ na = nb then na else r == .rdn) 0 (min ea eb) false
    else .fin (sumAt na nb ma mb ea eb < 0) (sumAt na nb ma mb ea eb).natAbs (min ea eb) false := by
  generalize hs : sumAt na nb ma mb ea eb = s
  rw [sumAt] at hs
  simp only [fAdd, hs, beq_iff_eq, Bool.and_eq_true, and_assoc]
  split_ifs <;> rfl

end

theorem fAdd_real (r : RMode) {a b : FVal} {x y : ℚ} (ha : realOf a = some x) (hb : realOf b = some y) :
    realOf (fAdd r a b) = some (x + y) := by
  obtain ⟨na, ma, ea, _, rfl, rfl⟩ := realOf_eq_some ha
  obtain ⟨nb, mb, eb, _, rfl, rfl⟩ := realOf_eq_some hb
  rw [fAdd_fin]
  split
  case isTrue h => rw [realOf_fin, (sumAt_eq_zero na nb ma mb ea eb).mp h, Nat.cast_zero, zero_mul, mul_zero]
  case isFalse h => rw [realOf_fin, ← mul_assoc, ← signed_cast, signed_natAbs, sumAt_real]

/-- A sum that cancels takes its sign from the mode. -/
theorem fAdd_cancel (r : RMode) {a b : FVal} {x y : ℚ} (ha : realOf a = some x) (hb : realOf b = some y) (hsum : x + y = 0) (hx : x ≠ 0) :
    ∃ e, fAdd r a b = .fin (r == .rdn) 0 e false := by
  obtain ⟨na, ma, ea, _, rfl, rfl⟩ := realOf_eq_some ha
  obtain ⟨nb, mb, eb, _, rfl, rfl⟩ := realOf_eq_some hb
  have hma : ma ≠ 0 := by
    rintro rfl
    exact hx (by rw [Nat.cast_zero, zero_mul, mul_zero])
  refine ⟨min ea eb, ?_⟩
  rw [fAdd_fin, if_pos ((sumAt_eq_zero na nb ma mb ea eb).mpr hsum), if_neg fun h => hma h.1]

/-! ### The magnitudes of a format in order (R105) -/

/-- The magnitude of an encoding without its sign bit, in units of the smallest subnormal number; the exponent field has no end here. -/
def encSteps (f : Fmt) (x : Nat) : Nat := if x < 2 ^ f.m then x else (2 ^ f.m + x % 2 ^ f.m) * 2 ^ (x / 2 ^ f.m - 1)

/-- The magnitude of an encoding without its sign bit. -/
def mag (f : Fmt) (x : Nat) : ℚ := encSteps f x * 2 ^ (1 - (f.bias : Int) - f.m)

theorem encSteps_row (f : Fmt) {b k : Nat} (hk : k ≤ 2 * 2 ^ f.m) (hb : b = 0 ∨ 2 ^ f.m ≤ k) : encSteps f (b * 2 ^ f.m + k) = k * 2 ^ b := by
  have hpos : 0 < 2 ^ f.m := by positivity
  unfold encSteps
  generalize 2 ^ f.m = w at *
  rcases lt_trichotomy k w with h | rfl | h
  · obtain rfl : b = 0 := by omega
    simp [h]
  · rw [if_neg (by nlinarith), ← Nat.succ_mul, Nat.mul_mod_left, Nat.mul_div_cancel _ hpos]
    simp
  · rcases hk.lt_or_eq with hlt | rfl
    · obtain ⟨j, rfl⟩ := Nat.exists_eq_add_of_lt h
      have hj : j + 1 < w := by omega
      rw [if_neg (by nlinarith), show b * w + (w + j + 1) = w * (b + 1) + (j + 1) by ring, Nat.mul_add_mod, Nat.mod_eq_of_lt hj,
        Nat.mul_add_div hpos, Nat.div_eq_of_lt hj]
      simp [Nat.add_assoc]
    · rw [if_neg (by nlinarith), show b * w + 2 * w = (b + 2) * w by ring, Nat.mul_mod_left, Nat.mul_div_cancel _ hpos]
      simp [Nat.pow_succ]
      ring

/-- An encoding in its row: the exponent field's distance from the subnormal numbers and the significand. -/
theorem exists_row (f : Fmt) (x : Nat) :
    ∃ k, x = (x / 2 ^ f.m - 1) * 2 ^ f.m + k ∧ k < 2 * 2 ^ f.m ∧ (x / 2 ^ f.m - 1 = 0 ∨ 2 ^ f.m ≤ k) := by
  have hpos : 0 < 2 ^ f.m := by positivity
  have hx := Nat.div_add_mod' x (2 ^ f.m)
  have hlt := Nat.mod_lt x hpos
  generalize 2 ^ f.m = w at *
  rcases hq : x / w with _ | q
  · exact ⟨x, by simp, by rw [hq] at hx; omega, .inl rfl⟩
  · rw [hq, Nat.succ_mul] at hx
    exact ⟨w + x % w, by rw [Nat.add_sub_cancel]; omega, by omega, .inr (by omega)⟩

theorem encSteps_succ (f : Fmt) (x : Nat) : encSteps f (x + 1) = encSteps f x + 2 ^ (x / 2 ^ f.m - 1) := by
  obtain ⟨k, hx, hk, hb⟩ := exists_row f x
  generalize x / 2 ^ f.m - 1 = b at *
  rw [hx, Nat.add_assoc, encSteps_row f hk.le hb, encSteps_row f hk (hb.imp_right (Nat.le_succ_of_le)), Nat.succ_mul]

theorem mag_strictMono (f : Fmt) : StrictMono (mag f) := by
  refine strictMono_nat_of_lt_succ fun x => mul_lt_mul_of_pos_right ?_ (by positivity)
  rw [encSteps_succ]
  exact_mod_cast Nat.lt_add_of_pos_right (by positivity)

theorem mag_nonneg (f : Fmt) (x : Nat) : 0 ≤ mag f x := by unfold mag; positivity

/-! ### Decoding by magnitude (R105, R107 to R109) -/

/-- The finite value that the sign, the exponent field and the fraction field of an encoding stand for (R105). -/
def fieldVal (f : Fmt) (neg : Bool) (x : Nat) : FVal :=
  if x / 2 ^ f.m == 0 then .fin neg (x % 2 ^ f.m) (1 - (f.bias : Int) - f.m) false
  else .fin neg (2 ^ f.m + x % 2 ^ f.m) ((x / 2 ^ f.m : Nat) - (f.bias : Int) - f.m) false

theorem realOf_fieldVal (f : Fmt) (neg : Bool) (x : Nat) : realOf (fieldVal f neg x) = some (sgn neg * mag f x) := by
  have hpos : 0 < 2 ^ f.m := by positivity
  unfold fieldVal mag encSteps
  split
  case isTrue h =>
    have hx : x < 2 ^ f.m := (Nat.div_eq_zero_iff_lt hpos).mp (beq_iff_eq.mp h)
    rw [realOf_fin, if_pos hx, Nat.mod_eq_of_lt hx]
  case isFalse h =>
    have hdiv : x / 2 ^ f.m ≠ 0 := fun h0 => h (beq_iff_eq.mpr h0)
    have hx : ¬x < 2 ^ f.m := fun hlt => hdiv (Nat.div_eq_of_lt hlt)
    rw [realOf_fin, if_neg hx]
    obtain ⟨b, hb⟩ := Nat.exists_eq_succ_of_ne_zero hdiv
    have hexp : ((b.succ : Nat) : Int) - f.bias - f.m = (b : Int) + (1 - (f.bias : Int) - f.m) := by omega
    rw [hb, hexp, zpow_add₀ two_ne_zero, zpow_natCast, Nat.cast_mul _ (2 ^ _), Nat.cast_pow 2, Nat.cast_ofNat, mul_assoc]
    rfl

/-- Whether the fields of an encoding without its sign bit are those of an infinity or a NaN (R107, R108). -/
def IsSpecial (f : Fmt) (x : Nat) : Prop :=
  (f.top = .infNan ∧ x / 2 ^ f.m = 2 ^ f.e - 1) ∨ (f.top = .nanOnly ∧ x / 2 ^ f.m = 2 ^ f.e - 1 ∧ x % 2 ^ f.m = 2 ^ f.m - 1)

theorem decodeF_fields (f : Fmt) (x : Nat) :
    (IsSpecial f (x % 2 ^ (f.e + f.m)) ∧ realOf (decodeF f x) = none) ∨
    (¬IsSpecial f (x % 2 ^ (f.e + f.m)) ∧ decodeF f x = fieldVal f (x / 2 ^ (f.e + f.m) % 2 == 1) (x % 2 ^ (f.e + f.m))) := by
  have hexp : x / 2 ^ f.m % 2 ^ f.e = x % 2 ^ (f.e + f.m) / 2 ^ f.m := by rw [Nat.add_comm, Nat.pow_add, Nat.mod_mul_right_div_self]
  have hfrac : x % 2 ^ f.m = x % 2 ^ (f.e + f.m) % 2 ^ f.m := (Nat.mod_mod_of_dvd x (Nat.pow_dvd_pow 2 (Nat.le_add_left f.m f.e))).symm
  simp only [decodeF, IsSpecial, fieldVal, hexp]
  rw [hfrac]
  generalize x % 2 ^ (f.e + f.m) = u
  cases htop : f.top
  case infNan =>
    by_cases he : u / 2 ^ f.m = 2 ^ f.e - 1
    · refine .inl ⟨.inl ⟨rfl, he⟩, ?_⟩
      rw [if_pos (by simp [he])]
      split <;> rfl
    · exact .inr ⟨by simp [he], by simp [he]⟩
  case nanOnly =>
    by_cases he : u / 2 ^ f.m = 2 ^ f.e - 1 ∧ u % 2 ^ f.m = 2 ^ f.m - 1
    · exact .inl ⟨.inr ⟨rfl, he⟩, by simp [he.1, he.2, realOf]⟩
    · refine .inr ⟨by simpa using he, ?_⟩
      rw [if_neg (by simp), if_neg (by simpa [and_assoc] using he)]
  case finite => exact .inr ⟨by simp, by simp⟩

/-- A finite encoding stands for the magnitude of its lower bits. -/
theorem realOf_decodeF {f : Fmt} {x : Nat} {y : ℚ} (h : realOf (decodeF f x) = some y) :
    y = sgn (x / 2 ^ (f.e + f.m) % 2 == 1) * mag f (x % 2 ^ (f.e + f.m)) := by
  rcases decodeF_fields f x with ⟨-, hnone⟩ | ⟨-, hfin⟩
  · cases hnone.symm.trans h
  · rw [hfin, realOf_fieldVal] at h
    exact (Option.some.inj h).symm

/-- No encoding up to the largest finite value is special. -/
theorem not_isSpecial {f : Fmt} (he : 1 ≤ f.e) {x : Nat} (hx : x ≤ fmtMax f) : ¬IsSpecial f x := by
  have hpos : 0 < 2 ^ f.m := by positivity
  have htwo : 2 ≤ 2 ^ f.e := Nat.le_self_pow (by omega) 2
  rintro (⟨htop, hexp⟩ | ⟨htop, hexp, hfrac⟩)
  · have hle : (2 ^ f.e - 1) * 2 ^ f.m ≤ x := (Nat.le_div_iff_mul_le hpos).mp hexp.ge
    have hmul : 0 < (2 ^ f.e - 1) * 2 ^ f.m := Nat.mul_pos (by omega) hpos
    simp only [fmtMax, htop] at hx
    exact absurd (hle.trans hx) (Nat.not_le.mpr (Nat.sub_lt hmul one_pos))
  · have hall : x = (2 ^ f.e - 1) * 2 ^ f.m + (2 ^ f.m - 1) := by rw [← hexp, ← hfrac, Nat.div_add_mod']
    have hmul : 2 * 2 ^ f.m ≤ 2 ^ f.e * 2 ^ f.m := Nat.mul_le_mul_right _ htwo
    rw [Nat.sub_mul, Nat.one_mul] at hall
    simp only [fmtMax, htop, Nat.pow_add] at hx
    generalize 2 ^ f.e * 2 ^ f.m = p at *
    omega

theorem fmtSign_fields {f : Fmt} (neg : Bool) {x : Nat} (hx : x < 2 ^ (f.e + f.m)) :
    (fmtSign f neg + x) % 2 ^ (f.e + f.m) = x ∧ (fmtSign f neg + x) / 2 ^ (f.e + f.m) = neg.toNat := by
  cases neg <;> simp [fmtSign, Nat.mod_eq_of_lt hx, Nat.div_eq_of_lt hx]

theorem fmtSign_even {f : Fmt} (he : 1 ≤ f.e) (neg : Bool) (x : Nat) : (fmtSign f neg + x) % 2 = x % 2 := by
  have heven : 2 ∣ fmtSign f neg := by
    cases neg
    case false => exact Nat.dvd_zero 2
    case true => exact dvd_pow_self 2 (by omega)
  rw [Nat.add_mod, Nat.mod_eq_zero_of_dvd heven, Nat.zero_add, Nat.mod_mod]

/-- The largest finite value and the encodings below it, with either sign. -/
theorem realOf_decodeF_sign {f : Fmt} (he : 1 ≤ f.e) (hmax : fmtMax f < 2 ^ (f.e + f.m)) (neg : Bool) {x : Nat} (hx : x ≤ fmtMax f) :
    realOf (decodeF f (fmtSign f neg + x)) = some (sgn neg * mag f x) := by
  obtain ⟨hlow, hsign⟩ := fmtSign_fields neg (hx.trans_lt hmax)
  have hneg : (neg.toNat % 2 == 1) = neg := by cases neg <;> rfl
  have hfin := (decodeF_fields f (fmtSign f neg + x)).resolve_left fun h => not_isSpecial he hx (hlow ▸ h.1)
  rw [hfin.2, realOf_fieldVal, hlow, hsign, hneg]

/-! ### Choosing between neighbours (R115) -/

/-- Whether the mode takes the neighbour `hi` away from zero of a magnitude `v` between `lo` and `hi`, where `odd` is that of `lo`. -/
def RoundsAway (r : RMode) (neg : Bool) (odd : Prop) (v lo hi : ℚ) : Prop :=
  match r with
  | .rne => hi - v < v - lo ∨ (hi - v = v - lo ∧ odd)
  | .rna => hi - v ≤ v - lo
  | .rz => False
  | .rup => neg = false ∧ lo < v
  | .rdn => neg = true ∧ lo < v

theorem roundsAway_scale {c : ℚ} (hc : 0 < c) (r : RMode) (neg : Bool) (odd : Prop) (v lo hi : ℚ) :
    RoundsAway r neg odd (v * c) (lo * c) (hi * c) ↔ RoundsAway r neg odd v lo hi := by
  cases r <;> simp only [RoundsAway, ← sub_mul, mul_lt_mul_iff_left₀ hc, mul_le_mul_iff_left₀ hc, mul_left_inj' hc.ne']

/-- An exact value stays. -/
theorem not_roundsAway_exact (r : RMode) (neg : Bool) (odd : Prop) {v hi : ℚ} (h : v < hi) : ¬RoundsAway r neg odd v v hi := by
  cases r <;> simp [RoundsAway, h, h.ne', sub_eq_zero, h.le]

/-- `b` is the point of the scale `g` that the magnitude `v` rounds to: the last point k that does not exceed it, or the next one. -/
def RoundsTo (r : RMode) (neg : Bool) (g : Nat → ℚ) (v : ℚ) (b : Nat) : Prop :=
  ∃ k, g k ≤ v ∧ v < g (k + 1) ∧
    (b = k ∧ ¬RoundsAway r neg (k % 2 = 1) v (g k) (g (k + 1)) ∨ b = k + 1 ∧ RoundsAway r neg (k % 2 = 1) v (g k) (g (k + 1)))

/-- The model's test on the remainder of a division by 2h is the choice between the neighbours. -/
theorem roundsUp_iff (r : RMode) (neg : Bool) (k rest h : Nat) :
    roundsUp r neg (k % 2 == 1) rest h false = true ↔
      RoundsAway r neg (k % 2 = 1) ((k * (2 * h) + rest : Nat) : ℚ) (k * (2 * h)) ((k + 1) * (2 * h)) := by
  have hhi : ((k : ℚ) + 1) * (2 * h) - (k * (2 * h) + rest) = 2 * h - rest := by ring
  have hlt : (2 * (h : ℚ) - rest < rest) ↔ h < rest := by rw [← Nat.cast_lt (α := ℚ)]; constructor <;> intro _ <;> linarith
  have heq : (2 * (h : ℚ) - rest = rest) ↔ rest = h := by rw [← Nat.cast_inj (R := ℚ)]; constructor <;> intro _ <;> linarith
  have hle : (2 * (h : ℚ) - rest ≤ rest) ↔ h ≤ rest := by rw [← Nat.cast_le (α := ℚ)]; constructor <;> intro _ <;> linarith
  cases r <;> simp [roundsUp, RoundsAway, hhi, hlt, heq, hle, Nat.pos_iff_ne_zero]

theorem roundShift_roundsTo (r : RMode) (neg : Bool) (m : Nat) (s : Int) :
    RoundsTo r neg Nat.cast (m * 2 ^ (-s)) (roundShift r neg m s false) := by
  have stays (k : Nat) : RoundsTo r neg Nat.cast k k :=
    ⟨k, le_rfl, by simp, .inl ⟨rfl, not_roundsAway_exact r neg _ (by simp)⟩⟩
  match s with
  | .ofNat 0 => simpa [roundShift] using stays m
  | .negSucc n =>
    have hval : (m : ℚ) * 2 ^ (-Int.negSucc n) = (m * 2 ^ (n + 1) : Nat) := by
      rw [Int.neg_negSucc, zpow_natCast]
      push_cast
      rfl
    rw [hval]
    exact stays _
  | .ofNat (n + 1) =>
    generalize hk : m / 2 ^ (n + 1) = k
    generalize hrest : m % 2 ^ (n + 1) = rest
    have hpos : (0 : ℚ) < 2 * (2 ^ n : Nat) := by positivity
    have hdiv : k * (2 * 2 ^ n) + rest = m := by rw [← hk, ← hrest, ← Nat.pow_succ', Nat.div_add_mod']
    have hlt : rest < 2 * 2 ^ n := by rw [← hrest, ← Nat.pow_succ']; exact Nat.mod_lt _ (by positivity)
    have hval : (m : ℚ) * 2 ^ (-Int.ofNat (n + 1)) * (2 * (2 ^ n : Nat)) = m := by
      rw [Int.ofNat_eq_natCast, zpow_neg, zpow_natCast, Nat.cast_pow, Nat.cast_ofNat, ← pow_succ', inv_mul_cancel_right₀ (by positivity)]
    have hup := roundsUp_iff r neg k rest (2 ^ n)
    rw [hdiv, ← hval, roundsAway_scale hpos] at hup
    refine ⟨k, ?_, ?_, ?_⟩
    · rw [← mul_le_mul_iff_left₀ hpos, hval, ← hdiv]
      exact_mod_cast Nat.le_add_right _ _
    · rw [← mul_lt_mul_iff_left₀ hpos, hval, ← hdiv]
      exact_mod_cast (by rw [Nat.succ_mul k]; exact Nat.add_lt_add_left hlt _ : k * (2 * 2 ^ n) + rest < (k + 1) * (2 * 2 ^ n))
    · simp only [roundShift, hk, hrest, Nat.cast_succ, ← hup]
      split
      case isTrue h => exact .inr ⟨rfl, h⟩
      case isFalse h => exact .inl ⟨rfl, h⟩

/-! ### Rounding a magnitude (R115) -/

/-- The exponent of the last kept bit: f.m bits below the leading one, and not below the subnormal numbers. -/
def keptExp (f : Fmt) (m : Nat) (e : Int) : Int := max ((m.log2 : Int) + e - f.m) (1 - (f.bias : Int) - f.m)

/-- The encoding of the rounded magnitude, as though the exponent had no upper limit. -/
def roundBits (f : Fmt) (r : RMode) (neg : Bool) (m : Nat) (e : Int) : Nat :=
  (keptExp f m e + f.bias + f.m - 1).toNat * 2 ^ f.m + roundShift r neg m (keptExp f m e - e) false

/-- The encoding of a rounded magnitude: its bits under the sign, or the overflow result (R115, R116). -/
def withSign (f : Fmt) (r : RMode) (sat neg : Bool) (b : Nat) : Nat :=
  if b > fmtMax f then overflowBits f r sat neg else fmtSign f neg + b

theorem roundFin_eq (f : Fmt) (r : RMode) (sat neg : Bool) {m : Nat} (hm : m ≠ 0) (e : Int) :
    roundFin f r sat neg m e false = withSign f r sat neg (roundBits f r neg m e) := by
  rw [roundFin, if_neg (by simp [hm])]
  rfl

section
variable (f : Fmt) {m : Nat} (hm : m ≠ 0) (e : Int)

/-- The magnitude has at most f.m + 1 bits from the last kept one up. -/
theorem scaled_lt : (m : ℚ) * 2 ^ (-(keptExp f m e - e)) < 2 * 2 ^ f.m := by
  have hlog : (m : ℚ) < 2 ^ ((m.log2 : Int) + 1) := by exact_mod_cast Nat.lt_log2_self
  have hexp : -(keptExp f m e - e) ≤ f.m - m.log2 := by
    have := le_max_left ((m.log2 : Int) + e - f.m) (1 - (f.bias : Int) - f.m)
    unfold keptExp
    omega
  calc (m : ℚ) * 2 ^ (-(keptExp f m e - e)) < 2 ^ ((m.log2 : Int) + 1) * 2 ^ (-(keptExp f m e - e)) := by gcongr
    _ ≤ 2 ^ ((m.log2 : Int) + 1) * 2 ^ ((f.m : Int) - m.log2) := by gcongr; norm_num
    _ = 2 * 2 ^ f.m := by rw [← zpow_add₀ two_ne_zero, ← zpow_natCast, ← zpow_one_add₀ two_ne_zero]; congr 1; ring

include hm in
/-- Above the subnormal numbers it has that many. -/
theorem le_scaled (hq : keptExp f m e ≠ 1 - (f.bias : Int) - f.m) : (2 : ℚ) ^ f.m ≤ m * 2 ^ (-(keptExp f m e - e)) := by
  have hlog : (2 : ℚ) ^ (m.log2 : Int) ≤ m := by exact_mod_cast Nat.log2_self_le hm
  have hexp : -(keptExp f m e - e) = f.m - m.log2 := by
    rcases max_choice ((m.log2 : Int) + e - f.m) (1 - (f.bias : Int) - f.m) with h | h
    · unfold keptExp
      omega
    · exact absurd h hq
  calc (2 : ℚ) ^ f.m = 2 ^ (m.log2 : Int) * 2 ^ ((f.m : Int) - m.log2) := by rw [← zpow_add₀ two_ne_zero, ← zpow_natCast]; congr 1; ring
    _ ≤ m * 2 ^ (-(keptExp f m e - e)) := by rw [hexp]; gcongr

/-- The row of encodings whose last bit has the weight of the last kept bit. -/
theorem mag_keptRow {k : Nat} (hk : k ≤ 2 * 2 ^ f.m) (hrow : keptExp f m e = 1 - (f.bias : Int) - f.m ∨ 2 ^ f.m ≤ k) :
    mag f ((keptExp f m e + f.bias + f.m - 1).toNat * 2 ^ f.m + k) = k * 2 ^ keptExp f m e := by
  have hge : 1 - (f.bias : Int) - f.m ≤ keptExp f m e := le_max_right _ _
  have hexp : ((keptExp f m e + f.bias + f.m - 1).toNat : Int) + (1 - (f.bias : Int) - f.m) = keptExp f m e := by omega
  rw [mag, encSteps_row f hk (hrow.imp_left fun h => by omega), Nat.cast_mul, Nat.cast_pow 2, Nat.cast_ofNat, mul_assoc, ← zpow_natCast,
    ← zpow_add₀ two_ne_zero, hexp]

include hm in
/-- The model's rounding takes the neighbour of the mode among the encodings in order. -/
theorem roundBits_roundsTo (hfrac : 1 ≤ f.m) (r : RMode) (neg : Bool) :
    RoundsTo r neg (mag f) (m * 2 ^ e) (roundBits f r neg m e) := by
  obtain ⟨k, hle, hlt, hchoice⟩ := roundShift_roundsTo r neg m (keptExp f m e - e)
  have hpos : (0 : ℚ) < 2 ^ keptExp f m e := by positivity
  have hval : (m : ℚ) * 2 ^ (-(keptExp f m e - e)) * 2 ^ keptExp f m e = m * 2 ^ e := by
    rw [mul_assoc, ← zpow_add₀ two_ne_zero]
    congr 2
    ring
  have hk : k < 2 * 2 ^ f.m := by exact_mod_cast hle.trans_lt (scaled_lt f e)
  have hrow : keptExp f m e = 1 - (f.bias : Int) - f.m ∨ 2 ^ f.m ≤ k := by
    refine or_iff_not_imp_left.mpr fun hq => Nat.lt_succ_iff.mp ?_
    exact_mod_cast (le_scaled f hm e hq).trans_lt hlt
  have hlo := mag_keptRow f e hk.le hrow
  have hhi := mag_keptRow f e hk (hrow.imp_right Nat.le_succ_of_le)
  have heven : 2 ∣ 2 ^ f.m := dvd_pow_self 2 (by omega)
  have hodd : ((keptExp f m e + f.bias + f.m - 1).toNat * 2 ^ f.m + k) % 2 = k % 2 := by
    rw [Nat.add_mod, Nat.mod_eq_zero_of_dvd (heven.mul_left _), Nat.zero_add, Nat.mod_mod]
  unfold roundBits
  refine ⟨(keptExp f m e + f.bias + f.m - 1).toNat * 2 ^ f.m + k, ?_, ?_, ?_⟩
  · rw [hlo, ← hval]
    gcongr
  · rw [Nat.add_assoc, hhi, ← hval]
    gcongr
  · rw [Nat.add_assoc, hlo, hhi, ← hval, hodd, roundsAway_scale hpos]
    exact hchoice.imp (And.imp_left (congrArg _)) (And.imp_left (congrArg _))

end

/-! ### The value of the format that is chosen (R115) -/

/-- What R115 asks of the rounded value u of v against every value y of the format; `even`: the last kept bit of u is 0. -/
def Best (r : RMode) (v u y : ℚ) (even : Prop) : Prop :=
  match r with
  | .rne => |v - u| ≤ |v - y| ∧ (|v - u| = |v - y| → y ≠ u → even)
  | .rna => |v - u| ≤ |v - y| ∧ (|v - u| = |v - y| → y ≠ u → |y| < |u|)
  | .rz => |u| ≤ |v| ∧ (|y| ≤ |v| → |y| ≤ |u|)
  | .rup => v ≤ u ∧ (v ≤ y → u ≤ y)
  | .rdn => u ≤ v ∧ (y ≤ v → y ≤ u)

section
variable {v lo hi c z : ℚ} (hlo : lo ≤ v) (hhi : v < hi) (hz : z ≤ lo ∨ hi ≤ z)
include hlo hhi hz

/-- The nearer neighbour is nearest among all values; another one as near is the other neighbour, at a tie. -/
theorem nearest_of_neighbour (hc : c = lo ∧ v - lo ≤ hi - v ∨ c = hi ∧ hi - v ≤ v - lo) :
    |v - c| ≤ |v - z| ∧ (|v - c| = |v - z| → z ≠ c → hi - v = v - lo ∧ (c = hi → z = lo)) := by
  rcases hc with ⟨rfl, hc⟩ | ⟨rfl, hc⟩ <;> rcases hz with hz | hz
  · rw [abs_of_nonneg (sub_nonneg.mpr hlo), abs_of_nonneg (by linarith : 0 ≤ v - z)]
    exact ⟨by linarith, fun heq hne => absurd (by linarith) hne⟩
  · rw [abs_of_nonneg (sub_nonneg.mpr hlo), abs_of_nonpos (by linarith : v - z ≤ 0)]
    exact ⟨by linarith, fun heq _ => ⟨by linarith, fun hcon => by linarith⟩⟩
  · rw [abs_of_neg (sub_neg.mpr hhi), abs_of_nonneg (by linarith : 0 ≤ v - z)]
    exact ⟨by linarith, fun heq _ => ⟨by linarith, fun _ => by linarith⟩⟩
  · rw [abs_of_neg (sub_neg.mpr hhi), abs_of_nonpos (by linarith : v - z ≤ 0)]
    exact ⟨by linarith, fun heq hne => absurd (by linarith) hne⟩

/-- The lower neighbour is the largest value that is not above. -/
theorem greatest_below : lo ≤ v ∧ (z ≤ v → z ≤ lo) := ⟨hlo, fun h => hz.resolve_right fun h' => by linarith⟩

/-- The upper neighbour, or the value where it is exact, is the smallest value that is not below. -/
theorem least_above (hc : c = lo ∧ ¬lo < v ∨ c = hi ∧ lo < v) : v ≤ c ∧ (v ≤ z → c ≤ z) := by
  rcases hc with ⟨rfl, hc⟩ | ⟨rfl, hc⟩
  · exact ⟨by linarith, fun h => by linarith⟩
  · exact ⟨hhi.le, fun h => hz.resolve_left fun h' => by linarith⟩

end

/-- Whichever of two neighbours the mode chooses is the best value, when no value lies between them. -/
theorem best_of_neighbours {r : RMode} {neg : Bool} {odd even : Prop} {v lo hi c z : ℚ} (hlo : lo ≤ v) (hhi : v < hi) (h0 : 0 ≤ lo)
    (hz : |z| ≤ lo ∨ hi ≤ |z|)
    (hc : c = lo ∧ ¬RoundsAway r neg odd v lo hi ∧ (¬odd → even) ∨ c = hi ∧ RoundsAway r neg odd v lo hi ∧ (odd → even)) :
    Best r (sgn neg * v) (sgn neg * c) (sgn neg * z) even := by
  have hz' : z ≤ lo ∨ hi ≤ z := hz.elim (fun h => .inl ((le_abs_self z).trans h)) fun h => (le_abs.mp h).elim .inr fun h => .inl (by linarith)
  have hdist (u : ℚ) : |sgn neg * v - sgn neg * u| = |v - u| := by rw [← mul_sub, abs_sgn_mul]
  have hne (h : sgn neg * z ≠ sgn neg * c) : z ≠ c := fun hzc => h (hzc ▸ rfl)
  have hbelow (hstay : ¬RoundsAway r neg odd v lo hi) : c ≤ v ∧ (z ≤ v → z ≤ c) := by
    obtain ⟨rfl, -, -⟩ := hc.resolve_right fun h => hstay h.2.1
    exact greatest_below hlo hhi hz'
  have habove (hiff : RoundsAway r neg odd v lo hi ↔ lo < v) : v ≤ c ∧ (v ≤ z → c ≤ z) :=
    least_above hlo hhi hz' (hc.imp (fun h => ⟨h.1, fun hlt => h.2.1 (hiff.mpr hlt)⟩) fun h => ⟨h.1, hiff.mp h.2.1⟩)
  cases r with
  | rne =>
    simp only [RoundsAway] at hc
    have hnear := nearest_of_neighbour (c := c) hlo hhi hz' (hc.imp
      (fun h => ⟨h.1, not_lt.mp fun hlt => h.2.1 (.inl hlt)⟩) fun h => ⟨h.1, h.2.1.elim le_of_lt fun heq => heq.1.le⟩)
    simp only [Best, hdist]
    refine ⟨hnear.1, fun heq hzc => ?_⟩
    obtain ⟨htie, -⟩ := hnear.2 heq (hne hzc)
    rcases hc with ⟨-, hstay, heven⟩ | ⟨-, haway, heven⟩
    · exact heven fun hodd => hstay (.inr ⟨htie, hodd⟩)
    · exact heven (haway.resolve_left htie.not_lt).2
  | rna =>
    simp only [RoundsAway] at hc
    have hnear := nearest_of_neighbour (c := c) hlo hhi hz' (hc.imp (fun h => ⟨h.1, (not_le.mp h.2.1).le⟩) fun h => ⟨h.1, h.2.1⟩)
    simp only [Best, hdist, abs_sgn_mul]
    refine ⟨hnear.1, fun heq hzc => ?_⟩
    obtain ⟨htie, hother⟩ := hnear.2 heq (hne hzc)
    rcases hc with ⟨-, hstay, -⟩ | ⟨rfl, -, -⟩
    · exact absurd htie.le hstay
    · rw [hother rfl, abs_of_nonneg h0, abs_of_pos (by linarith)]
      linarith
  | rz =>
    obtain ⟨rfl, -, -⟩ := hc.resolve_right fun h => h.2.1
    simp only [Best, abs_sgn_mul, abs_of_nonneg h0, abs_of_nonneg (h0.trans hlo)]
    exact greatest_below hlo hhi hz
  | rup =>
    cases neg
    case false => simpa [Best] using habove (by simp [RoundsAway])
    case true => simpa [Best] using hbelow (by simp [RoundsAway])
  | rdn =>
    cases neg
    case false => simpa [Best] using hbelow (by simp [RoundsAway])
    case true => simpa [Best] using habove (by simp [RoundsAway])

theorem lt_of_roundsAway {r : RMode} {neg : Bool} {odd : Prop} {v lo hi : ℚ} (hhi : v < hi) (h : RoundsAway r neg odd v lo hi) : lo < v := by
  cases r with
  | rne => rcases h with h | ⟨h, -⟩ <;> linarith
  | rna => linarith [show hi - v ≤ v - lo from h]
  | rz => exact h.elim
  | rup => exact h.2
  | rdn => exact h.2

section
variable {r : RMode} {neg : Bool} {g : Nat → ℚ} (hg : StrictMono g) {v : ℚ} {b : Nat} (h : RoundsTo r neg g v b)
include hg h

theorem RoundsTo.best (h0 : ∀ k, 0 ≤ g k) {x : Nat} {z : ℚ} (hz : |z| = g x) :
    Best r (sgn neg * v) (sgn neg * g b) (sgn neg * z) (b % 2 = 0) := by
  obtain ⟨k, hlo, hhi, hb⟩ := h
  have hout : |z| ≤ g k ∨ g (k + 1) ≤ |z| := by
    rw [hz, hg.le_iff_le, hg.le_iff_le]
    omega
  exact best_of_neighbours hlo hhi (h0 k) hout (hb.imp (fun hk => ⟨congrArg g hk.1, hk.2, by omega⟩) fun hk => ⟨congrArg g hk.1, hk.2, by omega⟩)

/-- A magnitude up to a point of the scale stays below it, and one beyond it does not come back. -/
theorem RoundsTo.le_of_le {t : Nat} (ht : v ≤ g t) : b ≤ t := by
  obtain ⟨k, hlo, hhi, ⟨rfl, -⟩ | ⟨rfl, haway⟩⟩ := h
  · exact hg.le_iff_le.mp (hlo.trans ht)
  · exact hg.lt_iff_lt.mp ((lt_of_roundsAway hhi haway).trans_le ht)

end

/-! ### Overflow (R116) -/

/-- Whether a magnitude above the largest value `top` rounds back to it (R116); `even`: the last bit of `top` is 0. -/
def Keeps (r : RMode) (neg : Bool) (v top ulp : ℚ) (even : Prop) : Prop :=
  match r with
  | .rne => v < top + ulp / 2 ∨ (v = top + ulp / 2 ∧ even)
  | .rna => v < top + ulp / 2
  | .rz => True
  | .rup => neg = true
  | .rdn => neg = false

section
variable (f : Fmt) (sat : Bool) {r : RMode} {neg : Bool} {v top ulp : ℚ} {odd even : Prop}

/-- Below the value that would follow `top`, the magnitude rounds back unless it rounds to that value. -/
theorem keeps_iff_not_roundsAway (htop : top < v) (hodd : odd ↔ ¬even) :
    Keeps r neg v top ulp even ↔ ¬RoundsAway r neg odd v top (top + ulp) := by
  have hlt : v < top + ulp / 2 ↔ v - top < top + ulp - v := by constructor <;> intro _ <;> linarith
  have heq : v = top + ulp / 2 ↔ top + ulp - v = v - top := by constructor <;> intro _ <;> linarith
  cases r with
  | rne =>
    simp only [Keeps, RoundsAway, hlt, heq, hodd]
    rcases lt_trichotomy (top + ulp - v) (v - top) with h | h | h
    · simp [h, h.not_gt, h.ne]
    · simp [h]
    · simp [h, h.not_gt, h.ne']
  | rna => simp only [Keeps, RoundsAway, hlt, not_le]
  | rz => simp [Keeps, RoundsAway]
  | rup => simp [Keeps, RoundsAway, htop]
  | rdn => simp [Keeps, RoundsAway, htop]

theorem overflowBits_of_roundsAway {lo hi : ℚ} (h : RoundsAway r neg odd v lo hi) : overflowBits f r sat neg = fmtInf f sat neg := by
  cases r with
  | rne => rfl
  | rna => rfl
  | rz => exact h.elim
  | rup => rw [h.1]; rfl
  | rdn => rw [h.1]; rfl

/-- From the value that would follow `top` on, only the direction of the mode decides. -/
theorem overflowBits_far (hulp : 0 < ulp) (hfar : top + ulp ≤ v) :
    (Keeps r neg v top ulp even → overflowBits f r sat neg = fmtMaxBits f neg) ∧
    (¬Keeps r neg v top ulp even → overflowBits f r sat neg = fmtInf f sat neg) := by
  have hlt : ¬v < top + ulp / 2 := by linarith
  have hne : v ≠ top + ulp / 2 := by linarith
  cases r with
  | rne => exact ⟨fun h => (h.elim hlt fun h => hne h.1).elim, fun _ => rfl⟩
  | rna => exact ⟨fun h => (hlt h).elim, fun _ => rfl⟩
  | rz => exact ⟨fun _ => rfl, fun h => (h trivial).elim⟩
  | rup => cases neg <;> simp [Keeps, overflowBits]
  | rdn => cases neg <;> simp [Keeps, overflowBits]

/-- A magnitude above the largest value of the format: the largest value where it rounds back to it, else the overflow result. -/
theorem roundsTo_overflow {g : Nat → ℚ} (hg : StrictMono g) {b : Nat} (h : RoundsTo r neg g v b) (htop : g (fmtMax f) < v)
    (hulp : g (fmtMax f + 1) = g (fmtMax f) + ulp) :
    (Keeps r neg v (g (fmtMax f)) ulp (fmtMax f % 2 = 0) → withSign f r sat neg b = fmtMaxBits f neg) ∧
    (¬Keeps r neg v (g (fmtMax f)) ulp (fmtMax f % 2 = 0) → withSign f r sat neg b = fmtInf f sat neg) := by
  obtain ⟨k, hlo, hhi, hb⟩ := h
  have hk : fmtMax f ≤ k := Nat.lt_succ_iff.mp (hg.lt_iff_lt.mp (htop.trans hhi))
  rcases hk.eq_or_lt with rfl | hk
  · rw [keeps_iff_not_roundsAway (odd := fmtMax f % 2 = 1) htop (by omega), not_not, ← hulp]
    rcases hb with ⟨rfl, hstay⟩ | ⟨rfl, haway⟩
    · exact ⟨fun _ => if_neg (lt_irrefl _), fun haway => (hstay haway).elim⟩
    · exact ⟨fun hstay => (hstay haway).elim, fun _ => (if_pos (Nat.lt_succ_self _)).trans (overflowBits_of_roundsAway f sat haway)⟩
  · have hbig : b > fmtMax f := by rcases hb with ⟨rfl, -⟩ | ⟨rfl, -⟩ <;> omega
    have hfar : g (fmtMax f) + ulp ≤ v := hulp ▸ (hg.monotone hk).trans hlo
    have hpos : 0 < ulp := by
      have := hg (Nat.lt_succ_self (fmtMax f))
      linarith
    rw [withSign, if_pos hbig]
    exact overflowBits_far f sat hpos hfar

end

/-! ### The formats (R106 to R109) -/

/-- What the formats of the manual have in common: both fields are there, and the largest finite value is not the first of its row. -/
theorem fmtOf_shape {t : Ty} {f : Fmt} (h : fmtOf t = some f) :
    1 ≤ f.e ∧ 1 ≤ f.m ∧ 1 ≤ fmtMax f ∧ fmtMax f < 2 ^ (f.e + f.m) ∧ (fmtMax f - 1) / 2 ^ f.m = fmtMax f / 2 ^ f.m := by
  cases t <;> cases h <;> decide

/-- The spacing of the values at the largest finite value. -/
theorem mag_ulp {f : Fmt} (hpos : 1 ≤ fmtMax f) (hrow : (fmtMax f - 1) / 2 ^ f.m = fmtMax f / 2 ^ f.m) :
    mag f (fmtMax f + 1) = mag f (fmtMax f) + (mag f (fmtMax f) - mag f (fmtMax f - 1)) := by
  have hbelow := encSteps_succ f (fmtMax f - 1)
  rw [Nat.sub_add_cancel hpos, hrow] at hbelow
  simp only [mag, encSteps_succ, hbelow, Nat.cast_add]
  ring

section
variable {t : Ty} {f : Fmt} (hf : fmtOf t = some f) (r : RMode) (sat neg : Bool) {m : Nat} (hm : m ≠ 0) (e : Int)
include hf hm

/-- A magnitude up to the largest value of the format is encoded, with its sign, as the best value. -/
theorem roundFin_fits (hle : (m : ℚ) * 2 ^ e ≤ mag f (fmtMax f)) :
    ∃ u, realOf (decodeF f (roundFin f r sat neg m e false)) = some u ∧ roundFin f r sat neg m e false / 2 ^ (f.e + f.m) = neg.toNat ∧
      ∀ x y, realOf (decodeF f x) = some y → Best r (sgn neg * (m * 2 ^ e)) u y (roundFin f r sat neg m e false % 2 = 0) := by
  obtain ⟨he, hfrac, -, hmax, -⟩ := fmtOf_shape hf
  have hround := roundBits_roundsTo f hm e hfrac r neg
  have hb := hround.le_of_le (mag_strictMono f) hle
  rw [roundFin_eq f r sat neg hm, withSign, if_neg (Nat.not_lt.mpr hb)]
  refine ⟨_, realOf_decodeF_sign he hmax neg hb, (fmtSign_fields neg (hb.trans_lt hmax)).2, fun x y hy => ?_⟩
  have hz : |sgn neg * y| = mag f (x % 2 ^ (f.e + f.m)) := by
    rw [realOf_decodeF hy, abs_sgn_mul, abs_sgn_mul, abs_of_nonneg (mag_nonneg f _)]
  have hbest := hround.best (mag_strictMono f) (mag_nonneg f) hz
  rwa [← mul_assoc (sgn neg) (sgn neg), sgn_mul_self, one_mul, ← fmtSign_even he neg] at hbest

/-- A magnitude above the largest value of the format. -/
theorem roundFin_overflows {ulp : ℚ} (hulp : ulp = mag f (fmtMax f) - mag f (fmtMax f - 1)) (hlt : mag f (fmtMax f) < m * 2 ^ e) :
    (Keeps r neg (m * 2 ^ e) (mag f (fmtMax f)) ulp (fmtMax f % 2 = 0) → roundFin f r sat neg m e false = fmtMaxBits f neg) ∧
    (¬Keeps r neg (m * 2 ^ e) (mag f (fmtMax f)) ulp (fmtMax f % 2 = 0) → roundFin f r sat neg m e false = fmtInf f sat neg) := by
  obtain ⟨-, hfrac, hpos, -, hrow⟩ := fmtOf_shape hf
  rw [roundFin_eq f r sat neg hm]
  exact roundsTo_overflow f sat (mag_strictMono f) (roundBits_roundsTo f hm e hfrac r neg) hlt (hulp ▸ mag_ulp hpos hrow)

end

/-- Settles O60: the encodings of a format stand in the order of their magnitudes, and rounding takes one of the two neighbours. -/
theorem Settled.rounding : Obligations.Rounding := by
  unfold Obligations.Rounding
  intro t f r sat hf
  refine ⟨fun neg m e v top below hm hv htop hbelow => ?_, fun neg e => ⟨rfl, rfl, rfl⟩, by decide,
    fun a b x y ha hb => ⟨fAdd_real r ha hb, fMul_real ha hb, fun hsum hx => ?_⟩⟩
  · intro ulp w
    obtain ⟨he, -, -, hmax, -⟩ := fmtOf_shape hf
    have hmag {x : Nat} (hx : x ≤ fmtMax f) : realOf (decodeF f x) = some (mag f x) := by
      simpa [fmtSign] using realOf_decodeF_sign he hmax false hx
    obtain rfl : mag f (fmtMax f) = top := Option.some.inj ((hmag le_rfl).symm.trans htop)
    obtain rfl : mag f (fmtMax f - 1) = below := Option.some.inj ((hmag (Nat.sub_le _ _)).symm.trans hbelow)
    obtain rfl : sgn neg * (m * 2 ^ e) = v := Option.some.inj ((realOf_fin neg m e false).symm.trans hv)
    have habs : |sgn neg * ((m : ℚ) * 2 ^ e)| = m * 2 ^ e := by rw [abs_sgn_mul, abs_of_nonneg (by positivity)]
    refine ⟨fun hle => ?_, fun hlt => ?_⟩
    · obtain ⟨u, hu, hsign, hbest⟩ := roundFin_fits hf r sat neg hm e (habs ▸ hle)
      exact ⟨u, hu, hsign, fun x y _ hy => hbest x y hy⟩
    · rw [habs] at hlt ⊢
      exact roundFin_overflows hf r sat neg hm e rfl hlt
  · obtain ⟨e, he⟩ := fAdd_cancel r ha hb hsum hx
    rw [he]

end Sys2Proof
end

section
/-!
SUPPORT. Transfers (R144, R188 to R191, R338): what a transfer that completes leaves, in sequence and taken; the votes of the branches as statements about lanes.
-/

namespace Sys2Proof

open Sys2Proof.Machine

/-! ### The shared transfer (R144, R338) -/

/-- What a transfer to `t` that leaves the return stack `rs` has changed: the issuing wave alone. Taken, it makes queue and latch invalid and enters the digest; to the next word in sequence it is an instruction of one word. -/
structure Transferred (s u : State) (t : W64) (rs : List W64) : Prop where
  rest : u = { s with wave := u.wave }
  memory : SameMemory s u
  taken : t ≠ s.wave.regs.pc + 4 → u.wave = { s.wave with
    regs := { s.wave.regs with pc := t, qvalid := 0, latch := s.wave.regs.latch.map (fun e => { e with life := 0 }), rs := rs }
    tried := none
    digest := digestStep s.wave.digest t }
  inSequence : t = s.wave.regs.pc + 4 → u.wave = { s.wave with
    regs := { s.wave.regs with pc := t, latch := latchAfter s.wave.regs none, rs := rs } }

theorem transferTo_inSequence (s : State) : transferTo s (s.wave.regs.pc + 4) = retireWave s 4 := if_pos rfl

/-- The shared transfer behind a push to or a pop from the return stack. -/
theorem transferTo_transferred (s : State) (t : W64) (rs : List W64) :
    Transferred s (transferTo (onRegs s fun r => { r with rs := rs }) t) t rs := by
  unfold transferTo
  split
  case isTrue h =>
    refine ⟨rfl, sameMemory_of_eq rfl rfl rfl, fun hne => absurd h hne, fun _ => ?_⟩
    rw [retireWave, onRegs, retire_eq, h]
    rfl
  case isFalse h => exact ⟨rfl, sameMemory_of_eq rfl rfl rfl, fun _ => rfl, fun heq => absurd heq h⟩

/-! ### Targets from a register (R189) -/

theorem badPc_of_code {x : W64} (halign : x.toNat % 4 = 0) (hlt : x.toNat < 2 ^ 56) : badPc x = false := by
  rw [badPc, halign, Nat.div_eq_of_lt hlt]
  rfl

/-! ### Votes (R191) -/

theorem and_eq_zero_iff_lanes (x y : W32) :
    x &&& y = 0 ↔ ∀ l : Fin 32, x.getLsbD l.val = true → y.getLsbD l.val = false := by
  constructor
  · intro h l hx
    simpa [hx] using congrArg (fun z : W32 => z.getLsbD l.val) h
  · intro h
    refine BitVec.eq_of_getLsbD_eq fun i hi => ?_
    simpa using h ⟨i, hi⟩

theorem voteAny_iff (x g : W32) : (x &&& g != 0) = true ↔ ∃ l : Fin 32, x.getLsbD l.val = true ∧ g.getLsbD l.val = true := by
  rw [bne_iff_ne, ne_eq, and_eq_zero_iff_lanes]
  simp only [not_forall, Bool.not_eq_false, exists_prop]

theorem voteAll_iff (x g : W32) : (x &&& ~~~ g == 0) = true ↔ ∀ l : Fin 32, x.getLsbD l.val = true → g.getLsbD l.val = true := by
  rw [beq_iff_eq, and_eq_zero_iff_lanes]
  simp only [BitVec.getLsbD_not, Fin.is_lt, decide_true, Bool.true_and, Bool.not_eq_false']

theorem voteNone_iff (x g : W32) : (x &&& g == 0) = true ↔ ∀ l : Fin 32, x.getLsbD l.val = true → g.getLsbD l.val = false := by
  rw [beq_iff_eq, and_eq_zero_iff_lanes]

/-- A branch goes to its target where its vote passes, and else to the next word. -/
theorem branchIf_eq (s : State) (o : BitVec 20) {taken : Bool} {vote : Prop} [Decidable vote] (h : taken = true ↔ vote) :
    branchIf s o taken = .next (transferTo s (if vote then branchTarget s.wave.regs.pc o else s.wave.regs.pc + 4)) := by
  by_cases hv : vote
  · rw [if_pos hv, branchIf, if_pos (h.2 hv)]
  · rw [if_neg hv, branchIf, if_neg (mt h.1 hv), transferTo_inSequence]

/-- Settles O13: every one of them ends in the shared transfer, behind its own choice of the target and of the return stack. -/
theorem Settled.transfers : Obligations.Transfers := by
  unfold Obligations.Transfers
  intro s o a c w r target holds goes
  have transfers {i : Instr} {t : W64} (rs : List W64) (hi : exec i s = .next (transferTo (onRegs s fun r => { r with rs := rs }) t)) :
      goes i t rs := by
    obtain ⟨hrest, hmemory, htaken, hsequence⟩ := transferTo_transferred s t rs
    exact ⟨_, hi, hrest, hmemory, htaken, hsequence⟩
  refine ⟨transfers r.rs rfl, fun halign hlt => transfers r.rs ?_, fun hroom => transfers _ (if_neg (Nat.not_le.mpr hroom)),
    fun t rest hrs => transfers rest ?_, transfers r.rs (branchIf_eq s o (voteAny_iff r.exec _)),
    transfers r.rs (branchIf_eq s o (voteAll_iff r.exec _)), transfers r.rs (branchIf_eq s o (voteNone_iff r.exec _))⟩
  · exact congrArg Host.Outcome.next (if_neg (ne_true_of_eq_false (badPc_of_code halign hlt)))
  · show execRet s = _
    simp only [execRet, show s.wave.regs.rs = t :: rest from hrs]

end Sys2Proof
end

section
/-!
SUPPORT. The other lane instructions behind their operand checks (R91, R165 to R175): three sources, comparison and selection, conversions, permutations.
-/

namespace Sys2Proof

open Sys2Proof.Machine

/-! ### The shared effect -/

/-- A lane instruction whose operands pass R91 and whose effect is the shared one completes with its result and its hold. -/
theorem checked_laneDone {s : State} {uses : List OpUse} {ok : Bool} {f : Regs → Regs} {d : Dst} {h : Hold} {a b : Lanes W64 × Bool}
    {v : Lanes W64} {wide : Bool} (hpass : operandFault s.wave.regs uses ok = none) (hd : OpUse.dst d wide ∈ uses)
    (hf : f s.wave.regs = laneFinish s.wave.regs 4 d h ⟨a.1, a.2, b.1, b.2⟩ v wide) :
    ∃ u, checked s uses ok f = .next u ∧ OnlyRegs s u ∧
      LaneDone s.wave.regs u.wave.regs 4 d wide v (heldBy h a b (onActive s.wave.regs v, wide)) := by
  obtain ⟨u, hu, hregs, he⟩ := checked_next s uses ok f hpass
  refine ⟨u, hu, hregs, ?_⟩
  rw [he, hf]
  exact laneFinish_done _ 4 d h ⟨a.1, a.2, b.1, b.2⟩ v wide (dstFits_of_passed _ uses ok d wide hd hpass)

/-! ### Three sources -/

/-- A three-source instruction whose operands pass R91; it holds nothing. -/
theorem laneThree_done (s : State) (d : Dst) (a b c : Src) (ok : Ty → Bool) (yw : Bool) (f : Regs → W64 → W64 → W64 → W64) :
    let r := s.wave.regs
    let w := regsWide r
    let src := fun (x : Src) (wide : Bool) => srcLanes r s.wave.ids.wave.val x wide
    operandFault r [.src a w, .src b yw, .src c yw, .dst d w] (tyIn r ok) = none →
      ∃ u, laneThree s d a b c ok yw f = .next u ∧ OnlyRegs s u ∧
        LaneDone r u.wave.regs 4 d w (Lanes.of fun l => f r (src a w)[l] (src b yw)[l] (src c yw)[l]) none := by
  intro r w src hpass
  exact checked_laneDone (h := .none) (a := (src a w, w)) (b := (src b yw, yw)) hpass (by simp [r, w]) rfl

/-- Settles O3: MAD, BFX and BFI are the shared form of three sources; LEA delivers and holds as a two-source instruction does. -/
theorem Settled.threeSourceLanes : Obligations.ThreeSourceLanes := by
  unfold Obligations.ThreeSourceLanes
  intro s d a b c b2 sh h r w t m src does three lea
  exact ⟨laneThree_done s d a b c okArith w fun r x y z => map3 (curTy r) (eMad (arithOf r (curTy r))) x y z,
    laneThree_done s d a b c tyScal false fun r x y z =>
      map1 (curTy r) (fun e => eBfx (arithOf r (curTy r)) e (y.toNat % 256) (z.toNat % 256)) x,
    laneThree_done s d a b c tyScal false fun r x y z =>
      map1 (curTy r) (fun e => eBfi (arithOf r (curTy r)) e y.toNat (z.toNat % 256) (z.toNat / 256 % 256)) x,
    fun hpass => checked_laneDone hpass (by simp [r, w]) rfl⟩

/-! ### Comparison and selection -/

/-- A lane result followed by a predicate write in the active lanes: each has its own effect (R97, R147). -/
theorem laneFinish_writePred_done (r : Regs) (d : Dst) (h : Hold) (a b : Lanes W64 × Bool) (v : Lanes W64) (wide : Bool) (p : PReg)
    (f : Fin 32 → Bool) (hd : DstFits d wide) :
    let u := writePred (laneFinish r 4 d h ⟨a.1, a.2, b.1, b.2⟩ v wide) p (activeMask r) (maskOf f)
    LaneDone r { u with preds := r.preds } 4 d wide v (heldBy h a b (onActive r v, wide)) ∧
      (∀ l : Fin 32, u.preds[p].getLsbD l.val = if p ≠ 0 ∧ laneOn r l = true then f l else r.preds[p].getLsbD l.val) ∧
      ∀ q : PReg, q ≠ p → u.preds[q] = r.preds[q] := by
  intro u
  have hdone := laneFinish_done r 4 d h ⟨a.1, a.2, b.1, b.2⟩ v wide hd
  have hpreds : (laneFinish r 4 d h ⟨a.1, a.2, b.1, b.2⟩ v wide).preds = r.preds := by rw [hdone.rest]
  refine ⟨?_, fun l => ?_, fun q hq => ?_⟩
  · obtain ⟨preds, hform⟩ := writePred_form (laneFinish r 4 d h ⟨a.1, a.2, b.1, b.2⟩ v wide) p (activeMask r) (maskOf f)
    rw [show u = _ from hform, ← hpreds]
    exact hdone
  · rw [writePred_lsb, activeMask_lsb, maskOf_lsb, hpreds]
    simp only [true_and]
  · rw [writePred_get, if_neg fun e => hq e.1, hpreds]

theorem predMask_lsb (r : Regs) (p : PReg) (l : Fin 32) :
    (predMask r p).getLsbD l.val = true ↔ p.val = 0 ∨ r.preds[p].getLsbD l.val = true := by
  unfold predMask
  by_cases hp : p.val = 0
  · simpa [hp] using allLanes_bit l
  · simp [hp]

/-- Settles O4: CMP is a lane result followed by a write of p1 in the active lanes; SEL is a lane result. -/
theorem Settled.compareSelect : Obligations.CompareSelect := by
  unfold Obligations.CompareSelect
  intro s d a b c p h r w t x y uses held holds cmp sel
  have hmem : OpUse.dst d w ∈ uses := by simp [uses, w]
  refine ⟨fun hpass => ?_, fun hpass => ?_⟩
  · obtain ⟨hdone, hbit, hothers⟩ := laneFinish_writePred_done r d h (x, w) (y, w) cmp w 1 (fun l => cmpLane t c x[l] y[l])
      (dstFits_of_passed r uses _ d w hmem hpass)
    obtain ⟨u, hu, hregs, he⟩ := checked_next s _ _ _ hpass
    refine ⟨u, hu, hregs, ?_, fun l => ?_, fun q hq => ?_⟩ <;> rw [he]
    · exact hdone
    · exact (hbit l).trans (if_congr (and_iff_right (by decide)) rfl rfl)
    · exact hothers q hq
  · have hsel : sel = Lanes.of fun l => if (predMask r p).getLsbD l.val then x[l] else y[l] :=
      congrArg Lanes.of (funext fun l => if_congr (predMask_lsb r p l).symm rfl rfl)
    rw [hsel]
    exact checked_laneDone hpass hmem rfl

/-! ### Conversions -/

theorem elemAt_zero (n x : Nat) : elemAt n x 0 = x % 2 ^ n := by simp [elemAt]

theorem cvtTarget_of_type {r : Regs} {k : KReg} {ty : Ty} (hlt : r.k[k].toNat < 32) (hty : tyOf r.k[k].toNat = some ty) :
    cvtTarget r k = some ty := by
  rw [cvtTarget, if_pos hlt, hty]

/-- Settles O5: the two-source conversions end in the shared effect, UNPACK and MXQ are one-source forms, and CVT has the type that its register names. -/
theorem Settled.conversions : Obligations.Conversions := by
  unfold Obligations.Conversions
  intro s d a b k h r w t m src src2
  refine ⟨fun ty hlt hty hpass => ?_, fun hpass => checked_laneDone hpass (by simp [r, w]) rfl,
    laneOneBy_done s d a h (fun t => (partner t).isSome) w true fun r x => Lanes.of fun l => unpackLane (curTy r) x[l],
    laneOneBy_done s d a h (· == .f32) false false mxqLanes, fun hpass => checked_laneDone hpass (by simp) rfl⟩
  have htarget : cvtTarget s.wave.regs k = some ty := cvtTarget_of_type hlt hty
  show ∃ u, execCvt d a k h s = .next u ∧ _
  simp only [execCvt, htarget, Option.any_some, Option.isSome_some, Bool.and_true, Option.getD_some, elemAt_zero]
  exact checked_laneDone hpass (by simp) rfl

/-! ### Permutations -/

/-- The lowest lane of a mask is the set one below which no lane is set. -/
theorem lowestLane_eq_some_iff (m : W32) (low : Fin 32) :
    lowestLane m = some low ↔ m.getLsbD low.val = true ∧ ∀ l < low, m.getLsbD l.val = false := by
  rw [lowestLane, laneList, ← Fin.find?_eq_find?_finRange, Fin.find?_eq_some_iff]

theorem lowestLane_eq_none_iff (m : W32) : lowestLane m = none ↔ ∀ l : Fin 32, m.getLsbD l.val = false := by
  rw [lowestLane, laneList, ← Fin.find?_eq_find?_finRange, Fin.find?_eq_none_iff]

/-- The lane whose selector the uniform permutations use (R175). -/
theorem lowestActive_eq {r : Regs} {low : Fin 32}
    (h : (laneOn r low = true ∧ ∀ l : Fin 32, l < low → laneOn r l = false) ∨ (low = 0 ∧ ∀ l, laneOn r l = false)) :
    (lowestLane (activeMask r)).getD 0 = low := by
  simp only [← activeMask_lsb] at h
  rcases h with hfirst | ⟨hzero, hnone⟩
  · rw [(lowestLane_eq_some_iff _ low).2 hfirst, Option.getD_some]
  · rw [(lowestLane_eq_none_iff _).2 hnone, Option.getD_none, hzero]

theorem tyIn_okAny (r : Regs) : tyIn r okAny = (regsTy r).isSome := Option.any_true

/-- Settles O7: the four permutations are one form, with the selector of each lane or of the lowest active one. -/
theorem Settled.permutations : Obligations.Permutations := by
  unfold Obligations.Permutations
  intro s d a b h low r w x y hlow hpass does
  obtain rfl := lowestActive_eq hlow
  rw [← tyIn_okAny] at hpass
  have permutes {i : Instr} (own : Bool) (f : Nat → Nat → Nat) (hi : exec i s = permute s d a b h own f) :
      does i fun l => f l.val ((if own then y[l] else y[(lowestLane (activeMask r)).getD 0]).toNat % 32) := by
    show ∃ u, exec i s = .next u ∧ _
    rw [hi]
    exact checked_laneDone hpass (by simp [r, w]) rfl
  exact ⟨permutes true (fun _ k => k) rfl, permutes false (fun l k => l ^^^ k) rfl,
    permutes false (fun l k => (l + k) % 32) rfl, permutes false (fun _ k => k) rfl⟩

end Sys2Proof
end

section
/-!
SUPPORT. Votes, reductions and scans over the active lanes (R176 to R179).
-/

namespace Sys2Proof

open Sys2Proof.Machine

/-! ### Votes (R176) -/

/-- Whether a lane is active and its value is not 0. -/
def nonzeroOn (r : Regs) (x : Lanes W64) (l : Fin 32) : Bool := laneOn r l && decide (x[l] ≠ 0)

/-- The mask of the active lanes whose value is not 0, as VOTE forms it. -/
theorem yesMask_lsb (r : Regs) (x : Lanes W64) (l : Fin 32) :
    (maskOf fun l => (activeMask r).getLsbD l.val && x[l] != 0).getLsbD l.val = nonzeroOn r x l := by
  rw [maskOf_lsb, activeMask_lsb, nonzeroOn, bne, beq_eq_decide, decide_not]

theorem mask_eq_iff_lanes (m n : W32) : m = n ↔ ∀ l : Fin 32, m.getLsbD l.val = n.getLsbD l.val :=
  ⟨fun h l => by rw [h], fun h => BitVec.eq_of_getLsbD_eq fun i hi => h ⟨i, hi⟩⟩

theorem mask_eq_zero_iff_lanes (m : W32) : m = 0 ↔ ∀ l : Fin 32, m.getLsbD l.val = false := by
  simp only [mask_eq_iff_lanes, BitVec.ofNat_eq_ofNat, BitVec.getLsbD_zero]

section
variable (r : Regs) (x : Lanes W64)

theorem voteValue_ballot {ballot : W32} (h : ∀ l : Fin 32, ballot.getLsbD l.val = nonzeroOn r x l) :
    voteValue .ballot (activeMask r) x = ballot :=
  (mask_eq_iff_lanes _ _).2 fun l => (yesMask_lsb r x l).trans (h l).symm

theorem voteValue_any [Decidable (∃ l, nonzeroOn r x l = true)] :
    voteValue .any (activeMask r) x = if ∃ l, nonzeroOn r x l = true then 1 else 0 := by
  refine if_congr ?_ rfl rfl
  simp only [bne_iff_ne, ne_eq, mask_eq_zero_iff_lanes, yesMask_lsb, not_forall, Bool.not_eq_false]

theorem voteValue_none [Decidable (∀ l, nonzeroOn r x l = false)] :
    voteValue .none (activeMask r) x = if ∀ l, nonzeroOn r x l = false then 1 else 0 := by
  refine if_congr ?_ rfl rfl
  simp only [beq_iff_eq, mask_eq_zero_iff_lanes, yesMask_lsb]

theorem voteValue_all [Decidable (∀ l, laneOn r l = true → x[l] ≠ 0)] :
    voteValue .all (activeMask r) x = if ∀ l, laneOn r l = true → x[l] ≠ 0 then 1 else 0 := by
  refine if_congr ?_ rfl rfl
  simp only [beq_iff_eq, mask_eq_iff_lanes, maskOf_lsb, activeMask_lsb, Bool.and_eq_left_iff_imp, bne_iff_ne]

/-- The uniform vote compares with the lowest active lane; so do any two active lanes. -/
theorem voteValue_uniform [Decidable (∀ l k, laneOn r l = true → laneOn r k = true → x[l] = x[k])] :
    voteValue .uniform (activeMask r) x = if ∀ l k, laneOn r l = true → laneOn r k = true → x[l] = x[k] then 1 else 0 := by
  refine if_congr ?_ rfl rfl
  cases hlow : lowestLane (activeMask r) with
  | none =>
    have hoff : ∀ l, laneOn r l = false := fun l => (activeMask_lsb r l).symm.trans ((lowestLane_eq_none_iff _).1 hlow l)
    simp [hoff]
  | some low =>
    have hon : laneOn r low = true := (activeMask_lsb r low).symm.trans ((lowestLane_eq_some_iff _ low).1 hlow).1
    have hlanes : (laneList.all fun l => !(activeMask r).getLsbD l.val || x[l] == x[low]) = true ↔ ∀ l, laneOn r l = true → x[l] = x[low] := by
      simp only [laneList, List.all_eq_true, List.mem_finRange, true_imp_iff, activeMask_lsb, Bool.or_eq_true, Bool.not_eq_true', beq_iff_eq]
      exact forall_congr' fun l => by rw [← Bool.not_eq_true, imp_iff_not_or]
    exact hlanes.trans ⟨fun h l k hl hk => (h l hl).trans (h k hk).symm, fun h l hl => h l low hl hon⟩

/-- What VOTE delivers: its number in every lane. -/
def voteLanes (o : VoteOp) : Lanes W64 := Lanes.all ((voteValue o (activeMask r) x).setWidth 64)

/-- A vote other than the ballot delivers 1 where its condition holds, and else 0. -/
theorem voteLanes_of_condition {o : VoteOp} {p : Prop} [Decidable p] (h : voteValue o (activeMask r) x = if p then 1 else 0) :
    voteLanes r x o = Lanes.all (if decide p then 1 else 0) := by
  rw [voteLanes, h]
  by_cases hp : p
  · rw [if_pos hp, if_pos (decide_eq_true hp)]
    rfl
  · rw [if_neg hp, if_neg (mt of_decide_eq_true hp)]
    rfl

/-! ### Reductions and scans (R177, R178) -/

theorem elemColumn_active (t : Ty) (i : Nat) :
    elemColumn (activeMask r) t x i =
      laneList.map fun l => if laneOn r l then some (x[l].toNat / 2 ^ (tyBits t * i) % 2 ^ tyBits t) else none := by
  simp only [elemColumn, activeMask_lsb, elemAt]

/-- What LREDUCE delivers: each element position reduced over the lanes, in every lane. -/
def reduceLanes (o : RedOp) : Lanes W64 :=
  Lanes.all (BitVec.ofNat 64 (packElems (tyBits (curTy r)) ((List.range (tyCount (curTy r))).map fun i =>
    reduceElem (arithOf r (curTy r)) o (elemColumn (activeMask r) (curTy r) x i))))

/-- What LSCAN delivers: in each lane its place in the scan of each element position. -/
def scanLanes (o : RedOp) : Lanes W64 := Lanes.of fun l =>
  BitVec.ofNat 64 (packElems (tyBits (curTy r)) ((List.range (tyCount (curTy r))).map fun i =>
    ((scanElem (arithOf r (curTy r)) o (elemColumn (activeMask r) (curTy r) x i))[l.val]?).getD 0))

end

section
variable (s : State) (d : Dst) (a : Src) (h : Hold)

theorem exec_vote (o : VoteOp) :
    exec (.vote d a o h) s = laneOneBy s d a h okAny (regsWide s.wave.regs) false fun r x => voteLanes r x o := rfl

theorem exec_lreduce (o : RedOp) :
    exec (.lreduce d a o h) s = laneOneBy s d a h okArith (regsWide s.wave.regs) (regsWide s.wave.regs) fun r x => reduceLanes r x o := rfl

theorem exec_lscan (o : RedOp) :
    exec (.lscan d a o h) s = laneOneBy s d a h okArith (regsWide s.wave.regs) (regsWide s.wave.regs) fun r x => scanLanes r x o := by
  show execLscan d a o h s = _
  simp only [execLscan, scanLanes, List.map_map, Function.comp_def]

end

/-- Settles O8: the three are the one-source form with a function of the whole lane value, read over the active lanes. -/
theorem Settled.votesReductionsScans : Obligations.VotesReductionsScans := by
  unfold Obligations.VotesReductionsScans
  intro s d a h r w t x n yes column does flag
  have delivers {i : Instr} {ok : Ty → Bool} {dw : Bool} {v : Lanes W64} {f : Regs → Lanes W64 → Lanes W64}
      (hi : exec i s = laneOneBy s d a h ok w dw f) (hv : f r x = v) : does i ok dw v := by
    intro hpass
    rw [hi, ← hv]
    exact laneOneBy_done s d a h ok w dw f hpass
  have votes {o : VoteOp} {p : Prop} [Decidable p] (ho : voteValue o (activeMask r) x = if p then 1 else 0) :
      does (.vote d a o h) okAny false (flag (decide p)) :=
    delivers (exec_vote s d a h o) (voteLanes_of_condition r x ho)
  refine ⟨fun ballot hb => delivers (exec_vote s d a h .ballot) ?_, votes (voteValue_any r x), votes (voteValue_all r x),
    votes (voteValue_none r x), votes (voteValue_uniform r x),
    fun o => ⟨delivers (exec_lreduce s d a h o) ?_, delivers (exec_lscan s d a h o) ?_⟩⟩
  · rw [voteLanes, voteValue_ballot r x hb]
  · simp only [reduceLanes, elemColumn_active]
    rfl
  · simp only [scanLanes, elemColumn_active]
    rfl

end Sys2Proof
end

section
/-!
SUPPORT. The uniform instructions (R180 to R184): the shared write of a uniform register, and signed comparison.
-/

namespace Sys2Proof

open Sys2Proof.Machine

/-- What each condition of a comparison says of two integers (R181). -/
theorem condHolds_compare (x y : Int) :
    let holds := fun c => condHolds c (some (compare x y)) = true
    (holds .eq ↔ x = y) ∧ (holds .ne ↔ x ≠ y) ∧ (holds .lt ↔ x < y) ∧ (holds .le ↔ x ≤ y) ∧ (holds .gt ↔ y < x) ∧ (holds .ge ↔ y ≤ x) := by
  simp only [← compare_eq_iff_eq (a := x), ne_eq, ← compare_lt_iff_lt (a := x), ← compare_le_iff_le (a := x), ← compare_gt_iff_gt (a := x),
    ← compare_ge_iff_ge (a := x)]
  generalize compare x y = o
  revert o
  decide

/-- A completed write of a uniform register changes it, the program counter and the latch alone. -/
theorem writeK_eq (r : Regs) (d : KReg) (v : W64) :
    writeK r d v = { r with pc := r.pc + 4, latch := latchAfter r none, k := r.k.set d.val v } := by
  rw [writeK, retire_eq]
  rfl

theorem kopValue_imm (r : Regs) (n : BitVec 6) : kopValue r (.imm n) = BitVec.ofNat 64 n.toNat := (BitVec.ofNat_toNat 64 n).symm

/-- Settles O9: every uniform instruction is the shared register write with its own value. -/
theorem Settled.uniformInstructions : Obligations.UniformInstructions := by
  unfold Obligations.UniformInstructions
  intro s d a y i b l w64 r x v does
  have hv : kopValue r y = v := by
    cases y with
    | k j => rfl
    | imm n => exact kopValue_imm r n
  have writes {j : Instr} {out : W64} (f : Regs → W64) (hj : exec j s = .next (onRegs s fun r => writeK r d (f r))) (hf : f r = out) :
      does j out :=
    ⟨_, hj, onRegs_only _ _, hf ▸ writeK_eq r d (f r)⟩
  have computes {j : Instr} (f : W64 → W64 → W64) (hj : exec j s = uniform s d a y f) : does j (f x v) :=
    writes (fun r => f r.k[a] (kopValue r y)) hj (congrArg (f x) hv)
  have compares {c : CmpOp} {p : Prop} [Decidable p] (hc : condHolds c (some (compare x.toInt v.toInt)) = true ↔ p) :
      does (.kcmp d a y c) (if p then 1 else 0) := by
    rw [← if_congr hc rfl rfl]
    exact computes (fun x v => if condHolds c (some (compare x.toInt v.toInt)) then 1 else 0) rfl
  obtain ⟨heq, hne, hlt, hle, hgt, hge⟩ := condHolds_compare x.toInt v.toInt
  refine ⟨writes (fun r => kopValue r y) rfl hv, computes (· + ·) rfl, computes (· - ·) rfl, computes (· * ·) rfl, computes (· &&& ·) rfl,
    computes (· ||| ·) rfl, computes (· ^^^ ·) rfl, computes (fun x c => if c.toNat < 64 then x <<< c.toNat else 0) rfl,
    computes (fun x c => if c.toNat < 64 then x >>> c.toNat else 0) rfl, compares (heq.trans BitVec.toInt_inj),
    compares (hne.trans (not_congr BitVec.toInt_inj)), compares hlt, compares hle, compares hgt, compares hge,
    writes (fun _ => i.signExtend 64) rfl rfl, fun hpass => ?_⟩
  obtain ⟨u, hu, hregs, he⟩ := checked_next s _ _ (fun r => writeK r d (srcAt r s.wave.ids.wave.val b w64 l)) hpass
  exact ⟨u, hu, hregs, he.trans (writeK_eq r d _)⟩

end Sys2Proof
end

section
/-!
SUPPORT. Divergent regions (R192, R338): the new mask of a region, and the branch or the next word that follows it.
-/

namespace Sys2Proof

open Sys2Proof.Machine

/-- The state behind a new EXEC and mask stack, before control goes on. -/
def withMasks (s : State) (x : W32) (depth : Fin 17) (stack : Vector W32 16) (digest : W64) : State :=
  { s with wave := { s.wave with
      regs := { s.wave.regs with exec := x, msdepth := depth, mstack := stack }
      digest := digest } }

/-- A transfer behind new masks: the masks stay, and the target's digest follows that of the masks. -/
theorem withMasks_transferred (s : State) (x : W32) (depth : Fin 17) (stack : Vector W32 16) (digest t : W64) :
    let u := transferTo (withMasks s x depth stack digest) t
    let w := s.wave
    let masked := { w.regs with exec := x, msdepth := depth, mstack := stack }
    u = { s with wave := u.wave } ∧ SameMemory s u ∧
      (t ≠ w.regs.pc + 4 → u.wave = { w with
        regs := { masked with pc := t, qvalid := 0, latch := w.regs.latch.map fun e => { e with life := 0 } }
        digest := digestStep digest t
        tried := none }) ∧
      (t = w.regs.pc + 4 → u.wave = { w with
        regs := { masked with pc := t, latch := latchAfter w.regs none }
        digest := digest }) := by
  obtain ⟨hrest, hmemory, htaken, hsequence⟩ := transferTo_transferred (withMasks s x depth stack digest) t s.wave.regs.rs
  exact ⟨hrest, ⟨hmemory.latest, hmemory.view, hmemory.versions⟩, htaken, hsequence⟩

/-- Settles O14: each instruction is a transfer behind its new masks, taken where no lane is left. -/
theorem Settled.divergentRegions : Obligations.DivergentRegions := by
  unfold Obligations.DivergentRegions
  intro s o c w r g top target enters does entered x1 x2 x3
  have goesOn {i : Instr} {x : W32} {depth : Fin 17} {stack : Vector W32 16} {goes : Bool} {digest : W64}
      (hi : exec i s = .next (transferTo (withMasks s x depth stack digest) (if goes then target else r.pc + 4))) :
      does i x depth.val stack goes digest := by
    obtain ⟨hrest, hmemory, htaken, hsequence⟩ := withMasks_transferred s x depth stack digest (if goes then target else r.pc + 4)
    have hmoves : (if goes then target else r.pc + 4) ≠ r.pc + 4 ↔ goes = true ∧ target ≠ r.pc + 4 := by
      cases goes <;> simp
    refine ⟨_, hi, hrest, hmemory, ?_⟩
    by_cases ht : goes = true ∧ target ≠ r.pc + 4
    · rw [htaken (hmoves.2 ht)]
      have hgoes : goes = true := ht.1
      subst hgoes
      exact ⟨rfl, rfl, rfl, rfl, rfl, fun _ => ⟨rfl, rfl⟩, fun h => absurd ht h, fun _ => rfl, fun h => absurd ht h⟩
    · rw [hsequence (not_not.1 (mt hmoves.1 ht))]
      exact ⟨rfl, rfl, rfl, rfl, rfl, fun h => absurd h ht, fun _ => ⟨rfl, rfl⟩, fun h => absurd h ht, fun _ => rfl⟩
  have branches {i : Instr} {x : W32} {depth : Fin 17} {stack : Vector W32 16} {goes : Bool} {digest : W64}
      (hi : exec i s = branchIf (withMasks s x depth stack digest) o goes) : does i x depth.val stack goes digest :=
    goesOn (hi.trans (branchIf_eq _ o Iff.rfl))
  have hopen (h : 0 < r.msdepth.val) : r.msdepth ≠ 0 := fun e => by rw [e] at h; exact absurd h (by decide)
  have hpop (h : 0 < r.msdepth.val) : (r.msdepth - 1).val = r.msdepth.val - 1 := Fin.val_sub_one_of_ne_zero (hopen h)
  refine ⟨fun h => branches (depth := ⟨r.msdepth.val + 1, Nat.succ_lt_succ h⟩) (dif_pos h), fun h => branches (if_neg (hopen h)),
    fun h => ?_, fun h hx => ?_, fun h hx => ?_⟩
  · rw [← hpop h]
    refine goesOn ((if_neg (hopen h)).trans ?_)
    exact congrArg Host.Outcome.next (transferTo_inSequence (withMasks s top (r.msdepth - 1) r.mstack w.digest)).symm
  · exact branches ((if_neg (hopen h)).trans (if_neg hx))
  · rw [← hpop h]
    exact branches ((if_neg (hopen h)).trans (if_pos hx))

end Sys2Proof
end

section
/-!
SUPPORT. Special registers, EXEC and literals (R195 to R201): the clock latch behind a lane result, and what SETSR leaves.
-/

namespace Sys2Proof

open Sys2Proof.Machine

/-- A lane result and the clock latch do not touch one another. -/
theorem LaneDone.withClock {r u : Regs} {n : Nat} {d : Dst} {wide : Bool} {v : Lanes W64} {held : Option (Lanes W64 × Bool)}
    (h : LaneDone r u n d wide v held) (clock : Option W64) :
    LaneDone { r with clockLatch := clock } { u with clockLatch := clock } n d wide v held :=
  ⟨h.low, h.high, h.older, h.valid, h.named, h.mirror, h.latch, congrArg (fun q : Regs => { q with clockLatch := clock }) h.rest⟩

/-- A read of a special register latches the clock behind its lane result (R150). -/
theorem LaneDone.latchClock {r u : Regs} {n : Nat} {d : Dst} {wide : Bool} {v : Lanes W64} {held : Option (Lanes W64 × Bool)}
    (h : LaneDone r u n d wide v held) (s : State) (x : SpecialReg) :
    LaneDone (latchClock s x r) (latchClock s x u) n d wide v held := by
  unfold Machine.latchClock
  split
  · exact h.withClock _
  · exact h.withClock _
  · exact h

/-- GETSR behind its checks (R200), where it leaves `clock` in the clock latch. -/
theorem getsr_done (s : State) (d : Dst) (x : SpecialReg) (h : Hold) {clock : Option W64}
    (hclock : latchClock s x s.wave.regs = { s.wave.regs with clockLatch := clock }) (hpass : operandFault s.wave.regs [.dst d false] true = none) :
    let r := s.wave.regs
    let v : Lanes W64 := Lanes.of fun l => (specialValue s x l).setWidth 64
    ∃ u, exec (.getsr d x h) s = .next u ∧ OnlyRegs s u ∧
      LaneDone { r with clockLatch := clock } u.wave.regs 4 d false v (heldBy h (v, false) (v, false) (onActive r v, false)) := by
  intro r v
  obtain ⟨u, hu, hregs, he⟩ := checked_next s _ _ (fun r => latchClock s x (laneFinish r 4 d h ⟨v, false, v, false⟩ v false)) hpass
  refine ⟨u, hu, hregs, ?_⟩
  rw [he, ← hclock]
  exact (laneFinish_done r 4 d h ⟨v, false, v, false⟩ v false (dstFits_of_passed r _ _ d false (by simp) hpass)).latchClock s x

/-- A literal behind its checks: an instruction of two words that holds nothing (R82, R198, R199). -/
theorem literal_done {s : State} {uses : List OpUse} {d : Dst} {wide : Bool} (f : Regs → Lanes W64)
    (hpass : operandFault s.wave.regs uses true = none) (hd : OpUse.dst d wide ∈ uses) :
    ∃ u, checked s uses true (fun r => laneFinish r 8 d .none ⟨f r, wide, f r, wide⟩ (f r) wide) = .next u ∧ OnlyRegs s u ∧
      LaneDone s.wave.regs u.wave.regs 8 d wide (f s.wave.regs) none := by
  obtain ⟨u, hu, hregs, he⟩ := checked_next s uses true (fun r => laneFinish r 8 d .none ⟨f r, wide, f r, wide⟩ (f r) wide) hpass
  refine ⟨u, hu, hregs, ?_⟩
  rw [he]
  exact laneFinish_done _ 8 d .none ⟨_, wide, _, wide⟩ _ wide (dstFits_of_passed _ uses true d wide hd hpass)

/-- An effect on the state whose operands pass R91. -/
theorem checkedState_next {s : State} {uses : List OpUse} {ok : Bool} (f : State → State) (h : operandFault s.wave.regs uses ok = none) :
    checkedState s uses ok f = .next (f (countBanks s uses)) := by
  simp only [checkedState, h]

/-- A hold after the advance changes the latch and the program counter alone. -/
theorem hold_retire_eq (r : Regs) (n : Nat) (h : Hold) (x : HoldSet) (v : Lanes W64) (wide : Bool) :
    hold (retire r n) h x v wide = { r with
      pc := r.pc + BitVec.ofNat 64 n, latch := latchAfter r (heldBy h (x.a, x.aWide) (x.b, x.bWide) (v, wide)) } := by
  rw [hold_rest, hold_latch]
  rfl

theorem setExec_only (s : State) (x : W32) : OnlyWave s (setExec s x) := by
  rw [setExec, digestEvent]
  exact (onRegs_only s _).out.trans (onWave_only _ _)

/-- EXECWR behind its checks (R196, R338): a hold, and a new EXEC from the lowest lane of the old one. -/
theorem execwr_done (s : State) (a : Src) (h : Hold) (hpass : operandFault s.wave.regs [.src a false] true = none) :
    let w := s.wave
    let r := w.regs
    let y := srcLanes r w.ids.wave.val a false
    let e := lo32 y[(lowestLane r.exec).getD 0]
    ∃ u, exec (.execwr a h) s = .next u ∧ OnlyWave s u ∧ u.wave = { w with
      regs := { r with pc := r.pc + 4, exec := e, latch := latchAfter r (heldBy h (y, false) (y, false) (y, false)) }
      digest := digestStep w.digest (e.setWidth 64) } := by
  intro w r y e
  have hwave := countBanks_wave s [.src a false]
  show ∃ u, execExecwr a h s = .next u ∧ _
  rw [execExecwr, checkedState_next _ hpass]
  refine ⟨_, rfl, ((countBanks_only s _).trans (onRegs_only _ _).out).trans (setExec_only _ _), ?_⟩
  simp only [setExec, digestEvent, onWave, onRegs, hwave, hold_retire_eq]
  rfl

/-- SETSR completes like an instruction of one word: its write touches neither the program counter nor the latch. -/
theorem retire_srWrite (x : SpecialReg) (v : W32) (r : Regs) :
    retire (srWrite x v r) 4 = { srWrite x v r with pc := r.pc + 4, latch := latchAfter r none } := by
  rw [retire_eq]
  cases x <;> rfl

/-- SETSR of a value that its register accepts (R201): only a write of PRIO settles the priorities. -/
theorem setsr_next (s : State) (x : SpecialReg) (k : KReg) {f : Regs → Regs} (h : srAccepts x (lo32 s.wave.regs.k[k]) = true)
    (hf : srWrite x (lo32 s.wave.regs.k[k]) s.wave.regs = f s.wave.regs) :
    exec (.setsr x k) s = .next ((if x = .prio then settlePrio else id)
      (onRegs s fun r => { f r with pc := s.wave.regs.pc + 4, latch := latchAfter s.wave.regs none })) := by
  have hr := retire_srWrite x (lo32 s.wave.regs.k[k]) s.wave.regs
  rw [hf] at hr
  show execSetsr x k s = _
  simp only [execSetsr, if_pos h, onRegs, hf, hr]
  split <;> rfl

/-- Settles O15: the reads are lane results, GETSR with the clock latch behind it; EXECWR is a hold with a new EXEC; SETSR writes what it accepts. -/
theorem Settled.specialRegisters : Obligations.SpecialRegisters := by
  unfold Obligations.SpecialRegisters
  intro s d a lit x k h w r v same does read written
  have writes {x : SpecialReg} {f : Regs → Regs} (hx : x ≠ .prio) (h : srAccepts x v = true) (hf : srWrite x v r = f r) :
      exec (.setsr x k) s = .next (written f) := by
    rw [setsr_next s x k h hf, if_neg hx, id]
  exact ⟨fun hpass => checked_laneDone hpass (by simp) rfl,
    fun hpass => literal_done (fun _ => same lit) hpass (by simp),
    fun hpass => literal_done (fun r => Lanes.of fun l => pair64 lit (r.q[0])[l]) hpass (by simp),
    fun hpass => getsr_done s d x h (by cases x <;> rfl) hpass, execwr_done s a h,
    fun hv => writes (by decide) (beq_iff_eq.2 hv) rfl, fun hv => writes (by decide) (decide_eq_true hv) rfl,
    fun hv => writes (by decide) hv rfl, fun hv => writes (by decide) (decide_eq_true hv) rfl,
    fun hv => writes (by decide) (decide_eq_true hv) rfl, writes (by decide) rfl rfl, fun hv => setsr_next s .prio k (decide_eq_true hv) rfl⟩

end Sys2Proof
end

section
/-!
SUPPORT. Trap entry (R417 to R419): the bytes of the side buffer's records, and the wave that enters its handler.
-/

namespace Sys2Proof

open Sys2Proof.Machine

/-! ### Records in the side buffer (R419) -/

/-- REC and LSUB of a lane's record. -/
def recordBytes (pa : Nat) (x : TrapRec) : List (Nat × W8) :=
  keyed (pa + 8 * x.lane.val) (leBytes 8 x.value.toNat) ++ [(pa + 288 + x.lane.val, x.sub)]

/-- LCAUSE of every lane. -/
def causeBytes (pa : Nat) (recs : List TrapRec) : List (Nat × W8) :=
  (List.finRange 32).map fun l => (pa + 256 + l.val, lcauseOf recs l)

theorem sbRecords_eq (pa : Nat) (recs : List TrapRec) : sbRecords pa recs = recs.flatMap (recordBytes pa) ++ causeBytes pa recs := rfl

theorem recordBytes_key {pa : Nat} {x : TrapRec} {b : Nat × W8} (hb : b ∈ recordBytes pa x) :
    (pa + 8 * x.lane.val ≤ b.1 ∧ b.1 < pa + 8 * x.lane.val + 8) ∨ b.1 = pa + 288 + x.lane.val := by
  rcases List.mem_append.mp hb with hv | hs
  · left
    by_contra hout
    refine keyed_outside _ _ b.1 ?_ b hv rfl
    rw [leBytes_length]
    omega
  · exact Or.inr (congrArg Prod.fst (List.mem_singleton.mp hs))

theorem causeBytes_key {pa : Nat} {recs : List TrapRec} {b : Nat × W8} (hb : b ∈ causeBytes pa recs) :
    pa + 256 ≤ b.1 ∧ b.1 < pa + 288 := by
  obtain ⟨l, -, rfl⟩ := List.mem_map.mp hb
  have := l.isLt
  dsimp only
  omega

/-- Trap entry writes nothing outside the first 320 bytes of the side-buffer entry. -/
theorem sbRecords_key {pa : Nat} {recs : List TrapRec} {b : Nat × W8} (hb : b ∈ sbRecords pa recs) : pa ≤ b.1 ∧ b.1 < pa + 320 := by
  rw [sbRecords_eq] at hb
  rcases List.mem_append.mp hb with hr | hc
  · obtain ⟨x, -, hx⟩ := List.mem_flatMap.mp hr
    have := x.lane.isLt
    have := recordBytes_key hx
    omega
  · have := causeBytes_key hc
    omega

theorem recordBytes_nodup (pa : Nat) (x : TrapRec) : ((recordBytes pa x).map Prod.fst).Nodup := by
  rw [recordBytes, List.map_append, List.nodup_append]
  refine ⟨keyed_nodup _ _, List.nodup_singleton _, fun a ha b hb => ?_⟩
  obtain ⟨c, hc, rfl⟩ := List.mem_map.mp ha
  have hlane := x.lane.isLt
  rw [List.map_singleton, List.mem_singleton] at hb
  rintro rfl
  refine keyed_outside _ _ c.1 ?_ c hc rfl
  rw [leBytes_length]
  omega

/-- Records of different lanes name different bytes. -/
theorem recordBytes_disjoint {pa : Nat} {x y : TrapRec} (h : x.lane ≠ y.lane) :
    List.Disjoint ((recordBytes pa x).map Prod.fst) ((recordBytes pa y).map Prod.fst) := by
  intro k hx hy
  obtain ⟨b, hb, rfl⟩ := List.mem_map.mp hx
  obtain ⟨c, hc, hbc⟩ := List.mem_map.mp hy
  have hkx := recordBytes_key hb
  have hky := recordBytes_key hc
  have hlx := x.lane.isLt
  have hly := y.lane.isLt
  have hne : x.lane.val ≠ y.lane.val := fun e => h (Fin.ext e)
  omega

theorem causeBytes_nodup (pa : Nat) (recs : List TrapRec) : ((causeBytes pa recs).map Prod.fst).Nodup := by
  rw [causeBytes, List.map_map]
  refine (List.nodup_finRange 32).map fun a b hab => Fin.ext ?_
  exact Nat.add_left_cancel hab

/-- Trap entry writes every byte once, where no lane has two records. -/
theorem sbRecords_nodup (pa : Nat) {recs : List TrapRec} (hn : (recs.map fun x => x.lane).Nodup) : ((sbRecords pa recs).map Prod.fst).Nodup := by
  rw [sbRecords_eq, List.map_append, List.map_flatMap, List.nodup_append]
  refine ⟨List.nodup_flatMap.mpr ⟨fun x _ => recordBytes_nodup pa x, ?_⟩, causeBytes_nodup pa recs, fun a ha b hb => ?_⟩
  · exact (List.pairwise_map.mp hn).imp fun h => recordBytes_disjoint h
  · obtain ⟨x, -, hx⟩ := List.mem_flatMap.mp ha
    obtain ⟨c, hc, rfl⟩ := List.mem_map.mp hx
    obtain ⟨e, he, rfl⟩ := List.mem_map.mp hb
    have hlane := x.lane.isLt
    have hkx := recordBytes_key hc
    have hke := causeBytes_key he
    omega

theorem lcauseOf_mem {recs : List TrapRec} (hn : (recs.map fun x => x.lane).Nodup) {x : TrapRec} (hx : x ∈ recs) :
    lcauseOf recs x.lane = x.cause := by
  rw [lcauseOf]
  cases hfind : recs.find? fun r => r.lane == x.lane with
  | none => simpa using List.find?_eq_none.mp hfind x hx
  | some y =>
    have hlane : y.lane = x.lane := by simpa using List.find?_some hfind
    rw [List.inj_on_of_nodup_map hn (List.mem_of_find?_eq_some hfind) hx hlane]
    rfl

theorem lcauseOf_none {recs : List TrapRec} {l : Fin 32} (h : ∀ x ∈ recs, x.lane ≠ l) : lcauseOf recs l = 0xFF := by
  rw [lcauseOf, List.find?_eq_none.mpr fun x hx => by simpa using h x hx]
  rfl

section
variable {s : State} {pa : Nat} {recs : List TrapRec}

theorem memByte_writeRecords_other (hw : Memory.wf s.hbm = true) {a : Nat} (h : a < pa ∨ pa + 320 ≤ a) :
    memByte (writeRecords s pa recs) a = memByte s a :=
  memByte_stamp_other s _ _ _ _ a hw fun b hb e => by
    have := sbRecords_key hb
    omega

theorem memByte_writeRecords_mem (hw : Memory.wf s.hbm = true) (hn : (recs.map fun x => x.lane).Nodup) {b : Nat × W8} (hb : b ∈ sbRecords pa recs) :
    memByte (writeRecords s pa recs) b.1 = b.2 :=
  memByte_stamp_mem s _ _ _ _ hw (sbRecords_nodup pa hn) b hb

theorem lcause_writeRecords (hw : Memory.wf s.hbm = true) (hn : (recs.map fun x => x.lane).Nodup) (l : Fin 32) :
    memByte (writeRecords s pa recs) (pa + 256 + l.val) = lcauseOf recs l :=
  memByte_writeRecords_mem (b := (pa + 256 + l.val, lcauseOf recs l)) hw hn
    (List.mem_append_right _ (List.mem_map_of_mem (List.mem_finRange l)))

/-- REC, LCAUSE and LSUB of a lane with a record (R419). -/
theorem record_writeRecords (hw : Memory.wf s.hbm = true) (hn : (recs.map fun x => x.lane).Nodup) {x : TrapRec} (hx : x ∈ recs) :
    let u := writeRecords s pa recs
    memBytes u (pa + 8 * x.lane.val) 8 = leBytes 8 x.value.toNat ∧ memByte u (pa + 256 + x.lane.val) = x.cause ∧
      memByte u (pa + 288 + x.lane.val) = x.sub := by
  intro u
  have hbytes {b : Nat × W8} (hb : b ∈ recordBytes pa x) : memByte u b.1 = b.2 :=
    memByte_writeRecords_mem hw hn (List.mem_append_left _ (List.mem_flatMap.mpr ⟨x, hx, hb⟩))
  refine ⟨?_, (lcause_writeRecords hw hn x.lane).trans (lcauseOf_mem hn hx), ?_⟩
  · apply List.ext_getElem
    · simp
    · intro i hi hj
      simp only [memBytes, List.getElem_map, List.getElem_range]
      exact hbytes (List.mem_append_left _ (keyed_mem _ _ i hj))
  · exact hbytes (b := (pa + 288 + x.lane.val, x.sub)) (List.mem_append_right _ (List.mem_singleton_self _))

end

/-! ### The wave in its handler (R417, R418) -/

/-- The wave as trap entry leaves it, but for what its acquire renews. -/
def handlerWave (w : Wave) (cause : Cause) (spc : W64) (recs : List TrapRec) (sb : Nat) : Wave :=
  { w with
    frame := saveFrame w.regs spc
    handler := true
    regs := handlerRegs w.regs cause (frameView w.regs w.npOpen cause spc (maskOf fun l => recs.any fun x => x.lane == l) sb) }

theorem writeRecords_wave (s : State) (pa : Nat) (recs : List TrapRec) : (writeRecords s pa recs).wave = s.wave := by
  obtain ⟨dies, hbm, clks, joins, lag, lost, h⟩ := stampUnit_form s (some s.wave.ids.core) s.wave.ids.token s.wave.clk (sbRecords pa recs)
  rw [writeRecords, h]

theorem SideBufferAt.sbAddr {s : State} {sb pa : Nat} (h : SideBufferAt s sb pa) : sbAddr s s.wave = sb := by
  obtain ⟨rfl, -⟩ := h
  rw [Machine.sbAddr]
  ring

/-- An acquire of the issuing wave renews epochs and its floor (R243, R278). -/
theorem acquire_form (s : State) : ∃ ws cs e, acquire s =
    { s with wave := { s.wave with acqEpoch := e, floor := clkJoin s.wave.floor s.wave.clk }, waves := ws, cores := cs } := by
  obtain ⟨cs, f, e, h⟩ := acquireStep_form s s.wave
  refine ⟨s.waves.map fun x => { x with acqEpoch := f x }, cs, e, ?_⟩
  rw [acquire, h]
  rfl

/-- A change of the issuing wave with the acquire and the performance event of a trap (R325, R417). -/
theorem acquire_counted_form (s : State) (g : Wave → Wave) (c : Fin 192) (k : Option GangKey) (ev n : Nat) : ∃ ws cs e,
    countEvent (acquire (onWave s g)) c k ev n =
      { s with wave := { g s.wave with acqEpoch := e, floor := clkJoin (g s.wave).floor (g s.wave).clk }, waves := ws, cores := cs } := by
  obtain ⟨ws, cs, e, h⟩ := acquire_form (onWave s g)
  obtain ⟨f, hf⟩ := countEvent_form (acquire (onWave s g)) c k ev n
  rw [hf, h]
  exact ⟨ws, _, e, rfl⟩

/-- Trap entry of a wave that runs no handler and whose side-buffer entry is mapped: the records are written, the wave enters its handler with an acquire, and the host may be told (R417, R422). -/
theorem trapEntry_form {s : State} {sb pa : Nat} {cause : Cause} (spc : W64) (recs : List TrapRec) (hh : s.wave.handler = false)
    (hc : cause ≠ 0x4D) (hb : SideBufferAt s sb pa) :
    ∃ ws cs e log, trapEntry s cause spc recs = { writeRecords s pa recs with
      wave := { handlerWave s.wave cause spc recs sb with acqEpoch := e, floor := clkJoin s.wave.floor s.wave.clk }
      waves := ws, cores := cs, hostLog := log } := by
  have hsb := hb.sbAddr
  have htranslate : onRelease s (coreTranslate s s.wave.ids.core (some s.wave.ids.gang) s.wave.ids.part sb .write) = (.ok pa, s) :=
    waveTranslate_pageAt hb.2
  have hwave := writeRecords_wave s pa recs
  simp only [trapEntry, if_neg hc, hh, Bool.false_eq_true, if_false, hsb, htranslate]
  generalize writeRecords s pa recs = t at hwave
  simp only [freshEntry, onCore_wave, hwave]
  generalize hcount : countEvent (acquire _) _ _ _ _ = v
  obtain ⟨ws, cs, e, h⟩ := acquire_counted_form _ _ _ _ _ _
  rw [hcount, onCore_wave, hwave] at h
  rw [h]
  split
  · exact ⟨ws, cs, e, _, rfl⟩
  · exact ⟨ws, cs, e, t.hostLog, rfl⟩

theorem pair64_halves (x : W64) : pair64 (hi32 x) (lo32 x) = x := by
  unfold pair64 hi32 lo32
  ext i hi
  by_cases h : i < 32
  · simp [h, BitVec.getLsbD_eq_getElem hi]
  · simp [h, show i - 32 < 32 by omega, Nat.add_sub_cancel' (Nat.le_of_not_lt h), BitVec.getLsbD_eq_getElem hi]

/-- Entry 8 of the frame view, field by field (R418). -/
theorem frameView_entry8 (r : Regs) (np : Bool) (cause : Cause) (spc : W64) (fmask : W32) (sb : Nat) :
    (frameView r np cause spc fmask sb)[8] = BitVec.ofNat 32 (cause.toNat + 2 ^ 12 * (cause.toNat / 8) +
      2 ^ 16 * (if r.pflag then 1 else 0) + 2 ^ 17 * r.msdepth.val + 2 ^ 22 * (r.mode.toNat % 16) + 2 ^ 26 * (if np then 1 else 0)) := by
  have hp : 2 ^ 16 * (if r.pflag then 1 else 0) = if r.pflag then 65536 else 0 := mul_ite_zero ..
  have hn : 2 ^ 26 * (if np then 1 else 0) = if np then 2 ^ 26 else 0 := mul_ite_zero ..
  rw [hp, hn]
  rfl

theorem frameView_below (r : Regs) (np : Bool) (cause : Cause) (spc : W64) (fmask : W32) (sb : Nat) (i : Fin 16) (hi : i.val < 8) :
    (frameView r np cause spc fmask sb)[i] = r.mstack[i] := by
  obtain ⟨i, -⟩ := i
  interval_cases i <;> rfl

/-- Trap entry enters the handler (R417 to R419). -/
theorem trapEntry_entered {s : State} {sb pa : Nat} {cause : Cause} (spc : W64) {recs : List TrapRec} (hh : s.wave.handler = false)
    (hc : cause ≠ 0x4D) (hb : SideBufferAt s sb pa) (hw : Memory.wf s.hbm = true) (hn : (recs.map fun x => x.lane).Nodup) :
    Entered s (trapEntry s cause spc recs) sb pa cause spc recs ∧ (trapEntry s cause spc recs).wave.run = s.wave.run := by
  obtain ⟨ws, cs, e, log, h⟩ := trapEntry_form spc recs hh hc hb
  obtain ⟨dies, hbm, clks, joins, lag, lost, hwrites⟩ := stampUnit_form s (some s.wave.ids.core) s.wave.ids.token s.wave.clk (sbRecords pa recs)
  have hdies : DiesWrite s (writeRecords s pa recs) := stampUnit_dies s _ _ _ _
  rw [h]
  exact ⟨{
    handler := rfl
    frame := rfl
    regs := congrArg (fun n => { handlerRegs s.wave.regs cause _ with pc := s.wave.regs.tbase + BitVec.ofNat 64 n }) (Nat.mul_comm _ 256)
    below := frameView_below _ _ _ _ _ _
    entry8 := frameView_entry8 ..
    saved := pair64_halves spc
    mask := rfl
    lanes := maskOf_lsb _
    top := if_congr (Fin.ext_iff (b := 0)).symm rfl rfl
    buffer := ⟨rfl, rfl⟩
    records := fun x hx => record_writeRecords hw hn hx
    others := fun l hl => (lcause_writeRecords hw hn l).trans (lcauseOf_none hl)
    memory := fun a ha => memByte_writeRecords_other hw ha
    rest := by rw [writeRecords, hwrites]
    dies := hdies }, rfl⟩

end Sys2Proof
end

section
/-!
SUPPORT. The instructions that enter and leave a handler (R90, R202, R204): TRAP, a word that is no instruction, ERET.
-/

namespace Sys2Proof

open Sys2Proof.Machine

/-- The side buffer stays where it is under an effect on the wave and the counters that keeps the wave's names. -/
theorem SideBufferAt.of_onlyWave {s t : State} {sb pa : Nat} (h : SideBufferAt s sb pa) (ht : OnlyWave s t) (hids : t.wave.ids = s.wave.ids) :
    SideBufferAt t sb pa := by
  have hparts : t.parts = s.parts := by rw [ht.rest]
  have htlb : t.cores[s.wave.ids.core].tlb = s.cores[s.wave.ids.core].tlb := by rw [ht.cores]
  simpa only [SideBufferAt, PageAt, hids, hparts, htlb] using h

/-- An effect on the registers with the bank conflicts of its instruction (R152, R325). -/
theorem countBanks_onRegs_only (s : State) (uses : List OpUse) (f : Regs → Regs) : OnlyRegs s (onRegs (countBanks s uses) f) := by
  refine ⟨(countBanks_only s uses).trans (onRegs_only _ f).out, ?_⟩
  simp only [onRegs, countBanks_wave]

/-- TRAP's records are those of the lanes of EXEC, each lane once; without a lane it is lane 0's alone (R202). -/
theorem trapRecords_nodup (s : State) (n : Fin 8) (a : Src) : ((trapRecords s n a).map fun x => x.lane).Nodup := by
  unfold trapRecords
  simp only
  split
  · exact List.nodup_singleton _
  · rw [List.map_map]
    exact ((List.nodup_finRange 32).filter _).map Function.injective_id

/-- TRAP's causes are those of its group (R202). -/
theorem trapCause_ne (n : Fin 8) : BitVec.ofNat 8 (0x58 + n.val) ≠ (0x4D : Cause) := by
  revert n
  decide

/-- TRAP of a wave that the trap entry does not hold: it completes, and then traps (R202). -/
theorem trap_next {s t : State} {n : Fin 8} {a : Src} (ht : retireWave (countBanks s [.src a false]) 4 = t)
    (hpass : operandFault s.wave.regs [.src a false] true = none)
    (hrun : (trapEntry t (BitVec.ofNat 8 (0x58 + n.val)) (s.wave.regs.pc + 4) (trapRecords s n a)).wave.run ≠ .held) :
    exec (.trap n a) s = .next (trapEntry t (BitVec.ofNat 8 (0x58 + n.val)) (s.wave.regs.pc + 4) (trapRecords s n a)) := by
  have hwave := countBanks_wave s [.src a false]
  have hrecs : trapRecords (countBanks s [.src a false]) n a = trapRecords s n a := by
    rw [trapRecords, hwave]
    rfl
  have hpc : t.wave.regs.pc = s.wave.regs.pc + 4 := by
    rw [← ht, ← hwave]
    rfl
  show execTrap n a s = _
  rw [execTrap, checkedState_next _ hpass]
  simp only [hrecs, ht, hpc, if_neg hrun]

/-- The return of a handler whose saved program counter is an address of code (R204). -/
theorem trapReturn_of_code {s : State} (hh : s.wave.handler = true) (hpc : badPc (viewPc s.wave.regs) = false) :
    trapReturn s = onWave s fun w => { w with handler := false, regs := restoreFrame w.regs w.frame } := by
  rw [trapReturn, hh, hpc]
  rfl

/-- Settles O17: TRAP and a word that is no instruction enter the handler by the shared trap entry, ERET leaves it by the shared return. -/
theorem Settled.trapInstructions : Obligations.TrapInstructions := by
  unfold Obligations.TrapInstructions
  intro s n a word sb pa w r x cause sub after spc
  refine ⟨fun hh hrun hb hw hpass => ?_, fun hh hb hw hword => ?_, fun hh halign hlt => ?_⟩
  · have hwave := countBanks_wave s [.src a false]
    have hafter : retireWave (countBanks s [.src a false]) 4 = after := by
      simp only [after, retireWave, onRegs, hwave, retire_eq]
      rfl
    have honly : OnlyRegs s after := countBanks_onRegs_only ..
    clear_value after
    have hids : after.wave.ids = s.wave.ids := by rw [honly.wave]
    have hhandler : after.wave.handler = false := by rw [honly.wave]; exact hh
    have hrunning : after.wave.run = .running := by rw [honly.wave]; exact hrun
    have hhbm : Memory.wf after.hbm = true := by rw [honly.out.rest]; exact hw
    obtain ⟨hentered, hkept⟩ := trapEntry_entered (r.pc + 4) (recs := trapRecords s n a) hhandler (trapCause_ne n) (hb.of_onlyWave honly.out hids)
      hhbm (trapRecords_nodup s n a)
    refine ⟨_, trapRecords s n a, trap_next hafter hpass ?_, hentered, fun he => if_pos he, fun he => if_neg he⟩
    rw [hkept, hrunning]
    decide
  · have hillegal : exec (.illegalInstr word) s = .next (trapEntry s 0 s.wave.regs.pc [⟨0, word.setWidth 64, 0, 0⟩]) := by
      show execIllegalInstr word s = _
      unfold execIllegalInstr
      split
      · exact absurd ‹_› (hword _ _)
      · rfl
    exact ⟨_, hillegal, (trapEntry_entered r.pc (recs := [⟨0, word.setWidth 64, 0, 0⟩]) hh (by decide) hb hw (List.nodup_singleton _)).1⟩
  · exact congrArg Host.Outcome.next (trapReturn_of_code hh (badPc_of_code halign hlt))

end Sys2Proof
end

section
/-!
SUPPORT. The system instructions of the mirror bank (R217, R219, R221, R223): the two copies of a proposal, the counters that MBCLR clears.
-/

namespace Sys2Proof

open Sys2Proof.Machine

/-! ### Copies and counters (R217, R223) -/

/-- PROPOSE and MBCLR with NORM look at the wave's own proposal and at that of the wave that a handler interrupted. -/
theorem noProposal_iff (w : Wave) :
    (w.regs.pflag || frameOpen w) = false ↔ w.regs.pflag = false ∧ ¬(w.handler = true ∧ w.frame.pflag = true) := by
  rw [Bool.or_eq_false_iff, frameOpen, ← Bool.and_eq_true, Bool.not_eq_true]

section
variable (r : Regs)

theorem openProposal_eq : openProposal r = { r with
    pc := r.pc + 4, latch := latchAfter r none, named := (openProposal r).named, mirror := (openProposal r).mirror, pflag := true } := by
  simp only [openProposal, retire_eq]
  rfl

theorem openProposal_copies (x : Fin 16) (l : Fin 32) :
    (openProposal r).named[x.val][l] = committed r x l ∧ (openProposal r).mirror[x][l] = committed r x l := by
  simp [openProposal, committed]

theorem openProposal_unmirrored (x : Fin 40) (hx : 16 ≤ x.val) : (openProposal r).named[x] = r.named[x] := by
  simp [openProposal, Nat.not_lt.2 hx]

theorem normSel_copy (x : Fin 16) (l : Fin 32) : (normSel r).named[x.val][l] = committed r x l := by
  simp [normSel, committed]

theorem normSel_unmirrored (x : Fin 40) (hx : 16 ≤ x.val) : (normSel r).named[x] = r.named[x] := by
  simp [normSel, Nat.not_lt.2 hx]

/-- A counter that MBCLR names is 0 in the active lanes; any other stays (R223). -/
def clearedCount (named : Bool) (u : Lanes W32) : Lanes W32 := Lanes.of fun l => if named && laneOn r l then 0 else u[l]

theorem clearedCount_get (named : Bool) (u : Lanes W32) (l : Fin 32) :
    (clearedCount r named u)[l] = if named && laneOn r l then 0 else u[l] := lanes_of_get _ l

/-- MBCLR before the committed values move: an instruction of one word. -/
def clearCounts (cp ca : Bool) : Regs :=
  { r with pc := r.pc + 4, latch := latchAfter r none, pcnt := clearedCount r cp r.pcnt, acnt := clearedCount r ca r.acnt }

end

/-! ### The instructions behind their checks -/

section
variable {s : State}

theorem propose_next (hon : s.wave.regs.mirrorOn = true) (hclosed : (s.wave.regs.pflag || frameOpen s.wave) = false) :
    exec .propose s = .next (onRegs s openProposal) := by
  show execPropose s = _
  rw [execPropose, hon, hclosed]
  rfl

theorem propose_withoutMirror (hoff : s.wave.regs.mirrorOn = false) : exec .propose s = .next (trapWave s 0x32) := by
  show execPropose s = _
  rw [execPropose, hoff]
  rfl

theorem propose_open (hon : s.wave.regs.mirrorOn = true) (hopen : (s.wave.regs.pflag || frameOpen s.wave) = true) :
    exec .propose s = .next (trapWave s 0x30) := by
  show execPropose s = _
  rw [execPropose, hon, hopen]
  rfl

theorem discard_next (hopen : s.wave.regs.pflag = true) :
    exec .discard s = .next (onRegs s fun r => { r with pc := r.pc + 4, latch := latchAfter r none, pflag := false }) := by
  show execDiscard s = _
  rw [execDiscard, hopen]
  simp only [retire_eq]
  rfl

theorem discard_closed (hclosed : s.wave.regs.pflag = false) : exec .discard s = .next (trapWave s 0x31) := by
  show execDiscard s = _
  rw [execDiscard, hclosed]
  rfl

theorem drawkey_next (a : KReg) (b : Option KReg) :
    exec (.drawkey a b) s = .next (onRegs s fun r => { r with
      pc := r.pc + 4, latch := latchAfter r none, dkey := r.k[a], didx := (b.map fun j => Lanes.all (lo32 r.k[j])).getD r.didx }) := by
  show execDrawkey a b s = _
  simp only [execDrawkey, retire_eq]
  cases b <;> rfl

/-- Only NORM asks that no proposal be open (R223). -/
theorem mbclr_next (cp ca : Bool) {norm : Bool} (hclosed : norm = true → (s.wave.regs.pflag || frameOpen s.wave) = false) :
    exec (.mbclr cp ca norm) s =
      .next (onRegs s fun r => if norm then normSel (clearCounts r cp ca) else clearCounts r cp ca) := by
  have hpass : (norm && (s.wave.regs.pflag || frameOpen s.wave)) = false := by
    cases norm
    · rfl
    · exact hclosed rfl
  show execMbclr cp ca norm s = _
  simp only [execMbclr, hpass, activeMask_lsb, retire_eq]
  rfl

theorem mbclr_open (cp ca : Bool) (hopen : (s.wave.regs.pflag || frameOpen s.wave) = true) :
    exec (.mbclr cp ca true) s = .next (trapWave s 0x33) := by
  show execMbclr cp ca true s = _
  rw [execMbclr, hopen]
  rfl

end

/-- Settles O10: each system instruction of the bank is one effect on the registers behind its own check. -/
theorem Settled.mirrorBankSystem : Obligations.MirrorBankSystem := by
  unfold Obligations.MirrorBankSystem
  intro s a b cp ca norm r does idle
  have hclosed : idle → (s.wave.regs.pflag || frameOpen s.wave) = false := (noProposal_iff s.wave).2
  have hopen : ¬idle → (s.wave.regs.pflag || frameOpen s.wave) = true := fun h => eq_true_of_ne_false (mt (noProposal_iff s.wave).1 h)
  refine ⟨fun hon hi => ?_, propose_withoutMirror, fun hon hi => propose_open hon (hopen hi), fun hp => ?_, discard_closed, fun hn hi => ?_, ?_,
    fun hn => ?_⟩
  · have hform := openProposal_eq r
    exact ⟨_, propose_next hon (hclosed hi), onRegs_only _ _, congrArg Regs.pc hform, congrArg Regs.latch hform, hform, openProposal_copies r,
      openProposal_unmirrored r⟩
  · exact ⟨_, discard_next hp, onRegs_only _ _, rfl, rfl, rfl⟩
  · subst hn
    exact mbclr_open cp ca (hopen hi)
  · refine ⟨_, drawkey_next a b, onRegs_only _ _, rfl, rfl, rfl, fun l => ?_⟩
    cases b with
    | none => rfl
    | some j => exact lanes_all_get _ l
  · refine ⟨_, mbclr_next cp ca fun h => hclosed (hn h), onRegs_only _ _, ?_⟩
    have hcounts (l : Fin 32) := And.intro (clearedCount_get r cp r.pcnt l) (clearedCount_get r ca r.acnt l)
    cases norm with
    | false => exact ⟨rfl, rfl, rfl, hcounts, fun _ _ => rfl, fun _ _ => rfl⟩
    | true => exact ⟨rfl, rfl, rfl, hcounts, normSel_copy (clearCounts r cp ca), normSel_unmirrored (clearCounts r cp ca)⟩

end Sys2Proof
end

section
/-!
SUPPORT. The lane instructions of the mirror bank (R215, R218, R220, R222): draws, acceptance, and the view of MBSTAT.
-/

namespace Sys2Proof

open Sys2Proof.Machine

/-! ### Active lanes (R87) -/

theorem laneOn_congr {r u : Regs} (hexec : u.exec = r.exec) (hmode : u.mode = r.mode) (hpreds : u.preds = r.preds) : laneOn u = laneOn r := by
  funext l
  simp only [laneOn, hexec, hmode, hpreds]

theorem onActive_congr {r u : Regs} (hexec : u.exec = r.exec) (hmode : u.mode = r.mode) (hpreds : u.preds = r.preds) : onActive u = onActive r := by
  funext v
  simp only [onActive, laneOn_congr hexec hmode hpreds]

/-! ### Draws (R215, R220) -/

/-- DIDX after a draw in every active lane. -/
def drawnDidx (r : Regs) : Lanes W32 := Lanes.of fun l => if laneOn r l then r.didx[l] + 1 else r.didx[l]

theorem afterDraws_active (r : Regs) : afterDraws r (activeMask r) = { r with didx := drawnDidx r } := by
  simp only [afterDraws, activeMask_lsb, drawnDidx]

theorem draws_get (w : Wave) (l : Fin 32) : (draws w)[l] = drawValue (glane w l) w.regs.didx[l] w.regs.dkey := lanes_of_get _ l

/-- DRAW behind its checks: a lane result of the registers whose draws are counted. -/
theorem draw_done (s : State) (d : Dst) (h : Hold) {v : Lanes W64} (hv : v = Lanes.of fun l => ((draws s.wave)[l]).setWidth 64)
    (hpass : operandFault s.wave.regs [.dst d false] true = none) :
    let r := s.wave.regs
    ∃ u, exec (.draw d h) s = .next u ∧ OnlyRegs s u ∧
      LaneDone { r with didx := drawnDidx r } u.wave.regs 4 d false v (heldBy h (v, false) (v, false) (onActive r v, false)) := by
  intro r
  subst hv
  obtain ⟨u, hu, hregs, he⟩ := checked_next s _ _ _ hpass
  refine ⟨u, hu, hregs, ?_⟩
  rw [he, afterDraws_active, ← onActive_congr (r := r) (u := { r with didx := drawnDidx r }) rfl rfl rfl]
  exact laneFinish_done _ 4 d h ⟨_, false, _, false⟩ _ false (dstFits_of_passed r _ _ d false (by simp) hpass)

/-! ### Acceptance (R218) -/

/-- The logarithm of a lane's draw; 0 in a lane that takes none. -/
def drawLogOn (w : Wave) (l : Fin 32) : Nat :=
  if laneOn w.regs l then drawLog (drawValue (glane w l) w.regs.didx[l] w.regs.dkey) else 0

/-- Whether ACCEPT accepts in a lane. -/
def acceptsOn (w : Wave) (x : Lanes W64) (l : Fin 32) : Bool := laneOn w.regs l && accepts (drawLogOn w l) x[l].toNat

/-- A saturating count of the lanes in which a condition holds. -/
def countOn (on : Fin 32 → Bool) (u : Lanes W32) : Lanes W32 := Lanes.of fun l => if on l then satInc u[l] else u[l]

theorem countOn_get (on : Fin 32 → Bool) (u : Lanes W32) (l : Fin 32) : (countOn on u)[l] = if on l then satInc u[l] else u[l] :=
  lanes_of_get _ l

/-- The bank after an ACCEPT, before its lane result. -/
def closeProposal (w : Wave) (x : Lanes W64) : Regs :=
  { w.regs with
    didx := drawnDidx w.regs
    pcnt := countOn (laneOn w.regs) w.regs.pcnt
    acnt := countOn (acceptsOn w x) w.regs.acnt
    sel := w.regs.sel ^^^ maskOf (acceptsOn w x)
    pflag := false }

/-- ACCEPT is a lane result of the closed proposal, then a write of p1. -/
theorem acceptRegs_eq (w : Wave) (d : Dst) (a : Src) (h : Hold) :
    let x := srcLanes w.regs w.ids.wave.val a false
    let r := closeProposal w x
    acceptRegs w d a h =
      writePred (laneFinish r 4 d h ⟨x, false, x, false⟩ (Lanes.of fun l => BitVec.ofNat 64 (drawLogOn w l)) false) 1 (activeMask r)
        (maskOf (acceptsOn w x)) := by
  simp only [acceptRegs, afterDraws_active, draws_get, activeMask_lsb, maskOf_lsb, lanes_of_get]
  rfl

/-- ACCEPT's lane result over the closed proposal, and its write of p1. -/
theorem acceptRegs_done (w : Wave) (d : Dst) (a : Src) (h : Hold) (hd : DstFits d false) :
    let r := w.regs
    let x := srcLanes r w.ids.wave.val a false
    let v : Lanes W64 := Lanes.of fun l => BitVec.ofNat 64 (drawLogOn w l)
    let u := acceptRegs w d a h
    LaneDone (closeProposal w x) { u with preds := r.preds } 4 d false v (heldBy h (x, false) (x, false) (onActive r v, false)) ∧
      (∀ l : Fin 32, u.preds[1].getLsbD l.val = if laneOn r l then acceptsOn w x l else r.preds[1].getLsbD l.val) ∧
      ∀ q : PReg, q ≠ 1 → u.preds[q] = r.preds[q] := by
  intro r x v u
  have hu : u = _ := acceptRegs_eq w d a h
  obtain ⟨hdone, hbit, hothers⟩ := laneFinish_writePred_done (closeProposal w x) d h (x, false) (x, false) v false 1 (acceptsOn w x) hd
  rw [onActive_congr (r := r) (u := closeProposal w x) rfl rfl rfl] at hdone
  rw [laneOn_congr (r := r) (u := closeProposal w x) rfl rfl rfl] at hbit
  rw [hu]
  exact ⟨hdone, fun l => (hbit l).trans (if_congr (and_iff_right (by decide)) rfl rfl), hothers⟩

/-- ACCEPT with an open proposal, behind its checks; its event is counted on the core (R325). -/
theorem accept_next (s : State) (d : Dst) (a : Src) (h : Hold)
    (hpass : operandFault s.wave.regs [.src a false, .dst d false] (tyIn s.wave.regs (· == .f32)) = none) (hopen : s.wave.regs.pflag = true) :
    ∃ u, exec (.accept d a h) s = .next u ∧ OnlyRegs s u ∧ u.wave.regs = acceptRegs s.wave d a h := by
  have hwave := countBanks_wave s [.src a false, .dst d false]
  show ∃ u, execAccept d a h s = .next u ∧ _
  rw [execAccept, checkedState_next _ hpass]
  simp only [hwave, hopen, Bool.not_true, Bool.false_eq_true, if_false]
  refine ⟨_, rfl, ⟨((countBanks_only s _).trans (onWave_only _ _)).trans (countEvent_only ..), ?_⟩, ?_⟩ <;>
    simp only [countEvent_wave, onWave, hwave]

/-! ### The view of MBSTAT (R222) -/

theorem pair64_eq_ofNat (hi lo : W32) : pair64 hi lo = BitVec.ofNat 64 (lo.toNat + hi.toNat * 2 ^ 32) := by
  apply BitVec.eq_of_toNat_eq
  have hlt : hi.toNat <<< 32 < 2 ^ 64 := by
    rw [Nat.shiftLeft_eq]
    omega
  rw [pair64, BitVec.toNat_or, BitVec.toNat_shiftLeft, BitVec.toNat_setWidth_of_le (by decide), BitVec.toNat_setWidth_of_le (by decide),
    Nat.mod_eq_of_lt hlt, ← Nat.shiftLeft_add_eq_or_of_lt lo.isLt, BitVec.toNat_ofNat, Nat.shiftLeft_eq, Nat.add_comm, Nat.mod_eq_of_lt]
  omega

/-- The status word of MBSTAT: SEL and PFLAG over the draw index. -/
theorem statusView_eq (didx : W32) (sel pflag : Bool) :
    BitVec.ofNat 64 (didx.toNat + (if sel then 2 ^ 32 else 0) + if pflag then 2 ^ 33 else 0) =
      pair64 (BitVec.ofNat 32 ((if sel then 1 else 0) + if pflag then 2 else 0)) didx := by
  have hbits : (if sel then 2 ^ 32 else 0) + (if pflag then 2 ^ 33 else 0) =
      (BitVec.ofNat 32 ((if sel then 1 else 0) + if pflag then 2 else 0)).toNat * 2 ^ 32 := by
    revert sel pflag
    decide
  rw [pair64_eq_ofNat, Nat.add_assoc, hbits]

/-- The view that a lane's selector names, by its low two bits. -/
theorem mbView_eq (r : Regs) (l : Fin 32) (n : Nat) :
    mbView r l n =
      if n % 4 = 0 then pair64 r.pcnt[l] r.acnt[l]
      else if n % 4 = 1 then pair64 (BitVec.ofNat 32 ((if r.sel.getLsbD l.val then 1 else 0) + if r.pflag then 2 else 0)) r.didx[l]
      else 0 := by
  rw [mbView]
  generalize n % 4 = k
  match k with
  | 0 => rfl
  | 1 => exact statusView_eq r.didx[l] (r.sel.getLsbD l.val) r.pflag
  | _ + 2 => rfl

/-- Settles O11: DRAW and MBSTAT are lane results; ACCEPT is one on top of the closed proposal, followed by a write of p1. -/
theorem Settled.mirrorBankLanes : Obligations.MirrorBankLanes := by
  unfold Obligations.MirrorBankLanes
  intro s d a h r x draw next
  have hdraws (l : Fin 32) : (draw l).setWidth 64 = ((draws s.wave)[l]).setWidth 64 := congrArg _ (draws_get s.wave l).symm
  refine ⟨draw_done s d h (congrArg Lanes.of (funext hdraws)), fun hpass hopen => ?_, fun hpass => ?_⟩
  · intro y yes up v
    obtain ⟨u, hu, hregs, he⟩ := accept_next s d a h hpass hopen
    obtain ⟨hdone, hbit, hothers⟩ := acceptRegs_done s.wave d a h (dstFits_of_passed r _ _ d false (by simp) hpass)
    rw [← he] at hdone hbit hothers
    have hrest := hdone.rest
    have hpcnt : u.wave.regs.pcnt = countOn (laneOn r) r.pcnt := (congrArg Regs.pcnt hrest :)
    have hacnt : u.wave.regs.acnt = countOn (acceptsOn s.wave x) r.acnt := (congrArg Regs.acnt hrest :)
    have hsel : u.wave.regs.sel = r.sel ^^^ maskOf (acceptsOn s.wave x) := (congrArg Regs.sel hrest :)
    refine ⟨u, hu, hregs, fun l => ⟨?_, ?_, ?_, ?_⟩, hothers, ?_⟩
    · rw [hpcnt, countOn_get]
      rfl
    · rw [hacnt, countOn_get]
      rfl
    · rw [hsel, BitVec.getLsbD_xor, maskOf_lsb]
      rfl
    · exact hbit l
    · rw [hpcnt, hacnt, hsel]
      exact hdone
  · intro v
    have hview : v = Lanes.of fun l => mbView r l x[l].toNat := congrArg Lanes.of (funext fun l => (mbView_eq r l x[l].toNat).symm)
    rw [hview]
    exact checked_laneDone (h := .none) (a := (x, false)) (b := (x, false)) hpass (by simp) rfl

end Sys2Proof
end

section
/-!
SUPPORT. The canonical form of global memory (R272, log entry 2) as a property of states and of the results that carry states: what passes it on through the shapes of the model's definitions.
-/

namespace Sys2Proof

open Sys2Proof.Machine

/-! ### States -/

/-- Global memory is in canonical form. -/
def Canonical (s : State) : Prop := Memory.wf s.hbm = true

/-- The state that an option carries, if any. -/
inductive OptCanonical : Option State → Prop
  | none : OptCanonical none
  | some {t : State} (h : Canonical t) : OptCanonical (some t)

/-- The state beside a value that an option carries. -/
inductive FstCanonical {α : Type} : Option (State × α) → Prop
  | none : FstCanonical none
  | some {t : State} {a : α} (h : Canonical t) : FstCanonical (some (t, a))

/-- The state behind a value that an option carries. -/
inductive SndCanonical {α : Type} : Option (α × State) → Prop
  | none : SndCanonical none
  | some {a : α} {t : State} (h : Canonical t) : SndCanonical (some (a, t))

/-- The state of an acceptance. -/
inductive OkCanonical {α : Type} : Except α State → Prop
  | ok {t : State} (h : Canonical t) : OkCanonical (.ok t)
  | error {c : α} : OkCanonical (.error c)

/-- The next state. -/
inductive NextCanonical : Out → Prop
  | next {t : State} (h : Canonical t) : NextCanonical (.next t)
  | fault {r : Fault} : NextCanonical (.fault r)
  | refused {r : Refusal} : NextCanonical (.refused r)

/-- The state that a registration of a wave leaves. -/
inductive RegCanonical : Reg → Prop
  | ok {t : State} (h : Canonical t) : RegCanonical (.ok t)
  | deadlock {t : State} {l : List W64} (h : Canonical t) : RegCanonical (.deadlock t l)
  | full : RegCanonical .full
  | host {t : State} (h : Canonical t) : RegCanonical (.host t)
  | member {t : State} (h : Canonical t) : RegCanonical (.member t)

/-- The state with the links that a read makes. -/
inductive ObserveCanonical : Observe → Prop
  | ok {t : State} (h : Canonical t) : ObserveCanonical (.ok t)
  | limit : ObserveCanonical .limit
  | full : ObserveCanonical .full
  | host : ObserveCanonical .host

/-- The state behind a write of an operation. -/
inductive OpWriteCanonical : OpWrite → Prop
  | done {t : State} {l : List (Fin 2 × Nat)} (h : Canonical t) : OpWriteCanonical (.done t l)
  | full : OpWriteCanonical .full

/-- The state that the moves of an operation leave. -/
inductive AfterMoveCanonical : AfterMove → Prop
  | full : AfterMoveCanonical .full
  | goes {t : State} {o : CopyOp} (h : Canonical t) : AfterMoveCanonical (.goes t o)
  | deferred {t : State} (h : Canonical t) : AfterMoveCanonical (.deferred t)

/-- The state that a registration of an engine leaves. -/
inductive EngineRegCanonical : EngineReg → Prop
  | waits {t : State} (h : Canonical t) : EngineRegCanonical (.waits t)
  | deadlock : EngineRegCanonical .deadlock
  | full : EngineRegCanonical .full
  | host {t : State} (h : Canonical t) : EngineRegCanonical (.host t)

/-- The state behind the forming of a contribution. -/
inductive FormedCanonical : Formed → Prop
  | ok {p : Contribution} {t : State} (h : Canonical t) : FormedCanonical (.ok p t)
  | held : FormedCanonical .held

section
variable {s t : State} {α : Type}

protected theorem Canonical.of_eq (h : Canonical s) (e : t.hbm = s.hbm) : Canonical t := by
  unfold Canonical at h ⊢
  rw [e]
  exact h

/-- An update of any fields but the memory. -/
protected theorem Canonical.update (h : Canonical s)
    {wave waves groups gangs tasks launches parts cores dies clks joins lag vbytes vlines tags signals objs links engWaits recWaits locks
    owned arrived lost colls collGroups farMembers served nextTag scrubs pkg powered hostLog fabricOut agenda free nextKey} :
    Canonical (State.mk
      wave waves groups gangs tasks launches parts cores dies s.hbm clks joins lag vbytes vlines tags signals objs links engWaits recWaits
      locks owned arrived lost colls collGroups farMembers served nextTag scrubs pkg powered hostLog fabricOut agenda free nextKey) := h

protected theorem Canonical.of_keeps (h : Canonical s) (k : KeepsForm s t) : Canonical t := k.wf h

protected theorem Canonical.of_snd {r : α × State} (h : Canonical r.2) {a : α} (e : r = (a, t)) : Canonical t := by
  rw [e] at h
  exact h

protected theorem Canonical.ite {c : Prop} {_ : Decidable c} (h : Canonical s) (g : Canonical t) : Canonical (if c then s else t) := by
  split <;> assumption

protected theorem Canonical.foldl {f : State → α → State} {l : List α} (h : Canonical s) (step : ∀ t x, Canonical t → Canonical (f t x)) :
    Canonical (l.foldl f s) := by
  induction l generalizing s with
  | nil => exact h
  | cons x xs ih => exact ih (step s x h)

/-- A fold over values that carry a state. -/
protected theorem Canonical.foldl_by {σ : Type} (π : σ → State) {f : σ → α → σ} {l : List α} {a : σ} (h : Canonical (π a))
    (step : ∀ m x, Canonical (π m) → Canonical (π (f m x))) : Canonical (π (l.foldl f a)) := by
  induction l generalizing a with
  | nil => exact h
  | cons x xs ih => exact ih (step a x h)

protected theorem OptCanonical.of_some {r : Option State} (h : OptCanonical r) (e : r = Option.some t) : Canonical t := by
  subst e
  cases h
  assumption

protected theorem FstCanonical.of_some {r : Option (State × α)} (h : FstCanonical r) {a} (e : r = Option.some (t, a)) : Canonical t := by
  subst e
  cases h
  assumption

protected theorem SndCanonical.of_some {r : Option (α × State)} (h : SndCanonical r) {a} (e : r = Option.some (a, t)) : Canonical t := by
  subst e
  cases h
  assumption

protected theorem OkCanonical.of_ok {r : Except α State} (h : OkCanonical r) (e : r = .ok t) : Canonical t := by
  subst e
  cases h
  assumption

protected theorem NextCanonical.of_next {r : Out} (h : NextCanonical r) (e : r = .next t) : Canonical t := by
  subst e
  cases h
  assumption

protected theorem RegCanonical.of_ok {r : Reg} (h : RegCanonical r) (e : r = .ok t) : Canonical t := by
  subst e
  cases h
  assumption

protected theorem RegCanonical.of_deadlock {r : Reg} (h : RegCanonical r) {l} (e : r = .deadlock t l) : Canonical t := by
  subst e
  cases h
  assumption

protected theorem RegCanonical.of_host {r : Reg} (h : RegCanonical r) (e : r = .host t) : Canonical t := by
  subst e
  cases h
  assumption

protected theorem RegCanonical.of_member {r : Reg} (h : RegCanonical r) (e : r = .member t) : Canonical t := by
  subst e
  cases h
  assumption

protected theorem ObserveCanonical.of_ok {r : Observe} (h : ObserveCanonical r) (e : r = .ok t) : Canonical t := by
  subst e
  cases h
  assumption

protected theorem OpWriteCanonical.of_done {r : OpWrite} (h : OpWriteCanonical r) {l} (e : r = .done t l) : Canonical t := by
  subst e
  cases h
  assumption

protected theorem AfterMoveCanonical.of_goes {r : AfterMove} (h : AfterMoveCanonical r) {o} (e : r = .goes t o) : Canonical t := by
  subst e
  cases h
  assumption

protected theorem AfterMoveCanonical.of_deferred {r : AfterMove} (h : AfterMoveCanonical r) (e : r = .deferred t) : Canonical t := by
  subst e
  cases h
  assumption

protected theorem EngineRegCanonical.of_waits {r : EngineReg} (h : EngineRegCanonical r) (e : r = .waits t) : Canonical t := by
  subst e
  cases h
  assumption

protected theorem EngineRegCanonical.of_host {r : EngineReg} (h : EngineRegCanonical r) (e : r = .host t) : Canonical t := by
  subst e
  cases h
  assumption

protected theorem FormedCanonical.of_ok {r : Formed} (h : FormedCanonical r) {p} (e : r = .ok p t) : Canonical t := by
  subst e
  cases h
  assumption

protected theorem NextCanonical.ite {c : Prop} {_ : Decidable c} {o q : Out} (h : NextCanonical o) (g : NextCanonical q) :
    NextCanonical (if c then o else q) := by
  split <;> assumption

protected theorem OkCanonical.ite {c : Prop} {_ : Decidable c} {o q : Except α State} (h : OkCanonical o) (g : OkCanonical q) :
    OkCanonical (if c then o else q) := by
  split <;> assumption

protected theorem OptCanonical.ite {c : Prop} {_ : Decidable c} {o q : Option State} (h : OptCanonical o) (g : OptCanonical q) :
    OptCanonical (if c then o else q) := by
  split <;> assumption

protected theorem OptCanonical.getD {o : Option State} (h : OptCanonical o) (g : Canonical s) : Canonical (o.getD s) := by
  cases h with
  | none => exact g
  | some h => exact h

/-- A result mapped by an operation on states. -/
protected theorem OptCanonical.map {o : Option State} {f : State → State} (h : OptCanonical o) (hf : ∀ t, Canonical t → Canonical (f t)) :
    OptCanonical (o.map f) := by
  cases h with
  | none => exact .none
  | some h => exact .some (hf _ h)

/-- A choice mapped to states. -/
protected theorem OptCanonical.choice {o : Option α} {f : α → State} (hf : ∀ x, Canonical (f x)) : OptCanonical (o.map f) := by
  cases o with
  | none => exact .none
  | some x => exact .some (hf x)

protected theorem OptCanonical.bind {o : Option α} {f : α → Option State} (hf : ∀ x, OptCanonical (f x)) : OptCanonical (o.bind f) := by
  cases o with
  | none => exact .none
  | some x => exact hf x

protected theorem OptCanonical.findSome {l : List α} {f : α → Option State} (hf : ∀ x, OptCanonical (f x)) :
    OptCanonical (l.findSome? f) := by
  induction l with
  | nil => exact .none
  | cons x xs ih =>
    rw [List.findSome?_cons]
    split
    · rename_i e
      exact .some ((hf x).of_some e)
    · exact ih

end

end Sys2Proof
end

section
/-!
SUPPORT. The canonical form of global memory is kept by the shared operations: memory and translation (R229 to R248, R272), the wait-for table (R388 to R399), records (R363 to R370), containment (R426 to R435).
-/

namespace Sys2Proof

open Sys2Proof.Machine

section
variable {s t : State}

/-! ### Memory, caches and translation -/

protected theorem Canonical.onDie (h : Canonical s) {d f} : Canonical (onDie s d f) := h.update
protected theorem Canonical.onCore (h : Canonical s) {c f} : Canonical (onCore s c f) := h.update
protected theorem Canonical.onPart (h : Canonical s) {p f} : Canonical (onPart s p f) := h.update
protected theorem Canonical.onChan (h : Canonical s) {d ch f} : Canonical (onChan s d ch f) := h.onDie
protected theorem Canonical.onWave (h : Canonical s) {f} : Canonical (onWave s f) := h.update
protected theorem Canonical.onRegs (h : Canonical s) {f} : Canonical (onRegs s f) := h.update
protected theorem Canonical.onWaves (h : Canonical s) {f} : Canonical (onWaves s f) := h.update
protected theorem Canonical.onToken (h : Canonical s) {t f} : Canonical (onToken s t f) := h.onWaves
protected theorem Canonical.onGroup (h : Canonical s) {k i f} : Canonical (onGroup s k i f) := h.update
protected theorem Canonical.onGang (h : Canonical s) {k f} : Canonical (onGang s k f) := h.update
protected theorem Canonical.onTask (h : Canonical s) {t p f} : Canonical (onTask s t p f) := h.update
protected theorem Canonical.onLaunch (h : Canonical s) {k f} : Canonical (onLaunch s k f) := h.update
protected theorem Canonical.tellHost (h : Canonical s) {m} : Canonical (tellHost s m) := h.update
protected theorem Canonical.report (h : Canonical s) {p group cause info} : Canonical (report s p group cause info) := h.tellHost
protected theorem Canonical.drawFree (h : Canonical s) : Canonical (drawFree s).2 := h.update
protected theorem Canonical.touchL2 (h : Canonical s) {d line cls} : Canonical (touchL2 s d line cls) := h.onDie
protected theorem Canonical.trimSet (h : Canonical s) {d line} : Canonical (trimSet s d line) := h.onDie
protected theorem Canonical.trimDie (h : Canonical s) {d} : Canonical (trimDie s d) := h.foldl (fun _ _ hx => hx.trimSet)

protected theorem Canonical.stampUnit (h : Canonical s) {core token dep bytes} : Canonical (stampUnit s core token dep bytes).1 :=
  stampUnit_wf s core token dep bytes h

protected theorem Canonical.pokeBytes (h : Canonical s) {bytes} : Canonical (pokeBytes s bytes) := h.stampUnit
protected theorem Canonical.pokeNat (h : Canonical s) {pa n x} : Canonical (pokeNat s pa n x) := h.pokeBytes
protected theorem Canonical.deviceWrite (h : Canonical s) {pa n x} : Canonical (deviceWrite s pa n x) := h.stampUnit
protected theorem Canonical.applyWrite (h : Canonical s) {d hd cs} : Canonical (applyWrite s d hd cs) := h.of_eq (applyWrite_hbm ..)
protected theorem Canonical.spillLines (h : Canonical s) {c l} : Canonical (spillLines s c l) := h.of_eq (spillLines_hbm ..)
protected theorem Canonical.writeBackAll (h : Canonical s) {w} : Canonical (writeBackAll s w) := h.spillLines
protected theorem Canonical.privFill (h : Canonical s) {w line} : Canonical (privFill s w line) := h.of_eq (privFill_hbm ..)
protected theorem Canonical.l1Fill (h : Canonical s) {c line} : Canonical (l1Fill s c line) := h.of_eq (l1Fill_hbm ..)

protected theorem Canonical.acquireStep (h : Canonical s) {w} : Canonical (acquireStep s w).1 := by
  unfold acquireStep
  dsimp only
  split
  · exact h.onWaves.onCore
  · exact h.onCore

protected theorem Canonical.groupAcquire (h : Canonical s) : Canonical (groupAcquire s) := h.onWave
protected theorem Canonical.acquire (h : Canonical s) : Canonical (acquire s) := h.of_eq (acquire_hbm ..)

protected theorem Canonical.versionUnit (h : Canonical s) {p k tid bytes} : OptCanonical (versionUnit s p k tid bytes) := by
  unfold versionUnit
  dsimp only
  split
  · exact .some h
  · refine .ite (.some h.update) ?_
    split
    · exact .none
    · exact .some (h.update.trimSet.ite h.update)

protected theorem Canonical.spadWrite (h : Canonical s) {k i off bytes v} : Canonical (spadWrite s k i off bytes v) := h.onGroup

protected theorem Canonical.demandZero (h : Canonical s) {p lv addr} : Canonical (demandZero s p lv addr).2 :=
  h.of_keeps (demandZero_keeps ..)

protected theorem Canonical.useEntry (h : Canonical s) {c e va acc} : Canonical (useEntry s c e va acc).2 :=
  h.of_keeps (useEntry_keeps ..)

protected theorem Canonical.leafFill (h : Canonical s) {c p va lv addr pte} : Canonical (leafFill s c p va lv addr pte).2 :=
  h.of_keeps (leafFill_keeps ..)

protected theorem Canonical.translate (h : Canonical s) {c p va acc} : Canonical (translate s c p va acc).2 :=
  h.of_keeps (translate_keeps ..)

protected theorem Canonical.countEvent (h : Canonical s) {c k ev n} : Canonical (countEvent s c k ev n) := h.of_eq (countEvent_hbm ..)
protected theorem Canonical.noteLine (h : Canonical s) {c k x} : Canonical (noteLine s c k x) := h.update
protected theorem Canonical.useL2 (h : Canonical s) {c k d line cls} : Canonical (useL2 s c k d line cls) := h.countEvent.noteLine.touchL2

protected theorem Canonical.useLines (h : Canonical s) {c k d lines} : Canonical (useLines s c k d lines) :=
  h.foldl (fun _ _ hx => hx.useL2)

protected theorem Canonical.coreTranslate (h : Canonical s) {c k p va acc} : Canonical (coreTranslate s c k p va acc).2 :=
  h.of_keeps (coreTranslate_keeps ..)

protected theorem Canonical.writerLine (h : Canonical s) {o pa} : Canonical (writerLine s o pa) := by
  unfold writerLine
  split
  · exact h.useL2
  · exact h

protected theorem Canonical.sendRequests (h : Canonical s) {l} : Canonical (sendRequests s l) := h.update

protected theorem Canonical.onRelease {r : Tr × State} (h : Canonical r.2) : Canonical (onRelease s r).2 := by
  unfold onRelease
  split <;> exact h

/-! ### The wait-for table -/

protected theorem Canonical.settlePrio (h : Canonical s) : Canonical (settlePrio s) := h.onWaves.ite h.update.onWaves
protected theorem Canonical.sweepObjs (h : Canonical s) : Canonical (sweepObjs s) := h.update

protected theorem Canonical.ensureObjBy (h : Canonical s) {hw d p key kind} : Canonical (ensureObjBy s hw d p key kind).2 := by
  unfold ensureObjBy
  dsimp only
  split
  · exact h
  · split
    · exact h.update
    · exact h.update
    · exact h

protected theorem Canonical.ensureObj (h : Canonical s) {d p key kind} : Canonical (ensureObj s d p key kind).2 := h.ensureObjBy
protected theorem Canonical.settleObjs (h : Canonical s) : Canonical (settleObjs s) := (h.foldl (fun _ _ hx => hx.ensureObjBy)).sweepObjs

protected theorem Canonical.putLink (h : Canonical s) {d p kind l} : Canonical (putLink s d p kind l).2 := by
  unfold putLink
  dsimp only
  split
  · exact h.update
  · split
    · split
      · exact (h.ensureObj.of_snd ‹_›).update
      · exact (h.ensureObj.of_snd ‹_›).update
      · exact h
    · split
      · exact (h.ensureObj.of_snd ‹_›).update
      · exact (h.ensureObj.of_snd ‹_›).update
      · exact h
    · exact h

protected theorem Canonical.addLink (h : Canonical s) {d p key kind lkind agent units} :
    Canonical (addLink s d p key kind lkind agent units).2 :=
  h.putLink

protected theorem Canonical.addObserved (h : Canonical s) {d o} : Canonical (addObserved s d o).2 := h.putLink
protected theorem Canonical.dropObserved (h : Canonical s) {l} : Canonical (dropObserved s l) := h.update
protected theorem Canonical.dropLink (h : Canonical s) {key lkind agent} : Canonical (dropLink s key lkind agent) := h.update.sweepObjs
protected theorem Canonical.holdMembers (h : Canonical s) {l} : Canonical (holdMembers s l) := h.onWaves
protected theorem Canonical.holdWave (h : Canonical s) {c} : Canonical (holdWave s c) := h.onWave.onPart.tellHost

protected theorem Canonical.registerWait (h : Canonical s) {key kind what explicit remote} :
    RegCanonical (registerWait s key kind what explicit remote) := by
  unfold registerWait
  dsimp only
  split
  · exact .full
  · exact .host h.holdWave
  · split
    · exact .ok (h.ensureObj.of_snd ‹_›).update.settlePrio
    · exact .ok (h.ensureObj.of_snd ‹_›).update.onWave.settlePrio
    · split
      · exact .member (h.ensureObj.of_snd ‹_›).update.holdMembers.onPart.tellHost
      · exact .deadlock (h.ensureObj.of_snd ‹_›)

protected theorem Canonical.endWait (h : Canonical s) : Canonical (endWait s) := by
  unfold endWait
  split
  · exact h
  · exact h.onWave.sweepObjs.settlePrio

protected theorem Canonical.wordWrite (h : Canonical s) {o l x v} : Canonical (wordWrite s o l x v) := by
  unfold wordWrite
  split
  · exact h.writerLine.stampUnit
  · exact h.spadWrite

protected theorem Canonical.grantWait (h : Canonical s) {t} : Canonical (grantWait s t) := h.onToken

protected theorem Canonical.lockRelease (h : Canonical s) {o l key holder v} : Canonical (lockRelease s o l key holder v) := by
  unfold lockRelease
  dsimp only
  split
  · exact h.wordWrite.dropLink.update
  · exact h.wordWrite.update.grantWait.settlePrio

protected theorem Canonical.semGrant {o p d l key v ws} (h : Canonical s) : Canonical (semGrant o p d l key v ws s) := by
  induction ws generalizing s with
  | nil => exact h
  | cons w ws ih =>
    unfold semGrant
    split
    · simp only
      split
      · split
        · exact ih (h.addLink.of_snd ‹_›).wordWrite.grantWait
        · exact ih (h.addLink.of_snd ‹_›).wordWrite.grantWait
        · exact ih h.onToken
      · exact h
    · exact h

protected theorem Canonical.semRelease (h : Canonical s) {o p d l key agent n v} : Canonical (semRelease s o p d l key agent n v) := by
  unfold semRelease
  dsimp only
  split
  · exact h.wordWrite.update.sweepObjs
  · exact h.wordWrite.update.semGrant.settlePrio

/-! ### Barriers and counters -/

protected theorem Canonical.arriveAt (h : Canonical s) {k i off n err v} : Canonical (arriveAt s k i off n err v) := by
  unfold arriveAt
  split
  · exact h.spadWrite
  · exact h

protected theorem Canonical.engineArrives (h : Canonical s) {k i off n err v} : Canonical (engineArrives s k i off n err v) :=
  h.arriveAt.onGroup

protected theorem Canonical.counterWrite (h : Canonical s) {o pa x dep} : Canonical (counterWrite s o pa x dep) := h.writerLine.stampUnit
protected theorem Canonical.counterBump (h : Canonical s) {pa n err dep} : Canonical (counterBump s pa n err dep) := h.counterWrite.update

protected theorem Canonical.pendSignal (h : Canonical s) {pa} : OptCanonical (pendSignal s pa) :=
  .ite (.some h.onDie) (.ite (.some h.onDie) .none)

protected theorem Canonical.pendDrop (h : Canonical s) {pa} : Canonical (pendDrop s pa) := h.onDie

/-! ### Records, launches and tasks -/

protected theorem Canonical.devTranslate (h : Canonical s) {p va acc} : Canonical (devTranslate s p va acc).2 := by
  unfold devTranslate
  split
  · exact h.translate.of_snd ‹_›
  · exact h.translate.of_snd ‹_›
  · exact h.translate.of_snd ‹_›

protected theorem Canonical.statusAt (h : Canonical s) {pa own status} : Canonical (statusAt s pa own status) := h.deviceWrite

protected theorem Canonical.recordStatus (h : Canonical s) {p va own status tid} : Canonical (recordStatus s p va own status tid) := by
  unfold recordStatus
  split
  · exact (h.devTranslate.of_snd ‹_›).statusAt
  · exact (h.devTranslate.of_snd ‹_›).report

protected theorem Canonical.acceptWord (h : Canonical s) {pa} : Canonical (acceptWord s pa) := h.deviceWrite

protected theorem Canonical.bumpCompl (h : Canonical s) {p acc compl err} : Canonical (bumpCompl s p acc compl err) := by
  unfold bumpCompl
  refine h.ite ?_
  split
  · have ht := h.devTranslate.of_snd ‹_›
    exact ht.report.ite ht.counterBump
  · exact (h.devTranslate.of_snd ‹_›).report

protected theorem Canonical.finishLaunch (h : Canonical s) {key whole} : Canonical (finishLaunch s key whole) := by
  unfold finishLaunch
  dsimp only
  split
  · exact h
  · exact (h.recordStatus.ite h.recordStatus.bumpCompl).onPart.update

protected theorem Canonical.checkLaunch (h : Canonical s) {key} : Canonical (checkLaunch s key) := by
  unfold checkLaunch
  split
  · exact h
  · exact h.finishLaunch.ite h

protected theorem Canonical.acceptLaunch (h : Canonical s) {p q va pa} : OkCanonical (acceptLaunch s p q va pa) := by
  unfold acceptLaunch
  dsimp only
  refine .ite .error ?_
  refine .ite .error ?_
  refine .ite (.ok h.acceptWord.onPart.update.finishLaunch) ?_
  exact .ite (.ok h.acceptWord.onPart.update.finishLaunch) (.ok h.acceptWord.onPart.update.onPart)

protected theorem Canonical.acceptTask (h : Canonical s) {p va pa after} : OkCanonical (acceptTask s p va pa after) := by
  unfold acceptTask
  dsimp only
  refine .ite .error ?_
  refine .ite .error ?_
  refine .ite (.ok h.acceptWord.onPart.recordStatus) ?_
  exact .ite (.ok h.acceptWord.onPart.recordStatus) (.ok h.acceptWord.onPart.onPart)

protected theorem Canonical.firePost (h : Canonical s) {p va after} : OptCanonical (firePost s p va after) := by
  unfold firePost
  split
  · exact .some (h.devTranslate.of_snd ‹_›).report
  · refine .ite .none ?_
    split
    · exact .some ((h.devTranslate.of_snd ‹_›).acceptTask.of_ok ‹_›)
    · have ht := h.devTranslate.of_snd ‹_›
      exact .some (ht.report.ite ht.recordStatus)

protected theorem Canonical.signalAt (h : Canonical s) {o p pa dep} : OptCanonical (signalAt s o p pa dep) := by
  unfold signalAt
  dsimp only
  refine .ite (.some h.report) ?_
  split
  · exact h.pendSignal
  · exact .ite (h.counterWrite.update.ite h.counterWrite).firePost (.some (h.counterWrite.update.ite h.counterWrite))

protected theorem Canonical.markErr (h : Canonical s) {key} : Canonical (markErr s key) := h.onLaunch

protected theorem Canonical.returnTask (h : Canonical s) {t c} : Canonical (returnTask s t c) := by
  unfold returnTask
  dsimp only
  split
  · exact h.update.onLaunch.checkLaunch
  · exact h.update.recordStatus.onPart.markErr

/-! ### Slots of pipelines -/

protected theorem Canonical.onPipe (h : Canonical s) {key f} : Canonical (onPipe s key f) := h.onLaunch

protected theorem Canonical.slotTranslate (h : Canonical s) {l p pos slot} : Canonical (slotTranslate s l p pos slot).2 := by
  unfold slotTranslate
  split
  · exact h.translate
  · exact h
  · exact h

protected theorem Canonical.rejectHeld (h : Canonical s) {launch held} : Canonical (rejectHeld s launch held) := by
  unfold rejectHeld
  dsimp only
  split
  · exact h
  · split
    · exact h
    · split
      · exact h.onPipe.markErr
      · refine h.onPipe.markErr.ite ?_
        split
        · exact (h.slotTranslate.of_snd ‹_›).stampUnit.onPipe.markErr
        · exact (h.slotTranslate.of_snd ‹_›).onPipe.markErr

/-! ### Containment -/

protected theorem Canonical.addObserves {d l} (h : Canonical s) : ObserveCanonical (addObserves d l s) := by
  induction l generalizing s with
  | nil => exact .ok h
  | cons o rest ih =>
    unfold addObserves
    split
    · exact ih (h.addObserved.of_snd ‹_›)
    · exact ih (h.addObserved.of_snd ‹_›)
    · exact .host
    · exact .full

protected theorem Canonical.linkTasks (h : Canonical s) {d reader l} : ObserveCanonical (linkTasks s d reader l) := by
  unfold linkTasks
  split
  · exact .ok h
  · split
    · split
      · exact .limit
      · exact .ok (h.addObserves.of_ok ‹_›)
    · exact h.addObserves

protected theorem Canonical.observeTags (h : Canonical s) {reader k lines} : ObserveCanonical (observeTags s reader k lines) :=
  h.linkTasks

protected theorem Canonical.tagLine (h : Canonical s) {t line} : Canonical (tagLine s t line) := h.ite h.update

protected theorem Canonical.releaseHolds (h : Canonical s) {p d toks} : Canonical (releaseHolds s p d toks) := by
  unfold releaseHolds
  dsimp only
  refine Canonical.sweepObjs ?_
  refine Canonical.update ?_
  refine Canonical.foldl ?_ ?_
  · refine h.foldl fun t x hx => ?_
    split
    · exact hx.lockRelease
    · exact hx.update
  · intro t x hx
    split
    · exact hx.semRelease
    · exact hx

protected theorem Canonical.withdrawSignals (h : Canonical s) {k} : Canonical (withdrawSignals s k) :=
  (h.foldl (fun _ _ hx => hx.onDie.ite (hx.counterWrite.ite hx))).update

protected theorem Canonical.endRecords (h : Canonical s) {k} : Canonical (endRecords s k) := h.onDie.onDie
protected theorem Canonical.abandonFar (h : Canonical s) {k} : Canonical (abandonFar s k) := h.sendRequests
protected theorem Canonical.unpinTiles (h : Canonical s) {core} : Canonical (unpinTiles s core) := h.onDie

protected theorem Canonical.killGang (h : Canonical s) {k} : Canonical (killGang s k) := by
  unfold killGang
  dsimp only
  split
  · exact h
  · refine Canonical.withdrawSignals ?_
    refine Canonical.endRecords ?_
    refine Canonical.onDie ?_
    refine Canonical.onDie ?_
    refine Canonical.ite ?_ ?_
    · refine Canonical.foldl ?_ (fun _ _ hx => hx.onCore)
      refine Canonical.foldl ?_ (fun _ _ hx => hx.unpinTiles)
      refine Canonical.update ?_
      refine Canonical.dropObserved ?_
      refine Canonical.abandonFar ?_
      refine h.update.releaseHolds.foldl fun t x hx => ?_
      split
      · exact hx.rejectHeld
      · exact hx
    · refine Canonical.foldl ?_ (fun _ _ hx => hx.unpinTiles)
      refine Canonical.update ?_
      refine Canonical.dropObserved ?_
      refine Canonical.abandonFar ?_
      refine h.update.releaseHolds.foldl fun t x hx => ?_
      split
      · exact hx.rejectHeld
      · exact hx

protected theorem Canonical.relaunchTask (h : Canonical s) {t c} : Canonical (relaunchTask s t c) := by
  unfold relaunchTask
  dsimp only
  split
  · exact h.onTask.onLaunch.onPipe
  · exact h.onPart.update

protected theorem Canonical.settleTask (h : Canonical s) {t c replay} : Canonical (settleTask s t c replay) := by
  unfold settleTask
  dsimp only
  refine h.onPart.returnTask.ite ?_
  exact h.onPart.returnTask.ite (h.onPart.onTask.onPart.tellHost.ite h.onPart.relaunchTask)

protected theorem Canonical.markFull (h : Canonical s) {tid p} : Canonical (markFull s tid p) := h.onTask

protected theorem Canonical.contain (h : Canonical s) {seeds c replay} : Canonical (contain s seeds c replay) := by
  unfold contain
  exact ((h.foldl (fun _ _ hx => hx.killGang)).foldl (fun _ _ hx => hx.settleTask.ite hx.report.settleTask)).settleObjs.settlePrio

protected theorem Canonical.dataLost (h : Canonical s) {p seeds pa} : Canonical (dataLost s p seeds pa) := h.report.contain

end

end Sys2Proof
end

section
/-!
SUPPORT. The canonical form of global memory is kept by traps (R417), lane instructions, the accesses of waves and engines (R253 to R269) and copies (R340 to R352).
-/

namespace Sys2Proof

open Sys2Proof.Machine

section
variable {s t : State}

/-! ### Traps and operand checks -/

protected theorem Canonical.writeRecords (h : Canonical s) {pa recs} : Canonical (writeRecords s pa recs) := h.stampUnit
protected theorem Canonical.freshEntry (h : Canonical s) {u pa} : Canonical (freshEntry s u pa) := h.onCore
protected theorem Canonical.deviceHandler (h : Canonical s) {cause} : Canonical (deviceHandler s cause) := h.report.contain

protected theorem Canonical.trapEntry (h : Canonical s) {cause spc recs} : Canonical (trapEntry s cause spc recs) := by
  unfold trapEntry
  dsimp only
  refine h.dataLost.ite ?_
  refine h.deviceHandler.ite ?_
  split
  · exact (h.coreTranslate.onRelease.of_snd ‹_›).deviceHandler
  · exact (h.coreTranslate.onRelease.of_snd ‹_›).holdWave
  · have ht := h.coreTranslate.onRelease.of_snd ‹_›
    refine ht.writeRecords.freshEntry.onWave.acquire.countEvent.report.ite ?_
    exact ht.writeRecords.freshEntry.onWave.acquire.countEvent

protected theorem Canonical.trapWave (h : Canonical s) {cause} : Canonical (trapWave s cause) := h.trapEntry
protected theorem Canonical.trapValue (h : Canonical s) {cause v sub} : Canonical (trapValue s cause v sub) := h.trapEntry
protected theorem Canonical.trapReturn (h : Canonical s) : Canonical (trapReturn s) := h.trapWave.ite (h.trapWave.ite h.onWave)
protected theorem Canonical.stall (h : Canonical s) : Canonical (stall s) := h.onWave
protected theorem Canonical.countBanks (h : Canonical s) {uses} : Canonical (countBanks s uses) := h.of_eq (countBanks_hbm ..)

protected theorem Canonical.checked (h : Canonical s) {uses tyOk f} : NextCanonical (checked s uses tyOk f) := by
  unfold checked
  split
  · exact .next h.trapWave
  · exact .next h.countBanks.onRegs

protected theorem Canonical.checkedState (h : Canonical s) {uses tyOk} {f : State → State} (hf : ∀ t, Canonical t → Canonical (f t)) :
    NextCanonical (checkedState s uses tyOk f) := by
  unfold checkedState
  split
  · exact .next h.trapWave
  · exact .next (hf _ h.countBanks)

protected theorem Canonical.retireWave (h : Canonical s) {n} : Canonical (retireWave s n) := h.onRegs
protected theorem Canonical.digestEvent (h : Canonical s) {v} : Canonical (digestEvent s v) := h.onWave
protected theorem Canonical.jumpTo (h : Canonical s) {target} : Canonical (jumpTo s target) := h.onWave.digestEvent
protected theorem Canonical.transferTo (h : Canonical s) {target} : Canonical (transferTo s target) := h.retireWave.ite h.jumpTo

/-! ### Lane instructions -/

protected theorem Canonical.useFree (h : Canonical s) {held} : Canonical (useFree s held) := h.update.ite h
protected theorem Canonical.laneTwo (h : Canonical s) {d a b held ok f} : NextCanonical (laneTwo s d a b held ok f) := h.checked

protected theorem Canonical.laneOneBy (h : Canonical s) {d a held ok sw dw f} : NextCanonical (laneOneBy s d a held ok sw dw f) :=
  h.checkedState (fun _ hx => hx.useFree.onRegs)

protected theorem Canonical.laneOne (h : Canonical s) {d a held ok f} : NextCanonical (laneOne s d a held ok f) := by
  unfold laneOne
  exact h.laneOneBy

protected theorem Canonical.laneThree (h : Canonical s) {d a b c ok yw f} : NextCanonical (laneThree s d a b c ok yw f) := h.checked
protected theorem Canonical.execAdd (h : Canonical s) {d a b held} : NextCanonical (execAdd d a b held s) := h.laneTwo
protected theorem Canonical.execSub (h : Canonical s) {d a b held} : NextCanonical (execSub d a b held s) := h.laneTwo
protected theorem Canonical.execMul (h : Canonical s) {d a b held} : NextCanonical (execMul d a b held s) := h.laneTwo
protected theorem Canonical.execMulhi (h : Canonical s) {d a b held} : NextCanonical (execMulhi d a b held s) := h.laneTwo
protected theorem Canonical.execMin (h : Canonical s) {d a b held} : NextCanonical (execMin d a b held s) := h.laneTwo
protected theorem Canonical.execMax (h : Canonical s) {d a b held} : NextCanonical (execMax d a b held s) := h.laneTwo
protected theorem Canonical.execDiv (h : Canonical s) {d a b held} : NextCanonical (execDiv d a b held s) := h.laneTwo
protected theorem Canonical.execScaleb (h : Canonical s) {d a b held} : NextCanonical (execScaleb d a b held s) := h.laneTwo
protected theorem Canonical.execAnd (h : Canonical s) {d a b held} : NextCanonical (execAnd d a b held s) := h.laneTwo
protected theorem Canonical.execOr (h : Canonical s) {d a b held} : NextCanonical (execOr d a b held s) := h.laneTwo
protected theorem Canonical.execXor (h : Canonical s) {d a b held} : NextCanonical (execXor d a b held s) := h.laneTwo
protected theorem Canonical.execAndn (h : Canonical s) {d a b held} : NextCanonical (execAndn d a b held s) := h.laneTwo
protected theorem Canonical.execShl (h : Canonical s) {d a b held} : NextCanonical (execShl d a b held s) := h.laneTwo
protected theorem Canonical.execShr (h : Canonical s) {d a b held} : NextCanonical (execShr d a b held s) := h.laneTwo
protected theorem Canonical.execSar (h : Canonical s) {d a b held} : NextCanonical (execSar d a b held s) := h.laneTwo
protected theorem Canonical.execRotl (h : Canonical s) {d a b held} : NextCanonical (execRotl d a b held s) := h.laneTwo
protected theorem Canonical.execNeg (h : Canonical s) {d a held} : NextCanonical (execNeg d a held s) := h.laneOne
protected theorem Canonical.execAbs (h : Canonical s) {d a held} : NextCanonical (execAbs d a held s) := h.laneOne
protected theorem Canonical.execNot (h : Canonical s) {d a held} : NextCanonical (execNot d a held s) := h.laneOne
protected theorem Canonical.execClz (h : Canonical s) {d a held} : NextCanonical (execClz d a held s) := h.laneOne
protected theorem Canonical.execPopc (h : Canonical s) {d a held} : NextCanonical (execPopc d a held s) := h.laneOne
protected theorem Canonical.execBrev (h : Canonical s) {d a held} : NextCanonical (execBrev d a held s) := h.laneOne
protected theorem Canonical.execRcp (h : Canonical s) {d a held} : NextCanonical (execRcp d a held s) := h.laneOne
protected theorem Canonical.execRsq (h : Canonical s) {d a held} : NextCanonical (execRsq d a held s) := h.laneOne
protected theorem Canonical.execSqrt (h : Canonical s) {d a held} : NextCanonical (execSqrt d a held s) := h.laneOne
protected theorem Canonical.execExp2 (h : Canonical s) {d a held} : NextCanonical (execExp2 d a held s) := h.laneOne
protected theorem Canonical.execLog2 (h : Canonical s) {d a held} : NextCanonical (execLog2 d a held s) := h.laneOne
protected theorem Canonical.execLn (h : Canonical s) {d a held} : NextCanonical (execLn d a held s) := h.laneOne
protected theorem Canonical.execFract (h : Canonical s) {d a held} : NextCanonical (execFract d a held s) := h.laneOne
protected theorem Canonical.execRoundi (h : Canonical s) {d a held} : NextCanonical (execRoundi d a held s) := h.laneOne
protected theorem Canonical.execClassF (h : Canonical s) {d a held} : NextCanonical (execClassF d a held s) := h.laneOneBy
protected theorem Canonical.execMad (h : Canonical s) {d a b c} : NextCanonical (execMad d a b c s) := h.laneThree
protected theorem Canonical.execBfx (h : Canonical s) {d a b c} : NextCanonical (execBfx d a b c s) := h.laneThree
protected theorem Canonical.execBfi (h : Canonical s) {d a b c} : NextCanonical (execBfi d a b c s) := h.laneThree
protected theorem Canonical.execLea (h : Canonical s) {d a b sh held} : NextCanonical (execLea d a b sh held s) := h.checked
protected theorem Canonical.execCmp (h : Canonical s) {d a b c held} : NextCanonical (execCmp d a b c held s) := h.checked
protected theorem Canonical.execSel (h : Canonical s) {d a b p held} : NextCanonical (execSel d a b p held s) := h.checked
protected theorem Canonical.execPset (h : Canonical s) {p a} : NextCanonical (execPset p a s) := h.checked
protected theorem Canonical.execPand (h : Canonical s) {p g1 g2} : NextCanonical (execPand p g1 g2 s) := .next h.onRegs
protected theorem Canonical.execPor (h : Canonical s) {p g1 g2} : NextCanonical (execPor p g1 g2 s) := .next h.onRegs
protected theorem Canonical.execPnot (h : Canonical s) {p g} : NextCanonical (execPnot p g s) := .next h.onRegs
protected theorem Canonical.execCvt (h : Canonical s) {d a k held} : NextCanonical (execCvt d a k held s) := h.checked
protected theorem Canonical.execPack (h : Canonical s) {d a b held} : NextCanonical (execPack d a b held s) := h.checked
protected theorem Canonical.execUnpack (h : Canonical s) {d a held} : NextCanonical (execUnpack d a held s) := h.laneOneBy
protected theorem Canonical.execMxq (h : Canonical s) {d a held} : NextCanonical (execMxq d a held s) := h.laneOneBy
protected theorem Canonical.execMxdq (h : Canonical s) {d a b held} : NextCanonical (execMxdq d a b held s) := h.checked

/-! ### Accesses of a wave -/

protected theorem Canonical.waveTranslate (h : Canonical s) {va acc} : Canonical (waveTranslate s va acc).2 :=
  h.of_keeps (waveTranslate_keeps ..)

protected theorem Canonical.checkLanes (h : Canonical s) {act ea n u} : Canonical (checkLanes s act ea n u).2 :=
  h.of_keeps (checkLanes_keeps ..)

protected theorem Canonical.trapLanes (h : Canonical s) {l0} : Canonical (trapLanes s l0) := h.trapEntry
protected theorem Canonical.loadPriv (h : Canonical s) {line} : Canonical (loadPriv s line) := h.countEvent.privFill
protected theorem Canonical.loadPrivs (h : Canonical s) {l n} : Canonical (loadPrivs s l n) := h.foldl (fun _ _ hx => hx.loadPriv)
protected theorem Canonical.fetchLines (h : Canonical s) {pol l} : Canonical (fetchLines s pol l) := h.of_eq (fetchLines_hbm ..)
protected theorem Canonical.reachLines (h : Canonical s) {pol l} : Canonical (reachLines s pol l) := h.foldl (fun _ _ hx => hx.useL2)

protected theorem Canonical.observe (h : Canonical s) {lines} : ObserveCanonical (observe s lines) := by
  unfold observe
  split
  · exact h.observeTags
  · exact .ok h

protected theorem Canonical.observing (h : Canonical s) {lines} {limit : Unit → State} {k : State → State} (hl : Canonical (limit ()))
    (hk : ∀ t, Canonical t → Canonical (k t)) : Canonical (observing s lines limit k) := by
  unfold Machine.observing
  split
  · exact hk _ (h.observe.of_ok ‹_›)
  · exact hl
  · exact h.trapWave
  · exact h.holdWave

protected theorem Canonical.versionFullFor (h : Canonical s) {p tid k} : Canonical (versionFullFor s p tid k) :=
  (h.ite h.onWaves.onPart.tellHost.report).ite h.report.markFull.contain

protected theorem Canonical.versionFull (h : Canonical s) : Canonical (versionFull s) := h.versionFullFor
protected theorem Canonical.waveStamp (h : Canonical s) {bytes} : Canonical (waveStamp s bytes) := h.of_keeps (waveStamp_keeps ..)

protected theorem Canonical.storeUnit (h : Canonical s) {versioned l p bytes} : OptCanonical (storeUnit s versioned l p bytes) := by
  unfold storeUnit
  dsimp only
  split
  · exact .ite h.versionUnit (.some h.waveStamp)
  · exact .some (h.foldl (fun _ _ hx => hx.privFill)).onWave
  · exact .some h.spadWrite
  · exact .some h

protected theorem Canonical.acquirePart (h : Canonical s) {pol l joins} : Canonical (acquirePart s pol l joins) :=
  (h.acquire.ite h.groupAcquire).ite h

protected theorem Canonical.sendBlocking (h : Canonical s) {ls l reqs p} : Canonical (sendBlocking s ls l reqs p) :=
  h.sendRequests.onWave.stall

protected theorem Canonical.sendWrite (h : Canonical s) {l req} : Canonical (sendWrite s l req) := h.sendRequests.onWave
protected theorem Canonical.trapRemote (h : Canonical s) {l p} : Canonical (trapRemote s l p) := h.onWave.trapEntry

/-! ### Engine records and completions -/

protected theorem Canonical.transPages {c k p va acc pages} (h : Canonical s) : Canonical (transPages c k p va acc pages s).2 := by
  induction pages generalizing s with
  | nil => exact h
  | cons page rest ih =>
    unfold transPages
    dsimp only
    split
    · exact h.coreTranslate.of_snd ‹_›
    · exact h.coreTranslate.of_snd ‹_›
    · have hrest := ih (h.coreTranslate.of_snd ‹_›)
      split
      · exact hrest.of_snd ‹_›
      · exact hrest

protected theorem Canonical.putRecord (h : Canonical s) {sb r} : Canonical (putRecord s sb r) := h.pokeNat.ite h.pokeNat.pokeNat.pokeNat
protected theorem Canonical.holdRecords (h : Canonical s) {who l} : Canonical (holdRecords s who l) := h.update.onToken.onPart.tellHost

protected theorem Canonical.writeEngineRecords (h : Canonical s) {who l final} : Canonical (writeEngineRecords s who l final) := by
  unfold writeEngineRecords
  dsimp only
  split
  · exact (h.coreTranslate.of_snd ‹_›).report.contain
  · have ht := h.coreTranslate.of_snd ‹_›
    exact ht.report.contain.ite ht.holdRecords
  · exact (h.coreTranslate.of_snd ‹_›).foldl (fun _ _ hx => hx.putRecord)

protected theorem Canonical.engineRecords (h : Canonical s) {who l} : Canonical (engineRecords s who l) :=
  h.ite (h.dataLost.ite h.writeEngineRecords)

protected theorem Canonical.releaseRecords (h : Canonical s) {p tid} : Canonical (releaseRecords s p tid) :=
  h.update.foldl (fun _ _ hx => hx.writeEngineRecords)

protected theorem Canonical.completionFails (h : Canonical s) {who a c} : Canonical (completionFails s who a c) := by
  unfold completionFails
  dsimp only
  split
  · exact h.engineRecords.report
  · exact h.engineRecords.report.ite h.engineRecords.report.contain

protected theorem Canonical.completeAt (h : Canonical s) {who mask a n err v} : Canonical (completeAt s who mask a n err v) := by
  unfold completeAt
  split
  · split
    · exact h
    · split
      · exact h.engineArrives
      · exact h
    · exact h.foldl (fun _ _ hx => hx.engineArrives.ite hx)
  · split
    · have ht := h.coreTranslate.of_snd ‹_›
      exact ht.completionFails.ite ht.counterBump
    · exact (h.coreTranslate.of_snd ‹_›).completionFails
    · exact (h.coreTranslate.of_snd ‹_›).completionFails
  · exact h

protected theorem Canonical.stopEngine (h : Canonical s) {who agent} : Canonical (stopEngine s who agent) := h.ite h.onPart.tellHost

protected theorem Canonical.opStore (h : Canonical s) {who pa bytes v} : OpWriteCanonical (opStore s who pa bytes v) := by
  unfold opStore
  dsimp only
  split
  · exact .done h
  · split
    · split
      · exact .done (h.useL2.versionUnit.of_some ‹_›)
      · exact .full
    · exact .done h.useL2.stampUnit

protected theorem Canonical.opSpad (h : Canonical s) {k g off bytes v} : Canonical (opSpad s k g off bytes v) := h.onGroup

/-! ### Memory instructions -/

protected theorem Canonical.useAnswer (h : Canonical s) {w p index} {k : List (List W64) → State} (hk : ∀ x, Canonical (k x)) :
    Canonical (useAnswer s w p index k) := h.stall.ite ((hk _).ite h.trapRemote)

protected theorem Canonical.performLoad (h : Canonical s) {pol n ls vals finish} : Canonical (performLoad s pol n ls vals finish) :=
  h.observing h.onWave.trapLanes (fun _ hx => hx.loadPrivs.fetchLines.onWave.acquirePart.onRegs)

protected theorem Canonical.loadOp (h : Canonical s) {uses n a b c finish} : NextCanonical (loadOp s uses n a b c finish) := by
  unfold loadOp
  dsimp only
  refine h.checkedState fun t hx => ?_
  split
  · exact hx.stall.ite (hx.useAnswer (fun _ => hx.performLoad))
  · refine hx.trapWave.ite ?_
    refine hx.checkLanes.holdWave.ite ?_
    refine hx.checkLanes.trapLanes.ite ?_
    exact hx.checkLanes.stall.ite (hx.checkLanes.performLoad.ite hx.checkLanes.sendBlocking)

protected theorem Canonical.execLd (h : Canonical s) {d a b c} : NextCanonical (execLd d a b c s) := h.loadOp
protected theorem Canonical.execLdq (h : Canonical s) {d a b c} : NextCanonical (execLdq d a b c s) := h.loadOp
protected theorem Canonical.defer (h : Canonical s) {x} : Canonical (defer s x) := h.onTask

protected theorem Canonical.performStores {versioned data l} (h : Canonical s) : OptCanonical (performStores versioned data l s) := by
  induction l generalizing s with
  | nil => exact .some h
  | cons x rest ih =>
    unfold performStores
    split
    · exact .none
    · exact ih (h.storeUnit.of_some ‹_›)

protected theorem Canonical.remoteWrites (h : Canonical s) {rem req} : Canonical (remoteWrites s rem req) :=
  h.ite ((h.foldl (fun _ _ hx => hx.defer)).ite h.sendWrite)

protected theorem Canonical.storeOp (h : Canonical s) {uses n a c data} : NextCanonical (storeOp s uses n a c data) := by
  unfold storeOp
  dsimp only
  refine h.checkedState fun t hx => ?_
  refine hx.trapWave.ite ?_
  refine hx.checkLanes.holdWave.ite ?_
  refine hx.checkLanes.stall.ite ?_
  split
  · exact hx.checkLanes.versionFull
  · refine Canonical.ite ?_ ?_
    · have ht := hx.checkLanes.reachLines.performStores.of_some ‹_›
      refine Canonical.retireWave ?_
      refine ht.remoteWrites.ite ?_
      exact ht.remoteWrites.onWave
    · have ht := hx.checkLanes.reachLines.performStores.of_some ‹_›
      refine Canonical.trapLanes ?_
      refine ht.remoteWrites.ite ?_
      exact ht.remoteWrites.onWave

protected theorem Canonical.execSt (h : Canonical s) {a b c} : NextCanonical (execSt a b c s) := by
  unfold execSt
  exact h.storeOp

protected theorem Canonical.execStq (h : Canonical s) {a b c} : NextCanonical (execStq a b c s) := h.storeOp

protected theorem Canonical.atomUnit (h : Canonical s) {versioned escape n l p f} : SndCanonical (atomUnit s versioned escape n l p f) := by
  unfold atomUnit
  dsimp only
  split
  · split
    · exact .some (h.onWave.countEvent.ite h.onWave)
    · split
      · exact .none
      · refine .some ?_
        refine ((h.onWave.countEvent.ite h.onWave).storeUnit.of_some ‹_›).tagLine.ite ?_
        exact (h.onWave.countEvent.ite h.onWave).storeUnit.of_some ‹_›
  · split
    · exact .some h
    · split
      · exact .some h.onWave
      · exact .some h.onWave.spadWrite
  · exact .some h

protected theorem Canonical.performAtoms {versioned escape n f l} (h : Canonical s) :
    SndCanonical (performAtoms versioned escape n f l s) := by
  induction l generalizing s with
  | nil => exact .some h
  | cons x rest ih =>
    unfold performAtoms
    split
    · exact .none
    · have hrest := ih (h.atomUnit.of_some ‹_›)
      split
      · exact .none
      · exact .some (hrest.of_some ‹_›)

protected theorem Canonical.performAtom (h : Canonical s) {pol n path far ls vals} {send : State → State} {f finish}
    (hs : ∀ t, Canonical t → Canonical (send t)) : Canonical (performAtom s pol n path far ls vals send f finish) := by
  unfold performAtom
  dsimp only
  refine h.observing h.onWave.trapLanes fun t hx => ?_
  split
  · exact hx.versionFull
  · exact (hs _ (hx.reachLines.performAtoms.of_some ‹_›)).onWave.acquirePart.onRegs

protected theorem Canonical.atomOp (h : Canonical s) {uses a c returns req f finish} :
    NextCanonical (atomOp s uses a c returns req f finish) := by
  unfold atomOp
  dsimp only
  refine h.checkedState fun t hx => ?_
  split
  · exact hx.useAnswer (fun _ => hx.performAtom (fun _ hx1 => hx1))
  · refine hx.trapWave.ite ?_
    refine hx.checkLanes.holdWave.ite ?_
    refine hx.checkLanes.trapLanes.ite ?_
    refine hx.checkLanes.trapLanes.ite ?_
    refine hx.checkLanes.stall.ite ?_
    exact hx.checkLanes.sendBlocking.ite (hx.checkLanes.performAtom (fun _ hx1 => hx1.remoteWrites))

protected theorem Canonical.execAtom (h : Canonical s) {o a b c} : NextCanonical (execAtom o a b c s) := h.atomOp
protected theorem Canonical.execAtomr (h : Canonical s) {o d a b c} : NextCanonical (execAtomr o d a b c s) := h.atomOp
protected theorem Canonical.execCas (h : Canonical s) {d a b c} : NextCanonical (execCas d a b c s) := h.atomOp

protected theorem Canonical.prefLine (h : Canonical s) {pol a} : Canonical (prefLine s pol a) := by
  unfold prefLine
  dsimp only
  split
  · split
    · exact h
    · exact h.useL2.ite h.useL2.l1Fill
  · exact h

protected theorem Canonical.execPref (h : Canonical s) {a c} : NextCanonical (execPref a c s) :=
  h.checkedState (fun _ hx => hx.trapWave.ite (hx.foldl (fun _ _ hx1 => hx1.prefLine.ite hx1)).retireWave)

/-- What a line of a pinned range is translated to, or the fault that it takes. -/
def pinnedLine (s : State) (va : Nat) : Tr × State :=
  match rangeWindow s va 128 with
  | .ok (.global g) => waveTranslate s g .read
  | .ok w => (.fail (pinCause s w), s)
  | .error c => (.fail c, s)

theorem canonical_pinnedLine (h : Canonical s) {va} : Canonical (pinnedLine s va).2 := by
  unfold pinnedLine
  split
  · exact h.waveTranslate
  · exact h
  · exact h

theorem pinLines_cons (s : State) (va : Nat) (rest : List Nat) : pinLines (va :: rest) s =
    match pinnedLine s va with
    | (.fail c, t) => (.fail c va, t)
    | (.held, t) => (.held, t)
    | (.ok pa, t) =>
      match pinLines rest t with
      | (.ok l, u) => (.ok (pa / 128 :: l), u)
      | x => x := rfl

protected theorem Canonical.pinLines {l} (h : Canonical s) : Canonical (pinLines l s).2 := by
  induction l generalizing s with
  | nil => exact h
  | cons va rest ih =>
    have hline := canonical_pinnedLine h (va := va)
    rw [pinLines_cons]
    split
    · exact hline.of_snd ‹_›
    · exact hline.of_snd ‹_›
    · have hrest := ih (hline.of_snd ‹_›)
      split
      · exact hrest.of_snd ‹_›
      · exact hrest

protected theorem Canonical.pinLine (h : Canonical s) {d line} : Canonical (pinLine s d line) := h.useL2

protected theorem Canonical.execPin (h : Canonical s) {a b} : NextCanonical (execPin a b s) := by
  unfold execPin
  dsimp only
  refine .ite (.next h.retireWave) ?_
  refine .ite (.next h.trapWave) ?_
  split
  · exact .next (h.pinLines.of_snd ‹_›).trapValue
  · exact .next (h.pinLines.of_snd ‹_›).holdWave
  · have ht := h.pinLines.of_snd ‹_›
    refine .ite (.next ht.trapWave) ?_
    exact .next (ht.onGang.foldl (fun _ _ hx => hx.pinLine)).retireWave

protected theorem Canonical.execUnpin (h : Canonical s) {a b} : NextCanonical (execUnpin a b s) := .next h.onGang.retireWave

protected theorem Canonical.execFence (h : Canonical s) {x o} : NextCanonical (execFence x o s) :=
  .ite (.next h.stall) (.ite (.next h.retireWave) (.next (h.acquire.ite h.groupAcquire).retireWave))

protected theorem Canonical.execWaitp (h : Canonical s) {p a} : NextCanonical (execWaitp p a s) :=
  .ite (.next h.retireWave) (.next h.stall)

/-! ### The moves of a copy -/

protected theorem Canonical.localRead (h : Canonical s) {who a n v} : Canonical (localRead s who a n v).2 := by
  unfold localRead
  dsimp only
  split
  · exact h
  · split
    · exact h
    · exact h
  · exact h
  · split
    · split
      · exact h.transPages.of_snd ‹_›
      · exact (h.transPages.of_snd ‹_›).useLines
    · exact h.transPages.of_snd ‹_›
    · exact h.transPages.of_snd ‹_›
  · exact h

protected theorem Canonical.readItem (h : Canonical s) {o i a n v} : Canonical (readItem s o i a n v).2 := by
  unfold readItem
  split
  · exact h
  · exact h.localRead

protected theorem Canonical.readRow (h : Canonical s) {o x r a v} : Canonical (readRow s o x r a v).2 := by
  unfold readRow
  split
  · exact h
  · split
    · split
      · exact (h.readItem.of_snd ‹_›).readItem.of_snd ‹_›
      · exact (h.readItem.of_snd ‹_›).readItem
    · exact h.readItem

protected theorem Canonical.putUnits {o l va us} {m : Moving} (h : Canonical m.s) : Canonical (putUnits o l va us m).s := by
  induction us generalizing m with
  | nil => exact h
  | cons u us ih =>
    unfold putUnits
    simp only
    split
    · exact h
    · exact ih (h.opStore.of_done ‹_›)

protected theorem Canonical.writeRow {o x r bytes d} {m : Moving} (h : Canonical m.s) : Canonical (writeRow o x r bytes m d).s := by
  unfold writeRow
  dsimp only
  split
  · exact h
  · split
    · split
      · exact h
      · split
        · exact h
        · exact h.opSpad
    · split
      · exact h.transPages.of_snd ‹_›
      · exact h.transPages.of_snd ‹_›
      · split
        · exact h.transPages.of_snd ‹_›
        · split
          · split
            · exact h.transPages.of_snd ‹_›
            · exact (h.transPages.of_snd ‹_›).putUnits
          · split
            · exact h.transPages.of_snd ‹_›
            · exact (h.transPages.of_snd ‹_›).putUnits
    · exact h
    · exact h

protected theorem Canonical.moveRow {o x r} {m : Moving} (h : Canonical m.s) : Canonical (moveRow o x m r).s := by
  unfold moveRow
  dsimp only
  split
  · exact h
  · split
    · exact h
    · split
      · exact h.readRow.of_snd ‹_›
      · exact Canonical.foldl_by Moving.s (h.readRow.of_snd ‹_›) (fun _ _ hx => hx.writeRow)

protected theorem Canonical.moveAll (h : Canonical s) {o} : Canonical (moveAll s o).s :=
  Canonical.foldl_by Moving.s h (fun _ _ hx => hx.moveRow)

protected theorem Canonical.askRows (h : Canonical s) {o} : Canonical (askRows s o) := h.sendRequests
protected theorem Canonical.deferCopy (h : Canonical s) {o rows} : Canonical (deferCopy s o rows) := h.onTask

protected theorem Canonical.performMoves (h : Canonical s) {o} : AfterMoveCanonical (performMoves s o) := by
  unfold performMoves
  dsimp only
  split
  · exact .full
  · split
    · exact .goes h.moveAll.engineRecords
    · split
      · exact .deferred h.moveAll.engineRecords.deferCopy
      · exact .goes h.moveAll.engineRecords.sendRequests

protected theorem Canonical.localSignal (h : Canonical s) {o v} : Canonical (localSignal s o v) := by
  unfold localSignal
  split
  · exact h.ite h.completeAt
  · exact h.ite h.completeAt
  · exact h

protected theorem Canonical.finishCopy (h : Canonical s) {o err} : Canonical (finishCopy s o err) := by
  unfold finishCopy
  dsimp only
  split
  · exact h
  · exact h.localSignal.ite h.localSignal.completeAt

protected theorem Canonical.answerCopy (h : Canonical s) {o x} : Canonical (answerCopy s o x).2 := by
  unfold answerCopy
  dsimp only
  split
  · exact h
  · exact h.engineRecords

/-! ### Copy instructions -/

protected theorem Canonical.execShape (h : Canonical s) {d a b e} : NextCanonical (execShape d a b e s) := by
  unfold execShape
  dsimp only
  split
  · exact .next h.trapWave
  · exact .next h.onRegs

protected theorem Canonical.copyIssue (h : Canonical s) {o} : Canonical (copyIssue s o) := by
  unfold copyIssue
  dsimp only
  split
  · exact h.trapValue
  · exact h.stall.ite h.onDie.onWave.retireWave

protected theorem Canonical.execCpy (h : Canonical s) {a src} : NextCanonical (execCpy a src s) := by
  unfold execCpy
  dsimp only
  split
  · exact .next h.copyIssue
  · exact h.checkedState (fun _ hx => hx.copyIssue)

protected theorem Canonical.execCpym (h : Canonical s) {a mask} : NextCanonical (execCpym a mask s) := .next h.copyIssue
protected theorem Canonical.execCpydq (h : Canonical s) {a} : NextCanonical (execCpydq a s) := .next h.copyIssue
protected theorem Canonical.execPuts (h : Canonical s) {a rsig} : NextCanonical (execPuts a rsig s) := .next h.copyIssue
protected theorem Canonical.execGet (h : Canonical s) {a} : NextCanonical (execGet a s) := .next h.copyIssue

protected theorem Canonical.execRadd (h : Canonical s) {a rsig} : NextCanonical (execRadd a rsig s) :=
  .ite (.next h.trapWave) (.next h.copyIssue)

protected theorem Canonical.execCopyAccept (h : Canonical s) {cl} : NextCanonical (execCopyAccept cl s) := by
  unfold execCopyAccept
  dsimp only
  split
  · exact .next h
  · exact .ite (.next h.stopEngine) (.next h.update.onDie.onToken.settleObjs)

protected theorem Canonical.replaceCopy (h : Canonical s) {d o new} : Canonical (replaceCopy s d o new) := h.onDie

protected theorem Canonical.execCopyComplete (h : Canonical s) {cl i} : NextCanonical (execCopyComplete cl i s) := by
  unfold execCopyComplete
  dsimp only
  split
  · exact .next h
  · split
    · exact .next h
    · exact .next h
    · exact .next h.askRows.replaceCopy
    · exact .next h.replaceCopy.finishCopy.settleObjs
    · refine .ite (.next h.dataLost) ?_
      split
      · exact .next h.versionFullFor
      · exact .next (h.performMoves.of_deferred ‹_›).replaceCopy
      · exact .next (h.performMoves.of_goes ‹_›).replaceCopy

end

end Sys2Proof
end

section
/-!
SUPPORT. The canonical form of global memory is kept by channels (R353 to R360), the start and the end of waves (R33, R208) and commits (R428).
-/

namespace Sys2Proof

open Sys2Proof.Machine

section
variable {s t : State}

/-! ### Channels -/

protected theorem Canonical.onChain (h : Canonical s) {x f} : Canonical (onChain s x f) := by
  unfold onChain
  split
  · exact h.onChan
  · exact h.onPart

protected theorem Canonical.reportCommand (h : Canonical s) {p a c} : Canonical (reportCommand s p a c) := h.report

protected theorem Canonical.unreachable (h : Canonical s) {x a c} : Canonical (unreachable s x a c) := by
  unfold unreachable
  dsimp only
  split
  · exact h.onChain.reportCommand
  · exact h.onChain

protected theorem Canonical.acceptRecord (h : Canonical s) {x a pa who} : Canonical (acceptRecord s x a pa who) :=
  h.acceptWord.update.onChain.settleObjs

protected theorem Canonical.admitRecord (h : Canonical s) {x a pa who} : Canonical (admitRecord s x a pa who) := by
  unfold admitRecord
  split
  · exact h.acceptRecord
  · exact h.acceptRecord
  · exact h.onChain
  · exact h.onChain.stopEngine

protected theorem Canonical.examineWith (h : Canonical s) {x idle} : Canonical (examineWith s x idle) := by
  unfold examineWith
  dsimp only
  split
  · exact h.unreachable
  · refine h.unreachable.ite ?_
    split
    · exact (h.translate.of_snd ‹_›).unreachable
    · exact (h.translate.of_snd ‹_›).unreachable
    · refine (h.translate.of_snd ‹_›).unreachable.ite ?_
      split
      · exact (h.translate.of_snd ‹_›).onChain
      · exact (h.translate.of_snd ‹_›).admitRecord
      · exact (h.translate.of_snd ‹_›).onChain

protected theorem Canonical.examine (h : Canonical s) {x} : Canonical (examine s x) := h.examineWith
protected theorem Canonical.pollAgain (h : Canonical s) {x} : Canonical (pollAgain s x) := h.examine.ite h.examineWith

protected theorem Canonical.kickChain (h : Canonical s) {x head who} : Canonical (kickChain s x head who) :=
  h.onChain.ite (h.onChain.ite (h.onChain.ite h.onChain.examine))

protected theorem Canonical.appendChain (h : Canonical s) {x a who} : Canonical (appendChain s x a who) := by
  unfold appendChain
  dsimp only
  refine h.onChain.examine.ite ?_
  split
  · exact (h.translate.of_snd ‹_›).deviceWrite.onChain
  · exact (h.translate.of_snd ‹_›).onChain

protected theorem Canonical.nextRecord (h : Canonical s) {x r} : Canonical (nextRecord s x r) := by
  unfold nextRecord
  exact h.onChain.ite h.onChain.examine

protected theorem Canonical.returnRecord (h : Canonical s) {r status} : Canonical (returnRecord s r status) := h.statusAt.update

protected theorem Canonical.dropEngineWait (h : Canonical s) {agent} : Canonical (dropEngineWait s agent) :=
  h.update.sweepObjs.settlePrio.ite h

protected theorem Canonical.registerEngine (h : Canonical s) {d agent who key kind} :
    EngineRegCanonical (registerEngine s d agent who key kind) := by
  unfold registerEngine
  dsimp only
  split
  · exact .full
  · exact .host h.stopEngine
  · split
    · exact .waits (h.ensureObjBy.of_snd ‹_›).update.settlePrio
    · exact .waits (h.ensureObjBy.of_snd ‹_›).update.settlePrio
    · split
      · exact .waits (h.ensureObjBy.of_snd ‹_›).update.holdMembers.onPart.tellHost
      · exact .deadlock

protected theorem Canonical.execChkick (h : Canonical s) {ch a} : NextCanonical (execChkick ch a s) := by
  unfold execChkick
  dsimp only
  refine .ite (.next h.trapWave) ?_
  exact .ite (.next h.stall) (.ite (.next h.defer.retireWave) (.next h.kickChain.retireWave))

protected theorem Canonical.execChtail (h : Canonical s) {ch a} : NextCanonical (execChtail ch a s) := by
  unfold execChtail
  dsimp only
  refine .ite (.next h.trapWave) ?_
  refine .ite (.next h.stall) ?_
  split
  · exact .next (h.waveTranslate.of_snd ‹_›).trapValue
  · exact .next (h.waveTranslate.of_snd ‹_›).holdWave
  · have ht := h.waveTranslate.of_snd ‹_›
    refine .ite (.next ht.dataLost) ?_
    refine .ite (.next ht.trapWave) ?_
    refine .ite (.next ht.defer.retireWave) ?_
    exact .next ht.appendChain.retireWave

protected theorem Canonical.execChannelPoll (h : Canonical s) {d ch} : NextCanonical (execChannelPoll d ch s) :=
  .ite (.next h.pollAgain) (.next h)

protected theorem Canonical.endRecord (h : Canonical s) {d ch r o} : Canonical (endRecord s d ch r o) := by
  unfold endRecord
  exact (h.returnRecord.dropEngineWait.ite h.returnRecord.dropEngineWait.completeAt).nextRecord

protected theorem Canonical.onRecord (h : Canonical s) {d ch f} : Canonical (onRecord s d ch f) := h.onChan
protected theorem Canonical.acceptOp (h : Canonical s) {d ch} : Canonical (acceptOp s d ch) := h.update.onRecord

protected theorem Canonical.execRecordReturn (h : Canonical s) {d ch} : NextCanonical (execRecordReturn d ch s) := by
  unfold execRecordReturn
  split
  · exact .next h
  · split
    · exact .next h
    · exact .next h
    · exact .next h.acceptOp
    · exact .next h.askRows.onRecord
    · exact .next h.endRecord.settleObjs
    · refine .ite (.next h.onRecord) ?_
      split
      · exact .next h.versionFullFor
      · exact .next (h.performMoves.of_deferred ‹_›).onRecord
      · exact .next (h.performMoves.of_goes ‹_›).onRecord

protected theorem Canonical.stopRecord (h : Canonical s) {d ch c} : Canonical (stopRecord s d ch c) := h.dropEngineWait.onRecord

protected theorem Canonical.finishTile (h : Canonical s) {d ch r o} : Canonical (finishTile s d ch r o) := by
  unfold finishTile
  dsimp only
  refine Canonical.onRecord ?_
  split
  · exact h.engineArrives
  · exact h

protected theorem Canonical.execStreamTile (h : Canonical s) {d ch} : NextCanonical (execStreamTile d ch s) := by
  unfold execStreamTile
  dsimp only
  split
  · exact .next h
  · split
    · exact .next h
    · refine .ite (.next h) ?_
      split
      · exact .next h
      · exact .next h.stopRecord
      · exact .next h.acceptOp
      · split
        · exact .next (h.registerEngine.of_waits ‹_›)
        · exact .next (h.registerEngine.of_host ‹_›)
        · exact .next h.stopRecord
        · exact .next h
      · refine .ite (.next h.stopRecord) ?_
        split
        · exact .next h.versionFullFor
        · exact .next (h.dropEngineWait.performMoves.of_deferred ‹_›)
        · exact .next (h.dropEngineWait.performMoves.of_goes ‹_›).onRecord
      · exact .next h.finishTile

protected theorem Canonical.execHostChannelKick (h : Canonical s) {d ch head} : NextCanonical (execHostChannelKick d ch head s) :=
  .ite (.next h) (.ite (.next h.onChain.reportCommand) (.next h.kickChain))

/-! ### The end of a wave -/

protected theorem Canonical.recordPass (h : Canonical s) {t} : Canonical (recordPass s t) := h.onTask

protected theorem Canonical.releaseCores (h : Canonical s) {k} : Canonical (releaseCores s k) :=
  (h.foldl (fun _ _ hx => hx.onCore)).update.sweepObjs

protected theorem Canonical.markEnded (h : Canonical s) {t} : Canonical (markEnded s t) := h.onTask

protected theorem Canonical.idleGroup (h : Canonical s) {k i} : Canonical (idleGroup s k i) := by
  unfold idleGroup
  dsimp only
  split
  · exact h.onGroup.ensureObj.update
  · exact h

protected theorem Canonical.wakeGroup (h : Canonical s) {g} : Canonical (wakeGroup s g) := h.update.onGroup.sweepObjs

protected theorem Canonical.afterEnd (h : Canonical s) {w} : Canonical (afterEnd s w) := by
  unfold afterEnd
  split
  · exact h
  · exact h.markEnded.ite h

protected theorem Canonical.windowClosed (h : Canonical s) {w} : Canonical (windowClosed s w) := h.update

protected theorem Canonical.endWave (h : Canonical s) : Canonical (endWave s) :=
  h.onGroup.onTask.onWave.windowClosed.onCore.afterEnd.sweepObjs.settlePrio

/-! ### Wave start -/

protected theorem Canonical.startWave (h : Canonical s) {l v x g i slot} : Canonical (startWave s l v x g i slot) :=
  h.onCore.acquireStep.update.onDie

protected theorem Canonical.startWaves {l v x g i slots} (h : Canonical s) : Canonical (startWaves l v x g i slots s) := by
  induction slots generalizing s i with
  | nil => exact h
  | cons slot rest ih => exact ih h.startWave

/-! ### Commits -/

protected theorem Canonical.tellFar (h : Canonical s) {t} : OptCanonical (tellFar s t) :=
  OptCanonical.bind (fun _ => .ite .none (.some h.update.sendRequests))

protected theorem Canonical.commitBytes (h : Canonical s) {dep bytes} : Canonical (commitBytes s dep bytes) := by
  unfold commitBytes
  refine Canonical.update ?_
  exact Canonical.foldl_by Prod.fst h fun _ _ hx => hx.stampUnit

protected theorem Canonical.freeVersions (h : Canonical s) {grp} : Canonical (freeVersions s grp) := h.dropObserved.update.sweepObjs

protected theorem Canonical.resultWrites (h : Canonical s) {t} : Canonical (resultWrites s t).2 := by
  unfold resultWrites
  dsimp only
  split
  · exact h
  · split
    · exact h.transPages.of_snd ‹_›
    · exact (h.transPages.of_snd ‹_›).report
    · exact (h.transPages.of_snd ‹_›).report

protected theorem Canonical.allResults {ts} (h : Canonical s) : Canonical (allResults ts s).2 := by
  induction ts generalizing s with
  | nil => exact h
  | cons t rest ih => exact ih h.resultWrites

protected theorem Canonical.closePass (h : Canonical s) {t} : Canonical (closePass s t) := h.recordPass.ite h
protected theorem Canonical.evictLines (h : Canonical s) {l} : Canonical (evictLines s l) := h.onDie.onDie
protected theorem Canonical.emptyL1 (h : Canonical s) {c} : Canonical (emptyL1 s c) := h.spillLines.onCore

protected theorem Canonical.endPass (h : Canonical s) {t} : Canonical (endPass s t) := by
  unfold endPass
  exact (h.evictLines.foldl (fun _ _ hx => hx.emptyL1)).onTask.contain.onTask.onPart

protected theorem Canonical.lockstepMismatch (h : Canonical s) {t} : Canonical (lockstepMismatch s t) := by
  unfold lockstepMismatch
  exact h.update.onTask.report.contain

protected theorem Canonical.commitPost (h : Canonical s) {t addr} : OptCanonical (commitPost s t addr) := by
  unfold commitPost
  split
  · exact .some (h.devTranslate.of_snd ‹_›).markErr
  · refine .ite .none ?_
    split
    · exact .some ((h.devTranslate.of_snd ‹_›).acceptTask.of_ok ‹_›)
    · exact .some (h.devTranslate.of_snd ‹_›).markErr

protected theorem Canonical.commitLaunch (h : Canonical s) {t q addr} : OptCanonical (commitLaunch s t q addr) := by
  unfold commitLaunch
  split
  · exact .some (h.devTranslate.of_snd ‹_›).markErr
  · refine .ite .none ?_
    split
    · exact .some ((h.devTranslate.of_snd ‹_›).acceptLaunch.of_ok ‹_›)
    · exact .some (h.devTranslate.of_snd ‹_›).markErr

protected theorem Canonical.performDeferred (h : Canonical s) {t who x} : OptCanonical (performDeferred s t who x) := by
  unfold performDeferred
  dsimp only
  split
  · exact h.commitPost
  · exact h.commitLaunch
  · exact .some h.kickChain
  · split
    · exact .some (h.devTranslate.of_snd ‹_›).markErr
    · have ht := h.devTranslate.of_snd ‹_›
      refine .ite (.some ht.report.markErr) ?_
      exact .ite (.some ht.markErr) (.some ht.appendChain)
  · exact .some h.sendRequests.onTask
  · exact .some h.sendRequests.onDie

protected theorem Canonical.sendDeferred {t ops} (h : Canonical s) : Canonical (sendDeferred t ops s).2 := by
  induction ops generalizing s with
  | nil => exact h
  | cons x rest ih =>
    unfold sendDeferred
    split
    · exact h
    · exact ih (h.performDeferred.of_some ‹_›)

protected theorem Canonical.dropGang (h : Canonical s) {k} : Canonical (dropGang s k) := h.ite h.update
protected theorem Canonical.finishGang (h : Canonical s) {t} : Canonical (finishGang s t) := h.update.onLaunch.dropGang.checkLaunch

protected theorem Canonical.finishGroup (h : Canonical s) {t} : OptCanonical (finishGroup s t) := by
  unfold finishGroup
  dsimp only
  refine OptCanonical.map ?_ (fun _ hx => (hx.recordStatus.onPart.update.idleGroup.ite hx.recordStatus.onPart.update).dropGang)
  refine .ite (.some h) ?_
  split
  · exact (h.devTranslate.of_snd ‹_›).signalAt
  · exact .some (h.devTranslate.of_snd ‹_›).report.markErr

protected theorem Canonical.settleCommitted (h : Canonical s) {t} : Canonical (settleCommitted s t) := by
  unfold settleCommitted
  dsimp only
  split
  · refine Canonical.onTask ?_
    split
    · exact h.dropEngineWait.sendDeferred
    · exact h.dropEngineWait
  · refine Canonical.ite ?_ ?_
    · refine Canonical.onTask ?_
      split
      · exact h.dropEngineWait.sendDeferred
      · exact h.dropEngineWait
    · refine Canonical.ite ?_ ?_
      · refine Canonical.finishGang ?_
        refine Canonical.onTask ?_
        split
        · exact h.dropEngineWait.sendDeferred
        · exact h.dropEngineWait
      · refine OptCanonical.getD ?_ ?_
        · refine Canonical.finishGroup ?_
          refine Canonical.onTask ?_
          split
          · exact h.dropEngineWait.sendDeferred
          · exact h.dropEngineWait
        · refine Canonical.onTask ?_
          split
          · exact h.dropEngineWait.sendDeferred
          · exact h.dropEngineWait

protected theorem Canonical.commitTasks (h : Canonical s) {tasks} : Canonical (commitTasks s tasks) :=
  (h.allResults.commitBytes.freeVersions.foldl (fun _ _ hx => hx.onTask.onPart)).foldl (fun _ _ hx => (OptCanonical.choice
    (fun _ => hx.settleCommitted)).getD hx)

protected theorem Canonical.commitEnds (h : Canonical s) {t c} : Canonical (commitEnds s t c) :=
  h.dropEngineWait.report.contain.ite h.dropEngineWait.report.markErr.onTask

protected theorem Canonical.registerStep (h : Canonical s) {t} {r : EngineReg} (hr : EngineRegCanonical r) :
    Canonical (registerStep s t r) := by
  unfold registerStep
  split
  · exact hr.of_waits rfl
  · exact hr.of_host rfl
  · exact h.commitEnds
  · exact h

protected theorem Canonical.leaveStep (h : Canonical s) {t} : Canonical (leaveStep s t) := by
  unfold leaveStep
  dsimp only
  split
  · exact h.closePass.releaseCores
  · exact h.closePass.idleGroup

protected theorem Canonical.commitReady (h : Canonical s) {tasks} : Canonical (commitReady s tasks) := by
  unfold commitReady
  dsimp only
  split
  · exact h.lockstepMismatch
  · split
    · exact (h.foldl (fun _ _ hx => hx.closePass)).endPass
    · exact (h.foldl (fun _ _ hx => hx.closePass)).commitTasks

theorem canonical_commitRegister (h : Canonical s) {t r} (e : commitRegister s t = some r) : EngineRegCanonical r := by
  unfold commitRegister at e
  split at e
  · cases e
  · split at e
    · cases e
    · split at e
      · cases e
      · cases e
        exact h.registerEngine

protected theorem Canonical.commitStep (h : Canonical s) {t} : Canonical (commitStep s t) := by
  unfold commitStep
  split
  · exact h.settleCommitted
  · split
    · exact h.leaveStep
    · split
      · rename_i u _ e
        split at e
        · cases e
        · exact h.tellFar.of_some e
      · exact h.commitReady
      · split
        · exact h.registerStep (canonical_commitRegister h ‹_›)
        · exact h

protected theorem Canonical.execTaskCommit (h : Canonical s) {tid} : NextCanonical (execTaskCommit tid s) := by
  unfold execTaskCommit
  split
  · exact .next h.commitStep
  · exact .next h

protected theorem Canonical.leaveGroup (h : Canonical s) {g} : Canonical (leaveGroup s g) := by
  unfold leaveGroup
  dsimp only
  refine Canonical.ite ?_ h.wakeGroup.onGroup
  split
  · exact h.wakeGroup.onGroup.markEnded
  · exact h.wakeGroup.onGroup

protected theorem Canonical.observeStart (h : Canonical s) {t e} : ObserveCanonical (observeStart s t e) := h.linkTasks
protected theorem Canonical.tellLimit (h : Canonical s) {p q e} : OptCanonical (tellLimit s p q e) := .ite .none (.some h.onPart.report)

protected theorem Canonical.takeStep (h : Canonical s) {p q} : OptCanonical (takeStep s p q) := by
  unfold takeStep
  dsimp only
  split
  · split
    · exact .none
    · refine .ite .none ?_
      refine .ite (.some h.update.onPart.leaveGroup) ?_
      split
      · exact .some (h.update.onPart.observeStart.of_ok ‹_›).wakeGroup.onGroup.startWaves.settlePrio
      · exact h.tellLimit
      · exact .none
  · exact .none

protected theorem Canonical.execTaskTake (h : Canonical s) {p q} : NextCanonical (execTaskTake p q s) := .next (h.takeStep.getD h)

end

end Sys2Proof
end

section
/-!
SUPPORT. The canonical form of global memory is kept by control, counter and cross-lane instructions and by the wait-table instructions (R188 to R209, R327 to R337, R401 to R407).
-/

namespace Sys2Proof

open Sys2Proof.Machine

section
variable {s t : State}

/-! ### Control instructions -/

protected theorem Canonical.execNop (h : Canonical s) : NextCanonical (execNop s) := .next h.retireWave

protected theorem Canonical.endRemoteErr (h : Canonical s) {e} : Canonical (endRemoteErr s e) := by
  unfold endRemoteErr
  exact h.report.contain

protected theorem Canonical.execEndW (h : Canonical s) : NextCanonical (execEndW s) := by
  unfold execEndW
  refine .ite (.next h.stall) ?_
  split
  · exact .next h.endWave
  · exact .next h.endRemoteErr

protected theorem Canonical.execYieldW (h : Canonical s) : NextCanonical (execYieldW s) := .next h.retireWave.onWave
protected theorem Canonical.execJmp (h : Canonical s) {o} : NextCanonical (execJmp o s) := .next h.transferTo
protected theorem Canonical.execJmpk (h : Canonical s) {a} : NextCanonical (execJmpk a s) := .next (h.trapWave.ite h.transferTo)

protected theorem Canonical.execCall (h : Canonical s) {o} : NextCanonical (execCall o s) :=
  .ite (.next h.trapWave) (.next h.onRegs.transferTo)

protected theorem Canonical.execRet (h : Canonical s) : NextCanonical (execRet s) := by
  unfold execRet
  split
  · exact .next h.trapWave
  · exact .next h.onRegs.transferTo

protected theorem Canonical.branchIf (h : Canonical s) {o taken} : NextCanonical (branchIf s o taken) :=
  .next (h.transferTo.ite h.retireWave)

protected theorem Canonical.execBrany (h : Canonical s) {c o} : NextCanonical (execBrany c o s) := h.branchIf
protected theorem Canonical.execBrall (h : Canonical s) {c o} : NextCanonical (execBrall c o s) := h.branchIf
protected theorem Canonical.execBrnone (h : Canonical s) {c o} : NextCanonical (execBrnone c o s) := h.branchIf
protected theorem Canonical.setExec (h : Canonical s) {x} : Canonical (setExec s x) := h.onRegs.digestEvent

protected theorem Canonical.execIfp (h : Canonical s) {c o} : NextCanonical (execIfp c o s) := by
  unfold execIfp
  dsimp only
  split
  · exact h.onRegs.setExec.branchIf
  · exact .next h.trapWave

protected theorem Canonical.execElsep (h : Canonical s) {o} : NextCanonical (execElsep o s) := .ite (.next h.trapWave) h.setExec.branchIf
protected theorem Canonical.execEndifp (h : Canonical s) : NextCanonical (execEndifp s) := .ite (.next h.trapWave) (.next h.onRegs)

protected theorem Canonical.execBreakp (h : Canonical s) {c o} : NextCanonical (execBreakp c o s) :=
  .ite (.next h.trapWave) (.ite h.onRegs.setExec.branchIf h.setExec.branchIf)

protected theorem Canonical.execExecrd (h : Canonical s) {d held} : NextCanonical (execExecrd d held s) := h.checked

protected theorem Canonical.execExecwr (h : Canonical s) {a held} : NextCanonical (execExecwr a held s) :=
  h.checkedState (fun _ hx => hx.onRegs.setExec)

protected theorem Canonical.execSetMode (h : Canonical s) {m} : NextCanonical (execSetMode m s) := .next h.onRegs
protected theorem Canonical.execModek (h : Canonical s) {a} : NextCanonical (execModek a s) := .next (h.onRegs.ite h.trapWave)
protected theorem Canonical.execLit (h : Canonical s) {d w} : NextCanonical (execLit d w s) := h.checked
protected theorem Canonical.execLith (h : Canonical s) {d w} : NextCanonical (execLith d w s) := h.checked
protected theorem Canonical.execGetsr (h : Canonical s) {d x held} : NextCanonical (execGetsr d x held s) := h.checked

protected theorem Canonical.execSetsr (h : Canonical s) {x a} : NextCanonical (execSetsr x a s) :=
  .ite (.next (h.onRegs.settlePrio.ite h.onRegs)) (.next h.trapWave)

protected theorem Canonical.execTrap (h : Canonical s) {n a} : NextCanonical (execTrap n a s) :=
  h.checkedState (fun _ hx => hx.retireWave.trapEntry.onRegs.ite hx.retireWave.trapEntry)

protected theorem Canonical.execEret (h : Canonical s) : NextCanonical (execEret s) := .next h.trapReturn

protected theorem Canonical.execIllegalInstr (h : Canonical s) {w} : NextCanonical (execIllegalInstr w s) := by
  unfold execIllegalInstr
  split
  · exact .next h
  · exact .next h.trapEntry

protected theorem Canonical.execNopreempt (h : Canonical s) : NextCanonical (execNopreempt s) := .next h.retireWave.onWave
protected theorem Canonical.execPreemptok (h : Canonical s) : NextCanonical (execPreemptok s) := .next h.windowClosed.retireWave.onWave

protected theorem Canonical.execPhase (h : Canonical s) : NextCanonical (execPhase s) := by
  unfold execPhase
  dsimp only
  split
  · exact .next h.trapWave
  · split
    · exact .next h.trapWave
    · split
      · exact .next h.trapWave
      · exact .next h.onRegs.jumpTo

/-! ### Implicit waits and words -/

protected theorem Canonical.leaveWait (h : Canonical s) : Canonical (leaveWait s) := h.endWait.ite h

protected theorem Canonical.trapDeadlock (h : Canonical s) {records} : Canonical (trapDeadlock s records) :=
  h.onWave.trapEntry.sweepObjs.settlePrio

protected theorem Canonical.roomed (h : Canonical s) {r : Room × State} {k : State → State} (hr : Canonical r.2)
    (hk : ∀ t, Canonical t → Canonical (k t)) : Canonical (roomed s r k) := by
  unfold roomed
  split
  · exact h.trapWave
  · exact h.holdWave
  · exact hk _ hr

protected theorem Canonical.updatedClk (h : Canonical s) {pa n} : Canonical (updatedClk s pa n) := h.onWave

protected theorem Canonical.registered (h : Canonical s) {r : Reg} {k : State → State} (hr : RegCanonical r)
    (hk : ∀ t, Canonical t → Canonical (k t)) : Canonical (registered s r k) := by
  unfold registered
  split
  · exact hk _ (hr.of_ok rfl)
  · exact (hr.of_deadlock rfl).trapDeadlock
  · exact h.trapWave
  · exact hr.of_host rfl
  · exact hr.of_member rfl

protected theorem RegCanonical.markReg {r : Reg} {f : State → State} (h : RegCanonical r) (hf : ∀ t, Canonical t → Canonical (f t)) :
    RegCanonical (markReg f r) := by
  unfold markReg
  split
  · exact .ok (hf _ (h.of_ok rfl))
  · exact .member (hf _ (h.of_member rfl))
  · exact h

protected theorem Canonical.await (h : Canonical s) {key kind what remote} : Canonical (await s key kind what remote) :=
  h.stall.ite (h.registered h.registerWait (fun _ hx => hx.stall))

protected theorem Canonical.join (h : Canonical s) {v} : Canonical (join s v) := h.onWave.acquire

protected theorem Canonical.checkWord (h : Canonical s) {a n u} : Canonical (checkWord s a n u).2 := by
  unfold checkWord
  split
  · exact h
  · split
    · exact h
    · split
      · exact h
      · split
        · exact h
        · split
          · exact h
          · exact h
  · split
    · exact h
    · split
      · exact h
      · split
        · exact h.waveTranslate.of_snd ‹_›
        · exact h.waveTranslate.of_snd ‹_›
        · split
          · exact h.waveTranslate.of_snd ‹_›
          · split
            · exact h.waveTranslate.of_snd ‹_›
            · exact h.waveTranslate.of_snd ‹_›
  · exact h

protected theorem Canonical.withWord (h : Canonical s) {a n u} {k : Place → State → State} (hk : ∀ p t, Canonical t → Canonical (k p t)) :
    NextCanonical (withWord s a n u k) := by
  unfold withWord
  split
  · exact .next (h.checkWord.of_snd ‹_›).trapValue
  · exact .next (h.checkWord.of_snd ‹_›).holdWave
  · exact .next (hk _ _ (h.checkWord.of_snd ‹_›))

/-! ### Barrier and counter instructions -/

protected theorem Canonical.withBar (h : Canonical s) {a} {k : Group → Nat → State → State} (hk :
    ∀ g n t, Canonical t → Canonical (k g n t)) :
    NextCanonical (withBar s a k) := by
  unfold withBar
  refine h.withWord fun x t hx => ?_
  split
  · split
    · exact hk _ _ _ hx
    · exact hx.trapWave
  · exact hx.trapWave

protected theorem Canonical.execBarinit (h : Canonical s) {a b} : NextCanonical (execBarinit a b s) :=
  h.withBar (fun _ _ _ hx => hx.trapWave.ite (hx.roomed hx.ensureObj (fun _ hx1 => hx1.spadWrite.onGroup.retireWave)))

protected theorem Canonical.execBararr (h : Canonical s) {a b} : NextCanonical (execBararr a b s) :=
  h.withBar (fun _ _ _ hx => hx.trapWave.ite (hx.trapWave.ite (hx.stall.ite hx.arriveAt.onWave.retireWave)))

protected theorem Canonical.finishJoin (h : Canonical s) {v err} : Canonical (finishJoin s v err) := h.leaveWait.join.onRegs

protected theorem Canonical.execBarwait (h : Canonical s) {a b} : NextCanonical (execBarwait a b s) :=
  h.withBar (fun _ _ _ hx => hx.trapWave.ite (hx.finishJoin.ite hx.await))

protected theorem Canonical.execBarfree (h : Canonical s) {a} : NextCanonical (execBarfree a s) :=
  h.withBar (fun _ _ _ hx => hx.trapWave.ite (hx.await.ite (hx.leaveWait.trapWave.ite hx.leaveWait.onGroup.sweepObjs.retireWave)))

protected theorem Canonical.withCount (h : Canonical s) {a n u} {k : Nat → Nat → State → State}
    (hk : ∀ pa va t, Canonical t → Canonical (k pa va t)) : NextCanonical (withCount s a n u k) := by
  unfold withCount
  refine h.withWord fun x t hx => ?_
  split
  · exact hk _ _ _ hx
  · exact hx.trapWave

protected theorem Canonical.escaped (h : Canonical s) {pa} : Canonical (escaped s pa) :=
  (h.tagLine.countEvent.ite h).updatedClk.onWave.retireWave

protected theorem Canonical.awaitTaskRoom (h : Canonical s) {task} : Canonical (awaitTaskRoom s task) := by
  unfold awaitTaskRoom
  split
  · exact h.await
  · exact h.stall

protected theorem Canonical.awaitSignal (h : Canonical s) {pa task} : Canonical (awaitSignal s pa task) := h.await.ite h.awaitTaskRoom

protected theorem Canonical.cntUpdate (h : Canonical s) {a pa} {f : State → Option State} (hf : ∀ t, Canonical t → OptCanonical (f t)) :
    Canonical (cntUpdate s a pa f) := by
  unfold cntUpdate
  refine h.stall.ite ?_
  refine h.observing h.trapValue fun t hx => ?_
  split
  · exact h.awaitSignal
  · exact ((hf _ hx).of_some ‹_›).leaveWait.escaped

protected theorem Canonical.cntAddBy (h : Canonical s) {a b f} : NextCanonical (cntAddBy s a b f) :=
  h.withCount (fun _ _ _ hx => hx.trapWave.ite (hx.cntUpdate (fun _ hx1 => .some hx1.counterWrite)))

protected theorem Canonical.execCntadd (h : Canonical s) {a b} : NextCanonical (execCntadd a b s) := h.cntAddBy
protected theorem Canonical.execCntaddMax (h : Canonical s) {a b} : NextCanonical (execCntaddMax a b s) := h.cntAddBy

protected theorem Canonical.gangSignal (h : Canonical s) {pa} : OptCanonical (gangSignal s pa) := by
  unfold gangSignal
  dsimp only
  split
  · exact .none
  · have ht := (h.writerLine.ite h).signalAt.of_some ‹_›
    refine .ite (.some ht) ?_
    exact .some ht.update

protected theorem Canonical.execCntaddSignal (h : Canonical s) {a} : NextCanonical (execCntaddSignal a s) :=
  h.withCount (fun _ _ _ hx => hx.cntUpdate (fun _ hx1 => hx1.gangSignal))

protected theorem Canonical.execCntwait (h : Canonical s) {a b} : NextCanonical (execCntwait a b s) := by
  unfold execCntwait
  dsimp only
  refine h.withCount fun x x1 t hx => ?_
  refine ((hx.ite hx.writerLine).observing (hx.ite hx.writerLine).leaveWait.trapValue (fun _ hx1 => hx1.finishJoin)).ite ?_
  exact (hx.ite hx.writerLine).await

protected theorem Canonical.armCounter (h : Canonical s) {pa c t} : OptCanonical (armCounter s pa c t) := by
  unfold armCounter
  dsimp only
  refine .ite (.ite (.some h.pendDrop.writerLine.waveStamp.update) h.pendDrop.writerLine.waveStamp.update.firePost) ?_
  exact .some h.pendDrop.writerLine.waveStamp

protected theorem Canonical.execCntarm (h : Canonical s) {a b} : NextCanonical (execCntarm a b s) := by
  unfold execCntarm
  dsimp only
  refine h.withCount fun x x1 t hx => ?_
  refine hx.trapWave.ite ?_
  refine hx.stall.ite ?_
  split
  · exact hx.awaitTaskRoom
  · exact (hx.armCounter.of_some ‹_›).leaveWait.retireWave

protected theorem Canonical.execPmsel (h : Canonical s) {c a} : NextCanonical (execPmsel c a s) :=
  .ite (.next h.trapWave) (.ite (.next h.trapWave) (.next h.onCore.retireWave))

protected theorem Canonical.execPmrd (h : Canonical s) {d a held} : NextCanonical (execPmrd d a held s) :=
  h.checkedState (fun _ hx => hx.trapWave.ite hx.onRegs)

protected theorem Canonical.startPass (h : Canonical s) {k} : Canonical (startPass s k) := by
  unfold startPass
  dsimp only
  split
  · exact h
  · exact (h.foldl (fun _ _ hx => hx.onCore)).onTask

protected theorem Canonical.execPmreplay (h : Canonical s) {a} : NextCanonical (execPmreplay a s) := by
  unfold execPmreplay
  dsimp only
  refine .ite (.next h.trapWave) ?_
  refine .ite (.next h.trapWave) ?_
  split
  · exact .next (h.ite h.startPass).retireWave
  · exact h.withCount (fun _ _ _ hx => hx.stall.ite (hx.trapWave.ite hx.onWave.onTask.startPass.retireWave))

/-! ### Votes, reductions and uniform instructions -/

protected theorem Canonical.permute (h : Canonical s) {d a b held own f} : NextCanonical (permute s d a b held own f) := h.checked
protected theorem Canonical.execShfl (h : Canonical s) {d a b held} : NextCanonical (execShfl d a b held s) := h.permute
protected theorem Canonical.execBfly (h : Canonical s) {d a b held} : NextCanonical (execBfly d a b held s) := h.permute
protected theorem Canonical.execLrot (h : Canonical s) {d a b held} : NextCanonical (execLrot d a b held s) := h.permute
protected theorem Canonical.execBcast (h : Canonical s) {d a b held} : NextCanonical (execBcast d a b held s) := h.permute
protected theorem Canonical.execVote (h : Canonical s) {d a o held} : NextCanonical (execVote d a o held s) := h.laneOneBy

protected theorem Canonical.execLreduce (h : Canonical s) {d a o held} : NextCanonical (execLreduce d a o held s) := by
  unfold execLreduce
  exact h.laneOneBy

protected theorem Canonical.execLscan (h : Canonical s) {d a o held} : NextCanonical (execLscan d a o held s) := by
  unfold execLscan
  exact h.laneOneBy

protected theorem Canonical.uniform (h : Canonical s) {d a y f} : NextCanonical (uniform s d a y f) := .next h.onRegs
protected theorem Canonical.execKmov (h : Canonical s) {d y} : NextCanonical (execKmov d y s) := .next h.onRegs
protected theorem Canonical.execKadd (h : Canonical s) {d a y} : NextCanonical (execKadd d a y s) := h.uniform
protected theorem Canonical.execKsub (h : Canonical s) {d a y} : NextCanonical (execKsub d a y s) := h.uniform
protected theorem Canonical.execKmul (h : Canonical s) {d a y} : NextCanonical (execKmul d a y s) := h.uniform
protected theorem Canonical.execKand (h : Canonical s) {d a y} : NextCanonical (execKand d a y s) := h.uniform
protected theorem Canonical.execKor (h : Canonical s) {d a y} : NextCanonical (execKor d a y s) := h.uniform
protected theorem Canonical.execKxor (h : Canonical s) {d a y} : NextCanonical (execKxor d a y s) := h.uniform
protected theorem Canonical.execKshl (h : Canonical s) {d a y} : NextCanonical (execKshl d a y s) := h.uniform
protected theorem Canonical.execKshr (h : Canonical s) {d a y} : NextCanonical (execKshr d a y s) := h.uniform
protected theorem Canonical.execKcmp (h : Canonical s) {d a y c} : NextCanonical (execKcmp d a y c s) := h.uniform
protected theorem Canonical.execKread (h : Canonical s) {d a l w64} : NextCanonical (execKread d a l w64 s) := h.checked
protected theorem Canonical.execKlit (h : Canonical s) {d i} : NextCanonical (execKlit d i s) := .next h.onRegs

/-! ### Wait-table instructions -/

protected theorem Canonical.withObject (h : Canonical s) {a} {k : ObjKey → Bool → State} (hk : ∀ x b, Canonical (k x b)) :
    NextCanonical (withObject s a k) := by
  unfold withObject
  dsimp only
  split
  · exact .next h.trapValue
  · exact .next (hk _ _)

protected theorem Canonical.execWregWait (h : Canonical s) {a} : NextCanonical (execWregWait a s) :=
  h.withObject (fun _ _ => h.registered h.registerWait (fun _ hx => hx.sweepObjs.settlePrio.retireWave))

protected theorem Canonical.execWregHold (h : Canonical s) {a} : NextCanonical (execWregHold a s) :=
  h.withObject (fun _ _ => h.roomed h.addLink (fun _ hx => hx.settlePrio.retireWave))

protected theorem Canonical.execWderegWait (h : Canonical s) : NextCanonical (execWderegWait s) := .next (h.ite h.endWait).retireWave

protected theorem Canonical.execWderegHold (h : Canonical s) {a} : NextCanonical (execWderegHold a s) :=
  h.withObject (fun _ _ => h.dropLink.settlePrio.retireWave)

protected theorem Canonical.execWprio (h : Canonical s) {a b} : NextCanonical (execWprio a b s) :=
  h.withObject (fun _ _ => h.roomed h.ensureObj (fun _ hx => hx.update.sweepObjs.settlePrio.retireWave))

protected theorem Canonical.execWquery (h : Canonical s) {d a b held} : NextCanonical (execWquery d a b held s) :=
  h.checkedState (fun _ hx => hx.update.onRegs)

protected theorem Canonical.locWrite (h : Canonical s) {l x} : Canonical (locWrite s l x) := by
  unfold locWrite
  split
  · exact h.writerLine.waveStamp
  · exact h.spadWrite

protected theorem Canonical.locUpdated (h : Canonical s) {l} : Canonical (locUpdated s l) := h.onWave

protected theorem Canonical.locEscapes (h : Canonical s) {l} : Canonical (locEscapes s l) := by
  unfold locEscapes
  split
  · exact h.tagLine.countEvent.ite h
  · exact h

protected theorem Canonical.withLock (h : Canonical s) {a} {k : WordLoc → ObjKey → State → State} (hk :
    ∀ x y t, Canonical t → Canonical (k x y t)) :
    NextCanonical (withLock s a k) := h.withWord (fun _ _ hx => hk _ _ _ hx)

protected theorem Canonical.acquired (h : Canonical s) {a l} {k : State → State} (hk : ∀ t, Canonical t → Canonical (k t)) :
    Canonical (acquired s a l k) := h.observing h.trapValue (fun _ hx => (hk _ hx.leaveWait.join).retireWave)

protected theorem Canonical.setWaiters (h : Canonical s) {l} : Canonical (setWaiters s l) := h.wordWrite

protected theorem Canonical.lockCycle (h : Canonical s) {l key members} : Canonical (lockCycle s l key members) :=
  h.roomed h.ensureObj (fun _ hx => hx.update.setWaiters.update.onWave.onPart.tellHost.ite hx.update.trapDeadlock)

protected theorem Canonical.lockWait (h : Canonical s) {l key owner} : Canonical (lockWait s l key owner) :=
  h.roomed h.addLink (fun _ hx => h.registered (hx.registerWait.markReg (fun _ hx1 => hx1.setWaiters)) (fun _ hx1 => hx1.stall))

protected theorem Canonical.execLock (h : Canonical s) {a} : NextCanonical (execLock a s) := by
  unfold execLock
  dsimp only
  refine h.withLock fun x x1 t hx => ?_
  refine (hx.acquired (fun _ hx1 => hx1)).ite ?_
  refine hx.stall.ite ?_
  refine (hx.acquired (fun _ hx1 => hx1.update.locWrite.locEscapes)).ite ?_
  exact hx.lockCycle.ite (hx.lockCycle.ite hx.lockWait)

protected theorem Canonical.execUnlock (h : Canonical s) {a} : NextCanonical (execUnlock a s) :=
  h.withLock (fun _ _ _ hx => hx.trapWave.ite (hx.stall.ite hx.locEscapes.lockRelease.locUpdated.settlePrio.retireWave))

protected theorem Canonical.semWait (h : Canonical s) {l key n} : Canonical (semWait s l key n) :=
  h.registered (h.registerWait.markReg (fun _ hx => hx.setWaiters)) (fun _ hx => hx.stall)

protected theorem Canonical.execSemtake (h : Canonical s) {a b} : NextCanonical (execSemtake a b s) := by
  unfold execSemtake
  dsimp only
  refine h.withLock fun x x1 t hx => ?_
  refine hx.retireWave.ite ?_
  refine (hx.acquired (fun _ hx1 => hx1)).ite ?_
  refine hx.stall.ite ?_
  refine (hx.observing hx.trapValue (fun _ hx1 => hx.roomed hx1.addLink (fun _ hx1 => hx1.acquired
    (fun _ hx1 => hx1.locWrite.locEscapes.settlePrio)))).ite ?_
  exact hx.semWait

protected theorem Canonical.execSemgive (h : Canonical s) {a b} : NextCanonical (execSemgive a b s) :=
  h.withLock (fun _ _ _ hx => hx.stall.ite hx.locEscapes.semRelease.locUpdated.settlePrio.retireWave)

end

end Sys2Proof
end

section
/-!
SUPPORT. The canonical form of global memory is kept by collectives, remote requests and answers (R443 to R457) and the matrix engine (R296 to R310).
-/

namespace Sys2Proof

open Sys2Proof.Machine

section
variable {s t : State}

/-! ### Collectives and other packages -/

protected theorem Canonical.trapRemoteErr (h : Canonical s) {e} : Canonical (trapRemoteErr s e) := h.trapValue.onWave.ite h.trapValue

protected theorem Canonical.execRfence (h : Canonical s) : NextCanonical (execRfence s) := by
  unfold execRfence
  refine .ite (.next h.stall) ?_
  split
  · exact .next h.trapRemoteErr
  · exact .next h.retireWave

protected theorem Canonical.formContribution (h : Canonical s) {who d} : FormedCanonical (formContribution s who d) := by
  unfold formContribution
  dsimp only
  split
  · split
    · split
      · exact .ok (h.transPages.of_snd ‹_›)
      · exact .ok (h.transPages.of_snd ‹_›).useLines
    · exact .ok (h.transPages.of_snd ‹_›)
    · split
      · exact .ok (h.transPages.of_snd ‹_›)
      · exact .held
  · exact .ok h

protected theorem Canonical.joinColl (h : Canonical s) {dpid group cseq d p} : Canonical (joinColl s dpid group cseq d p) :=
  h.update.ite h.update

protected theorem Canonical.addFar (h : Canonical s) {tasks dpid group cseq index} : Canonical (addFar s tasks dpid group cseq index) :=
  h.update

protected theorem Canonical.linkMembers (h : Canonical s) {l dpid d} : ObserveCanonical (linkMembers s l dpid d) := by
  unfold linkMembers
  dsimp only
  split
  · exact .ok h
  · split
    · split
      · exact .limit
      · exact .ok ((h.foldl (fun _ _ hx => hx.addFar)).linkTasks.of_ok ‹_›)
    · exact (h.foldl (fun _ _ hx => hx.addFar)).linkTasks

protected theorem Canonical.collSend (h : Canonical s) {who d} : Canonical (collSend s who d) := by
  unfold collSend
  dsimp only
  split
  · exact h.holdWave
  · exact (h.formContribution.of_ok ‹_›).joinColl.settleObjs.sendRequests.retireWave

protected theorem Canonical.collIssue (h : Canonical s) {a d} : Canonical (collIssue s a d) := by
  unfold collIssue
  dsimp only
  refine h.trapWave.ite ?_
  refine h.trapWave.ite ?_
  refine h.stall.ite ?_
  refine h.stall.ite ?_
  refine h.holdWave.ite ?_
  split
  · exact h.trapValue
  · exact h.trapWave
  · exact h.holdWave
  · exact (h.linkMembers.of_ok ‹_›).collSend

protected theorem Canonical.execColl (h : Canonical s) {a} : NextCanonical (execColl a s) := by
  unfold execColl
  dsimp only
  split
  · refine .ite (.next h.trapWave) ?_
    split
    · exact .next (h.waveTranslate.of_snd ‹_›).trapValue
    · exact .next (h.waveTranslate.of_snd ‹_›).holdWave
    · have ht := h.waveTranslate.of_snd ‹_›
      refine .ite (.next ht.stall) ?_
      exact .ite (.next ht.trapValue) (.next ht.onWave.collIssue)
  · exact .next h.trapWave

protected theorem Canonical.collSignal (h : Canonical s) {who compl err v} : Canonical (collSignal s who compl err v) := by
  unfold collSignal
  dsimp only
  refine h.ite ?_
  refine Canonical.ite ?_ h.completeAt
  split
  · split
    · have ht := h.coreTranslate.of_snd ‹_›
      refine ht.completionFails.ite ?_
      exact ht.versionUnit.getD ht.versionFullFor
    · exact (h.coreTranslate.of_snd ‹_›).completionFails
    · exact (h.coreTranslate.of_snd ‹_›).completionFails
  · exact h

protected theorem Canonical.failMember {c p} {m : List Contribution × State} (h : Canonical m.2) : Canonical (failMember c m p).2 := by
  unfold failMember
  dsimp only
  split
  · exact h
  · split
    · split
      · exact h.drawFree.engineRecords
      · exact h.drawFree.engineRecords.collSignal
    · split
      · exact h.drawFree.engineRecords
      · exact h.drawFree.engineRecords.collSignal

protected theorem Canonical.dropColl (h : Canonical s) {x} : Canonical (dropColl s x) := h.update.settleObjs

protected theorem Canonical.endColl (h : Canonical s) {x c} : Canonical (endColl s x c) := by
  unfold endColl
  dsimp only
  refine (Canonical.foldl_by Prod.snd h.dropColl (fun _ _ hx => hx.failMember)).ite ?_
  exact (Canonical.foldl_by Prod.snd h.dropColl (fun _ _ hx => hx.failMember)).update

protected theorem Canonical.failColl (h : Canonical s) {x c} : Canonical (failColl s x c) := h.report.endColl

protected theorem Canonical.putElems {who n l} {m : Delivery} (h : Canonical m.s) : Canonical (putElems who n l m).s := by
  induction l generalizing m with
  | nil => exact h
  | cons e l ih =>
    unfold putElems
    split
    · exact h
    · exact ih (h.opStore.of_done ‹_›)

protected theorem Canonical.putPage {who va n vals page} {m : Delivery} (h : Canonical m.s) :
    Canonical (putPage who va n vals m page).s := by
  unfold putPage
  dsimp only
  split
  · exact h
  · split
    · exact h.coreTranslate.of_snd ‹_›
    · exact h.coreTranslate.of_snd ‹_›
    · exact (h.coreTranslate.of_snd ‹_›).putElems

protected theorem Canonical.deliverMember (h : Canonical s) {n vals p} : Canonical (deliverMember n vals s p).2 := by
  unfold deliverMember
  dsimp only
  split
  · split
    · exact h.versionFullFor
    · exact (Canonical.foldl_by Delivery.s h (fun _ _ hx => hx.putPage)).engineRecords
  · exact h

protected theorem Canonical.deliverAll {n vals ps} (h : Canonical s) : Canonical (deliverAll n vals ps s).2 := by
  induction ps generalizing s with
  | nil => exact h
  | cons p rest ih => exact ih h.deliverMember

protected theorem Canonical.signalMember (h : Canonical s) {x p} : Canonical (signalMember s x p) := by
  unfold signalMember
  dsimp only
  split
  · exact (h.dropColl.ite h.update).collSignal.settleObjs
  · exact h.dropColl.ite h.update

protected theorem Canonical.deliverColl (h : Canonical s) {x} : Canonical (deliverColl s x) := by
  unfold deliverColl
  dsimp only
  split
  · exact h
  · split
    · exact h.versionFullFor
    · exact (h.update.deliverAll.ite h.update.deliverAll.update).settleObjs

protected theorem Canonical.lateColl (h : Canonical s) {x c} : Canonical (lateColl s x c) := by
  unfold lateColl
  dsimp only
  refine (Canonical.foldl_by Prod.snd h (fun _ _ hx => hx.failMember)).update.contain.ite ?_
  exact (Canonical.foldl_by Prod.snd h (fun _ _ hx => hx.failMember)).update.settleObjs

protected theorem Canonical.registerColl (h : Canonical s) {x who} : Canonical (registerColl s x who) := by
  unfold registerColl
  dsimp only
  split
  · exact (h.registerEngine.of_waits ‹_›).update
  · exact h.registerEngine.of_host ‹_›
  · exact h.endColl
  · exact h

protected theorem Canonical.execCollectiveComplete (h : Canonical s) {dpid group cseq} :
    NextCanonical (execCollectiveComplete dpid group cseq s) := by
  unfold execCollectiveComplete
  split
  · exact .next h
  · split
    · exact .next h
    · exact .next h.failColl
    · exact .next h.lateColl
    · exact .next h.registerColl
    · exact .next h.deliverColl
    · exact .next h.signalMember

protected theorem Canonical.parkColls (h : Canonical s) {c} : Canonical (parkColls s c) := by
  unfold parkColls
  dsimp only
  refine h.update.foldl fun t x hx => ?_
  refine hx.foldl fun t1 x1 hx1 => ?_
  split
  · exact hx1.onPart.tellHost
  · exact hx1

protected theorem Canonical.execContributorPackageFailure (h : Canonical s) {rank} :
    NextCanonical (execContributorPackageFailure rank s) := by
  unfold execContributorPackageFailure
  dsimp only
  refine .next ?_
  refine h.foldl fun t x hx => ?_
  split
  · exact hx
  · exact hx.endColl.report.contain

protected theorem Canonical.answerOut (h : Canonical s) {x} : Canonical (answerOut s x) := h.update
protected theorem Canonical.arriveWrite (h : Canonical s) {bytes} : Canonical (arriveWrite s bytes) := h.stampUnit.update
protected theorem Canonical.dropOwned (h : Canonical s) {pa n} : Canonical (dropOwned s pa n) := h.onDie.onDie.update

protected theorem Canonical.serveAt (h : Canonical s) {r pas} : Canonical (serveAt s r pas) := by
  unfold serveAt
  dsimp only
  split
  · exact h.answerOut
  · exact h.arriveWrite.answerOut
  · exact h.arriveWrite.answerOut
  · exact (h.arriveWrite.ite h).answerOut
  · exact h.counterBump.answerOut
  · exact h
  · exact h
  · exact h

protected theorem Canonical.serveMemory (h : Canonical s) {p r} : Canonical (serveMemory s p r) := by
  unfold serveMemory
  dsimp only
  refine h.answerOut.ite ?_
  refine h.answerOut.ite ?_
  split
  · exact (h.transPages.of_snd ‹_›).answerOut
  · exact (h.transPages.of_snd ‹_›).answerOut
  · have ht := h.transPages.of_snd ‹_›
    refine ht.dropOwned.answerOut.ite ?_
    exact ht.answerOut.ite ht.serveAt

protected theorem Canonical.abandonHere (h : Canonical s) {dpid group cseq} : Canonical (abandonHere s dpid group cseq) := by
  unfold abandonHere
  exact h.update.update.contain

protected theorem Canonical.serveRequest (h : Canonical s) {r} : Canonical (serveRequest s r) := by
  unfold serveRequest
  dsimp only
  split
  · exact (h.addFar.ite h).joinColl
  · exact h.update
  · exact h.abandonHere
  · split
    · exact h.answerOut
    · exact h.serveMemory

protected theorem Canonical.execRemoteRequest (h : Canonical s) {x} : NextCanonical (execRemoteRequest x s) := by
  unfold execRemoteRequest
  dsimp only
  refine .ite (.next h.serveRequest) ?_
  split
  · refine .next ?_
    split
    · exact h
    · exact h
    · exact h
    · exact h.answerOut
  · exact .next h.serveRequest.update

protected theorem Canonical.lateFailure (h : Canonical s) {t x rank d} : Canonical (lateFailure s t x rank d) := by
  unfold lateFailure
  split
  · exact h
  · exact h.markErr.report

protected theorem Canonical.taskAnswer (h : Canonical s) {token x} : Canonical (taskAnswer s token x) := by
  unfold taskAnswer
  split
  · exact h
  · exact h.onTask.lateFailure

protected theorem Canonical.putFailure (h : Canonical s) {o x} : Canonical (putFailure s o x) := h.onToken.ite h

protected theorem Canonical.reportCopy (h : Canonical s) {o x} : Canonical (reportCopy s o x) := by
  unfold reportCopy
  split
  · exact h.ite h.report
  · exact h

protected theorem Canonical.copyAnswer (h : Canonical s) {cl o x} : Canonical (copyAnswer s cl o x) := by
  unfold copyAnswer
  dsimp only
  split
  · exact h.reportCopy.answerCopy.replaceCopy.putFailure.lateFailure
  · exact h.reportCopy.answerCopy.replaceCopy.putFailure

protected theorem Canonical.clusterAnswer (h : Canonical s) {cl x f} : Canonical (clusterAnswer s cl x f) := by
  unfold clusterAnswer
  split
  · exact h
  · exact h.copyAnswer

protected theorem Canonical.channelAnswer (h : Canonical s) {d ch x f} : Canonical (channelAnswer s d ch x f) := by
  unfold channelAnswer
  dsimp only
  split
  · exact h
  · exact h.ite h.reportCopy.answerCopy.onRecord

protected theorem Canonical.deliverAnswer (h : Canonical s) {token x} : Canonical (deliverAnswer s token x) := by
  unfold deliverAnswer
  dsimp only
  refine Canonical.ite ?_ (h.onToken.ite h.taskAnswer)
  split
  · exact h.channelAnswer
  · exact h.clusterAnswer
  · exact h

protected theorem Canonical.execRemoteResponse (h : Canonical s) {token x} : NextCanonical (execRemoteResponse token x s) :=
  .next (h.ite h.deliverAnswer)

protected theorem Canonical.timeOut (h : Canonical s) {token} : Canonical (timeOut s token) := by
  unfold timeOut
  dsimp only
  refine Canonical.ite ?_ ?_
  · split
    · exact h.channelAnswer
    · exact h.clusterAnswer
    · exact h
  · split
    · exact h.onToken
    · split
      · exact h.foldl (fun _ _ hx => hx.taskAnswer)
      · exact h

protected theorem Canonical.execRemoteTimeout (h : Canonical s) {token} : NextCanonical (execRemoteTimeout token s) := .next h.timeOut

/-! ### The matrix engine -/

protected theorem Canonical.mxIssue (h : Canonical s) {x} : Canonical (mxIssue s x) := h.stall.ite h.onCore.onWave.retireWave
protected theorem Canonical.execMxplan (h : Canonical s) {p a} : NextCanonical (execMxplan p a s) := .next (h.onRegs.ite h.trapWave)
protected theorem Canonical.execMxzero (h : Canonical s) {t f} : NextCanonical (execMxzero t f s) := .next h.mxIssue

protected theorem Canonical.operandCheck (h : Canonical s) {a n which step} : Canonical (operandCheck s a n which step).2 := by
  unfold operandCheck
  dsimp only
  split
  · exact h
  · split
    · split
      · exact h
      · split
        · exact h
        · exact h
    · split
      · exact h
      · split
        · exact h.transPages.of_snd ‹_›
        · exact h.transPages.of_snd ‹_›
        · exact h.transPages.of_snd ‹_›
    · exact h

protected theorem Canonical.ringChecks {p a b compl is pages} (h : Canonical s) : Canonical (ringChecks p a b compl is pages s).2 := by
  induction is generalizing s pages with
  | nil => exact h
  | cons i rest ih =>
    unfold ringChecks
    dsimp only
    split
    · have ht := h.operandCheck.of_snd ‹_›
      split
      · have hu := ht.operandCheck.of_snd ‹_›
        split
        · exact hu
        · exact ih hu
      · exact ht.operandCheck
    · exact h.operandCheck

protected theorem Canonical.trapStep (h : Canonical s) {c addr which step} : Canonical (trapStep s c addr which step) :=
  h.trapValue.ite h.trapValue

protected theorem Canonical.mxSteps (h : Canonical s) {t p a sig cnt nst} : Canonical (mxSteps s t p a sig cnt nst) := by
  unfold mxSteps
  dsimp only
  refine h.trapWave.ite ?_
  split
  · exact (h.ringChecks.of_snd ‹_›).trapStep
  · exact (h.ringChecks.of_snd ‹_›).holdWave
  · have ht := h.ringChecks.of_snd ‹_›
    exact ht.retireWave.ite ht.mxIssue

protected theorem Canonical.execMxstep (h : Canonical s) {t p a sig} : NextCanonical (execMxstep t p a sig s) := .next h.mxSteps
protected theorem Canonical.execMxloop (h : Canonical s) {t p a l sig} : NextCanonical (execMxloop t p a l sig s) := .next h.mxSteps
protected theorem Canonical.bindTile (h : Canonical s) {c k i t} : Canonical (bindTile s c k i t) := h.onCore

protected theorem Canonical.execMxrd (h : Canonical s) {d a held} : NextCanonical (execMxrd d a held s) := by
  unfold execMxrd
  dsimp only
  refine h.checkedState fun t hx => ?_
  refine hx.stall.ite ?_
  split
  · exact hx.stall
  · exact (hx.foldl (fun _ _ hx1 => hx1.bindTile)).onRegs

protected theorem Canonical.execMxwr (h : Canonical s) {a b} : NextCanonical (execMxwr a b s) := h.checkedState (fun _ hx => hx.mxIssue)

protected theorem Canonical.execMonrd (h : Canonical s) {d a held} : NextCanonical (execMonrd d a held s) := by
  unfold execMonrd
  dsimp only
  refine h.checkedState fun t hx => ?_
  refine hx.stall.ite ?_
  split
  · exact hx.stall
  · exact hx.onRegs

protected theorem Canonical.execMonclr (h : Canonical s) {mask} : NextCanonical (execMonclr mask s) := .next h.mxIssue

protected theorem Canonical.monCheck (h : Canonical s) {a} : Canonical (monCheck s a).2 := by
  unfold monCheck
  dsimp only
  split
  · exact h
  · split
    · exact h
    · split
      · exact h
      · split
        · exact h
        · exact h
  · split
    · exact h
    · split
      · exact h.transPages.of_snd ‹_›
      · exact h.transPages.of_snd ‹_›
      · split
        · exact h.transPages.of_snd ‹_›
        · exact h.transPages.of_snd ‹_›
  · exact h

protected theorem Canonical.execMxmon (h : Canonical s) {slot a sig} : NextCanonical (execMxmon slot a sig s) := by
  unfold execMxmon
  dsimp only
  split
  · exact .next (h.monCheck.of_snd ‹_›).trapValue
  · exact .next (h.monCheck.of_snd ‹_›).holdWave
  · split
    · exact .next (h.monCheck.of_snd ‹_›).trapValue
    · exact .next (h.monCheck.of_snd ‹_›).mxIssue

protected theorem Canonical.execMatrixCommandAccept (h : Canonical s) {core} : NextCanonical (execMatrixCommandAccept core s) := by
  unfold execMatrixCommandAccept
  dsimp only
  split
  · exact .next h
  · exact .ite (.next h) (.ite (.next h.stopEngine) (.next (h.onCore.ite h.onCore.onToken).settleObjs))

protected theorem Canonical.pinTile (h : Canonical s) {core line} : Canonical (pinTile core s line) := h.ite h.onDie
protected theorem Canonical.fetchTiles (h : Canonical s) {core} : Canonical (fetchTiles s core) := h.foldl (fun _ _ hx => hx.pinTile)

protected theorem Canonical.execKStep (h : Canonical s) {core} : NextCanonical (execKStep core s) := by
  unfold execKStep
  dsimp only
  split
  · refine .ite (.next h) ?_
    refine .ite (.next h.unpinTiles.dataLost) ?_
    split
    · exact .next h.fetchTiles.useLines.unpinTiles.onCore.bindTile.onGroup.countEvent.countEvent
    · exact .next h.fetchTiles.useLines.unpinTiles.onCore.bindTile.onGroup.countEvent.countEvent.completeAt.settleObjs
  · exact .next h

protected theorem Canonical.monDone (h : Canonical s) {who w} : Canonical (monDone s who w) := h.onToken.onCore.onDie

protected theorem Canonical.monUnit (h : Canonical s) {who pa bytes} : OpWriteCanonical (monUnit s who pa bytes) := by
  unfold monUnit
  dsimp only
  split
  · exact h.opStore
  · exact .done (h.ite h.useL2).stampUnit

protected theorem Canonical.monUnits {who l ws} (h : Canonical s) : OpWriteCanonical (monUnits who l ws s) := by
  induction l generalizing s who ws with
  | nil => exact .done h
  | cons e l ih =>
    unfold monUnits
    split
    · exact .full
    · exact ih (h.monUnit.of_done ‹_›)

protected theorem Canonical.runMon (h : Canonical s) {core slot addr pas compl who rest} :
    Canonical (runMon s core slot addr pas compl who rest) := by
  unfold runMon
  dsimp only
  split
  · exact h.onCore
  · split
    · exact h.opSpad.onCore
    · split
      · exact h.versionFullFor
      · exact (h.monUnits.of_done ‹_›).onCore.monDone

protected theorem Canonical.execMatrixCommandRun (h : Canonical s) {core} : NextCanonical (execMatrixCommandRun core s) := by
  unfold execMatrixCommandRun
  dsimp only
  refine .ite (.next h) ?_
  split
  · exact .next h
  · split
    · exact .next h.onCore.bindTile.onGroup
    · exact .next (h.onCore.foldl (fun _ _ hx => hx.bindTile)).onGroup
    · exact .next h.onCore.onGroup
    · exact .next h.onCore.completeAt.settleObjs
    · exact .next h.runMon
    · exact .next h

end

end Sys2Proof
end

section
/-!
SUPPORT. The canonical form of global memory is kept by the router (R373 to R385) and the scheduler (R363 to R412).
-/

namespace Sys2Proof

open Sys2Proof.Machine

section
variable {s t : State}

/-! ### The router -/

protected theorem Canonical.slotPages (h : Canonical s) {l p pos slot} : Canonical (slotPages s l p pos slot).2 := by
  unfold slotPages
  dsimp only
  split
  · split
    · exact h.transPages.of_snd ‹_›
    · exact h.transPages
  · exact h
  · exact h

protected theorem Canonical.routerFails (h : Canonical s) {l c} : Canonical (routerFails s l c) := by
  unfold routerFails
  exact h.report.onPipe.contain.finishLaunch

protected theorem Canonical.holdRouter (h : Canonical s) {l p} : Canonical (holdRouter s l p) := h.onPart.tellHost

protected theorem Canonical.routerPages {l p} {r : Pages × State} {k : List (Nat × Nat) → State → Option State}
    (hr : Canonical r.2) (hk : ∀ x t, Canonical t → OptCanonical (k x t)) : OptCanonical (routerPages s l p r k) := by
  unfold routerPages
  split
  · exact .some hr.routerFails
  · exact .ite .none (.some (hr.routerFails.ite hr.holdRouter))
  · exact hk _ _ hr

protected theorem Canonical.wavePages {l} {r : Pages × State} {k : List (Nat × Nat) → State → State}
    (hr : Canonical r.2) (hk : ∀ x t, Canonical t → Canonical (k x t)) : Canonical (wavePages s l r k) := by
  unfold wavePages
  split
  · exact hr.routerFails
  · exact hr.routerFails.ite hr.holdWave
  · exact hk _ _ hr

protected theorem Canonical.routerWrite (h : Canonical s) {pages va bytes v} : Canonical (routerWrite s pages va bytes v) :=
  h.foldl (fun _ _ hx => hx.stampUnit)

protected theorem Canonical.writeRecord (h : Canonical s) {l p pages r bytes} : Canonical (writeRecord s l p pages r bytes) :=
  h.routerWrite.routerWrite

protected theorem Canonical.setPipe (h : Canonical s) {l p} : Canonical (setPipe s l p) := h.onLaunch
protected theorem Canonical.keepClk (h : Canonical s) {l p pages pos slot v} : Canonical (keepClk s l p pages pos slot v) := h.onPipe

protected theorem Canonical.moveRecord (h : Canonical s) {l p r pos slot} : OptCanonical (moveRecord s l p r pos slot) :=
  h.slotPages.routerPages (fun _ _ hx => hx.slotPages.routerPages (fun _ _ hx1 => .ite (.some hx1.routerFails) (.ite .none
    (OptCanonical.choice (fun _ => hx1.writeRecord.setPipe.keepClk)))))

protected theorem Canonical.boxPages (h : Canonical s) {l p b} : Canonical (boxPages s l p b).2 := by
  unfold boxPages
  split
  · exact h.transPages
  · exact h

protected theorem Canonical.applyBox (h : Canonical s) {l p b} : OptCanonical (applyBox s l p b) := by
  unfold applyBox
  dsimp only
  split
  · exact .some (h.boxPages.of_snd ‹_›).markErr
  · exact .some (h.boxPages.of_snd ‹_›).markErr
  · refine .ite (.some (h.boxPages.of_snd ‹_›).routerFails) ?_
    split
    · exact .some ((h.boxPages.of_snd ‹_›).foldl (fun _ _ hx => hx.stampUnit))
    · exact .some (h.boxPages.of_snd ‹_›).counterWrite
    · exact (h.boxPages.of_snd ‹_›).signalAt

protected theorem Canonical.boxStep (h : Canonical s) {l p r} : OptCanonical (boxStep s l p r) := by
  unfold boxStep
  dsimp only
  refine h.slotPages.routerPages fun x t hx => ?_
  refine .ite (.some hx.routerFails) ?_
  refine .ite .none ?_
  exact OptCanonical.bind (fun _ => .ite (.ite .none (.some hx.holdRouter)) (hx.applyBox.map (fun _ hx1 => hx1.onPipe)))

protected theorem Canonical.leaveSet (h : Canonical s) {l p r} : OptCanonical (leaveSet s l p r) := by
  unfold leaveSet
  refine .ite .none ?_
  exact .ite .none (.ite h.boxStep (.ite (.some h.setPipe) (OptCanonical.bind (fun _ => h.moveRecord))))

protected theorem OptCanonical.firstStep {launch x} {f : Launch → Pipe → PRec → Option State}
    (hf : ∀ l p r, OptCanonical (f l p r)) : OptCanonical (firstStep s launch x f) := by
  unfold firstStep
  split
  · exact .none
  · split
    · exact .none
    · exact .ite .none ((OptCanonical.findSome (fun _ => hf _ _ _)).map (fun _ hx => hx.onPipe.ite hx))

protected theorem Canonical.moveOn (h : Canonical s) {intoSet l p r} : OptCanonical (moveOn s intoSet l p r) :=
  .ite (OptCanonical.bind (fun _ => h.moveRecord)) .none

protected theorem Canonical.setEntryStep (h : Canonical s) {launch} : OptCanonical (setEntryStep s launch) :=
  OptCanonical.firstStep (fun _ _ _ => h.moveOn)

protected theorem Canonical.setLeaveStep (h : Canonical s) {launch} : OptCanonical (setLeaveStep s launch) :=
  OptCanonical.firstStep (fun _ _ _ => h.leaveSet)

protected theorem Canonical.routerMoveStep (h : Canonical s) {launch} : OptCanonical (routerMoveStep s launch) :=
  OptCanonical.firstStep (fun _ _ _ => h.moveOn)

protected theorem Canonical.execRouterSetEntry (h : Canonical s) {launch} : NextCanonical (execRouterSetEntry launch s) :=
  .next (h.setEntryStep.getD h)

protected theorem Canonical.execRouterSetLeave (h : Canonical s) {launch} : NextCanonical (execRouterSetLeave launch s) :=
  .next (h.setLeaveStep.getD h)

protected theorem Canonical.execRouterMove (h : Canonical s) {launch} : NextCanonical (execRouterMove launch s) :=
  .next (h.routerMoveStep.getD h)

protected theorem Canonical.withPipe (h : Canonical s) {k : Launch → Pipe → Group → State} (hk : ∀ l p g, Canonical (k l p g)) :
    Canonical (withPipe s k) := by
  unfold withPipe
  split
  · split
    · exact hk _ _ _
    · exact h.trapWave
  · exact h.trapWave

protected theorem Canonical.emitting (h : Canonical s) {l on} : Canonical (emitting s l on) := h.onPipe

protected theorem Canonical.emitRead (h : Canonical s) {a n align} {mark : State → State} {k : State → List W8 → Clk → State}
    (hm : ∀ t, Canonical t → Canonical (mark t)) (hk : ∀ t x v, Canonical t → Canonical (k t x v)) :
    Canonical (emitRead s a n align mark k) := by
  unfold emitRead
  split
  · exact h.trapValue
  · refine (hm _ h).stall.ite ?_
    refine (hm _ h).holdWave.ite ?_
    split
    · exact (h.localRead.of_snd ‹_›).trapValue
    · exact hk _ _ _ (h.localRead.of_snd ‹_›)

protected theorem Canonical.emitRecord (h : Canonical s) {a l p g} : Canonical (emitRecord s a l p g) := by
  unfold emitRecord
  dsimp only
  refine h.trapWave.ite ?_
  refine h.emitRead (fun t hx => hx.emitting) fun t x x1 hx => ?_
  split
  · exact hx.emitting.await
  · refine hx.emitting.slotPages.wavePages fun x1 t1 hx1 => ?_
    split
    · exact hx1.stall
    · exact hx1.writeRecord.setPipe.keepClk.emitting.leaveWait.retireWave

protected theorem Canonical.execRtemitRec (h : Canonical s) {a} : NextCanonical (execRtemitRec a s) :=
  .next (h.withPipe (fun _ _ _ => h.emitRecord))

protected theorem Canonical.emitBox (h : Canonical s) {a l p g} : Canonical (emitBox s a l p g) := by
  unfold emitBox
  dsimp only
  split
  · exact h.trapWave
  · refine h.trapWave.ite ?_
    refine h.emitRead (fun t hx => hx) fun t x x1 hx => ?_
    refine hx.trapWave.ite ?_
    exact hx.slotPages.wavePages (fun _ _ hx1 => hx1.routerWrite.routerWrite.setPipe.keepClk.retireWave)

protected theorem Canonical.execRtemitBox (h : Canonical s) {a} : NextCanonical (execRtemitBox a s) :=
  .next (h.withPipe (fun _ _ _ => h.emitBox))

protected theorem Canonical.closePipes (h : Canonical s) : Canonical (closePipes s) := h.update.ite h

protected theorem Canonical.takeRecord (h : Canonical s) {x l p0 g} : Canonical (takeRecord s x l p0 g) := by
  unfold takeRecord
  dsimp only
  refine h.trapWave.ite ?_
  refine h.setPipe.onGroup.leaveWait.setPipe.settlePrio.onRegs.ite ?_
  split
  · split
    · exact h.setPipe.onGroup.stall
    · exact h.setPipe.onGroup.leaveWait.setPipe.onGroup.join.settlePrio.onRegs.jumpTo
  · exact h.setPipe.onGroup.await

protected theorem Canonical.execRttake (h : Canonical s) {x} : NextCanonical (execRttake x s) :=
  h.checkedState (fun _ hx => hx.withPipe (fun _ _ _ => hx.takeRecord))

protected theorem Canonical.withHeld (h : Canonical s) {k : Launch → Pipe → Group → PRec → State} (hk : ∀ l p g r, Canonical (k l p g r)) :
    Canonical (withHeld s k) := by
  unfold withHeld
  refine h.withPipe fun x x1 x1 => ?_
  split
  · exact h.trapWave
  · exact h.stall.ite (hk _ _ _ _)

protected theorem Canonical.dropHeld (h : Canonical s) {g} : Canonical (dropHeld s g) := h.onGroup.settlePrio

protected theorem Canonical.passOn (h : Canonical s) {l p g r} : Canonical (passOn s l p g r) := by
  unfold passOn
  dsimp only
  split
  · exact h.await.onPipe.ite h.await
  · exact h.leaveWait.setPipe.dropHeld.retireWave

protected theorem Canonical.passMember (h : Canonical s) {l p g r} : Canonical (passMember s l p g r) :=
  h.slotPages.wavePages (fun _ _ hx => hx.routerWrite.setPipe.keepClk.dropHeld.retireWave)

protected theorem Canonical.execRtdone (h : Canonical s) : NextCanonical (execRtdone s) :=
  .next (h.withHeld (fun _ _ _ _ => h.passMember.ite (h.passOn.ite h.setPipe.dropHeld.retireWave)))

protected theorem Canonical.execRtrej (h : Canonical s) : NextCanonical (execRtrej s) :=
  .next (h.withHeld (fun _ _ _ _ => h.slotPages.wavePages (fun _ _ hx => hx.routerWrite.setPipe.dropHeld.retireWave)))

protected theorem Canonical.execRtstat (h : Canonical s) {d a held} : NextCanonical (execRtstat d a held s) :=
  h.checkedState (fun _ hx => hx.withPipe (fun _ _ _ => hx.onRegs))

/-! ### The scheduler -/

protected theorem Canonical.endWaits (h : Canonical s) : Canonical (endWaits s) := h.update.onWaves.sweepObjs.settlePrio.ite h

protected theorem Canonical.peekPages {p va pages} (h : Canonical s) : Canonical (peekPages p va pages s).2 := by
  induction pages generalizing s with
  | nil => exact h
  | cons page rest ih =>
    unfold peekPages
    dsimp only
    split
    · exact h
    · split
      · exact h.devTranslate.of_snd ‹_›
      · have hrest := ih (h.devTranslate.of_snd ‹_›)
        split
        · exact hrest.of_snd ‹_›
        · exact hrest

protected theorem Canonical.peekBytes (h : Canonical s) {p va n} : Canonical (peekBytes s p va n).2 := by
  unfold peekBytes
  dsimp only
  split
  · exact h.peekPages.of_snd ‹_›
  · split
    · exact h.peekPages.of_snd ‹_›
    · exact h.peekPages.of_snd ‹_›

protected theorem Canonical.tableBytes (h : Canonical s) {p a n} : Canonical (tableBytes s p a n).2 := by
  unfold tableBytes
  split
  · exact h
  · split
    · exact h
    · exact h.peekBytes

protected theorem Canonical.readTable (h : Canonical s) {p a} : Canonical (readTable s p a).2 := by
  unfold readTable
  dsimp only
  split
  · exact h.tableBytes.of_snd ‹_›
  · split
    · exact h.tableBytes.of_snd ‹_›
    · split
      · exact (h.tableBytes.of_snd ‹_›).tableBytes.of_snd ‹_›
      · split
        · exact (h.tableBytes.of_snd ‹_›).tableBytes.of_snd ‹_›
        · exact (h.tableBytes.of_snd ‹_›).tableBytes.of_snd ‹_›

protected theorem Canonical.readPipe (h : Canonical s) {p a} : Canonical (readPipe s p a).2 := by
  unfold readPipe
  dsimp only
  split
  · exact h.tableBytes.of_snd ‹_›
  · split
    · exact h.tableBytes.of_snd ‹_›
    · split
      · exact (h.tableBytes.of_snd ‹_›).tableBytes.of_snd ‹_›
      · split
        · split
          · exact (h.tableBytes.of_snd ‹_›).tableBytes.of_snd ‹_›
          · exact (h.tableBytes.of_snd ‹_›).tableBytes.of_snd ‹_›
        · exact (h.tableBytes.of_snd ‹_›).tableBytes.of_snd ‹_›

protected theorem Canonical.examineLaunch (h : Canonical s) {l} : Canonical (examineLaunch s l).2 := by
  unfold examineLaunch
  dsimp only
  split
  · exact h
  · split
    · exact h.readTable.of_snd ‹_›
    · split
      · exact h.readTable.of_snd ‹_›
      · split
        · exact h.readTable.of_snd ‹_›
        · split
          · exact h.readTable.of_snd ‹_›
          · split
            · exact (h.readTable.of_snd ‹_›).readPipe.of_snd ‹_›
            · exact (h.readTable.of_snd ‹_›).readPipe.of_snd ‹_›

protected theorem Canonical.gangTask (h : Canonical s) {l idx} : Canonical (gangTask s l idx) := h.onTask.ite h.update

protected theorem Canonical.startGang (h : Canonical s) {l v places} : Canonical (startGang s l v places) := by
  unfold startGang
  dsimp only
  refine ((h.gangTask.update.foldl (fun _ _ hx => hx.onCore.ite hx)).onLaunch.foldl (fun _ _ hx => hx.idleGroup)).ite ?_
  exact ((h.gangTask.update.foldl (fun _ _ hx => hx.onCore.ite hx)).onLaunch.foldl (fun _ _ hx => hx.startWaves)).settlePrio

protected theorem Canonical.examined (h : Canonical s) {l} : Canonical (examined s l) := by
  unfold examined
  split
  · exact (h.examineLaunch.of_snd ‹_›).finishLaunch
  · exact (h.examineLaunch.of_snd ‹_›).onLaunch

protected theorem Canonical.execAdmitGang (h : Canonical s) {p} : NextCanonical (execAdmitGang p s) := by
  unfold execAdmitGang
  split
  · exact .next h.examined
  · exact .next h.startGang
  · exact .next h

protected theorem Canonical.evictGang (h : Canonical s) {k} : Canonical (evictGang s k) :=
  ((h.foldl (fun _ _ hx => (hx.onGroup.ite hx).unpinTiles.onCore)).foldl (fun _ _ hx => hx.writeBackAll)).onGang.update.onWaves

protected theorem Canonical.evictWave (h : Canonical s) {t} : Canonical (evictWave s t) :=
  ((OptCanonical.choice (fun _ => h.writeBackAll)).getD h).update.onToken

protected theorem Canonical.holdAdmission (h : Canonical s) {l} : Canonical (holdAdmission s l) := h.onLaunch.onPart.tellHost

protected theorem Canonical.preemption (h : Canonical s) {p} : OptCanonical (preemption s p) := by
  unfold preemption
  dsimp only
  split
  · split
    · exact .none
    · refine .ite .none ?_
      split
      · exact .none
      · exact .some h.holdAdmission
      · split
        · exact .some (h.foldl (fun _ _ hx => hx.evictWave))
        · exact .some (h.foldl (fun _ _ hx => hx.evictGang))
  · exact .none

protected theorem Canonical.execPreemptEvict (h : Canonical s) {p} : NextCanonical (execPreemptEvict p s) := .next (h.preemption.getD h)

protected theorem Canonical.resumeWave (h : Canonical s) {t u slot} : Canonical (resumeWave s t u slot) := by
  unfold resumeWave
  dsimp only
  split
  · exact h
  · exact h.onCore.acquireStep.onToken

protected theorem Canonical.moveWaiting (h : Canonical s) {g u slots} : Canonical (moveWaiting s g u slots) := h.ite h.onDie.onDie
protected theorem Canonical.moveIdle (h : Canonical s) {g u} : Canonical (moveIdle s g u) := h.update

protected theorem Canonical.resumeGroup (h : Canonical s) {saved y} : Canonical (resumeGroup saved s y) :=
  h.moveWaiting.moveIdle.onGroup.onCore.foldl (fun _ _ hx => hx.resumeWave)

protected theorem Canonical.bringPins (h : Canonical s) {g block} : Canonical (bringPins s g block) :=
  h.ite (h.foldl (fun _ _ hx => hx.touchL2))

protected theorem Canonical.resumeGang (h : Canonical s) {g places} : Canonical (resumeGang s g places) :=
  (h.onGang.bringPins.foldl (fun _ _ hx => hx.resumeGroup)).settlePrio

protected theorem Canonical.resumption (h : Canonical s) {x} : OptCanonical (resumption s x) := by
  unfold resumption
  dsimp only
  split
  · split
    · exact .none
    · exact OptCanonical.choice (fun _ => h.resumeGang)
  · split
    · exact .none
    · exact .ite .none (.some h.resumeWave.settlePrio)

protected theorem Canonical.execResumeEvicted (h : Canonical s) {p} : NextCanonical (execResumeEvicted p s) :=
  .next ((OptCanonical.findSome (fun _ => h.resumption)).getD h)

protected theorem Canonical.execUnparkWave (h : Canonical s) {token} : NextCanonical (execUnparkWave token s) := by
  unfold execUnparkWave
  dsimp only
  split
  · exact .next h
  · refine .ite (.next h) ?_
    split
    · exact .next h
    · exact .next h.onWaves.onToken

protected theorem Canonical.execClockGate (h : Canonical s) {u} : NextCanonical (execClockGate u s) := .next (h.onCore.ite h)
protected theorem Canonical.execClockRestart (h : Canonical s) {u} : NextCanonical (execClockRestart u s) := .next (h.onCore.ite h)

protected theorem Canonical.execNopreemptExpired (h : Canonical s) {token} : NextCanonical (execNopreemptExpired token s) := by
  unfold execNopreemptExpired
  split
  · exact .next h
  · exact .ite (.next h.windowClosed.onToken) (.next h)

protected theorem Canonical.focusWave (h : Canonical s) {t} : Canonical (focusWave s t) := by
  unfold focusWave
  refine h.ite ?_
  split
  · exact h
  · exact h.update

protected theorem Canonical.suspectWave (h : Canonical s) {w} : Canonical (suspectWave s w) := h.focusWave.onWave.endWait.trapWave

protected theorem Canonical.suspectEngine (h : Canonical s) {token} : Canonical (suspectEngine s token) := by
  unfold suspectEngine
  dsimp only
  split
  · split
    · exact h.stopRecord.ite h
    · exact h
  · exact (OptCanonical.choice (fun _ => h.endColl)).getD h
  · exact h

protected theorem Canonical.execSuspectedDeadlock (h : Canonical s) {token} : NextCanonical (execSuspectedDeadlock token s) := by
  unfold execSuspectedDeadlock
  refine .ite (.next h.suspectEngine) ?_
  split
  · exact .next h.suspectWave
  · split
    · exact .next h.commitEnds
    · exact .next h

end

end Sys2Proof
end

section
/-!
SUPPORT. The canonical form of global memory is kept by the host (R446 to R481), faults and resets (R464 to R474), the memory system's own steps (R234, R237, R268, R277), the mirror bank and posts (R215 to R223, R370).
-/

namespace Sys2Proof

open Sys2Proof.Machine

section
variable {s t : State}

/-! ### The host -/

protected theorem Canonical.kickCommand (h : Canonical s) {p head} : Canonical (kickCommand s p head) :=
  h.onChain.reportCommand.ite h.kickChain

protected theorem Canonical.dropTlb (h : Canonical s) {gone} : Canonical (dropTlb s gone) := h.update
protected theorem Canonical.dropPartTlb (h : Canonical s) {p} : Canonical (dropPartTlb s p) := h.dropTlb

protected theorem Canonical.writePartReg (h : Canonical s) {p off v} : OptCanonical (writePartReg s p off v) := by
  unfold writePartReg
  dsimp only
  split
  · exact .ite (.some h.onPart) .none
  · exact .ite (.some h.onPart.dropPartTlb) .none
  · exact .ite (.some h.onPart) .none
  · exact .ite (.some h.onPart) .none
  · exact .ite (.some h.onPart) .none
  · exact .ite (.some h.onPart) .none
  · exact .ite (.some h.onPart) .none
  · exact .ite (.some h.onPart) .none
  · exact .ite (.some h.onPart) .none
  · exact .ite .none (.some h.kickCommand)
  · exact .ite (.some h.onPart) .none
  · exact .ite (.some h.onPart) .none
  · exact .none

protected theorem Canonical.writeDieReg (h : Canonical s) {d off v} : OptCanonical (writeDieReg s d off v) := by
  unfold writeDieReg
  dsimp only
  split
  · exact OptCanonical.map (.ite (.some h.onDie) .none) (fun _ hx => hx.trimDie)
  · exact .ite (.some h.onDie) .none
  · exact .ite (.some h.onDie) .none
  · exact .none

protected theorem Canonical.writePkgReg (h : Canonical s) {off v} : OptCanonical (writePkgReg s off v) := by
  unfold writePkgReg
  dsimp only
  split
  · exact .ite (.some h.update) .none
  · exact .ite (.some h.update) .none
  · exact .ite (.some h.update) .none
  · exact .none

protected theorem Canonical.writeChanReg (h : Canonical s) {d ch off v} : OptCanonical (writeChanReg s d ch off v) :=
  .ite (.some h.onChan) .none

protected theorem Canonical.writeWindow (h : Canonical s) {off v} : OptCanonical (writeWindow s off v) := by
  unfold writeWindow
  split
  · exact h.writePkgReg
  · exact h.writePartReg
  · exact h.writeDieReg
  · exact h.writeChanReg
  · exact .none

protected theorem Canonical.refusedWrite (h : Canonical s) {off v} : Canonical (refusedWrite s off v) := by
  unfold refusedWrite
  split
  · exact h.kickCommand
  · exact h

protected theorem Canonical.directWrite (h : Canonical s) {off v} : NextCanonical (directWrite s off v) :=
  .next ((h.writeWindow.getD h.refusedWrite).ite h)

protected theorem Canonical.readChan (h : Canonical s) {x} : Canonical (readChan s x).2 := h.onChain
protected theorem Canonical.chanWord (h : Canonical s) {x i} : Canonical (chanWord s x i).2 := h.readChan.ite h

protected theorem Canonical.readWindow (h : Canonical s) {off} : Canonical (readWindow s off).2 := by
  unfold readWindow
  split
  · exact h
  · split
    · exact h.chanWord
    · exact h
  · exact h
  · split
    · exact h.chanWord
    · exact h
  · exact h

protected theorem Canonical.senseNow (h : Canonical s) : Canonical (senseNow s) := h.update

protected theorem Canonical.readRegister (h : Canonical s) {r} : SndCanonical (readRegister s r) := by
  unfold readRegister
  dsimp only
  split
  · refine .some ?_
    split
    · exact h
    · exact h.senseNow
    · exact h.senseNow
    · exact h.senseNow
    · exact h
    · exact h
    · exact h
  · split
    · exact .some h.readWindow
    · exact .none
  · split
    · exact .some h.onChain
    · exact .none
  · split
    · exact .some h.onChain
    · exact .none

protected theorem Canonical.execChannelRegisterRead (h : Canonical s) {r} : NextCanonical (execChannelRegisterRead r s) := by
  unfold execChannelRegisterRead
  split
  · exact .next (h.readRegister.of_some ‹_›).tellHost
  · exact .next h

protected theorem Canonical.execRegisterWrite (h : Canonical s) {off v} : NextCanonical (execRegisterWrite off v s) := h.directWrite
protected theorem Canonical.execPfmodeWrite (h : Canonical s) {p v} : NextCanonical (execPfmodeWrite p v s) := h.directWrite
protected theorem Canonical.execPtrootWrite (h : Canonical s) {p v} : NextCanonical (execPtrootWrite p v s) := h.directWrite
protected theorem Canonical.execCtxsizeWrite (h : Canonical s) {d v} : NextCanonical (execCtxsizeWrite d v s) := h.directWrite
protected theorem Canonical.execVsmaxWrite (h : Canonical s) {d v} : NextCanonical (execVsmaxWrite d v s) := h.directWrite
protected theorem Canonical.execCmdkick (h : Canonical s) {p head} : NextCanonical (execCmdkick p head s) := .next (h.kickCommand.ite h)
protected theorem Canonical.execCommandPoll (h : Canonical s) {p} : NextCanonical (execCommandPoll p s) := .next (h.pollAgain.ite h)

protected theorem Canonical.bumpCommand (h : Canonical s) {p} : Canonical (bumpCommand s p) := by
  unfold bumpCommand
  dsimp only
  refine h.ite ?_
  split
  · have ht := h.devTranslate.of_snd ‹_›
    exact ht.reportCommand.ite ht.counterBump
  · exact (h.devTranslate.of_snd ‹_›).reportCommand

protected theorem Canonical.finishCommand (h : Canonical s) {p r status} : Canonical (finishCommand s p r status) :=
  h.returnRecord.bumpCommand.nextRecord

protected theorem Canonical.runCommand (h : Canonical s) {code p} {f : CmdRun} (hf : ∀ r, FstCanonical (f s p r)) :
    Canonical (runCommand code f p s) := by
  unfold runCommand
  split
  · exact h
  · refine h.finishCommand.ite ?_
    refine h.ite ?_
    split
    · exact h
    · exact ((hf _).of_some ‹_›).finishCommand

protected theorem Canonical.submitPlace (h : Canonical s) {p a align} : Canonical (submitPlace s p a align).2 := by
  unfold submitPlace
  split
  · split
    · exact h
    · exact h.devTranslate
  · exact h

protected theorem Canonical.submitLaunch (h : Canonical s) {x1 x2} : FstCanonical (submitLaunch s x1 x2) := by
  unfold submitLaunch
  dsimp only
  split
  · exact .some h
  · split
    · exact .some (h.submitPlace.of_snd ‹_›)
    · split
      · exact .none
      · split
        · exact .some ((h.submitPlace.of_snd ‹_›).acceptLaunch.of_ok ‹_›)
        · exact .some (h.submitPlace.of_snd ‹_›)

protected theorem Canonical.execSubmitLaunch (h : Canonical s) {p} : NextCanonical (execSubmitLaunch p s) :=
  .next (h.runCommand (fun _ => h.submitLaunch))

protected theorem Canonical.submitTask (h : Canonical s) {x1 x2} : FstCanonical (submitTask s x1 x2) := by
  unfold submitTask
  dsimp only
  split
  · exact .some (h.submitPlace.of_snd ‹_›)
  · split
    · exact .none
    · split
      · exact .some ((h.submitPlace.of_snd ‹_›).acceptTask.of_ok ‹_›)
      · exact .some (h.submitPlace.of_snd ‹_›)

protected theorem Canonical.execSubmitTaskRecord (h : Canonical s) {p} : NextCanonical (execSubmitTaskRecord p s) :=
  .next (h.runCommand (fun _ => h.submitTask))

protected theorem Canonical.useNew (h : Canonical s) {p a n} : Canonical (useNew s p a n) := h.onWaves.update.sweepObjs.settlePrio

protected theorem Canonical.invalidateTlb (h : Canonical s) {x1 x2} : FstCanonical (invalidateTlb s x1 x2) := by
  unfold invalidateTlb
  dsimp only
  split
  · exact .none
  · exact .some h.dropTlb.useNew.tellHost

protected theorem Canonical.execTlbInvalidate (h : Canonical s) {p} : NextCanonical (execTlbInvalidate p s) :=
  .next (h.runCommand (fun _ => h.invalidateTlb))

protected theorem Canonical.endLead (h : Canonical s) {k c} : Canonical (endLead s k c) := by
  unfold endLead
  split
  · exact h.stopRecord
  · exact h.dropEngineWait.endColl
  · split
    · exact h.commitEnds
    · exact h.settleObjs.settlePrio

protected theorem Canonical.spillAgent (h : Canonical s) {k tid} : Canonical (spillAgent s k tid) := by
  unfold spillAgent
  dsimp only
  split
  · exact h.onChan
  · exact h.update

protected theorem Canonical.freeAgents (h : Canonical s) {i} : Canonical (freeAgents s i) := by
  unfold freeAgents
  dsimp only
  refine (h.foldl (fun _ _ hx => hx.onToken)).endLead.ite ?_
  refine ((h.foldl (fun _ _ hx => hx.onToken)).foldl (fun _ _ hx => hx.spillAgent)).ite ?_
  exact (h.foldl (fun _ _ hx => hx.onToken)).settleObjs.settlePrio

protected theorem Canonical.releaseItem (h : Canonical s) {p i} : Canonical (releaseItem p s i) := by
  unfold releaseItem
  refine Canonical.ite ?_ ?_
  · split
    · exact h.onPipe
    · exact (h.releaseRecords.ite h).freeAgents
  · split
    · exact h.onLaunch
    · refine h.update.ite ?_
      split
      · exact h.onTask.ite h.relaunchTask
      · exact h

protected theorem Canonical.takeItems (h : Canonical s) {p tid} : Canonical (takeItems s p tid).2 := h.onPart

protected theorem Canonical.releaseParked (h : Canonical s) {x1 x2} : FstCanonical (releaseParked s x1 x2) := by
  unfold releaseParked
  split
  · exact .some h
  · exact .some ((h.takeItems.of_snd ‹_›).foldl (fun _ _ hx => hx.releaseItem))

protected theorem Canonical.execReleaseParkedItem (h : Canonical s) {p} : NextCanonical (execReleaseParkedItem p s) :=
  .next (h.runCommand (fun _ => h.releaseParked))

protected theorem Canonical.returnNext (h : Canonical s) {l c} : Canonical (returnNext s l c) := h.update.onLaunch.checkLaunch

protected theorem Canonical.returnItem (h : Canonical s) {p c i} : Canonical (returnItem p c s i) := by
  unfold returnItem
  split
  · exact h.returnNext
  · exact h.routerFails
  · split
    · exact h.endLead
    · exact h.commitEnds.ite (h.contain.ite h.returnTask)

protected theorem Canonical.returnParked (h : Canonical s) {x1 x2} : FstCanonical (returnParked s x1 x2) := by
  unfold returnParked
  dsimp only
  split
  · exact .some h
  · exact .some ((h.takeItems.of_snd ‹_›).returnItem.foldl (fun _ _ hx => hx.releaseItem))

protected theorem Canonical.execReturnParkedItem (h : Canonical s) {p} : NextCanonical (execReturnParkedItem p s) :=
  .next (h.runCommand (fun _ => h.returnParked))

protected theorem Canonical.writeRegister (h : Canonical s) {x1 x2} : FstCanonical (writeRegister s x1 x2) := by
  unfold writeRegister
  dsimp only
  split
  · exact .some h
  · split
    · exact .some (h.writeWindow.of_some ‹_›)
    · exact .some h.refusedWrite

protected theorem Canonical.execWriteRegister (h : Canonical s) {p} : NextCanonical (execWriteRegister p s) :=
  .next (h.runCommand (fun _ => h.writeRegister))

protected theorem Canonical.readRanks (h : Canonical s) {p a n} : Canonical (readRanks s p a n).2 := by
  unfold readRanks
  split
  · split
    · exact h.transPages.of_snd ‹_›
    · exact h.transPages.of_snd ‹_›
    · split
      · exact h.transPages.of_snd ‹_›
      · exact h.transPages.of_snd ‹_›
  · exact h
  · exact h

protected theorem Canonical.setGroup (h : Canonical s) {x1 x2} : FstCanonical (setGroup s x1 x2) := by
  unfold setGroup
  dsimp only
  split
  · exact .some h
  · split
    · exact .some (h.readRanks.of_snd ‹_›)
    · split
      · exact .some (h.readRanks.of_snd ‹_›)
      · exact .some (h.readRanks.of_snd ‹_›).update

protected theorem Canonical.execSetCollectiveGroup (h : Canonical s) {p} : NextCanonical (execSetCollectiveGroup p s) :=
  .next (h.runCommand (fun _ => h.setGroup))

protected theorem Canonical.returnEntries (h : Canonical s) {p c} : Canonical (returnEntries s p c) :=
  (h.foldl (fun _ _ hx => hx.recordStatus)).onPart

protected theorem Canonical.returnWork (h : Canonical s) {p c} : Canonical (returnWork s p c) :=
  ((h.contain.foldl (fun _ _ hx => hx.returnTask)).onPart.foldl (fun _ _ hx => hx.onLaunch.checkLaunch)).returnEntries

protected theorem Canonical.dropEntries (h : Canonical s) {p} : Canonical (dropEntries s p) := h.update
protected theorem Canonical.resetPart (h : Canonical s) {p} : Canonical (resetPart s p) := h.returnWork.dropEntries

protected theorem Canonical.createPart (h : Canonical s) {lockstep x1 x2} : FstCanonical (createPart lockstep s x1 x2) := by
  unfold createPart
  dsimp only
  split
  · exact .some h
  · split
    · exact .some h
    · exact .some h.onPart

protected theorem Canonical.execCreatePartition (h : Canonical s) {p} : NextCanonical (execCreatePartition p s) :=
  .next (h.runCommand (fun _ => h.createPart))

protected theorem Canonical.execCreateLockstepPartition (h : Canonical s) {p} : NextCanonical (execCreateLockstepPartition p s) :=
  .next (h.runCommand (fun _ => h.createPart))

protected theorem Canonical.resetCommand (h : Canonical s) {x1 x2} : FstCanonical (resetCommand s x1 x2) := by
  unfold resetCommand
  split
  · exact .some h
  · split
    · exact .some h.resetPart
    · exact .some h

protected theorem Canonical.execResetPartition (h : Canonical s) {p} : NextCanonical (execResetPartition p s) :=
  .next (h.runCommand (fun _ => h.resetCommand))

protected theorem Canonical.destroyCommand (h : Canonical s) {x1 x2} : FstCanonical (destroyCommand s x1 x2) := by
  unfold destroyCommand
  split
  · exact .some h
  · split
    · exact .some h.resetPart.onPart
    · exact .some h

protected theorem Canonical.execDestroyPartition (h : Canonical s) {p} : NextCanonical (execDestroyPartition p s) :=
  .next (h.runCommand (fun _ => h.destroyCommand))

/-! ### Faults, resets and the sideband -/

protected theorem Canonical.checkWave (h : Canonical s) {t} : Canonical (checkWave s t) := by
  unfold checkWave
  split
  · exact h
  · exact h.report.contain

protected theorem Canonical.checkMatrix (h : Canonical s) {core} : Canonical (checkMatrix s core) := by
  unfold checkMatrix
  split
  · exact h
  · exact h.report.contain

protected theorem Canonical.checkColl (h : Canonical s) {d} : Canonical (checkColl s d) := by
  unfold checkColl
  split
  · exact h
  · exact h.report.parkColls

protected theorem Canonical.checkStorage (h : Canonical s) {core n} : Canonical (checkStorage s core n) := by
  unfold checkStorage
  dsimp only
  split
  · exact h.report.contain
  · exact h

protected theorem Canonical.execPipeCheck (h : Canonical s) {site} : NextCanonical (execPipeCheck site s) := by
  unfold execPipeCheck
  split
  · exact .next h.checkWave
  · exact .next h.checkMatrix
  · exact .next h.checkColl
  · exact .next h.checkStorage
  · exact .next h.onCore
  · exact .next h.onDie
  · exact .next h.onCore
  · exact .next h.onCore
  · exact .next h.onCore
  · exact .next h.onDie

protected theorem Canonical.stopChannel (h : Canonical s) {c x} : Canonical (stopChannel c s x) := by
  unfold stopChannel
  dsimp only
  split
  · exact h
  · refine h.ite ?_
    refine Canonical.ite ?_ h.stopRecord
    split
    · exact h
    · exact h.dropEngineWait.onRecord

protected theorem Canonical.settleParts (h : Canonical s) {die} : Canonical (settleParts s die) := h.foldl (fun _ _ hx => hx.returnWork)

protected theorem Canonical.warnQueues (h : Canonical s) : Canonical (warnQueues s) :=
  (h.foldl (fun _ _ hx => hx.foldl (fun _ _ hx1 => hx1.tellHost))).ite h

protected theorem Canonical.settleWork (h : Canonical s) {part} : Canonical (settleWork s part) :=
  (h.contain.parkColls.foldl (fun _ _ hx => hx.stopChannel)).settleParts

protected theorem Canonical.takeCores (h : Canonical s) {l} : Canonical (takeCores s l) := h.foldl (fun _ _ hx => hx.onCore)

protected theorem Canonical.failPart (h : Canonical s) {part} : Canonical (failPart s part) := by
  unfold failPart
  dsimp only
  split
  · exact h.update.takeCores.update.settleWork
  · exact h.update.parkColls.contain
  · exact h.update.parkColls.report
  · exact h.update.takeCores.settleWork

protected theorem Canonical.execPartFaultEvent (h : Canonical s) {part} : NextCanonical (execPartFaultEvent part s) :=
  .next h.warnQueues.report.failPart

protected theorem Canonical.execLinkFault (h : Canonical s) {port} : NextCanonical (execLinkFault port s) := .next h.warnQueues.failPart
protected theorem Canonical.execSecondCopyRestored (h : Canonical s) : NextCanonical (execSecondCopyRestored s) := .next h.update
protected theorem Canonical.loseBlock (h : Canonical s) {pa n} : Canonical (loseBlock s pa n) := h.update

protected theorem Canonical.execHbmUncorrectable (h : Canonical s) {site pa} : NextCanonical (execHbmUncorrectable site pa s) := by
  unfold execHbmUncorrectable
  dsimp only
  split
  · exact .next h
  · exact .next h.report.contain
  · refine .next ?_
    split
    · exact h
    · exact h.report.contain
  · exact .next h.report.loseBlock
  · exact .next h.report.loseBlock

protected theorem Canonical.execHbmScrub (h : Canonical s) {stack row corrected} : NextCanonical (execHbmScrub stack row corrected s) :=
  .ite (.next h.update) (.next (h.update.report.ite h.update))

protected theorem Canonical.closeWindows (h : Canonical s) {k} : Canonical (closeWindows s k) :=
  (h.foldl (fun _ _ hx => hx.windowClosed)).onWaves

protected theorem Canonical.startTest (h : Canonical s) {u} : Canonical (startTest s u) :=
  h.ite (h.foldl (fun _ _ hx => hx.closeWindows.evictGang)).onCore

protected theorem Canonical.markDue (h : Canonical s) {u} : Canonical (markDue s u) := h.onCore.tellHost.ite h.onCore

protected theorem Canonical.execInFieldTest (h : Canonical s) {u} : NextCanonical (execInFieldTest u s) := by
  unfold execInFieldTest
  dsimp only
  refine .ite (.next h) ?_
  exact .ite (.next h.markDue) (.next ((h.onCore.ite h.markDue).ite (h.onCore.ite h.markDue).startTest))

protected theorem Canonical.execInFieldTestForced (h : Canonical s) {u} : NextCanonical (execInFieldTestForced u s) :=
  .next (h.startTest.ite h)

protected theorem Canonical.execInFieldTestEnd (h : Canonical s) {u passed} : NextCanonical (execInFieldTestEnd u passed s) :=
  .ite (.next h) (.next (h.onCore.ite h.onCore.warnQueues.report.failPart))

protected theorem Canonical.clearClocks (h : Canonical s) : Canonical (clearClocks s) := h.onWaves.update
protected theorem Canonical.dropTable (h : Canonical s) {d} : Canonical (dropTable d s) := h.update
protected theorem Canonical.clearTimes (h : Canonical s) {d} : Canonical (clearTimes s d) := h.update

protected theorem Canonical.clearDie (h : Canonical s) {d} : Canonical (clearDie s d) :=
  h.dropTable.clearClocks.clearTimes.update.onDie.settleObjs

protected theorem Canonical.resetDie (h : Canonical s) {d} : Canonical (resetDie s d) := h.warnQueues.takeCores.settleWork.clearDie
protected theorem Canonical.execDieReset (h : Canonical s) {d} : NextCanonical (execDieReset d s) := .next h.resetDie

protected theorem Canonical.execFirmwareStage (h : Canonical s) {image svn build} : NextCanonical (execFirmwareStage image svn build s) :=
  .next h.update

protected theorem Canonical.execRaiseRollbackFloor (h : Canonical s) {svn signature} :
    NextCanonical (execRaiseRollbackFloor svn signature s) :=
  .next (h.update.ite h)

protected theorem Canonical.settleFlight (h : Canonical s) : Canonical (settleFlight s) :=
  h.contain.parkColls.foldl (fun _ _ hx => hx.stopChannel)

protected theorem Canonical.execPackageReset (h : Canonical s) : NextCanonical (execPackageReset s) :=
  .next h.settleFlight.clearDie.clearDie.update

theorem blank_canonical {s : State} : Canonical (blank s) := reset_memory_wf

protected theorem Canonical.startWithout (h : Canonical s) {part} : Canonical (startWithout s part) := by
  unfold startWithout
  dsimp only
  split
  · exact h.update
  · exact h.update
  · exact h.takeCores

theorem execPowerOnReset_canonical {s : State} {failed} : NextCanonical (execPowerOnReset failed s) :=
  .ite (.next blank_canonical.update) (.next (blank_canonical.update.foldl fun _ _ hx => hx.startWithout))

theorem execPowerLoss_canonical {s : State} : NextCanonical (execPowerLoss s) := .next blank_canonical.update
theorem execThermalShutdown_canonical {s : State} : NextCanonical (execThermalShutdown s) := .next blank_canonical.update
protected theorem Canonical.execAlertWrite (h : Canonical s) {v} : NextCanonical (execAlertWrite v s) := .next h.update

protected theorem Canonical.execSidebandRegisterWrite (h : Canonical s) {addr v} : NextCanonical (execSidebandRegisterWrite addr v s) := by
  unfold execSidebandRegisterWrite
  dsimp only
  split
  · exact .ite (.next h.update) (.next h)
  · exact .ite h.execDieReset (.ite h.execDieReset (.ite h.execPackageReset (.next h)))
  · exact h.execAlertWrite
  · exact .next h

protected theorem Canonical.execTemperatureAlert (h : Canonical s) {bits} : NextCanonical (execTemperatureAlert bits s) :=
  .next (h.senseNow.update.ite h.senseNow.update.tellHost)

protected theorem Canonical.execAttestationQuote (h : Canonical s) {nonce} : NextCanonical (execAttestationQuote nonce s) :=
  .next (h.tellHost.ite h)

/-! ### Events of the memory system -/

protected theorem Canonical.execPageWalk (h : Canonical s) {core p va acc} : NextCanonical (execPageWalk core p va acc s) := by
  unfold execPageWalk
  dsimp only
  split
  · exact .next h.leafFill.useEntry
  · exact .next h

protected theorem Canonical.execDemandZeroResolution (h : Canonical s) {core p va} :
    NextCanonical (execDemandZeroResolution core p va s) := by
  unfold execDemandZeroResolution
  split
  · split
    · exact .next h
    · dsimp only
      split
      · exact .next h.demandZero.leafFill
      · exact .next h.demandZero
  · exact .next h

protected theorem Canonical.execWriteApply (h : Canonical s) {d cores} : NextCanonical (execWriteApply d cores s) := .next h.applyWrite

protected theorem Canonical.execMemoryResponse (h : Canonical s) {token p} : NextCanonical (execMemoryResponse token p s) :=
  .next h.onToken

/-! ### The mirror bank -/

protected theorem Canonical.execPropose (h : Canonical s) : NextCanonical (execPropose s) :=
  .ite (.next h.trapWave) (.ite (.next h.trapWave) (.next h.onRegs))

protected theorem Canonical.execAccept (h : Canonical s) {d a held} : NextCanonical (execAccept d a held s) :=
  h.checkedState (fun _ hx => hx.trapWave.ite hx.onWave.countEvent)

protected theorem Canonical.execDiscard (h : Canonical s) : NextCanonical (execDiscard s) := .ite (.next h.trapWave) (.next h.onRegs)
protected theorem Canonical.execDraw (h : Canonical s) {d held} : NextCanonical (execDraw d held s) := h.checked
protected theorem Canonical.execDrawkey (h : Canonical s) {a b} : NextCanonical (execDrawkey a b s) := .next h.onRegs
protected theorem Canonical.execMbstat (h : Canonical s) {d a} : NextCanonical (execMbstat d a s) := h.checked

protected theorem Canonical.execMbclr (h : Canonical s) {pcnt acnt norm} : NextCanonical (execMbclr pcnt acnt norm s) :=
  .ite (.next h.trapWave) (.next h.onRegs)

/-! ### Posts of records -/

protected theorem Canonical.postRecord (h : Canonical s) {x : Posting} (hx : ∀ t pa, Canonical t → OkCanonical (x.accept t pa)) :
    Canonical (postRecord s x) := by
  unfold postRecord
  split
  · exact h.trapWave
  · split
    · exact h.stall
    · split
      · exact h.defer.retireWave
      · split
        · exact (h.waveTranslate.of_snd ‹_›).trapValue
        · exact (h.waveTranslate.of_snd ‹_›).holdWave
        · have ht := h.waveTranslate.of_snd ‹_›
          split
          · exact ht.await
          · split
            · exact ht.leaveWait.trapValue.ite ht.leaveWait.trapWave
            · exact ((hx _ _ ht.leaveWait).of_ok ‹_›).retireWave

protected theorem Canonical.execTkpost (h : Canonical s) {a} : NextCanonical (execTkpost a s) :=
  .next (h.postRecord fun _ _ ht => ht.acceptTask)

protected theorem Canonical.execLaunch (h : Canonical s) {q a} : NextCanonical (execLaunch q a s) :=
  .next (h.postRecord fun _ _ ht => ht.acceptLaunch)

end

end Sys2Proof
end

section
/-!
SUPPORT. The canonical form of global memory is kept by every step (R272): time, fetch and arbitration, every instruction and event, and the choice of what comes next.
-/

namespace Sys2Proof

open Sys2Proof.Machine

section
variable {s t : State}

/-! ### Time, fetch and arbitration -/

protected theorem Canonical.countWave (h : Canonical s) {n w} : Canonical (countWave n s w) :=
  (h.countEvent.ite h).countEvent.ite (h.countEvent.ite h)

protected theorem Canonical.countOperands (h : Canonical s) {n u} : Canonical (countOperands n s u) := by
  unfold countOperands
  split
  · exact h.ite h.countEvent
  · exact h

protected theorem Canonical.countCycles (h : Canonical s) {n} : Canonical (countCycles s n) := by
  unfold countCycles
  dsimp only
  refine (((h.foldl (fun _ _ hx => hx.countEvent)).foldl (fun _ _ hx => hx.countWave)).foldl (fun _ _ hx => hx.countOperands)).ite ?_
  exact h

protected theorem Canonical.tick (h : Canonical s) : Canonical (tick s) := h.update.onWaves.countCycles
protected theorem Canonical.fetchAll (h : Canonical s) : Canonical (fetchAll s) := h.ite (h.foldl (fun _ _ hx => hx.fetchTiles))

protected theorem Canonical.cachedWord (h : Canonical s) {c pa} : Canonical (cachedWord s c pa).2 := by
  unfold cachedWord
  dsimp only
  split
  · exact h.useL2.onCore
  · split
    · exact h
    · split
      · exact h.drawFree.useL2.onCore
      · exact h.drawFree

protected theorem Canonical.fetchWord (h : Canonical s) {va} : Canonical (fetchWord s va).2 := by
  unfold fetchWord
  dsimp only
  split
  · exact h
  · split
    · exact h.waveTranslate.of_snd ‹_›
    · exact h.waveTranslate.of_snd ‹_›
    · split
      · exact h.waveTranslate.of_snd ‹_›
      · exact (h.waveTranslate.of_snd ‹_›).cachedWord

protected theorem Canonical.switchTo (h : Canonical s) {t} : Canonical (switchTo s t) := by
  unfold switchTo
  dsimp only
  refine h.ite ?_
  split
  · exact h
  · exact h.update

protected theorem Canonical.arrive0 (h : Canonical s) : Canonical (arrive0 s) := h.onWave
protected theorem Canonical.markReady (h : Canonical s) : Canonical (markReady s) := h.ite h.onWaves
protected theorem Canonical.settle (h : Canonical s) : Canonical (settle s) := h.fetchAll.closePipes.endWaits.markReady
protected theorem Canonical.wake (h : Canonical s) : Canonical (wake s) := h.onWaves

protected theorem Canonical.account {u : State} (h : Canonical u) {t} : Canonical (account t u) := by
  unfold account
  dsimp only
  split
  · exact h
  · exact h.onWaves.countEvent

/-! ### Instructions and events -/

/-- Every instruction and every event keeps the form. -/
theorem exec_canonical (h : Canonical s) (i : Instr) : NextCanonical (exec i s) := by
  cases i with
  | nop => exact h.execNop
  | endW => exact h.execEndW
  | yieldW => exact h.execYieldW
  | jmp => exact h.execJmp
  | jmpk => exact h.execJmpk
  | call => exact h.execCall
  | ret => exact h.execRet
  | brany => exact h.execBrany
  | brall => exact h.execBrall
  | brnone => exact h.execBrnone
  | ifp => exact h.execIfp
  | elsep => exact h.execElsep
  | endifp => exact h.execEndifp
  | breakp => exact h.execBreakp
  | trap => exact h.execTrap
  | execrd => exact h.execExecrd
  | execwr => exact h.execExecwr
  | setMode => exact h.execSetMode
  | modek => exact h.execModek
  | lit => exact h.execLit
  | lith => exact h.execLith
  | getsr => exact h.execGetsr
  | setsr => exact h.execSetsr
  | eret => exact h.execEret
  | nopreempt => exact h.execNopreempt
  | preemptok => exact h.execPreemptok
  | phase => exact h.execPhase
  | add => exact h.execAdd
  | sub => exact h.execSub
  | mul => exact h.execMul
  | mulhi => exact h.execMulhi
  | mad => exact h.execMad
  | neg => exact h.execNeg
  | abs => exact h.execAbs
  | min => exact h.execMin
  | max => exact h.execMax
  | div => exact h.execDiv
  | lea => exact h.execLea
  | scaleb => exact h.execScaleb
  | cmp => exact h.execCmp
  | sel => exact h.execSel
  | classF => exact h.execClassF
  | and => exact h.execAnd
  | or => exact h.execOr
  | xor => exact h.execXor
  | not => exact h.execNot
  | andn => exact h.execAndn
  | shl => exact h.execShl
  | shr => exact h.execShr
  | sar => exact h.execSar
  | rotl => exact h.execRotl
  | clz => exact h.execClz
  | popc => exact h.execPopc
  | brev => exact h.execBrev
  | bfx => exact h.execBfx
  | bfi => exact h.execBfi
  | pnot => exact h.execPnot
  | rcp => exact h.execRcp
  | rsq => exact h.execRsq
  | sqrt => exact h.execSqrt
  | exp2 => exact h.execExp2
  | log2 => exact h.execLog2
  | ln => exact h.execLn
  | fract => exact h.execFract
  | roundi => exact h.execRoundi
  | cvt => exact h.execCvt
  | pack => exact h.execPack
  | unpack => exact h.execUnpack
  | mxq => exact h.execMxq
  | mxdq => exact h.execMxdq
  | pset => exact h.execPset
  | pand => exact h.execPand
  | por => exact h.execPor
  | shfl => exact h.execShfl
  | bfly => exact h.execBfly
  | lrot => exact h.execLrot
  | bcast => exact h.execBcast
  | vote => exact h.execVote
  | lreduce => exact h.execLreduce
  | lscan => exact h.execLscan
  | kmov => exact h.execKmov
  | kadd => exact h.execKadd
  | ksub => exact h.execKsub
  | kmul => exact h.execKmul
  | kand => exact h.execKand
  | kor => exact h.execKor
  | kxor => exact h.execKxor
  | kshl => exact h.execKshl
  | kshr => exact h.execKshr
  | kcmp => exact h.execKcmp
  | kread => exact h.execKread
  | klit => exact h.execKlit
  | propose => exact h.execPropose
  | accept => exact h.execAccept
  | discard => exact h.execDiscard
  | draw => exact h.execDraw
  | drawkey => exact h.execDrawkey
  | mbstat => exact h.execMbstat
  | mbclr => exact h.execMbclr
  | ld => exact h.execLd
  | st => exact h.execSt
  | ldq => exact h.execLdq
  | stq => exact h.execStq
  | cas => exact h.execCas
  | pref => exact h.execPref
  | pin => exact h.execPin
  | unpin => exact h.execUnpin
  | fence => exact h.execFence
  | waitp => exact h.execWaitp
  | atom => exact h.execAtom
  | atomr => exact h.execAtomr
  | mxplan => exact h.execMxplan
  | mxzero => exact h.execMxzero
  | mxstep => exact h.execMxstep
  | mxloop => exact h.execMxloop
  | mxrd => exact h.execMxrd
  | mxwr => exact h.execMxwr
  | mxmon => exact h.execMxmon
  | monrd => exact h.execMonrd
  | monclr => exact h.execMonclr
  | barinit => exact h.execBarinit
  | bararr => exact h.execBararr
  | barwait => exact h.execBarwait
  | barfree => exact h.execBarfree
  | cntadd => exact h.execCntadd
  | cntaddMax => exact h.execCntaddMax
  | cntaddSignal => exact h.execCntaddSignal
  | cntwait => exact h.execCntwait
  | cntarm => exact h.execCntarm
  | pmsel => exact h.execPmsel
  | pmrd => exact h.execPmrd
  | pmreplay => exact h.execPmreplay
  | shape => exact h.execShape
  | cpy => exact h.execCpy
  | cpym => exact h.execCpym
  | cpydq => exact h.execCpydq
  | chkick => exact h.execChkick
  | chtail => exact h.execChtail
  | tkpost => exact h.execTkpost
  | launch => exact h.execLaunch
  | rtemitRec => exact h.execRtemitRec
  | rtemitBox => exact h.execRtemitBox
  | rttake => exact h.execRttake
  | rtdone => exact h.execRtdone
  | rtrej => exact h.execRtrej
  | rtstat => exact h.execRtstat
  | wregWait => exact h.execWregWait
  | wregHold => exact h.execWregHold
  | wderegWait => exact h.execWderegWait
  | wderegHold => exact h.execWderegHold
  | wprio => exact h.execWprio
  | wquery => exact h.execWquery
  | lock => exact h.execLock
  | unlock => exact h.execUnlock
  | semtake => exact h.execSemtake
  | semgive => exact h.execSemgive
  | puts => exact h.execPuts
  | get => exact h.execGet
  | radd => exact h.execRadd
  | rfence => exact h.execRfence
  | coll => exact h.execColl
  | matrixCommandAccept => exact h.execMatrixCommandAccept
  | kStep => exact h.execKStep
  | matrixCommandRun => exact h.execMatrixCommandRun
  | copyAccept => exact h.execCopyAccept
  | copyComplete => exact h.execCopyComplete
  | channelPoll => exact h.execChannelPoll
  | recordReturn => exact h.execRecordReturn
  | streamTile => exact h.execStreamTile
  | admitGang => exact h.execAdmitGang
  | preemptEvict => exact h.execPreemptEvict
  | resumeEvicted => exact h.execResumeEvicted
  | unparkWave => exact h.execUnparkWave
  | clockGate => exact h.execClockGate
  | clockRestart => exact h.execClockRestart
  | nopreemptExpired => exact h.execNopreemptExpired
  | suspectedDeadlock => exact h.execSuspectedDeadlock
  | pageWalk => exact h.execPageWalk
  | demandZeroResolution => exact h.execDemandZeroResolution
  | writeApply => exact h.execWriteApply
  | memoryResponse => exact h.execMemoryResponse
  | taskTake => exact h.execTaskTake
  | taskCommit => exact h.execTaskCommit
  | routerSetEntry => exact h.execRouterSetEntry
  | routerSetLeave => exact h.execRouterSetLeave
  | routerMove => exact h.execRouterMove
  | pipeCheck => exact h.execPipeCheck
  | partFaultEvent => exact h.execPartFaultEvent
  | hbmUncorrectable => exact h.execHbmUncorrectable
  | hbmScrub => exact h.execHbmScrub
  | inFieldTest => exact h.execInFieldTest
  | inFieldTestForced => exact h.execInFieldTestForced
  | linkFault => exact h.execLinkFault
  | remoteRequest => exact h.execRemoteRequest
  | remoteResponse => exact h.execRemoteResponse
  | remoteTimeout => exact h.execRemoteTimeout
  | collectiveComplete => exact h.execCollectiveComplete
  | submitLaunch => exact h.execSubmitLaunch
  | submitTaskRecord => exact h.execSubmitTaskRecord
  | tlbInvalidate => exact h.execTlbInvalidate
  | releaseParkedItem => exact h.execReleaseParkedItem
  | returnParkedItem => exact h.execReturnParkedItem
  | writeRegister => exact h.execWriteRegister
  | setCollectiveGroup => exact h.execSetCollectiveGroup
  | destroyPartition => exact h.execDestroyPartition
  | createPartition => exact h.execCreatePartition
  | createLockstepPartition => exact h.execCreateLockstepPartition
  | resetPartition => exact h.execResetPartition
  | cmdkick => exact h.execCmdkick
  | commandPoll => exact h.execCommandPoll
  | hostChannelKick => exact h.execHostChannelKick
  | channelRegisterRead => exact h.execChannelRegisterRead
  | pfmodeWrite => exact h.execPfmodeWrite
  | ptrootWrite => exact h.execPtrootWrite
  | ctxsizeWrite => exact h.execCtxsizeWrite
  | vsmaxWrite => exact h.execVsmaxWrite
  | registerWrite => exact h.execRegisterWrite
  | powerOnReset => exact execPowerOnReset_canonical
  | dieReset => exact h.execDieReset
  | packageReset => exact h.execPackageReset
  | alertWrite => exact h.execAlertWrite
  | sidebandRegisterWrite => exact h.execSidebandRegisterWrite
  | temperatureAlert => exact h.execTemperatureAlert
  | thermalShutdown => exact execThermalShutdown_canonical
  | firmwareStage => exact h.execFirmwareStage
  | raiseRollbackFloor => exact h.execRaiseRollbackFloor
  | attestationQuote => exact h.execAttestationQuote
  | illegalInstr => exact h.execIllegalInstr
  | powerLoss => exact execPowerLoss_canonical
  | inFieldTestEnd => exact h.execInFieldTestEnd
  | secondCopyRestored => exact h.execSecondCopyRestored
  | contributorPackageFailure => exact h.execContributorPackageFailure
  | flitRetransmission => exact .next h

/-! ### The step -/

/-- The states that a pick carries on are canonical. -/
inductive PickCanonical : Pick → Prop
  | off : PickCanonical .off
  | exec {i : Instr} {u : State} (h : Canonical u) : PickCanonical (.exec i u)
  | issue {i : Instr} {u : State} (h : Canonical u) : PickCanonical (.issue i u)
  | trap {v u : State} (h : Canonical u) : PickCanonical (.trap v u)
  | done {u : State} (h : Canonical u) : PickCanonical (.done u)

theorem fetchPick_canonical (h : Canonical s) : PickCanonical (fetchPick s) := by
  have hcount : ∀ {u : State}, Canonical u → Canonical (if triesAgain u then u else countEvent u u.wave.ids.core (some u.wave.ids.gang) 2 1) :=
    fun hu => hu.ite hu.countEvent
  unfold fetchPick
  dsimp only
  split
  · exact .trap (h.fetchWord.of_snd ‹_›).trapValue
  · exact .done (h.fetchWord.of_snd ‹_›).holdWave
  · have ht := hcount (h.fetchWord.of_snd ‹_›)
    split
    · exact .issue ht
    · split
      · split
        · exact .trap (ht.fetchWord.of_snd ‹_›).trapValue
        · exact .done (ht.fetchWord.of_snd ‹_›).holdWave
        · exact .issue (ht.fetchWord.of_snd ‹_›)
      · exact .issue ht

theorem issuePick_canonical (h : Canonical s) : PickCanonical (issuePick s) := by
  unfold issuePick
  dsimp only
  split
  · exact .exec h.tick.arrive0
  · split
    · exact .trap (h.tick.arrive0.trapWave.onWave.ite h.tick.arrive0.trapWave)
    · exact fetchPick_canonical h.tick.arrive0

theorem ownPick_canonical (h : Canonical s) : PickCanonical (ownPick s) := by
  unfold ownPick
  split
  · exact .exec h.tick.wake
  · split
    · exact issuePick_canonical h.switchTo
    · split
      · exact .exec h.tick.wake
      · exact .done h.tick.wake

theorem agendaPick_canonical (h : Canonical s) {turn : Turn} : PickCanonical (agendaPick s turn) := by
  unfold agendaPick
  split
  · split
    · exact .exec h.tick.wake
    · exact .done h
  · split
    · exact issuePick_canonical h.switchTo
    · exact .done h

theorem pick_canonical (h : Canonical s) : PickCanonical (pick s) := by
  unfold pick
  split
  · split
    · exact .off
    · split
      · exact .done h.tick
      · exact ownPick_canonical h.settle
  · split
    · exact agendaPick_canonical h.update.settle
    · exact .done h.update

theorem issued_canonical {v : State} {o : Out} (h : NextCanonical o) : NextCanonical (issued v o) := by
  cases h with
  | next h => exact .next h.account
  | fault => exact .fault
  | refused => exact .refused

theorem step_canonical (h : Canonical s) : NextCanonical (step s) := by
  have hp := pick_canonical h
  unfold step
  generalize pick s = p at hp
  cases hp with
  | off => exact .fault
  | exec h => exact exec_canonical h _
  | issue h => exact issued_canonical (exec_canonical h _)
  | trap h => exact .next h.account
  | done h => exact .next h

end

/-- Settles O55: what the machine picks carries a canonical memory on, and every instruction, every event and the counts of the arbitration keep it. -/
theorem Settled.memoryInvariant : Obligations.MemoryInvariant := by
  unfold Obligations.MemoryInvariant
  intro s t hs hstep
  exact (step_canonical hs).of_next hstep

end Sys2Proof
end

section
/-!
SUPPORT. The windows of an address (R229 to R231): below 2^56 by the bits above the window's size, and the fabric-global form by rank and offset.
-/

namespace Sys2Proof

open Sys2Proof.Machine

section
variable (s : State) {a : Nat}

/-- The windows below 2^56. -/
theorem windowOf_below (h : a < 2 ^ 56) : windowOf s a =
    if a < 2 ^ 54 then .global a
    else if a < 2 ^ 55 then .l2direct (a - 2 ^ 54)
    else if a / 2 ^ 48 = 0xFE then .own (a % 2 ^ 48)
    else if a / 2 ^ 48 = 0xFF ∧ a % 2 ^ 48 < 2 ^ 22 then .aperture (a % 2 ^ 48 / 2 ^ 19) (a % 2 ^ 19)
    else .bad := by
  have hfabric : ¬a / 2 ^ 62 = 2 := by omega
  have hhigh : ¬a / 2 ^ 56 ≠ 0 := by omega
  rw [windowOf, if_neg hfabric, if_neg hhigh]

/-- Between 2^56 and the fabric-global addresses, and above these, lies no window. -/
theorem windowOf_bad (hfabric : a / 2 ^ 62 ≠ 2) (hhigh : 2 ^ 56 ≤ a) : windowOf s a = .bad := by
  have h : a / 2 ^ 56 ≠ 0 := by omega
  rw [windowOf, if_neg hfabric, if_pos h]

/-- A fabric-global address: the domain's metadata, this package's memory, or another package. -/
theorem windowOf_fabric {rank off : Nat} (hr : rank < 1024) (ho : off < 2 ^ 52) : windowOf s (2 ^ 63 + rank * 2 ^ 52 + off) =
    if off / 2 ^ 44 = 255 then .ndomet else if rank = s.pkg.rank.toNat then .global off else .remote rank off := by
  have hfabric : (2 ^ 63 + rank * 2 ^ 52 + off) / 2 ^ 62 = 2 := by omega
  have hblock : (2 ^ 63 + rank * 2 ^ 52 + off) / 2 ^ 44 % 256 = off / 2 ^ 44 := by omega
  have hrank : (2 ^ 63 + rank * 2 ^ 52 + off) / 2 ^ 52 % 1024 = rank := by omega
  have hoff : (2 ^ 63 + rank * 2 ^ 52 + off) % 2 ^ 52 = off := by omega
  rw [windowOf, if_pos hfabric, hblock, hrank, hoff]

end

/-- Settles O20: below 2^56 the bits above the window's size decide, a fabric-global address by its rank and offset, and no window lies elsewhere. -/
theorem Settled.addressWindows : Obligations.AddressWindows := by
  unfold Obligations.AddressWindows
  intro s a _
  refine ⟨fun h => ?_, fun hlo hhi => ?_, fun h => ?_, fun slot off hs ho e => ?_, fun rank off hr ho e hm => ?_,
    fun rank off hr ho e hm => ?_, fun hlo hhi hown hap => ?_, fun hap hoff => ?_, fun h => windowOf_bad s (by omega) (by omega)⟩
  · rw [windowOf_below s (by omega), if_pos h]
  · rw [windowOf_below s (by omega), if_neg (by omega), if_pos hhi]
  · rw [windowOf_below s (by omega), if_neg (by omega), if_neg (by omega), if_pos h]
  · have hslot : a % 2 ^ 48 / 2 ^ 19 = slot := by omega
    have hin : a % 2 ^ 19 = off := by omega
    rw [windowOf_below s (by omega), if_neg (by omega), if_neg (by omega), if_neg (by omega), if_pos (by omega), hslot, hin]
  · rw [e, windowOf_fabric s hr ho, if_neg hm]
  · rw [e, windowOf_fabric s hr ho, if_pos hm]
  · by_cases h : a < 2 ^ 56
    · rw [windowOf_below s h, if_neg (by omega), if_neg (by omega), if_neg hown, if_neg (fun x => hap x.1)]
    · exact windowOf_bad s (by omega) (by omega)
  · rw [windowOf_below s (by omega), if_neg (by omega), if_neg (by omega), if_neg (by omega), if_neg (by omega)]

end Sys2Proof
end

section
/-!
SUPPORT. Stores (R236, R256, R257): what the checks of the lanes change, what the lanes' stores leave of the wave, and the trap that reports failing lanes.
-/

namespace Sys2Proof

open Sys2Proof.Machine

/-! ### What the checks of the lanes change -/

theorem countBanks_memorySide (s : State) (uses : List OpUse) : MemorySide s (countBanks s uses) := by
  simp only [countBanks]
  split
  · exact MemorySide.refl s
  · exact countEvent_memorySide ..

theorem checkUnit_memorySide (s : State) (a n : Nat) (u : Use) : MemorySide s (checkUnit s a n u).2 := by
  simp only [checkUnit]
  split
  · exact MemorySide.refl s
  · split_ifs <;> exact MemorySide.refl s
  · split
    · exact MemorySide.refl s
    · split_ifs <;> exact MemorySide.refl s
  next va _ =>
    have h := waveTranslate_memorySide s va (if u == .load then .read else .write)
    split
    · exact MemorySide.refl s
    · split
      next e => rw [e] at h; exact h
      next e => rw [e] at h; exact h
      next e =>
        rw [e] at h
        split_ifs <;> exact h
  · split <;> exact MemorySide.refl s
  · exact MemorySide.refl s

theorem checkLanes_memorySide (s : State) (act : W32) (ea : Lanes W64) (n : Nat) (u : Use) :
    MemorySide s (checkLanes s act ea n u).2 := by
  unfold checkLanes
  suffices h : ∀ (ls : List (Fin 32)) (acc : List LaneAt × State), MemorySide s acc.2 →
      MemorySide s (ls.foldl (fun (acc : List LaneAt × State) l =>
        let r := checkUnit acc.2 ea[l].toNat n u
        (acc.1 ++ [⟨l, ea[l], r.1⟩], r.2)) acc).2 from h _ ([], s) (MemorySide.refl s)
  intro ls
  induction ls with
  | nil => exact fun _ hacc => hacc
  | cons l ls ih => exact fun acc hacc => ih _ (hacc.trans (checkUnit_memorySide acc.2 ea[l].toNat n u))

theorem MemorySide.isVersioned_eq {s t : State} (h : MemorySide s t) : isVersioned t = isVersioned s := by
  obtain ⟨_, _, _, _, _, _, _, _, rfl⟩ := h
  rfl

/-! ### What the lanes' stores leave of the wave -/

theorem writeBack_regs (w : Wave) (line : Nat) : (writeBack w line).regs = w.regs := rfl

theorem readBack_regs (w : Wave) (line : Nat) : (readBack w line).regs = w.regs := by
  unfold readBack
  split <;> rfl

theorem onToken_regs {f : Wave → Wave} (hf : ∀ w, (f w).regs = w.regs) (s : State) (t : W32) : (onToken s t f).wave.regs = s.wave.regs := by
  unfold onToken
  rw [onWaves_wave]
  split
  · exact hf _
  · rfl

theorem spillLines_regs (s : State) (c : Fin 192) (l : List (W32 × Nat)) : (spillLines s c l).wave.regs = s.wave.regs := by
  unfold spillLines
  split
  · rfl
  · rw [onCore_wave]
    exact foldl_field (fun t : State => t.wave.regs) _ (fun t x => onToken_regs (fun w => writeBack_regs w x.2) t x.1) l s

theorem privFill_regs (s : State) (w : Wave) (line : Nat) : (privFill s w line).wave.regs = s.wave.regs := by
  simp only [privFill]
  split
  · rfl
  · rw [onCore_wave, onToken_regs fun w => readBack_regs w line, spillLines_regs]

theorem waveStamp_regs (s : State) (bytes : List (Nat × W8)) : (waveStamp s bytes).wave.regs = s.wave.regs := by
  rw [waveStamp, onWave_wave, stampUnit_wave]

theorem versionUnit_wave {s t : State} {p : Fin 24} {k : GangKey} {tid : W64} {bytes : List (Nat × W8)}
    (h : versionUnit s p k tid bytes = some t) : t.wave = s.wave := by
  cases bytes with
  | nil => cases h; rfl
  | cons b bs =>
    simp only [versionUnit] at h
    split at h
    · cases h; rfl
    · split at h
      · cases h
      · cases h
        split <;> rfl

theorem storeUnit_regs {s t : State} {versioned : Bool} {l : Fin 32} {p : Place} {bytes : List W8}
    (h : storeUnit s versioned l p bytes = some t) : t.wave.regs = s.wave.regs := by
  cases p with
  | mem pa va =>
    cases versioned with
    | true => exact congrArg Wave.regs (versionUnit_wave h)
    | false => cases h; exact waveStamp_regs ..
  | own off =>
    cases h
    exact foldl_field (fun t : State => t.wave.regs) _ (fun t i => privFill_regs t t.wave i) (ownLines off bytes.length) s
  | spad i off => cases h; rfl
  | remote a => cases h; rfl

theorem performStores_regs {versioned : Bool} {data : Fin 32 → List W8} {ps : List (Fin 32 × Place)} {t : State} :
    ∀ {s : State}, performStores versioned data ps s = some t → t.wave.regs = s.wave.regs := by
  induction ps with
  | nil => intro s h; cases h; rfl
  | cons x ps ih =>
    intro s h
    simp only [performStores] at h
    split at h
    · cases h
    next e => exact (ih h).trans (storeUnit_regs e)

theorem useL2_regs (s : State) (c : Fin 192) (k : Option GangKey) (d : Fin 2) (line : Nat) (cls : Option (Fin 3)) :
    (useL2 s c k d line cls).wave.regs = s.wave.regs := by
  rw [useL2, touchL2_wave, noteLine_wave, countEvent_wave]

theorem reachLines_regs (s : State) (pol : W64) (ps : List (Fin 32 × Place)) : (reachLines s pol ps).wave.regs = s.wave.regs :=
  foldl_field (fun t : State => t.wave.regs) _ (fun t _ => useL2_regs t ..) _ s

/-! ### The lanes that fail and those that pass -/

theorem anyHeld_eq_false {lanes : List LaneAt} (h : ∀ x ∈ lanes, x.res ≠ .held) : anyHeld lanes = false := by
  rw [anyHeld, List.any_eq_false]
  exact fun x hx e => h x hx (eq_of_beq e)

/-- Where no lane's place is on another package, no write goes there. -/
theorem remoteLanes_placesOf {lanes : List LaneAt} (h : ∀ x ∈ lanes, ∀ z, x.res ≠ .ok (.remote z)) : remoteLanes (placesOf lanes) = [] := by
  rw [remoteLanes, List.filterMap_eq_nil_iff]
  intro y hy
  obtain ⟨x, hx, e⟩ := List.mem_filterMap.mp hy
  split at e
  next p hp =>
    cases e
    cases p with
    | remote z => exact absurd hp (h x hx z)
    | _ => rfl
  · cases e

/-- The lowest cause is at or below the start, stands in the list or is the start, and is below none of the list. -/
theorem foldl_lowest (l : List (LaneAt × Cause)) : ∀ m : Cause,
    let c := l.foldl (fun m x => if x.2 < m then x.2 else m) m
    (c = m ∨ ∃ x ∈ l, x.2 = c) ∧ ¬ m < c ∧ ∀ x ∈ l, ¬ x.2 < c := by
  induction l with
  | nil => exact fun m => ⟨.inl rfl, BitVec.lt_irrefl m, fun _ h => nomatch h⟩
  | cons y ys ih =>
    intro m c
    obtain ⟨hmem, hstart, hlist⟩ := ih (if y.2 < m then y.2 else m)
    change (c = _ ∨ ∃ x ∈ ys, x.2 = c) at hmem
    change ¬ _ < c at hstart
    change ∀ x ∈ ys, ¬ x.2 < c at hlist
    clear_value c
    simp only [List.mem_cons, exists_eq_or_imp, forall_eq_or_imp]
    split at hmem
    next hlt =>
      rw [if_pos hlt] at hstart
      exact ⟨.inr (hmem.imp Eq.symm id), by bv_omega, hstart, hlist⟩
    next hlt =>
      rw [if_neg hlt] at hstart
      exact ⟨hmem.imp id .inr, hstart, by bv_omega, hlist⟩

/-- The lowest cause of lanes that fail is the cause of one and above that of none (R236). -/
theorem lowestCause_least {l : List (LaneAt × Cause)} (h : l ≠ []) :
    (∃ x ∈ l, x.2 = lowestCause l) ∧ ∀ x ∈ l, ¬ x.2 < lowestCause l := by
  obtain ⟨hmem, -, hlist⟩ := foldl_lowest l 0xFF
  change lowestCause l = 0xFF ∨ _ at hmem
  refine ⟨hmem.elim (fun hff => ?_) id, hlist⟩
  obtain ⟨x, hx⟩ := List.exists_mem_of_ne_nil l h
  have hle : ¬ x.2 < lowestCause l := hlist x hx
  exact ⟨x, hx, by rw [hff] at hle ⊢; bv_omega⟩

/-- The lanes that a trap reports: those that fail a check, or, where none does, those that meet lost data (R416). -/
def reported (bad : List (LaneAt × Cause)) : List (LaneAt × Cause) :=
  if bad.all fun x => x.2 == 0x4D then bad else bad.filter fun x => x.2 != 0x4D

theorem reported_ne_nil {bad : List (LaneAt × Cause)} (h : bad ≠ []) : reported bad ≠ [] := by
  unfold reported
  split
  · exact h
  next hall =>
    intro hnil
    rw [List.filter_eq_nil_iff] at hnil
    exact hall (List.all_eq_true.mpr fun x hx => by simpa using hnil x hx)

theorem trapLanes_eq (s : State) (bad : List (LaneAt × Cause)) : trapLanes s bad =
    trapEntry s (lowestCause (reported bad)) s.wave.regs.pc ((reported bad).map fun x => ⟨x.1.lane, x.1.addr, x.2, 0⟩) := by
  have hempty : (bad.filter fun x => x.2 != 0x4D).isEmpty = bad.all fun x => x.2 == 0x4D := by
    rw [Bool.eq_iff_iff]
    simp
  simp only [trapLanes, hempty, reported]

/-! ### The store -/

/-- A store that waits for nothing and reaches no other package stores the lanes that pass and traps where a lane fails (R256, R257). -/
theorem storeOp_fails {s v : State} {uses : List OpUse} {n : Nat} {a : Src} {c : KReg} {data : Regs → Fin 32 → List W8} {r : List LaneAt × State}
    (hr : checkLanes (countBanks s uses) (activeMask s.wave.regs) (srcLanes s.wave.regs s.wave.ids.wave.val a true) n .store = r)
    (hpass : operandFault s.wave.regs uses (regsTy s.wave.regs).isSome = none) (hpol : policyBad s.wave.regs.k[c] = false)
    (hlanes : ∀ x ∈ r.1, x.res ≠ .held ∧ ∀ z, x.res ≠ .ok (.remote z)) (hbad : laneFails r.1 ≠ [])
    (hroom : placesOf r.1 ≠ [] → flightCount s.wave .store < 63) (hrel : releaseWaits r.2 s.wave.regs.k[c] (placesOf r.1) = false)
    (hmon : monWaits r.2 (placesOf r.1) = false)
    (hv : performStores (isVersioned s) (data s.wave.regs) (placesOf r.1) (reachLines r.2 s.wave.regs.k[c] (placesOf r.1)) = some v) :
    storeOp s uses n a c data = .next (trapLanes (if placesOf r.1 = [] then v else onWave v fun z => { z with flights := z.flights ++ [⟨.store, false⟩] })
      (laneFails r.1)) := by
  have hside : MemorySide s r.2 := hr ▸ (countBanks_memorySide s uses).trans (checkLanes_memorySide ..)
  have hfull : noRoom r.2 (placesOf r.1) .store = false := by
    rw [noRoom, flightRoom, hside.wave_eq]
    simpa [← not_lt] using hroom
  rw [storeOp, checkedState_next _ hpass]
  simp only [countBanks_wave, hr, hpol, anyHeld_eq_false fun x hx => (hlanes x hx).1, remoteLanes_placesOf fun x hx => (hlanes x hx).2, hfull, hrel, hmon,
    hside.isVersioned_eq, hside.wave_eq, hv, remoteWrites, List.isEmpty_iff, hbad, raiseFlight, Bool.or_self, Bool.false_eq_true, if_false, if_true,
    List.isEmpty_nil, Bool.not_true, Bool.false_and]

/-- Settles O23: the store ends in the trap of its failing lanes, whose lowest cause is the cause of a lane that it reports. -/
theorem Settled.failingStores : Obligations.FailingStores := by
  unfold Obligations.FailingStores
  intro s v a b c r w n uses data lanes t bad ps done hpass hpol hlanes hbad hroom hrel hmon hv told
  obtain ⟨hmem, hleast⟩ := lowestCause_least (reported_ne_nil hbad)
  have hstore := storeOp_fails (data := fun r l => leBytes n (srcAt r s.wave.ids.wave.val b w l).toNat) rfl hpass hpol hlanes hbad hroom hrel hmon hv
  refine ⟨trapLanes done bad, lowestCause (reported bad), hstore, hmem, hleast, ?_⟩
  have hwave : t.wave.regs = r := congrArg Wave.regs ((countBanks_memorySide s uses).trans (checkLanes_memorySide ..)).wave_eq
  have hdone : done.wave.regs = v.wave.regs := by
    by_cases hps : ps = []
    · rw [show done = v from if_pos hps]
    · rw [show done = onWave v _ from if_neg hps, onWave_wave]
  have hpc : done.wave.regs.pc = r.pc :=
    congrArg Regs.pc (hdone.trans ((performStores_regs hv).trans ((reachLines_regs t r.k[c] ps).trans hwave)))
  exact (trapLanes_eq done bad).trans (hpc ▸ rfl)

end Sys2Proof
end

section
/-!
SUPPORT. The memory system (R234, R237, R268, R277): what a walk writes to an entry and to the TLBs, the page that demand-zero resolution takes and maps, the next write of a die, and a response.
-/

namespace Sys2Proof

open Sys2Proof.Machine

theorem MemorySide.waves_eq {s t : State} (h : MemorySide s t) : t.waves = s.waves := by
  obtain ⟨_, _, _, _, _, _, _, _, rfl⟩ := h
  rfl

/-! ### Marks in an entry (R234) -/

theorem SameMemory.trans {s t u : State} (h : SameMemory s t) (g : SameMemory t u) : SameMemory s u :=
  ⟨fun pa => (g.latest pa).trans (h.latest pa), fun d tok pa => (g.view d tok pa).trans (h.view d tok pa),
    fun k pa => (g.versions k pa).trans (h.versions k pa)⟩

theorem memByte_pokeNat_other (s : State) (pa n x a : Nat) (hw : Memory.wf s.hbm = true) (h : a < pa ∨ pa + n ≤ a) :
    memByte (pokeNat s pa n x) a = memByte s a :=
  memByte_poke_other s _ a hw (keyed_outside pa _ a (by rwa [leBytes_length]))

/-- The word that a poke writes reads as written. -/
theorem memNat_pokeNat_same (s : State) (pa n x : Nat) (hw : Memory.wf s.hbm = true) : memNat (pokeNat s pa n x) pa n = x % 256 ^ n := by
  have h : memBytes (pokeNat s pa n x) pa n = leBytes n x := by
    apply List.ext_getElem
    · simp
    · intro i hi hj
      simp only [memBytes, List.getElem_map, List.getElem_range]
      exact memByte_stamp_mem s none 0 {} _ hw (keyed_nodup ..) _ (keyed_mem pa (leBytes n x) i hj)
  rw [memNat, h, leNat_leBytes]

/-- The entry at an address has been given marks, and nothing else in memory differs. -/
structure Marked (s u : State) (addr m : Nat) : Prop where
  word : memNat u addr 8 = memNat s addr 8 ||| m
  others : ∀ x, x < addr ∨ addr + 8 ≤ x → memByte u x = memByte s x
  none_same : m = 0 → SameMemory s u
  canonical : Canonical u

theorem Marked.of_same {s u : State} {addr : Nat} (h : SameMemory s u) (hw : Canonical u) : Marked s u addr 0 where
  word := (memNat_congr fun _ _ => h.latest _).trans (Nat.or_zero _).symm
  others x _ := h.latest x
  none_same _ := h
  canonical := hw

theorem Marked.trans {s t u : State} {addr m n : Nat} (h : Marked s t addr m) (g : Marked t u addr n) : Marked s u addr (m ||| n) where
  word := by rw [g.word, h.word, Nat.or_assoc]
  others x hx := (g.others x hx).trans (h.others x hx)
  none_same hz := by
    obtain ⟨hm, hn⟩ := Nat.or_eq_zero_iff.mp hz
    exact (h.none_same hm).trans (g.none_same hn)
  canonical := g.canonical

/-- A poke of the entry with one more mark. -/
theorem pokeNat_marked {s : State} {m : Nat} (addr : Nat) (hw : Canonical s) (hm : m ≠ 0) (hlt : m < 2 ^ 64) :
    Marked s (pokeNat s addr 8 (memNat s addr 8 ||| m)) addr m where
  word := by
    rw [memNat_pokeNat_same _ _ _ _ hw]
    exact Nat.mod_eq_of_lt (Nat.or_lt_two_pow (memNat_lt s addr 8) hlt)
  others x hx := memByte_pokeNat_other s addr 8 _ x hw hx
  none_same hz := absurd hz hm
  canonical := hw.pokeNat

/-! ### Fills (R234, R235) -/

theorem nodeFill_same (s : State) (d : Fin 2) (p : Fin 24) (va : Nat) : SameMemory s (nodeFill s d p va) :=
  sameMemory_of_eq (nodeFill_hbm ..) (foldl_field State.lag _ (fun _ _ => by simp) _ _) (foldl_field State.vbytes _ (fun _ _ => by simp) _ _)

theorem touchL2_same (s : State) (d : Fin 2) (line : Nat) (cls : Option (Fin 3)) : SameMemory s (touchL2 s d line cls) :=
  sameMemory_of_eq rfl rfl rfl

theorem tlbFill_same (s : State) (c : Fin 192) (e : TlbEntry) : SameMemory s (tlbFill s c e) := sameMemory_of_eq rfl rfl rfl

/-- Both TLBs of an access at a core give an entry for an address. -/
def BothHit (s : State) (c : Fin 192) (p : Fin 24) (va : Nat) (e : TlbEntry) : Prop :=
  tlbHit s.cores[c].tlb p va = some e ∧ tlbHit s.dies[coreDie c].tlb p va = some e

/-- A leaf entry that was placed first is the one that serves its page. -/
theorem tlbHit_tlbPut {e : TlbEntry} {p : Fin 24} {va n : Nat} (l : List TlbEntry) (hleaf : e.leaf = true) (hpart : e.part = p)
    (hpage : e.page = va / 2 ^ pageBits e.level) : tlbHit (tlbPut e l (n + 1)) p va = some e := by
  rw [tlbHit, tlbPut, List.take_succ_cons, List.find?_cons_of_pos]
  simp [hleaf, hpart, hpage]

theorem tlbFill_bothHit {e : TlbEntry} {p : Fin 24} {va : Nat} (s : State) (c : Fin 192) (hleaf : e.leaf = true) (hpart : e.part = p)
    (hpage : e.page = va / 2 ^ pageBits e.level) : BothHit (tlbFill s c e) c p va e := by
  constructor
  · have hcore : (tlbFill s c e).cores[c].tlb = tlbPut e s.cores[c].tlb 384 := congrArg Core.tlb (onCore_at s c fun x => { x with tlb := tlbPut e x.tlb 384 })
    rw [hcore, tlbHit_tlbPut _ hleaf hpart hpage]
  · have hdie : (tlbFill s c e).dies[coreDie c].tlb = tlbPut e s.dies[coreDie c].tlb 32768 := congrArg Die.tlb 
      (onDie_at (onCore s c fun x => { x with tlb := tlbPut e x.tlb 384 }) (coreDie c) fun x => { x with tlb := tlbPut e x.tlb 32768 })
    rw [hdie, tlbHit_tlbPut _ hleaf hpart hpage]

theorem leafFill_bothHit (s : State) (c : Fin 192) (p : Fin 24) (va lv addr pte : Nat) :
    BothHit (leafFill s c p va lv addr pte).2 c p va (entryOf p va lv addr pte) := tlbFill_bothHit _ c rfl rfl rfl

/-- A walk that ends at a leaf sets A where the entry that it read lacks it. -/
theorem leafFill_marked {s : State} (hw : Canonical s) (c : Fin 192) (p : Fin 24) (va lv addr pte : Nat) :
    Marked s (leafFill s c p va lv addr pte).2 addr (if pte / 32 % 2 = 1 then 0 else 32) := by
  have hnodes := nodeFill_same s (coreDie c) p va
  have hnw : Canonical (nodeFill s (coreDie c) p va) := hw.of_eq (nodeFill_hbm ..)
  have filled {t : State} {m : Nat} (h : Marked s t addr m) (e : TlbEntry) :
      Marked s (tlbFill (touchL2 t (homeOf addr) (addr / 128) none) c e) addr m := by
    have g := h.trans (.of_same ((touchL2_same t (homeOf addr) (addr / 128) none).trans (tlbFill_same _ c e)) (h.canonical.of_eq rfl))
    rwa [Nat.or_zero] at g
  unfold leafFill
  split
  · exact filled (.of_same hnodes hnw) _
  · have g := (Marked.of_same hnodes hnw).trans (pokeNat_marked addr hnw (m := 32) (by decide) (by decide))
    rw [Nat.zero_or] at g
    exact filled g _

/-- The use of an entry that both TLBs hold sets D for a write that the entry allows. -/
theorem useEntry_marked {s : State} {c : Fin 192} {p : Fin 24} {va : Nat} {e : TlbEntry} (hw : Canonical s) (acc : Sys2Proof.Access)
    (hhit : BothHit s c p va e) (hleaf : e.leaf = true) (hpart : e.part = p) (hpage : e.page = va / 2 ^ pageBits e.level) :
    BothHit (useEntry s c e va acc).2 c p va { e with d := e.d || (acc == .write && e.w) } ∧
      Marked s (useEntry s c e va acc).2 e.pte (if acc == .write && e.w && !e.d then 64 else 0) := by
  have unchanged (hd : (e.d || (acc == .write && e.w)) = e.d) (hm : (acc == .write && e.w && !e.d) = false) :
      BothHit s c p va { e with d := e.d || (acc == .write && e.w) } ∧
        Marked s s e.pte (if acc == .write && e.w && !e.d then 64 else 0) := by
    rw [hd, hm]
    exact ⟨hhit, .of_same (.refl s) hw⟩
  cases acc with
  | read => exact unchanged (Bool.or_false _) rfl
  | fetch => exact unchanged (Bool.or_false _) rfl
  | write =>
    simp only [useEntry]
    split
    next hro =>
      have hw0 : e.w = false := by simpa using hro
      exact unchanged (by simp [hw0]) (by simp [hw0])
    next hrw =>
      have hw1 : e.w = true := by simpa using hrw
      split
      next hd => exact unchanged (by simp [hd]) (by simp [hd])
      next hd =>
        have hm := pokeNat_marked e.pte hw (m := 64) (by decide) (by decide)
        have hmarked := hm.trans (.of_same (tlbFill_same _ c { e with d := true }) (hm.canonical.of_eq rfl))
        rw [show (e.d || (Sys2Proof.Access.write == .write && e.w)) = true by simp [hw1], if_pos (by simp [hw1, hd])]
        exact ⟨tlbFill_bothHit _ c hleaf hpart hpage, hmarked⟩

/-- PAGE_WALK at a leaf (R234): both TLBs hold the entry, with D where it has been set, and the entry in memory has its new marks. -/
theorem pageWalk_leaf {s : State} {c : Fin 192} {p : Fin 24} {va lv addr pte : Nat} (acc : Sys2Proof.Access) (hw : Canonical s)
    (hwalk : walkOn s (coreDie c) p va = .leaf lv addr pte) :
    let old := entryOf p va lv addr pte
    ∃ u, exec (.pageWalk c p va acc) s = .next u ∧ MemorySide s u ∧ BothHit u c p va { old with d := old.d || (acc == .write && old.w) } ∧
      Marked s u addr ((if pte / 32 % 2 = 1 then 0 else 32) ||| (if acc == .write && old.w && !old.d then 64 else 0)) := by
  intro old
  have hfill := leafFill_marked hw c p va lv addr pte
  obtain ⟨hhit, huse⟩ := useEntry_marked hfill.canonical acc (leafFill_bothHit s c p va lv addr pte) rfl rfl rfl
  refine ⟨(useEntry (leafFill s c p va lv addr pte).2 c old va acc).2, ?_, ?_, hhit, hfill.trans huse⟩
  · show execPageWalk c p va acc s = _
    rw [execPageWalk, hwalk]
    rfl
  · exact (leafFill_memorySide ..).trans (useEntry_memorySide ..)

/-! ### Demand-zero pages (R237, R481) -/

/-- A page that the pool gives is a page of its class. -/
theorem poolTake_page {p : Fin 24} {pool c pg : Nat} {t : State} : ∀ {n : Nat} {s : State}, poolTake p pool c n s = (some pg, t) →
    pg < 2 ^ 39 ∧ pg % 2 ^ pageBits c = 0
  | 0, s, h => nomatch h
  | n + 1, s, h => by
    simp only [poolTake] at h
    split at h
    · cases h
    · split at h
      next hpage =>
        rw [← Option.some.inj (Prod.mk.inj h).1]
        exact hpage
      · exact poolTake_page h

/-- Demand-zero resolution that succeeds maps a page of its class. -/
theorem demandZero_page {s : State} {p : Fin 24} {lv addr : Nat} (hw : Canonical s) (h : (demandZero s p lv addr).1 = true) :
    ∃ (t : State) (pg : Nat), Canonical t ∧ (demandZero s p lv addr).2 = mapZero t lv addr pg ∧ pg < 2 ^ 39 ∧ pg % 2 ^ pageBits lv = 0 := by
  have taken := poolTake_keeps p s.parts[p].dzpool.toNat lv (poolCount s s.parts[p].dzpool.toNat lv) s
  simp only [demandZero] at h ⊢
  split at h
  · cases h
  next hpool =>
    rw [if_neg hpool]
    split at h
    · cases h
    next pg t e =>
      rw [e] at taken
      exact ⟨t, pg, hw.of_keeps taken, rfl, poolTake_page e⟩

/-- A key that no cell of a list has reads the default. -/
theorem cellGet_absent {l : List Host.Cell} {a : Nat} (h : ∀ b ∈ l, b.1 ≠ a) : cellGet (0 : W8) l a = 0 := by
  induction l with
  | nil => rfl
  | cons b l ih =>
    obtain ⟨hb, hl⟩ := List.forall_mem_cons.mp h
    rw [cellGet, if_neg hb.symm, ih hl, ite_self]

theorem memByte_zeroRange {s : State} {lo n x : Nat} (hlo : lo ≤ x) (hhi : x < lo + n) : memByte (zeroRange s lo n) x = 0 :=
  cellGet_absent fun b hb e => by
    have hout := (List.mem_filter.mp hb).2
    simp only [Bool.or_eq_true, decide_eq_true_eq] at hout
    omega

/-- A page of the pool is aligned to the smallest page. -/
theorem zeroPage_aligned {lv pg : Nat} (hlv : lv < 3) (hpg : pg % 2 ^ pageBits lv = 0) : pg % 2 ^ 15 = 0 := by
  have hbits : 15 ≤ pageBits lv := by
    interval_cases lv <;> decide
  exact Nat.mod_eq_zero_of_dvd ((pow_dvd_pow 2 hbits).trans (Nat.dvd_of_mod_eq_zero hpg))

/-- The entry of a page that the firmware maps is a leaf of its level. -/
theorem readEntry_zeroPage {lv pg : Nat} (addr : Nat) (hlv : lv < 3) (hlt : pg < 2 ^ 39) (hpg : pg % 2 ^ pageBits lv = 0) :
    readEntry lv addr (7 + pg) = .inl (.leaf lv addr (7 + pg)) := by
  have h15 := zeroPage_aligned hlv hpg
  have hbase : (7 + pg) % 2 ^ 39 / 4096 * 4096 = pg := by omega
  have hleaf : ¬(lv = 3 ∨ (7 + pg) % 2 ^ 39 / 4096 * 4096 % 2 ^ pageBits lv ≠ 0) := by
    rw [hbase, hpg]
    omega
  rw [readEntry, if_neg (by omega), if_neg (by omega), if_pos (by omega), if_neg hleaf]

/-- A demand-zero entry stands below the root's level. -/
theorem readEntry_demand {lv addr e l a : Nat} (h : readEntry lv addr e = .inl (.demand l a)) : l = lv ∧ lv < 3 := by
  unfold readEntry at h
  split at h
  · split at h
    next hdemand => cases h; exact ⟨rfl, hdemand.2⟩
    · cases h
  · split_ifs at h <;> cases h

theorem walkFrom_demand {s : State} {p : Fin 24} {va lv addr : Nat} : ∀ {levels : List Nat} {base : Nat},
    walkFrom s p va levels base = .demand lv addr → lv < 3
  | [], _, h => by cases h
  | l :: levels, base, h => by
    simp only [walkFrom] at h
    split at h
    · cases h
    · split at h
      next e =>
        subst h
        obtain ⟨rfl, hlt⟩ := readEntry_demand e
        exact hlt
      · exact walkFrom_demand h

/-- The entry with A that maps a page of the pool. -/
theorem zeroPage_accessed {pg : Nat} (h15 : pg % 2 ^ 15 = 0) : (7 + pg) ||| 32 = 39 + pg := by
  obtain ⟨k, rfl⟩ := Nat.dvd_of_mod_eq_zero h15
  rw [Nat.add_comm 7, Nat.add_comm 39, Nat.two_pow_add_eq_or_of_lt (by decide : 7 < 2 ^ 15), Nat.two_pow_add_eq_or_of_lt (by decide : 39 < 2 ^ 15),
    Nat.or_assoc, show 7 ||| 32 = 39 from rfl]

/-- DEMAND_ZERO_RESOLUTION in hardware mode (R237): the page is in both TLBs by an entry with A, and reads 0 where the entry is not in it. -/
theorem demandZeroResolution_maps {s : State} {c : Fin 192} {p : Fin 24} {va lv addr : Nat} (hw : Canonical s)
    (hwalk : walkOn s (coreDie c) p va = .demand lv addr) (hmode : (s.parts[p]).pfmode.getLsbD 0 = false) (hnone : mappedLeaf s lv addr = none)
    (hzero : (demandZero s p lv addr).1 = true) :
    ∃ u pg, exec (.demandZeroResolution c p va) s = .next u ∧ MemorySide s u ∧ BothHit u c p va (entryOf p va lv addr (7 + pg)) ∧
      memNat u addr 8 = 39 + pg ∧ pg % 2 ^ pageBits lv = 0 ∧ pg < 2 ^ 39 ∧
      (addr + 8 ≤ pg ∨ pg + 2 ^ pageBits lv ≤ addr → ∀ x, pg ≤ x → x < pg + 2 ^ pageBits lv → memByte u x = 0) := by
  obtain ⟨t, pg, ht, hz, hlt, hpg⟩ := demandZero_page hw hzero
  have hlv : lv < 3 := walkFrom_demand hwalk
  have hcleared : Canonical (zeroRange t pg (2 ^ pageBits lv)) := dropRange_wf _ _ _ ht
  have hmapped : Canonical (mapZero t lv addr pg) := hcleared.pokeNat
  have hword : memNat (mapZero t lv addr pg) addr 8 = 7 + pg := by
    rw [mapZero, memNat_pokeNat_same _ _ _ _ hcleared]
    omega
  have hleaf : mappedLeaf (mapZero t lv addr pg) lv addr = some (7 + pg) := by
    rw [mappedLeaf, hword, readEntry_zeroPage addr hlv hlt hpg]
  have hmarked := leafFill_marked hmapped c p va lv addr (7 + pg)
  have h15 := zeroPage_aligned hlv hpg
  rw [if_neg (by omega)] at hmarked
  refine ⟨(leafFill (mapZero t lv addr pg) c p va lv addr (7 + pg)).2, pg, ?_, ?_, leafFill_bothHit .., ?_, hpg, hlt, fun hapart x hlo hhi => ?_⟩
  · show execDemandZeroResolution c p va s = _
    simp only [execDemandZeroResolution, hwalk, hmode, hnone, hz, hleaf, Option.isSome_none, Bool.or_self, Bool.false_eq_true, if_false]
  · exact (hz ▸ demandZero_memorySide s p lv addr).trans (leafFill_memorySide ..)
  · rw [hmarked.word, hword, zeroPage_accessed h15]
  · rw [hmarked.others x (by omega), mapZero, memByte_pokeNat_other _ _ _ _ _ hcleared (by omega), memByte_zeroRange hlo hhi]

/-! ### Writes that a die applies (R277) -/

/-- A stamped write with the mark of a die that applies the write r. -/
def markApplied (r : WriteRec) (d : Fin 2) (x : WriteRec) : WriteRec :=
  if x.home == r.home && x.stamp == r.stamp then (if d = 0 then { x with on0 := true } else { x with on1 := true }) else x

theorem patchLines_form (r : WriteRec) (l : List (Fin 192)) : ∀ s : State, ∃ cores,
    l.foldl (fun t c => onCore t c fun x => { x with l1 := x.l1.map fun y => linePatch y r }) s = { s with cores := cores } := by
  induction l with
  | nil => exact fun s => ⟨s.cores, rfl⟩
  | cons c l ih => exact fun s => ih (onCore s c _)

/-- The next write of a home is marked, counted in the die's applied writes, and patched into lines of L1. -/
theorem applyWrite_form {s : State} {d h : Fin 2} {r : WriteRec} (cs : List (Fin 192)) (hr : nextApply s d h = some r) :
    ∃ cores, applyWrite s d h cs =
      { onDie s d (fun x => { x with applied := clkRaise x.applied r.home r.stamp }) with
        lag := (s.lag.map (markApplied r d)).filter fun x => !(x.on0 && x.on1), cores := cores } := by
  simp only [applyWrite, hr]
  exact patchLines_form ..

theorem markApplied_on {r x : WriteRec} {d : Fin 2} (hhome : (markApplied r d x).home = r.home) (hstamp : (markApplied r d x).stamp = r.stamp) :
    recOn (markApplied r d x) d = true := by
  unfold markApplied at hhome hstamp ⊢
  by_cases hx : x.home = r.home ∧ x.stamp = r.stamp
  · rw [if_pos (by simpa using hx)]
    by_cases hd : d = 0 <;> simp [recOn, hd]
  · rw [if_neg (by simpa using hx)] at hhome hstamp
    exact absurd ⟨hhome, hstamp⟩ hx

theorem nextApply_home {s : State} {d h : Fin 2} {r : WriteRec} (hr : nextApply s d h = some r) : r.home = h := by
  have := List.find?_some hr
  simp only [Bool.and_eq_true, beq_iff_eq] at this
  exact this.1.1.1

/-! ### Responses (R268) -/

/-- What keeps the waves' tokens and which of them have ended keeps which wave a token finds. -/
theorem findWave_onWaves {s : State} {k : W32} {w : Wave} {f : Wave → Wave} (hf : ∀ x, (f x).ids = x.ids ∧ ((f x).run != .ended) = (x.run != .ended))
    (h : findWave s k = some w) : findWave (onWaves s f) k = some (f w) := by
  have hlive : liveWaves (onWaves s f) = (liveWaves s).map f := by
    show ((s.wave :: s.waves).map f).filter (fun x => x.run != .ended) = _
    rw [List.filter_map, liveWaves]
    simp only [Function.comp_def, fun x => (hf x).2]
  rw [findWave, hlive, List.find?_map]
  simp only [Function.comp_def, fun x => (hf x).1]
  exact congrArg (Option.map f) h

theorem findWave_onToken {s : State} {k : W32} {w : Wave} {f : Wave → Wave} (hf : ∀ x, (f x).ids = x.ids ∧ ((f x).run != .ended) = (x.run != .ended))
    (h : findWave s k = some w) : findWave (onToken s k f) k = some (f w) := by
  have htoken : w.ids.token = k := by simpa using List.find?_some (show (liveWaves s).find? _ = _ from h)
  refine (findWave_onWaves (fun x => ?_) h).trans (congrArg some (if_pos htoken))
  split
  · exact hf x
  · exact ⟨rfl, rfl⟩

/-- MEMORY_RESPONSE (R268): the oldest operation of the path leaves the wave. -/
theorem memoryResponse_lowers {s : State} {token : W32} {w : Wave} {path : FlightPath} (hfind : findWave s token = some w)
    (hcan : canRespond w path = true) :
    ∃ u, exec (.memoryResponse token path) s = .next u ∧ SameMemory s u ∧ u = { s with wave := u.wave, waves := u.waves } ∧
      findWave u token = some { w with flights := dropFlight path w.flights } := by
  refine ⟨onToken s token fun w => if canRespond w path then lowerFlight w path else w, rfl, sameMemory_of_eq rfl rfl rfl, rfl, ?_⟩
  refine (findWave_onToken (fun x => ?_) hfind).trans (congrArg some (if_pos hcan))
  split
  · exact ⟨rfl, rfl⟩
  · exact ⟨rfl, rfl⟩

/-- Settles O47: walks and demand-zero pages by what they write to the entry and the TLBs, the others clause by clause. -/
theorem Settled.memorySystem : Obligations.MemorySystem := by
  unfold Obligations.MemorySystem
  intro s c p va lv addr pte acc d h cores r token w path old entry marks zero others
  refine ⟨fun hw hwalk => ?_, fun hwalk => ?_, fun hw hwalk hmode hnone hzero => ?_, fun hwalk => ?_, fun hr => ?_, fun hr => ?_, memoryResponse_lowers⟩
  · obtain ⟨u, hu, hside, ⟨hcore, hdie⟩, hmarked⟩ := pageWalk_leaf acc hw hwalk
    exact ⟨u, hu, hside.wave_eq, hside.waves_eq, hcore, hdie, hmarked.word, hmarked.others, hmarked.none_same⟩
  · show execPageWalk c p va acc s = _
    unfold execPageWalk
    split
    next e => exact absurd e (hwalk _ _ _)
    · rfl
  · obtain ⟨u, pg, hu, hside, ⟨hcore, -⟩, hrest⟩ := demandZeroResolution_maps hw hwalk hmode hnone hzero
    exact ⟨u, pg, hu, hside.wave_eq, hside.waves_eq, hcore, hrest⟩
  · show execDemandZeroResolution c p va s = _
    unfold execDemandZeroResolution
    split
    next e => exact absurd e (hwalk _ _)
    · rfl
  · have hhome := nextApply_home hr
    obtain ⟨_, happly⟩ := applyWrite_form (cores.map fun c => Fin.ofNat 192 (96 * d.val + c.val)) hr
    refine ⟨_, congrArg Host.Outcome.next happly, rfl, rfl, rfl, hhome, ?_, fun x hx => ?_, fun y hy hyhome hystamp => ?_⟩
    · rw [← hhome]
      exact congrArg Die.applied (onDie_at s d fun x => { x with applied := clkRaise x.applied r.home r.stamp })
    · exact onDie_other s d x (fun y => { y with applied := clkRaise y.applied r.home r.stamp }) hx
    · obtain ⟨x, -, rfl⟩ := List.mem_map.mp (List.mem_filter.mp hy).1
      exact markApplied_on (hyhome.trans hhome.symm) hystamp
  · show Host.Outcome.next (applyWrite s d h _) = _
    simp only [applyWrite, hr]

end Sys2Proof
end

section
/-!
SUPPORT. The commands of a partition's chain (R235, R41, R43, R448, R454, R460, R468, R480): how a command ends, and what each of them leaves.
-/

namespace Sys2Proof

open Sys2Proof.Machine

/-! ### The end of a command (R448, R449) -/

/-- A command of one of the first seven operations that is done has run. -/
theorem command_runs {i : Instr} {s t : State} {p : Fin 24} {r : RecRun} {op : Nat} {f : CmdRun} {status : Cause} {effect : State → Prop}
    (hi : exec i s = .next (runCommand op f p s)) (h : CommandAt s p r op) (h0 : op ≠ 0) (h8 : op < 8) (hf : f s p r = some (t, status))
    (he : effect t) : CommandRuns i s p r status effect :=
  ⟨t, by rw [hi, runCommand_done h h0 h8 hf], he, finishCommand_ends t p r status⟩

/-- A form of OP 8 that is done has run. -/
theorem partitionCommand_runs {i : Instr} {s t : State} {p : Fin 24} {r : RecRun} {k : Nat} {f : CmdRun} {effect : State → Prop}
    (hi : exec i s = .next (runCommand (8 + k) f p s)) (h : CommandAt s p r 8) (hk : (cmdArg r 2).toNat = k) (h3 : k ≤ 3)
    (hf : f s p r = some (t, 0)) (he : effect t) : CommandRuns i s p r 0 effect := by
  obtain ⟨hin, hop⟩ := h
  have hcode : cmdCode r = 8 + k := by
    simp only [cmdCode, hop, hk, if_true, if_pos h3]
  refine ⟨t, ?_, he, finishCommand_ends t p r 0⟩
  rw [hi]
  simp only [runCommand, hin, hcode, hf, ne_eq, not_true_eq_false, if_false, Nat.add_eq_zero_iff, false_and, OfNat.ofNat_ne_zero]

theorem CommandRuns.imp {i : Instr} {s : State} {p : Fin 24} {r : RecRun} {status : Cause} {P Q : State → Prop} (h : CommandRuns i s p r status P)
    (himp : ∀ t, P t → Q t) : CommandRuns i s p r status Q := by
  obtain ⟨t, hexec, heffect, hends⟩ := h
  exact ⟨t, hexec, himp t heffect, hends⟩

/-! ### TLB_INVALIDATE (R235) -/

/-- What settles the table and the priorities changes priorities, the engines' waits and objects alone. -/
theorem settledTable_form (s : State) : ∃ (f : Wave → Fin 16) (es : List EngineWait) (os : List ObjEntry),
    settlePrio (sweepObjs s) = { onWaves s (fun w => { w with eprio := f w }) with engWaits := es, objs := os } := by
  obtain ⟨f, es, h⟩ := settlePrio_form (sweepObjs s)
  rw [h]
  exact ⟨f, es, _, rfl⟩

/-- Waits of a partition that a test drops. -/
theorem dropWaits_form (p : Fin 24) (stays : WaitLink → Bool) : ∃ keep : Wave → Option WaitLink,
    (∀ w, keep w = w.wait ∨ w.ids.part = p ∧ keep w = none) ∧
    (fun w : Wave => if w.ids.part = p then { w with wait := w.wait.filter stays } else w) = fun w => { w with wait := keep w } := by
  refine ⟨fun w => if w.ids.part = p then w.wait.filter stays else w.wait, fun w => ?_, funext fun w => ?_⟩
  · by_cases hp : w.ids.part = p
    · simp only [hp, true_and]
      cases w.wait with
      | none => exact .inl rfl
      | some l => cases hl : stays l <;> simp [Option.filter, hl]
    · exact .inl (if_neg hp)
  · by_cases hp : w.ids.part = p <;> simp only [hp, if_true, if_false]

/-- Records in service and waits at words of the range take the new translations, and nothing else changes but priorities and the wait-for table. -/
theorem useNew_form (s : State) (p : Fin 24) (a n : Nat) : ∃ (f : Wave → Fin 16) (keep : Wave → Option WaitLink) (turn : RecRun → RecRun)
    (es : List EngineWait) (os : List ObjEntry), (∀ w, keep w = w.wait ∨ w.ids.part = p ∧ keep w = none) ∧
    useNew s p a n = { onWaves s (fun w => { w with wait := keep w, eprio := f w }) with
      dies := s.dies.map fun d => { d with chans := d.chans.map fun c =>
        if c.part.toNat = p.val then { c with inService := c.inService.map turn } else c }
      parts := s.parts.set p { s.parts[p] with cmd := { (s.parts[p]).cmd with inService := (s.parts[p]).cmd.inService.map turn } }
      engWaits := es, objs := os } := by
  unfold useNew
  extract_lets turn move hit s1
  obtain ⟨keep, hkeep, hwave⟩ := dropWaits_form p fun l => !hit l
  have hs1 : s1 = onWaves s fun w => { w with wait := keep w } := congrArg (onWaves s) hwave
  clear_value s1
  subst hs1
  obtain ⟨f, es, os, hprio⟩ := settledTable_form { onWaves s (fun w => { w with wait := keep w }) with
    dies := s.dies.map fun d => { d with chans := d.chans.map fun c => if c.part.toNat = p.val then move c else c }
    parts := s.parts.set p { s.parts[p] with cmd := move (s.parts[p]).cmd } }
  refine ⟨fun w => f { w with wait := keep w }, keep, turn, es, os, hkeep, hprio.trans ?_⟩
  simp only [onWaves, List.map_map, Function.comp_def]
  rfl

theorem entryMeets_iff (p : Fin 24) (a n : Nat) (x : TlbEntry) : entryMeets p a n x = true ↔
    x.part = p ∧ a < x.page * 2 ^ pageBits x.level + 2 ^ pageBits x.level ∧ x.page * 2 ^ pageBits x.level < a + n := by
  simp only [entryMeets, rangesMeet, Bool.and_eq_true, beq_iff_eq, decide_eq_true_eq]

/-- The entries that stay when a test drops some. -/
theorem mem_dropped {l : List TlbEntry} {gone : TlbEntry → Bool} {x : TlbEntry} : (x ∈ l.filter fun e => !gone e) ↔ x ∈ l ∧ ¬ gone x = true := by
  rw [List.mem_filter, Bool.not_eq_true', Bool.not_eq_true]

/-- What TLB_INVALIDATE leaves (R235). -/
structure Invalidated (s t : State) (p : Fin 24) (gone : TlbEntry → Prop) : Prop where
  memory : SameMemory s t
  rest : t = { s with
    wave := t.wave, waves := t.waves, cores := t.cores, dies := t.dies, parts := t.parts, objs := t.objs, engWaits := t.engWaits
    hostLog := s.hostLog ++ [.tlbAck p] }
  cores : ∀ c : Fin 192, t.cores[c] = { s.cores[c] with tlb := t.cores[c].tlb } ∧
    ∀ x : TlbEntry, x ∈ t.cores[c].tlb ↔ x ∈ s.cores[c].tlb ∧ ¬ gone x
  dies : ∀ d : Fin 2, t.dies[d] = { s.dies[d] with tlb := t.dies[d].tlb, chans := t.dies[d].chans } ∧
    (∀ x : TlbEntry, x ∈ t.dies[d].tlb ↔ x ∈ s.dies[d].tlb ∧ ¬ gone x) ∧
    ∀ ch : Fin 96, t.dies[d].chans[ch] = { s.dies[d].chans[ch] with inService := t.dies[d].chans[ch].inService }
  others : ∀ x : Fin 24, x ≠ p → t.parts[x] = s.parts[x]
  part : t.parts[p] = { s.parts[p] with cmd := { (s.parts[p]).cmd with inService := (t.parts[p]).cmd.inService } }
  waves : ∀ (n : W32) (v : Wave), findWave s n = some v → ∃ y, findWave t n = some y ∧ y = { v with wait := y.wait, eprio := y.eprio } ∧
    (y.wait = v.wait ∨ v.ids.part = p ∧ y.wait = none)

theorem invalidated (s : State) (p : Fin 24) (a n : Nat) (gone : TlbEntry → Bool) :
    Invalidated s (tellHost (useNew (dropTlb s gone) p a n) (.tlbAck p)) p fun x => gone x = true := by
  obtain ⟨f, keep, turn, es, os, hkeep, hform⟩ := useNew_form (dropTlb s gone) p a n
  rw [hform]
  have hcore (c : Fin 192) : (dropTlb s gone).cores[c] = { s.cores[c] with tlb := s.cores[c].tlb.filter fun e => !gone e } := by simp [dropTlb]
  have hdie (d : Fin 2) : (dropTlb s gone).dies[d] = { s.dies[d] with tlb := s.dies[d].tlb.filter fun e => !gone e } := by simp [dropTlb]
  refine ⟨sameMemory_of_eq rfl rfl rfl, rfl, fun c => ?_, fun d => ?_, fun x hx => ?_, ?_, fun k v hv => ?_⟩
  · show (dropTlb s gone).cores[c] = { s.cores[c] with tlb := (dropTlb s gone).cores[c].tlb } ∧
      ∀ x : TlbEntry, x ∈ (dropTlb s gone).cores[c].tlb ↔ _
    rw [hcore]
    exact ⟨rfl, fun x => mem_dropped⟩
  · simp only [tellHost, Fin.getElem_fin, Vector.getElem_map]
    simp only [← Fin.getElem_fin, hdie]
    refine ⟨trivial, fun x => mem_dropped, fun ch => ?_⟩
    split <;> rfl
  · exact Vector.getElem_set_ne p.isLt x.isLt fun e => hx (Fin.ext e.symm)
  · simp only [tellHost, Fin.getElem_fin, Vector.getElem_set_self]
    rfl
  · exact ⟨_, findWave_onWaves (s := s) (f := fun w => { w with wait := keep w, eprio := f w }) (fun _ => ⟨rfl, rfl⟩) hv, rfl, hkeep v⟩

theorem list_any_false {α : Type} {l : List α} {q : α → Bool} (h : ∀ x ∈ l, q x = false) : l.any q = false :=
  List.any_eq_false.mpr fun x hx => Bool.not_eq_true _ ▸ h x hx

theorem vector_any_false {α : Type} {n : Nat} {v : Vector α n} {q : α → Bool} (h : ∀ i : Fin n, q v[i] = false) : v.toList.any q = false :=
  list_any_false fun x hx => by
    obtain ⟨i, hi, rfl⟩ := Vector.getElem_of_mem (Vector.mem_toList_iff.mp hx)
    exact h ⟨i, hi⟩

/-- TLB_INVALIDATE for which nothing under way holds a translation of the range. -/
theorem tlbInvalidate_runs {s : State} {p : Fin 24} {r : RecRun} {a n : Nat} (h : CommandAt s p r 3) (ha : (cmdArg r 0).toNat = a)
    (hn : (cmdArg r 1).toNat = n) (hmatrix : ∀ c : Fin 192, ∀ x ∈ s.cores[c].mxWait ++ s.cores[c].mxQueue, commandMeets p a n x = false)
    (hsaved : ∀ g ∈ s.gangs, ∀ x ∈ g.saved, commandMeets p a n x = false) (hwaves : ∀ v ∈ liveWaves s, waitMeets p a n v = false)
    (hrecords : ∀ (d : Fin 2) (ch : Fin 96), recordMeets s p a n s.dies[d].chans[ch] = false) :
    CommandRuns (.tlbInvalidate p) s p r 0 fun t => Invalidated s t p fun x => entryMeets p a n x = true := by
  have hcores : (s.cores.toList.any fun u => (u.mxWait ++ u.mxQueue).any (commandMeets p a n)) = false :=
    vector_any_false fun c => list_any_false (hmatrix c)
  have hgangs : (s.gangs.any fun g => g.saved.any (commandMeets p a n)) = false := list_any_false fun g hg => list_any_false (hsaved g hg)
  have hdies : (s.dies.toList.any fun d => d.chans.toList.any (recordMeets s p a n)) = false :=
    vector_any_false fun d => vector_any_false (hrecords d)
  have hdone : invalidateTlb s p r = some (tellHost (useNew (dropTlb s (entryMeets p a n)) p a n) (.tlbAck p), 0) := by
    simp only [invalidateTlb, ha, hn, hcores, hgangs, list_any_false hwaves, hdies, Bool.or_self, Bool.false_eq_true, if_false]
  exact command_runs rfl h (by decide) (by decide) hdone (invalidated ..)

/-! ### Parked items (R41, R43) -/

theorem engToken_isEngine {d : Fin 2} {type i : Nat} (h : type * 2 ^ 24 + i < 2 ^ 30) : (engToken d type i).getLsbD 31 = true := by
  have hd : d.val ≤ 1 := by omega
  rw [engToken, BitVec.getLsbD_ofNat, Nat.testBit_eq_decide_div_mod_eq]
  simp only [Nat.lt_add_one, decide_true, Bool.true_and, decide_eq_true_eq]
  omega

/-- Marks of engines' agents leave a state whose agent is a wave. -/
theorem spillAgent_wave (s : State) {k : W32} (tid : W64) (hk : k.getLsbD 31 = false) : spillAgent s k tid = s := by
  have hne {x : W32} (hx : x.getLsbD 31 = true) : x ≠ k := fun e => by rw [e, hk] at hx; cases hx
  have hcoll (d : Fin 2) : collAgent d ≠ k := hne (engToken_isEngine (by decide))
  have hmatrix (c : Fin 192) : matrixAgent c ≠ k := hne (engToken_isEngine (by simp only [coreNum]; omega))
  have hqueue (c : Fin 24) : queueAgent c ≠ k := hne (engToken_isEngine (by omega))
  have hchan : agentChan k = none := by simp only [agentChan, hk, Bool.false_eq_true, false_and, if_false]
  simp only [spillAgent, hchan, hmatrix, hqueue, if_false, beq_eq_false_iff_ne.mpr (hcoll _), Option.any_false, Bool.false_eq_true]
  have hcores : s.cores.mapIdx (fun _ u => u) = s.cores := by
    ext i hi
    simp
  simp only [hcores, List.map_id_fun', id_eq, Vector.map_id_fun']

theorem releaseRecords_none {s : State} (p : Fin 24) (tid : W64) (h : s.recWaits = []) : releaseRecords s p tid = s := by
  unfold releaseRecords
  rw [h]
  show { s with recWaits := [] } = s
  rw [← h]

/-- A freed wave keeps its token, and none of them ends. -/
theorem freeWave_keeps (dropsWait : Bool) (w : Wave) :
    (freeWave dropsWait w).ids = w.ids ∧ ((freeWave dropsWait w).run != .ended) = (w.run != .ended) := by
  unfold freeWave
  split
  next h =>
    refine ⟨rfl, ?_⟩
    rcases h with h | h <;> rw [h] <;> rfl
  · exact ⟨rfl, rfl⟩

/-- A parked item whose agent is one wave goes on: the wave is freed, and priorities and the wait-for table are settled. -/
theorem freeAgents_wave (s : State) {i : ParkedItem} {k : W32} (htokens : i.tokens = [k]) (hk : k.getLsbD 31 = false) (hcause : i.cause ≠ 0x29) :
    ∃ (f : Wave → Fin 16) (es : List EngineWait) (os : List ObjEntry), freeAgents s i =
      { onWaves (onToken s k (freeWave false)) (fun w => { w with eprio := f w }) with engWaits := es, objs := os } := by
  simp only [freeAgents, htokens, List.foldl_cons, List.foldl_nil, if_neg hcause, beq_eq_false_iff_ne.mpr hcause, Bool.false_and]
  split
  · rw [spillAgent_wave _ _ hk]
    exact ⟨fun w => w.eprio, s.engWaits, s.objs, by simp [onWaves, onToken]⟩
  · obtain ⟨os, hos⟩ := settleObjs_form (onToken s k (freeWave false))
    obtain ⟨f, es, hprio⟩ := settlePrio_form (settleObjs (onToken s k (freeWave false)))
    rw [hprio, hos]
    exact ⟨f, es, os, rfl⟩

/-- A partition whose parked items of an identifier have been taken. -/
def withoutItems (tid : W64) (q : Partition) : Partition := { q with parked := q.parked.filter fun i => i.tid != tid }

theorem takeItems_eq {s : State} {p : Fin 24} {tid : W64} {l : List ParkedItem} (h : ((s.parts[p]).parked.filter fun y => y.tid == tid) = l) :
    takeItems s p tid = (l, onPart s p (withoutItems tid)) := by
  rw [takeItems, h]
  rfl

theorem withoutItems_at (s : State) (p : Fin 24) (tid : W64) :
    ((onPart s p (withoutItems tid)).parts[p]).parked = (s.parts[p]).parked.filter fun y => y.tid != tid :=
  congrArg Partition.parked (onPart_at s p (withoutItems tid))

/-- What the release of a held wave's item leaves (R43). -/
structure Released (s t : State) (p : Fin 24) (tid : W64) (k : W32) (w : Wave) : Prop where
  unparked : (t.parts[p]).parked = (s.parts[p]).parked.filter fun y => y.tid != tid
  memory : SameMemory s t
  rest : t = { s with wave := t.wave, waves := t.waves, parts := t.parts, objs := t.objs, engWaits := t.engWaits }
  freed : ∃ y, findWave t k = some y ∧ y = { w with run := .parked, released := some w.regs.pc, eprio := y.eprio }

/-- RELEASE_PARKED_ITEM of an item that holds one wave. -/
theorem releaseParkedItem_runs {s : State} {p : Fin 24} {r : RecRun} {it : ParkedItem} {k : W32} {w : Wave} (h : CommandAt s p r 4)
    (harg : cmdArg r 0 = it.tid) (hitem : ((s.parts[p]).parked.filter fun y => y.tid == it.tid) = [it]) (htokens : it.tokens = [k])
    (hk : k.getLsbD 31 = false) (hcause : it.cause ≠ 0x29) (hrouter : routerLaunch s p it.tid = none) (hrecords : s.recWaits = [])
    (hfind : findWave s k = some w) (hheld : w.run = .held) :
    CommandRuns (.releaseParkedItem p) s p r 0 fun t => Released s t p it.tid k w := by
  have hrelease : releaseItem p (onPart s p (withoutItems it.tid)) it = freeAgents (onPart s p (withoutItems it.tid)) it := by
    have hnot : (!it.tokens.isEmpty) = true := by rw [htokens]; rfl
    have hr : routerLaunch (onPart s p (withoutItems it.tid)) p it.tid = none := hrouter
    have hnone := releaseRecords_none (s := onPart s p (withoutItems it.tid)) p it.tid hrecords
    simp only [releaseItem, hnot, hr, hnone, if_true, ite_self]
  have hdone : releaseParked s p r = some (freeAgents (onPart s p (withoutItems it.tid)) it, 0) := by
    rw [releaseParked, harg, takeItems_eq hitem]
    exact congrArg (fun u => some (u, (0 : Cause))) hrelease
  obtain ⟨f, es, os, hform⟩ := freeAgents_wave (onPart s p (withoutItems it.tid)) htokens hk hcause
  refine command_runs rfl h (by decide) (by decide) hdone ?_
  rw [hform]
  refine ⟨withoutItems_at s p it.tid, sameMemory_of_eq rfl rfl rfl, rfl, ?_⟩
  have hfreed := findWave_onToken (s := onPart s p (withoutItems it.tid)) (freeWave_keeps false) hfind
  exact ⟨_, findWave_onWaves (f := fun x => { x with eprio := f x }) (fun _ => ⟨rfl, rfl⟩) hfreed, by simp [freeWave, hheld]⟩

/-- A launch of which a gang has been returned with a cause (R366). -/
def returnedGang (g : GangKey) (c : Cause) (l : Launch) : Launch :=
  { l with again := l.again.filter fun i => i != g.index, returned := l.returned ++ [(g.index, c)] }

/-- The return of a gang's own task whose launch has further gangs to come. -/
theorem returnTask_more {s : State} {t : Task} {l : Launch} (c : Cause) (hgroup : t.group = none) (hl : findLaunch s t.gang.launch = some l)
    (hmore : l.nextGang ≠ l.snap.gcount) : returnTask s t c =
      onLaunch { s with tasks := s.tasks.filter fun x => !(x.tid == t.tid && x.part == t.part) } t.gang.launch (returnedGang t.gang c) ∧
    findLaunch (returnTask s t c) t.gang.launch = some (returnedGang t.gang c l) := by
  have hfound : findLaunch (onLaunch { s with tasks := s.tasks.filter fun x => !(x.tid == t.tid && x.part == t.part) } t.gang.launch
      (returnedGang t.gang c)) t.gang.launch = some (returnedGang t.gang c l) :=
    (findLaunch_onLaunch _ t.gang.launch (returnedGang t.gang c) fun _ => rfl).trans (congrArg (Option.map (returnedGang t.gang c)) hl)
  have heq : returnTask s t c =
      onLaunch { s with tasks := s.tasks.filter fun x => !(x.tid == t.tid && x.part == t.part) } t.gang.launch (returnedGang t.gang c) := by
    simp only [returnTask, hgroup]
    exact checkLaunch_more hfound hmore
  exact ⟨heq, heq ▸ hfound⟩

/-- RETURN_PARKED_ITEM of an item that holds no wave: its task is gone, and its launch counts it as returned. -/
theorem returnParkedItem_runs {s : State} {p : Fin 24} {r : RecRun} {it : ParkedItem} {tk : Task} {l : Launch} (h : CommandAt s p r 5)
    (harg : cmdArg r 0 = it.tid) (hitem : ((s.parts[p]).parked.filter fun y => y.tid == it.tid) = [it])
    (hheld : heldLaunch s p it.tid = none) (hrouter : routerLaunch s p it.tid = none) (htask : findTask s it.tid p = some tk)
    (huncommitted : tk.committed = false) (hgroup : tk.group = none) (hgang : findGang s tk.gang = none)
    (hl : findLaunch s tk.gang.launch = some l) (hmore : l.nextGang ≠ l.snap.gcount) :
    CommandRuns (.returnParkedItem p) s p r 0 fun t => (t.parts[p]).parked = ((s.parts[p]).parked.filter fun y => y.tid != it.tid) ∧
      SameMemory s t ∧ findTask t it.tid p = none ∧
      findLaunch t l.key = some (returnedGang tk.gang (BitVec.ofNat 8 (cmdArg r 1).toNat) l) := by
  have hreturn : returnItem p (BitVec.ofNat 8 (cmdArg r 1).toNat) (onPart s p (withoutItems it.tid)) it =
      returnTask (onPart s p (withoutItems it.tid)) tk (BitVec.ofNat 8 (cmdArg r 1).toNat) := by
    have hh : heldLaunch (onPart s p (withoutItems it.tid)) p it.tid = none := hheld
    have hr : routerLaunch (onPart s p (withoutItems it.tid)) p it.tid = none := hrouter
    have ht : findTask (onPart s p (withoutItems it.tid)) it.tid p = some tk := htask
    have hg : (findGang (onPart s p (withoutItems it.tid)) tk.gang).isSome = false := Option.isSome_eq_false_iff.mpr (Option.isNone_iff_eq_none.mpr hgang)
    simp only [returnItem, hh, hr, ht, hg, huncommitted, Bool.false_eq_true, if_false]
  have hdone : returnParked s p r =
      some (returnTask (onPart s p (withoutItems it.tid)) tk (BitVec.ofNat 8 (cmdArg r 1).toNat), 0) := by
    simp only [returnParked, harg, takeItems_eq hitem, List.filter_nil, List.foldl_nil, hreturn]
  obtain ⟨heq, hfound⟩ := returnTask_more (s := onPart s p (withoutItems it.tid)) (BitVec.ofNat 8 (cmdArg r 1).toNat) hgroup hl hmore
  have hkey : l.key = tk.gang.launch := by simpa using List.find?_some (show s.launches.find? _ = _ from hl)
  have hid : tk.tid = it.tid ∧ tk.part = p := by simpa using List.find?_some (show s.tasks.find? _ = _ from htask)
  refine command_runs rfl h (by decide) (by decide) hdone ⟨?_, ?_, ?_, hkey ▸ hfound⟩
  · rw [heq]
    exact withoutItems_at s p it.tid
  · rw [heq]
    exact sameMemory_of_eq rfl rfl rfl
  · rw [heq, ← hid.1, ← hid.2]
    exact List.find?_eq_none.mpr fun x hx hsame => by
      have hgone := (List.mem_filter.mp hx).2
      rw [hsame] at hgone
      cases hgone

/-- A command that names no parked item. -/
theorem noItem_runs {i : Instr} {s : State} {p : Fin 24} {r : RecRun} {op : Nat} {f : CmdRun} (hi : exec i s = .next (runCommand op f p s))
    (h0 : op ≠ 0) (h8 : op < 8) (hf : ∀ t, takeItems s p (cmdArg r 0) = ([], t) → f s p r = some (s, 0x3B))
    (hitem : ((s.parts[p]).parked.filter fun y => y.tid == cmdArg r 0) = []) (h : CommandAt s p r op) :
    CommandRuns i s p r 0x3B fun t => t = s :=
  command_runs hi h h0 h8 (hf _ (takeItems_eq hitem)) rfl

/-! ### SET_COLLECTIVE_GROUP (R454) -/

/-- The last byte of a range that stays on its page is in the window of the first. -/
theorem windowOf_samePage {s : State} {a va n : Nat} (hw : windowOf s a = .global va) (hlt : a < 2 ^ 64) (hn : 0 < n)
    (hpage : (va + n - 1) / 2 ^ 15 = va / 2 ^ 15) : windowOf s ((a + n - 1) % 2 ^ 64) = .global (va + n - 1) := by
  unfold windowOf at hw
  split at hw
  next htop =>
    split at hw
    · cases hw
    next hform =>
      split at hw
      next hrank =>
        have hva : a % 2 ^ 52 = va := by simpa using hw
        rw [windowOf, if_pos (by omega), if_neg (by omega), if_pos (by omega)]
        exact congrArg Win.global (by omega)
      · cases hw
  next htop =>
    split at hw
    · cases hw
    next hlow =>
      split at hw
      next hglobal =>
        have hva : a = va := by simpa using hw
        rw [windowOf, if_neg (by omega), if_neg (by omega), if_pos (by omega)]
        exact congrArg Win.global (by omega)
      · split_ifs at hw

theorem rangeWindow_page {s : State} {a : W64} {va n : Nat} (hw : windowOf s a.toNat = .global va) (hn : 0 < n)
    (hpage : (va + n - 1) / 2 ^ 15 = va / 2 ^ 15) : rangeWindow s a.toNat n = .ok (.global va) := by
  simp only [rangeWindow, hw, windowOf_samePage hw a.isLt hn hpage]
  rfl

/-- A read through a page that the core's TLB holds changes nothing. -/
theorem coreTranslate_read {s : State} {c : Fin 192} {p : Fin 24} {va pa : Nat} (k : Option GangKey) (h : PageAt s c p va pa) :
    coreTranslate s c k p va .read = (.ok pa, s) := by
  obtain ⟨e, hit, -, -, rfl⟩ := h
  simp only [coreTranslate, hit, Option.isNone_some, Bool.false_and, Bool.false_eq_true, if_false]
  unfold Machine.translate
  rw [hit]
  rfl

/-- An address's place on its page is at or below its physical address. -/
theorem PageAt.offset_le {s : State} {c : Fin 192} {p : Fin 24} {va pa : Nat} (h : PageAt s c p va pa) : va % 2 ^ 15 ≤ pa := by
  obtain ⟨e, -, -, -, rfl⟩ := h
  have hbits : 15 ≤ pageBits e.level := by
    unfold pageBits
    split <;> decide
  have hmod : va % 2 ^ pageBits e.level % 2 ^ 15 = va % 2 ^ 15 := Nat.mod_mod_of_dvd va (pow_dvd_pow 2 hbits)
  have := Nat.mod_le (va % 2 ^ pageBits e.level) (2 ^ 15)
  omega

/-- The rank list of a range on one page that the TLB holds. -/
theorem readRanks_page {s : State} {p : Fin 24} {a : W64} {va pa n : Nat} (hw : windowOf s a.toNat = .global va) (hn : 0 < n)
    (hpage : (va + 2 * n - 1) / 2 ^ 15 = va / 2 ^ 15) (hp : PageAt s (partCore s p) p va pa) (hlost : anyLost s = false) :
    readRanks s p a n = (.ok ((List.range n).map fun i => BitVec.ofNat 16 (memNat s (pa + 2 * i) 2)), s) := by
  have hoff := hp.offset_le
  have hpages : pagesOf va (2 * n) = [va / 2 ^ 15] := by
    simp only [pagesOf, hpage, Nat.add_sub_cancel_left]
    simp
  have hmax : max va (va / 2 ^ 15 * 2 ^ 15) = va := by omega
  have hplace (x : Nat) (hx : x < 2 * n) : paThrough [(va / 2 ^ 15, pa - va % 2 ^ 15)] (va + x) = pa + x := by
    have hsame : va / 2 ^ 15 = (va + x) / 2 ^ 15 := by omega
    simp only [paThrough, List.find?_cons, ← hsame, beq_self_eq_true, Option.map_some, Option.getD_some]
    omega
  simp only [readRanks, rangeWindow_page hw (by omega) hpage, transPages, hpages, hmax, coreTranslate_read none hp, lostRead, hlost,
    Bool.false_and, Bool.false_eq_true, if_false]
  refine congrArg (fun l => (Except.ok l, s)) (List.map_congr_left fun i hi => ?_)
  have hi := List.mem_range.mp hi
  rw [memNat, memBytes]
  refine congrArg (fun l => BitVec.ofNat 16 (leNat l)) (List.map_congr_left fun j hj => ?_)
  have hj := List.mem_range.mp hj
  rw [Nat.add_assoc, hplace _ (by omega), Nat.add_assoc]

/-- SET_COLLECTIVE_GROUP of ranks that the domain has. -/
theorem setCollectiveGroup_runs {s : State} {p : Fin 24} {r : RecRun} {a b va pa : Nat} {ranks : List W16} (h : CommandAt s p r 7)
    (ha : (cmdArg r 0).toNat = a) (hb : (cmdArg r 1).toNat = b) (ha256 : a < 256) (hb0 : 0 < b) (hb16 : b < 2 ^ 16)
    (hw : windowOf s (cmdArg r 2).toNat = .global va) (hpage : (va + 2 * b - 1) / 2 ^ 15 = va / 2 ^ 15) (hp : PageAt s (partCore s p) p va pa)
    (hlost : anyLost s = false) (hranks : ranks = (List.range b).map fun i => BitVec.ofNat 16 (memNat s (pa + 2 * i) 2))
    (hdomain : ∀ x ∈ ranks, x.toNat < s.pkg.dsize.toNat) :
    CommandRuns (.setCollectiveGroup p) s p r 0 fun t => t = { s with collGroups := t.collGroups } ∧ SameMemory s t ∧
      rankList t a = some ranks ∧ ∀ g, g ≠ a → rankList t g = rankList s g := by
  have hin : (ranks.any fun k => decide (s.pkg.dsize.toNat ≤ k.toNat)) = false :=
    list_any_false fun x hx => decide_eq_false (Nat.not_le.mpr (hdomain x hx))
  have hdone : setGroup s p r = some ({ s with collGroups := (a, ranks) :: s.collGroups.filter fun e => e.1 != a }, 0) := by
    simp only [setGroup, ha, hb, readRanks_page hw hb0 hpage hp hlost, ← hranks, hin]
    rw [if_neg (by omega)]
    rfl
  refine command_runs rfl h (by decide) (by decide) hdone ⟨rfl, sameMemory_of_eq rfl rfl rfl, ?_, fun g hg => ?_⟩
  · simp [rankList]
  · have hkeep : (fun e : Nat × List W16 => decide ((e.1 != a) = true ∧ (e.1 == g) = true)) = fun e => e.1 == g := by
      funext e
      by_cases he : e.1 = g <;> simp [he, hg]
    simp only [rankList, List.find?_cons, beq_eq_false_iff_ne.mpr (Ne.symm hg), List.find?_filter, hkeep]

/-! ### Partitions (R28, R29, R460, R468) -/

/-- Containment of no gang settles the table and the priorities alone. -/
theorem contain_nil (s : State) (c : Cause) (replay : Bool) : contain s [] c replay = settlePrio (settleObjs s) := by
  have hclosed : closeGangs s (s.gangs.length + 1) [] = [] := by
    simp [closeGangs, list_any_false (l := s.tasks) (q := fun _ => false) fun _ _ => rfl]
  simp [contain, hclosed]

theorem partArg_eq {r : RecRun} {q : Fin 24} (h : (cmdArg r 0).toNat = q.val) : partArg r = some q := by
  simp only [partArg, h, q.isLt, dif_pos]

theorem recordStatus_memorySide (s : State) (p : Fin 24) (va own : Nat) (status : Cause) (tid : W64) :
    MemorySide s (recordStatus s p va own status tid) := by
  have htrans : MemorySide s (devTranslate s p va .write).2 := by
    have h := translate_memorySide s (partCore s p) p va .write
    unfold devTranslate
    split <;> (next e => rw [e] at h; exact h)
  unfold recordStatus
  split
  next e =>
    rw [e] at htrans
    obtain ⟨_, _, _, _, _, _, hform⟩ := statusAt_form _ _ own status
    rw [hform]
    exact htrans.trans ⟨_, _, _, _, _, _, _, _, rfl⟩
  next e =>
    rw [e] at htrans
    exact htrans.trans (report_memorySide ..)

theorem foldl_memorySide {α : Type} {f : State → α → State} (hf : ∀ s x, MemorySide s (f s x)) (l : List α) :
    ∀ s : State, MemorySide s (l.foldl f s) := by
  induction l with
  | nil => exact MemorySide.refl
  | cons x xs ih => exact fun s => (hf s x).trans (ih _)

theorem MemorySide.parts_eq {s t : State} (h : MemorySide s t) : t.parts = s.parts := by
  obtain ⟨_, _, _, _, _, _, _, _, rfl⟩ := h
  rfl

/-- A record's return depends on what memory holds before and after alone. -/
theorem Returned.congr {s s' t t' : State} {pa : Nat} {c : Cause} (h : Returned s t pa c) (hs : s.hbm = s'.hbm) (ht : t.hbm = t'.hbm) :
    Returned s' t' pa c := by
  unfold Returned memNat memBytes memByte at h ⊢
  rwa [hs, ht] at h

/-- A partition holds no work but what stands in its task queues. -/
def IdlePart (s : State) (q : Fin 24) : Prop := (∀ g ∈ s.gangs, g.part ≠ q) ∧ (∀ x ∈ s.tasks, x.part ≠ q) ∧ (∀ x ∈ s.launches, x.part ≠ q)

/-- A partition without parked items. -/
def unparkedPart (x : Partition) : Partition := { x with parked := [] }

/-- A partition whose task queues are empty. -/
def emptyQueues (x : Partition) : Partition := { x with taskQ := Vector.replicate 16 [] }

theorem filter_other {α : Type} {l : List α} {part : α → Fin 24} {q : Fin 24} (h : ∀ x ∈ l, part x ≠ q) : (l.filter fun x => part x == q) = [] :=
  List.filter_eq_nil_iff.mpr fun x hx e => h x hx (beq_iff_eq.mp e)

/-- What a reset of a partition returns where no gang, task or launch of it is there: its parked items are dropped. -/
theorem returnWork_idle {s : State} {q : Fin 24} (h : IdlePart s q) (c : Cause) :
    returnWork s q c = returnEntries (onPart (settlePrio (settleObjs s)) q unparkedPart) q c := by
  obtain ⟨hgangs, htasks, hlaunches⟩ := h
  obtain ⟨os, hos⟩ := settleObjs_form s
  obtain ⟨f, es, hprio⟩ := settlePrio_form (settleObjs s)
  have hwaiting : ((settlePrio (settleObjs s)).tasks.filter fun t => t.part == q && !t.committed) = [] := by
    rw [hprio, hos]
    exact List.filter_eq_nil_iff.mpr fun x hx e => by
      rw [beq_eq_false_iff_ne.mpr (htasks x hx), Bool.false_and] at e
      cases e
  have hkeys : ((settlePrio (settleObjs s)).launches.filter fun l => l.part == q) = [] := by
    rw [hprio, hos]
    exact filter_other hlaunches
  simp only [returnWork, filter_other hgangs, List.map_nil, contain_nil, hwaiting, List.foldl_nil, hkeys]
  rfl

/-- The entries of task queues of which no task runs are all returned. -/
theorem returnEntries_idle {s : State} {q : Fin 24} (htasks : ∀ x ∈ s.tasks, x.part ≠ q) (c : Cause) :
    returnEntries s q c = onPart ((s.parts[q]).taskQ.toList.flatten.foldl (fun t e => recordStatus t q e.addr.toNat 3 c e.tid) s) q emptyQueues := by
  have hlive (e : TaskEnt) : (s.tasks.any fun t => t.tid == e.tid && t.part == q && t.committed) = false :=
    list_any_false fun x hx => by rw [beq_eq_false_iff_ne.mpr (htasks x hx), Bool.and_false, Bool.false_and]
  have hempty : (fun x : Partition => { x with taskQ := x.taskQ.map fun _ => [] }) = emptyQueues := by
    funext x
    have hq : (x.taskQ.map fun _ => ([] : List TaskEnt)) = Vector.replicate 16 [] := by
      ext i hi
      simp
    rw [hq]
    rfl
  simp only [returnEntries, hlive, Bool.not_false, List.filter_true, List.filter_false, hempty, List.flatMap_id']

/-- A partition of which all work has been returned (R468). -/
structure Emptied (s t : State) (q : Fin 24) (y : Partition) : Prop where
  others : ∀ x : Fin 24, x ≠ q → t.parts[x] = s.parts[x]
  part : t.parts[q] = { y with parked := [], taskQ := Vector.replicate 16 [] }
  objs : ∀ o ∈ t.objs, o.part ≠ q
  returned : ∀ (e : TaskEnt) (pa : Nat), (s.parts[q]).taskQ.toList.flatten = [e] → PageAt s (partCore s q) q e.addr.toNat pa →
    Memory.wf s.hbm = true → Returned s t pa 0x4F

theorem resetPart_emptied {s : State} {q : Fin 24} (h : IdlePart s q) : Emptied s (resetPart s q) q s.parts[q] := by
  obtain ⟨os, hos⟩ := settleObjs_form s
  obtain ⟨f, es, hprio⟩ := settlePrio_form (settleObjs s)
  obtain ⟨s1, hs1⟩ : ∃ s1, s1 = settlePrio (settleObjs s) := ⟨_, rfl⟩
  have hparts : s1.parts = s.parts := by rw [hs1, hprio, hos]; rfl
  have htasks : s1.tasks = s.tasks := by rw [hs1, hprio, hos]; rfl
  have hhbm : s1.hbm = s.hbm := by rw [hs1, hprio, hos]; rfl
  have hcores : s1.cores = s.cores := by rw [hs1, hprio, hos]; rfl
  have hqueue : (onPart s1 q unparkedPart).parts[q] = unparkedPart s.parts[q] := by
    rw [show (onPart s1 q unparkedPart).parts[q] = unparkedPart s1.parts[q] from onPart_at .., hparts]
  have hreset : resetPart s q = dropEntries (onPart ((s.parts[q]).taskQ.toList.flatten.foldl
      (fun t e => recordStatus t q e.addr.toNat 3 0x4F e.tid) (onPart s1 q unparkedPart)) q emptyQueues) q := by
    rw [resetPart, returnWork_idle h, ← hs1, returnEntries_idle (htasks ▸ h.2.1), hqueue]
    rfl
  have hside := foldl_memorySide (fun t (e : TaskEnt) => recordStatus_memorySide t q e.addr.toNat 3 0x4F e.tid)
    (s.parts[q]).taskQ.toList.flatten (onPart s1 q unparkedPart)
  have hkept := hside.parts_eq
  rw [hreset]
  refine ⟨fun x hx => ?_, ?_, fun o ho => ?_, fun e pa hone hp hw => ?_⟩
  · refine (onPart_other _ q x emptyQueues hx).trans ?_
    rw [hkept, onPart_other _ _ _ _ hx, hparts]
  · refine (onPart_at _ q emptyQueues).trans ?_
    rw [hkept]
    exact congrArg emptyQueues hqueue
  · simpa using (List.mem_filter.mp ho).2
  · have hcore : partCore (onPart s1 q unparkedPart) q = partCore s q := by
      simp only [partCore, hqueue]
      rfl
    have hat : PageAt (onPart s1 q unparkedPart) (partCore (onPart s1 q unparkedPart) q) q e.addr.toNat pa := by
      rw [hcore]
      unfold PageAt
      rwa [onPart_cores, hcores]
    have hstatus : recordStatus (onPart s1 q unparkedPart) q e.addr.toNat 3 0x4F e.tid = statusAt (onPart s1 q unparkedPart) pa 3 0x4F := by
      simp only [recordStatus, devTranslate_pageAt hat]
    rw [hone, List.foldl_cons, List.foldl_nil, hstatus]
    exact (statusAt_returned (onPart s1 q unparkedPart) pa 0x4F (by rwa [onPart_hbm, hhbm])).congr hhbm rfl

/-- A partition as OP 8 creates it (R448). -/
def createdPart (mask : Nat) (lockstep : Bool) (x : Partition) : Partition :=
  { x with
    present := true, clusters := BitVec.ofNat 24 mask, lockstep := lockstep, launchQ := Vector.replicate 8 []
    taskQ := Vector.replicate 16 [], accepted := 0, commits := 0, parked := [] }

theorem createPart_eq {s : State} {p q : Fin 24} {r : RecRun} {lockstep : Bool} (hq : (cmdArg r 0).toNat = q.val)
    (hmay : mayCreate s q (cmdArg r 1).toNat lockstep = true) :
    createPart lockstep s p r = some (onPart s q (createdPart (cmdArg r 1).toNat lockstep), 0) := by
  simp only [createPart, partArg_eq hq, hmay, Bool.not_true, Bool.false_eq_true, if_false]
  rfl

/-- A partition that OP 8 destroys (R448). -/
def destroyedPart (x : Partition) : Partition := { x with present := false, clusters := 0, lockstep := false }

theorem Emptied.destroyed {s t : State} {q : Fin 24} {y : Partition} (h : Emptied s t q y) :
    Emptied s (onPart t q destroyedPart) q (destroyedPart y) where
  others x hx := (onPart_other _ _ _ _ hx).trans (h.others x hx)
  part := (onPart_at t q destroyedPart).trans (congrArg destroyedPart h.part)
  objs := h.objs
  returned e pa hone hp hw := (h.returned e pa hone hp hw).congr rfl rfl

/-- Settles O49: each command by what its function leaves; its end is that of every command. -/
theorem Settled.hostCommands : Obligations.HostCommands := by
  unfold Obligations.HostCommands
  intro s p q r it k w0 tk l t0 va pa e a b ends meets unparked named ranks mask made idle emptied
  have hmeets : (fun x => entryMeets p a b x = true) = meets := funext fun x => propext (entryMeets_iff p a b x)
  have hemptied {t : State} {y : Partition} (h : Emptied s t q y) : emptied t y := ⟨h.others, h.part, h.objs, h.returned e pa⟩
  have hmade (lock : Bool) : made lock (onPart s q (createdPart b lock)) := ⟨fun x hx => onPart_other _ _ _ _ hx, rfl, onPart_at s q _⟩
  refine ⟨fun hmatrix hsaved hwaves hrecords hat => ?_, ?_, ?_, fun hitem => ⟨?_, ?_⟩, fun habsent hwrite hat => ?_, ?_, fun hq => ⟨?_, ?_, ?_, ?_⟩⟩
  · refine (tlbInvalidate_runs hat rfl rfl hmatrix hsaved hwaves hrecords).imp fun t h => ?_
    rw [hmeets] at h
    exact ⟨h.memory, h.rest, h.cores, h.dies, h.others, h.part, h.waves⟩
  · rintro ⟨harg, hitem⟩ htokens hk hcause hrouter hrecords hfind hheld hat
    exact (releaseParkedItem_runs hat harg hitem htokens hk hcause hrouter hrecords hfind hheld).imp fun t h => ⟨h.unparked, h.memory, h.rest, h.freed⟩
  · rintro ⟨harg, hitem⟩ hheld hrouter htask huncommitted hgroup hgang hl hmore hat
    exact returnParkedItem_runs hat harg hitem hheld hrouter htask huncommitted hgroup hgang hl hmore
  · exact noItem_runs rfl (by decide) (by decide) (fun t ht => by rw [releaseParked, ht]) hitem
  · exact noItem_runs rfl (by decide) (by decide) (fun t ht => by rw [returnParked, ht]) hitem
  · exact command_runs rfl hat (by decide) (by decide) (by rw [writeRegister, if_neg (by rw [habsent]; decide), hwrite]) rfl
  · intro ha256 hb0 hb16 hw hpage hp hlost hdomain hat
    exact setCollectiveGroup_runs hat rfl rfl ha256 hb0 hb16 hw hpage hp hlost rfl hdomain
  · intro hform hmay hat
    exact partitionCommand_runs (k := 1) rfl hat (by rw [hform]; rfl) (by decide) (createPart_eq hq hmay) (hmade false)
  · intro hform hmay hat
    exact partitionCommand_runs (k := 2) rfl hat (by rw [hform]; rfl) (by decide) (createPart_eq hq hmay) (hmade true)
  · intro hform hpresent hidle hat
    have hdone : resetCommand s p r = some (resetPart s q, 0) := by
      simp only [resetCommand, partArg_eq hq, hpresent, if_true]
    exact partitionCommand_runs (k := 3) rfl hat (by rw [hform]; rfl) (by decide) hdone (hemptied (resetPart_emptied hidle))
  · intro hform hpresent hidle hat
    have hdone : destroyCommand s p r = some (onPart (resetPart s q) q destroyedPart, 0) := by
      simp only [destroyCommand, partArg_eq hq, hpresent, if_true]
      rfl
    exact partitionCommand_runs (k := 0) rfl hat (by rw [hform]; rfl) (by decide) hdone (hemptied (resetPart_emptied hidle).destroyed)

end Sys2Proof
end

section
/-!
SUPPORT. What an access does to the caches (R239, R243, R244): the lines that it touches in an L2, fills in an L1 and spills from it, and what its acquire part renews.
-/

namespace Sys2Proof

open Sys2Proof.Machine

/-- What each step of a fold keeps, and what composes, the fold keeps. -/
theorem foldl_rel {σ α : Type} {R : σ → σ → Prop} (hrefl : ∀ s, R s s) (htrans : ∀ {s t u}, R s t → R t u → R s u) {f : σ → α → σ}
    (hf : ∀ s x, R s (f s x)) (l : List α) : ∀ s, R s (l.foldl f s) := by
  induction l with
  | nil => exact hrefl
  | cons x l ih => exact fun s => htrans (hf s x) (ih _)

/-! ### Lines in an L2 -/

/-- Only cores, dies, and the lines that tasks have noted differ. -/
def LineSide (s t : State) : Prop := ∃ cores dies tasks, t = { s with cores := cores, dies := dies, tasks := tasks }

theorem LineSide.refl (s : State) : LineSide s s := ⟨_, _, _, rfl⟩

theorem LineSide.trans {s t u : State} (h : LineSide s t) (g : LineSide t u) : LineSide s u := by
  obtain ⟨_, _, _, rfl⟩ := h
  obtain ⟨_, _, _, rfl⟩ := g
  exact ⟨_, _, _, rfl⟩

theorem foldl_lineSide {α : Type} {f : State → α → State} (hf : ∀ t x, LineSide t (f t x)) (l : List α) (s : State) : LineSide s (l.foldl f s) :=
  foldl_rel LineSide.refl LineSide.trans hf l s

theorem countEvent_lineSide (s : State) (c : Fin 192) (k : Option GangKey) (ev n : Nat) : LineSide s (countEvent s c k ev n) := by
  obtain ⟨_, h⟩ := countEvent_coresOnly s c k ev n
  exact ⟨_, _, _, h⟩

theorem useL2_lineSide (s : State) (c : Fin 192) (k : Option GangKey) (d : Fin 2) (line : Nat) (cls : Option (Fin 3)) :
    LineSide s (useL2 s c k d line cls) :=
  (countEvent_lineSide s c k _ 1).trans ⟨_, _, _, rfl⟩

theorem reachLines_lineSide (s : State) (pol : W64) (ps : List (Fin 32 × Place)) : LineSide s (reachLines s pol ps) :=
  foldl_lineSide (fun t _ => useL2_lineSide t ..) _ s

/-! ### Lines in an L1 -/

/-- Beside that, waves' own memory moves between their L1 and their backing areas. -/
def CacheSide (s t : State) : Prop := ∃ priv backing waves cores dies tasks,
  t = { s with wave := { s.wave with priv := priv, backing := backing }, waves := waves, cores := cores, dies := dies, tasks := tasks }

theorem CacheSide.refl (s : State) : CacheSide s s := ⟨_, _, _, _, _, _, rfl⟩

theorem CacheSide.trans {s t u : State} (h : CacheSide s t) (g : CacheSide t u) : CacheSide s u := by
  obtain ⟨_, _, _, _, _, _, rfl⟩ := h
  obtain ⟨_, _, _, _, _, _, rfl⟩ := g
  exact ⟨_, _, _, _, _, _, rfl⟩

theorem LineSide.cacheSide {s t : State} (h : LineSide s t) : CacheSide s t := by
  obtain ⟨_, _, _, rfl⟩ := h
  exact ⟨_, _, _, _, _, _, rfl⟩

theorem CacheSide.hbm {s t : State} (h : CacheSide s t) : t.hbm = s.hbm := by
  obtain ⟨_, _, _, _, _, _, rfl⟩ := h
  rfl

theorem CacheSide.groups {s t : State} (h : CacheSide s t) : t.groups = s.groups := by
  obtain ⟨_, _, _, _, _, _, rfl⟩ := h
  rfl

theorem CacheSide.vbytes {s t : State} (h : CacheSide s t) : t.vbytes = s.vbytes := by
  obtain ⟨_, _, _, _, _, _, rfl⟩ := h
  rfl

theorem CacheSide.wave {s t : State} (h : CacheSide s t) : t.wave = { s.wave with priv := t.wave.priv, backing := t.wave.backing } := by
  obtain ⟨_, _, _, _, _, _, rfl⟩ := h
  rfl

theorem foldl_cacheSide {α : Type} {f : State → α → State} (hf : ∀ t x, CacheSide t (f t x)) (l : List α) (s : State) : CacheSide s (l.foldl f s) :=
  foldl_rel CacheSide.refl CacheSide.trans hf l s

theorem onCore_cacheSide (s : State) (c : Fin 192) (f : Core → Core) : CacheSide s (onCore s c f) := ⟨_, _, _, _, _, _, rfl⟩

theorem onToken_cacheSide {f : Wave → Wave} (hf : ∀ w, f w = { w with priv := (f w).priv, backing := (f w).backing }) (s : State) (t : W32) :
    CacheSide s (onToken s t f) := by
  refine ⟨(onToken s t f).wave.priv, (onToken s t f).wave.backing, (onToken s t f).waves, s.cores, s.dies, s.tasks, ?_⟩
  unfold onToken
  simp only [onWaves]
  split
  next => rw [← hf]
  next => rfl

theorem readBack_form (w : Wave) (line : Nat) : readBack w line = { w with priv := (readBack w line).priv, backing := (readBack w line).backing } := by
  unfold readBack
  split <;> rfl

theorem spillLines_cacheSide (s : State) (c : Fin 192) (l : List (W32 × Nat)) : CacheSide s (spillLines s c l) := by
  unfold spillLines
  split
  · exact CacheSide.refl s
  · exact (foldl_cacheSide (fun t x => onToken_cacheSide (fun _ => rfl) t x.1) l s).trans (onCore_cacheSide ..)

theorem privFill_cacheSide (s : State) (w : Wave) (line : Nat) : CacheSide s (privFill s w line) := by
  simp only [privFill]
  split
  · exact onCore_cacheSide ..
  · exact ((spillLines_cacheSide s ..).trans (onToken_cacheSide (fun w => readBack_form w line) ..)).trans (onCore_cacheSide ..)

theorem l1Fill_cacheSide (s : State) (c : Fin 192) (line : Nat) : CacheSide s (l1Fill s c line) := by
  simp only [l1Fill]
  exact (spillLines_cacheSide s c _).trans (onCore_cacheSide ..)

theorem loadPrivs_cacheSide (s : State) (ps : List (Fin 32 × Place)) (n : Nat) : CacheSide s (loadPrivs s ps n) :=
  foldl_cacheSide (fun t _ => (countEvent_lineSide t ..).cacheSide.trans (privFill_cacheSide ..)) _ s

theorem fetchLines_cacheSide (s : State) (pol : W64) (ps : List (Fin 32 × Place)) : CacheSide s (fetchLines s pol ps) := by
  refine foldl_cacheSide (fun t x => ?_) (memLines ps) s
  have hmiss (u : State) : CacheSide u (useL2 u s.wave.ids.core (some s.wave.ids.gang) (waveDie s.wave) x.1 (some (evictClass pol x.2))) :=
    (useL2_lineSide u ..).cacheSide
  have hcount (ev : Nat) : CacheSide t (countEvent t s.wave.ids.core (some s.wave.ids.gang) ev 1) := (countEvent_lineSide t ..).cacheSide
  cases hnol1 : polNol1 pol with
  | true => exact hmiss t
  | false =>
    cases hhit : l1Find t t.wave x.1 with
    | some l => exact hcount 5
    | none => exact ((hcount 6).trans (hmiss _)).trans (l1Fill_cacheSide ..)

theorem prefLine_cacheSide (s : State) (pol a : W64) : CacheSide s (prefLine s pol a) := by
  unfold prefLine
  split
  · simp only
    split
    · exact CacheSide.refl s
    · split
      · exact (useL2_lineSide s ..).cacheSide
      · exact (useL2_lineSide s ..).cacheSide.trans (l1Fill_cacheSide ..)
  · exact CacheSide.refl s

/-! ### The acquire part of an access (R266, R278) -/

/-- The acquire part renews the wave's epoch, its floor and what it covers, and epochs elsewhere. -/
theorem acquirePart_form (s : State) (pol : W64) (ps : List (Fin 32 × Place)) (joins : Bool) : ∃ e floor covers waves cores,
    acquirePart s pol ps joins =
      { s with wave := { s.wave with acqEpoch := e, floor := floor, covers := covers }, waves := waves, cores := cores } := by
  unfold acquirePart
  split
  · split
    · obtain ⟨ws, cs, e, h⟩ := acquire_form s
      exact ⟨_, _, _, _, _, h⟩
    · exact ⟨_, _, _, _, _, rfl⟩
  · exact ⟨_, _, _, _, _, rfl⟩

end Sys2Proof
end

section
/-!
SUPPORT. PREF, PIN, UNPIN, FENCE and WAITP (R262 to R264, R267, R269).
-/

namespace Sys2Proof

open Sys2Proof.Machine

theorem retireWave_eq (s : State) : retireWave s 4 =
    { s with wave := { s.wave with regs := { s.wave.regs with pc := s.wave.regs.pc + 4, latch := latchAfter s.wave.regs none } } } := by
  rw [retireWave, onRegs, retire_eq]
  rfl

/-! ### PREF (R262) -/

theorem pref_next {s : State} {a : Src} {c : KReg} (hpass : operandFault s.wave.regs [.src a true] true = none)
    (hpol : policyBad s.wave.regs.k[c] = false) : ∃ t, exec (.pref a c) s = .next (retireWave t 4) ∧ CacheSide s t := by
  have hbanks : CacheSide s (countBanks s [.src a true]) := by
    rw [(countBanks_only s [.src a true]).rest, countBanks_wave]
    exact ⟨_, _, _, _, _, _, rfl⟩
  refine ⟨_, ?_, hbanks.trans (foldl_cacheSide (f := fun t l => if (activeMask s.wave.regs).getLsbD l.val then
    prefLine t s.wave.regs.k[c] (srcLanes s.wave.regs s.wave.ids.wave.val a true)[l] else t) (fun t l => ?_) laneList _)⟩
  · show execPref a c s = _
    rw [execPref, checkedState_next _ hpass]
    simp only [countBanks_wave, hpol, Bool.false_eq_true, if_false]
  · split
    · exact prefLine_cacheSide ..
    · exact CacheSide.refl t

/-! ### PIN and UNPIN (R263, R264) -/

theorem pinnedLine_memorySide (s : State) (va : Nat) : MemorySide s (pinnedLine s va).2 := by
  unfold pinnedLine
  split
  · exact waveTranslate_memorySide ..
  · exact MemorySide.refl s
  · exact MemorySide.refl s

theorem pinLines_memorySide (l : List Nat) : ∀ s : State, MemorySide s (pinLines l s).2 := by
  induction l with
  | nil => exact MemorySide.refl
  | cons va rest ih =>
    intro s
    have hline := pinnedLine_memorySide s va
    rw [pinLines_cons]
    split
    next e => rw [e] at hline; exact hline
    next e => rw [e] at hline; exact hline
    next pa t e =>
      rw [e] at hline
      have hrest := ih t
      split
      next e => rw [e] at hrest; exact hline.trans hrest
      next => exact hline.trans hrest

theorem MemorySide.gangs_eq {s t : State} (h : MemorySide s t) : t.gangs = s.gangs := by
  obtain ⟨_, _, _, _, _, _, _, _, rfl⟩ := h
  rfl

/-- What keeps the gangs' keys keeps which gang a key finds. -/
theorem findGang_onGang (s : State) (k : GangKey) (f : Gang → Gang) (hf : ∀ g, (f g).key = g.key) :
    findGang (onGang s k f) k = (findGang s k).map f := by
  have hkey : ((fun g : Gang => g.key == k) ∘ fun g => if g.key = k then f g else g) = fun g => g.key == k := by
    funext g
    simp only [Function.comp]
    split
    · rw [hf]
    · rfl
  rw [findGang, onGang, List.find?_map, hkey, findGang]
  cases h : s.gangs.find? fun g => g.key == k with
  | none => rfl
  | some g => exact congrArg some (if_pos (by simpa using List.find?_some h))

/-- A range whose lines are translated and fit into the pinned ways is pinned. -/
theorem pin_next {s t : State} {j k : KReg} {l : List Nat} (hlen : 0 < s.wave.regs.k[k].toNat) (hmax : s.wave.regs.k[k].toNat ≤ 2 ^ 21)
    (hroom : ∀ g, findGang s s.wave.ids.gang = some g → g.pins.length < 16)
    (hlines : pinLines (rangeLines s.wave.regs.k[j].toNat s.wave.regs.k[k].toNat) s = (.ok l, t)) (hfits : pinOver t (waveDie s.wave) l = false) :
    exec (.pin j k) s = .next (retireWave (l.foldl (fun x line => pinLine x (waveDie s.wave) line) (onGang t s.wave.ids.gang fun g =>
      { g with pins := g.pins ++ [⟨s.wave.regs.k[j].toNat, s.wave.regs.k[k].toNat, l⟩] })) 4) := by
  have hpins : ¬ (16 ≤ (((findGang s s.wave.ids.gang).map fun g => g.pins).getD []).length ∨ 2 ^ 21 < s.wave.regs.k[k].toNat) := by
    rintro (h | h)
    · cases hg : findGang s s.wave.ids.gang with
      | none => rw [hg] at h; simp at h
      | some g =>
        rw [hg] at h
        exact absurd (hroom g hg) (not_lt.mpr h)
    · omega
  show execPin j k s = _
  simp only [execPin, if_neg (Nat.ne_of_gt hlen), if_neg hpins, hlines, hfits, Bool.false_eq_true, if_false]

/-! ### FENCE (R267) -/

theorem fence_next {s : State} (x : Scope) {o : FenceOrder} (h : o = .acq ∨ storesAcked s (scopeNum x) = true) :
    exec (.fence x o) s = .next (if o = .rel then retireWave s 4 else retireWave (if 2 ≤ scopeNum x then acquire s else groupAcquire s) 4) := by
  have hgoes : (o != .acq && !storesAcked s (scopeNum x)) = false := by
    rcases h with rfl | h
    · rfl
    · rw [h]
      exact Bool.and_false _
  show execFence x o s = _
  rw [execFence, hgoes]
  cases o <;> rfl

/-- Settles O25: each instruction by what it leaves of the caches, the pins or the acquire of its wave. -/
theorem Settled.cacheAndOrder : Obligations.CacheAndOrder := by
  unfold Obligations.CacheAndOrder
  intro s a j k x o p w r start len next acked
  refine ⟨fun hpass hpol => ?_, fun hlen => ?_, fun l hlen hmax hroom hlines hfits => ?_, ?_, fun hgoes => ?_, fun hcount hmax => ?_⟩
  · obtain ⟨t, ht, priv, backing, waves, cores, dies, tasks, rfl⟩ := pref_next hpass hpol
    rw [retireWave_eq] at ht
    exact ⟨_, ht, sameMemory_of_eq rfl rfl rfl, rfl, rfl⟩
  · show execPin j k s = _
    rw [execPin, if_pos hlen, retireWave_eq]
  · obtain ⟨t, ht⟩ : ∃ t, pinLines (rangeLines start len) s = (.ok l, t) := ⟨_, Prod.ext hlines rfl⟩
    have hside := pinLines_memorySide (rangeLines start len) s
    rw [ht] at hside hfits ⊢
    change MemorySide s t at hside
    obtain ⟨cores, dies, tasks, hfold⟩ := foldl_lineSide (f := fun x line => pinLine x (waveDie w) line) (fun t _ => useL2_lineSide t ..) l
      (onGang t w.ids.gang fun g => { g with pins := g.pins ++ [⟨start, len, l⟩] })
    have hexec := pin_next hlen hmax hroom ht hfits
    rw [hfold, retireWave_eq] at hexec
    refine ⟨_, hexec, sameMemory_of_eq rfl rfl rfl, ?_, ?_⟩
    · simp only [onGang_wave, hside.wave_eq]
      rfl
    · refine (congrArg _ (findGang_onGang t w.ids.gang (fun g => { g with pins := g.pins ++ [⟨start, len, l⟩] }) fun _ => rfl)).trans ?_
      rw [findGang, hside.gangs_eq, Option.map_map]
      rfl
  · refine ⟨_, (congrArg Host.Outcome.next (retireWave_eq _) : exec (.unpin j k) s = _), sameMemory_of_eq rfl rfl rfl, rfl, rfl, ?_⟩
    refine (congrArg _ (findGang_onGang s w.ids.gang (fun g => { g with pins := dropPin start len g.pins }) fun _ => rfl)).trans ?_
    rw [Option.map_map]
    rfl
  · have hexec := fence_next x (o := o) hgoes
    by_cases hrel : o = .rel
    · rw [if_pos hrel, retireWave_eq] at hexec
      exact ⟨_, hexec, sameMemory_of_eq rfl rfl rfl, rfl, fun h => absurd hrel h, fun h => absurd hrel h, fun _ => rfl⟩
    · rw [if_neg hrel] at hexec
      by_cases hscope : 2 ≤ scopeNum x
      · obtain ⟨ws, cs, e, h⟩ := acquire_form s
        rw [if_pos hscope, h, retireWave_eq] at hexec
        exact ⟨_, hexec, sameMemory_of_eq rfl rfl rfl, rfl, fun _ _ => rfl, fun _ h => absurd hscope (not_le.mpr h), fun h => absurd h hrel⟩
      · rw [if_neg hscope, retireWave_eq] at hexec
        exact ⟨_, hexec, sameMemory_of_eq rfl rfl rfl, rfl, fun _ h => absurd h hscope, fun _ _ => rfl, fun h => absurd h hrel⟩
  · show execWaitp p j s = _
    rw [execWaitp, if_pos (le_min hcount hmax), retireWave_eq]

end Sys2Proof
end

section
/-!
SUPPORT. A K-step whose completion update fails (R304 to R306, R429, R430), and copies of one wave on two clusters (R268, R352).
-/

namespace Sys2Proof

open Sys2Proof.Machine

/-! ### Containment takes a gang's commands out of the queues (R429, R430) -/

/-- No command of a gang is in a queue. -/
def NoneQueued (k : GangKey) (s : State) : Prop := ∀ c : Fin 192, ∀ e ∈ s.cores[c].mxQueue, e.who.gang ≠ some k

/-- The queues of all cores are the same. -/
structure SameQueues (s t : State) : Prop where
  queues : ∀ c : Fin 192, t.cores[c].mxQueue = s.cores[c].mxQueue

theorem sameQueues_of_cores {s t : State} (h : t.cores = s.cores) : SameQueues s t := ⟨fun c => by rw [h]⟩

theorem SameQueues.trans {s t u : State} (h : SameQueues s t) (g : SameQueues t u) : SameQueues s u := ⟨fun c => (g.queues c).trans (h.queues c)⟩

theorem NoneQueued.congr {k : GangKey} {s t : State} (h : NoneQueued k s) (g : SameQueues s t) : NoneQueued k t := fun c e he => h c e (g.queues c ▸ he)

theorem foldl_sameQueues {α : Type} {f : State → α → State} (hf : ∀ t x, SameQueues t (f t x)) (l : List α) (s : State) : SameQueues s (l.foldl f s) :=
  foldl_rel (fun _ => sameQueues_of_cores rfl) SameQueues.trans hf l s

theorem mem_queue_of_foldl {α : Type} {f : State → α → State} {l : List α} {s : State} {c : Fin 192} {e : MxEntry}
    (he : e ∈ (l.foldl f s).cores[c].mxQueue) (hf : ∀ t x, SameQueues t (f t x)) : e ∈ s.cores[c].mxQueue :=
  (foldl_sameQueues hf l s).queues c ▸ he

theorem onCore_sameQueues (s : State) (c : Fin 192) {f : Core → Core} (hf : ∀ x, (f x).mxQueue = x.mxQueue) : SameQueues s (onCore s c f) := by
  refine ⟨fun x => ?_⟩
  by_cases h : x = c
  · subst h
    exact (congrArg Core.mxQueue (onCore_at s x f)).trans (hf _)
  · rw [onCore_other s c x f h]

theorem counterWrite_sameQueues (s : State) (pa x : Nat) (dep : Clk) : SameQueues s (counterWrite s deviceWriter pa x dep) := by
  obtain ⟨_, _, _, _, _, _, h⟩ := stampUnit_form s deviceWriter.core deviceWriter.token (latestClk s pa 8 dep) (keyed pa (leBytes 8 x))
  have hcores := congrArg State.cores h
  exact sameQueues_of_cores hcores

theorem withdrawSignals_sameQueues (s : State) (k : GangKey) : SameQueues s (withdrawSignals s k) := by
  unfold withdrawSignals
  refine (foldl_sameQueues (fun t e => ?_) _ s).trans (sameQueues_of_cores rfl)
  dsimp only
  split
  · exact sameQueues_of_cores rfl
  · split
    · exact counterWrite_sameQueues ..
    · exact sameQueues_of_cores rfl

theorem onDie_sameQueues (s : State) (d : Fin 2) (f : Die → Die) : SameQueues s (onDie s d f) := sameQueues_of_cores rfl

theorem endRecords_sameQueues (s : State) (k : GangKey) : SameQueues s (endRecords s k) := sameQueues_of_cores rfl

theorem killGang_noneQueued {s : State} {k : GangKey} (h : (findGang s k).isSome = true) : NoneQueued k (killGang s k) := by
  obtain ⟨g, hg⟩ := Option.isSome_iff_exists.mp h
  unfold killGang
  rw [hg]
  refine NoneQueued.congr (NoneQueued.congr (NoneQueued.congr (NoneQueued.congr ?_ (onDie_sameQueues _ 0 _)) (onDie_sameQueues _ 1 _))
    (endRecords_sameQueues _ k)) (withdrawSignals_sameQueues _ k)
  intro c e he
  have hqueue : ∀ (v : Vector Core 192) (f : Core → Core) (_ : ∀ x, (f x).mxQueue = x.mxQueue.filter fun e => e.who.gang != some k),
      e ∈ (v.map f)[c].mxQueue → e.who.gang ≠ some k := fun v f hf hin => by
    rw [show (v.map f)[c] = f v[c] from Vector.getElem_map .., hf] at hin
    exact bne_iff_ne.mp (List.mem_filter.mp hin).2
  split at he
  · replace he := mem_queue_of_foldl he fun t x => onCore_sameQueues t x.core fun _ => rfl
    exact hqueue _ _ (fun _ => rfl) (mem_queue_of_foldl he fun t x => sameQueues_of_cores rfl)
  · exact hqueue _ _ (fun _ => rfl) (mem_queue_of_foldl he fun t x => sameQueues_of_cores rfl)

/-- With no task the closure of a set of gangs adds none (R429). -/
theorem closeGangs_noTasks {s : State} (h : s.tasks = []) (n : Nat) (l : List GangKey) : closeGangs s n l = l := by
  cases n with
  | zero => rfl
  | succ n =>
    simp [closeGangs, h]

/-- Containment of a gang where no task is left takes its commands out of the queues. -/
theorem contain_noneQueued {s : State} {k : GangKey} (htasks : s.tasks = []) (hfound : (findGang s k).isSome = true) (c : Cause) (replay : Bool) :
    NoneQueued k (contain s [k] c replay) := by
  have hcontain : contain s [k] c replay = settlePrio (settleObjs (killGang s k)) := by
    simp [contain, closeGangs_noTasks htasks, htasks, hfound]
  obtain ⟨_, hobjs⟩ := settleObjs_form (killGang s k)
  obtain ⟨_, _, hprio⟩ := settlePrio_form (settleObjs (killGang s k))
  rw [hcontain]
  refine (killGang_noneQueued hfound).congr (sameQueues_of_cores ?_)
  rw [hprio, hobjs]
  rfl

theorem completionFails_noneQueued {s : State} {who : Issuer} {k : GangKey} (htoken : who.token = 0) (hgang : who.gang = some k) (htasks : s.tasks = [])
    (hfound : (findGang s k).isSome = true) (a : W64) (c : Cause) : NoneQueued k (completionFails s who a c) := by
  have hover : gangOver s k = false := by
    rw [gangOver, htasks, ← Option.not_isSome, hfound]
    rfl
  simp only [completionFails, engineRecords, htoken, or_true, if_true, hgang, hover, Bool.false_eq_true, if_false]
  refine contain_noneQueued ?_ ?_ c false
  · exact htasks
  · exact hfound

/-- A completion update at an address that is not mapped takes the gang's commands out of the queues (R305). -/
theorem completeAt_noneQueued {s : State} {who : Issuer} {k : GangKey} {a : W64} {va : Nat} {c : Cause} (hwindow : windowOf s a.toNat = .global va)
    (hfail : (coreTranslate s who.core who.gang who.part va .write).1 = .fail c) (htoken : who.token = 0) (hgang : who.gang = some k)
    (htasks : s.tasks = []) (hfound : (findGang s k).isSome = true) (n : Nat) (err : Bool) (v : Clk) :
    NoneQueued k (completeAt s who none a n err v) := by
  have hside := coreTranslate_memorySide s who.core who.gang who.part va .write
  obtain ⟨t, ht⟩ : ∃ t, coreTranslate s who.core who.gang who.part va .write = (.fail c, t) := ⟨_, Prod.ext hfail rfl⟩
  rw [ht] at hside
  obtain ⟨_, _, _, _, _, _, _, _, rfl⟩ := hside
  simp only [completeAt, hwindow, ht]
  refine completionFails_noneQueued htoken hgang ?_ ?_ a c
  · exact htasks
  · exact hfound

/-! ### A completion update that fails contains the gang (R305)

No page is mapped, so the update of a counter in global memory fails with NOT_MAPPED: the gang is killed, and its commands leave the queue. -/

/-- The gang whose step it is. -/
def steppingGang : Gang := ⟨⟨0, 0⟩, 0, 0, 1, 1, [], none, false, []⟩

/-- Its group, with empty tiles and slots. -/
def steppingGroup : Group :=
  { gang := ⟨0, 0⟩, index := 0, core := 0, base := 0, slots := [], spad := [], spadSize := 0, spadClk := [], spadJoin := [], bars := []
    tiles := Vector.replicate 4 [], mons := Vector.replicate 8 (Vector.replicate 6 0), stage := 0, held := none, taken := false, task := none
    idleSince := none, left := false, pmSaved := none, endedWaves := [] }

/-- The issuer of the loop. -/
def steppingIssuer : Issuer := ⟨0, some ⟨0, 0⟩, 0, 0, 0, 0, none, {}, [], false⟩

/-- A loop of two steps, the first of which is to come, with a counter at the global address 0 as its completion object. -/
def unmappedLoop : MxCmd := .steps 0 0 0 0 (some 0) [] 2 1 0

/-- The loop at the head of the queue of core 0. -/
def unmappedStep : State :=
  onCore { State.reset with groups := [steppingGroup], gangs := [steppingGang] } 0 fun c => { c with mxQueue := [⟨unmappedLoop, steppingIssuer, false⟩] }

theorem unmappedStep_queue : unmappedStep.cores[(0 : Fin 192)].mxQueue = [⟨unmappedLoop, steppingIssuer, false⟩] :=
  congrArg Core.mxQueue (onCore_at ..)

/-- The step runs, and no command of the gang is queued then. -/
theorem unmappedStep_runs : ∃ u, exec (.kStep 0) unmappedStep = .next u ∧ NoneQueued ⟨0, 0⟩ u := by
  refine ⟨settleObjs (completeAt _ steppingIssuer none _ 0 false _), rfl, ?_⟩
  refine NoneQueued.congr (s := completeAt _ steppingIssuer none _ 0 false _) ?_ (sameQueues_of_cores (settleObjs_cores _))
  refine completeAt_noneQueued (va := 0) (c := 0x20) ?_ ?_ rfl rfl ?_ ?_ 0 false _
  · decide +kernel
  · decide +kernel
  · rfl
  · decide +kernel

/-- Refutes O28: the first step of a loop of two, whose completion object is a counter on a page that is not mapped, leaves no second step in the queue, since the failed update contains the gang (R305). -/
theorem Settled.not_matrixSteps : ¬ Obligations.MatrixSteps := by
  unfold Obligations.MatrixSteps
  rintro ⟨-, h⟩
  obtain ⟨u, hu, hqueue, -⟩ := h unmappedStep 0 0 0 0 0 (some 0) [] 2 1 0 steppingIssuer false [] ⟨0, 0⟩ steppingGroup unmappedStep_queue rfl
    (by decide +kernel) rfl rfl rfl rfl rfl
  obtain ⟨t, ht, hnone⟩ := unmappedStep_runs
  rw [ht] at hu
  cases hu
  have hleft : (⟨.steps 0 0 0 0 (some 0) [] 2 1 1, steppingIssuer, false⟩ : MxEntry) ∈ u.cores[(0 : Fin 192)].mxQueue := by
    rw [hqueue]
    exact List.mem_cons_self ..
  exact hnone 0 _ hleft rfl

/-! ### Copies of one token on two clusters (R352)

A wave's copies keep their order in its issue buffer, whichever cluster they wait for. -/

/-- A copy of token 1, issued on a core, that waits to be accepted. -/
def queuedCopy (c : Fin 192) : CopyOp := ⟨.plain, 0, 0, 0, 0, 0, ⟨0, none, 0, c, 0, 1, none, {}, [], false⟩, false, none, none, none, 0, 0⟩

/-- On die 0 waits a copy of cluster 1, and behind it one of cluster 0 with the same token. -/
def sharedBuffer : State := onDie State.reset 0 fun d => { d with copyWait := [queuedCopy 8, queuedCopy 0] }

/-- Cluster 0 accepts nothing. -/
theorem sharedBuffer_waits : exec (.copyAccept 0) sharedBuffer = .next sharedBuffer := rfl

/-- Refutes O37: a copy that is the first of its cluster waits behind a copy of the same token that waits for another cluster of the die. -/
theorem Settled.not_copyEngine : ¬ Obligations.CopyEngine := by
  unfold Obligations.CopyEngine
  intro h
  obtain ⟨haccept, -⟩ := h sharedBuffer 0 0 (queuedCopy 0) ⟨0, 0⟩ [queuedCopy 8] []
  obtain ⟨u, hu, -, -, hdie, -⟩ := haccept rfl rfl (by decide) (by decide +kernel) rfl rfl (.inl rfl) rfl
  rw [sharedBuffer_waits] at hu
  cases hu
  exact absurd (congrArg (fun d => d.copyWait.length) hdie) (by decide +kernel)

end Sys2Proof
end

section
/-!
SUPPORT. Loads (R253, R257, R279): a load that waits for nothing and reaches no other package, and where its bytes come from.
-/

namespace Sys2Proof

open Sys2Proof.Machine

/-! ### The lanes that pass -/

theorem mem_placesOf {lanes : List LaneAt} {x : Fin 32 × Place} (h : x ∈ placesOf lanes) : ∃ y ∈ lanes, y.lane = x.1 ∧ y.res = .ok x.2 := by
  obtain ⟨y, hy, e⟩ := List.mem_filterMap.mp h
  split at e
  next p hp => cases e; exact ⟨y, hy, rfl, hp⟩
  next => cases e

/-- Every lane passes its checks on this package (R236, R255). -/
def PassHere (lanes : List LaneAt) : Prop := ∀ x ∈ lanes, ∃ p, x.res = .ok p ∧ ∀ z, p ≠ .remote z

section
variable {lanes : List LaneAt} (h : PassHere lanes)
include h

theorem PassHere.not_held : anyHeld lanes = false :=
  anyHeld_eq_false fun x hx e => by
    obtain ⟨p, hp, -⟩ := h x hx
    rw [hp] at e
    cases e

theorem PassHere.laneFails_nil : laneFails lanes = [] := by
  rw [laneFails, List.filterMap_eq_nil_iff]
  intro x hx
  obtain ⟨p, hp, -⟩ := h x hx
  rw [hp]

theorem PassHere.remoteLanes_nil : remoteLanes (placesOf lanes) = [] :=
  remoteLanes_placesOf fun x hx z e => by
    obtain ⟨p, hp, hz⟩ := h x hx
    rw [hp] at e
    cases e
    exact hz z rfl

theorem PassHere.place_here {x : Fin 32 × Place} (hx : x ∈ placesOf lanes) (z : W64) : x.2 ≠ .remote z := by
  obtain ⟨y, hy, -, hres⟩ := mem_placesOf hx
  obtain ⟨p, hp, hz⟩ := h y hy
  rw [hp] at hres
  cases hres
  exact hz z

end

/-! ### What the wave waits for -/

theorem blockingWait_congr {v w : Wave} (hout : v.remoteOut = w.remoteOut) (hregs : v.regs = w.regs) (hhandler : v.handler = w.handler) :
    blockingWait v = blockingWait w := by
  rw [blockingWait, blockingWait, hout, hregs, hhandler]

theorem dropWaited_eq {w : Wave} (h : blockingWait w = none) (p : FlightPath) : dropWaited w p = w := by
  rw [dropWaited, h]
  rfl

/-- A read outside a versioned task makes no links. -/
theorem observing_unversioned {s : State} (h : isVersioned s = false) (lines : List Nat) (limit : Unit → State) (k : State → State) :
    observing s lines limit k = k s := by
  simp only [Machine.observing, observe, h]
  rfl

/-! ### A load that has passed its checks -/

/-- The bytes that a load delivers in a lane, where no lane reaches another package. -/
theorem deliver_here {ps : List (Fin 32 × Place)} (h : ∀ x ∈ ps, ∀ z, x.2 ≠ .remote z) (s : State) (nol1 : Bool) (vals : List (List W64)) (n : Nat)
    (l : Fin 32) : deliver s nol1 ps vals n l = match ps.find? fun x => x.1 == l with
      | none => List.replicate n 0
      | some (_, p) => loadUnit s nol1 l p n := by
  rw [deliver]
  cases hfind : ps.find? fun x => x.1 == l with
  | none => rfl
  | some x =>
    obtain ⟨m, p⟩ := x
    cases p with
    | remote z => exact absurd rfl (h _ (List.mem_of_find?_eq_some hfind) z)
    | _ => rfl

/-- The issuing wave with the clock of a load's reads and the load's flight (R268, R276). -/
def loadedWave (w : Wave) (ps : List (Fin 32 × Place)) (clk : Clk) : Wave :=
  { w with flights := w.flights ++ (if ps = [] then [] else [⟨loadPath ps, false⟩]), clk := clk }

/-- A load outside a versioned task brings its lines in, reads, and acquires. -/
theorem performLoad_unversioned {t : State} (pol : W64) (n : Nat) (ls : List LaneAt) (finish : Lanes (List W8) → Regs → Regs)
    (hver : isVersioned t = false) (hwait : blockingWait t.wave = none) :
    let ps := placesOf ls
    let read := fetchLines (loadPrivs t ps n) pol ps
    ∃ clk joins, performLoad t pol n ls [] finish =
      onRegs (acquirePart { read with wave := loadedWave read.wave ps clk } pol ps joins)
        (finish (Lanes.of fun l => deliver read (polNol1 pol) ps [] n l)) := by
  intro ps read
  have hside : CacheSide t read := (loadPrivs_cacheSide t ps n).trans (fetchLines_cacheSide ..)
  have hdrop : dropWaited read.wave (loadPath ps) = read.wave :=
    dropWaited_eq ((blockingWait_congr (by rw [hside.wave]) (by rw [hside.wave]) (by rw [hside.wave])).trans hwait) _
  have hwave (clk : Clk) : (if ps.isEmpty then { dropWaited read.wave (loadPath ps) with clk := clk }
      else raiseFlight { dropWaited read.wave (loadPath ps) with clk := clk } (loadPath ps) false) = loadedWave read.wave ps clk := by
    rw [hdrop]
    by_cases hps : ps = []
    · simp only [hps, loadedWave, List.isEmpty_nil, if_true, List.append_nil]
    · simp only [hps, loadedWave, raiseFlight, List.isEmpty_iff, if_false]
  refine ⟨readsClk read (polNol1 pol) ps n, ps.any fun x => unitJoins read x.2 n, ?_⟩
  rw [performLoad, observing_unversioned hver]
  exact congrArg (fun w => onRegs (acquirePart { read with wave := w } pol ps _) (finish _)) (hwave _)

/-- What a load outside a versioned task leaves: the lines that it brings in, its registers, its clock and its flight, and what its acquire part renews. -/
theorem performLoad_form {t : State} (pol : W64) (n : Nat) (ls : List LaneAt) (finish : Lanes (List W8) → Regs → Regs)
    (hver : isVersioned t = false) (hwait : blockingWait t.wave = none) :
    let ps := placesOf ls
    let read := fetchLines (loadPrivs t ps n) pol ps
    ∃ u, performLoad t pol n ls [] finish = u ∧ SameMemory t u ∧
      u.wave.regs = finish (Lanes.of fun l => deliver read (polNol1 pol) ps [] n l) t.wave.regs ∧
      u.wave.flights = t.wave.flights ++ (if ps = [] then [] else [⟨loadPath ps, false⟩]) ∧
      u = { t with wave := u.wave, waves := u.waves, cores := u.cores, dies := u.dies, tasks := u.tasks } := by
  intro ps read
  obtain ⟨clk, joins, hperform⟩ := performLoad_unversioned pol n ls finish hver hwait
  obtain ⟨_, _, _, _, _, hacquire⟩ := acquirePart_form { read with wave := loadedWave read.wave ps clk } pol ps joins
  obtain ⟨_, _, _, _, _, _, hread⟩ : CacheSide t read := (loadPrivs_cacheSide t ps n).trans (fetchLines_cacheSide ..)
  refine ⟨_, hperform.trans (congrArg (onRegs · _) hacquire), ?_⟩
  generalize (Lanes.of fun l => deliver read (polNol1 pol) ps [] n l) = v
  rw [hread]
  exact ⟨sameMemory_of_eq rfl rfl rfl, rfl, rfl, rfl⟩

/-- A load whose lanes pass their checks on this package, and whose units wait for no write, is performed (R257). -/
theorem loadOp_passes {s : State} {uses : List OpUse} {n : Nat} {a b : Src} {c : KReg} {finish : Lanes (List W8) → Regs → Regs} {r : List LaneAt × State}
    (hr : checkLanes (countBanks s uses) (activeMask s.wave.regs) (loadAddrs s a b) n .load = r)
    (hpass : operandFault s.wave.regs uses (regsTy s.wave.regs).isSome = none) (hpol : policyBad s.wave.regs.k[c] = false)
    (hwait : blockingWait s.wave = none) (hlanes : PassHere r.1) (hopen : ∀ x ∈ placesOf r.1, unitBlocked r.2 x.2 n = false)
    (hroom : placesOf r.1 ≠ [] → flightCount s.wave (loadPath (placesOf r.1)) < 63) :
    loadOp s uses n a b c finish = .next (performLoad r.2 s.wave.regs.k[c] n r.1 [] finish) := by
  have hside : MemorySide s r.2 := hr ▸ (countBanks_memorySide s uses).trans (checkLanes_memorySide ..)
  have haddrs : loadAddrs (countBanks s uses) a b = loadAddrs s a b := by rw [loadAddrs, countBanks_wave, loadAddrs]
  have hfull : noRoom r.2 (placesOf r.1) (loadPath (placesOf r.1)) = false := by
    rw [noRoom, flightRoom, hside.wave_eq]
    simpa [← not_lt] using hroom
  have hblocked : (placesOf r.1).any (fun x => unitBlocked r.2 x.2 n) = false := List.any_eq_false.mpr fun x hx => by rw [hopen x hx]; decide
  rw [loadOp, checkedState_next _ hpass]
  simp only [countBanks_wave, haddrs, hr, hwait, hpol, hlanes.not_held, hlanes.laneFails_nil, hlanes.remoteLanes_nil, hfull, hblocked, List.isEmpty_nil,
    Bool.not_true, Bool.or_self, Bool.false_eq_true, if_false, if_true]

/-! ### Where a byte comes from (R279) -/

/-- A byte without a version of the gang, and without an L1 line that serves it, is the value on the die. -/
theorem loadByte_past {s : State} {nol1 : Bool} {pa : Nat} (hver : gangVersion s s.wave.ids.gang pa = none) (hserve : l1Serves s nol1 pa = none) :
    loadByte s nol1 pa = viewByte s (coreDie s.wave.ids.core) s.wave.ids.token pa := by
  simp only [loadByte, hver, hserve]
  rfl

theorem l1Serves_nol1 (s : State) (pa : Nat) : l1Serves s true pa = none := rfl

theorem l1Serves_pending {s : State} {pa : Nat} (h : ownPending s pa = true) (nol1 : Bool) : l1Serves s nol1 pa = none := by
  rw [l1Serves, h, Bool.or_true, if_pos rfl]

theorem l1Serves_absent {s : State} {pa : Nat} (h : ∀ l ∈ s.cores[s.wave.ids.core].l1, l.line ≠ pa / 128) (nol1 : Bool) : l1Serves s nol1 pa = none := by
  have hfind : l1Find s s.wave (pa / 128) = none := List.find?_eq_none.mpr fun l hl e => by
    rw [Bool.and_eq_true, Bool.and_eq_true, beq_iff_eq] at e
    exact h l hl e.1.1
  rw [l1Serves, hfind, ite_self]

/-- A byte whose one write in flight has reached a die reads there as written. -/
theorem viewByte_single {s : State} {x : WriteRec} {d : Fin 2} {pa : Nat} {v : W8} (hlag : s.lag = [x]) (hnew : recNew x pa = some v)
    (hon : recOn x d = true) (token : W32) : viewByte s d token pa = v := by
  have hhas : recHas x pa = true := by
    obtain ⟨b, hb, -⟩ := Option.map_eq_some_iff.mp hnew
    exact List.any_eq_true.mpr ⟨b, List.mem_of_find?_eq_some hb, List.find?_some (p := fun b : Nat × W8 × W8 => b.1 == pa) hb⟩
  have hvisible : visibleWrite s d token pa = some x := by
    rw [visibleWrite, hlag, List.reverse_singleton, List.find?_singleton, hhas, hon]
    rfl
  simp only [viewByte, hvisible, hnew, Option.getD_some]

/-- Settles O21: the load is performed, and its lanes read the state that its lines have entered; the value of a byte by the cases of R279. -/
theorem Settled.loads : Obligations.Loads := by
  unfold Obligations.Loads
  constructor
  · intro s d a b c quad r w n uses ea lanes t ps read bytes hpass hpol hwait hver hlanes hroom
    have hside : MemorySide s t := (countBanks_memorySide s uses).trans (checkLanes_memorySide ..)
    have hhere : PassHere lanes := fun x hx => (hlanes x hx).imp fun p hp => ⟨hp.1, hp.2.1⟩
    have hopen : ∀ x ∈ ps, unitBlocked t x.2 n = false := fun x hx => by
      obtain ⟨y, hy, -, hres⟩ := mem_placesOf hx
      obtain ⟨p, hp, -, hfree⟩ := hlanes y hy
      rw [hp] at hres
      cases hres
      exact hfree
    have hbytes : (Lanes.of fun l => deliver read (polNol1 r.k[c]) ps [] n l) = Lanes.of bytes :=
      congrArg Lanes.of (funext fun l => deliver_here (fun x hx => hhere.place_here hx) ..)
    have hload (finish : Lanes (List W8) → Regs → Regs) : ∃ u, loadOp s uses n a b c finish = .next u ∧ SameMemory t u ∧
        u.wave.regs = finish (Lanes.of bytes) r ∧ u.wave.flights = s.wave.flights ++ (if ps = [] then [] else [⟨loadPath ps, false⟩]) ∧
        u = { t with wave := u.wave, waves := u.waves, cores := u.cores, dies := u.dies, tasks := u.tasks } := by
      obtain ⟨u, hu, hmemory, hregs, hflights, hrest⟩ := performLoad_form r.k[c] n lanes finish (hside.isVersioned_eq.trans hver)
        ((congrArg blockingWait hside.wave_eq).trans hwait)
      refine ⟨u, (loadOp_passes rfl hpass hpol hwait hhere hopen hroom).trans (congrArg Host.Outcome.next hu), hmemory, ?_, ?_, hrest⟩
      · rw [hregs, hside.wave_eq, hbytes]
      · rw [hflights, hside.wave_eq]
    cases quad with
    | true =>
      obtain ⟨u, hu, hmemory, hregs, hflights, hrest⟩ := hload fun v r => commitQuad (retire r 4) (activeMask r) d v
      exact ⟨u, hu, hmemory, hregs.trans (by rw [retire_eq]; rfl), hflights, hrest⟩
    | false =>
      obtain ⟨u, hu, hmemory, hregs, hflights, hrest⟩ := hload fun v r =>
        let x := Lanes.of fun l => extendUnit (curTy s.wave.regs) v[l]
        laneFinish r 4 d .none ⟨x, w, x, w⟩ x w
      refine ⟨u, hu, hmemory, ?_, hflights, hrest⟩
      have hfits : DstFits d w := dstFits_of_passed r uses _ d w (by simp [uses]) hpass
      have hlanes : (Lanes.of fun l => extendUnit (curTy r) (Lanes.of bytes)[l]) = Lanes.of fun l => extendUnit (curTy r) (bytes l) :=
        congrArg Lanes.of (funext fun l => congrArg (extendUnit (curTy r)) (lanes_of_get bytes l))
      have hdone := laneFinish_done r 4 d .none ⟨Lanes.of fun l => extendUnit (curTy r) (bytes l), w, Lanes.of fun l => extendUnit (curTy r) (bytes l), w⟩
        (Lanes.of fun l => extendUnit (curTy r) (bytes l)) w hfits
      rw [← hlanes] at hdone ⊢
      exact hregs ▸ hdone
  · intro s nol1 pa w past
    refine ⟨fun v hv => ?_, fun hver hnol1 => ?_, fun hver hpending => ?_, fun hver habsent => ?_, fun x _ v hlag hnew hon => ?_⟩
    · simp only [loadByte, show gangVersion s s.wave.ids.gang pa = some v from hv]
    · rw [hnol1]
      exact loadByte_past hver (l1Serves_nol1 s pa)
    · obtain ⟨x, hx, hhas, htoken, hon⟩ := hpending
      have hown : ownPending s pa = true := List.any_eq_true.mpr ⟨x, hx, by
        rw [hhas, beq_iff_eq.mpr htoken, show recOn x (waveDie s.wave) = false from hon]
        rfl⟩
      exact loadByte_past hver (l1Serves_pending hown nol1)
    · exact loadByte_past hver (l1Serves_absent habsent nol1)
    · exact viewByte_single hlag hnew hon _

end Sys2Proof
end

section
/-!
SUPPORT. Bytes written one after another (R257, R258): the last one counts, in global memory, in a scratchpad, and among a gang's versions.
-/

namespace Sys2Proof

open Sys2Proof.Machine

/-! ### Lists of written bytes -/

/-- The byte that a list of written bytes gives a key last. -/
def latestOf (cells : List (Nat × W8)) (a : Nat) : Option W8 := (cells.reverse.find? fun b => b.1 == a).map fun b => b.2

theorem written_eq (cells : List (Nat × W8)) (a : Nat) (old : W8) : written cells a old = (latestOf cells a).getD old := rfl

theorem latestOf_append (x y : List (Nat × W8)) (a : Nat) : latestOf (x ++ y) a = (latestOf y a).or (latestOf x a) := by
  rw [latestOf, List.reverse_append, List.find?_append]
  cases h : y.reverse.find? fun b => b.1 == a <;> simp [latestOf, h]

theorem written_append (x y : List (Nat × W8)) (a : Nat) (old : W8) : written (x ++ y) a old = written y a (written x a old) := by
  rw [written_eq, latestOf_append, written_eq, written_eq]
  cases latestOf y a <;> rfl

theorem written_cons (b : Nat × W8) (l : List (Nat × W8)) (a : Nat) (old : W8) :
    written (b :: l) a old = written l a (if a = b.1 then b.2 else old) := by
  rw [← List.singleton_append, written_append]
  congr 1
  by_cases h : a = b.1
  · simp [written, h]
  · simp [written, h, Ne.symm h]

/-- Bytes at consecutive keys. -/
theorem written_keyed (a : Nat) (l : List W8) (x : Nat) (old : W8) :
    written (keyed a l) x old = if a ≤ x ∧ x < a + l.length then (l[x - a]?).getD 0 else old := by
  induction l generalizing a old with
  | nil =>
    rw [if_neg (by rw [List.length_nil]; omega)]
    rfl
  | cons b l ih =>
    rw [keyed, written_cons, ih]
    by_cases hx : x = a
    · subst hx
      rw [if_neg (by omega), if_pos rfl, if_pos ⟨Nat.le_refl _, by rw [List.length_cons]; omega⟩, Nat.sub_self]
      rfl
    · rw [if_neg hx]
      by_cases hin : a + 1 ≤ x ∧ x < a + 1 + l.length
      · have hsub : x - a = x - (a + 1) + 1 := by omega
        rw [if_pos hin, if_pos (by rw [List.length_cons]; omega), hsub, List.getElem?_cons_succ]
      · rw [if_neg hin, if_neg (by rw [List.length_cons]; omega)]

/-! ### Canonical lists -/

/-- What a list of cells reads after several bytes. -/
theorem cellGet_cellsPut (bytes : List (Nat × W8)) (a : Nat) : ∀ l : List Host.Cell, cellsWf (0 : W8) l = true →
    cellGet 0 (cellsPut l bytes) a = written bytes a (cellGet 0 l a) := by
  induction bytes with
  | nil => exact fun _ _ => rfl
  | cons b bs ih =>
    intro l h
    rw [written_cons, ← cellGet_set 0 l b.1 b.2 a h]
    exact ih _ (cellSet_wf 0 l b.1 b.2 h)

/-! ### Global memory -/

theorem memByte_stampUnit {s : State} (hw : Canonical s) (core : Option (Fin 192)) (token : W32) (dep : Clk) (bytes : List (Nat × W8)) (a : Nat) :
    memByte (stampUnit s core token dep bytes).1 a = written bytes a (memByte s a) := by
  cases bytes with
  | nil => rfl
  | cons b bs => exact cellGet_cellsPut (b :: bs) a s.hbm hw

/-- A write of the issuing wave changes its clock and what a stamped write changes. -/
theorem waveStamp_form (s : State) (bytes : List (Nat × W8)) : ∃ clk dies hbm clks joins lag lost, waveStamp s bytes =
    { s with wave := { s.wave with clk := clk }, dies := dies, hbm := hbm, clks := clks, joins := joins, lag := lag, lost := lost } := by
  obtain ⟨dies, hbm, clks, joins, lag, lost, h⟩ := stampUnit_form s (some s.wave.ids.core) s.wave.ids.token s.wave.clk bytes
  rw [waveStamp, h]
  exact ⟨_, _, _, _, _, _, _, rfl⟩

theorem memByte_waveStamp {s : State} (hw : Canonical s) (bytes : List (Nat × W8)) (a : Nat) :
    memByte (waveStamp s bytes) a = written bytes a (memByte s a) :=
  memByte_stampUnit hw ..

/-! ### Scratchpads -/

/-- Every scratchpad is in canonical form. -/
def SpadsWf (s : State) : Prop := ∀ g ∈ s.groups, cellsWf (0 : W8) g.spad = true

theorem findGroup_mem {s : State} {k : GangKey} {i : Nat} {g : Group} (h : findGroup s k i = some g) : g ∈ s.groups ∧ g.gang = k ∧ g.index.val = i := by
  refine ⟨List.mem_of_find?_eq_some h, ?_⟩
  have := List.find?_some h
  simpa using this

/-- What keeps a group's number keeps which group a number finds. -/
theorem findGroup_onGroup (s : State) (k : GangKey) (i j : Fin 8) {f : Group → Group} (hf : ∀ g, (f g).gang = g.gang ∧ (f g).index = g.index) :
    findGroup (onGroup s k i f) k j.val = (findGroup s k j.val).map fun g => if j = i then f g else g := by
  have hkey : ((fun g : Group => g.gang == k && g.index.val == j.val) ∘ fun g => if g.gang = k ∧ g.index = i then f g else g) =
      fun g => g.gang == k && g.index.val == j.val := by
    funext g
    simp only [Function.comp]
    split
    · rw [(hf g).1, (hf g).2]
    · rfl
  rw [findGroup, onGroup, List.find?_map, hkey, ← findGroup]
  cases h : findGroup s k j.val with
  | none => rfl
  | some g =>
    obtain ⟨-, hgang, hindex⟩ := findGroup_mem h
    have hsame : (g.gang = k ∧ g.index = i) ↔ j = i := by
      rw [← Fin.ext hindex]
      exact ⟨fun h => h.2, fun h => ⟨hgang, h⟩⟩
    simp only [Option.map_some, hsame]

theorem byteAt_congr {s t : State} (hm : t.hbm = s.hbm) (hg : t.groups = s.groups) (k : GangKey) : byteAt t k = byteAt s k := by
  funext x
  simp only [byteAt, memByte, findGroup, hm, hg]

/-- A write to a scratchpad of the gang, in the group that a number finds. -/
theorem findGroup_spadWrite (s : State) (k : GangKey) (i j : Fin 8) (off : Nat) (bytes : List W8) (v : Clk) :
    findGroup (spadWrite s k i off bytes v) k j.val = (findGroup s k j.val).map fun g => if j = i then
      { g with
        spad := cellsPut g.spad (keyed off bytes)
        spadJoin := stillLost g.spadJoin (keyed off bytes)
        spadClk := (keyed off bytes).foldl (fun l b => cellSet {} l b.1 v) g.spadClk } else g :=
  findGroup_onGroup s k i j fun _ => ⟨rfl, rfl⟩

theorem findGroup_spadWrite_isSome (s : State) (k : GangKey) (i j : Fin 8) (off : Nat) (bytes : List W8) (v : Clk) :
    (findGroup (spadWrite s k i off bytes v) k j.val).isSome = (findGroup s k j.val).isSome := by
  rw [findGroup_spadWrite, Option.isSome_map]

/-- A write to a scratchpad of the gang, as its keys read it. -/
theorem byteAt_spadWrite {s : State} (hw : SpadsWf s) (k : GangKey) (i : Fin 8) (off : Nat) (bytes : List W8) (v : Clk) (x : UnitKey) :
    byteAt (spadWrite s k i off bytes v) k x =
      if x.1 = some i ∧ (findGroup s k i.val).isSome = true then written (keyed off bytes) x.2 (byteAt s k x) else byteAt s k x := by
  obtain ⟨j, o⟩ := x
  cases j with
  | none => rw [if_neg (fun h => nomatch h.1)]; rfl
  | some j =>
    simp only [byteAt, findGroup_spadWrite, Option.map_map, Option.some.injEq]
    by_cases hj : j = i
    · subst hj
      cases h : findGroup s k j.val with
      | none => simp
      | some g =>
        rw [if_pos ⟨rfl, rfl⟩]
        simp only [Option.map_some, Option.getD_some, Function.comp_apply, if_true]
        exact cellGet_cellsPut _ o g.spad (hw g (findGroup_mem h).1)
    · simp only [hj, if_false, false_and]
      rfl

/-! ### Versions (R261, R287) -/

/-- The versions after a versioned write of a unit: its bytes, the last first, before those of others. -/
theorem versionUnit_vbytes {s t : State} {p : Fin 24} {k : GangKey} {tid : W64} {bytes : List (Nat × W8)} (h : versionUnit s p k tid bytes = some t) :
    ∃ unit, t.vbytes = (bytes.reverse.map fun b => (⟨⟨p, tid⟩, k, b.1, b.2, unit⟩ : VByte)) ++
      s.vbytes.filter fun v => !(v.task == ⟨p, tid⟩ && v.gang == k && bytes.any fun b => b.1 == v.pa) := by
  cases bytes with
  | nil => cases h; exact ⟨0, by simp⟩
  | cons b bs =>
    refine ⟨b.1, ?_⟩
    simp only [versionUnit] at h
    split at h
    · cases h; rfl
    · split at h
      · cases h
      · cases h
        split <;> rfl

theorem gangVersion_versionUnit {s t : State} {p : Fin 24} {k : GangKey} {tid : W64} {bytes : List (Nat × W8)}
    (h : versionUnit s p k tid bytes = some t) (a : Nat) : gangVersion t k a = (latestOf bytes a).or (gangVersion s k a) := by
  obtain ⟨unit, hv⟩ := versionUnit_vbytes h
  rw [gangVersion, hv, List.find?_append, List.find?_map]
  simp only [Function.comp_def, beq_self_eq_true, Bool.true_and]
  cases hfind : bytes.reverse.find? fun b => b.1 == a with
  | some b => simp [latestOf, hfind]
  | none =>
    have habsent : bytes.any (fun b => b.1 == a) = false := by
      rw [List.any_eq_false]
      exact fun b hb => List.find?_eq_none.mp hfind b (List.mem_reverse.mpr hb)
    have hkept : (fun v : VByte => decide ((!(v.task == ⟨p, tid⟩ && v.gang == k && bytes.any fun b => b.1 == v.pa)) = true ∧
        (v.gang == k && v.pa == a) = true)) = fun v => v.gang == k && v.pa == a := by
      funext v
      by_cases hpa : v.pa = a
      · simp only [hpa, habsent, Bool.and_false, Bool.not_false, true_and, Bool.decide_eq_true]
      · rw [beq_eq_false_iff_ne.mpr hpa]; simp
    rw [List.find?_filter]
    simp only [hkept, latestOf, hfind, Option.map_none, Option.none_or, gangVersion]

end Sys2Proof
end

section
/-!
SUPPORT. Atomics (R259, R260): a lane's step on a unit of global memory or of a scratchpad, the steps of all lanes, and the instructions.
-/

namespace Sys2Proof

open Sys2Proof.Machine

/-! ### Bytes of a unit by their keys -/

/-- The key of a place in global memory or in a scratchpad. -/
def unitKey : Place → Option UnitKey
  | .mem pa _ => some (none, pa)
  | .spad i off => some (some i, off)
  | _ => none

/-- The lanes whose places have keys. -/
def keyedLanes (ps : List (Fin 32 × Place)) : List (Fin 32 × UnitKey) :=
  ps.filterMap fun x => match x.2 with
    | .mem pa _ => some (x.1, ((none, pa) : UnitKey))
    | .spad i off => some (x.1, (some i, off))
    | _ => none

theorem keyedLanes_cons {p : Place} {x : UnitKey} (h : unitKey p = some x) (l : Fin 32) (ps : List (Fin 32 × Place)) :
    keyedLanes ((l, p) :: ps) = (l, x) :: keyedLanes ps := by
  cases p <;> cases h <;> rfl

/-- A unit's value in a memory. -/
def unitNat (n : Nat) (m : UnitKey → W8) (x : UnitKey) : Nat := leNat ((List.range n).map fun i => m (x.1, x.2 + i))

/-- A memory in which bytes stand from a key on. -/
def putUnit (m : UnitKey → W8) (x : UnitKey) (bytes : List W8) : UnitKey → W8 := fun z =>
  if z.1 = x.1 ∧ x.2 ≤ z.2 ∧ z.2 < x.2 + bytes.length then (bytes[z.2 - x.2]?).getD 0 else m z

/-- A memory after a lane's step. -/
def stepUnit (n : Nat) (f : Nat → Option Nat) (m : UnitKey → W8) (x : UnitKey) : UnitKey → W8 :=
  match f (unitNat n m x) with
  | none => m
  | some y => putUnit m x (leBytes n y)

theorem atomicSteps_cons (n : Nat) (f : Fin 32 → Nat → Option Nat) (l : Fin 32) (x : UnitKey) (rest : List (Fin 32 × UnitKey)) (m : UnitKey → W8) :
    atomicSteps n f ((l, x) :: rest) m =
      ((l, unitNat n m x) :: (atomicSteps n f rest (stepUnit n (f l) m x)).1, (atomicSteps n f rest (stepUnit n (f l) m x)).2) := by
  have hstep : stepUnit n (f l) m x = match f l (unitNat n m x) with
      | none => m
      | some y => fun z => if z.1 = x.1 ∧ x.2 ≤ z.2 ∧ z.2 < x.2 + n then ((leBytes n y)[z.2 - x.2]?).getD 0 else m z := by
    unfold stepUnit
    cases f l (unitNat n m x) with
    | none => rfl
    | some y =>
      funext z
      simp only [putUnit, leBytes_length]
  rw [hstep]
  rfl

/-- What the lanes read is a value of their units. -/
theorem atomicSteps_lt (n : Nat) (f : Fin 32 → Nat → Option Nat) (ls : List (Fin 32 × UnitKey)) : ∀ m, ∀ x ∈ (atomicSteps n f ls m).1, x.2 < 256 ^ n := by
  induction ls with
  | nil => exact fun _ _ h => nomatch h
  | cons y ls ih =>
    obtain ⟨l, y⟩ := y
    intro m x hx
    rw [atomicSteps_cons] at hx
    rcases List.mem_cons.mp hx with rfl | hx
    · have h := leNat_lt ((List.range n).map fun i => m (y.1, y.2 + i))
      rwa [List.length_map, List.length_range] at h
    · exact ih _ x hx

theorem unitOf_le (t : Ty) : unitOf t ≤ 8 := by
  cases t <;> decide

/-! ### A write as the keys read it -/

theorem byteAt_waveStamp {s : State} (hw : Canonical s) (k : GangKey) (pa : Nat) (bytes : List W8) :
    byteAt (waveStamp s (keyed pa bytes)) k = putUnit (byteAt s k) (none, pa) bytes := by
  obtain ⟨_, _, _, _, _, _, _, hform⟩ := waveStamp_form s (keyed pa bytes)
  funext z
  obtain ⟨j, o⟩ := z
  cases j with
  | none =>
    simp only [putUnit, byteAt, memByte_waveStamp hw, written_keyed, true_and]
  | some j =>
    rw [hform]
    exact (if_neg fun h => nomatch h.1).symm

theorem byteAt_spadWrite_unit {s : State} (hw : SpadsWf s) {k : GangKey} {i : Fin 8} (hi : (findGroup s k i.val).isSome = true) (off : Nat)
    (bytes : List W8) (v : Clk) : byteAt (spadWrite s k i off bytes v) k = putUnit (byteAt s k) (some i, off) bytes := by
  funext z
  rw [byteAt_spadWrite hw, putUnit]
  by_cases hz : z.1 = some i
  · simp only [hz, hi, and_self, if_true, written_keyed, true_and]
  · simp only [hz, false_and, if_false]

/-! ### A lane's step -/

/-- What atomics keep: the issuing wave but for its clock, the groups, and that memory is in canonical form. -/
structure AtomKeeps (s u : State) : Prop where
  wave : ∃ clk, u.wave = { s.wave with clk := clk }
  canonical : Canonical s → Canonical u
  spads : SpadsWf s → SpadsWf u
  groups : ∀ i : Fin 8, (findGroup u s.wave.ids.gang i.val).isSome = (findGroup s s.wave.ids.gang i.val).isSome

theorem AtomKeeps.gang {s u : State} (h : AtomKeeps s u) : u.wave.ids.gang = s.wave.ids.gang := by
  obtain ⟨_, e⟩ := h.wave
  rw [e]

theorem AtomKeeps.trans {s t u : State} (h : AtomKeeps s t) (g : AtomKeeps t u) : AtomKeeps s u where
  wave := by
    obtain ⟨_, h⟩ := h.wave
    obtain ⟨_, g⟩ := g.wave
    exact ⟨_, g.trans (by rw [h])⟩
  canonical hs := g.canonical (h.canonical hs)
  spads hs := g.spads (h.spads hs)
  groups i := (h.gang ▸ g.groups i).trans (h.groups i)

theorem atomKeeps_refl (s : State) : AtomKeeps s s := ⟨⟨_, rfl⟩, id, id, fun _ => rfl⟩

theorem atomKeeps_clock (s : State) (f : Wave → Clk) : AtomKeeps s (onWave s fun w => { w with clk := f w }) :=
  ⟨⟨_, rfl⟩, id, id, fun _ => rfl⟩

theorem atomKeeps_waveStamp (s : State) (bytes : List (Nat × W8)) : AtomKeeps s (waveStamp s bytes) := by
  have hcanonical : Canonical s → Canonical (waveStamp s bytes) := fun h => h.waveStamp
  obtain ⟨_, _, _, _, _, _, _, hform⟩ := waveStamp_form s bytes
  rw [hform] at hcanonical ⊢
  exact ⟨⟨_, rfl⟩, hcanonical, id, fun _ => rfl⟩

theorem atomKeeps_spadWrite (s : State) (i : Fin 8) (off : Nat) (bytes : List W8) (v : Clk) :
    AtomKeeps s (spadWrite s s.wave.ids.gang i off bytes v) where
  wave := ⟨_, rfl⟩
  canonical := id
  spads := spadWrite_spads s s.wave.ids.gang i off bytes v
  groups _ := findGroup_spadWrite_isSome ..

/-- A step outside a versioned task reads the unit and writes what the operation gives. -/
theorem atomUnit_step {s : State} (hw : Canonical s) (hspads : SpadsWf s) {p : Place} {x : UnitKey} (hx : unitKey p = some x)
    (hgroup : ∀ i, x.1 = some i → (findGroup s s.wave.ids.gang i.val).isSome = true) (escape : Bool) (n : Nat) (l : Fin 32) (f : Nat → Option Nat) :
    ∃ u, atomUnit s false escape n l p f = some (unitNat n (byteAt s s.wave.ids.gang) x, u) ∧ AtomKeeps s u ∧
      byteAt u s.wave.ids.gang = stepUnit n f (byteAt s s.wave.ids.gang) x := by
  cases p with
  | mem pa va =>
    cases hx
    have hunit : atomUnit s false escape n l (.mem pa va) f =
        match f (unitNat n (byteAt s s.wave.ids.gang) (none, pa)) with
        | none => some (unitNat n (byteAt s s.wave.ids.gang) (none, pa), onWave s fun w => { w with clk := latestClk s pa n w.clk })
        | some y => some (unitNat n (byteAt s s.wave.ids.gang) (none, pa),
            waveStamp (onWave s fun w => { w with clk := latestClk s pa n w.clk }) (keyed pa (leBytes n y))) := by
      change (match f (unitNat n (byteAt s s.wave.ids.gang) (none, pa)) with | none => _ | some y => _) = _
      cases f (unitNat n (byteAt s s.wave.ids.gang) (none, pa)) <;> rfl
    rw [hunit]
    unfold stepUnit
    cases f (unitNat n (byteAt s s.wave.ids.gang) (none, pa)) with
    | none => exact ⟨_, rfl, atomKeeps_clock .., rfl⟩
    | some y => exact ⟨_, rfl, (atomKeeps_clock ..).trans (atomKeeps_waveStamp ..), byteAt_waveStamp hw.onWave ..⟩
  | spad i off =>
    cases hx
    have hi := hgroup i rfl
    obtain ⟨g, hg⟩ := Option.isSome_iff_exists.mp hi
    have hunit : atomUnit s false escape n l (.spad i off) f =
        match f (unitNat n (byteAt s s.wave.ids.gang) (some i, off)) with
        | none => some (unitNat n (byteAt s s.wave.ids.gang) (some i, off), onWave s fun w => { w with clk := spadClkAt g off n w.clk })
        | some y => some (unitNat n (byteAt s s.wave.ids.gang) (some i, off),
            spadWrite (onWave s fun w => { w with clk := spadClkAt g off n w.clk }) s.wave.ids.gang i off (leBytes n y)
              (spadClkAt g off n s.wave.clk)) := by
      have hold : leNat (spadBytes g off n) = unitNat n (byteAt s s.wave.ids.gang) (some i, off) := by
        simp only [unitNat, byteAt, hg]
        rfl
      simp only [atomUnit, hg, hold]
      rfl
    rw [hunit]
    unfold stepUnit
    cases f (unitNat n (byteAt s s.wave.ids.gang) (some i, off)) with
    | none => exact ⟨_, rfl, atomKeeps_clock .., rfl⟩
    | some y => exact ⟨_, rfl, (atomKeeps_clock ..).trans (atomKeeps_spadWrite ..), byteAt_spadWrite_unit (s := onWave s _) hspads hi ..⟩
  | own off => cases hx
  | remote a => cases hx

/-- The steps of the lanes in order are those of the memory of their keys. -/
theorem performAtoms_steps (escape : Bool) (n : Nat) (f : Fin 32 → Nat → Option Nat) (ps : List (Fin 32 × Place)) :
    ∀ s : State, Canonical s → SpadsWf s → (∀ x ∈ ps, (unitKey x.2).isSome = true) →
      (∀ x ∈ keyedLanes ps, ∀ i, x.2.1 = some i → (findGroup s s.wave.ids.gang i.val).isSome = true) →
      ∃ u, performAtoms false escape n f ps s = some ((atomicSteps n f (keyedLanes ps) (byteAt s s.wave.ids.gang)).1, u) ∧ AtomKeeps s u ∧
        byteAt u s.wave.ids.gang = (atomicSteps n f (keyedLanes ps) (byteAt s s.wave.ids.gang)).2 := by
  induction ps with
  | nil => exact fun s _ _ _ _ => ⟨s, rfl, atomKeeps_refl s, rfl⟩
  | cons y ps ih =>
    intro s hw hspads hkeys hgroups
    obtain ⟨l, p⟩ := y
    obtain ⟨x, hx⟩ := Option.isSome_iff_exists.mp (hkeys _ (List.mem_cons_self ..))
    rw [keyedLanes_cons hx] at hgroups ⊢
    obtain ⟨t, ht, hkeeps, hbytes⟩ := atomUnit_step hw hspads hx (hgroups _ (List.mem_cons_self ..)) escape n l (f l)
    have hgang := hkeeps.gang
    obtain ⟨u, hu, hkeepsu, hbytesu⟩ := ih t (hkeeps.canonical hw) (hkeeps.spads hspads) (fun z hz => hkeys z (List.mem_cons_of_mem _ hz))
      (fun z hz i hi => by rw [hgang, hkeeps.groups]; exact hgroups z (List.mem_cons_of_mem _ hz) i hi)
    rw [hgang, hbytes] at hu hbytesu
    refine ⟨u, ?_, hkeeps.trans hkeepsu, ?_⟩
    · simp only [performAtoms, ht, hu, atomicSteps_cons]
    · rw [hbytesu, atomicSteps_cons]

/-! ### The lanes of an atomic -/

/-- The result of a lane is that of the checks of its unit, in some state. -/
theorem mem_checkLanes {s : State} {act : W32} {ea : Lanes W64} {n : Nat} {u : Use} {x : LaneAt} (h : x ∈ (checkLanes s act ea n u).1) :
    ∃ t, x.res = (checkUnit t x.addr.toNat n u).1 := by
  suffices hfold : ∀ (ls : List (Fin 32)) (acc : List LaneAt × State), (∀ x ∈ acc.1, ∃ t, x.res = (checkUnit t x.addr.toNat n u).1) →
      ∀ x ∈ (ls.foldl (fun (acc : List LaneAt × State) l =>
        let r := checkUnit acc.2 ea[l].toNat n u
        (acc.1 ++ [⟨l, ea[l], r.1⟩], r.2)) acc).1, ∃ t, x.res = (checkUnit t x.addr.toNat n u).1 from hfold _ ([], s) (fun _ h => nomatch h) x h
  intro ls
  induction ls with
  | nil => exact fun _ h => h
  | cons l ls ih =>
    refine fun acc h => ih _ fun x hx => ?_
    rcases List.mem_append.mp hx with hx | hx
    · exact h x hx
    · cases List.mem_singleton.mp hx
      exact ⟨_, rfl⟩

/-- An atomic on own memory fails its checks (R255). -/
theorem checkUnit_atomic_not_own (s : State) (a n off : Nat) : (checkUnit s a n .atomic).1 ≠ .ok (.own off) := by
  simp only [checkUnit]
  split
  · exact nofun
  · simp only [beq_self_eq_true, if_true]
    split_ifs <;> exact nofun
  · split
    · exact nofun
    · split_ifs <;> exact nofun
  · split
    · exact nofun
    · split
      · exact nofun
      · exact nofun
      · split_ifs <;> exact nofun
  · split_ifs <;> exact nofun
  · exact nofun

/-- The places of an atomic's lanes on this package have keys. -/
theorem atomic_places_keyed {s : State} {act : W32} {ea : Lanes W64} {n : Nat} (h : PassHere (checkLanes s act ea n .atomic).1) :
    ∀ x ∈ placesOf (checkLanes s act ea n .atomic).1, (unitKey x.2).isSome = true := by
  intro x hx
  obtain ⟨y, hy, -, hres⟩ := mem_placesOf hx
  obtain ⟨t, ht⟩ := mem_checkLanes hy
  obtain ⟨l, p⟩ := x
  cases p with
  | mem pa va => rfl
  | spad i off => rfl
  | own off => exact absurd (ht.symm.trans hres) (checkUnit_atomic_not_own _ _ _ _)
  | remote z => exact absurd rfl (h.place_here hx z)

/-! ### An atomic that has passed its checks -/

/-- What the lanes have read, by lane. -/
def oldAt (olds : List (Fin 32 × Nat)) (l : Fin 32) : Nat := ((olds.find? fun x => x.1 == l).map fun x => x.2).getD 0

theorem oldAt_lt {olds : List (Fin 32 × Nat)} {b : Nat} (hb : 0 < b) (h : ∀ x ∈ olds, x.2 < b) (l : Fin 32) : oldAt olds l < b := by
  unfold oldAt
  cases hfind : olds.find? fun x => x.1 == l with
  | none => exact hb
  | some x => exact h x (List.mem_of_find?_eq_some hfind)

theorem oldLanes_here {ps : List (Fin 32 × Place)} (h : ∀ x ∈ ps, ∀ z, x.2 ≠ .remote z) (olds : List (Fin 32 × Nat)) (vals : List (List W64)) :
    oldLanes ps olds vals = Lanes.of fun l => BitVec.ofNat 64 (oldAt olds l) := by
  refine congrArg Lanes.of (funext fun l => ?_)
  cases hfind : ps.find? fun x => x.1 == l with
  | none => rfl
  | some x =>
    obtain ⟨m, p⟩ := x
    cases p with
    | remote z => exact absurd rfl (h _ (List.mem_of_find?_eq_some hfind) z)
    | _ => rfl

/-- An atomic outside a versioned task, on this package, leaves the memory of its steps and delivers what they read. -/
theorem performAtom_form {t : State} (pol : W64) (n : Nat) (path : FlightPath) (flight : Bool) {ls : List LaneAt} {send : State → State}
    (f : Fin 32 → Nat → Option Nat) (finish : Lanes W64 → Regs → Regs) (hver : isVersioned t = false) (hwait : blockingWait t.wave = none)
    (hw : Canonical t) (hspads : SpadsWf t) (hkeys : ∀ x ∈ placesOf ls, (unitKey x.2).isSome = true)
    (hgroups : ∀ x ∈ keyedLanes (placesOf ls), ∀ i, x.2.1 = some i → (findGroup t t.wave.ids.gang i.val).isSome = true) (hhere : ∀ x ∈ placesOf ls, ∀ z, x.2 ≠ .remote z)
    (hsend : ∀ u, send u = u) :
    let steps := atomicSteps n f (keyedLanes (placesOf ls)) (byteAt t t.wave.ids.gang)
    ∃ u, performAtom t pol n path flight ls [] send f finish = u ∧ byteAt u t.wave.ids.gang = steps.2 ∧
      u.wave.regs = finish (Lanes.of fun l => BitVec.ofNat 64 (oldAt steps.1 l)) t.wave.regs := by
  intro steps
  obtain ⟨_, _, _, hreach⟩ := reachLines_lineSide t pol (placesOf ls)
  have hbytes : byteAt (reachLines t pol (placesOf ls)) t.wave.ids.gang = byteAt t t.wave.ids.gang :=
    byteAt_congr (by rw [hreach]) (by rw [hreach]) _
  obtain ⟨u, hu, hkeeps, hbytesu⟩ := performAtoms_steps (decide (3 ≤ polScope pol)) n f (placesOf ls) (reachLines t pol (placesOf ls))
    hw.reachLines (by rw [hreach]; exact hspads) hkeys (by rw [hreach]; exact hgroups)
  have hwave : (reachLines t pol (placesOf ls)).wave = t.wave := by rw [hreach]
  obtain ⟨clk, hclk⟩ := hkeeps.wave
  rw [hwave] at hclk hu hbytesu
  rw [hbytes] at hu hbytesu
  have hdrop : dropWaited u.wave path = u.wave := dropWaited_eq ((blockingWait_congr (by rw [hclk]) (by rw [hclk]) (by rw [hclk])).trans hwait) _
  obtain ⟨_, _, _, _, _, hacquire⟩ := acquirePart_form
    (onWave u fun w => if (placesOf ls).isEmpty then w else raiseFlight (dropWaited w path) path flight) pol (placesOf ls)
    ((placesOf ls).any fun x => unitJoins t x.2 n)
  have hperform : performAtom t pol n path flight ls [] send f finish = onRegs (acquirePart
      (onWave u fun w => if (placesOf ls).isEmpty then w else raiseFlight (dropWaited w path) path flight) pol (placesOf ls)
      ((placesOf ls).any fun x => unitJoins t x.2 n)) (finish (oldLanes (placesOf ls) steps.1 [])) := by
    rw [performAtom, observing_unversioned hver]
    simp only [hver, hu, hsend]
    rfl
  have hregs : (if (placesOf ls).isEmpty then u.wave else raiseFlight (dropWaited u.wave path) path flight).regs = t.wave.regs := by
    split
    · rw [hclk]
    · rw [hdrop, hclk]
      rfl
  refine ⟨_, hperform.trans (congrArg (onRegs · _) hacquire), (byteAt_congr rfl rfl _).trans hbytesu, ?_⟩
  rw [← oldLanes_here hhere]
  exact congrArg (finish _) hregs

/-- An atomic whose lanes pass their checks on this package, outside a versioned task, is performed (R259). -/
theorem atomOp_passes {s : State} {uses : List OpUse} {a : Src} {c : KReg} {returns : Bool} {req : Fin 32 → W64 → RemoteReq}
    {f : Fin 32 → Nat → Option Nat} {finish : Lanes W64 → Regs → Regs} {r : List LaneAt × State}
    (hr : checkLanes (countBanks s uses) (activeMask s.wave.regs) (srcLanes s.wave.regs s.wave.ids.wave.val a true) (unitOf (curTy s.wave.regs)) .atomic = r)
    (hpass : operandFault s.wave.regs uses (tyIn s.wave.regs atomTy) = none) (hpol : policyBad s.wave.regs.k[c] = false)
    (hwait : blockingWait s.wave = none) (hlanes : PassHere r.1) (hroom : placesOf r.1 ≠ [] → ∀ p, flightCount s.wave p < 63)
    (hrel : releaseWaits r.2 s.wave.regs.k[c] (placesOf r.1) = false) (hmon : monWaits r.2 (placesOf r.1) = false) (hver : isVersioned s = false) :
    atomOp s uses a c returns req f finish = .next (performAtom r.2 s.wave.regs.k[c] (unitOf (curTy s.wave.regs))
      (if returns then loadPath (placesOf r.1) else .store) false r.1 [] (fun u => remoteWrites u [] req) f finish) := by
  have hside : MemorySide s r.2 := hr ▸ (countBanks_memorySide s uses).trans (checkLanes_memorySide ..)
  have hfull (p : FlightPath) : noRoom r.2 (placesOf r.1) p = false := by
    rw [noRoom, flightRoom, hside.wave_eq]
    simpa [← not_lt] using fun h => hroom h p
  rw [atomOp, checkedState_next _ hpass]
  simp only [countBanks_wave, hr, hwait, hpol, hlanes.not_held, hlanes.laneFails_nil, hlanes.remoteLanes_nil, hfull, hrel, hmon, hside.isVersioned_eq, hver,
    List.isEmpty_nil, Bool.not_true, Bool.and_false, Bool.false_and, Bool.or_self, Bool.false_eq_true, if_false]

/-- The same with what it leaves: the memory of the steps, and the registers that what the lanes read makes (R259). -/
theorem atomOp_steps {s : State} {uses : List OpUse} {a : Src} {c : KReg} (returns : Bool) (req : Fin 32 → W64 → RemoteReq)
    (f : Fin 32 → Nat → Option Nat) (finish : Lanes W64 → Regs → Regs) :
    let r := checkLanes (countBanks s uses) (activeMask s.wave.regs) (srcLanes s.wave.regs s.wave.ids.wave.val a true) (unitOf (curTy s.wave.regs)) .atomic
    let steps := atomicSteps (unitOf (curTy s.wave.regs)) f (keyedLanes (placesOf r.1)) (byteAt r.2 s.wave.ids.gang)
    operandFault s.wave.regs uses (tyIn s.wave.regs atomTy) = none → policyBad s.wave.regs.k[c] = false → blockingWait s.wave = none →
    PassHere r.1 → (∀ x ∈ keyedLanes (placesOf r.1), ∀ i, x.2.1 = some i → (findGroup r.2 s.wave.ids.gang i.val).isSome = true) →
    (placesOf r.1 ≠ [] → ∀ p, flightCount s.wave p < 63) → releaseWaits r.2 s.wave.regs.k[c] (placesOf r.1) = false →
    monWaits r.2 (placesOf r.1) = false → isVersioned s = false → Canonical r.2 → SpadsWf r.2 →
    ∃ u, atomOp s uses a c returns req f finish = .next u ∧ byteAt u s.wave.ids.gang = steps.2 ∧
      u.wave.regs = finish (Lanes.of fun l => BitVec.ofNat 64 (oldAt steps.1 l)) s.wave.regs ∧ ∀ l, oldAt steps.1 l < 2 ^ 64 := by
  intro r steps hpass hpol hwait hlanes hgroups hroom hrel hmon hver hw hspads
  have hside : MemorySide s r.2 := (countBanks_memorySide s uses).trans (checkLanes_memorySide ..)
  obtain ⟨u, hu, hbytes, hregs⟩ := performAtom_form s.wave.regs.k[c] (unitOf (curTy s.wave.regs)) (if returns then loadPath (placesOf r.1) else .store) false
    (ls := r.1) (send := fun u => remoteWrites u [] req) f finish (hside.isVersioned_eq.trans hver) ((congrArg blockingWait hside.wave_eq).trans hwait) hw hspads
    (atomic_places_keyed hlanes) (by rw [hside.wave_eq]; exact hgroups) (fun x hx => hlanes.place_here hx) fun _ => rfl
  rw [hside.wave_eq] at hbytes hregs
  refine ⟨u, (atomOp_passes rfl hpass hpol hwait hlanes hroom hrel hmon hver).trans (congrArg Host.Outcome.next hu), hbytes, hregs, fun l => ?_⟩
  have hlt := oldAt_lt (Nat.pow_pos (by decide)) (atomicSteps_lt (unitOf (curTy s.wave.regs)) f (keyedLanes (placesOf r.1)) (byteAt r.2 s.wave.ids.gang)) l
  calc oldAt steps.1 l < 256 ^ unitOf (curTy s.wave.regs) := hlt
    _ ≤ 256 ^ 8 := Nat.pow_le_pow_right (by decide) (unitOf_le _)
    _ = 2 ^ 64 := by decide

/-- The registers after a CAS: the values read in the lanes, and p1 where the compare held. -/
theorem casRegs_done (r : Regs) {d : Dst} {w : Bool} (want old : Fin 32 → Nat) (hfits : DstFits d w) (hlt : ∀ l, old l < 2 ^ 64) :
    let v : Lanes W64 := Lanes.of fun l => BitVec.ofNat 64 (old l)
    let u := writePred (laneFinish r 4 d .none ⟨v, w, v, w⟩ v w) 1 (activeMask r) (maskOf fun l => v[l].toNat == want l)
    LaneDone r { u with preds := r.preds } 4 d w v none ∧
      ∀ l : Fin 32, u.preds[1].getLsbD l.val = if laneOn r l then decide (old l = want l) else r.preds[1].getLsbD l.val := by
  intro v u
  obtain ⟨hdone, hpred, -⟩ := laneFinish_writePred_done r d .none (v, w) (v, w) v w 1 (fun l => v[l].toNat == want l) hfits
  refine ⟨hdone, fun l => (hpred l).trans ?_⟩
  have hval : v[l].toNat = old l := by
    rw [lanes_of_get, BitVec.toNat_ofNat, Nat.mod_eq_of_lt (hlt l)]
  rw [hval]
  by_cases hon : laneOn r l = true
  · rw [if_pos ⟨by decide, hon⟩, if_pos hon, beq_eq_decide]
  · rw [if_neg fun h => hon h.2, if_neg hon]
    rfl

/-- Settles O24: the lanes' steps over the memory of their keys, and what each instruction makes of the values read. -/
theorem Settled.atomics : Obligations.Atomics := by
  unfold Obligations.Atomics
  intro s o d a b c r ty w n k src pr oper swap does
  refine ⟨?_, ?_, ?_⟩
  · intro hpass hpol hwait hlanes hgroups hroom hrel hmon hver hw hspads
    obtain ⟨u, hu, hbytes, hregs, -⟩ := atomOp_steps false (atomRequest s o b) oper (fun _ r => retire r 4) hpass hpol hwait hlanes hgroups hroom hrel hmon
      hver hw hspads
    exact ⟨u, hu, congrFun hbytes, hregs.trans (retire_eq _ _)⟩
  · intro hpass hpol hwait hlanes hgroups hroom hrel hmon hver hw hspads
    obtain ⟨u, hu, hbytes, hregs, -⟩ := atomOp_steps true (atomRequest s o b) oper (fun v r => laneFinish r 4 d .none ⟨v, w, v, w⟩ v w) hpass hpol hwait
      hlanes hgroups hroom hrel hmon hver hw hspads
    have hfits : DstFits d w := dstFits_of_passed r _ _ d w (by simp) hpass
    refine ⟨u, hu, congrFun hbytes, ?_⟩
    change LaneDone r u.wave.regs 4 d w _ none
    rw [hregs]
    exact laneFinish_done r 4 d .none _ _ w hfits
  · intro hpass hpol hwait hlanes hgroups hroom hrel hmon hver hw hspads
    obtain ⟨u, hu, hbytes, hregs, hlt⟩ := atomOp_steps true
      (fun l x => .cas (dpidOf s s.wave.ids.part) (offsetOf x) (if w then 8 else 4) (BitVec.ofNat 64 (pr l).1) (BitVec.ofNat 64 (pr l).2)) swap
      (fun v r => writePred (laneFinish r 4 d .none ⟨v, w, v, w⟩ v w) 1 (activeMask r) (maskOf fun l => v[l].toNat == (pr l).1)) hpass hpol hwait
      hlanes hgroups hroom hrel hmon hver hw hspads
    refine ⟨u, hu, congrFun hbytes, ?_⟩
    change LaneDone r { u.wave.regs with preds := r.preds } 4 d w _ none ∧ ∀ l : Fin 32, u.wave.regs.preds[1].getLsbD l.val = _
    rw [hregs]
    exact casRegs_done r (fun l => (pr l).1) _ (dstFits_of_passed r _ _ d w (by simp) hpass) hlt

end Sys2Proof
end

section
/-!
SUPPORT. The checks of an access leave the lines of own memory in every L1 (R239): a translation fills TLBs, counts events and marks entries.
-/

namespace Sys2Proof

open Sys2Proof.Machine

/-- Every core's L1 holds the same lines of own memory. -/
structure SameL1p (s t : State) : Prop where
  lines : ∀ c : Fin 192, t.cores[c].l1p = s.cores[c].l1p

theorem SameL1p.refl (s : State) : SameL1p s s := ⟨fun _ => rfl⟩

theorem SameL1p.trans {s t u : State} (h : SameL1p s t) (g : SameL1p t u) : SameL1p s u := ⟨fun c => (g.lines c).trans (h.lines c)⟩

theorem sameL1p_of_cores {s t : State} (h : t.cores = s.cores) : SameL1p s t := ⟨fun c => by rw [h]⟩

theorem onCore_sameL1p (s : State) (c : Fin 192) {f : Core → Core} (hf : ∀ x, (f x).l1p = x.l1p) : SameL1p s (onCore s c f) := by
  refine ⟨fun x => ?_⟩
  by_cases h : x = c
  · subst h
    exact (congrArg Core.l1p (onCore_at s x f)).trans (hf _)
  · rw [onCore_other s c x f h]

theorem countEvent_sameL1p (s : State) (c : Fin 192) (k : Option GangKey) (ev n : Nat) : SameL1p s (countEvent s c k ev n) := by
  obtain ⟨f, e⟩ := countEvent_form s c k ev n
  exact e ▸ onCore_sameL1p s c fun _ => rfl

theorem tlbFill_sameL1p (s : State) (c : Fin 192) (e : TlbEntry) : SameL1p s (tlbFill s c e) := by
  have hcore : SameL1p s (onCore s c fun x => { x with tlb := tlbPut e x.tlb 384 }) := onCore_sameL1p s c fun _ => rfl
  exact hcore.trans (sameL1p_of_cores rfl)

theorem pokeNat_cores (s : State) (pa n x : Nat) : (pokeNat s pa n x).cores = s.cores := by
  obtain ⟨_, _, _, _, _, _, e⟩ := stampUnit_form s none 0 {} (keyed pa (leBytes n x))
  have h := congrArg State.cores e
  exact h

theorem nodeFill_cores (s : State) (d : Fin 2) (p : Fin 24) (va : Nat) : (nodeFill s d p va).cores = s.cores := by
  unfold nodeFill
  generalize walkNodes s p va (walkStart s d p va).1 (walkStart s d p va).2 = nodes
  induction nodes generalizing s with
  | nil => rfl
  | cons x xs ih => exact ih _

theorem useEntry_sameL1p (s : State) (c : Fin 192) (e : TlbEntry) (va : Nat) (acc : Sys2Proof.Access) : SameL1p s (useEntry s c e va acc).2 := by
  cases acc with
  | read => exact SameL1p.refl s
  | fetch => exact SameL1p.refl s
  | write =>
    simp only [useEntry]
    split
    · exact SameL1p.refl s
    · split
      · exact SameL1p.refl s
      · exact (sameL1p_of_cores (pokeNat_cores ..)).trans (tlbFill_sameL1p ..)

theorem leafFill_sameL1p (s : State) (c : Fin 192) (p : Fin 24) (va lv addr pte : Nat) : SameL1p s (leafFill s c p va lv addr pte).2 := by
  unfold leafFill
  refine (sameL1p_of_cores (nodeFill_cores s (coreDie c) p va)).trans (SameL1p.trans ?_ (tlbFill_sameL1p ..))
  split
  · exact sameL1p_of_cores rfl
  · exact sameL1p_of_cores (pokeNat_cores (nodeFill s (coreDie c) p va) ..)

theorem useMapped_sameL1p (s : State) (c : Fin 192) (p : Fin 24) (va lv addr : Nat) (acc : Sys2Proof.Access) :
    SameL1p s (useMapped s c p va lv addr acc).2 := by
  unfold useMapped
  split
  · exact (leafFill_sameL1p ..).trans (useEntry_sameL1p ..)
  · exact SameL1p.refl s

theorem poolTake_cores (p : Fin 24) (pool c : Nat) : ∀ (n : Nat) (s : State), (poolTake p pool c n s).2.cores = s.cores
  | 0, _ => rfl
  | n + 1, s => by
    simp only [poolTake]
    split
    · rfl
    · split
      · exact pokeNat_cores ..
      · exact (poolTake_cores p pool c n _).trans (pokeNat_cores ..)

theorem zeroRange_sameL1p (s : State) (lo n : Nat) : SameL1p s (zeroRange s lo n) := by
  refine ⟨fun c => ?_⟩
  simp only [zeroRange, Fin.getElem_fin, Vector.getElem_map]

theorem mapZero_sameL1p (s : State) (lv addr pg : Nat) : SameL1p s (mapZero s lv addr pg) :=
  (zeroRange_sameL1p s pg (2 ^ pageBits lv)).trans (sameL1p_of_cores (pokeNat_cores ..))

theorem demandZero_sameL1p (s : State) (p : Fin 24) (lv addr : Nat) : SameL1p s (demandZero s p lv addr).2 := by
  have taken := poolTake_cores p s.parts[p].dzpool.toNat lv (poolCount s s.parts[p].dzpool.toNat lv) s
  simp only [demandZero]
  split
  · exact SameL1p.refl s
  · split
    next e =>
      rw [e] at taken
      exact sameL1p_of_cores taken
    next pg t e =>
      rw [e] at taken
      exact (sameL1p_of_cores taken).trans (mapZero_sameL1p t lv addr pg)

theorem translate_sameL1p (s : State) (c : Fin 192) (p : Fin 24) (va : Nat) (acc : Sys2Proof.Access) :
    SameL1p s (Machine.translate s c p va acc).2 := by
  unfold Machine.translate
  split
  · exact useEntry_sameL1p ..
  · split
    · exact (tlbFill_sameL1p ..).trans (useEntry_sameL1p ..)
    · split
      · exact SameL1p.refl s
      · exact (leafFill_sameL1p ..).trans (useEntry_sameL1p ..)
      next lv addr _ =>
        have zeroed := demandZero_sameL1p s p lv addr
        split
        · exact useMapped_sameL1p ..
        · split
          · exact SameL1p.refl s
          · split
            next e =>
              rw [e] at zeroed
              exact zeroed
            next e =>
              rw [e] at zeroed
              exact zeroed.trans (useMapped_sameL1p ..)

theorem waveTranslate_sameL1p (s : State) (va : Nat) (acc : Sys2Proof.Access) : SameL1p s (waveTranslate s va acc).2 := by
  have counted : ∀ (t : State) (b : Bool) (ev : Nat), SameL1p t (if b then countEvent t s.wave.ids.core (some s.wave.ids.gang) ev 1 else t) :=
    fun t b ev => by
      split
      · exact countEvent_sameL1p ..
      · exact SameL1p.refl t
  have h : SameL1p s (coreTranslate s s.wave.ids.core (some s.wave.ids.gang) s.wave.ids.part va acc).2 :=
    ((counted ..).trans (counted ..)).trans (translate_sameL1p ..)
  unfold waveTranslate onRelease
  split
  next e =>
    rw [e] at h
    exact h
  · exact h

theorem checkUnit_sameL1p (s : State) (a n : Nat) (u : Use) : SameL1p s (checkUnit s a n u).2 := by
  simp only [checkUnit]
  split
  · exact SameL1p.refl s
  · split_ifs <;> exact SameL1p.refl s
  · split
    · exact SameL1p.refl s
    · split_ifs <;> exact SameL1p.refl s
  next va _ =>
    have h := waveTranslate_sameL1p s va (if u == .load then .read else .write)
    split
    · exact SameL1p.refl s
    · split
      next e => rw [e] at h; exact h
      next e => rw [e] at h; exact h
      next e =>
        rw [e] at h
        split_ifs <;> exact h
  · split <;> exact SameL1p.refl s
  · exact SameL1p.refl s

theorem checkLanes_sameL1p (s : State) (act : W32) (ea : Lanes W64) (n : Nat) (u : Use) : SameL1p s (checkLanes s act ea n u).2 := by
  unfold checkLanes
  exact foldl_rel (R := fun a b : List LaneAt × State => SameL1p a.2 b.2) (fun a => SameL1p.refl a.2) (fun h g => h.trans g)
    (fun acc l => checkUnit_sameL1p acc.2 ea[l].toNat n u) _ ([], s)

theorem countBanks_sameL1p (s : State) (uses : List OpUse) : SameL1p s (countBanks s uses) := by
  simp only [countBanks]
  split
  · exact SameL1p.refl s
  · exact countEvent_sameL1p ..

theorem useL2_sameL1p (s : State) (c : Fin 192) (k : Option GangKey) (d : Fin 2) (line : Nat) (cls : Option (Fin 3)) :
    SameL1p s (useL2 s c k d line cls) :=
  (countEvent_sameL1p s c k _ 1).trans (sameL1p_of_cores rfl)

theorem reachLines_sameL1p (s : State) (pol : W64) (ps : List (Fin 32 × Place)) : SameL1p s (reachLines s pol ps) :=
  foldl_rel SameL1p.refl SameL1p.trans (fun t _ => useL2_sameL1p t ..) (memLines ps) s

end Sys2Proof
end

section
/-!
SUPPORT. Own memory (R239, R243): its lines move between L1 and the backing area and its bytes keep their values; a store writes the bytes of its lane.
-/

namespace Sys2Proof

open Sys2Proof.Machine

/-! ### Canonical lists by their cells -/

theorem cellsFrom_above {l : List Host.Cell} : ∀ {a : Nat}, cellsFrom (0 : W8) (some a) l = true → ∀ b ∈ l, a < b.1 := by
  induction l with
  | nil => exact fun _ _ h => nomatch h
  | cons c l ih =>
    obtain ⟨k, v⟩ := c
    intro a h b hb
    simp only [cellsFrom, Bool.and_eq_true, decide_eq_true_eq] at h
    obtain ⟨⟨hk, -⟩, hl⟩ := h
    rcases List.mem_cons.mp hb with rfl | hb
    · exact hk
    · exact hk.trans (ih hl b hb)

theorem cellsFrom_pairwise {l : List Host.Cell} : ∀ {lo : Option Nat}, cellsFrom (0 : W8) lo l = true → l.Pairwise fun a b => a.1 < b.1 := by
  induction l with
  | nil => exact fun _ => List.Pairwise.nil
  | cons c l ih =>
    obtain ⟨k, v⟩ := c
    intro lo h
    simp only [cellsFrom, Bool.and_eq_true] at h
    exact List.pairwise_cons.mpr ⟨cellsFrom_above h.2, ih h.2⟩

theorem cellsWf_nodup {l : List Host.Cell} (h : cellsWf (0 : W8) l = true) : (l.map Prod.fst).Nodup := by
  rw [List.Nodup, List.pairwise_map]
  exact (cellsFrom_pairwise h).imp fun h => Nat.ne_of_lt h

/-- A canonical list reads its cells, and holds no 0. -/
theorem cellGet_mem {l : List Host.Cell} {b : Nat × W8} (hb : b ∈ l) : ∀ {lo : Option Nat}, cellsFrom (0 : W8) lo l = true →
    cellGet 0 l b.1 = b.2 ∧ b.2 ≠ 0 := by
  induction l with
  | nil => nomatch hb
  | cons c l ih =>
    obtain ⟨k, v⟩ := c
    intro lo h
    simp only [cellsFrom, Bool.and_eq_true, decide_eq_true_eq] at h
    obtain ⟨⟨-, hv⟩, hl⟩ := h
    rcases List.mem_cons.mp hb with rfl | hb
    · exact ⟨if_pos rfl, hv⟩
    · have hlt := cellsFrom_above hl b hb
      rw [cellGet, if_neg (by omega), if_neg (by omega)]
      exact ih hb hl

theorem cellGet_filter {l : List Host.Cell} (h : cellsWf (0 : W8) l = true) (p : Nat → Bool) (a : Nat) :
    cellGet (0 : W8) (l.filter fun b => p b.1) a = if p a then cellGet 0 l a else 0 := by
  by_cases hin : ∃ b ∈ l, b.1 = a
  · obtain ⟨b, hb, rfl⟩ := hin
    by_cases hp : p b.1 = true
    · rw [if_pos hp, (cellGet_mem hb h).1]
      exact (cellGet_mem (List.mem_filter.mpr ⟨hb, hp⟩) (filter_from (fun b => p b.1) l none h)).1
    · rw [if_neg hp]
      exact cellGet_absent fun c hc e => hp (e ▸ (List.mem_filter.mp hc).2)
  · have habsent : ∀ b ∈ l, b.1 ≠ a := fun b hb e => hin ⟨b, hb, e⟩
    rw [cellGet_absent habsent, ite_self]
    exact cellGet_absent fun c hc => habsent c (List.mem_of_mem_filter hc)

/-- Bytes that enter a list where they are not 0. -/
def fillCell (v : Nat → W8) (m : List Host.Cell) (k : Nat) : List Host.Cell := if v k = 0 then m else cellSet 0 m k (v k)

theorem fillCell_wf (v : Nat → W8) {m : List Host.Cell} (h : cellsWf (0 : W8) m = true) (k : Nat) : cellsWf (0 : W8) (fillCell v m k) = true := by
  unfold fillCell
  split
  · exact h
  · exact cellSet_wf 0 m k _ h

theorem cellGet_fillCell (v : Nat → W8) {m : List Host.Cell} (h : cellsWf (0 : W8) m = true) (k a : Nat) :
    cellGet 0 (fillCell v m k) a = if a = k ∧ v a ≠ 0 then v a else cellGet 0 m a := by
  unfold fillCell
  by_cases ha : a = k
  · subst ha
    by_cases hv : v a = 0
    · rw [if_pos hv, if_neg fun x => x.2 hv]
    · rw [if_neg hv, if_pos ⟨rfl, hv⟩, cellGet_set 0 m a _ a h, if_pos rfl]
  · refine Eq.trans ?_ (if_neg fun x => ha x.1).symm
    split
    · rfl
    · rw [cellGet_set 0 m k _ a h, if_neg ha]

theorem fillCells_wf (v : Nat → W8) (ks : List Nat) : ∀ {m : List Host.Cell}, cellsWf (0 : W8) m = true → cellsWf (0 : W8) (ks.foldl (fillCell v) m) = true := by
  induction ks with
  | nil => exact fun h => h
  | cons k ks ih => exact fun h => ih (fillCell_wf v h k)

theorem cellGet_fillCells (v : Nat → W8) (ks : List Nat) (a : Nat) : ∀ {m : List Host.Cell}, cellsWf (0 : W8) m = true →
    cellGet 0 (ks.foldl (fillCell v) m) a = if a ∈ ks ∧ v a ≠ 0 then v a else cellGet 0 m a := by
  induction ks with
  | nil => exact fun _ => (if_neg fun h => nomatch h.1).symm
  | cons k ks ih =>
    intro m h
    rw [List.foldl_cons, ih (fillCell_wf v h k), cellGet_fillCell v h]
    by_cases hk : a = k
    · subst hk
      by_cases hv : v a = 0
      · simp only [hv, ne_eq, not_true_eq_false, and_false, if_false]
      · simp only [hv, ne_eq, not_false_eq_true, and_true, List.mem_cons, true_or, if_true, ite_self]
    · simp only [hk, false_and, if_false, List.mem_cons, false_or]

/-! ### Lines and their backing places -/

theorem backAddr_inj {p a b : Nat} (h : backAddr p a = backAddr p b) : a = b := by
  unfold backAddr at h
  omega

theorem mem_lineKeys {line k : Nat} : k ∈ lineKeys line ↔ k / 128 = line := by
  rw [lineKeys, List.mem_map]
  constructor
  · rintro ⟨i, hi, rfl⟩
    rw [List.mem_range] at hi
    omega
  · intro h
    exact ⟨k % 128, List.mem_range.mpr (Nat.mod_lt _ (by decide)), by omega⟩

/-- A wave's own memory is in canonical form, and each of its lines stands in L1, where `inside` says so, or in the backing area alone. -/
structure OwnBy (inside : Nat → Prop) (w : Wave) : Prop where
  priv : cellsWf (0 : W8) w.priv = true
  backing : cellsWf (0 : W8) w.backing = true
  held : ∀ key, inside (key / 128) → cellGet (0 : W8) w.backing (backAddr w.pbase.toNat key) = 0
  away : ∀ key, ¬ inside (key / 128) → cellGet (0 : W8) w.priv key = 0

theorem OwnBy.congr {p q : Nat → Prop} {w : Wave} (h : OwnBy p w) (hpq : ∀ n, p n ↔ q n) : OwnBy q w := by
  have e : p = q := funext fun n => propext (hpq n)
  exact e ▸ h

/-! ### A line is written back -/

section
variable {w : Wave} {p : Nat → Prop} (h : OwnBy p w) (line key : Nat)
include h

theorem cellGet_writeBack_priv : cellGet (0 : W8) (writeBack w line).priv key = if key / 128 = line then 0 else cellGet 0 w.priv key := by
  refine (cellGet_filter h.priv (fun k => k / 128 != line) key).trans ?_
  by_cases hk : key / 128 = line
  · rw [if_pos hk, hk, bne_self_eq_false]
    rfl
  · rw [if_neg hk, if_pos (bne_iff_ne.mpr hk)]

/-- The cells of a line at their backing places. -/
def outCells (w : Wave) (line : Nat) : List (Nat × W8) :=
  (w.priv.filter fun b => b.1 / 128 == line).map fun b => (backAddr w.pbase.toNat b.1, b.2)

omit h in
theorem writeBack_backing_eq : (writeBack w line).backing = cellsPut w.backing (outCells w line) := by
  rw [cellsPut, outCells, List.foldl_map]
  rfl

theorem outCells_nodup : ((outCells w line).map Prod.fst).Nodup := by
  have hkeys := cellsWf_nodup (filter_from (fun b => b.1 / 128 == line) w.priv none h.priv)
  have hback := hkeys.map (f := backAddr w.pbase.toNat) fun _ _ e => backAddr_inj e
  rw [List.map_map] at hback
  rw [outCells, List.map_map]
  exact hback

theorem cellGet_writeBack_backing : cellGet (0 : W8) (writeBack w line).backing (backAddr w.pbase.toNat key) =
    if key / 128 = line ∧ cellGet 0 w.priv key ≠ 0 then cellGet 0 w.priv key else cellGet 0 w.backing (backAddr w.pbase.toNat key) := by
  rw [writeBack_backing_eq]
  by_cases hin : ∃ b ∈ w.priv, b.1 = key ∧ b.1 / 128 = line
  · obtain ⟨b, hb, rfl, hline⟩ := hin
    obtain ⟨hget, hne⟩ := cellGet_mem hb h.priv
    rw [hget, if_pos ⟨hline, hne⟩]
    exact cellsPut_mem _ (outCells_nodup h line) (backAddr w.pbase.toNat b.1, b.2)
      (List.mem_map.mpr ⟨b, List.mem_filter.mpr ⟨hb, beq_iff_eq.mpr hline⟩, rfl⟩) _ h.backing
  · rw [if_neg fun x => x.2 (cellGet_absent fun b hb e => hin ⟨b, hb, e, e ▸ x.1⟩)]
    refine cellsPut_other _ _ (fun b hb e => ?_) _ h.backing
    obtain ⟨c, hc, rfl⟩ := List.mem_map.mp hb
    obtain ⟨hc, hline⟩ := List.mem_filter.mp hc
    exact hin ⟨c, hc, backAddr_inj e, beq_iff_eq.mp hline⟩

theorem writeBack_ownBy : OwnBy (fun n => p n ∧ n ≠ line) (writeBack w line) where
  priv := filter_from _ _ none h.priv
  backing := by
    rw [writeBack_backing_eq]
    exact cellsPut_wf _ _ h.backing
  held key hkey := (cellGet_writeBack_backing h line key).trans ((if_neg fun x => hkey.2 x.1).trans (h.held key hkey.1))
  away key hkey := by
    rw [cellGet_writeBack_priv h]
    split
    · rfl
    next hne => exact h.away key fun hp => hkey ⟨hp, hne⟩

theorem ownCell_writeBack : ownCell (writeBack w line) key = ownCell w key := by
  change (if cellGet (0 : W8) (writeBack w line).priv key = 0 then cellGet 0 (writeBack w line).backing (backAddr w.pbase.toNat key) else
    cellGet 0 (writeBack w line).priv key) = _
  rw [cellGet_writeBack_priv h, cellGet_writeBack_backing h, ownCell]
  by_cases hline : key / 128 = line
  · rw [if_pos hline, if_pos rfl]
    by_cases hz : cellGet 0 w.priv key = 0
    · rw [if_neg fun x => x.2 hz, if_pos hz]
    · rw [if_pos ⟨hline, hz⟩, if_neg hz]
  · simp only [hline, false_and, if_false]

/-! ### A line is read back -/

omit h in
theorem readBack_empty (hempty : w.backing.isEmpty = true) : readBack w line = w := by
  rw [readBack, if_pos hempty]

omit h in
theorem readBack_some (hsome : ¬ w.backing.isEmpty = true) : readBack w line =
    { w with
      priv := (lineKeys line).foldl (fillCell fun k => cellGet 0 w.backing (backAddr w.pbase.toNat k)) w.priv
      backing := w.backing.filter fun b => !(lineKeys line).any fun k => backAddr w.pbase.toNat k == b.1 } := by
  rw [readBack, if_neg hsome]
  rfl

omit h in
theorem cellGet_backing_empty (hempty : w.backing.isEmpty = true) : cellGet (0 : W8) w.backing key = 0 := by
  rw [List.isEmpty_iff.mp hempty]
  rfl

theorem cellGet_readBack_priv : cellGet (0 : W8) (readBack w line).priv key =
    if key / 128 = line ∧ cellGet 0 w.backing (backAddr w.pbase.toNat key) ≠ 0 then cellGet 0 w.backing (backAddr w.pbase.toNat key)
    else cellGet 0 w.priv key := by
  by_cases hempty : w.backing.isEmpty = true
  · rw [readBack_empty line hempty, if_neg fun x => x.2 (cellGet_backing_empty _ hempty)]
  · rw [readBack_some line hempty, cellGet_fillCells _ _ _ h.priv]
    simp only [mem_lineKeys]

theorem cellGet_readBack_backing : cellGet (0 : W8) (readBack w line).backing (backAddr w.pbase.toNat key) =
    if key / 128 = line then 0 else cellGet 0 w.backing (backAddr w.pbase.toNat key) := by
  by_cases hempty : w.backing.isEmpty = true
  · rw [readBack_empty line hempty, cellGet_backing_empty _ hempty, ite_self]
  · rw [readBack_some line hempty]
    refine (cellGet_filter h.backing (fun a => !(lineKeys line).any fun k => backAddr w.pbase.toNat k == a) _).trans ?_
    have hany : ((lineKeys line).any fun k => backAddr w.pbase.toNat k == backAddr w.pbase.toNat key) = decide (key / 128 = line) := by
      rw [Bool.eq_iff_iff, List.any_eq_true, decide_eq_true_eq]
      constructor
      · rintro ⟨k, hk, e⟩
        rw [← backAddr_inj (beq_iff_eq.mp e)]
        exact mem_lineKeys.mp hk
      · exact fun hline => ⟨key, mem_lineKeys.mpr hline, beq_self_eq_true _⟩
    rw [hany]
    by_cases hline : key / 128 = line
    · simp only [hline, decide_true, Bool.not_true, Bool.false_eq_true, if_false, if_true]
    · simp only [hline, decide_false, Bool.not_false, if_false, if_true]

theorem readBack_ownBy : OwnBy (fun n => p n ∨ n = line) (readBack w line) where
  priv := by
    by_cases hempty : w.backing.isEmpty = true
    · rw [readBack_empty line hempty]
      exact h.priv
    · rw [readBack_some line hempty]
      exact fillCells_wf _ _ h.priv
  backing := by
    by_cases hempty : w.backing.isEmpty = true
    · rw [readBack_empty line hempty]
      exact h.backing
    · rw [readBack_some line hempty]
      exact filter_from _ _ none h.backing
  held key hkey := by
    rw [readBack_form]
    refine (cellGet_readBack_backing h line key).trans ?_
    split
    · rfl
    next hne => exact h.held key (hkey.resolve_right hne)
  away key hkey := by
    rw [cellGet_readBack_priv h, if_neg fun x => hkey (.inr x.1)]
    exact h.away key fun hp => hkey (.inl hp)

theorem ownCell_readBack (hout : ¬ p line) : ownCell (readBack w line) key = ownCell w key := by
  have hcell : ownCell (readBack w line) key = if cellGet (0 : W8) (readBack w line).priv key = 0 then
      cellGet 0 (readBack w line).backing (backAddr w.pbase.toNat key) else cellGet 0 (readBack w line).priv key := by
    rw [ownCell, readBack_form]
  rw [hcell, cellGet_readBack_priv h, cellGet_readBack_backing h, ownCell]
  by_cases hline : key / 128 = line
  · rw [h.away key fun hp => hout (hline ▸ hp)]
    by_cases hz : cellGet 0 w.backing (backAddr w.pbase.toNat key) = 0
    · simp only [hline, hz, ne_eq, not_true_eq_false, and_false, if_true, if_false]
    · simp only [hline, hz, ne_eq, not_false_eq_true, and_self, if_true, if_false]
  · simp only [hline, false_and, if_false]

end

/-! ### Lines leave L1 -/

/-- A wave after lines have left L1. -/
def spilled (l : List (W32 × Nat)) (w : Wave) : Wave := l.foldl (fun w x => if w.ids.token = x.1 then writeBack w x.2 else w) w

theorem spilled_ids (l : List (W32 × Nat)) (w : Wave) : (spilled l w).ids = w.ids :=
  foldl_field (fun w : Wave => w.ids) _ (fun w x => by split <;> rfl) l w

theorem spilled_own (l : List (W32 × Nat)) : ∀ {w : Wave} {p : Nat → Prop}, OwnBy p w →
    OwnBy (fun n => p n ∧ (w.ids.token, n) ∉ l) (spilled l w) ∧ ∀ key, ownCell (spilled l w) key = ownCell w key := by
  induction l with
  | nil => exact fun h => ⟨h.congr fun n => ⟨fun hp => ⟨hp, nofun⟩, And.left⟩, fun _ => rfl⟩
  | cons x l ih =>
    obtain ⟨token, line⟩ := x
    intro w p h
    by_cases htoken : w.ids.token = token
    · obtain ⟨hown, hcell⟩ := ih (writeBack_ownBy h line)
      have hstep : spilled ((token, line) :: l) w = spilled l (writeBack w line) := congrArg (spilled l) (if_pos htoken)
      rw [hstep]
      refine ⟨hown.congr fun n => ?_, fun key => (hcell key).trans (ownCell_writeBack h line key)⟩
      change (p n ∧ n ≠ line) ∧ (w.ids.token, n) ∉ l ↔ _
      rw [List.mem_cons, not_or, Prod.mk.injEq, htoken]
      tauto
    · obtain ⟨hown, hcell⟩ := ih h
      have hstep : spilled ((token, line) :: l) w = spilled l w := congrArg (spilled l) (if_neg htoken)
      rw [hstep]
      refine ⟨hown.congr fun n => ?_, hcell⟩
      rw [List.mem_cons, not_or, Prod.mk.injEq]
      tauto

theorem spillLines_wave (s : State) (c : Fin 192) (l : List (W32 × Nat)) : (spillLines s c l).wave = spilled l s.wave := by
  have hfold : ∀ (l : List (W32 × Nat)) (s : State), (l.foldl (fun t x => onToken t x.1 fun w => writeBack w x.2) s).wave = spilled l s.wave := by
    intro l
    induction l with
    | nil => exact fun _ => rfl
    | cons x l ih => exact fun s => ih _
  unfold spillLines
  split
  next h => rw [List.isEmpty_iff.mp h]; rfl
  next => exact hfold l s

theorem spillLines_l1p (s : State) (c : Fin 192) (l : List (W32 × Nat)) :
    (spillLines s c l).cores[c].l1p = s.cores[c].l1p.filter fun y => !l.contains y := by
  unfold spillLines
  split
  next h =>
    have hnil := List.isEmpty_iff.mp h
    subst hnil
    exact (List.filter_eq_self.mpr fun _ _ => rfl).symm
  next =>
    have hcores := foldl_field (fun t : State => t.cores) (fun t (x : W32 × Nat) => onToken t x.1 fun w => writeBack w x.2) (fun _ _ => rfl) l s
    refine (congrArg Core.l1p (onCore_at _ c _)).trans ?_
    change List.filter _ (Core.l1p (State.cores _)[c]) = _
    rw [hcores]

/-! ### A line enters L1 -/

/-- The lines of own memory in the L1 of the issuing wave's core, the last first. -/
def privLines (s : State) : List (W32 × Nat) := s.cores[s.wave.ids.core].l1p

theorem privLines_of_ids {s u : State} (h : u.wave.ids = s.wave.ids) : privLines u = u.cores[s.wave.ids.core].l1p := by
  simp only [privLines, h]

/-- Whether a line of the issuing wave's own memory is in L1. -/
def InL1 (s : State) (line : Nat) : Prop := (s.wave.ids.token, line) ∈ privLines s

theorem ownMemoryWf_iff (s : State) : OwnMemoryWf s ↔ OwnBy (InL1 s) s.wave := by
  constructor
  · rintro ⟨hpriv, hbacking, hkeys⟩
    refine ⟨hpriv, hbacking, fun key hin => ?_, fun key hout => ?_⟩
    · have h := hkeys key
      rwa [if_pos (show (s.wave.ids.token, key / 128) ∈ s.cores[s.wave.ids.core].l1p from hin)] at h
    · have h := hkeys key
      rwa [if_neg (show ¬ (s.wave.ids.token, key / 128) ∈ s.cores[s.wave.ids.core].l1p from hout)] at h
  · rintro ⟨hpriv, hbacking, hheld, haway⟩
    refine ⟨hpriv, hbacking, fun key => ?_⟩
    split
    next hin => exact hheld key hin
    next hout => exact haway key hout

/-- A line of own memory has entered L1, last of all lines, and those before the last 1,023 have left it at most. -/
structure Filled (s u : State) (line : Nat) : Prop where
  ids : u.wave.ids = s.wave.ids
  own : OwnMemoryWf s → OwnMemoryWf u ∧ ∀ key, ownCell u.wave key = ownCell s.wave key
  lines : ∃ p : W32 × Nat → Bool, privLines u = (s.wave.ids.token, line) :: (privLines s).filter p ∧
    (s.wave.ids.token, line) ∉ (privLines s).filter p ∧ ∀ x, x ≠ (s.wave.ids.token, line) → x ∉ (privLines s).drop 1023 → p x = true

theorem inL1_of_lines {s u : State} {line : Nat} {l : List (W32 × Nat)} (hids : u.wave.ids = s.wave.ids)
    (hlines : privLines u = (s.wave.ids.token, line) :: l) (n : Nat) : InL1 u n ↔ (s.wave.ids.token, n) ∈ l ∨ n = line := by
  unfold InL1
  rw [hids, hlines, List.mem_cons, Prod.mk.injEq]
  tauto

theorem privFill_filled (s : State) (line : Nat) : Filled s (privFill s s.wave line) line := by
  by_cases hin : (privLines s).contains (s.wave.ids.token, line) = true
  · have hfill : privFill s s.wave line = onCore s s.wave.ids.core fun x =>
        { x with l1p := (s.wave.ids.token, line) :: x.l1p.filter fun y => y != (s.wave.ids.token, line) } := if_pos hin
    have hwave : (privFill s s.wave line).wave = s.wave := by rw [hfill]; rfl
    have hlines : privLines (privFill s s.wave line) = (s.wave.ids.token, line) :: (privLines s).filter fun y => y != (s.wave.ids.token, line) := by
      rw [privLines_of_ids (congrArg Wave.ids hwave), hfill]
      exact congrArg Core.l1p (onCore_at s s.wave.ids.core _)
    refine ⟨by rw [hwave], fun h => ⟨?_, fun key => by rw [hwave]⟩, _, hlines, fun h => ?_, fun x hx _ => bne_iff_ne.mpr hx⟩
    · rw [ownMemoryWf_iff] at h ⊢
      rw [hwave]
      refine h.congr fun n => ?_
      rw [inL1_of_lines (by rw [hwave]) hlines, List.mem_filter, bne_iff_ne]
      constructor
      · intro hn
        by_cases e : n = line
        · exact .inr e
        · exact .inl ⟨hn, fun h => e (Prod.mk.inj h).2⟩
      · rintro (⟨hn, -⟩ | rfl)
        · exact hn
        · exact List.contains_iff_mem.mp hin
    · exact absurd rfl (bne_iff_ne.mp (List.mem_filter.mp h).2)
  · have hout : ¬ InL1 s line := fun h => hin (List.contains_iff_mem.mpr h)
    let old := (privLines s).drop 1023
    have hfill : privFill s s.wave line = onCore (onToken (spillLines s s.wave.ids.core old) s.wave.ids.token fun w => readBack w line) s.wave.ids.core fun x =>
        { x with l1p := (s.wave.ids.token, line) :: x.l1p, l1 := x.l1.take (1023 - x.l1p.length) } := if_neg hin
    have hwave : (privFill s s.wave line).wave = readBack (spilled old s.wave) line := by
      rw [hfill]
      change (if (spillLines s s.wave.ids.core old).wave.ids.token = s.wave.ids.token then readBack (spillLines s s.wave.ids.core old).wave line
        else (spillLines s s.wave.ids.core old).wave) = _
      rw [spillLines_wave, spilled_ids, if_pos rfl]
    have hids : (privFill s s.wave line).wave.ids = s.wave.ids := by
      rw [hwave, readBack_form]
      exact spilled_ids old s.wave
    have hlines : privLines (privFill s s.wave line) = (s.wave.ids.token, line) :: (privLines s).filter fun y => !old.contains y := by
      rw [privLines_of_ids hids, hfill, privLines, ← spillLines_l1p]
      exact congrArg Core.l1p (onCore_at _ s.wave.ids.core _)
    refine ⟨hids, fun h => ?_, _, hlines, fun h => hout (List.mem_of_mem_filter h), fun x _ hx => ?_⟩
    · rw [ownMemoryWf_iff] at h ⊢
      obtain ⟨hown, hcell⟩ := spilled_own old h
      have hgone : ¬ (InL1 s line ∧ (s.wave.ids.token, line) ∉ old) := fun x => hout x.1
      rw [hwave]
      refine ⟨(readBack_ownBy hown line).congr fun n => ?_, fun key => (ownCell_readBack hown line key hgone).trans (hcell key)⟩
      rw [inL1_of_lines hids hlines, List.mem_filter, Bool.not_eq_true', ← Bool.not_eq_true, List.contains_iff_mem]
      rfl
    · rw [Bool.not_eq_true', ← Bool.not_eq_true, List.contains_iff_mem]
      exact hx

/-! ### Several lines -/

/-- A line stands among the first m of a core's lines, and nowhere behind them. -/
def Recent (m : Nat) (s : State) (line : Nat) : Prop :=
  (s.wave.ids.token, line) ∈ (privLines s).take m ∧ (s.wave.ids.token, line) ∉ (privLines s).drop m

theorem recent_filter {α : Type} {l : List α} {m : Nat} {x : α} {p : α → Bool} (htake : x ∈ l.take m) (hdrop : x ∉ l.drop m) (hp : p x = true) :
    x ∈ (l.filter p).take m ∧ x ∉ (l.filter p).drop m := by
  have hsplit : l.filter p = (l.take m).filter p ++ (l.drop m).filter p := by rw [← List.filter_append, List.take_append_drop]
  have hlen : ((l.take m).filter p).length ≤ m := (List.length_filter_le ..).trans (List.length_take_le ..)
  rw [hsplit, List.take_append, List.drop_append, List.take_of_length_le hlen, List.drop_of_length_le hlen, List.nil_append]
  exact ⟨List.mem_append_left _ (List.mem_filter.mpr ⟨htake, hp⟩), fun h => hdrop (List.mem_of_mem_filter (List.mem_of_mem_drop h))⟩

theorem Filled.recent_new {s u : State} {line : Nat} (h : Filled s u line) (m : Nat) : Recent (m + 1) u line := by
  obtain ⟨p, hlines, hnew, -⟩ := h.lines
  unfold Recent
  rw [h.ids, hlines]
  exact ⟨List.mem_cons_self .., fun hx => hnew (List.mem_of_mem_drop hx)⟩

theorem Filled.recent_old {s u : State} {line n m : Nat} (h : Filled s u line) (hm : m ≤ 1023) (hn : Recent m s n) : Recent (m + 1) u n := by
  by_cases he : n = line
  · exact he ▸ h.recent_new m
  · obtain ⟨p, hlines, -, hkept⟩ := h.lines
    obtain ⟨htake, hdrop⟩ := hn
    have hold : (s.wave.ids.token, n) ∉ (privLines s).drop 1023 := fun hx => hdrop ((List.drop_subset_drop_left _ hm) hx)
    obtain ⟨htake, hdrop⟩ := recent_filter htake hdrop (hkept _ (fun e => he (Prod.mk.inj e).2) hold)
    unfold Recent
    rw [h.ids, hlines]
    exact ⟨List.mem_cons_of_mem _ htake, hdrop⟩

/-- Up to 1,024 lines that enter L1 one after another are all there at the end. -/
theorem fillLines (ls : List Nat) : ∀ (s : State) (m : Nat), m + ls.length ≤ 1024 →
    let u := ls.foldl (fun t i => privFill t t.wave i) s
    u.wave.ids = s.wave.ids ∧ (OwnMemoryWf s → OwnMemoryWf u ∧ ∀ key, ownCell u.wave key = ownCell s.wave key) ∧
      ∀ n, Recent m s n ∨ n ∈ ls → Recent (m + ls.length) u n := by
  induction ls with
  | nil => exact fun s m _ => ⟨rfl, fun h => ⟨h, fun _ => rfl⟩, fun n h => h.elim id nofun⟩
  | cons i ls ih =>
    intro s m hm
    rw [List.length_cons] at hm
    have hfirst := privFill_filled s i
    obtain ⟨hids, hown, hrecent⟩ := ih (privFill s s.wave i) (m + 1) (by omega)
    refine ⟨hids.trans hfirst.ids, fun h => ?_, fun n hn => ?_⟩
    · obtain ⟨hwf, hcell⟩ := hfirst.own h
      obtain ⟨hwfu, hcellu⟩ := hown hwf
      exact ⟨hwfu, fun key => (hcellu key).trans (hcell key)⟩
    · rw [List.length_cons, Nat.add_comm ls.length, ← Nat.add_assoc]
      refine hrecent n ?_
      rcases hn with hn | hn
      · exact .inl (hfirst.recent_old (by omega) hn)
      · rcases List.mem_cons.mp hn with rfl | hn
        · exact .inl (hfirst.recent_new m)
        · exact .inr hn

/-- The same for the lines that bytes of own memory lie in. -/
theorem fillOwnLines (s : State) (off : Nat) {n : Nat} (hn : n ≤ 16) :
    let u := (ownLines off n).foldl (fun t i => privFill t t.wave i) s
    u.wave.ids = s.wave.ids ∧ (OwnMemoryWf s → OwnMemoryWf u ∧ ∀ key, ownCell u.wave key = ownCell s.wave key) ∧
      ∀ o, off ≤ o → o < off + n → InL1 u (o / 4) := by
  have hlen : (ownLines off n).length ≤ 1024 := by
    rw [ownLines, List.length_map, List.length_range]
    omega
  obtain ⟨hids, hown, hrecent⟩ := fillLines (ownLines off n) s 0 (by omega)
  refine ⟨hids, hown, fun o hlo hhi => List.mem_of_mem_take (hrecent (o / 4) (.inr ?_)).1⟩
  exact List.mem_map.mpr ⟨o / 4 - off / 4, List.mem_range.mpr (by omega), by omega⟩

/-! ### A lane's bytes are written -/

/-- A wave after bytes are written to a lane's own memory in L1. -/
def ownPut (w : Wave) (l : Fin 32) (cells : List (Nat × W8)) : Wave :=
  { w with priv := cellsPut w.priv (cells.map fun b => (32 * b.1 + l.val, b.2)) }

theorem latestOf_lane (l j : Fin 32) (cells : List (Nat × W8)) (o : Nat) :
    latestOf (cells.map fun b => (32 * b.1 + l.val, b.2)) (32 * o + j.val) = if j = l then latestOf cells o else none := by
  unfold latestOf
  rw [← List.map_reverse, List.find?_map, Option.map_map]
  by_cases hj : j = l
  · subst hj
    have hkey : ((fun b : Nat × W8 => b.1 == 32 * o + j.val) ∘ fun b : Nat × W8 => (32 * b.1 + j.val, b.2)) = fun b => b.1 == o := by
      funext b
      rw [Function.comp, Bool.eq_iff_iff, beq_iff_eq, beq_iff_eq]
      omega
    rw [if_pos rfl, hkey]
    rfl
  · have hnone : cells.reverse.find? ((fun b : Nat × W8 => b.1 == 32 * o + j.val) ∘ fun b : Nat × W8 => (32 * b.1 + l.val, b.2)) = none := by
      rw [List.find?_eq_none]
      intro b _ e
      have hne : j.val ≠ l.val := fun h => hj (Fin.ext h)
      have heq : 32 * b.1 + l.val = 32 * o + j.val := beq_iff_eq.mp e
      omega
    rw [if_neg hj, hnone]
    rfl

theorem latestOf_mem {cells : List (Nat × W8)} {o : Nat} {v : W8} (h : latestOf cells o = some v) : ∃ b ∈ cells, b.1 = o := by
  obtain ⟨b, hb, -⟩ := Option.map_eq_some_iff.mp h
  exact ⟨b, List.mem_reverse.mp (List.mem_of_find?_eq_some hb), by simpa using List.find?_some hb⟩

section
variable {w : Wave} {p : Nat → Prop} (h : OwnBy p w) (l : Fin 32) {cells : List (Nat × W8)} (hin : ∀ b ∈ cells, p (b.1 / 4))
include h hin

theorem ownPut_ownBy : OwnBy p (ownPut w l cells) where
  priv := cellsPut_wf _ _ h.priv
  backing := h.backing
  held := h.held
  away key hkey := by
    refine (cellsPut_other _ _ (fun b hb e => ?_) _ h.priv).trans (h.away key hkey)
    obtain ⟨c, hc, rfl⟩ := List.mem_map.mp hb
    have hline : key / 128 = c.1 / 4 := by
      have hl := l.isLt
      simp only at e
      omega
    exact hkey (hline ▸ hin c hc)

theorem ownCell_ownPut (j : Fin 32) (o : Nat) :
    ownCell (ownPut w l cells) (32 * o + j.val) = written (if j = l then cells else []) o (ownCell w (32 * o + j.val)) := by
  have hpriv : cellGet (0 : W8) (ownPut w l cells).priv (32 * o + j.val) =
      ((if j = l then latestOf cells o else none).getD (cellGet 0 w.priv (32 * o + j.val))) := by
    rw [← latestOf_lane, ← written_eq]
    exact cellGet_cellsPut _ _ _ h.priv
  change (if cellGet (0 : W8) (ownPut w l cells).priv (32 * o + j.val) = 0 then cellGet 0 w.backing (backAddr w.pbase.toNat (32 * o + j.val)) else
    cellGet 0 (ownPut w l cells).priv (32 * o + j.val)) = _
  rw [hpriv, written_eq]
  by_cases hj : j = l
  · rw [if_pos hj, if_pos hj]
    cases hlast : latestOf cells o with
    | none => rfl
    | some v =>
      obtain ⟨b, hb, rfl⟩ := latestOf_mem hlast
      have hline : (32 * b.1 + j.val) / 128 = b.1 / 4 := by
        have hlt := j.isLt
        omega
      rw [h.held _ (hline ▸ hin b hb), Option.getD_some, Option.getD_some]
      split
      next hz => exact hz.symm
      next => rfl
  · rw [if_neg hj, if_neg hj]
    rfl

end

end Sys2Proof
end

section
/-!
SUPPORT. Stores (R257, R258, R261): what the lanes' stores write in global memory, in scratchpads and in own memory, and what a versioned task's stores leave.
-/

namespace Sys2Proof

open Sys2Proof.Machine

/-! ### The bytes that the lanes write -/

/-- The bytes of a unit in global memory. -/
def globalCells (p : Place) (bytes : List W8) : List (Nat × W8) :=
  match p with
  | .mem pa _ => keyed pa bytes
  | _ => []

/-- The bytes of a unit in a group's scratchpad. -/
def sharedCells (p : Place) (bytes : List W8) (i : Fin 8) : List (Nat × W8) :=
  match p with
  | .spad j off => if j = i then keyed off bytes else []
  | _ => []

/-- The bytes of a lane's unit in own memory. -/
def ownCells (l : Fin 32) (p : Place) (bytes : List W8) (j : Fin 32) : List (Nat × W8) :=
  match p with
  | .own off => if l = j then keyed off bytes else []
  | _ => []

/-- Every memory is in canonical form, and each line of own memory stands in L1 or in the backing area alone. -/
structure Tidy (s : State) : Prop where
  canonical : Canonical s
  spads : SpadsWf s
  own : OwnMemoryWf s

/-- The bytes have been written, and no other byte has changed; the issuing wave keeps its registers and its flights. -/
structure Stored (s u : State) (global : List (Nat × W8)) (shared : Fin 8 → List (Nat × W8)) (own : Fin 32 → List (Nat × W8)) : Prop where
  ids : u.wave.ids = s.wave.ids
  regs : u.wave.regs = s.wave.regs
  flights : u.wave.flights = s.wave.flights
  tidy : Tidy u
  global : ∀ x, memByte u x = written global x (memByte s x)
  found : ∀ i : Fin 8, (findGroup u s.wave.ids.gang i.val).isSome = (findGroup s s.wave.ids.gang i.val).isSome
  shared : ∀ (i : Fin 8) (o : Nat), (findGroup s s.wave.ids.gang i.val).isSome = true →
    byteAt u s.wave.ids.gang (some i, o) = written (shared i) o (byteAt s s.wave.ids.gang (some i, o))
  own : ∀ (l : Fin 32) (o : Nat), ownCell u.wave (32 * o + l.val) = written (own l) o (ownCell s.wave (32 * o + l.val))

theorem stored_refl {s : State} (h : Tidy s) : Stored s s [] (fun _ => []) fun _ => [] :=
  ⟨rfl, rfl, rfl, h, fun _ => rfl, fun _ => rfl, fun _ _ _ => rfl, fun _ _ => rfl⟩

theorem Stored.trans {s t u : State} {g g' : List (Nat × W8)} {sh sh' : Fin 8 → List (Nat × W8)} {o o' : Fin 32 → List (Nat × W8)}
    (h : Stored s t g sh o) (k : Stored t u g' sh' o') : Stored s u (g ++ g') (fun i => sh i ++ sh' i) fun l => o l ++ o' l where
  ids := k.ids.trans h.ids
  regs := k.regs.trans h.regs
  flights := k.flights.trans h.flights
  tidy := k.tidy
  global x := by rw [k.global, h.global, written_append]
  found i := by
    have hk := k.found i
    rw [h.ids] at hk
    exact hk.trans (h.found i)
  shared i o hi := by
    have hk := k.shared i o
    rw [h.ids] at hk
    rw [hk ((h.found i).trans hi), h.shared i o hi, written_append]
  own l o := by rw [k.own, h.own, written_append]

/-! ### The store of a unit -/

/-- Own memory does not see what else changes of the wave. -/
theorem OwnMemoryWf.congr {s u : State} (h : OwnMemoryWf s) (hids : u.wave.ids = s.wave.ids) (hpriv : u.wave.priv = s.wave.priv)
    (hbacking : u.wave.backing = s.wave.backing) (hbase : u.wave.pbase = s.wave.pbase) (hlines : privLines u = privLines s) : OwnMemoryWf u := by
  rw [ownMemoryWf_iff] at h ⊢
  obtain ⟨hp, hb, hheld, haway⟩ := h
  have hin : InL1 u = InL1 s := by
    funext n
    rw [InL1, InL1, hids, hlines]
  rw [hin]
  exact ⟨hpriv ▸ hp, hbacking ▸ hb, fun key hkey => by rw [hbacking, hbase]; exact hheld key hkey, fun key hkey => by rw [hpriv]; exact haway key hkey⟩

theorem storeUnit_mem {s : State} (h : Tidy s) (pa : Nat) (bytes : List W8) :
    Stored s (waveStamp s (keyed pa bytes)) (keyed pa bytes) (fun _ => []) fun _ => [] := by
  have hcanonical := h.canonical.waveStamp (bytes := keyed pa bytes)
  have hglobal := memByte_waveStamp h.canonical (keyed pa bytes)
  obtain ⟨_, _, _, _, _, _, _, hform⟩ := waveStamp_form s (keyed pa bytes)
  rw [hform] at hcanonical hglobal ⊢
  exact ⟨rfl, rfl, rfl, ⟨hcanonical, h.spads, h.own⟩, hglobal, fun _ => rfl, fun _ _ _ => rfl, fun _ _ => rfl⟩

theorem storeUnit_spad {s : State} (h : Tidy s) (i : Fin 8) (off : Nat) (bytes : List W8) :
    Stored s (spadWrite s s.wave.ids.gang i off bytes s.wave.clk) [] (fun j => if i = j then keyed off bytes else []) fun _ => [] where
  ids := rfl
  regs := rfl
  flights := rfl
  tidy := ⟨h.canonical.spadWrite, spadWrite_spads s _ i off bytes _ h.spads, h.own⟩
  global _ := rfl
  found j := findGroup_spadWrite_isSome s _ i j off bytes _
  shared j o hj := by
    rw [byteAt_spadWrite h.spads]
    by_cases hij : j = i
    · subst hij
      rw [if_pos ⟨rfl, hj⟩, if_pos rfl]
    · rw [if_neg fun x => hij (Option.some.inj x.1), if_neg (Ne.symm hij)]
      rfl
  own _ _ := rfl

theorem keyed_bounds {a : Nat} {bytes : List W8} {b : Nat × W8} (h : b ∈ keyed a bytes) : a ≤ b.1 ∧ b.1 < a + bytes.length := by
  induction bytes generalizing a with
  | nil => nomatch h
  | cons x bytes ih =>
    rw [List.length_cons]
    rcases List.mem_cons.mp h with rfl | h
    · exact ⟨Nat.le_refl _, by omega⟩
    · have := ih h
      omega

theorem storeUnit_own {s : State} (h : Tidy s) (versioned : Bool) (l : Fin 32) (off : Nat) {bytes : List W8} (hlen : bytes.length ≤ 16) :
    ∃ u, storeUnit s versioned l (.own off) bytes = some u ∧ Stored s u [] (fun _ => []) fun j => if l = j then keyed off bytes else [] := by
  let t := (ownLines off bytes.length).foldl (fun t i => privFill t t.wave i) s
  have hside : CacheSide s t := foldl_cacheSide (fun t i => privFill_cacheSide t t.wave i) (ownLines off bytes.length) s
  obtain ⟨hids, hown, hin⟩ := fillOwnLines s off hlen
  obtain ⟨hwf, hcell⟩ := hown h.own
  have hby := (ownMemoryWf_iff t).mp hwf
  have hput : ∀ b ∈ keyed off bytes, InL1 t (b.1 / 4) := fun b hb => hin b.1 (keyed_bounds hb).1 (keyed_bounds hb).2
  have hstore : storeUnit s versioned l (.own off) bytes = some (onWave t fun w => ownPut w l (keyed off bytes)) := by
    simp only [storeUnit, ownPut, cellsPut, List.foldl_map]
    rfl
  refine ⟨_, hstore, hids, ?_, ?_, ⟨?_, ?_, ?_⟩, fun x => ?_, fun i => ?_, fun i o _ => ?_, fun j o => ?_⟩
  · change t.wave.regs = _
    rw [hside.wave]
  · change t.wave.flights = _
    rw [hside.wave]
  · exact (congrArg (fun m => Memory.wf m = true) hside.hbm).mpr h.canonical
  · intro g hg
    exact h.spads g (hside.groups ▸ hg)
  · rw [ownMemoryWf_iff]
    exact ownPut_ownBy hby l hput
  · exact congrArg (fun m => cellGet 0 m x) hside.hbm
  · exact congrArg (fun gs : List Group => (gs.find? fun g => g.gang == s.wave.ids.gang && g.index.val == i.val).isSome) hside.groups
  · exact congrFun (byteAt_congr (s := s) (t := onWave t _) hside.hbm hside.groups _) _
  · refine (ownCell_ownPut hby l hput j o).trans ?_
    rw [show ownCell t.wave (32 * o + j.val) = ownCell s.wave (32 * o + j.val) from hcell _]
    exact congrArg (fun cells => written cells o _) (if_congr eq_comm rfl rfl)

/-- The store of a unit outside a versioned task, on this package. -/
theorem storeUnit_stored {s : State} (h : Tidy s) (l : Fin 32) {p : Place} (hp : ∀ z, p ≠ .remote z) {bytes : List W8} (hlen : bytes.length ≤ 16) :
    ∃ u, storeUnit s false l p bytes = some u ∧ Stored s u (globalCells p bytes) (sharedCells p bytes) (ownCells l p bytes) := by
  cases p with
  | mem pa va => exact ⟨_, rfl, storeUnit_mem h pa bytes⟩
  | own off => exact storeUnit_own h false l off hlen
  | spad i off => exact ⟨_, rfl, storeUnit_spad h i off bytes⟩
  | remote z => exact absurd rfl (hp z)

/-! ### The stores of all lanes -/

section
variable (data : Fin 32 → List W8) (ps : List (Fin 32 × Place))

/-- What the lanes write in global memory, in a group's scratchpad, and in a lane's own memory. -/
def globalWrites : List (Nat × W8) := ps.flatMap fun x => globalCells x.2 (data x.1)
def sharedWrites (i : Fin 8) : List (Nat × W8) := ps.flatMap fun x => sharedCells x.2 (data x.1) i
def ownWrites (j : Fin 32) : List (Nat × W8) := ps.flatMap fun x => ownCells x.1 x.2 (data x.1) j

end

theorem performStores_stored {data : Fin 32 → List W8} (hlen : ∀ l, (data l).length ≤ 16) {ps : List (Fin 32 × Place)} (hps : ∀ x ∈ ps, ∀ z, x.2 ≠ .remote z) :
    ∀ {s : State}, Tidy s → ∃ u, performStores false data ps s = some u ∧ Stored s u (globalWrites data ps) (sharedWrites data ps) (ownWrites data ps) := by
  induction ps with
  | nil => exact fun {s} h => ⟨s, rfl, stored_refl h⟩
  | cons x ps ih =>
    obtain ⟨l, p⟩ := x
    intro s h
    obtain ⟨t, ht, hstored⟩ := storeUnit_stored h l (hps _ (List.mem_cons_self ..)) (hlen l)
    obtain ⟨u, hu, hrest⟩ := ih (fun y hy => hps y (List.mem_cons_of_mem _ hy)) hstored.tidy
    refine ⟨u, ?_, hstored.trans hrest⟩
    simp only [performStores, ht, hu]

/-! ### A versioned task's stores (R261) -/

theorem storeUnit_versioned {s u : State} {l : Fin 32} {p : Place} {bytes : List W8} (h : storeUnit s true l p bytes = some u) :
    u.wave.ids = s.wave.ids ∧ u.hbm = s.hbm ∧
      ∀ a, gangVersion u s.wave.ids.gang a = (latestOf (globalCells p bytes) a).or (gangVersion s s.wave.ids.gang a) := by
  cases p with
  | mem pa va => exact ⟨congrArg Wave.ids (versionUnit_wave h), versionUnit_hbm _ _ _ _ _ _ h, gangVersion_versionUnit h⟩
  | own off =>
    cases h
    have hside : CacheSide s ((ownLines off bytes.length).foldl (fun t i => privFill t t.wave i) s) :=
      foldl_cacheSide (fun t i => privFill_cacheSide t t.wave i) (ownLines off bytes.length) s
    refine ⟨?_, hside.hbm, fun a => ?_⟩
    · change ((ownLines off bytes.length).foldl (fun t i => privFill t t.wave i) s).wave.ids = _
      rw [hside.wave]
    exact congrArg (fun l : List VByte => (l.find? fun v => v.gang == s.wave.ids.gang && v.pa == a).map fun v => v.val) hside.vbytes
  | spad i off => cases h; exact ⟨rfl, rfl, fun _ => rfl⟩
  | remote z => cases h; exact ⟨rfl, rfl, fun _ => rfl⟩

theorem performStores_versioned {data : Fin 32 → List W8} {ps : List (Fin 32 × Place)} {u : State} : ∀ {s : State}, performStores true data ps s = some u →
    u.hbm = s.hbm ∧ ∀ a, gangVersion u s.wave.ids.gang a = (latestOf (globalWrites data ps) a).or (gangVersion s s.wave.ids.gang a) := by
  induction ps with
  | nil =>
    intro s h
    cases h
    exact ⟨rfl, fun _ => rfl⟩
  | cons x ps ih =>
    obtain ⟨l, p⟩ := x
    intro s h
    simp only [performStores] at h
    split at h
    · cases h
    next t ht =>
      obtain ⟨hids, hhbm, hversion⟩ := storeUnit_versioned ht
      obtain ⟨hhbmu, hversionu⟩ := ih h
      rw [hids] at hversionu
      refine ⟨hhbmu.trans hhbm, fun a => ?_⟩
      rw [hversionu, hversion, ← Option.or_assoc, ← latestOf_append]
      rfl

/-! ### A store whose lanes all pass -/

theorem storeOp_passes {s v : State} {uses : List OpUse} {n : Nat} {a : Src} {c : KReg} {data : Regs → Fin 32 → List W8} {r : List LaneAt × State}
    (hr : checkLanes (countBanks s uses) (activeMask s.wave.regs) (srcLanes s.wave.regs s.wave.ids.wave.val a true) n .store = r)
    (hpass : operandFault s.wave.regs uses (regsTy s.wave.regs).isSome = none) (hpol : policyBad s.wave.regs.k[c] = false)
    (hlanes : PassHere r.1) (hroom : placesOf r.1 ≠ [] → flightCount s.wave .store < 63)
    (hrel : releaseWaits r.2 s.wave.regs.k[c] (placesOf r.1) = false) (hmon : monWaits r.2 (placesOf r.1) = false)
    (hv : performStores (isVersioned s) (data s.wave.regs) (placesOf r.1) (reachLines r.2 s.wave.regs.k[c] (placesOf r.1)) = some v) :
    storeOp s uses n a c data =
      .next (retireWave (onWave v fun z => { z with flights := z.flights ++ (if placesOf r.1 = [] then [] else [⟨.store, false⟩]) }) 4) := by
  have hside : MemorySide s r.2 := hr ▸ (countBanks_memorySide s uses).trans (checkLanes_memorySide ..)
  have hfull : noRoom r.2 (placesOf r.1) .store = false := by
    rw [noRoom, flightRoom, hside.wave_eq]
    simpa [← not_lt] using hroom
  rw [storeOp, checkedState_next _ hpass]
  simp only [countBanks_wave, hr, hpol, hlanes.not_held, hlanes.laneFails_nil, hlanes.remoteLanes_nil, hfull, hrel, hmon,
    hside.isVersioned_eq, hside.wave_eq, hv, remoteWrites, List.isEmpty_iff, raiseFlight, Bool.or_self, Bool.false_eq_true, if_false, if_true,
    List.isEmpty_nil, Bool.not_true, Bool.false_and]
  by_cases hps : placesOf r.1 = []
  · simp only [hps, if_true, List.append_nil]
    rfl
  · simp only [hps, if_false]

theorem quadBytes_length (r : Regs) (wv : Nat) (b : Src) (l : Fin 32) : (quadBytes r wv b l).length = 16 := by
  simp [quadBytes, List.range_succ]

/-- Settles O22: the lanes' stores write their units one after another from a tidy state, and nothing behind them changes a byte. -/
theorem Settled.stores : Obligations.Stores := by
  unfold Obligations.Stores
  intro s a b c quad r w k n uses data lanes t ps global shared own hpass hpol hlanes hroom hrel hmon hcanonical hown hspads
  have hside : MemorySide s t := (countBanks_memorySide s uses).trans (checkLanes_memorySide ..)
  have hl1p : SameL1p s (reachLines t r.k[c] ps) := ((countBanks_sameL1p s uses).trans (checkLanes_sameL1p ..)).trans (reachLines_sameL1p ..)
  obtain ⟨_, _, _, hreach⟩ := reachLines_lineSide t r.k[c] ps
  have hwave : (reachLines t r.k[c] ps).wave = s.wave := by
    rw [hreach]
    exact hside.wave_eq
  have hhbm : (reachLines t r.k[c] ps).hbm = t.hbm := by rw [hreach]
  have hgroups : (reachLines t r.k[c] ps).groups = t.groups := by rw [hreach]
  have hversions : (reachLines t r.k[c] ps).vbytes = t.vbytes := by rw [hreach]
  have htidy : Tidy (reachLines t r.k[c] ps) :=
    ⟨Canonical.reachLines hcanonical, fun g hg => hspads g (hgroups ▸ hg), hown.congr (congrArg Wave.ids hwave) (congrArg Wave.priv hwave)
      (congrArg Wave.backing hwave) (congrArg Wave.pbase hwave) ((privLines_of_ids (congrArg Wave.ids hwave)).trans (hl1p.lines _))⟩
  have hlen : ∀ l, (data l).length ≤ 16 := fun l => by
    cases quad with
    | true => exact Nat.le_of_eq (quadBytes_length r s.wave.ids.wave.val b l)
    | false => exact (Nat.le_of_eq (leBytes_length ..)).trans ((unitOf_le _).trans (by decide))
  have hexec (v : State) (hv : performStores (isVersioned s) data ps (reachLines t r.k[c] ps) = some v) :
      exec (if quad then .stq a b c else .st a b c) s =
        .next (retireWave (onWave v fun z => { z with flights := z.flights ++ (if ps = [] then [] else [⟨.store, false⟩]) }) 4) := by
    cases quad with
    | true => exact storeOp_passes (data := fun r l => quadBytes r s.wave.ids.wave.val b l) rfl hpass hpol hlanes hroom hrel hmon hv
    | false =>
      exact storeOp_passes (data := fun r l => leBytes (unitOf (curTy s.wave.regs)) (srcAt r s.wave.ids.wave.val b (regsWide s.wave.regs) l).toNat) rfl hpass hpol
        hlanes hroom hrel hmon hv
  refine ⟨fun hver => ?_, fun hver hsome => ?_⟩
  · obtain ⟨v, hv, hstored⟩ := performStores_stored hlen (fun x hx => PassHere.place_here hlanes hx) htidy
    rw [← hver] at hv
    have hnext := hexec v hv
    rw [retireWave_eq] at hnext
    refine ⟨_, hnext, ?_, fun x => ?_, fun i o hi => ?_, fun l o => ?_, ?_⟩
    · change { v.wave.regs with pc := v.wave.regs.pc + 4, latch := latchAfter v.wave.regs none } = _
      rw [hstored.regs, hwave]
    · refine (hstored.global x).trans ?_
      rw [memByte, hhbm]
      rfl
    · have hbytes := hstored.shared i o
      rw [hwave, findGroup, hgroups, byteAt_congr hhbm hgroups] at hbytes
      exact hbytes hi
    · refine (hstored.own l o).trans ?_
      rw [hwave]
      rfl
    · change v.wave.flights ++ _ = _
      rw [hstored.flights, hwave]
  · obtain ⟨v, hv⟩ := Option.isSome_iff_exists.mp hsome
    obtain ⟨hhbmv, hversion⟩ := performStores_versioned hv
    have hregs : v.wave.regs = r := (performStores_regs hv).trans (congrArg Wave.regs hwave)
    rw [← hver] at hv
    have hnext := hexec v hv
    rw [retireWave_eq] at hnext
    refine ⟨_, hnext, ?_, fun x => ?_, fun x => ?_⟩
    · change { v.wave.regs with pc := v.wave.regs.pc + 4, latch := latchAfter v.wave.regs none } = _
      rw [hregs]
    · exact congrArg (fun m => cellGet 0 m x) (hhbmv.trans hhbm)
    · have hbyte := hversion x
      rw [hwave] at hbyte
      refine hbyte.trans ?_
      rw [gangVersion, hversions]
      rfl

end Sys2Proof
end

section
/-!
SUPPORT. Matrix commands: their issue (R296, R302 to R306, R308 to R310), the reads of tiles and of monitor counters (R307, R309), and a signal whose update fails (R305, R429, R430).
-/

namespace Sys2Proof

open Sys2Proof.Machine

/-! ### What the issue checks change (R304, R310) -/

theorem transPages_memorySide (c : Fin 192) (k : Option GangKey) (p : Fin 24) (va : Nat) (acc : Sys2Proof.Access) (pages : List Nat) (s : State) :
    MemorySide s (transPages c k p va acc pages s).2 := by
  induction pages generalizing s with
  | nil => exact MemorySide.refl s
  | cons page rest ih =>
    have h := coreTranslate_memorySide s c k p (max va (page * 2 ^ 15)) acc
    simp only [transPages]
    split
    next e => rw [e] at h; exact h
    next e => rw [e] at h; exact h
    next pa t e =>
      rw [e] at h
      have hrest := h.trans (ih t)
      split
      next e => rw [e] at hrest; exact hrest
      · exact hrest

theorem operandCheck_memorySide (s : State) (a n which step : Nat) : MemorySide s (operandCheck s a n which step).2 := by
  simp only [operandCheck]
  split
  · exact MemorySide.refl s
  · split
    · split_ifs <;> exact MemorySide.refl s
    next va _ _ _ =>
      have h := transPages_memorySide s.wave.ids.core (some s.wave.ids.gang) s.wave.ids.part va .read (pagesOf va n) s
      split
      · exact MemorySide.refl s
      · split
        next e => rw [e] at h; exact h
        next e => rw [e] at h; exact h
        next e => rw [e] at h; exact h
    · exact MemorySide.refl s

theorem ringChecks_memorySide (p : Plan) (a b : W64) (compl : Option W64) (stages : List Nat) (pages : List (Nat × Nat)) (s : State) :
    MemorySide s (ringChecks p a b compl stages pages s).2 := by
  induction stages generalizing pages s with
  | nil => exact MemorySide.refl s
  | cons i rest ih =>
    have ha := operandCheck_memorySide s (stageBase a (operandBytes p.fa) i).toNat (operandBytes p.fa) 0 i
    simp only [ringChecks]
    split
    next la t e =>
      rw [e] at ha
      have hb := ha.trans (operandCheck_memorySide t (stageBase b (operandBytes p.fb) i).toNat (operandBytes p.fb) 1 i)
      split
      next lb u e =>
        rw [e] at hb
        split
        · exact hb
        · exact hb.trans (ih _ u)
      · exact hb
    · exact ha

theorem monCheck_memorySide (s : State) (a : Nat) : MemorySide s (monCheck s a).2 := by
  simp only [monCheck]
  split
  · exact MemorySide.refl s
  · split
    · exact MemorySide.refl s
    · split_ifs <;> exact MemorySide.refl s
  next va _ =>
    have h := transPages_memorySide s.wave.ids.core (some s.wave.ids.gang) s.wave.ids.part va .write (pagesOf va 24) s
    split
    · exact MemorySide.refl s
    · split
      next e => rw [e] at h; exact h
      next e => rw [e] at h; exact h
      next e =>
        rw [e] at h
        split_ifs <;> exact h
  · exact MemorySide.refl s

/-! ### Issue (R296) -/

/-- A command last in a core's issue buffer. -/
def waitsLast (x : MxEntry) (c : Core) : Core := { c with mxWait := c.mxWait ++ [x] }

/-- With room in the engine's counter a command waits in the issue buffer, and the wave advances (R268, R296). -/
theorem mxIssue_eq {s : State} (hroom : flightCount s.wave .engine < 63) (x : MxCmd) :
    mxIssue s x = { onCore s s.wave.ids.core (waitsLast ⟨x, issuerOf s, false⟩) with
      wave := { s.wave with regs := nextWord s.wave.regs, flights := s.wave.flights ++ [⟨.engine, false⟩] } } := by
  rw [mxIssue, flightRoom, decide_eq_true hroom, Bool.not_true, if_neg Bool.false_ne_true, retireWave_eq]
  rfl

theorem mxIssue_issued {s : State} (hroom : flightCount s.wave .engine < 63) (x : MxCmd) : MatrixIssued s (mxIssue s x) x := by
  rw [mxIssue_eq hroom]
  exact {
    waits := ⟨issuerOf s, ⟨rfl, rfl, rfl, rfl, rfl, rfl, rfl, rfl, rfl⟩, onCore_at s s.wave.ids.core (waitsLast ⟨x, issuerOf s, false⟩)⟩
    others := fun c hc => onCore_other s s.wave.ids.core c (waitsLast ⟨x, issuerOf s, false⟩) hc
    wave := rfl
    rest := rfl
    memory := sameMemory_of_eq rfl rfl rfl }

/-- The same behind checks that leave the wave alone. -/
theorem mxIssue_issued_behind {s t : State} (hside : MemorySide s t) (hroom : flightCount s.wave .engine < 63) (x : MxCmd) :
    MatrixIssued t (mxIssue t x) x := mxIssue_issued (by rwa [hside.wave_eq]) x

/-- A plan that is no error, with a ring that passes its checks: the steps are issued (R304, R306). -/
theorem mxSteps_passes {s : State} {t : TileReg} {p : HReg} {a : KReg} {sig : Bool} {cnt nst : Nat} {pages : List (Nat × Nat)} {compl : Option W64}
    {checks : StepCheck × State} (hplan : planOk s.wave.regs.h[p] = true) (hcount : cnt ≠ 0)
    (hcompl : (if sig then some s.wave.regs.k[(a + 2 : Fin 32)] else none) = compl)
    (hchecks : ringChecks (planOf s.wave.regs.h[p]) s.wave.regs.k[a] s.wave.regs.k[(a + 1 : Fin 32)] compl (List.range (min cnt nst)) [] s = checks)
    (hpass : checks.1 = .ok pages) :
    mxSteps s t p a sig cnt nst =
      mxIssue checks.2 (.steps t s.wave.regs.h[p] s.wave.regs.k[a] s.wave.regs.k[(a + 1 : Fin 32)] compl pages.eraseDups cnt nst 0) := by
  obtain ⟨_, u⟩ := checks
  subst hpass
  simp only [mxSteps, hplan, hcompl, hchecks, hcount, Bool.not_true, Bool.false_eq_true, if_false]

/-- A loop of no steps has no stage to check and issues nothing (R306). -/
theorem mxSteps_zero {s : State} {p : HReg} (hplan : planOk s.wave.regs.h[p] = true) (t : TileReg) (a : KReg) (sig : Bool) (nst : Nat) :
    mxSteps s t p a sig 0 nst = retireWave s 4 := by
  simp only [mxSteps, hplan, Nat.zero_min, List.range_zero, ringChecks, Bool.not_true, Bool.false_eq_true, if_false, if_true]

/-- MXMON's range and its completion address pass their checks (R310). -/
theorem mxmon_passes {s : State} {slot : Fin 8} {a : KReg} {sig : Bool} {pas : List Nat} {compl : Option W64}
    (hcompl : (if sig then some s.wave.regs.k[(a + 1 : Fin 32)] else none) = compl) (hpass : (monCheck s s.wave.regs.k[a].toNat).1 = .ok pas)
    (hok : ∀ c, compl = some c → completionCheck (monCheck s s.wave.regs.k[a].toNat).2 s.wave.ids.gang c.toNat = none) :
    exec (.mxmon slot a sig) s = .next (mxIssue (monCheck s s.wave.regs.k[a].toNat).2 (.mon slot s.wave.regs.k[a] pas compl)) := by
  have hwave := (monCheck_memorySide s s.wave.regs.k[a].toNat).wave_eq
  obtain ⟨t, ht⟩ : ∃ t, monCheck s s.wave.regs.k[a].toNat = (.ok pas, t) := ⟨_, Prod.ext hpass rfl⟩
  rw [ht] at hwave hok ⊢
  replace hwave : t.wave = s.wave := hwave
  have hnone : (compl.bind fun c => (completionCheck t t.wave.ids.gang c.toNat).map fun x => (x, c)) = none := by
    cases compl with
    | none => rfl
    | some c => simpa [hwave] using hok c rfl
  show execMxmon slot a sig s = _
  simp only [execMxmon, ht, hcompl, hnone]

/-- MXWR whose operands pass R91 (R308). -/
theorem mxwr_passes {s : State} {x y : Src} (hpass : operandFault s.wave.regs [.src x false, .src y false] true = none) :
    exec (.mxwr x y) s = .next (mxIssue (countBanks s [.src x false, .src y false])
      (.write ((laneList.filter fun l => laneOn s.wave.regs l).map fun l =>
        (selTile (srcLanes s.wave.regs s.wave.ids.wave.val x false)[l], selElem (srcLanes s.wave.regs s.wave.ids.wave.val x false)[l],
          lo32 (srcLanes s.wave.regs s.wave.ids.wave.val y false)[l])))) := by
  show execMxwr x y s = _
  rw [execMxwr, checkedState_next _ hpass]
  simp only [countBanks_wave, activeMask_lsb]

/-- Settles O26: behind their checks the commands share one issue, and the checks leave the wave alone. -/
theorem Settled.matrixIssue : Obligations.MatrixIssue := by
  unfold Obligations.MatrixIssue
  intro s p a l x y tile fill mask slot sig pas r room count ring signal lanes sel val checks issues
  have hcount : bitsOf r.k[l].toNat 15 0 = count := by simp [bitsOf, count]
  have hring : (if bitsOf r.k[l].toNat 23 16 = 0 then 256 else bitsOf r.k[l].toNat 23 16) = ring := rfl
  have hissues {i : Instr} {cnt nst : Nat} (hi : exec i s = .next (mxSteps s tile p a sig cnt nst)) (hroom : room) (hcnt : cnt ≠ 0) : issues i cnt nst := by
    intro pages hplan hpass
    refine ⟨_, hi.trans (congrArg _ (mxSteps_passes hplan hcnt rfl rfl hpass)), ?_⟩
    exact mxIssue_issued_behind (ringChecks_memorySide ..) hroom _
  have hloop : exec (.mxloop tile p a l sig) s = .next (mxSteps s tile p a sig count ring) := by
    rw [← hcount, ← hring]
    rfl
  refine ⟨fun hplan => ⟨_, ?_, rfl⟩, fun hplan => ?_, fun hroom => ⟨_, rfl, mxIssue_issued hroom _⟩, fun hroom => ⟨_, rfl, mxIssue_issued hroom _⟩,
    fun hroom => hissues rfl hroom one_ne_zero, fun hroom hcnt => hissues hloop hroom hcnt, fun hzero hplan => ⟨_, ?_, rfl⟩,
    fun hroom hpass => ⟨_, mxwr_passes hpass, mxIssue_issued_behind (countBanks_memorySide ..) hroom _⟩,
    fun hroom hpass hok => ⟨_, mxmon_passes rfl hpass hok, mxIssue_issued_behind (monCheck_memorySide ..) hroom _⟩⟩
  · show execMxplan p a s = _
    rw [execMxplan, if_pos hplan, onRegs, retire_next]
  · show execMxplan p a s = _
    rw [execMxplan, if_neg (Bool.eq_false_iff.mp hplan), trapWave]
  · rw [hloop, hzero, mxSteps_zero hplan, retireWave_eq]
    rfl

/-! ### Reads (R307, R309) -/

theorem countBanks_coresOnly (s : State) (uses : List OpUse) : CoresOnly s (countBanks s uses) := by
  refine ⟨(countBanks s uses).cores, ?_⟩
  rw [← countBanks_wave s uses]
  exact (countBanks_only s uses).rest

theorem bindTile_coresOnly (s : State) (c : Fin 192) (k : GangKey) (i : Fin 8) (t : TileReg) : CoresOnly s (bindTile s c k i t) := ⟨_, rfl⟩

/-- The commands of the wave's group that are not over, in the queue and in the issue buffer of its core. -/
theorem mem_groupCmds {s : State} {y : MxCmd} : y ∈ groupCmds s ↔
    ∃ e ∈ s.cores[s.wave.ids.core].mxQueue ++ s.cores[s.wave.ids.core].mxWait,
      (e.who.gang = some s.wave.ids.gang ∧ e.who.group = s.wave.ids.group) ∧ e.cmd = y := by
  simp only [groupCmds, List.mem_map, List.mem_filter, Bool.and_eq_true, beq_iff_eq, and_assoc]

/-- Bank conflicts leave the queues alone (R152). -/
theorem groupCmds_countBanks (s : State) (uses : List OpUse) : groupCmds (countBanks s uses) = groupCmds s := by
  simp only [groupCmds, countBanks_wave]
  rw [(countBanks_only s uses).cores s.wave.ids.core]

theorem myGroup_countBanks (s : State) (uses : List OpUse) : myGroup (countBanks s uses) = myGroup s := by
  rw [(countBanks_only s uses).rest, countBanks_wave]
  rfl

/-- A counter of a slot; numbers 6 and 7 name none and read as 0 (R309). -/
theorem monCounter_eq (g : Group) (x : W64) : monCounter g x =
    if x.toNat / 8 % 8 < 6 then (g.mons[(Fin.ofNat 8 x.toNat : Fin 8)])[(Fin.ofNat 6 (x.toNat / 8 % 8) : Fin 6)] else 0 := by
  unfold monCounter
  dsimp only
  split
  next h =>
    congr 1
    exact Fin.ext (Nat.mod_eq_of_lt h).symm
  · rfl

/-- A value that a read of the matrix engine delivers: only the registers of the wave and what the cores hold differ. -/
theorem laneFinish_delivers {s t : State} (ht : CoresOnly s t) {d : Dst} (hfits : DstFits d false) (h : Hold) (x v : Lanes W64) :
    let u := onRegs t fun r => laneFinish r 4 d h ⟨x, false, v, false⟩ v false
    SameMemory s u ∧ u = { s with wave := { s.wave with regs := u.wave.regs }, cores := u.cores } ∧
      LaneDone s.wave.regs u.wave.regs 4 d false v (heldBy h (x, false) (v, false) (onActive s.wave.regs v, false)) := by
  obtain ⟨_, rfl⟩ := ht
  exact ⟨sameMemory_of_eq rfl rfl rfl, rfl, laneFinish_done s.wave.regs 4 d h ⟨x, false, v, false⟩ v false hfits⟩

/-- The tiles that the active lanes name (R307). -/
def namedTiles (s : State) (x : Lanes W64) : List TileReg := (laneList.filter fun l => laneOn s.wave.regs l).map fun l => selTile x[l]

/-- The elements of a group's tiles that the lanes name (R307). -/
def tileValues (g : Group) (x : Lanes W64) : Lanes W64 := Lanes.of fun l => (cellGet (0 : W32) g.tiles[selTile x[l]] (selElem x[l])).setWidth 64

/-- The monitor counters of a group that the lanes name (R309). -/
def monValues (g : Group) (x : Lanes W64) : Lanes W64 := Lanes.of fun l => (monCounter g x[l]).setWidth 64

/-- MXRD where no command on a named tile is outstanding (R307). -/
theorem mxrd_passes {s : State} {d : Dst} {a : Src} {h : Hold} {g : Group} {x : Lanes W64} (hx : srcLanes s.wave.regs s.wave.ids.wave.val a false = x)
    (hpass : operandFault s.wave.regs [.src a false, .dst d false] true = none) (hgroup : myGroup s = some g)
    (hover : ∀ y ∈ groupCmds s, ∀ t ∈ cmdTiles y, t ∉ namedTiles s x) :
    ∃ t, CoresOnly s t ∧ exec (.mxrd d a h) s = .next (onRegs t fun r =>
      laneFinish r 4 d h ⟨x, false, tileValues g x, false⟩ (tileValues g x) false) := by
  have hidle : ((groupCmds s).any fun y => (cmdTiles y).any (namedTiles s x).contains) = false := by
    simpa using hover
  refine ⟨_, (countBanks_coresOnly s [.src a false, .dst d false]).trans
    (foldl_coresOnly (fun t y => bindTile t s.wave.ids.core s.wave.ids.gang s.wave.ids.group y) (fun t y => bindTile_coresOnly t ..)
      (namedTiles s x).eraseDups _), ?_⟩
  show execMxrd d a h s = _
  rw [execMxrd, checkedState_next _ hpass]
  unfold namedTiles at hidle ⊢
  simp only [countBanks_wave, activeMask_lsb, groupCmds_countBanks, myGroup_countBanks, hx, hidle, hgroup, Bool.false_eq_true, if_false, tileValues]

/-- MONRD where no command of the group is outstanding (R309). -/
theorem monrd_passes {s : State} {d : Dst} {a : Src} {h : Hold} {g : Group} {x : Lanes W64} (hx : srcLanes s.wave.regs s.wave.ids.wave.val a false = x)
    (hpass : operandFault s.wave.regs [.src a false, .dst d false] true = none) (hgroup : myGroup s = some g) (hover : groupCmds s = []) :
    exec (.monrd d a h) s = .next (onRegs (countBanks s [.src a false, .dst d false]) fun r =>
      laneFinish r 4 d h ⟨x, false, monValues g x, false⟩ (monValues g x) false) := by
  show execMonrd d a h s = _
  rw [execMonrd, checkedState_next _ hpass]
  simp only [groupCmds_countBanks, myGroup_countBanks, countBanks_wave, hx, hover, hgroup, List.isEmpty_nil, Bool.not_true, Bool.false_eq_true, if_false, monValues]

/-- Settles O27: with no command of the wave's group in the way, the reads deliver what the group holds. -/
theorem Settled.matrixReads : Obligations.MatrixReads := by
  unfold Obligations.MatrixReads
  intro s d a h g r x mine cmds does hpass hgroup
  have hfits : DstFits d false := dstFits_of_passed r _ true d false (by simp) hpass
  refine ⟨fun hover => ?_, fun hover => ?_⟩
  · obtain ⟨t, ht, hexec⟩ := mxrd_passes (h := h) (x := x) rfl hpass hgroup fun y hy t hty hnamed => by
      obtain ⟨e, he, hmine, rfl⟩ := mem_groupCmds.mp hy
      obtain ⟨l, hl, rfl⟩ := List.mem_map.mp hnamed
      exact hover e he hmine _ hty l (List.mem_filter.mp hl).2 rfl
    exact ⟨_, hexec, laneFinish_delivers ht hfits ..⟩
  · have hnone : groupCmds s = [] := List.eq_nil_iff_forall_not_mem.mpr fun y hy => by
      obtain ⟨e, he, hmine, -⟩ := mem_groupCmds.mp hy
      exact hover e he hmine
    have hdone := laneFinish_delivers (countBanks_coresOnly s [.src a false, .dst d false]) hfits h x (monValues g x)
    have hexec := monrd_passes (h := h) (x := x) rfl hpass hgroup hnone
    simp only [monValues, monCounter_eq, apply_ite (BitVec.setWidth 64)] at hdone hexec
    exact ⟨_, hexec, hdone⟩

/-! ### A signal whose update fails contains the gang (R305)

The completion object of the signal at the head of the queue is a counter on a page that is not mapped: the gang is killed, and its other commands leave the queue too. -/

/-- A signal at the head of a queue, whose writes are applied, updates its completion object (R305, R310). -/
theorem matrixCommandRun_signal {s : State} {c : Fin 192} {x : W64} {w : List (Fin 2 × Nat)} {err again : Bool} {who : Issuer} {rest : List MxEntry}
    (hqueue : s.cores[c].mxQueue = ⟨.signal x w err, who, again⟩ :: rest) (happlied : appliedOn s (objectDie s who x) w = true) :
    exec (.matrixCommandRun c) s =
      .next (settleObjs (completeAt (onCore s c fun y => { y with mxQueue := rest }) who none x 0 err (coverWrites who.clk w))) := by
  show execMatrixCommandRun c s = _
  simp only [execMatrixCommandRun, runReady, hqueue, happlied, Bool.not_true, Bool.false_eq_true, if_false]

/-- A command of the stepping gang that stands behind the signal. -/
def laterCommand : MxEntry := ⟨.monclr 0, steppingIssuer, false⟩

/-- The signal of a counter at the global address 0 at the head of the queue of core 0, and a command of the same gang behind it. -/
def unmappedSignal : State :=
  onCore { State.reset with groups := [steppingGroup], gangs := [steppingGang] } 0 fun c =>
    { c with mxQueue := [⟨.signal 0 [] false, steppingIssuer, false⟩, laterCommand] }

theorem unmappedSignal_queue : unmappedSignal.cores[(0 : Fin 192)].mxQueue = [⟨.signal 0 [] false, steppingIssuer, false⟩, laterCommand] :=
  congrArg Core.mxQueue (onCore_at ..)

/-- The signal runs, and no command of the gang is queued then. -/
theorem unmappedSignal_runs : ∃ u, exec (.matrixCommandRun 0) unmappedSignal = .next u ∧ NoneQueued ⟨0, 0⟩ u := by
  refine ⟨_, matrixCommandRun_signal unmappedSignal_queue rfl, ?_⟩
  refine NoneQueued.congr ?_ (sameQueues_of_cores (settleObjs_cores _))
  refine completeAt_noneQueued (va := 0) (c := 0x20) ?_ ?_ rfl rfl ?_ ?_ 0 false _
  · decide +kernel
  · decide +kernel
  · rfl
  · decide +kernel

/-- Refutes O29: a signal whose completion object is a counter on a page that is not mapped does not leave the commands behind it in the queue, since the failed update contains the gang (R305, R430). -/
theorem Settled.not_matrixCommands : ¬ Obligations.MatrixCommands := by
  unfold Obligations.MatrixCommands
  intro h
  obtain ⟨-, -, -, -, -, hsignal⟩ := h unmappedSignal 0 steppingIssuer [laterCommand] ⟨0, 0⟩ steppingGroup 0 .zero [] 0 0 0 none false rfl rfl
  obtain ⟨u, hu, hqueue, -⟩ := hsignal 0 [] false unmappedSignal_queue rfl
  obtain ⟨t, ht, hnone⟩ := unmappedSignal_runs
  rw [ht] at hu
  cases hu
  have hleft : laterCommand ∈ u.cores[(0 : Fin 192)].mxQueue := by
    rw [hqueue]
    exact List.mem_singleton_self _
  exact hnone 0 _ hleft rfl

end Sys2Proof
end
